-- ==== Sys2Proof/Word.lean ====
section
/-!
DEFINITION. The word types of the HJ7-768 and their plainest arithmetic.
Bit 0 is the least significant bit of every word (spec/00_scope.md R1).
-/

namespace Sys2Proof

/-- A 64-bit register or double-word. -/
abbrev Word := BitVec 64
/-- One byte of memory. -/
abbrev Byte := BitVec 8
/-- A 32-bit lane of the vector engine (07_vxe_model.md R157). -/
abbrev Lane := BitVec 32
/-- A 384-byte row: a vector register, a queue entry or a scratchpad row (R9, R157). -/
abbrev Row := BitVec 3072

end Sys2Proof
end

