-- ==== Sys2Proof/Syntax.lean ====
section
/-!
DEFINITION. The syntax of the HJ7-768: one constructor per row of spec/opcode_table.json.
The words of the AP, MXE and VXE streams carry their header (02_encoding.md R22) and their operand fields (R28, R33);
the rows without an encoding are the steps of the machine (95_what_each_step_holds.md), whose arguments say
which core, region, engine command or host request the step concerns.
-/

namespace Sys2Proof

/-- The header of a word, bits 31:23 (R22): WP, WN, SP, SN, VS and the guard G. -/
structure Hdr where
  wp : Bool
  wn : Bool
  sp : Bool
  sn : Bool
  vs : BitVec 2
  g : BitVec 3
  deriving DecidableEq, Repr, Inhabited

/-- The three instruction streams of a core (01_machine.md R5). -/
inductive Stream where
  | ap | mx | vx
  deriving DecidableEq, Repr, Inhabited

/-- What a read meets in the error-correcting code (22_faults.md R367). -/
inductive Ecc where
  | clean | correctable | uncorrectable
  deriving DecidableEq, Repr, Inhabited

/-- One stage-2 mapping (04_memory.md R84): guest addresses [gpa, gpa + len) of module `mod` lie at device address `pa`,
or in host memory; `plain` marks a plaintext-capable granule (R83). -/
structure S2Map where
  mod : Nat
  gpa : Nat
  len : Nat
  pa : Nat
  host : Bool
  wr : Bool
  plain : Bool
  deriving DecidableEq, Repr, Inhabited

/-- A Management Firmware request about a partition (24_device.md R377). -/
structure PartReq where
  /-- 64 m + n: partition n, from 1 to 32, of module m. -/
  part : Nat
  /-- true: form or change to the parameters below; false: dissolve. -/
  form : Bool
  clusters : List Nat
  /-- the tenant it belongs to. -/
  tenant : Nat
  /-- HBM share, as (module, first 1 GiB granule, granules). -/
  share : List (Nat × Nat × Nat)
  /-- bandwidth weight, 1 to 255. -/
  weight : Nat
  /-- columns of the Aknus rectangle, and the partitions at its positions, row by row, its own among them. -/
  rectX : Nat
  rect : List Nat
  /-- shared key ids, as (id, partition whose key it is). -/
  shared : List (Nat × Nat)
  stage2 : List S2Map
  privOk : Bool
  deriving DecidableEq, Repr, Inhabited

/-- A region and the die whose scoreboard takes it (21_scheduler.md R337). -/
structure RegionDie where
  rid : Nat
  die : Nat
  deriving DecidableEq, Repr, Inhabited

/-- The cores of an issue, and whether a unit of a rectangle proves unreachable (21_scheduler.md R344). -/
structure Placing where
  cores : List Nat
  unreachable : Bool
  deriving DecidableEq, Repr, Inhabited

/-- Where a corrected error is met: in a core's arrays (22_faults.md R367), or in a partition's HBM share (R368). -/
inductive EccSite where
  | core (k : Nat)
  | share (pn : Nat)
  deriving DecidableEq, Repr, Inhabited

/-- A move of a BTE command: up to `units` units in order (13_bte.md R247); bit i of `early` says that byte i read takes the value
of a store not yet performed (04_memory.md R99). -/
structure BteMove where
  units : Nat
  early : Nat
  deriving DecidableEq, Repr, Inhabited

/-- A turn of an engine that reads as `early` says, bit by bit (04_memory.md R99): of the command with a number, or of the command that
a cluster's Quern runs. -/
structure EarlyTurn where
  of : Nat
  early : Nat
  deriving DecidableEq, Repr, Inhabited

/-- What the monitors of a die show (24_device.md R393): its module's power in watts and its hottest junction in °C, each rounded up. -/
structure Reading where
  power : Nat
  junction : Nat
  deriving DecidableEq, Repr, Inhabited

/-- A register of a VF page: the function and the offset (24_device.md R379). -/
structure PageReg where
  vf : Nat
  off : Nat
  deriving DecidableEq, Repr, Inhabited

/-- A value that concerns one module of the pod (24_device.md R376, R386, R392). -/
structure OfModule (α : Type) where
  mod : Nat
  val : α
  deriving DecidableEq, Repr, Inhabited

/-- The instructions and steps, one constructor per row of the opcode table. -/
inductive Instr where
  /-- NOP, R134. -/
  | nop (h : Hdr)
  /-- ADD, R120. -/
  | add (h : Hdr) (d : BitVec 5) (a : BitVec 5) (b : BitVec 5)
  /-- SUB, R120. -/
  | sub (h : Hdr) (d : BitVec 5) (a : BitVec 5) (b : BitVec 5)
  /-- AND, R120. -/
  | and (h : Hdr) (d : BitVec 5) (a : BitVec 5) (b : BitVec 5)
  /-- OR, R120. -/
  | or (h : Hdr) (d : BitVec 5) (a : BitVec 5) (b : BitVec 5)
  /-- XOR, R120. -/
  | xor (h : Hdr) (d : BitVec 5) (a : BitVec 5) (b : BitVec 5)
  /-- ANDN, R120. -/
  | andn (h : Hdr) (d : BitVec 5) (a : BitVec 5) (b : BitVec 5)
  /-- SHL, R120. -/
  | shl (h : Hdr) (d : BitVec 5) (a : BitVec 5) (b : BitVec 5)
  /-- SHR, R120. -/
  | shr (h : Hdr) (d : BitVec 5) (a : BitVec 5) (b : BitVec 5)
  /-- SRA, R120. -/
  | sra (h : Hdr) (d : BitVec 5) (a : BitVec 5) (b : BitVec 5)
  /-- ROTL, R120. -/
  | rotl (h : Hdr) (d : BitVec 5) (a : BitVec 5) (b : BitVec 5)
  /-- MIN, R120. -/
  | min (h : Hdr) (d : BitVec 5) (a : BitVec 5) (b : BitVec 5)
  /-- MAX, R120. -/
  | max (h : Hdr) (d : BitVec 5) (a : BitVec 5) (b : BitVec 5)
  /-- MINU, R120. -/
  | minu (h : Hdr) (d : BitVec 5) (a : BitVec 5) (b : BitVec 5)
  /-- MAXU, R120. -/
  | maxu (h : Hdr) (d : BitVec 5) (a : BitVec 5) (b : BitVec 5)
  /-- MUL, R121. -/
  | mul (h : Hdr) (d : BitVec 5) (a : BitVec 5) (b : BitVec 5)
  /-- MULH, R121. -/
  | mulh (h : Hdr) (d : BitVec 5) (a : BitVec 5) (b : BitVec 5)
  /-- MULHU, R121. -/
  | mulhu (h : Hdr) (d : BitVec 5) (a : BitVec 5) (b : BitVec 5)
  /-- DIVU, R121. -/
  | divu (h : Hdr) (d : BitVec 5) (a : BitVec 5) (b : BitVec 5)
  /-- REMU, R121. -/
  | remu (h : Hdr) (d : BitVec 5) (a : BitVec 5) (b : BitVec 5)
  /-- CLZ, R122. -/
  | clz (h : Hdr) (d : BitVec 5) (a : BitVec 5)
  /-- POPC, R122. -/
  | popc (h : Hdr) (d : BitVec 5) (a : BitVec 5)
  /-- LEA, R122. -/
  | lea (h : Hdr) (d : BitVec 5) (a : BitVec 5) (b : BitVec 5)
  /-- LEA_D, R122. -/
  | leaD (h : Hdr) (d : BitVec 5) (a : BitVec 5) (b : BitVec 5)
  /-- SEXT, R122. -/
  | sext (h : Hdr) (d : BitVec 5) (a : BitVec 5) (n : BitVec 6)
  /-- ZEXT, R122. -/
  | zext (h : Hdr) (d : BitVec 5) (a : BitVec 5) (n : BitVec 6)
  /-- BFX, R123. -/
  | bfx (h : Hdr) (d : BitVec 5) (a : BitVec 5) (b : BitVec 5)
  /-- BFX_S, R123. -/
  | bfxS (h : Hdr) (d : BitVec 5) (a : BitVec 5) (b : BitVec 5)
  /-- BFI, R123. -/
  | bfi (h : Hdr) (d : BitVec 5) (a : BitVec 5) (b : BitVec 5)
  /-- ADDI, R124. -/
  | addi (h : Hdr) (d : BitVec 5) (a : BitVec 5) (i : BitVec 6)
  /-- ANDI, R124. -/
  | andi (h : Hdr) (d : BitVec 5) (a : BitVec 5) (i : BitVec 6)
  /-- ORI, R124. -/
  | ori (h : Hdr) (d : BitVec 5) (a : BitVec 5) (i : BitVec 6)
  /-- XORI, R124. -/
  | xori (h : Hdr) (d : BitVec 5) (a : BitVec 5) (i : BitVec 6)
  /-- SHLI, R124. -/
  | shli (h : Hdr) (d : BitVec 5) (a : BitVec 5) (i : BitVec 6)
  /-- SHRI, R124. -/
  | shri (h : Hdr) (d : BitVec 5) (a : BitVec 5) (i : BitVec 6)
  /-- SRAI, R124. -/
  | srai (h : Hdr) (d : BitVec 5) (a : BitVec 5) (i : BitVec 6)
  /-- MOVI, R124. -/
  | movi (h : Hdr) (d : BitVec 5) (i : BitVec 11)
  /-- CMP, R125. -/
  | cmp (h : Hdr) (c : BitVec 3) (p : BitVec 3) (a : BitVec 5) (b : BitVec 5)
  /-- CMPI, R126. -/
  | cmpi (h : Hdr) (c : BitVec 2) (p : BitVec 3) (a : BitVec 5) (i : BitVec 6)
  /-- PLOG, R127. -/
  | plog (h : Hdr) (c : BitVec 3) (p : BitVec 3) (a : BitVec 3) (b : BitVec 3)
  /-- PMOV_TO_X, R128. -/
  | pmovToX (h : Hdr) (d : BitVec 5)
  /-- PMOV_TO_PF, R128. -/
  | pmovToPf (h : Hdr) (a : BitVec 5)
  /-- BPREP, R129. -/
  | bprep (h : Hdr) (n : BitVec 2) (i : BitVec 14)
  /-- BSET, R130. -/
  | bset (h : Hdr) (n : BitVec 2) (a : BitVec 5)
  /-- BXFER, R131. -/
  | bxfer (h : Hdr) (n : BitVec 2) (d : BitVec 2) (l : BitVec 5)
  /-- LSET, R132. -/
  | lset (h : Hdr) (n : BitVec 2) (a : BitVec 5) (i : BitVec 6)
  /-- LBRK, R133. -/
  | lbrk (h : Hdr) (n : BitVec 2)
  /-- LD_B, R135. -/
  | ldB (h : Hdr) (d : BitVec 5) (a : BitVec 5) (b : BitVec 5)
  /-- LD_BU, R135. -/
  | ldBu (h : Hdr) (d : BitVec 5) (a : BitVec 5) (b : BitVec 5)
  /-- LD_H, R135. -/
  | ldH (h : Hdr) (d : BitVec 5) (a : BitVec 5) (b : BitVec 5)
  /-- LD_HU, R135. -/
  | ldHu (h : Hdr) (d : BitVec 5) (a : BitVec 5) (b : BitVec 5)
  /-- LD_W, R135. -/
  | ldW (h : Hdr) (d : BitVec 5) (a : BitVec 5) (b : BitVec 5)
  /-- LD_WU, R135. -/
  | ldWu (h : Hdr) (d : BitVec 5) (a : BitVec 5) (b : BitVec 5)
  /-- LD_D, R135. -/
  | ldD (h : Hdr) (d : BitVec 5) (a : BitVec 5) (b : BitVec 5)
  /-- ST_B, R136. -/
  | stB (h : Hdr) (d : BitVec 5) (a : BitVec 5) (b : BitVec 5)
  /-- ST_H, R136. -/
  | stH (h : Hdr) (d : BitVec 5) (a : BitVec 5) (b : BitVec 5)
  /-- ST_W, R136. -/
  | stW (h : Hdr) (d : BitVec 5) (a : BitVec 5) (b : BitVec 5)
  /-- ST_D, R136. -/
  | stD (h : Hdr) (d : BitVec 5) (a : BitVec 5) (b : BitVec 5)
  /-- LDQ, R138. -/
  | ldq (h : Hdr) (f : BitVec 3) (a : BitVec 5) (b : BitVec 5)
  /-- STQ, R139. -/
  | stq (h : Hdr) (a : BitVec 5) (b : BitVec 5)
  /-- POPQ, R140. -/
  | popq (h : Hdr) (d : BitVec 5)
  /-- POPQ_P, R140. -/
  | popqP (h : Hdr) (p : BitVec 3)
  /-- QMARK, R141. -/
  | qmark (h : Hdr) (t : BitVec 6)
  /-- QKILL, R141. -/
  | qkill (h : Hdr) (t : BitVec 6)
  /-- FENCE, R142. -/
  | fence (h : Hdr) (k : BitVec 2) (sc : BitVec 3)
  /-- AMO_ADD, R144. -/
  | amoAdd (h : Hdr) (d : BitVec 5) (a : BitVec 5) (b : BitVec 5)
  /-- RED_ADD, R144. -/
  | redAdd (h : Hdr) (a : BitVec 5) (b : BitVec 5)
  /-- AMO_MIN, R144. -/
  | amoMin (h : Hdr) (d : BitVec 5) (a : BitVec 5) (b : BitVec 5)
  /-- RED_MIN, R144. -/
  | redMin (h : Hdr) (a : BitVec 5) (b : BitVec 5)
  /-- AMO_MINU, R144. -/
  | amoMinu (h : Hdr) (d : BitVec 5) (a : BitVec 5) (b : BitVec 5)
  /-- RED_MINU, R144. -/
  | redMinu (h : Hdr) (a : BitVec 5) (b : BitVec 5)
  /-- AMO_MAX, R144. -/
  | amoMax (h : Hdr) (d : BitVec 5) (a : BitVec 5) (b : BitVec 5)
  /-- RED_MAX, R144. -/
  | redMax (h : Hdr) (a : BitVec 5) (b : BitVec 5)
  /-- AMO_MAXU, R144. -/
  | amoMaxu (h : Hdr) (d : BitVec 5) (a : BitVec 5) (b : BitVec 5)
  /-- RED_MAXU, R144. -/
  | redMaxu (h : Hdr) (a : BitVec 5) (b : BitVec 5)
  /-- AMO_AND, R144. -/
  | amoAnd (h : Hdr) (d : BitVec 5) (a : BitVec 5) (b : BitVec 5)
  /-- RED_AND, R144. -/
  | redAnd (h : Hdr) (a : BitVec 5) (b : BitVec 5)
  /-- AMO_OR, R144. -/
  | amoOr (h : Hdr) (d : BitVec 5) (a : BitVec 5) (b : BitVec 5)
  /-- RED_OR, R144. -/
  | redOr (h : Hdr) (a : BitVec 5) (b : BitVec 5)
  /-- AMO_XOR, R144. -/
  | amoXor (h : Hdr) (d : BitVec 5) (a : BitVec 5) (b : BitVec 5)
  /-- RED_XOR, R144. -/
  | redXor (h : Hdr) (a : BitVec 5) (b : BitVec 5)
  /-- AMO_SWAP, R144. -/
  | amoSwap (h : Hdr) (d : BitVec 5) (a : BitVec 5) (b : BitVec 5)
  /-- RED_SWAP, R144. -/
  | redSwap (h : Hdr) (a : BitVec 5) (b : BitVec 5)
  /-- AMO_CAS, R146. -/
  | amoCas (h : Hdr) (d : BitVec 5) (a : BitVec 5) (b : BitVec 5)
  /-- AMO_INCWRAP, R144. -/
  | amoIncwrap (h : Hdr) (d : BitVec 5) (a : BitVec 5) (b : BitVec 5)
  /-- RED_INCWRAP, R144. -/
  | redIncwrap (h : Hdr) (a : BitVec 5) (b : BitVec 5)
  /-- AMO_INCB, R145. -/
  | amoIncb (h : Hdr) (d : BitVec 5) (a : BitVec 5) (b : BitVec 5)
  /-- RED_INCB, R144. -/
  | redIncb (h : Hdr) (a : BitVec 5) (b : BitVec 5)
  /-- AMO_DECPOS, R144. -/
  | amoDecpos (h : Hdr) (d : BitVec 5) (a : BitVec 5)
  /-- RED_DECPOS, R144. -/
  | redDecpos (h : Hdr) (a : BitVec 5)
  /-- AMO_FADDLIM, R147. -/
  | amoFaddlim (h : Hdr) (d : BitVec 5) (a : BitVec 5) (b : BitVec 5)
  /-- RED_FADDLIM, R147. -/
  | redFaddlim (h : Hdr) (a : BitVec 5) (b : BitVec 5)
  /-- MXTAB, R223. -/
  | mxtab (h : Hdr) (d : BitVec 5) (a : BitVec 5)
  /-- MXFMT, R223. -/
  | mxfmt (h : Hdr) (d : BitVec 5) (a : BitVec 5)
  /-- MXPERT, R227. -/
  | mxpert (h : Hdr) (d : BitVec 5) (a : BitVec 5)
  /-- MXGO, R228. -/
  | mxgo (h : Hdr) (a : BitVec 5)
  /-- MXWAIT, R229. -/
  | mxwait (h : Hdr)
  /-- VXCALL, R200. -/
  | vxcall (h : Hdr) (a : BitVec 5) (b : BitVec 5)
  /-- VXCALL_SEED, R200. -/
  | vxcallSeed (h : Hdr) (a : BitVec 5) (b : BitVec 5)
  /-- VXWAIT, R200. -/
  | vxwait (h : Hdr)
  /-- BTCFG, R251. -/
  | btcfg (h : Hdr) (c : BitVec 2) (a : BitVec 5)
  /-- BTGO, R252. -/
  | btgo (h : Hdr) (c : BitVec 2) (a : BitVec 5)
  /-- BTWAIT, R253. -/
  | btwait (h : Hdr) (c : BitVec 2)
  /-- BTWAIT_ALL, R253. -/
  | btwaitAll (h : Hdr)
  /-- WL_OPEN, R300. -/
  | wlOpen (h : Hdr) (d : BitVec 5) (a : BitVec 5)
  /-- WL_SLOT, R303. -/
  | wlSlot (h : Hdr) (d : BitVec 5) (a : BitVec 5)
  /-- WL_RSV, R304. -/
  | wlRsv (h : Hdr) (a : BitVec 5) (b : BitVec 5)
  /-- WL_TEST, R305. -/
  | wlTest (h : Hdr) (d : BitVec 5) (a : BitVec 5) (b : BitVec 5)
  /-- WL_TEST_P, R305. -/
  | wlTestP (h : Hdr) (p : BitVec 3) (a : BitVec 5) (b : BitVec 5)
  /-- WL_RELS, R306. -/
  | wlRels (h : Hdr) (a : BitVec 5) (b : BitVec 5)
  /-- WL_DONE, R307. -/
  | wlDone (h : Hdr)
  /-- WL_ROUND, R301. -/
  | wlRound (h : Hdr) (d : BitVec 5)
  /-- WL_CLOSE, R302. -/
  | wlClose (h : Hdr)
  /-- PB_CLAIM, R323. -/
  | pbClaim (h : Hdr) (a : BitVec 5)
  /-- PB_LOAD, R325. -/
  | pbLoad (h : Hdr) (a : BitVec 5) (m : BitVec 1)
  /-- PB_COLOUR, R326. -/
  | pbColour (h : Hdr) (a : BitVec 5) (m : BitVec 1)
  /-- PB_CLAMP, R326. -/
  | pbClamp (h : Hdr) (a : BitVec 5)
  /-- PB_SWEEP, R327. -/
  | pbSweep (h : Hdr) (a : BitVec 5) (m : BitVec 2)
  /-- PB_READ, R328. -/
  | pbRead (h : Hdr) (a : BitVec 5)
  /-- PB_MOM, R329. -/
  | pbMom (h : Hdr) (a : BitVec 5) (m : BitVec 1)
  /-- PB_FREE, R324. -/
  | pbFree (h : Hdr)
  /-- SD_SEED, R277. -/
  | sdSeed (h : Hdr) (d : BitVec 5) (a : BitVec 5)
  /-- SD_EMIT, R282. -/
  | sdEmit (h : Hdr) (a : BitVec 5)
  /-- SD_APPLY, R286. -/
  | sdApply (h : Hdr) (a : BitVec 5)
  /-- SD_GAP, R283. -/
  | sdGap (h : Hdr) (a : BitVec 5)
  /-- SD_FETCH, R284. -/
  | sdFetch (h : Hdr) (a : BitVec 5)
  /-- SD_KEY, R276. -/
  | sdKey (h : Hdr) (a : BitVec 5)
  /-- CX_PUT, R261. -/
  | cxPut (h : Hdr) (a : BitVec 5)
  /-- CX_GET, R261. -/
  | cxGet (h : Hdr) (a : BitVec 5)
  /-- CX_WCNT, R262. -/
  | cxWcnt (h : Hdr) (d : BitVec 5) (a : BitVec 5) (m : BitVec 2)
  /-- CX_SBAR, R264. -/
  | cxSbar (h : Hdr) (d : BitVec 5)
  /-- CX_ARED, R265. -/
  | cxAred (h : Hdr) (a : BitVec 5)
  /-- CX_AGATH, R268. -/
  | cxAgath (h : Hdr) (a : BitVec 5)
  /-- CX_ABORT, R269. -/
  | cxAbort (h : Hdr) (d : BitVec 5)
  /-- CX_BAR, R264. -/
  | cxBar (h : Hdr) (d : BitVec 5)
  /-- RG_SPAWN, R349. -/
  | rgSpawn (h : Hdr) (d : BitVec 5) (a : BitVec 5)
  /-- RG_NEXT, R350. -/
  | rgNext (h : Hdr) (d : BitVec 5)
  /-- RG_STEAL, R350. -/
  | rgSteal (h : Hdr) (d : BitVec 5) (a : BitVec 5)
  /-- RG_STEP, R351. -/
  | rgStep (h : Hdr) (d : BitVec 5)
  /-- RG_YIELD, R348. -/
  | rgYield (h : Hdr)
  /-- RG_EXIT, R348. -/
  | rgExit (h : Hdr) (a : BitVec 5)
  /-- TRAP, R150. -/
  | trap (h : Hdr) (i : BitVec 6)
  /-- ERET, R151. -/
  | eret (h : Hdr)
  /-- SYSR, R152. -/
  | sysr (h : Hdr) (d : BitVec 5) (i : BitVec 11)
  /-- SYSW, R153. -/
  | sysw (h : Hdr) (d : BitVec 5) (i : BitVec 11)
  /-- WFE, R154. -/
  | wfe (h : Hdr)
  /-- EXT, R30. -/
  | ext (i : BitVec 16)
  /-- MX_NOP, R233. -/
  | mxNop (h : Hdr)
  /-- MX_LDW, R231. -/
  | mxLdw (h : Hdr) (f : BitVec 5)
  /-- MX_SWAP, R233. -/
  | mxSwap (h : Hdr)
  /-- MX_RUN, R232. -/
  | mxRun (h : Hdr) (f : BitVec 5) (n : BitVec 8) (k : BitVec 3)
  /-- MX_ZERO, R233. -/
  | mxZero (h : Hdr) (k : BitVec 3)
  /-- MX_DRAIN, R218. -/
  | mxDrain (h : Hdr) (e : BitVec 1) (r : BitVec 1) (b : BitVec 1) (n : BitVec 8) (k : BitVec 3)
  /-- MX_MARK, R233. -/
  | mxMark (h : Hdr)
  /-- MX_CHK, R233. -/
  | mxChk (h : Hdr) (k : BitVec 3)
  /-- MX_BIAS, R233. -/
  | mxBias (h : Hdr)
  /-- MX_FSEL, R233. -/
  | mxFsel (h : Hdr) (l : BitVec 3) (b : BitVec 4) (m : BitVec 4)
  /-- MX_RET, R228. -/
  | mxRet (h : Hdr)
  /-- SUBMISSION, R332. -/
  | submission (vf : Nat) (rec : List (BitVec 8)) (ideT : Bool)
  /-- SCOREBOARD_ENTRY, R337. -/
  | scoreboardEntry (place : RegionDie)
  /-- STREAM_COPY, R338. -/
  | streamCopy (rid : Nat)
  /-- REGION_ISSUE, R342. -/
  | regionIssue (rid : Nat) (place : Placing)
  /-- PREEMPTION, R343. -/
  | preemption (rid : Nat)
  /-- TIMEB_EXPIRY, R339. -/
  | timebExpiry (rid : Nat)
  /-- REGION_COMPLETION, R333. -/
  | regionCompletion (rid : Nat)
  /-- DUAL_RUN_COMPARE, R349. -/
  | dualRunCompare (rid : Nat)
  /-- CAPABILITY_FENCE, R20. -/
  | capabilityFence (core cls : Nat)
  /-- IN_FIELD_TEST, R341. -/
  | inFieldTest (core : Nat) (pass : Bool)
  /-- QUEUE_WATCHDOG_EXPIRY, R362. -/
  | queueWatchdogExpiry (part : Nat)
  /-- FUNCTION_LEVEL_RESET, R370. -/
  | functionLevelReset (part : Nat)
  /-- TOKEN_DEADLOCK, R361. -/
  | tokenDeadlock (core : Nat)
  /-- LATE_REPLY, R360. -/
  | lateReply (core : Nat)
  /-- LATE_REPLY_FREEZE, R105. -/
  | lateReplyFreeze (core : Nat)
  /-- READ_REPLY_ARRIVAL, R104. -/
  | readReplyArrival (core : Nat)
  /-- READ_PERFORMED, R91. -/
  | readPerformed (core : Nat) (ecc : Ecc)
  /-- WRITE_PERFORMED, R91. -/
  | writePerformed (core : Nat)
  /-- LDQ_ROW_ENTRY, R107. -/
  | ldqRowEntry (core : Nat) (lqm : Bool)
  /-- TRANSLATION_WALK, R81. -/
  | translationWalk (core : Nat)
  /-- HANDLER_DELIVERY, R356. -/
  | handlerDelivery (core : Nat)
  /-- HANDLER_START, R356. -/
  | handlerStart (core : Nat)
  /-- ECC_CORRECTED, R367. -/
  | eccCorrected (at_ : EccSite)
  /-- ECC_FREEZE_END, R360. -/
  | eccFreezeEnd (core : Nat)
  /-- RETENTION_ENTRY, R369. -/
  | retentionEntry (core : Nat)
  /-- RETENTION_EXIT, R369. -/
  | retentionExit (core : Nat) (bad : List Nat)
  /-- ENGINE_COMMAND_START, R14. -/
  | engineCommandStart (core seq : Nat)
  /-- BTE_COMMAND_RETIRE, R247. -/
  | bteCommandRetire (core seq : Nat) (mv : BteMove)
  /-- BTE_ROW_ENTRY, R243. -/
  | bteRowEntry (core seq : Nat)
  /-- BTE_OVERLAY_WRITE, R244. -/
  | bteOverlayWrite (core : Nat) (cmd : EarlyTurn)
  /-- LINK_PUT_DELIVERY, R258. -/
  | linkPutDelivery (core seq n : Nat)
  /-- LINK_GET_COMPLETE, R261. -/
  | linkGetComplete (core seq n : Nat)
  /-- LINK_COMMAND_RETIRE, R260. -/
  | linkCommandRetire (core seq : Nat)
  /-- BARRIER_COMPLETE, R264. -/
  | barrierComplete (rid : Nat)
  /-- REDUCTION_COMPLETE, R266. -/
  | reductionComplete (rid : Nat) (order : List Nat)
  /-- GATHER_ITEM_PLACE, R268. -/
  | gatherItemPlace (core seq rank : Nat)
  /-- ABORT_NOTICE, R270. -/
  | abortNotice (core att : Nat)
  /-- CX_MEMBER_LOST, R255. -/
  | cxMemberLost (rid : Nat) (m : Option Nat × Nat)
  /-- SD_COMMAND_RETIRE, R281. -/
  | sdCommandRetire (core seq : Nat)
  /-- WL_BARRIER_COMPLETE, R295. -/
  | wlBarrierComplete (rid : Nat)
  /-- REGION_BARRIER_COMPLETE, R395. -/
  | regionBarrierComplete (rid : Nat) (withdraw : Nat) (add : List Nat)
  /-- RG_NEXT_ANSWER, R350. -/
  | rgNextAnswer (core : Nat)
  /-- QUERN_PHASE_END, R315. -/
  | quernPhaseEnd (cluster : Nat)
  /-- QUERN_SWEEP_END, R315. -/
  | quernSweepEnd (cluster : Nat)
  /-- QUERN_COLOUR_CHECK, R316. -/
  | quernColourCheck (cluster : Nat)
  /-- QUERN_COMMAND_RETIRE, R319. -/
  | quernCommandRetire (cluster : EarlyTurn)
  /-- QUERN_RELEASE, R318. -/
  | quernRelease (cluster : Nat)
  /-- MX_STAGED_WRITE_APPLY, R222. -/
  | mxStagedWriteApply (core : Nat)
  /-- MX_ROUTINE_START, R228. -/
  | mxRoutineStart (core : Nat)
  /-- MX_ROUTINE_RETIRE, R228. -/
  | mxRoutineRetire (core : Nat)
  /-- MX_WORD_FINISH, R217. -/
  | mxWordFinish (core : Nat)
  /-- MX_DRAIN_ROW, R218. -/
  | mxDrainRow (core : Nat)
  /-- MX_REPLAY, R220. -/
  | mxReplay (core tile : Nat)
  /-- ZM1_BLOCK_DECODE, R170. -/
  | zm1BlockDecode (core : Nat)
  /-- VXE_CALL_TAKE, R199. -/
  | vxeCallTake (core : Nat)
  /-- AP_RESULT_LANDING, R104. -/
  | apResultLanding (core : Nat)
  /-- VX_RESULT_LANDING, R165. -/
  | vxResultLanding (core : Nat)
  /-- SHADOW_CHECK, R174. -/
  | shadowCheck (core : Nat) (badLanes : BitVec 96)
  /-- HOST_ATOMIC, R90. -/
  | hostAtomic (part op size gpa operand cmp : Nat)
  /-- HOST_MEMORY_REQUEST, R82. -/
  | hostMemoryRequest (part gpa len : Nat) (wr : Option (List (BitVec 8)))
  /-- VFSTAT_WRITE, R381. -/
  | vfstatWrite (vf : Nat) (v : BitVec 64) (ideT : Bool)
  /-- S1ROOT_WRITE, R380. -/
  | s1rootWrite (vf : Nat) (v : BitVec 64) (ideT : Bool)
  /-- PTHB_WRITE, R380. -/
  | pthbWrite (vf : Nat) (v : BitVec 64) (ideT : Bool)
  /-- PTHL_WRITE, R380. -/
  | pthlWrite (vf : Nat) (v : BitVec 64) (ideT : Bool)
  /-- QWD_WRITE, R362. -/
  | qwdWrite (vf : Nat) (v : BitVec 64) (ideT : Bool)
  /-- VF_REGISTER_WRITE, R379. -/
  | vfRegisterWrite (vf off : Nat) (v : BitVec 64) (ideT : Bool)
  /-- DBGCMD_SUBMIT, R390. -/
  | dbgcmdSubmit (vf : Nat) (ideT : Bool)
  /-- DBGCMD_LOCK, R390. -/
  | dbgcmdLock (vf : Nat) (ideT : Bool)
  /-- DBGCMD_INVALID, R390. -/
  | dbgcmdInvalid (vf : Nat) (v : BitVec 64) (ideT : Bool)
  /-- DBGDATA_READ, R391. -/
  | dbgdataRead (reg : PageReg)
  /-- LOCK_INTERFACE_REQUEST, R384. -/
  | lockInterfaceRequest (vf : Nat)
  /-- START_INTERFACE_REQUEST, R383. -/
  | startInterfaceRequest (vf : Nat)
  /-- STOP_INTERFACE_REQUEST, R385. -/
  | stopInterfaceRequest (vf : Nat)
  /-- IDE_INTEGRITY_FAILURE, R385. -/
  | ideIntegrityFailure (vf : Nat)
  /-- THERMAL_SHUTDOWN, R393. -/
  | thermalShutdown
  /-- TLBI_PAGE, R86. -/
  | tlbiPage (core : Nat)
  /-- TLBI_STAGE1, R86. -/
  | tlbiStage1 (core : Nat)
  /-- ECCINJ_ARM, R110. -/
  | eccinjArm (core : Nat) (v : BitVec 64)
  /-- ILLEGAL_OPCODE, R37. -/
  | illegalOpcode (st : Stream) (w : BitVec 32)
  /-- ILLEGAL_FIELD, R28. -/
  | illegalField (st : Stream) (w : BitVec 32)
  /-- IN_FIELD_TEST_START, R341. -/
  | inFieldTestStart (core cls : Nat)
  /-- VF_PAGE_BAD_ACCESS, R379. -/
  | vfPageBadAccess (vf : Nat)
  /-- DBGKEY_WRITE, R389. -/
  | dbgkeyWrite (vf idx : Nat) (v : BitVec 64) (ideT : Bool)
  /-- GET_DEVICE_INTERFACE_REPORT, R384. -/
  | getDeviceInterfaceReport (vf : Nat)
  /-- IDE_KM, R376. -/
  | ideKm (stream : OfModule Nat)
  /-- GET_MEASUREMENTS, R388. -/
  | getMeasurements (vf : Nat)
  /-- POWER_ON, R386. -/
  | powerOn (badSig : OfModule (Option Nat)) (failed : List (Nat × Nat))
  /-- PARTITION_REQUEST, R377. -/
  | partitionRequest (req : PartReq)
  /-- POWER_CAP_SET, R392. -/
  | powerCapSet (watts : OfModule Nat)
  /-- MONITOR_SAMPLE, R393. -/
  | monitorSample (die : Nat) (reading : Reading) (slow drift : Bool)
  /-- LANE_FAILURE, R376. -/
  | laneFailure (lanes : OfModule Nat)
  /-- VADD_F32, R179. -/
  | vaddF32 (h : Hdr) (d : BitVec 5) (a : BitVec 5) (b : BitVec 5)
  /-- VSUB_F32, R179. -/
  | vsubF32 (h : Hdr) (d : BitVec 5) (a : BitVec 5) (b : BitVec 5)
  /-- VMUL_F32, R179. -/
  | vmulF32 (h : Hdr) (d : BitVec 5) (a : BitVec 5) (b : BitVec 5)
  /-- VFMA_F32, R179. -/
  | vfmaF32 (h : Hdr) (d : BitVec 5) (a : BitVec 5) (b : BitVec 5)
  /-- VMIN_F32, R179. -/
  | vminF32 (h : Hdr) (d : BitVec 5) (a : BitVec 5) (b : BitVec 5)
  /-- VMAX_F32, R179. -/
  | vmaxF32 (h : Hdr) (d : BitVec 5) (a : BitVec 5) (b : BitVec 5)
  /-- VABS_F32, R179. -/
  | vabsF32 (h : Hdr) (d : BitVec 5) (a : BitVec 5)
  /-- VNEG_F32, R179. -/
  | vnegF32 (h : Hdr) (d : BitVec 5) (a : BitVec 5)
  /-- VRCP_F32, R180. -/
  | vrcpF32 (h : Hdr) (d : BitVec 5) (a : BitVec 5)
  /-- VRSQ_F32, R180. -/
  | vrsqF32 (h : Hdr) (d : BitVec 5) (a : BitVec 5)
  /-- VEXP2_F32, R180. -/
  | vexp2F32 (h : Hdr) (d : BitVec 5) (a : BitVec 5)
  /-- VLOG2_F32, R180. -/
  | vlog2F32 (h : Hdr) (d : BitVec 5) (a : BitVec 5)
  /-- VCMP_F32, R181. -/
  | vcmpF32 (h : Hdr) (c : BitVec 3) (q : BitVec 3) (a : BitVec 5) (b : BitVec 5)
  /-- VADD_F16, R179. -/
  | vaddF16 (h : Hdr) (d : BitVec 5) (a : BitVec 5) (b : BitVec 5)
  /-- VSUB_F16, R179. -/
  | vsubF16 (h : Hdr) (d : BitVec 5) (a : BitVec 5) (b : BitVec 5)
  /-- VMUL_F16, R179. -/
  | vmulF16 (h : Hdr) (d : BitVec 5) (a : BitVec 5) (b : BitVec 5)
  /-- VFMA_F16, R179. -/
  | vfmaF16 (h : Hdr) (d : BitVec 5) (a : BitVec 5) (b : BitVec 5)
  /-- VMIN_F16, R179. -/
  | vminF16 (h : Hdr) (d : BitVec 5) (a : BitVec 5) (b : BitVec 5)
  /-- VMAX_F16, R179. -/
  | vmaxF16 (h : Hdr) (d : BitVec 5) (a : BitVec 5) (b : BitVec 5)
  /-- VABS_F16, R179. -/
  | vabsF16 (h : Hdr) (d : BitVec 5) (a : BitVec 5)
  /-- VNEG_F16, R179. -/
  | vnegF16 (h : Hdr) (d : BitVec 5) (a : BitVec 5)
  /-- VRCP_F16, R180. -/
  | vrcpF16 (h : Hdr) (d : BitVec 5) (a : BitVec 5)
  /-- VRSQ_F16, R180. -/
  | vrsqF16 (h : Hdr) (d : BitVec 5) (a : BitVec 5)
  /-- VEXP2_F16, R180. -/
  | vexp2F16 (h : Hdr) (d : BitVec 5) (a : BitVec 5)
  /-- VLOG2_F16, R180. -/
  | vlog2F16 (h : Hdr) (d : BitVec 5) (a : BitVec 5)
  /-- VCMP_F16, R181. -/
  | vcmpF16 (h : Hdr) (c : BitVec 3) (q : BitVec 3) (a : BitVec 5) (b : BitVec 5)
  /-- VADD_BF16, R179. -/
  | vaddBf16 (h : Hdr) (d : BitVec 5) (a : BitVec 5) (b : BitVec 5)
  /-- VSUB_BF16, R179. -/
  | vsubBf16 (h : Hdr) (d : BitVec 5) (a : BitVec 5) (b : BitVec 5)
  /-- VMUL_BF16, R179. -/
  | vmulBf16 (h : Hdr) (d : BitVec 5) (a : BitVec 5) (b : BitVec 5)
  /-- VFMA_BF16, R179. -/
  | vfmaBf16 (h : Hdr) (d : BitVec 5) (a : BitVec 5) (b : BitVec 5)
  /-- VMIN_BF16, R179. -/
  | vminBf16 (h : Hdr) (d : BitVec 5) (a : BitVec 5) (b : BitVec 5)
  /-- VMAX_BF16, R179. -/
  | vmaxBf16 (h : Hdr) (d : BitVec 5) (a : BitVec 5) (b : BitVec 5)
  /-- VABS_BF16, R179. -/
  | vabsBf16 (h : Hdr) (d : BitVec 5) (a : BitVec 5)
  /-- VNEG_BF16, R179. -/
  | vnegBf16 (h : Hdr) (d : BitVec 5) (a : BitVec 5)
  /-- VRCP_BF16, R180. -/
  | vrcpBf16 (h : Hdr) (d : BitVec 5) (a : BitVec 5)
  /-- VRSQ_BF16, R180. -/
  | vrsqBf16 (h : Hdr) (d : BitVec 5) (a : BitVec 5)
  /-- VEXP2_BF16, R180. -/
  | vexp2Bf16 (h : Hdr) (d : BitVec 5) (a : BitVec 5)
  /-- VLOG2_BF16, R180. -/
  | vlog2Bf16 (h : Hdr) (d : BitVec 5) (a : BitVec 5)
  /-- VCMP_BF16, R181. -/
  | vcmpBf16 (h : Hdr) (c : BitVec 3) (q : BitVec 3) (a : BitVec 5) (b : BitVec 5)
  /-- VIADD, R182. -/
  | viadd (h : Hdr) (d : BitVec 5) (a : BitVec 5) (b : BitVec 5)
  /-- VISUB, R182. -/
  | visub (h : Hdr) (d : BitVec 5) (a : BitVec 5) (b : BitVec 5)
  /-- VIMUL, R182. -/
  | vimul (h : Hdr) (d : BitVec 5) (a : BitVec 5) (b : BitVec 5)
  /-- VAND, R182. -/
  | vand (h : Hdr) (d : BitVec 5) (a : BitVec 5) (b : BitVec 5)
  /-- VOR, R182. -/
  | vor (h : Hdr) (d : BitVec 5) (a : BitVec 5) (b : BitVec 5)
  /-- VXOR, R182. -/
  | vxor (h : Hdr) (d : BitVec 5) (a : BitVec 5) (b : BitVec 5)
  /-- VSHL, R182. -/
  | vshl (h : Hdr) (d : BitVec 5) (a : BitVec 5) (b : BitVec 5)
  /-- VSHR, R182. -/
  | vshr (h : Hdr) (d : BitVec 5) (a : BitVec 5) (b : BitVec 5)
  /-- VSRA, R182. -/
  | vsra (h : Hdr) (d : BitVec 5) (a : BitVec 5) (b : BitVec 5)
  /-- VIMIN, R182. -/
  | vimin (h : Hdr) (d : BitVec 5) (a : BitVec 5) (b : BitVec 5)
  /-- VIMIN_U, R182. -/
  | viminU (h : Hdr) (d : BitVec 5) (a : BitVec 5) (b : BitVec 5)
  /-- VIMAX, R182. -/
  | vimax (h : Hdr) (d : BitVec 5) (a : BitVec 5) (b : BitVec 5)
  /-- VIMAX_U, R182. -/
  | vimaxU (h : Hdr) (d : BitVec 5) (a : BitVec 5) (b : BitVec 5)
  /-- VICMP, R183. -/
  | vicmp (h : Hdr) (c : BitVec 3) (q : BitVec 3) (a : BitVec 5) (b : BitVec 5)
  /-- VSEL, R184. -/
  | vsel (h : Hdr) (d : BitVec 5) (a : BitVec 5) (b : BitVec 5)
  /-- VMOV, R184. -/
  | vmov (h : Hdr) (d : BitVec 5) (a : BitVec 5)
  /-- VMOV_Q, R184. -/
  | vmovQ (h : Hdr) (d : BitVec 5) (q : BitVec 3)
  /-- VSPLAT, R184. -/
  | vsplat (h : Hdr) (d : BitVec 5) (i : BitVec 11)
  /-- VIDX, R184. -/
  | vidx (h : Hdr) (d : BitVec 5) (i : BitVec 11)
  /-- VCVT, R185. -/
  | vcvt (h : Hdr) (d : BitVec 5) (a : BitVec 5) (c : BitVec 5)
  /-- VQNT_S8, R186. -/
  | vqntS8 (h : Hdr) (d : BitVec 5) (a : BitVec 5) (b : BitVec 5)
  /-- VQNT_U8, R186. -/
  | vqntU8 (h : Hdr) (d : BitVec 5) (a : BitVec 5) (b : BitVec 5)
  /-- VDEQ, R187. -/
  | vdeq (h : Hdr) (d : BitVec 5) (a : BitVec 5) (b : BitVec 5)
  /-- VDEQ_U, R187. -/
  | vdeqU (h : Hdr) (d : BitVec 5) (a : BitVec 5) (b : BitVec 5)
  /-- VPACK, R188. -/
  | vpack (h : Hdr) (d : BitVec 5) (a : BitVec 5) (f : BitVec 3)
  /-- VPACK_S, R188. -/
  | vpackS (h : Hdr) (d : BitVec 5) (a : BitVec 5) (f : BitVec 3)
  /-- VUNPK, R188. -/
  | vunpk (h : Hdr) (d : BitVec 5) (a : BitVec 5) (f : BitVec 3)
  /-- VUNPK_S, R188. -/
  | vunpkS (h : Hdr) (d : BitVec 5) (a : BitVec 5) (f : BitVec 3)
  /-- VPERM, R190. -/
  | vperm (h : Hdr) (d : BitVec 5) (a : BitVec 5) (b : BitVec 5)
  /-- VPERM_H, R190. -/
  | vpermH (h : Hdr) (d : BitVec 5) (a : BitVec 5) (b : BitVec 5)
  /-- VBCST, R190. -/
  | vbcst (h : Hdr) (d : BitVec 5) (a : BitVec 5) (k : BitVec 6)
  /-- VROT, R190. -/
  | vrot (h : Hdr) (d : BitVec 5) (a : BitVec 5) (k : BitVec 6)
  /-- VRED, R191. -/
  | vred (h : Hdr) (d : BitVec 5) (a : BitVec 5) (o : BitVec 3)
  /-- VREDX, R192. -/
  | vredx (h : Hdr) (d : BitVec 5) (a : BitVec 5) (o : BitVec 2)
  /-- VTOPK, R193. -/
  | vtopk (h : Hdr) (d : BitVec 5) (a : BitVec 5) (k : BitVec 5)
  /-- VTOPK_MIN, R193. -/
  | vtopkMin (h : Hdr) (d : BitVec 5) (a : BitVec 5) (k : BitVec 5)
  /-- TROW, R194. -/
  | trow (h : Hdr) (r : BitVec 7) (n : BitVec 2) (a : BitVec 5)
  /-- TCOL, R194. -/
  | tcol (h : Hdr) (d : BitVec 5) (c : BitVec 7) (n : BitVec 2)
  /-- TCLR, R194. -/
  | tclr (h : Hdr) (n : BitVec 2)
  /-- VPOP, R195. -/
  | vpop (h : Hdr) (d : BitVec 5) (sc : BitVec 4)
  /-- VPUSH, R195. -/
  | vpush (h : Hdr) (a : BitVec 5)
  /-- VPOPD, R195. -/
  | vpopd (h : Hdr) (d : BitVec 5) (sc : BitVec 4)
  /-- VEQ, R195. -/
  | veq (h : Hdr) (a : BitVec 5)
  /-- VEQ_P, R195. -/
  | veqP (h : Hdr) (p : BitVec 3)
  /-- VDQ, R195. -/
  | vdq (h : Hdr) (d : BitVec 5)
  /-- VDQ_HI, R195. -/
  | vdqHi (h : Hdr) (d : BitVec 5)
  /-- VAQ, R195. -/
  | vaq (h : Hdr) (a : BitVec 5)
  /-- VANY, R196. -/
  | vany (h : Hdr) (d : BitVec 3) (a : BitVec 3)
  /-- VALL, R196. -/
  | vall (h : Hdr) (d : BitVec 3) (a : BitVec 3)
  /-- QLOG, R196. -/
  | qlog (h : Hdr) (c : BitVec 3) (d : BitVec 3) (a : BitVec 3) (b : BitVec 3)
  /-- VMSK, R196. -/
  | vmsk (h : Hdr) (a : BitVec 3)
  /-- VX_PLOG, R196. -/
  | vxPlog (h : Hdr) (c : BitVec 3) (d : BitVec 3) (a : BitVec 3) (b : BitVec 3)
  /-- VBPREP, R197. -/
  | vbprep (h : Hdr) (n : BitVec 1) (i : BitVec 11)
  /-- VBXFER, R197. -/
  | vbxfer (h : Hdr) (n : BitVec 1) (d : BitVec 2)
  /-- VLSET, R198. -/
  | vlset (h : Hdr) (c : BitVec 1) (n : BitVec 2) (i : BitVec 11)
  /-- VRET, R199. -/
  | vret (h : Hdr)
  /-- VWIN, R201. -/
  | vwin (h : Hdr) (r : BitVec 5) (i : BitVec 11)
  /-- VGRT, R202. -/
  | vgrt (h : Hdr) (d : BitVec 5) (a : BitVec 5) (k : BitVec 3) (sc : BitVec 2)
  /-- VRAND, R203. -/
  | vrand (h : Hdr) (d : BitVec 5) (k : BitVec 3) (sc : BitVec 2)
  /-- VRAND_SET, R203. -/
  | vrandSet (h : Hdr) (a : BitVec 5)
  /-- VSHD, R204. -/
  | vshd (h : Hdr)
  /-- VSTAT, R205. -/
  | vstat (h : Hdr) (d : BitVec 5)
  /-- VSTAT_CLR, R205. -/
  | vstatClr (h : Hdr) (d : BitVec 5)
  /-- VNOP, R36. -/
  | vnop (h : Hdr)
  /-- VTRAP, R206. -/
  | vtrap (h : Hdr) (i : BitVec 11)
  /-- VEXT, R36. -/
  | vext (i : BitVec 16)
  deriving DecidableEq, Repr

end Sys2Proof
end

