-- ==== Sys2Proof/Decode.lean ====
section
/-!
DEFINITION. Decoding and encoding (02_encoding.md R22, R28, R33, R37-R40). A decoder for each stream, total on every
32-bit word; a word whose opcode is reserved becomes `illegalOpcode`, one whose fixed bits are not as its encoding
requires becomes `illegalField`. After it the encoder, written from the same tables.
Lean's compiler has no runtime representation for constructors beyond the 245th, so the functions that build the
VXE words' constructors are marked noncomputable; Lean's kernel evaluates them like any other.
The values that a card forbids within a field (a reserved condition, a row count of 0) are checked at issue, in the
order of R26, by the meanings.
-/

namespace Sys2Proof

/-- Bits hi:lo of a word. -/
abbrev fld (w : BitVec 32) (lo n : Nat) : BitVec n := w.extractLsb' lo n

/-- The header of a word (R22). -/
def hdrOfWord (w : BitVec 32) : Hdr where
  wp := w.getLsbD 31
  wn := w.getLsbD 30
  sp := w.getLsbD 29
  sn := w.getLsbD 28
  vs := fld w 26 2
  g := fld w 23 3

/-- Bits 31:23 of a word with header `h` (R22). -/
def hdrBits (h : Hdr) : BitVec 9 :=
  BitVec.ofBool h.wp ++ BitVec.ofBool h.wn ++ BitVec.ofBool h.sp ++ BitVec.ofBool h.sn ++ h.vs ++ h.g

/-- A word made of a header, an opcode and its 16 operand bits. -/
def packWord (h : Hdr) (op : BitVec 7) (lo : BitVec 16) : BitVec 32 := hdrBits h ++ op ++ lo

/-- The AP decoder (R37). -/
def decodeAp (w : BitVec 32) : Instr :=
  let h := hdrOfWord w
  match (fld w 16 7).toNat with
  | 0x00 => if fld w 0 16 = 0 then .nop h else .illegalField .ap w
  | 0x01 => if fld w 0 1 = 0 then .add h (fld w 11 5) (fld w 6 5) (fld w 1 5) else .illegalField .ap w
  | 0x02 => if fld w 0 1 = 0 then .sub h (fld w 11 5) (fld w 6 5) (fld w 1 5) else .illegalField .ap w
  | 0x03 => if fld w 0 1 = 0 then .and h (fld w 11 5) (fld w 6 5) (fld w 1 5) else .illegalField .ap w
  | 0x04 => if fld w 0 1 = 0 then .or h (fld w 11 5) (fld w 6 5) (fld w 1 5) else .illegalField .ap w
  | 0x05 => if fld w 0 1 = 0 then .xor h (fld w 11 5) (fld w 6 5) (fld w 1 5) else .illegalField .ap w
  | 0x06 => if fld w 0 1 = 0 then .andn h (fld w 11 5) (fld w 6 5) (fld w 1 5) else .illegalField .ap w
  | 0x07 => if fld w 0 1 = 0 then .shl h (fld w 11 5) (fld w 6 5) (fld w 1 5) else .illegalField .ap w
  | 0x08 => if fld w 0 1 = 0 then .shr h (fld w 11 5) (fld w 6 5) (fld w 1 5) else .illegalField .ap w
  | 0x09 => if fld w 0 1 = 0 then .sra h (fld w 11 5) (fld w 6 5) (fld w 1 5) else .illegalField .ap w
  | 0x0A => if fld w 0 1 = 0 then .rotl h (fld w 11 5) (fld w 6 5) (fld w 1 5) else .illegalField .ap w
  | 0x0B => if fld w 0 1 = 0 then .min h (fld w 11 5) (fld w 6 5) (fld w 1 5) else .illegalField .ap w
  | 0x0C => if fld w 0 1 = 0 then .max h (fld w 11 5) (fld w 6 5) (fld w 1 5) else .illegalField .ap w
  | 0x0D => if fld w 0 1 = 0 then .minu h (fld w 11 5) (fld w 6 5) (fld w 1 5) else .illegalField .ap w
  | 0x0E => if fld w 0 1 = 0 then .maxu h (fld w 11 5) (fld w 6 5) (fld w 1 5) else .illegalField .ap w
  | 0x0F => if fld w 0 1 = 0 then .mul h (fld w 11 5) (fld w 6 5) (fld w 1 5) else .illegalField .ap w
  | 0x10 => if fld w 0 1 = 0 then .mulh h (fld w 11 5) (fld w 6 5) (fld w 1 5) else .illegalField .ap w
  | 0x11 => if fld w 0 1 = 0 then .mulhu h (fld w 11 5) (fld w 6 5) (fld w 1 5) else .illegalField .ap w
  | 0x12 => if fld w 0 1 = 0 then .divu h (fld w 11 5) (fld w 6 5) (fld w 1 5) else .illegalField .ap w
  | 0x13 => if fld w 0 1 = 0 then .remu h (fld w 11 5) (fld w 6 5) (fld w 1 5) else .illegalField .ap w
  | 0x14 => if fld w 0 6 = 0 then .clz h (fld w 11 5) (fld w 6 5) else .illegalField .ap w
  | 0x15 => if fld w 0 6 = 0 then .popc h (fld w 11 5) (fld w 6 5) else .illegalField .ap w
  | 0x16 => if fld w 0 1 = 0 then .lea h (fld w 11 5) (fld w 6 5) (fld w 1 5) else if fld w 0 1 = 1 then .leaD h (fld w 11 5) (fld w 6 5) (fld w 1 5) else .illegalField .ap w
  | 0x17 => .sext h (fld w 11 5) (fld w 6 5) (fld w 0 1 ++ fld w 1 5)
  | 0x18 => .zext h (fld w 11 5) (fld w 6 5) (fld w 0 1 ++ fld w 1 5)
  | 0x19 => if fld w 0 1 = 0 then .bfx h (fld w 11 5) (fld w 6 5) (fld w 1 5) else if fld w 0 1 = 1 then .bfxS h (fld w 11 5) (fld w 6 5) (fld w 1 5) else .illegalField .ap w
  | 0x1A => if fld w 0 1 = 0 then .bfi h (fld w 11 5) (fld w 6 5) (fld w 1 5) else .illegalField .ap w
  | 0x20 => .addi h (fld w 11 5) (fld w 6 5) (fld w 0 6)
  | 0x21 => .andi h (fld w 11 5) (fld w 6 5) (fld w 0 6)
  | 0x22 => .ori h (fld w 11 5) (fld w 6 5) (fld w 0 6)
  | 0x23 => .xori h (fld w 11 5) (fld w 6 5) (fld w 0 6)
  | 0x24 => .shli h (fld w 11 5) (fld w 6 5) (fld w 0 6)
  | 0x25 => .shri h (fld w 11 5) (fld w 6 5) (fld w 0 6)
  | 0x26 => .srai h (fld w 11 5) (fld w 6 5) (fld w 0 6)
  | 0x27 => .movi h (fld w 11 5) (fld w 0 11)
  | 0x30 => .cmp h (fld w 14 2 ++ fld w 0 1) (fld w 11 3) (fld w 6 5) (fld w 1 5)
  | 0x31 => .cmpi h (fld w 14 2) (fld w 11 3) (fld w 6 5) (fld w 0 6)
  | 0x32 => if fld w 9 2 = 0 ∧ fld w 4 2 = 0 then .plog h (fld w 14 2 ++ fld w 0 1) (fld w 11 3) (fld w 6 3) (fld w 1 3) else .illegalField .ap w
  | 0x33 => if fld w 0 11 = 0 then .pmovToX h (fld w 11 5) else if fld w 11 5 = 0 ∧ fld w 0 6 = 1 then .pmovToPf h (fld w 6 5) else .illegalField .ap w
  | 0x38 => .bprep h (fld w 14 2) (fld w 0 14)
  | 0x39 => if fld w 13 3 = 0 ∧ fld w 0 6 = 0 then .bset h (fld w 11 2) (fld w 6 5) else .illegalField .ap w
  | 0x3A => if fld w 0 7 = 0 then .bxfer h (fld w 14 2) (fld w 12 2) (fld w 7 5) else .illegalField .ap w
  | 0x3B => if fld w 13 3 = 0 then .lset h (fld w 11 2) (fld w 6 5) (fld w 0 6) else .illegalField .ap w
  | 0x3C => if fld w 13 3 = 0 ∧ fld w 0 11 = 0 then .lbrk h (fld w 11 2) else .illegalField .ap w
  | 0x40 => if fld w 0 1 = 0 then .ldB h (fld w 11 5) (fld w 6 5) (fld w 1 5) else if fld w 0 1 = 1 then .ldBu h (fld w 11 5) (fld w 6 5) (fld w 1 5) else .illegalField .ap w
  | 0x41 => if fld w 0 1 = 0 then .ldH h (fld w 11 5) (fld w 6 5) (fld w 1 5) else if fld w 0 1 = 1 then .ldHu h (fld w 11 5) (fld w 6 5) (fld w 1 5) else .illegalField .ap w
  | 0x42 => if fld w 0 1 = 0 then .ldW h (fld w 11 5) (fld w 6 5) (fld w 1 5) else if fld w 0 1 = 1 then .ldWu h (fld w 11 5) (fld w 6 5) (fld w 1 5) else .illegalField .ap w
  | 0x43 => if fld w 0 1 = 0 then .ldD h (fld w 11 5) (fld w 6 5) (fld w 1 5) else .illegalField .ap w
  | 0x44 => if fld w 0 1 = 0 then .stB h (fld w 11 5) (fld w 6 5) (fld w 1 5) else .illegalField .ap w
  | 0x45 => if fld w 0 1 = 0 then .stH h (fld w 11 5) (fld w 6 5) (fld w 1 5) else .illegalField .ap w
  | 0x46 => if fld w 0 1 = 0 then .stW h (fld w 11 5) (fld w 6 5) (fld w 1 5) else .illegalField .ap w
  | 0x47 => if fld w 0 1 = 0 then .stD h (fld w 11 5) (fld w 6 5) (fld w 1 5) else .illegalField .ap w
  | 0x48 => if fld w 14 2 = 0 ∧ fld w 0 1 = 0 then .ldq h (fld w 11 3) (fld w 6 5) (fld w 1 5) else .illegalField .ap w
  | 0x49 => if fld w 11 5 = 0 ∧ fld w 0 1 = 0 then .stq h (fld w 6 5) (fld w 1 5) else .illegalField .ap w
  | 0x4A => if fld w 0 11 = 0 then .popq h (fld w 11 5) else if fld w 14 2 = 0 ∧ fld w 0 11 = 1 then .popqP h (fld w 11 3) else .illegalField .ap w
  | 0x4B => if fld w 6 10 = 0 then .qmark h (fld w 0 6) else .illegalField .ap w
  | 0x4C => if fld w 6 10 = 0 then .qkill h (fld w 0 6) else .illegalField .ap w
  | 0x4D => if fld w 0 11 = 0 then .fence h (fld w 14 2) (fld w 11 3) else .illegalField .ap w
  | 0x50 => if fld w 0 1 = 0 then .amoAdd h (fld w 11 5) (fld w 6 5) (fld w 1 5) else if fld w 11 5 = 0 ∧ fld w 0 1 = 1 then .redAdd h (fld w 6 5) (fld w 1 5) else .illegalField .ap w
  | 0x51 => if fld w 0 1 = 0 then .amoMin h (fld w 11 5) (fld w 6 5) (fld w 1 5) else if fld w 11 5 = 0 ∧ fld w 0 1 = 1 then .redMin h (fld w 6 5) (fld w 1 5) else .illegalField .ap w
  | 0x52 => if fld w 0 1 = 0 then .amoMinu h (fld w 11 5) (fld w 6 5) (fld w 1 5) else if fld w 11 5 = 0 ∧ fld w 0 1 = 1 then .redMinu h (fld w 6 5) (fld w 1 5) else .illegalField .ap w
  | 0x53 => if fld w 0 1 = 0 then .amoMax h (fld w 11 5) (fld w 6 5) (fld w 1 5) else if fld w 11 5 = 0 ∧ fld w 0 1 = 1 then .redMax h (fld w 6 5) (fld w 1 5) else .illegalField .ap w
  | 0x54 => if fld w 0 1 = 0 then .amoMaxu h (fld w 11 5) (fld w 6 5) (fld w 1 5) else if fld w 11 5 = 0 ∧ fld w 0 1 = 1 then .redMaxu h (fld w 6 5) (fld w 1 5) else .illegalField .ap w
  | 0x55 => if fld w 0 1 = 0 then .amoAnd h (fld w 11 5) (fld w 6 5) (fld w 1 5) else if fld w 11 5 = 0 ∧ fld w 0 1 = 1 then .redAnd h (fld w 6 5) (fld w 1 5) else .illegalField .ap w
  | 0x56 => if fld w 0 1 = 0 then .amoOr h (fld w 11 5) (fld w 6 5) (fld w 1 5) else if fld w 11 5 = 0 ∧ fld w 0 1 = 1 then .redOr h (fld w 6 5) (fld w 1 5) else .illegalField .ap w
  | 0x57 => if fld w 0 1 = 0 then .amoXor h (fld w 11 5) (fld w 6 5) (fld w 1 5) else if fld w 11 5 = 0 ∧ fld w 0 1 = 1 then .redXor h (fld w 6 5) (fld w 1 5) else .illegalField .ap w
  | 0x58 => if fld w 0 1 = 0 then .amoSwap h (fld w 11 5) (fld w 6 5) (fld w 1 5) else if fld w 11 5 = 0 ∧ fld w 0 1 = 1 then .redSwap h (fld w 6 5) (fld w 1 5) else .illegalField .ap w
  | 0x59 => if fld w 0 1 = 0 then .amoCas h (fld w 11 5) (fld w 6 5) (fld w 1 5) else .illegalField .ap w
  | 0x5A => if fld w 0 1 = 0 then .amoIncwrap h (fld w 11 5) (fld w 6 5) (fld w 1 5) else if fld w 11 5 = 0 ∧ fld w 0 1 = 1 then .redIncwrap h (fld w 6 5) (fld w 1 5) else .illegalField .ap w
  | 0x5B => if fld w 0 1 = 0 then .amoIncb h (fld w 11 5) (fld w 6 5) (fld w 1 5) else if fld w 11 5 = 0 ∧ fld w 0 1 = 1 then .redIncb h (fld w 6 5) (fld w 1 5) else .illegalField .ap w
  | 0x5C => if fld w 0 6 = 0 then .amoDecpos h (fld w 11 5) (fld w 6 5) else if fld w 11 5 = 0 ∧ fld w 0 6 = 1 then .redDecpos h (fld w 6 5) else .illegalField .ap w
  | 0x5D => if fld w 0 1 = 0 then .amoFaddlim h (fld w 11 5) (fld w 6 5) (fld w 1 5) else if fld w 11 5 = 0 ∧ fld w 0 1 = 1 then .redFaddlim h (fld w 6 5) (fld w 1 5) else .illegalField .ap w
  | 0x60 => if fld w 0 6 = 0 then .mxtab h (fld w 11 5) (fld w 6 5) else .illegalField .ap w
  | 0x61 => if fld w 0 6 = 0 then .mxfmt h (fld w 11 5) (fld w 6 5) else .illegalField .ap w
  | 0x62 => if fld w 0 6 = 0 then .mxpert h (fld w 11 5) (fld w 6 5) else .illegalField .ap w
  | 0x63 => if fld w 11 5 = 0 ∧ fld w 0 6 = 0 then .mxgo h (fld w 6 5) else .illegalField .ap w
  | 0x64 => if fld w 0 16 = 0 then .mxwait h else .illegalField .ap w
  | 0x65 => if fld w 11 5 = 0 ∧ fld w 0 1 = 0 then .vxcall h (fld w 6 5) (fld w 1 5) else if fld w 11 5 = 0 ∧ fld w 0 1 = 1 then .vxcallSeed h (fld w 6 5) (fld w 1 5) else .illegalField .ap w
  | 0x66 => if fld w 0 16 = 0 then .vxwait h else .illegalField .ap w
  | 0x67 => if fld w 13 3 = 0 ∧ fld w 0 6 = 0 then .btcfg h (fld w 11 2) (fld w 6 5) else .illegalField .ap w
  | 0x68 => if fld w 13 3 = 0 ∧ fld w 0 6 = 0 then .btgo h (fld w 11 2) (fld w 6 5) else .illegalField .ap w
  | 0x69 => if fld w 13 3 = 0 ∧ fld w 0 11 = 0 then .btwait h (fld w 11 2) else if fld w 0 16 = 1 then .btwaitAll h else .illegalField .ap w
  | 0x6A => if fld w 0 6 = 0 then .wlOpen h (fld w 11 5) (fld w 6 5) else .illegalField .ap w
  | 0x6B => if fld w 0 6 = 0 then .wlSlot h (fld w 11 5) (fld w 6 5) else .illegalField .ap w
  | 0x6C => if fld w 11 5 = 0 ∧ fld w 0 1 = 0 then .wlRsv h (fld w 6 5) (fld w 1 5) else .illegalField .ap w
  | 0x6D => if fld w 0 1 = 0 then .wlTest h (fld w 11 5) (fld w 6 5) (fld w 1 5) else if fld w 14 2 = 0 ∧ fld w 0 1 = 1 then .wlTestP h (fld w 11 3) (fld w 6 5) (fld w 1 5) else .illegalField .ap w
  | 0x6E => if fld w 11 5 = 0 ∧ fld w 0 1 = 0 then .wlRels h (fld w 6 5) (fld w 1 5) else .illegalField .ap w
  | 0x6F => if fld w 0 16 = 0 then .wlDone h else .illegalField .ap w
  | 0x70 => if fld w 0 11 = 0 then .wlRound h (fld w 11 5) else .illegalField .ap w
  | 0x71 => if fld w 0 16 = 0 then .wlClose h else .illegalField .ap w
  | 0x72 => if fld w 7 9 = 0 ∧ fld w 0 2 = 0 then .pbClaim h (fld w 2 5) else if fld w 7 9 = 32 ∧ fld w 1 1 = 0 then .pbLoad h (fld w 2 5) (fld w 0 1) else if fld w 7 9 = 64 ∧ fld w 1 1 = 0 then .pbColour h (fld w 2 5) (fld w 0 1) else if fld w 7 9 = 96 ∧ fld w 0 2 = 0 then .pbClamp h (fld w 2 5) else if fld w 7 9 = 128 then .pbSweep h (fld w 2 5) (fld w 0 2) else if fld w 7 9 = 160 ∧ fld w 0 2 = 0 then .pbRead h (fld w 2 5) else if fld w 7 9 = 192 ∧ fld w 1 1 = 0 then .pbMom h (fld w 2 5) (fld w 0 1) else if fld w 0 16 = 28672 then .pbFree h else .illegalField .ap w
  | 0x73 => if fld w 12 4 = 0 ∧ fld w 0 2 = 0 then .sdSeed h (fld w 7 5) (fld w 2 5) else if fld w 7 9 = 32 ∧ fld w 0 2 = 0 then .sdEmit h (fld w 2 5) else if fld w 7 9 = 64 ∧ fld w 0 2 = 0 then .sdApply h (fld w 2 5) else if fld w 7 9 = 96 ∧ fld w 0 2 = 0 then .sdGap h (fld w 2 5) else if fld w 7 9 = 128 ∧ fld w 0 2 = 0 then .sdFetch h (fld w 2 5) else if fld w 7 9 = 160 ∧ fld w 0 2 = 0 then .sdKey h (fld w 2 5) else .illegalField .ap w
  | 0x74 => if fld w 7 9 = 0 ∧ fld w 0 2 = 0 then .cxPut h (fld w 2 5) else if fld w 7 9 = 32 ∧ fld w 0 2 = 0 then .cxGet h (fld w 2 5) else if fld w 12 4 = 2 then .cxWcnt h (fld w 7 5) (fld w 2 5) (fld w 0 2) else if fld w 12 4 = 3 ∧ fld w 0 7 = 0 then .cxSbar h (fld w 7 5) else if fld w 7 9 = 128 ∧ fld w 0 2 = 0 then .cxAred h (fld w 2 5) else if fld w 7 9 = 160 ∧ fld w 0 2 = 0 then .cxAgath h (fld w 2 5) else if fld w 12 4 = 6 ∧ fld w 0 7 = 0 then .cxAbort h (fld w 7 5) else if fld w 12 4 = 7 ∧ fld w 0 7 = 0 then .cxBar h (fld w 7 5) else .illegalField .ap w
  | 0x75 => if fld w 12 4 = 0 ∧ fld w 0 2 = 0 then .rgSpawn h (fld w 7 5) (fld w 2 5) else if fld w 12 4 = 1 ∧ fld w 0 7 = 0 then .rgNext h (fld w 7 5) else if fld w 12 4 = 2 ∧ fld w 0 2 = 0 then .rgSteal h (fld w 7 5) (fld w 2 5) else if fld w 12 4 = 3 ∧ fld w 0 7 = 0 then .rgStep h (fld w 7 5) else if fld w 0 16 = 16384 then .rgYield h else if fld w 7 9 = 160 ∧ fld w 0 2 = 0 then .rgExit h (fld w 2 5) else .illegalField .ap w
  | 0x78 => if fld w 6 10 = 0 then .trap h (fld w 0 6) else .illegalField .ap w
  | 0x79 => if fld w 0 16 = 0 then .eret h else .illegalField .ap w
  | 0x7A => .sysr h (fld w 11 5) (fld w 0 11)
  | 0x7B => .sysw h (fld w 11 5) (fld w 0 11)
  | 0x7C => if fld w 0 16 = 0 then .wfe h else .illegalField .ap w
  | 0x7F => if fld w 23 9 = 0 then .ext (fld w 0 16) else .illegalField .ap w
  | _ => .illegalOpcode .ap w

/-- The MXE decoder (R39). -/
def decodeMx (w : BitVec 32) : Instr :=
  let h := hdrOfWord w
  match (fld w 16 7).toNat with
  | 0x00 => if fld w 0 16 = 0 then .mxNop h else .illegalField .mx w
  | 0x01 => if fld w 0 11 = 0 then .mxLdw h (fld w 11 5) else .illegalField .mx w
  | 0x02 => if fld w 0 16 = 0 then .mxSwap h else .illegalField .mx w
  | 0x03 => .mxRun h (fld w 11 5) (fld w 9 2 ++ fld w 0 6) (fld w 6 3)
  | 0x04 => if fld w 9 7 = 0 ∧ fld w 0 6 = 0 then .mxZero h (fld w 6 3) else .illegalField .mx w
  | 0x05 => if fld w 14 2 = 0 then .mxDrain h (fld w 13 1) (fld w 12 1) (fld w 11 1) (fld w 9 2 ++ fld w 0 6) (fld w 6 3) else .illegalField .mx w
  | 0x06 => if fld w 0 16 = 0 then .mxMark h else .illegalField .mx w
  | 0x07 => if fld w 9 7 = 0 ∧ fld w 0 6 = 0 then .mxChk h (fld w 6 3) else .illegalField .mx w
  | 0x08 => if fld w 0 16 = 0 then .mxBias h else .illegalField .mx w
  | 0x09 => if fld w 14 2 = 0 ∧ fld w 10 1 = 0 ∧ fld w 4 2 = 0 then .mxFsel h (fld w 11 3) (fld w 6 4) (fld w 0 4) else .illegalField .mx w
  | 0x0A => if fld w 0 16 = 0 then .mxRet h else .illegalField .mx w
  | _ => .illegalOpcode .mx w

/-- The decoder of a VXE slot word (R40); slot classes are checked when the bundle is formed (R35). -/
noncomputable def decodeVx (w : BitVec 32) : Instr :=
  let h := hdrOfWord w
  match (fld w 16 7).toNat with
  | 0x00 => if fld w 0 1 = 0 then .vaddF32 h (fld w 11 5) (fld w 6 5) (fld w 1 5) else .illegalField .vx w
  | 0x01 => if fld w 0 1 = 0 then .vsubF32 h (fld w 11 5) (fld w 6 5) (fld w 1 5) else .illegalField .vx w
  | 0x02 => if fld w 0 1 = 0 then .vmulF32 h (fld w 11 5) (fld w 6 5) (fld w 1 5) else .illegalField .vx w
  | 0x03 => if fld w 0 1 = 0 then .vfmaF32 h (fld w 11 5) (fld w 6 5) (fld w 1 5) else .illegalField .vx w
  | 0x04 => if fld w 0 1 = 0 then .vminF32 h (fld w 11 5) (fld w 6 5) (fld w 1 5) else .illegalField .vx w
  | 0x05 => if fld w 0 1 = 0 then .vmaxF32 h (fld w 11 5) (fld w 6 5) (fld w 1 5) else .illegalField .vx w
  | 0x06 => if fld w 0 6 = 0 then .vabsF32 h (fld w 11 5) (fld w 6 5) else .illegalField .vx w
  | 0x07 => if fld w 0 6 = 0 then .vnegF32 h (fld w 11 5) (fld w 6 5) else .illegalField .vx w
  | 0x08 => if fld w 0 6 = 0 then .vrcpF32 h (fld w 11 5) (fld w 6 5) else .illegalField .vx w
  | 0x09 => if fld w 0 6 = 0 then .vrsqF32 h (fld w 11 5) (fld w 6 5) else .illegalField .vx w
  | 0x0A => if fld w 0 6 = 0 then .vexp2F32 h (fld w 11 5) (fld w 6 5) else .illegalField .vx w
  | 0x0B => if fld w 0 6 = 0 then .vlog2F32 h (fld w 11 5) (fld w 6 5) else .illegalField .vx w
  | 0x0C => .vcmpF32 h (fld w 14 2 ++ fld w 0 1) (fld w 11 3) (fld w 6 5) (fld w 1 5)
  | 0x10 => if fld w 0 1 = 0 then .vaddF16 h (fld w 11 5) (fld w 6 5) (fld w 1 5) else .illegalField .vx w
  | 0x11 => if fld w 0 1 = 0 then .vsubF16 h (fld w 11 5) (fld w 6 5) (fld w 1 5) else .illegalField .vx w
  | 0x12 => if fld w 0 1 = 0 then .vmulF16 h (fld w 11 5) (fld w 6 5) (fld w 1 5) else .illegalField .vx w
  | 0x13 => if fld w 0 1 = 0 then .vfmaF16 h (fld w 11 5) (fld w 6 5) (fld w 1 5) else .illegalField .vx w
  | 0x14 => if fld w 0 1 = 0 then .vminF16 h (fld w 11 5) (fld w 6 5) (fld w 1 5) else .illegalField .vx w
  | 0x15 => if fld w 0 1 = 0 then .vmaxF16 h (fld w 11 5) (fld w 6 5) (fld w 1 5) else .illegalField .vx w
  | 0x16 => if fld w 0 6 = 0 then .vabsF16 h (fld w 11 5) (fld w 6 5) else .illegalField .vx w
  | 0x17 => if fld w 0 6 = 0 then .vnegF16 h (fld w 11 5) (fld w 6 5) else .illegalField .vx w
  | 0x18 => if fld w 0 6 = 0 then .vrcpF16 h (fld w 11 5) (fld w 6 5) else .illegalField .vx w
  | 0x19 => if fld w 0 6 = 0 then .vrsqF16 h (fld w 11 5) (fld w 6 5) else .illegalField .vx w
  | 0x1A => if fld w 0 6 = 0 then .vexp2F16 h (fld w 11 5) (fld w 6 5) else .illegalField .vx w
  | 0x1B => if fld w 0 6 = 0 then .vlog2F16 h (fld w 11 5) (fld w 6 5) else .illegalField .vx w
  | 0x1C => .vcmpF16 h (fld w 14 2 ++ fld w 0 1) (fld w 11 3) (fld w 6 5) (fld w 1 5)
  | 0x20 => if fld w 0 1 = 0 then .vaddBf16 h (fld w 11 5) (fld w 6 5) (fld w 1 5) else .illegalField .vx w
  | 0x21 => if fld w 0 1 = 0 then .vsubBf16 h (fld w 11 5) (fld w 6 5) (fld w 1 5) else .illegalField .vx w
  | 0x22 => if fld w 0 1 = 0 then .vmulBf16 h (fld w 11 5) (fld w 6 5) (fld w 1 5) else .illegalField .vx w
  | 0x23 => if fld w 0 1 = 0 then .vfmaBf16 h (fld w 11 5) (fld w 6 5) (fld w 1 5) else .illegalField .vx w
  | 0x24 => if fld w 0 1 = 0 then .vminBf16 h (fld w 11 5) (fld w 6 5) (fld w 1 5) else .illegalField .vx w
  | 0x25 => if fld w 0 1 = 0 then .vmaxBf16 h (fld w 11 5) (fld w 6 5) (fld w 1 5) else .illegalField .vx w
  | 0x26 => if fld w 0 6 = 0 then .vabsBf16 h (fld w 11 5) (fld w 6 5) else .illegalField .vx w
  | 0x27 => if fld w 0 6 = 0 then .vnegBf16 h (fld w 11 5) (fld w 6 5) else .illegalField .vx w
  | 0x28 => if fld w 0 6 = 0 then .vrcpBf16 h (fld w 11 5) (fld w 6 5) else .illegalField .vx w
  | 0x29 => if fld w 0 6 = 0 then .vrsqBf16 h (fld w 11 5) (fld w 6 5) else .illegalField .vx w
  | 0x2A => if fld w 0 6 = 0 then .vexp2Bf16 h (fld w 11 5) (fld w 6 5) else .illegalField .vx w
  | 0x2B => if fld w 0 6 = 0 then .vlog2Bf16 h (fld w 11 5) (fld w 6 5) else .illegalField .vx w
  | 0x2C => .vcmpBf16 h (fld w 14 2 ++ fld w 0 1) (fld w 11 3) (fld w 6 5) (fld w 1 5)
  | 0x30 => if fld w 0 1 = 0 then .viadd h (fld w 11 5) (fld w 6 5) (fld w 1 5) else .illegalField .vx w
  | 0x31 => if fld w 0 1 = 0 then .visub h (fld w 11 5) (fld w 6 5) (fld w 1 5) else .illegalField .vx w
  | 0x32 => if fld w 0 1 = 0 then .vimul h (fld w 11 5) (fld w 6 5) (fld w 1 5) else .illegalField .vx w
  | 0x33 => if fld w 0 1 = 0 then .vand h (fld w 11 5) (fld w 6 5) (fld w 1 5) else .illegalField .vx w
  | 0x34 => if fld w 0 1 = 0 then .vor h (fld w 11 5) (fld w 6 5) (fld w 1 5) else .illegalField .vx w
  | 0x35 => if fld w 0 1 = 0 then .vxor h (fld w 11 5) (fld w 6 5) (fld w 1 5) else .illegalField .vx w
  | 0x36 => if fld w 0 1 = 0 then .vshl h (fld w 11 5) (fld w 6 5) (fld w 1 5) else .illegalField .vx w
  | 0x37 => if fld w 0 1 = 0 then .vshr h (fld w 11 5) (fld w 6 5) (fld w 1 5) else .illegalField .vx w
  | 0x38 => if fld w 0 1 = 0 then .vsra h (fld w 11 5) (fld w 6 5) (fld w 1 5) else .illegalField .vx w
  | 0x39 => if fld w 0 1 = 0 then .vimin h (fld w 11 5) (fld w 6 5) (fld w 1 5) else if fld w 0 1 = 1 then .viminU h (fld w 11 5) (fld w 6 5) (fld w 1 5) else .illegalField .vx w
  | 0x3A => if fld w 0 1 = 0 then .vimax h (fld w 11 5) (fld w 6 5) (fld w 1 5) else if fld w 0 1 = 1 then .vimaxU h (fld w 11 5) (fld w 6 5) (fld w 1 5) else .illegalField .vx w
  | 0x3B => .vicmp h (fld w 14 2 ++ fld w 0 1) (fld w 11 3) (fld w 6 5) (fld w 1 5)
  | 0x3C => if fld w 0 1 = 0 then .vsel h (fld w 11 5) (fld w 6 5) (fld w 1 5) else .illegalField .vx w
  | 0x3D => if fld w 0 6 = 0 then .vmov h (fld w 11 5) (fld w 6 5) else if fld w 9 2 = 0 ∧ fld w 0 6 = 1 then .vmovQ h (fld w 11 5) (fld w 6 3) else .illegalField .vx w
  | 0x3E => .vsplat h (fld w 11 5) (fld w 0 11)
  | 0x3F => .vidx h (fld w 11 5) (fld w 0 11)
  | 0x40 => if fld w 0 1 = 0 then .vcvt h (fld w 11 5) (fld w 6 5) (fld w 1 5) else .illegalField .vx w
  | 0x41 => if fld w 0 1 = 0 then .vqntS8 h (fld w 11 5) (fld w 6 5) (fld w 1 5) else if fld w 0 1 = 1 then .vqntU8 h (fld w 11 5) (fld w 6 5) (fld w 1 5) else .illegalField .vx w
  | 0x42 => if fld w 0 1 = 0 then .vdeq h (fld w 11 5) (fld w 6 5) (fld w 1 5) else if fld w 0 1 = 1 then .vdeqU h (fld w 11 5) (fld w 6 5) (fld w 1 5) else .illegalField .vx w
  | 0x43 => if fld w 4 2 = 0 ∧ fld w 0 1 = 0 then .vpack h (fld w 11 5) (fld w 6 5) (fld w 1 3) else if fld w 4 2 = 0 ∧ fld w 0 1 = 1 then .vpackS h (fld w 11 5) (fld w 6 5) (fld w 1 3) else .illegalField .vx w
  | 0x44 => if fld w 4 2 = 0 ∧ fld w 0 1 = 0 then .vunpk h (fld w 11 5) (fld w 6 5) (fld w 1 3) else if fld w 4 2 = 0 ∧ fld w 0 1 = 1 then .vunpkS h (fld w 11 5) (fld w 6 5) (fld w 1 3) else .illegalField .vx w
  | 0x48 => if fld w 0 1 = 0 then .vperm h (fld w 11 5) (fld w 6 5) (fld w 1 5) else if fld w 0 1 = 1 then .vpermH h (fld w 11 5) (fld w 6 5) (fld w 1 5) else .illegalField .vx w
  | 0x49 => .vbcst h (fld w 11 5) (fld w 6 5) (fld w 0 1 ++ fld w 1 5)
  | 0x4A => .vrot h (fld w 11 5) (fld w 6 5) (fld w 0 1 ++ fld w 1 5)
  | 0x4C => if fld w 4 2 = 0 ∧ fld w 0 1 = 0 then .vred h (fld w 11 5) (fld w 6 5) (fld w 1 3) else .illegalField .vx w
  | 0x4D => if fld w 3 3 = 0 ∧ fld w 0 1 = 0 then .vredx h (fld w 11 5) (fld w 6 5) (fld w 1 2) else .illegalField .vx w
  | 0x4E => if fld w 0 1 = 0 then .vtopk h (fld w 11 5) (fld w 6 5) (fld w 1 5) else if fld w 0 1 = 1 then .vtopkMin h (fld w 11 5) (fld w 6 5) (fld w 1 5) else .illegalField .vx w
  | 0x50 => if fld w 14 2 = 0 then .trow h (fld w 13 1 ++ fld w 0 6) (fld w 11 2) (fld w 6 5) else .illegalField .vx w
  | 0x51 => if fld w 9 2 = 0 then .tcol h (fld w 11 5) (fld w 8 1 ++ fld w 0 6) (fld w 6 2) else .illegalField .vx w
  | 0x52 => if fld w 13 3 = 0 ∧ fld w 0 11 = 0 then .tclr h (fld w 11 2) else .illegalField .vx w
  | 0x58 => if fld w 5 6 = 0 ∧ fld w 0 1 = 0 then .vpop h (fld w 11 5) (fld w 1 4) else .illegalField .vx w
  | 0x59 => if fld w 11 5 = 0 ∧ fld w 0 6 = 0 then .vpush h (fld w 6 5) else .illegalField .vx w
  | 0x5A => if fld w 5 6 = 0 ∧ fld w 0 1 = 0 then .vpopd h (fld w 11 5) (fld w 1 4) else .illegalField .vx w
  | 0x5B => if fld w 11 5 = 0 ∧ fld w 0 6 = 0 then .veq h (fld w 6 5) else if fld w 9 7 = 0 ∧ fld w 0 6 = 1 then .veqP h (fld w 6 3) else .illegalField .vx w
  | 0x5C => if fld w 0 11 = 0 then .vdq h (fld w 11 5) else if fld w 0 11 = 1 then .vdqHi h (fld w 11 5) else .illegalField .vx w
  | 0x5D => if fld w 11 5 = 0 ∧ fld w 0 6 = 0 then .vaq h (fld w 6 5) else .illegalField .vx w
  | 0x60 => if fld w 14 2 = 0 ∧ fld w 9 2 = 0 ∧ fld w 0 6 = 0 then .vany h (fld w 11 3) (fld w 6 3) else .illegalField .vx w
  | 0x61 => if fld w 14 2 = 0 ∧ fld w 9 2 = 0 ∧ fld w 0 6 = 0 then .vall h (fld w 11 3) (fld w 6 3) else .illegalField .vx w
  | 0x62 => if fld w 9 2 = 0 ∧ fld w 4 2 = 0 then .qlog h (fld w 14 2 ++ fld w 0 1) (fld w 11 3) (fld w 6 3) (fld w 1 3) else .illegalField .vx w
  | 0x63 => if fld w 9 7 = 0 ∧ fld w 0 6 = 0 then .vmsk h (fld w 6 3) else .illegalField .vx w
  | 0x64 => if fld w 9 2 = 0 ∧ fld w 4 2 = 0 then .vxPlog h (fld w 14 2 ++ fld w 0 1) (fld w 11 3) (fld w 6 3) (fld w 1 3) else .illegalField .vx w
  | 0x68 => if fld w 12 4 = 0 then .vbprep h (fld w 11 1) (fld w 0 11) else .illegalField .vx w
  | 0x69 => if fld w 12 4 = 0 ∧ fld w 8 3 = 0 ∧ fld w 0 6 = 0 then .vbxfer h (fld w 11 1) (fld w 6 2) else .illegalField .vx w
  | 0x6A => if fld w 13 2 = 0 then .vlset h (fld w 15 1) (fld w 11 2) (fld w 0 11) else .illegalField .vx w
  | 0x6B => if fld w 0 16 = 0 then .vret h else .illegalField .vx w
  | 0x6C => .vwin h (fld w 11 5) (fld w 0 11)
  | 0x70 => if fld w 0 1 = 0 then .vgrt h (fld w 11 5) (fld w 6 5) (fld w 3 3) (fld w 1 2) else .illegalField .vx w
  | 0x71 => if fld w 6 5 = 0 ∧ fld w 0 1 = 0 then .vrand h (fld w 11 5) (fld w 3 3) (fld w 1 2) else if fld w 11 5 = 0 ∧ fld w 0 6 = 1 then .vrandSet h (fld w 6 5) else .illegalField .vx w
  | 0x74 => if fld w 0 16 = 0 then .vshd h else .illegalField .vx w
  | 0x78 => if fld w 0 11 = 0 then .vstat h (fld w 11 5) else if fld w 0 11 = 1 then .vstatClr h (fld w 11 5) else .illegalField .vx w
  | 0x7C => if fld w 0 16 = 0 then .vnop h else .illegalField .vx w
  | 0x7D => if fld w 11 5 = 0 then .vtrap h (fld w 0 11) else .illegalField .vx w
  | 0x7F => if fld w 23 9 = 0 then .vext (fld w 0 16) else .illegalField .vx w
  | _ => .illegalOpcode .vx w

/-- The word of an instruction, where its row has an encoding; the steps without one have no word. -/
def encode : Instr → Option (BitVec 32)
  | .nop h => some (packWord h 0x00 ((0 : BitVec 16)))
  | .add h d a b => some (packWord h 0x01 (d ++ a ++ b ++ (0 : BitVec 1)))
  | .sub h d a b => some (packWord h 0x02 (d ++ a ++ b ++ (0 : BitVec 1)))
  | .and h d a b => some (packWord h 0x03 (d ++ a ++ b ++ (0 : BitVec 1)))
  | .or h d a b => some (packWord h 0x04 (d ++ a ++ b ++ (0 : BitVec 1)))
  | .xor h d a b => some (packWord h 0x05 (d ++ a ++ b ++ (0 : BitVec 1)))
  | .andn h d a b => some (packWord h 0x06 (d ++ a ++ b ++ (0 : BitVec 1)))
  | .shl h d a b => some (packWord h 0x07 (d ++ a ++ b ++ (0 : BitVec 1)))
  | .shr h d a b => some (packWord h 0x08 (d ++ a ++ b ++ (0 : BitVec 1)))
  | .sra h d a b => some (packWord h 0x09 (d ++ a ++ b ++ (0 : BitVec 1)))
  | .rotl h d a b => some (packWord h 0x0A (d ++ a ++ b ++ (0 : BitVec 1)))
  | .min h d a b => some (packWord h 0x0B (d ++ a ++ b ++ (0 : BitVec 1)))
  | .max h d a b => some (packWord h 0x0C (d ++ a ++ b ++ (0 : BitVec 1)))
  | .minu h d a b => some (packWord h 0x0D (d ++ a ++ b ++ (0 : BitVec 1)))
  | .maxu h d a b => some (packWord h 0x0E (d ++ a ++ b ++ (0 : BitVec 1)))
  | .mul h d a b => some (packWord h 0x0F (d ++ a ++ b ++ (0 : BitVec 1)))
  | .mulh h d a b => some (packWord h 0x10 (d ++ a ++ b ++ (0 : BitVec 1)))
  | .mulhu h d a b => some (packWord h 0x11 (d ++ a ++ b ++ (0 : BitVec 1)))
  | .divu h d a b => some (packWord h 0x12 (d ++ a ++ b ++ (0 : BitVec 1)))
  | .remu h d a b => some (packWord h 0x13 (d ++ a ++ b ++ (0 : BitVec 1)))
  | .clz h d a => some (packWord h 0x14 (d ++ a ++ (0 : BitVec 6)))
  | .popc h d a => some (packWord h 0x15 (d ++ a ++ (0 : BitVec 6)))
  | .lea h d a b => some (packWord h 0x16 (d ++ a ++ b ++ (0 : BitVec 1)))
  | .leaD h d a b => some (packWord h 0x16 (d ++ a ++ b ++ (1 : BitVec 1)))
  | .sext h d a n => some (packWord h 0x17 (d ++ a ++ n.extractLsb' 0 5 ++ n.extractLsb' 5 1))
  | .zext h d a n => some (packWord h 0x18 (d ++ a ++ n.extractLsb' 0 5 ++ n.extractLsb' 5 1))
  | .bfx h d a b => some (packWord h 0x19 (d ++ a ++ b ++ (0 : BitVec 1)))
  | .bfxS h d a b => some (packWord h 0x19 (d ++ a ++ b ++ (1 : BitVec 1)))
  | .bfi h d a b => some (packWord h 0x1A (d ++ a ++ b ++ (0 : BitVec 1)))
  | .addi h d a i => some (packWord h 0x20 (d ++ a ++ i))
  | .andi h d a i => some (packWord h 0x21 (d ++ a ++ i))
  | .ori h d a i => some (packWord h 0x22 (d ++ a ++ i))
  | .xori h d a i => some (packWord h 0x23 (d ++ a ++ i))
  | .shli h d a i => some (packWord h 0x24 (d ++ a ++ i))
  | .shri h d a i => some (packWord h 0x25 (d ++ a ++ i))
  | .srai h d a i => some (packWord h 0x26 (d ++ a ++ i))
  | .movi h d i => some (packWord h 0x27 (d ++ i))
  | .cmp h c p a b => some (packWord h 0x30 (c.extractLsb' 1 2 ++ p ++ a ++ b ++ c.extractLsb' 0 1))
  | .cmpi h c p a i => some (packWord h 0x31 (c ++ p ++ a ++ i))
  | .plog h c p a b => some (packWord h 0x32 (c.extractLsb' 1 2 ++ p ++ (0 : BitVec 2) ++ a ++ (0 : BitVec 2) ++ b ++ c.extractLsb' 0 1))
  | .pmovToX h d => some (packWord h 0x33 (d ++ (0 : BitVec 11)))
  | .pmovToPf h a => some (packWord h 0x33 ((0 : BitVec 5) ++ a ++ (1 : BitVec 6)))
  | .bprep h n i => some (packWord h 0x38 (n ++ i))
  | .bset h n a => some (packWord h 0x39 ((0 : BitVec 3) ++ n ++ a ++ (0 : BitVec 6)))
  | .bxfer h n d l => some (packWord h 0x3A (n ++ d ++ l ++ (0 : BitVec 7)))
  | .lset h n a i => some (packWord h 0x3B ((0 : BitVec 3) ++ n ++ a ++ i))
  | .lbrk h n => some (packWord h 0x3C ((0 : BitVec 3) ++ n ++ (0 : BitVec 11)))
  | .ldB h d a b => some (packWord h 0x40 (d ++ a ++ b ++ (0 : BitVec 1)))
  | .ldBu h d a b => some (packWord h 0x40 (d ++ a ++ b ++ (1 : BitVec 1)))
  | .ldH h d a b => some (packWord h 0x41 (d ++ a ++ b ++ (0 : BitVec 1)))
  | .ldHu h d a b => some (packWord h 0x41 (d ++ a ++ b ++ (1 : BitVec 1)))
  | .ldW h d a b => some (packWord h 0x42 (d ++ a ++ b ++ (0 : BitVec 1)))
  | .ldWu h d a b => some (packWord h 0x42 (d ++ a ++ b ++ (1 : BitVec 1)))
  | .ldD h d a b => some (packWord h 0x43 (d ++ a ++ b ++ (0 : BitVec 1)))
  | .stB h d a b => some (packWord h 0x44 (d ++ a ++ b ++ (0 : BitVec 1)))
  | .stH h d a b => some (packWord h 0x45 (d ++ a ++ b ++ (0 : BitVec 1)))
  | .stW h d a b => some (packWord h 0x46 (d ++ a ++ b ++ (0 : BitVec 1)))
  | .stD h d a b => some (packWord h 0x47 (d ++ a ++ b ++ (0 : BitVec 1)))
  | .ldq h f a b => some (packWord h 0x48 ((0 : BitVec 2) ++ f ++ a ++ b ++ (0 : BitVec 1)))
  | .stq h a b => some (packWord h 0x49 ((0 : BitVec 5) ++ a ++ b ++ (0 : BitVec 1)))
  | .popq h d => some (packWord h 0x4A (d ++ (0 : BitVec 11)))
  | .popqP h p => some (packWord h 0x4A ((0 : BitVec 2) ++ p ++ (1 : BitVec 11)))
  | .qmark h t => some (packWord h 0x4B ((0 : BitVec 10) ++ t))
  | .qkill h t => some (packWord h 0x4C ((0 : BitVec 10) ++ t))
  | .fence h k sc => some (packWord h 0x4D (k ++ sc ++ (0 : BitVec 11)))
  | .amoAdd h d a b => some (packWord h 0x50 (d ++ a ++ b ++ (0 : BitVec 1)))
  | .redAdd h a b => some (packWord h 0x50 ((0 : BitVec 5) ++ a ++ b ++ (1 : BitVec 1)))
  | .amoMin h d a b => some (packWord h 0x51 (d ++ a ++ b ++ (0 : BitVec 1)))
  | .redMin h a b => some (packWord h 0x51 ((0 : BitVec 5) ++ a ++ b ++ (1 : BitVec 1)))
  | .amoMinu h d a b => some (packWord h 0x52 (d ++ a ++ b ++ (0 : BitVec 1)))
  | .redMinu h a b => some (packWord h 0x52 ((0 : BitVec 5) ++ a ++ b ++ (1 : BitVec 1)))
  | .amoMax h d a b => some (packWord h 0x53 (d ++ a ++ b ++ (0 : BitVec 1)))
  | .redMax h a b => some (packWord h 0x53 ((0 : BitVec 5) ++ a ++ b ++ (1 : BitVec 1)))
  | .amoMaxu h d a b => some (packWord h 0x54 (d ++ a ++ b ++ (0 : BitVec 1)))
  | .redMaxu h a b => some (packWord h 0x54 ((0 : BitVec 5) ++ a ++ b ++ (1 : BitVec 1)))
  | .amoAnd h d a b => some (packWord h 0x55 (d ++ a ++ b ++ (0 : BitVec 1)))
  | .redAnd h a b => some (packWord h 0x55 ((0 : BitVec 5) ++ a ++ b ++ (1 : BitVec 1)))
  | .amoOr h d a b => some (packWord h 0x56 (d ++ a ++ b ++ (0 : BitVec 1)))
  | .redOr h a b => some (packWord h 0x56 ((0 : BitVec 5) ++ a ++ b ++ (1 : BitVec 1)))
  | .amoXor h d a b => some (packWord h 0x57 (d ++ a ++ b ++ (0 : BitVec 1)))
  | .redXor h a b => some (packWord h 0x57 ((0 : BitVec 5) ++ a ++ b ++ (1 : BitVec 1)))
  | .amoSwap h d a b => some (packWord h 0x58 (d ++ a ++ b ++ (0 : BitVec 1)))
  | .redSwap h a b => some (packWord h 0x58 ((0 : BitVec 5) ++ a ++ b ++ (1 : BitVec 1)))
  | .amoCas h d a b => some (packWord h 0x59 (d ++ a ++ b ++ (0 : BitVec 1)))
  | .amoIncwrap h d a b => some (packWord h 0x5A (d ++ a ++ b ++ (0 : BitVec 1)))
  | .redIncwrap h a b => some (packWord h 0x5A ((0 : BitVec 5) ++ a ++ b ++ (1 : BitVec 1)))
  | .amoIncb h d a b => some (packWord h 0x5B (d ++ a ++ b ++ (0 : BitVec 1)))
  | .redIncb h a b => some (packWord h 0x5B ((0 : BitVec 5) ++ a ++ b ++ (1 : BitVec 1)))
  | .amoDecpos h d a => some (packWord h 0x5C (d ++ a ++ (0 : BitVec 6)))
  | .redDecpos h a => some (packWord h 0x5C ((0 : BitVec 5) ++ a ++ (1 : BitVec 6)))
  | .amoFaddlim h d a b => some (packWord h 0x5D (d ++ a ++ b ++ (0 : BitVec 1)))
  | .redFaddlim h a b => some (packWord h 0x5D ((0 : BitVec 5) ++ a ++ b ++ (1 : BitVec 1)))
  | .mxtab h d a => some (packWord h 0x60 (d ++ a ++ (0 : BitVec 6)))
  | .mxfmt h d a => some (packWord h 0x61 (d ++ a ++ (0 : BitVec 6)))
  | .mxpert h d a => some (packWord h 0x62 (d ++ a ++ (0 : BitVec 6)))
  | .mxgo h a => some (packWord h 0x63 ((0 : BitVec 5) ++ a ++ (0 : BitVec 6)))
  | .mxwait h => some (packWord h 0x64 ((0 : BitVec 16)))
  | .vxcall h a b => some (packWord h 0x65 ((0 : BitVec 5) ++ a ++ b ++ (0 : BitVec 1)))
  | .vxcallSeed h a b => some (packWord h 0x65 ((0 : BitVec 5) ++ a ++ b ++ (1 : BitVec 1)))
  | .vxwait h => some (packWord h 0x66 ((0 : BitVec 16)))
  | .btcfg h c a => some (packWord h 0x67 ((0 : BitVec 3) ++ c ++ a ++ (0 : BitVec 6)))
  | .btgo h c a => some (packWord h 0x68 ((0 : BitVec 3) ++ c ++ a ++ (0 : BitVec 6)))
  | .btwait h c => some (packWord h 0x69 ((0 : BitVec 3) ++ c ++ (0 : BitVec 11)))
  | .btwaitAll h => some (packWord h 0x69 ((1 : BitVec 16)))
  | .wlOpen h d a => some (packWord h 0x6A (d ++ a ++ (0 : BitVec 6)))
  | .wlSlot h d a => some (packWord h 0x6B (d ++ a ++ (0 : BitVec 6)))
  | .wlRsv h a b => some (packWord h 0x6C ((0 : BitVec 5) ++ a ++ b ++ (0 : BitVec 1)))
  | .wlTest h d a b => some (packWord h 0x6D (d ++ a ++ b ++ (0 : BitVec 1)))
  | .wlTestP h p a b => some (packWord h 0x6D ((0 : BitVec 2) ++ p ++ a ++ b ++ (1 : BitVec 1)))
  | .wlRels h a b => some (packWord h 0x6E ((0 : BitVec 5) ++ a ++ b ++ (0 : BitVec 1)))
  | .wlDone h => some (packWord h 0x6F ((0 : BitVec 16)))
  | .wlRound h d => some (packWord h 0x70 (d ++ (0 : BitVec 11)))
  | .wlClose h => some (packWord h 0x71 ((0 : BitVec 16)))
  | .pbClaim h a => some (packWord h 0x72 ((0 : BitVec 9) ++ a ++ (0 : BitVec 2)))
  | .pbLoad h a m => some (packWord h 0x72 ((32 : BitVec 9) ++ a ++ (0 : BitVec 1) ++ m))
  | .pbColour h a m => some (packWord h 0x72 ((64 : BitVec 9) ++ a ++ (0 : BitVec 1) ++ m))
  | .pbClamp h a => some (packWord h 0x72 ((96 : BitVec 9) ++ a ++ (0 : BitVec 2)))
  | .pbSweep h a m => some (packWord h 0x72 ((128 : BitVec 9) ++ a ++ m))
  | .pbRead h a => some (packWord h 0x72 ((160 : BitVec 9) ++ a ++ (0 : BitVec 2)))
  | .pbMom h a m => some (packWord h 0x72 ((192 : BitVec 9) ++ a ++ (0 : BitVec 1) ++ m))
  | .pbFree h => some (packWord h 0x72 ((28672 : BitVec 16)))
  | .sdSeed h d a => some (packWord h 0x73 ((0 : BitVec 4) ++ d ++ a ++ (0 : BitVec 2)))
  | .sdEmit h a => some (packWord h 0x73 ((32 : BitVec 9) ++ a ++ (0 : BitVec 2)))
  | .sdApply h a => some (packWord h 0x73 ((64 : BitVec 9) ++ a ++ (0 : BitVec 2)))
  | .sdGap h a => some (packWord h 0x73 ((96 : BitVec 9) ++ a ++ (0 : BitVec 2)))
  | .sdFetch h a => some (packWord h 0x73 ((128 : BitVec 9) ++ a ++ (0 : BitVec 2)))
  | .sdKey h a => some (packWord h 0x73 ((160 : BitVec 9) ++ a ++ (0 : BitVec 2)))
  | .cxPut h a => some (packWord h 0x74 ((0 : BitVec 9) ++ a ++ (0 : BitVec 2)))
  | .cxGet h a => some (packWord h 0x74 ((32 : BitVec 9) ++ a ++ (0 : BitVec 2)))
  | .cxWcnt h d a m => some (packWord h 0x74 ((2 : BitVec 4) ++ d ++ a ++ m))
  | .cxSbar h d => some (packWord h 0x74 ((3 : BitVec 4) ++ d ++ (0 : BitVec 7)))
  | .cxAred h a => some (packWord h 0x74 ((128 : BitVec 9) ++ a ++ (0 : BitVec 2)))
  | .cxAgath h a => some (packWord h 0x74 ((160 : BitVec 9) ++ a ++ (0 : BitVec 2)))
  | .cxAbort h d => some (packWord h 0x74 ((6 : BitVec 4) ++ d ++ (0 : BitVec 7)))
  | .cxBar h d => some (packWord h 0x74 ((7 : BitVec 4) ++ d ++ (0 : BitVec 7)))
  | .rgSpawn h d a => some (packWord h 0x75 ((0 : BitVec 4) ++ d ++ a ++ (0 : BitVec 2)))
  | .rgNext h d => some (packWord h 0x75 ((1 : BitVec 4) ++ d ++ (0 : BitVec 7)))
  | .rgSteal h d a => some (packWord h 0x75 ((2 : BitVec 4) ++ d ++ a ++ (0 : BitVec 2)))
  | .rgStep h d => some (packWord h 0x75 ((3 : BitVec 4) ++ d ++ (0 : BitVec 7)))
  | .rgYield h => some (packWord h 0x75 ((16384 : BitVec 16)))
  | .rgExit h a => some (packWord h 0x75 ((160 : BitVec 9) ++ a ++ (0 : BitVec 2)))
  | .trap h i => some (packWord h 0x78 ((0 : BitVec 10) ++ i))
  | .eret h => some (packWord h 0x79 ((0 : BitVec 16)))
  | .sysr h d i => some (packWord h 0x7A (d ++ i))
  | .sysw h d i => some (packWord h 0x7B (d ++ i))
  | .wfe h => some (packWord h 0x7C ((0 : BitVec 16)))
  | .ext i => some ((0x007F : BitVec 16) ++ i)
  | .mxNop h => some (packWord h 0x00 ((0 : BitVec 16)))
  | .mxLdw h f => some (packWord h 0x01 (f ++ (0 : BitVec 11)))
  | .mxSwap h => some (packWord h 0x02 ((0 : BitVec 16)))
  | .mxRun h f n k => some (packWord h 0x03 (f ++ n.extractLsb' 6 2 ++ k ++ n.extractLsb' 0 6))
  | .mxZero h k => some (packWord h 0x04 ((0 : BitVec 7) ++ k ++ (0 : BitVec 6)))
  | .mxDrain h e r b n k => some (packWord h 0x05 ((0 : BitVec 2) ++ e ++ r ++ b ++ n.extractLsb' 6 2 ++ k ++ n.extractLsb' 0 6))
  | .mxMark h => some (packWord h 0x06 ((0 : BitVec 16)))
  | .mxChk h k => some (packWord h 0x07 ((0 : BitVec 7) ++ k ++ (0 : BitVec 6)))
  | .mxBias h => some (packWord h 0x08 ((0 : BitVec 16)))
  | .mxFsel h l b m => some (packWord h 0x09 ((0 : BitVec 2) ++ l ++ (0 : BitVec 1) ++ b ++ (0 : BitVec 2) ++ m))
  | .mxRet h => some (packWord h 0x0A ((0 : BitVec 16)))
  | .vaddF32 h d a b => some (packWord h 0x00 (d ++ a ++ b ++ (0 : BitVec 1)))
  | .vsubF32 h d a b => some (packWord h 0x01 (d ++ a ++ b ++ (0 : BitVec 1)))
  | .vmulF32 h d a b => some (packWord h 0x02 (d ++ a ++ b ++ (0 : BitVec 1)))
  | .vfmaF32 h d a b => some (packWord h 0x03 (d ++ a ++ b ++ (0 : BitVec 1)))
  | .vminF32 h d a b => some (packWord h 0x04 (d ++ a ++ b ++ (0 : BitVec 1)))
  | .vmaxF32 h d a b => some (packWord h 0x05 (d ++ a ++ b ++ (0 : BitVec 1)))
  | .vabsF32 h d a => some (packWord h 0x06 (d ++ a ++ (0 : BitVec 6)))
  | .vnegF32 h d a => some (packWord h 0x07 (d ++ a ++ (0 : BitVec 6)))
  | .vrcpF32 h d a => some (packWord h 0x08 (d ++ a ++ (0 : BitVec 6)))
  | .vrsqF32 h d a => some (packWord h 0x09 (d ++ a ++ (0 : BitVec 6)))
  | .vexp2F32 h d a => some (packWord h 0x0A (d ++ a ++ (0 : BitVec 6)))
  | .vlog2F32 h d a => some (packWord h 0x0B (d ++ a ++ (0 : BitVec 6)))
  | .vcmpF32 h c q a b => some (packWord h 0x0C (c.extractLsb' 1 2 ++ q ++ a ++ b ++ c.extractLsb' 0 1))
  | .vaddF16 h d a b => some (packWord h 0x10 (d ++ a ++ b ++ (0 : BitVec 1)))
  | .vsubF16 h d a b => some (packWord h 0x11 (d ++ a ++ b ++ (0 : BitVec 1)))
  | .vmulF16 h d a b => some (packWord h 0x12 (d ++ a ++ b ++ (0 : BitVec 1)))
  | .vfmaF16 h d a b => some (packWord h 0x13 (d ++ a ++ b ++ (0 : BitVec 1)))
  | .vminF16 h d a b => some (packWord h 0x14 (d ++ a ++ b ++ (0 : BitVec 1)))
  | .vmaxF16 h d a b => some (packWord h 0x15 (d ++ a ++ b ++ (0 : BitVec 1)))
  | .vabsF16 h d a => some (packWord h 0x16 (d ++ a ++ (0 : BitVec 6)))
  | .vnegF16 h d a => some (packWord h 0x17 (d ++ a ++ (0 : BitVec 6)))
  | .vrcpF16 h d a => some (packWord h 0x18 (d ++ a ++ (0 : BitVec 6)))
  | .vrsqF16 h d a => some (packWord h 0x19 (d ++ a ++ (0 : BitVec 6)))
  | .vexp2F16 h d a => some (packWord h 0x1A (d ++ a ++ (0 : BitVec 6)))
  | .vlog2F16 h d a => some (packWord h 0x1B (d ++ a ++ (0 : BitVec 6)))
  | .vcmpF16 h c q a b => some (packWord h 0x1C (c.extractLsb' 1 2 ++ q ++ a ++ b ++ c.extractLsb' 0 1))
  | .vaddBf16 h d a b => some (packWord h 0x20 (d ++ a ++ b ++ (0 : BitVec 1)))
  | .vsubBf16 h d a b => some (packWord h 0x21 (d ++ a ++ b ++ (0 : BitVec 1)))
  | .vmulBf16 h d a b => some (packWord h 0x22 (d ++ a ++ b ++ (0 : BitVec 1)))
  | .vfmaBf16 h d a b => some (packWord h 0x23 (d ++ a ++ b ++ (0 : BitVec 1)))
  | .vminBf16 h d a b => some (packWord h 0x24 (d ++ a ++ b ++ (0 : BitVec 1)))
  | .vmaxBf16 h d a b => some (packWord h 0x25 (d ++ a ++ b ++ (0 : BitVec 1)))
  | .vabsBf16 h d a => some (packWord h 0x26 (d ++ a ++ (0 : BitVec 6)))
  | .vnegBf16 h d a => some (packWord h 0x27 (d ++ a ++ (0 : BitVec 6)))
  | .vrcpBf16 h d a => some (packWord h 0x28 (d ++ a ++ (0 : BitVec 6)))
  | .vrsqBf16 h d a => some (packWord h 0x29 (d ++ a ++ (0 : BitVec 6)))
  | .vexp2Bf16 h d a => some (packWord h 0x2A (d ++ a ++ (0 : BitVec 6)))
  | .vlog2Bf16 h d a => some (packWord h 0x2B (d ++ a ++ (0 : BitVec 6)))
  | .vcmpBf16 h c q a b => some (packWord h 0x2C (c.extractLsb' 1 2 ++ q ++ a ++ b ++ c.extractLsb' 0 1))
  | .viadd h d a b => some (packWord h 0x30 (d ++ a ++ b ++ (0 : BitVec 1)))
  | .visub h d a b => some (packWord h 0x31 (d ++ a ++ b ++ (0 : BitVec 1)))
  | .vimul h d a b => some (packWord h 0x32 (d ++ a ++ b ++ (0 : BitVec 1)))
  | .vand h d a b => some (packWord h 0x33 (d ++ a ++ b ++ (0 : BitVec 1)))
  | .vor h d a b => some (packWord h 0x34 (d ++ a ++ b ++ (0 : BitVec 1)))
  | .vxor h d a b => some (packWord h 0x35 (d ++ a ++ b ++ (0 : BitVec 1)))
  | .vshl h d a b => some (packWord h 0x36 (d ++ a ++ b ++ (0 : BitVec 1)))
  | .vshr h d a b => some (packWord h 0x37 (d ++ a ++ b ++ (0 : BitVec 1)))
  | .vsra h d a b => some (packWord h 0x38 (d ++ a ++ b ++ (0 : BitVec 1)))
  | .vimin h d a b => some (packWord h 0x39 (d ++ a ++ b ++ (0 : BitVec 1)))
  | .viminU h d a b => some (packWord h 0x39 (d ++ a ++ b ++ (1 : BitVec 1)))
  | .vimax h d a b => some (packWord h 0x3A (d ++ a ++ b ++ (0 : BitVec 1)))
  | .vimaxU h d a b => some (packWord h 0x3A (d ++ a ++ b ++ (1 : BitVec 1)))
  | .vicmp h c q a b => some (packWord h 0x3B (c.extractLsb' 1 2 ++ q ++ a ++ b ++ c.extractLsb' 0 1))
  | .vsel h d a b => some (packWord h 0x3C (d ++ a ++ b ++ (0 : BitVec 1)))
  | .vmov h d a => some (packWord h 0x3D (d ++ a ++ (0 : BitVec 6)))
  | .vmovQ h d q => some (packWord h 0x3D (d ++ (0 : BitVec 2) ++ q ++ (1 : BitVec 6)))
  | .vsplat h d i => some (packWord h 0x3E (d ++ i))
  | .vidx h d i => some (packWord h 0x3F (d ++ i))
  | .vcvt h d a c => some (packWord h 0x40 (d ++ a ++ c ++ (0 : BitVec 1)))
  | .vqntS8 h d a b => some (packWord h 0x41 (d ++ a ++ b ++ (0 : BitVec 1)))
  | .vqntU8 h d a b => some (packWord h 0x41 (d ++ a ++ b ++ (1 : BitVec 1)))
  | .vdeq h d a b => some (packWord h 0x42 (d ++ a ++ b ++ (0 : BitVec 1)))
  | .vdeqU h d a b => some (packWord h 0x42 (d ++ a ++ b ++ (1 : BitVec 1)))
  | .vpack h d a f => some (packWord h 0x43 (d ++ a ++ (0 : BitVec 2) ++ f ++ (0 : BitVec 1)))
  | .vpackS h d a f => some (packWord h 0x43 (d ++ a ++ (0 : BitVec 2) ++ f ++ (1 : BitVec 1)))
  | .vunpk h d a f => some (packWord h 0x44 (d ++ a ++ (0 : BitVec 2) ++ f ++ (0 : BitVec 1)))
  | .vunpkS h d a f => some (packWord h 0x44 (d ++ a ++ (0 : BitVec 2) ++ f ++ (1 : BitVec 1)))
  | .vperm h d a b => some (packWord h 0x48 (d ++ a ++ b ++ (0 : BitVec 1)))
  | .vpermH h d a b => some (packWord h 0x48 (d ++ a ++ b ++ (1 : BitVec 1)))
  | .vbcst h d a k => some (packWord h 0x49 (d ++ a ++ k.extractLsb' 0 5 ++ k.extractLsb' 5 1))
  | .vrot h d a k => some (packWord h 0x4A (d ++ a ++ k.extractLsb' 0 5 ++ k.extractLsb' 5 1))
  | .vred h d a o => some (packWord h 0x4C (d ++ a ++ (0 : BitVec 2) ++ o ++ (0 : BitVec 1)))
  | .vredx h d a o => some (packWord h 0x4D (d ++ a ++ (0 : BitVec 3) ++ o ++ (0 : BitVec 1)))
  | .vtopk h d a k => some (packWord h 0x4E (d ++ a ++ k ++ (0 : BitVec 1)))
  | .vtopkMin h d a k => some (packWord h 0x4E (d ++ a ++ k ++ (1 : BitVec 1)))
  | .trow h r n a => some (packWord h 0x50 ((0 : BitVec 2) ++ r.extractLsb' 6 1 ++ n ++ a ++ r.extractLsb' 0 6))
  | .tcol h d c n => some (packWord h 0x51 (d ++ (0 : BitVec 2) ++ c.extractLsb' 6 1 ++ n ++ c.extractLsb' 0 6))
  | .tclr h n => some (packWord h 0x52 ((0 : BitVec 3) ++ n ++ (0 : BitVec 11)))
  | .vpop h d sc => some (packWord h 0x58 (d ++ (0 : BitVec 6) ++ sc ++ (0 : BitVec 1)))
  | .vpush h a => some (packWord h 0x59 ((0 : BitVec 5) ++ a ++ (0 : BitVec 6)))
  | .vpopd h d sc => some (packWord h 0x5A (d ++ (0 : BitVec 6) ++ sc ++ (0 : BitVec 1)))
  | .veq h a => some (packWord h 0x5B ((0 : BitVec 5) ++ a ++ (0 : BitVec 6)))
  | .veqP h p => some (packWord h 0x5B ((0 : BitVec 7) ++ p ++ (1 : BitVec 6)))
  | .vdq h d => some (packWord h 0x5C (d ++ (0 : BitVec 11)))
  | .vdqHi h d => some (packWord h 0x5C (d ++ (1 : BitVec 11)))
  | .vaq h a => some (packWord h 0x5D ((0 : BitVec 5) ++ a ++ (0 : BitVec 6)))
  | .vany h d a => some (packWord h 0x60 ((0 : BitVec 2) ++ d ++ (0 : BitVec 2) ++ a ++ (0 : BitVec 6)))
  | .vall h d a => some (packWord h 0x61 ((0 : BitVec 2) ++ d ++ (0 : BitVec 2) ++ a ++ (0 : BitVec 6)))
  | .qlog h c d a b => some (packWord h 0x62 (c.extractLsb' 1 2 ++ d ++ (0 : BitVec 2) ++ a ++ (0 : BitVec 2) ++ b ++ c.extractLsb' 0 1))
  | .vmsk h a => some (packWord h 0x63 ((0 : BitVec 7) ++ a ++ (0 : BitVec 6)))
  | .vxPlog h c d a b => some (packWord h 0x64 (c.extractLsb' 1 2 ++ d ++ (0 : BitVec 2) ++ a ++ (0 : BitVec 2) ++ b ++ c.extractLsb' 0 1))
  | .vbprep h n i => some (packWord h 0x68 ((0 : BitVec 4) ++ n ++ i))
  | .vbxfer h n d => some (packWord h 0x69 ((0 : BitVec 4) ++ n ++ (0 : BitVec 3) ++ d ++ (0 : BitVec 6)))
  | .vlset h c n i => some (packWord h 0x6A (c ++ (0 : BitVec 2) ++ n ++ i))
  | .vret h => some (packWord h 0x6B ((0 : BitVec 16)))
  | .vwin h r i => some (packWord h 0x6C (r ++ i))
  | .vgrt h d a k sc => some (packWord h 0x70 (d ++ a ++ k ++ sc ++ (0 : BitVec 1)))
  | .vrand h d k sc => some (packWord h 0x71 (d ++ (0 : BitVec 5) ++ k ++ sc ++ (0 : BitVec 1)))
  | .vrandSet h a => some (packWord h 0x71 ((0 : BitVec 5) ++ a ++ (1 : BitVec 6)))
  | .vshd h => some (packWord h 0x74 ((0 : BitVec 16)))
  | .vstat h d => some (packWord h 0x78 (d ++ (0 : BitVec 11)))
  | .vstatClr h d => some (packWord h 0x78 (d ++ (1 : BitVec 11)))
  | .vnop h => some (packWord h 0x7C ((0 : BitVec 16)))
  | .vtrap h i => some (packWord h 0x7D ((0 : BitVec 5) ++ i))
  | .vext i => some ((0x007F : BitVec 16) ++ i)
  | _ => none

/-- The header of an instruction word, where it has one (R22). -/
def Instr.hdr : Instr → Option Hdr
  | .nop h => some h
  | .add h _ _ _ => some h
  | .sub h _ _ _ => some h
  | .and h _ _ _ => some h
  | .or h _ _ _ => some h
  | .xor h _ _ _ => some h
  | .andn h _ _ _ => some h
  | .shl h _ _ _ => some h
  | .shr h _ _ _ => some h
  | .sra h _ _ _ => some h
  | .rotl h _ _ _ => some h
  | .min h _ _ _ => some h
  | .max h _ _ _ => some h
  | .minu h _ _ _ => some h
  | .maxu h _ _ _ => some h
  | .mul h _ _ _ => some h
  | .mulh h _ _ _ => some h
  | .mulhu h _ _ _ => some h
  | .divu h _ _ _ => some h
  | .remu h _ _ _ => some h
  | .clz h _ _ => some h
  | .popc h _ _ => some h
  | .lea h _ _ _ => some h
  | .leaD h _ _ _ => some h
  | .sext h _ _ _ => some h
  | .zext h _ _ _ => some h
  | .bfx h _ _ _ => some h
  | .bfxS h _ _ _ => some h
  | .bfi h _ _ _ => some h
  | .addi h _ _ _ => some h
  | .andi h _ _ _ => some h
  | .ori h _ _ _ => some h
  | .xori h _ _ _ => some h
  | .shli h _ _ _ => some h
  | .shri h _ _ _ => some h
  | .srai h _ _ _ => some h
  | .movi h _ _ => some h
  | .cmp h _ _ _ _ => some h
  | .cmpi h _ _ _ _ => some h
  | .plog h _ _ _ _ => some h
  | .pmovToX h _ => some h
  | .pmovToPf h _ => some h
  | .bprep h _ _ => some h
  | .bset h _ _ => some h
  | .bxfer h _ _ _ => some h
  | .lset h _ _ _ => some h
  | .lbrk h _ => some h
  | .ldB h _ _ _ => some h
  | .ldBu h _ _ _ => some h
  | .ldH h _ _ _ => some h
  | .ldHu h _ _ _ => some h
  | .ldW h _ _ _ => some h
  | .ldWu h _ _ _ => some h
  | .ldD h _ _ _ => some h
  | .stB h _ _ _ => some h
  | .stH h _ _ _ => some h
  | .stW h _ _ _ => some h
  | .stD h _ _ _ => some h
  | .ldq h _ _ _ => some h
  | .stq h _ _ => some h
  | .popq h _ => some h
  | .popqP h _ => some h
  | .qmark h _ => some h
  | .qkill h _ => some h
  | .fence h _ _ => some h
  | .amoAdd h _ _ _ => some h
  | .redAdd h _ _ => some h
  | .amoMin h _ _ _ => some h
  | .redMin h _ _ => some h
  | .amoMinu h _ _ _ => some h
  | .redMinu h _ _ => some h
  | .amoMax h _ _ _ => some h
  | .redMax h _ _ => some h
  | .amoMaxu h _ _ _ => some h
  | .redMaxu h _ _ => some h
  | .amoAnd h _ _ _ => some h
  | .redAnd h _ _ => some h
  | .amoOr h _ _ _ => some h
  | .redOr h _ _ => some h
  | .amoXor h _ _ _ => some h
  | .redXor h _ _ => some h
  | .amoSwap h _ _ _ => some h
  | .redSwap h _ _ => some h
  | .amoCas h _ _ _ => some h
  | .amoIncwrap h _ _ _ => some h
  | .redIncwrap h _ _ => some h
  | .amoIncb h _ _ _ => some h
  | .redIncb h _ _ => some h
  | .amoDecpos h _ _ => some h
  | .redDecpos h _ => some h
  | .amoFaddlim h _ _ _ => some h
  | .redFaddlim h _ _ => some h
  | .mxtab h _ _ => some h
  | .mxfmt h _ _ => some h
  | .mxpert h _ _ => some h
  | .mxgo h _ => some h
  | .mxwait h => some h
  | .vxcall h _ _ => some h
  | .vxcallSeed h _ _ => some h
  | .vxwait h => some h
  | .btcfg h _ _ => some h
  | .btgo h _ _ => some h
  | .btwait h _ => some h
  | .btwaitAll h => some h
  | .wlOpen h _ _ => some h
  | .wlSlot h _ _ => some h
  | .wlRsv h _ _ => some h
  | .wlTest h _ _ _ => some h
  | .wlTestP h _ _ _ => some h
  | .wlRels h _ _ => some h
  | .wlDone h => some h
  | .wlRound h _ => some h
  | .wlClose h => some h
  | .pbClaim h _ => some h
  | .pbLoad h _ _ => some h
  | .pbColour h _ _ => some h
  | .pbClamp h _ => some h
  | .pbSweep h _ _ => some h
  | .pbRead h _ => some h
  | .pbMom h _ _ => some h
  | .pbFree h => some h
  | .sdSeed h _ _ => some h
  | .sdEmit h _ => some h
  | .sdApply h _ => some h
  | .sdGap h _ => some h
  | .sdFetch h _ => some h
  | .sdKey h _ => some h
  | .cxPut h _ => some h
  | .cxGet h _ => some h
  | .cxWcnt h _ _ _ => some h
  | .cxSbar h _ => some h
  | .cxAred h _ => some h
  | .cxAgath h _ => some h
  | .cxAbort h _ => some h
  | .cxBar h _ => some h
  | .rgSpawn h _ _ => some h
  | .rgNext h _ => some h
  | .rgSteal h _ _ => some h
  | .rgStep h _ => some h
  | .rgYield h => some h
  | .rgExit h _ => some h
  | .trap h _ => some h
  | .eret h => some h
  | .sysr h _ _ => some h
  | .sysw h _ _ => some h
  | .wfe h => some h
  | .mxNop h => some h
  | .mxLdw h _ => some h
  | .mxSwap h => some h
  | .mxRun h _ _ _ => some h
  | .mxZero h _ => some h
  | .mxDrain h _ _ _ _ _ => some h
  | .mxMark h => some h
  | .mxChk h _ => some h
  | .mxBias h => some h
  | .mxFsel h _ _ _ => some h
  | .mxRet h => some h
  | .vaddF32 h _ _ _ => some h
  | .vsubF32 h _ _ _ => some h
  | .vmulF32 h _ _ _ => some h
  | .vfmaF32 h _ _ _ => some h
  | .vminF32 h _ _ _ => some h
  | .vmaxF32 h _ _ _ => some h
  | .vabsF32 h _ _ => some h
  | .vnegF32 h _ _ => some h
  | .vrcpF32 h _ _ => some h
  | .vrsqF32 h _ _ => some h
  | .vexp2F32 h _ _ => some h
  | .vlog2F32 h _ _ => some h
  | .vcmpF32 h _ _ _ _ => some h
  | .vaddF16 h _ _ _ => some h
  | .vsubF16 h _ _ _ => some h
  | .vmulF16 h _ _ _ => some h
  | .vfmaF16 h _ _ _ => some h
  | .vminF16 h _ _ _ => some h
  | .vmaxF16 h _ _ _ => some h
  | .vabsF16 h _ _ => some h
  | .vnegF16 h _ _ => some h
  | .vrcpF16 h _ _ => some h
  | .vrsqF16 h _ _ => some h
  | .vexp2F16 h _ _ => some h
  | .vlog2F16 h _ _ => some h
  | .vcmpF16 h _ _ _ _ => some h
  | .vaddBf16 h _ _ _ => some h
  | .vsubBf16 h _ _ _ => some h
  | .vmulBf16 h _ _ _ => some h
  | .vfmaBf16 h _ _ _ => some h
  | .vminBf16 h _ _ _ => some h
  | .vmaxBf16 h _ _ _ => some h
  | .vabsBf16 h _ _ => some h
  | .vnegBf16 h _ _ => some h
  | .vrcpBf16 h _ _ => some h
  | .vrsqBf16 h _ _ => some h
  | .vexp2Bf16 h _ _ => some h
  | .vlog2Bf16 h _ _ => some h
  | .vcmpBf16 h _ _ _ _ => some h
  | .viadd h _ _ _ => some h
  | .visub h _ _ _ => some h
  | .vimul h _ _ _ => some h
  | .vand h _ _ _ => some h
  | .vor h _ _ _ => some h
  | .vxor h _ _ _ => some h
  | .vshl h _ _ _ => some h
  | .vshr h _ _ _ => some h
  | .vsra h _ _ _ => some h
  | .vimin h _ _ _ => some h
  | .viminU h _ _ _ => some h
  | .vimax h _ _ _ => some h
  | .vimaxU h _ _ _ => some h
  | .vicmp h _ _ _ _ => some h
  | .vsel h _ _ _ => some h
  | .vmov h _ _ => some h
  | .vmovQ h _ _ => some h
  | .vsplat h _ _ => some h
  | .vidx h _ _ => some h
  | .vcvt h _ _ _ => some h
  | .vqntS8 h _ _ _ => some h
  | .vqntU8 h _ _ _ => some h
  | .vdeq h _ _ _ => some h
  | .vdeqU h _ _ _ => some h
  | .vpack h _ _ _ => some h
  | .vpackS h _ _ _ => some h
  | .vunpk h _ _ _ => some h
  | .vunpkS h _ _ _ => some h
  | .vperm h _ _ _ => some h
  | .vpermH h _ _ _ => some h
  | .vbcst h _ _ _ => some h
  | .vrot h _ _ _ => some h
  | .vred h _ _ _ => some h
  | .vredx h _ _ _ => some h
  | .vtopk h _ _ _ => some h
  | .vtopkMin h _ _ _ => some h
  | .trow h _ _ _ => some h
  | .tcol h _ _ _ => some h
  | .tclr h _ => some h
  | .vpop h _ _ => some h
  | .vpush h _ => some h
  | .vpopd h _ _ => some h
  | .veq h _ => some h
  | .veqP h _ => some h
  | .vdq h _ => some h
  | .vdqHi h _ => some h
  | .vaq h _ => some h
  | .vany h _ _ => some h
  | .vall h _ _ => some h
  | .qlog h _ _ _ _ => some h
  | .vmsk h _ => some h
  | .vxPlog h _ _ _ _ => some h
  | .vbprep h _ _ => some h
  | .vbxfer h _ _ => some h
  | .vlset h _ _ _ => some h
  | .vret h => some h
  | .vwin h _ _ => some h
  | .vgrt h _ _ _ _ => some h
  | .vrand h _ _ _ => some h
  | .vrandSet h _ => some h
  | .vshd h => some h
  | .vstat h _ => some h
  | .vstatClr h _ => some h
  | .vnop h => some h
  | .vtrap h _ => some h
  | _ => none

/-- The stream whose words an instruction is one of (R37, R39, R40); none for a step without an encoding. -/
def Instr.stream : Instr → Option Stream
  | .nop _ => some .ap
  | .add _ _ _ _ => some .ap
  | .sub _ _ _ _ => some .ap
  | .and _ _ _ _ => some .ap
  | .or _ _ _ _ => some .ap
  | .xor _ _ _ _ => some .ap
  | .andn _ _ _ _ => some .ap
  | .shl _ _ _ _ => some .ap
  | .shr _ _ _ _ => some .ap
  | .sra _ _ _ _ => some .ap
  | .rotl _ _ _ _ => some .ap
  | .min _ _ _ _ => some .ap
  | .max _ _ _ _ => some .ap
  | .minu _ _ _ _ => some .ap
  | .maxu _ _ _ _ => some .ap
  | .mul _ _ _ _ => some .ap
  | .mulh _ _ _ _ => some .ap
  | .mulhu _ _ _ _ => some .ap
  | .divu _ _ _ _ => some .ap
  | .remu _ _ _ _ => some .ap
  | .clz _ _ _ => some .ap
  | .popc _ _ _ => some .ap
  | .lea _ _ _ _ => some .ap
  | .leaD _ _ _ _ => some .ap
  | .sext _ _ _ _ => some .ap
  | .zext _ _ _ _ => some .ap
  | .bfx _ _ _ _ => some .ap
  | .bfxS _ _ _ _ => some .ap
  | .bfi _ _ _ _ => some .ap
  | .addi _ _ _ _ => some .ap
  | .andi _ _ _ _ => some .ap
  | .ori _ _ _ _ => some .ap
  | .xori _ _ _ _ => some .ap
  | .shli _ _ _ _ => some .ap
  | .shri _ _ _ _ => some .ap
  | .srai _ _ _ _ => some .ap
  | .movi _ _ _ => some .ap
  | .cmp _ _ _ _ _ => some .ap
  | .cmpi _ _ _ _ _ => some .ap
  | .plog _ _ _ _ _ => some .ap
  | .pmovToX _ _ => some .ap
  | .pmovToPf _ _ => some .ap
  | .bprep _ _ _ => some .ap
  | .bset _ _ _ => some .ap
  | .bxfer _ _ _ _ => some .ap
  | .lset _ _ _ _ => some .ap
  | .lbrk _ _ => some .ap
  | .ldB _ _ _ _ => some .ap
  | .ldBu _ _ _ _ => some .ap
  | .ldH _ _ _ _ => some .ap
  | .ldHu _ _ _ _ => some .ap
  | .ldW _ _ _ _ => some .ap
  | .ldWu _ _ _ _ => some .ap
  | .ldD _ _ _ _ => some .ap
  | .stB _ _ _ _ => some .ap
  | .stH _ _ _ _ => some .ap
  | .stW _ _ _ _ => some .ap
  | .stD _ _ _ _ => some .ap
  | .ldq _ _ _ _ => some .ap
  | .stq _ _ _ => some .ap
  | .popq _ _ => some .ap
  | .popqP _ _ => some .ap
  | .qmark _ _ => some .ap
  | .qkill _ _ => some .ap
  | .fence _ _ _ => some .ap
  | .amoAdd _ _ _ _ => some .ap
  | .redAdd _ _ _ => some .ap
  | .amoMin _ _ _ _ => some .ap
  | .redMin _ _ _ => some .ap
  | .amoMinu _ _ _ _ => some .ap
  | .redMinu _ _ _ => some .ap
  | .amoMax _ _ _ _ => some .ap
  | .redMax _ _ _ => some .ap
  | .amoMaxu _ _ _ _ => some .ap
  | .redMaxu _ _ _ => some .ap
  | .amoAnd _ _ _ _ => some .ap
  | .redAnd _ _ _ => some .ap
  | .amoOr _ _ _ _ => some .ap
  | .redOr _ _ _ => some .ap
  | .amoXor _ _ _ _ => some .ap
  | .redXor _ _ _ => some .ap
  | .amoSwap _ _ _ _ => some .ap
  | .redSwap _ _ _ => some .ap
  | .amoCas _ _ _ _ => some .ap
  | .amoIncwrap _ _ _ _ => some .ap
  | .redIncwrap _ _ _ => some .ap
  | .amoIncb _ _ _ _ => some .ap
  | .redIncb _ _ _ => some .ap
  | .amoDecpos _ _ _ => some .ap
  | .redDecpos _ _ => some .ap
  | .amoFaddlim _ _ _ _ => some .ap
  | .redFaddlim _ _ _ => some .ap
  | .mxtab _ _ _ => some .ap
  | .mxfmt _ _ _ => some .ap
  | .mxpert _ _ _ => some .ap
  | .mxgo _ _ => some .ap
  | .mxwait _ => some .ap
  | .vxcall _ _ _ => some .ap
  | .vxcallSeed _ _ _ => some .ap
  | .vxwait _ => some .ap
  | .btcfg _ _ _ => some .ap
  | .btgo _ _ _ => some .ap
  | .btwait _ _ => some .ap
  | .btwaitAll _ => some .ap
  | .wlOpen _ _ _ => some .ap
  | .wlSlot _ _ _ => some .ap
  | .wlRsv _ _ _ => some .ap
  | .wlTest _ _ _ _ => some .ap
  | .wlTestP _ _ _ _ => some .ap
  | .wlRels _ _ _ => some .ap
  | .wlDone _ => some .ap
  | .wlRound _ _ => some .ap
  | .wlClose _ => some .ap
  | .pbClaim _ _ => some .ap
  | .pbLoad _ _ _ => some .ap
  | .pbColour _ _ _ => some .ap
  | .pbClamp _ _ => some .ap
  | .pbSweep _ _ _ => some .ap
  | .pbRead _ _ => some .ap
  | .pbMom _ _ _ => some .ap
  | .pbFree _ => some .ap
  | .sdSeed _ _ _ => some .ap
  | .sdEmit _ _ => some .ap
  | .sdApply _ _ => some .ap
  | .sdGap _ _ => some .ap
  | .sdFetch _ _ => some .ap
  | .sdKey _ _ => some .ap
  | .cxPut _ _ => some .ap
  | .cxGet _ _ => some .ap
  | .cxWcnt _ _ _ _ => some .ap
  | .cxSbar _ _ => some .ap
  | .cxAred _ _ => some .ap
  | .cxAgath _ _ => some .ap
  | .cxAbort _ _ => some .ap
  | .cxBar _ _ => some .ap
  | .rgSpawn _ _ _ => some .ap
  | .rgNext _ _ => some .ap
  | .rgSteal _ _ _ => some .ap
  | .rgStep _ _ => some .ap
  | .rgYield _ => some .ap
  | .rgExit _ _ => some .ap
  | .trap _ _ => some .ap
  | .eret _ => some .ap
  | .sysr _ _ _ => some .ap
  | .sysw _ _ _ => some .ap
  | .wfe _ => some .ap
  | .ext _ => some .ap
  | .mxNop _ => some .mx
  | .mxLdw _ _ => some .mx
  | .mxSwap _ => some .mx
  | .mxRun _ _ _ _ => some .mx
  | .mxZero _ _ => some .mx
  | .mxDrain _ _ _ _ _ _ => some .mx
  | .mxMark _ => some .mx
  | .mxChk _ _ => some .mx
  | .mxBias _ => some .mx
  | .mxFsel _ _ _ _ => some .mx
  | .mxRet _ => some .mx
  | .vaddF32 _ _ _ _ => some .vx
  | .vsubF32 _ _ _ _ => some .vx
  | .vmulF32 _ _ _ _ => some .vx
  | .vfmaF32 _ _ _ _ => some .vx
  | .vminF32 _ _ _ _ => some .vx
  | .vmaxF32 _ _ _ _ => some .vx
  | .vabsF32 _ _ _ => some .vx
  | .vnegF32 _ _ _ => some .vx
  | .vrcpF32 _ _ _ => some .vx
  | .vrsqF32 _ _ _ => some .vx
  | .vexp2F32 _ _ _ => some .vx
  | .vlog2F32 _ _ _ => some .vx
  | .vcmpF32 _ _ _ _ _ => some .vx
  | .vaddF16 _ _ _ _ => some .vx
  | .vsubF16 _ _ _ _ => some .vx
  | .vmulF16 _ _ _ _ => some .vx
  | .vfmaF16 _ _ _ _ => some .vx
  | .vminF16 _ _ _ _ => some .vx
  | .vmaxF16 _ _ _ _ => some .vx
  | .vabsF16 _ _ _ => some .vx
  | .vnegF16 _ _ _ => some .vx
  | .vrcpF16 _ _ _ => some .vx
  | .vrsqF16 _ _ _ => some .vx
  | .vexp2F16 _ _ _ => some .vx
  | .vlog2F16 _ _ _ => some .vx
  | .vcmpF16 _ _ _ _ _ => some .vx
  | .vaddBf16 _ _ _ _ => some .vx
  | .vsubBf16 _ _ _ _ => some .vx
  | .vmulBf16 _ _ _ _ => some .vx
  | .vfmaBf16 _ _ _ _ => some .vx
  | .vminBf16 _ _ _ _ => some .vx
  | .vmaxBf16 _ _ _ _ => some .vx
  | .vabsBf16 _ _ _ => some .vx
  | .vnegBf16 _ _ _ => some .vx
  | .vrcpBf16 _ _ _ => some .vx
  | .vrsqBf16 _ _ _ => some .vx
  | .vexp2Bf16 _ _ _ => some .vx
  | .vlog2Bf16 _ _ _ => some .vx
  | .vcmpBf16 _ _ _ _ _ => some .vx
  | .viadd _ _ _ _ => some .vx
  | .visub _ _ _ _ => some .vx
  | .vimul _ _ _ _ => some .vx
  | .vand _ _ _ _ => some .vx
  | .vor _ _ _ _ => some .vx
  | .vxor _ _ _ _ => some .vx
  | .vshl _ _ _ _ => some .vx
  | .vshr _ _ _ _ => some .vx
  | .vsra _ _ _ _ => some .vx
  | .vimin _ _ _ _ => some .vx
  | .viminU _ _ _ _ => some .vx
  | .vimax _ _ _ _ => some .vx
  | .vimaxU _ _ _ _ => some .vx
  | .vicmp _ _ _ _ _ => some .vx
  | .vsel _ _ _ _ => some .vx
  | .vmov _ _ _ => some .vx
  | .vmovQ _ _ _ => some .vx
  | .vsplat _ _ _ => some .vx
  | .vidx _ _ _ => some .vx
  | .vcvt _ _ _ _ => some .vx
  | .vqntS8 _ _ _ _ => some .vx
  | .vqntU8 _ _ _ _ => some .vx
  | .vdeq _ _ _ _ => some .vx
  | .vdeqU _ _ _ _ => some .vx
  | .vpack _ _ _ _ => some .vx
  | .vpackS _ _ _ _ => some .vx
  | .vunpk _ _ _ _ => some .vx
  | .vunpkS _ _ _ _ => some .vx
  | .vperm _ _ _ _ => some .vx
  | .vpermH _ _ _ _ => some .vx
  | .vbcst _ _ _ _ => some .vx
  | .vrot _ _ _ _ => some .vx
  | .vred _ _ _ _ => some .vx
  | .vredx _ _ _ _ => some .vx
  | .vtopk _ _ _ _ => some .vx
  | .vtopkMin _ _ _ _ => some .vx
  | .trow _ _ _ _ => some .vx
  | .tcol _ _ _ _ => some .vx
  | .tclr _ _ => some .vx
  | .vpop _ _ _ => some .vx
  | .vpush _ _ => some .vx
  | .vpopd _ _ _ => some .vx
  | .veq _ _ => some .vx
  | .veqP _ _ => some .vx
  | .vdq _ _ => some .vx
  | .vdqHi _ _ => some .vx
  | .vaq _ _ => some .vx
  | .vany _ _ _ => some .vx
  | .vall _ _ _ => some .vx
  | .qlog _ _ _ _ _ => some .vx
  | .vmsk _ _ => some .vx
  | .vxPlog _ _ _ _ _ => some .vx
  | .vbprep _ _ _ => some .vx
  | .vbxfer _ _ _ => some .vx
  | .vlset _ _ _ _ => some .vx
  | .vret _ => some .vx
  | .vwin _ _ _ => some .vx
  | .vgrt _ _ _ _ _ => some .vx
  | .vrand _ _ _ _ => some .vx
  | .vrandSet _ _ => some .vx
  | .vshd _ => some .vx
  | .vstat _ _ => some .vx
  | .vstatClr _ _ => some .vx
  | .vnop _ => some .vx
  | .vtrap _ _ => some .vx
  | .vext _ => some .vx
  | .illegalOpcode st _ => some st
  | .illegalField st _ => some st
  | _ => none

/-- A decoded word that its stream refuses. -/
def Instr.isIllegal : Instr → Bool
  | .illegalOpcode _ _ => true
  | .illegalField _ _ => true
  | _ => false

/-- Four bytes in memory order as a little-endian word (00_scope.md R1). -/
def wordOfBytes (b0 b1 b2 b3 : BitVec 8) : BitVec 32 := b3 ++ b2 ++ b1 ++ b0

/-- Byte k of a word in memory order (R1). -/
def byteOfWord (w : BitVec 32) (k : Nat) : BitVec 8 := w.extractLsb' (8 * k) 8

/-- The decoder of a stream. -/
noncomputable def decodeStream : Stream → BitVec 32 → Instr
  | .ap, w => decodeAp w
  | .mx, w => decodeMx w
  | .vx, w => decodeVx w

/-- The stream in which a word of the opcode table is read when no stream is named. The three streams use the same
numbers for different words, so one must be chosen: the AP stream where the AP decoder takes the word, else the VXE,
else the MXE. DESIGN CHOICE (log entry 1): the spec always reads a word in a named stream. -/
noncomputable def tableStream (w : BitVec 32) : Option Stream :=
  if (decodeAp w).isIllegal = false then some .ap
  else if (decodeVx w).isIllegal = false then some .vx
  else if (decodeMx w).isIllegal = false then some .mx
  else none

/-- The 32-bit word that `nbits` bits of the opcode table stand for, laid out in bytes as the instruction memory holds
them and read back. -/
def tableWord (nbits w : Nat) : BitVec 32 :=
  let v := BitVec.ofNat 32 (w % 2 ^ nbits)
  wordOfBytes (byteOfWord v 0) (byteOfWord v 1) (byteOfWord v 2) (byteOfWord v 3)

/-- The instruction that the decoder reads from an opcode-table word. -/
noncomputable def decodeTableWord (nbits w : Nat) : Option Instr :=
  if nbits = 0 ∨ 32 < nbits then none
  else (tableStream (tableWord nbits w)).map fun st => decodeStream st (tableWord nbits w)

end Sys2Proof
end

