-- ==== Sys2Proof/Config.lean ====
section
/-!
DEFINITION. What an implementation fixes, and the free values the spec leaves open. A free value is an opaque constant:
nothing in Lean can evaluate it, so a statement about it holds whatever it is.
-/

namespace Sys2Proof

/-- The byte that a read under one key returns where the memory holds what was written under another key
(04_memory.md R83): the XTS decryption under its own key. Free (log entry 4). Arguments: the generation of the key
written under, of the key read under, the address, the byte written. -/
opaque Config.crossKey : Nat → Nat → Nat → Byte → Byte

/-- The 16-bit values of the Quern's physical noise source (20_quern.md R313). Free (log entry 4). -/
opaque Config.entropy : Nat → BitVec 16

/-- SHA-256 of the device's leaf certificate, byte 0 in the lowest bits (R389). Free (log entry 4). -/
opaque Config.leafCertHash : BitVec 256

/-- A measurement block of the SPDM responder (R388) that measures something whose byte image is not stated: its index and what it measures, as
numbers. Free (log entry 4). -/
opaque Config.measurement : Nat → List Nat → BitVec 256

/-- A value that the spec leaves open where it gives a step its effect; the counter `State.freeCtr` names it. Free (log
entry 4). -/
opaque Config.freeWord : Nat → Word

/-- A cycle of the nominal clock, in the unit in which budgets and watchdogs count time: whatever number of sixteenths the clock is
lowered by, a cycle takes a whole number of these (24_device.md R393). -/
def Config.cycleTime : Nat := 720720

/-- A microsecond in that unit: 1,900 cycles of the nominal 1.9 GHz (01_machine.md R4). -/
def Config.usTime : Nat := 1900 * Config.cycleTime

end Sys2Proof
end

