-- ==== Sys2Proof/Machine/State.lean ====
section
/-!
DEFINITION. The state of the machine, as plain data, and its value right after reset.
Register files, memories and tables that the spec lays out over a range of numbers are sparse maps (`SMap`): a list of
number and value pairs, strictly rising, that lists no entry equal to what an unlisted number reads as.
INVENTORY.md '## State' names the rule behind every field.
-/

namespace Sys2Proof.Machine

/-- A sparse map from numbers to values: pairs in strictly rising order. -/
abbrev SMap (α : Type) := List (Nat × α)

/-- The places an AP result can be written to (05_ap_model.md R101, R104); `pf` is the whole predicate file (R128),
`sys` a system register (R153), `qring` the ring of the core's Quern (20_quern.md R323), `sdKey` the log context (16_seed.md R276), and `kill` a `qkill` of the rows whose `ldq`
lies after a place in program order, which takes effect at the end of its cycle (R111). -/
inductive ApDst where
  | x (n : Nat)
  | p (n : Nat)
  | b (n : Nat)
  | pf
  | sys (n : Nat)
  | qring (v : Word)
  | kill (po : Nat)
  | sdKey (rk cfg fr : Word)
  deriving DecidableEq, Repr, Inhabited

/-- The kinds of read-queue entries (22_faults.md R366). -/
inductive RdKind where
  | ld (size : Nat) (signed : Bool)
  | ldq (lqm zm1 zero : Bool)
  | amo
  | test
  deriving DecidableEq, Repr, Inhabited

/-- An AP result in flight (R104): the core cycle it is due, its place in program order, where it goes, its value, and,
for the reply of a read, whether it has arrived and the address read (R105). -/
structure ApFly where
  due : Nat
  po : Nat
  dst : ApDst
  val : Word
  /-- a memory read, whose reply may be late. -/
  mem : Bool := false
  arrived : Bool := true
  va : Word := 0
  /-- the kind of the read, for the result that stands for its queue entry (22_faults.md R366). -/
  rd : Option RdKind := none
  deriving DecidableEq, Repr, Inhabited

/-- A hardware loop register (R116): COUNT, START, END. -/
structure Loop where
  count : BitVec 32
  start : BitVec 14
  stop : BitVec 14
  deriving DecidableEq, Repr, Inhabited

/-- The translation of one 64 KiB granule of the translated space (04_memory.md R79-R84): the granule VA[59:16], where
its bytes lie in `State.mem`, whether that is host memory, the permissions R, W and A, and the generation of its key. -/
structure Xl where
  vpg : Nat
  base : Nat
  host : Bool
  r : Bool
  w : Bool
  a : Bool
  key : Nat
  deriving DecidableEq, Repr, Inhabited

/-- A cached translation of a die's TLB (R85): a partition's leaf, with its page size in bytes. -/
structure TlbE where
  part : Nat
  va : Nat
  size : Nat
  gpa : Nat
  r : Bool
  w : Bool
  a : Bool
  key : Nat
  deriving DecidableEq, Repr, Inhabited

/-- A taken branch whose delay words are not yet executed (R114): words left, target. -/
structure Br where
  left : Nat
  target : Word
  deriving DecidableEq, Repr, Inhabited

/-- The atomic operations (06_ap_instr.md R144). -/
inductive AmoOp where
  | add | min | minu | max | maxu | and | or | xor | swap | cas | incwrap | incb | decpos | faddlim
  deriving DecidableEq, Repr, Inhabited

/-- A read-queue entry: an `ld`, `ldq`, returning atomic or `wl.test` not yet performed (R101), with the address of its
word. `k` of the `n` rows of an `ldq` are done; the rows of a killed one are discarded as they arrive (R111). -/
structure RdE where
  po : Nat
  pc : BitVec 14
  va : Word
  kind : RdKind
  dst : Option ApDst
  due : Nat
  n : Nat := 1
  k : Nat := 0
  kill : Bool := false
  /-- the cycle before which the checker holds it inside the AP (R117). -/
  from_ : Nat := 0
  /-- the branch pending at its word, as BRPEND shows it (R115). -/
  bp : Option Br := none
  deriving DecidableEq, Repr, Inhabited

/-- The kinds of write-queue entries. -/
inductive WrKind where
  | st (size : Nat)
  | stq
  | amo (op : AmoOp)
  | rsv
  | rels
  | test
  deriving DecidableEq, Repr, Inhabited

/-- A write-queue entry (R101): its data (a store's data, an atomic's operand, a Weir tag), the expected value of a
`cas`, and whether its old value is returned (then a read-queue entry with the same `po` stands beside it, R148). -/
structure WrE where
  po : Nat
  pc : BitVec 14
  va : Word
  kind : WrKind
  data : Word := 0
  expect : Word := 0
  dst : Option ApDst := none
  dst2 : Option ApDst := none
  due : Nat := 0
  ret : Bool := false
  from_ : Nat := 0
  bp : Option Br := none
  deriving DecidableEq, Repr, Inhabited

/-- A fence that has not retired (R142): its place in program order, its kind (R94) and its token pushes. -/
structure FenceE where
  po : Nat
  kind : Nat
  pushes : List (Nat × Nat)
  deriving DecidableEq, Repr, Inhabited

/-- A register context of the AP (R101): the main one, or the shadow scalar context (22_faults.md R354). -/
structure ApCtx where
  x : SMap Word := []
  p : SMap Bool := []
  b : SMap Word := []
  loops : SMap Loop := []
  pc : BitVec 14 := 0
  /-- the word at the pc is the target of a taken branch (R115). -/
  via : Bool := false
  /-- the address outside instruction memory that the next fetch would read (R115). -/
  bad : Option Word := none
  br : Option Br := none
  /-- the core cycle before which no word issues (a branch target, R114). -/
  hold : Nat := 0
  /-- the `ext` words before the next word (R30). -/
  ext : List (BitVec 16) := []
  /-- the address of the first of them. -/
  extAt : BitVec 14 := 0
  /-- their use is already wrong, which the following word reports (R31). -/
  extBad : Bool := false
  /-- the word at the pc has taken its pops (R26). -/
  popped : Bool := false
  /-- the cycles that the `ext` words at the pc have taken, before they issue with their word (R32). -/
  lead : Nat := 0
  /-- program order: words issued. -/
  po : Nat := 0
  fly : List ApFly := []
  rq : List RdE := []
  wq : List WrE := []
  /-- `qmark` tags with their place in program order, newest first (R106, R111). -/
  marks : List (Nat × Nat) := []
  fences : List FenceE := []
  /-- why the stream stalls, in the order of R103; 0 if it does not. -/
  stall : Nat := 0
  deriving DecidableEq, Repr, Inhabited

/-- The system registers of a core (R102). -/
structure Sys where
  det : Bool := false
  raw : Bool := false
  priv : Bool := false
  epc : BitVec 14 := 0
  cause : Byte := 0
  faddr : Word := 0
  brrec : BitVec 14 := 0
  bpV : Bool := false
  bpLeft : BitVec 2 := 0
  bpTarget : BitVec 14 := 0
  zrows : BitVec 32 := 0
  injAddr : BitVec 61 := 0
  injKind : BitVec 2 := 0
  injArm : Bool := false
  oum : BitVec 48 := 0
  ccm : BitVec 48 := 0x3FFFFFF
  /-- the debug features the running region was started with (24_device.md R390). -/
  feat : BitVec 32 := 0
  deriving DecidableEq, Repr, Inhabited

/-- A row in LQV or LQM (01_machine.md R9, R10): its swizzle tag (03_numbers.md R71), poison mark, whether ZM1 decoded
it, the cause and block number of an error entry (07_vxe_model.md R171), and the program order of its `ldq`
(none for a BTE row). -/
structure QRow where
  data : Row := 0
  tag : BitVec 4 := 0
  poison : Bool := false
  decoded : Bool := false
  err : Option (Nat × Nat) := none
  po : Option Nat := none
  deriving DecidableEq, Repr, Inhabited

/-- A performed `ldq` row on its way to its queue (R107): target, first core cycle it may enter. -/
structure RowIn where
  lqm : Bool
  zm1 : Bool
  due : Nat
  po : Nat
  /-- rows of the whole `ldq`. -/
  total : Nat
  row : QRow
  deriving DecidableEq, Repr, Inhabited

/-- A block that the ZM1 decoder has taken: its number, the cycle its lane finishes, its decoded row (R170). -/
structure ZBlock where
  k : Nat
  ready : Nat
  row : QRow
  deriving DecidableEq, Repr, Inhabited

/-- A stream of the ZM1 decoder (R166): the `ldq` it came with, its rows in all, the rows that have arrived, the byte
position reached, the next block number, and the blocks taken and not yet in LQV. -/
structure ZStream where
  po : Nat
  total : Nat
  rows : List QRow
  pos : Nat
  k : Nat
  out : List ZBlock
  deriving DecidableEq, Repr, Inhabited

/-- The six data queues (R9) with the rows on their way, and the ZM1 decoder. An entry of SQ, AQ, DQ and EQ carries the
core cycle in which it entered. -/
structure Queues where
  lqv : List QRow := []
  lqm : List QRow := []
  sq : List (Nat × Row) := []
  aq : List (Nat × Row) := []
  dq : List (Nat × Row) := []
  eq : List (Nat × Word) := []
  rowsIn : List RowIn := []
  zm : List ZStream := []
  lanes : SMap Nat := []
  deriving DecidableEq, Repr, Inhabited

/-- The engines that take commands (R11). -/
inductive Eng where
  | mx | vx | bte (ch : Nat) | link | seed | weir | quern | region
  deriving DecidableEq, Repr, Inhabited

/-- What a command does: its engine's operation number, its modifier and the register operands read at issue; a BTE
command carries its latched 192-byte descriptor (13_bte.md R235, R236). -/
structure CmdOp where
  op : Nat
  m : Nat := 0
  regs : List Word := []
  desc : BitVec 1536 := 0
  deriving DecidableEq, Repr, Inhabited

/-- Scratchpad bytes that a command names at issue (R17): where they lie in `State.mem`, how many, the VA that names the
first, and whether the command writes them. -/
structure Foot where
  key : Nat
  len : Nat
  va : Word
  wr : Bool
  deriving DecidableEq, Repr, Inhabited

/-- An unretired engine command (R14). `seq` counts every command of the core; its sequence number is that modulo 2^16. -/
structure Cmd where
  seq : Nat
  eng : Eng
  ccw : Word
  op : CmdOp
  /-- program order of its word, for ACQ (R95). -/
  po : Nat
  /-- core cycle from which the engine may take it (R117). -/
  at_ : Nat
  started : Bool := false
  /-- elements, bytes, items or sweeps done. -/
  pos : Nat := 0
  /-- the phase of a sweep, or the items placed at each member. -/
  sub : List Nat := []
  bytes : Nat := 0
  /-- set once the work is done: the cause, 0 for success. -/
  done : Option Nat := none
  /-- stopped before completing: retires with STATUS 3 (13_bte.md R247). -/
  aborted : Bool := false
  /-- a reduction or gather: attempt and number in it (14_link.md R265, R269). -/
  att : Nat := 0
  k : Nat := 0
  foot : List Foot := []
  /-- the 4-bit parts of destination rows that a BTE command has collected (13_bte.md R243). -/
  part : SMap (BitVec 4) := []
  /-- a walk of this command waits for the handler (22_faults.md R356). -/
  walk : Bool := false
  /-- its work has ended, but REL holds its record back until earlier AP memory events have been performed (R95): STATUS, CAUSE
  and BYTES of the record. -/
  ended : Option (Nat × Nat × Nat) := none
  /-- the core cycle, in a Quern the clock cycle, before which its next phase does not end (20_quern.md R315, R316). -/
  due : Nat := 0
  /-- what a command that waits for a walk has read and found so far (13_bte.md R249, 16_seed.md R284, R286). -/
  memo : List (List Nat) := []
  deriving DecidableEq, Repr, Inhabited

/-- The words that hold the AP until a barrier, a victim or a system operation answers; a `btcfg` until the cycle its read is over,
none while earlier writes still wait; a word that waits for an engine or an event, and a `cx.wcnt` with its window and threshold. -/
inductive PendKind where
  | bar (sbar : Bool) (k att : Nat)
  | wlOpen (lid w n : Nat)
  | wlRound
  | wlClose
  | rgStep (k : Nat)
  | rgYield (k : Nat)
  | rgNext (asked : Nat) (only : Option Nat)
  | rgSpawn (ccw va : Word)
  | rgExit (v : Word)
  | claim (until_ : Nat) (ring : Word)
  | tlbi (v : Word)
  | btcfg (until_ : Option Nat) (va : Word)
  | wait
  | wcnt (win : Nat) (want : Word)
  deriving DecidableEq, Repr, Inhabited

/-- How a held word ends: a value for its destination, or a fault. -/
inductive PendRes where
  | value (v : Word)
  | fault (cause : Nat) (faddr : Word)
  deriving DecidableEq, Repr, Inhabited

/-- The word the AP is held at (R103), with its answer, and the cycle before which the checker lets nothing of it out (R117). -/
structure Pend where
  kind : PendKind
  res : Option PendRes := none
  from_ : Nat := 0
  deriving DecidableEq, Repr, Inhabited

/-- The places a VXE result can be written to (07_vxe_model.md R156, R165). Masks have one bit for each half-lane of a
vector register. -/
inductive VxDst where
  | v (phys : Nat) (val : Row) (mask : BitVec 192)
  | q (n : Nat) (val mask : BitVec 96)
  | p (n : Nat) (val : Bool)
  | vb (n : Nat) (val : Word)
  | tile (t r : Nat) (val : Row) (mask : BitVec 96)
  | tclr (t : Nat)
  | cfg (reg : Nat) (val : Word)
  | vrcAdd (mask : BitVec 96)
  | vrcSet (val : Row) (mask : BitVec 96)
  | sq (val : Row)
  | aq (val : Row)
  | eq (val : Word)
  | nothing
  deriving DecidableEq, Repr, Inhabited

/-- Statistics events of one instruction (03_numbers.md R72). -/
structure Cnt where
  sat : Nat := 0
  ftz : Nat := 0
  nan : Nat := 0
  len : Nat := 0
  deriving DecidableEq, Repr, Inhabited

/-- A VXE result in flight (R165): landing cycle, bundle order, what it writes, the events it counts and under which
tensor id, the tokens it pushes. -/
structure VxFly where
  due : Nat
  order : Nat
  dsts : List VxDst
  cnt : Cnt := {}
  tid : Nat := 0
  pushes : List (Nat × Nat) := []
  deriving DecidableEq, Repr, Inhabited

/-- A queued call of a VXE routine (08_vxe_instr.md R199). -/
structure Call where
  seq : Nat
  target : Nat
  arg : Word
  seed : Bool
  deriving DecidableEq, Repr, Inhabited

/-- The slot-0 word that a `vshd` may check (R173): its class, the cycle and the bundle it issued in, its landing cycle, its
physical register, its half-lanes. -/
structure Prod where
  cls : Nat
  cycle : Nat
  order : Nat
  due : Nat
  phys : Nat
  mask : BitVec 192
  deriving DecidableEq, Repr, Inhabited

/-- A pending shadow check (R174): its producer, and the bundle of the `vshd`. -/
structure Check where
  prod : Prod
  vpc : BitVec 12
  deriving DecidableEq, Repr, Inhabited

/-- The vector engine (R156). -/
structure Vx where
  phys : SMap Row := []
  vwb : BitVec 32 := 0
  q : SMap (BitVec 96) := []
  p : SMap Bool := []
  tiles : SMap Row := []
  vb : SMap Word := []
  loops : SMap Loop := []
  vpc : BitVec 12 := 0
  vrm : BitVec 32 := 0
  vsm : BitVec 32 := 0
  vnm : BitVec 32 := 0
  vseed : Word := 0
  vtid : BitVec 32 := 0
  zcfg : BitVec 32 := 0
  vrc : Row := 0
  fly : List VxFly := []
  calls : List Call := []
  active : Option Nat := none
  br : Option Br := none
  bad : Option Word := none
  hold : Nat := 0
  /-- `vext` immediates pending for each slot (02_encoding.md R36). -/
  ext : SMap (List (BitVec 16)) := []
  /-- the bundle of the first of them, and the slots whose use of them is already wrong (R36). -/
  extAt : SMap Nat := []
  extBad : List Nat := []
  /-- the bundle of the `vbxfer` whose transfer led, or will lead, to VPC (R197). -/
  brFrom : Option (BitVec 12) := none
  /-- the bundle at VPC has taken its pops (R26). -/
  popped : Bool := false
  /-- the core cycle before which no bundle issues: those of a `vext` unit have issued up to it (02_encoding.md R32, R36). -/
  busy : Nat := 0
  /-- why the stream stalls: 1 tokens, 2 a held push, 3 no call queued, 4 another wait; 0 if it does not. -/
  stall : Nat := 0
  prod : Option Prod := none
  checks : List Check := []
  /-- lanes whose check bits differ from their data (R174). -/
  badLanes : SMap (BitVec 96) := []
  /-- physical registers and tiles (at 2048 + t) with an uncorrectable error (22_faults.md R367). -/
  poisoned : List Nat := []
  deriving DecidableEq, Repr, Inhabited

/-- What the bundle being issued carries between its slots: the slot, the lane mask of `vmsk` (R161), and bundles issued so
far. -/
structure VxCtl where
  slot : Nat := 0
  mask : Option (BitVec 96) := none
  order : Nat := 0
  /-- the VXE stands at a `vret` (R199). -/
  atRet : Bool := false
  /-- the bundle's control word has set VPC itself. -/
  jumped : Bool := false
  /-- the bundle's `vlset` skips its body, to the bundle after this one (R198). -/
  skip : Option Nat := none
  deriving DecidableEq, Repr, Inhabited

/-- A weight bank of the matrix engine (10_mxe_model.md R208): column n of the codes is row n of `codes`. -/
structure Bank where
  valid : Bool := false
  fmt : Nat := 0
  g : Nat := 0
  k0 : Nat := 0
  n0 : Nat := 0
  entry : Word := 0
  codes : SMap Row := []
  sc : SMap (BitVec 16) := []
  zp : SMap Byte := []
  ex : SMap Byte := []
  /-- the checksum column W_k (R211). -/
  chk : SMap Int := []
  /-- a weight of the bank has an uncorrectable error (22_faults.md R367). -/
  poisoned : Bool := false
  deriving DecidableEq, Repr, Inhabited

/-- The MXE words that take time (R217). -/
inductive JobKind where
  | ldw | run | swap | zero | drain | chk | bias
  deriving DecidableEq, Repr, Inhabited

/-- The perturbation state (R216): key, control word and extents, in the layout of 11_mxe_instr.md R227. -/
structure Pert where
  key : Word := 0
  ctl : Word := 0
  ext : Word := 0
  deriving DecidableEq, Repr, Inhabited

/-- An MXE word issued and not finished (R217). -/
structure Job where
  kind : JobKind
  tile : Nat := 0
  rb : Nat := 0
  n : Nat := 0
  j : Nat := 0
  entry : Word := 0
  k0 : Nat := 0
  n0 : Nat := 0
  bank : Nat := 0
  /-- the command whose routine the word belongs to. -/
  cmd : Nat := 0
  /-- the core cycle in which the word makes its next progress. -/
  next : Nat := 0
  /-- cycles of progress made. -/
  el : Nat := 0
  rows : List QRow := []
  /-- side rows that a run has popped, and the last of them. -/
  sides : Nat := 0
  side : Row := 0
  /-- the perturbation state as it stood at issue. -/
  pert : Pert := {}
  bias : Bool := false
  relu : Bool := false
  clear : Bool := false
  pushes : List (Nat × Nat) := []
  mpc : Nat := 0
  deriving DecidableEq, Repr, Inhabited

/-- The replay window since the last `mx.mark` (R220): words, AQ rows, whether a swap is in it, the tiles zeroed. -/
structure Window where
  opened : Bool := false
  words : Nat := 0
  rows : Nat := 0
  swap : Bool := false
  zeroed : List Nat := []
  /-- the core cycle until which a replay holds the stream. -/
  busy : Nat := 0
  deriving DecidableEq, Repr, Inhabited

/-- The matrix engine (R208). -/
structure Mx where
  banks : SMap Bank := []
  act : Bool := false
  acc : SMap Lane := []
  residue : SMap Word := []
  klast : SMap Nat := []
  nest : SMap Word := []
  nestS : SMap Word := []
  fmt : SMap Word := []
  fmtS : SMap Word := []
  level : Nat := 0
  base : Nat := 0
  mask : Nat := 0
  pert : Pert := {}
  pertS : Pert := {}
  bias : SMap Lane := []
  mpc : Nat := 0
  start : Nat := 0
  idx : List Nat := [0, 0, 0, 0, 0, 0]
  routine : Option Nat := none
  /-- commands whose final pass has ended and whose words have not all finished (11_mxe_instr.md R228). -/
  ending : List Nat := []
  popped : Bool := false
  /-- why the stream stalls: 1 tokens, 2 a held push, 3 no command queued, 4 another wait; 0 if it does not. -/
  stall : Nat := 0
  jobs : List Job := []
  window : Window := {}
  deriving DecidableEq, Repr, Inhabited

/-- The log context (16_seed.md R275). -/
structure Sd where
  rk : Word := 0
  cfg : Word := 0
  fr : Word := 0
  keyed : Bool := false
  deriving DecidableEq, Repr, Inhabited

/-- The Weir state of a core (18_weir.md R292). -/
structure Wl where
  wst : BitVec 3 := 0
  wlid : BitVec 16 := 0
  wn : Nat := 0
  wslot : Option Nat := none
  widx : SMap (BitVec 48) := []
  wdone : BitVec 256 := 0
  walias : Option Word := none
  /-- the rank whose fault broke the loop (R308). -/
  broken : Option Nat := none
  /-- the core cycles since the member has arrived at its barrier word (R295). -/
  wait : Nat := 0
  deriving DecidableEq, Repr, Inhabited

/-- Link state of a member (14_link.md R265, R269). -/
structure Lk where
  att : BitVec 8 := 0
  /-- the core cycle before which the notice of ATT is still in the AP (05_ap_model.md R117). -/
  out : Nat := 0
  k : Nat := 0
  deriving DecidableEq, Repr, Inhabited

/-- The statistics slots of a core (03_numbers.md R72). -/
structure Stats where
  slots : List (Nat × Cnt) := []
  ovf : Cnt := {}
  ovfUsed : Bool := false
  deriving DecidableEq, Repr, Inhabited

/-- A delivery to the handler (22_faults.md R356): what is written to EPC, CAUSE, FADDR; the engine command whose walk
it is; the clock cycle in which the handler's first word issues. -/
structure Deliv where
  epc : BitVec 14
  cause : Byte
  faddr : Word
  cmd : Option Nat
  /-- the read- or write-queue entry whose walk failed. -/
  apPo : Option Nat
  /-- the branch pending at the word of the event, as BRPEND shows it (R115). -/
  bp : Option Br := none
  start : Nat
  running : Bool
  deriving DecidableEq, Repr, Inhabited

/-- The running mode of a core. -/
inductive CoreRun where
  /-- no kernel on the core. -/
  | idle
  /-- given to a region whose members have not started yet (R345). -/
  | starting
  /-- a kernel runs. -/
  | running
  /-- the kernel has ended by a fault, by `rg.exit`, or is suspended; its snapshot is kept (R352). -/
  | stopped
  deriving DecidableEq, Repr, Inhabited

/-- Retention of a core's arrays (R369). -/
inductive Ret where
  | awake
  | entering (until_ : Nat)
  | retained
  | leaving (until_ : Nat)
  deriving DecidableEq, Repr, Inhabited

/-- Freezes of a core (R105, R360). -/
structure Freeze where
  /-- the address of the absent reply. -/
  late : Option Word := none
  /-- the clock cycle at which an ECC freeze ends. -/
  ecc : Option Nat := none
  /-- consecutive clock cycles frozen. -/
  len : Nat := 0
  /-- the clock cycle in which the core last ran again, or would have but for the next freeze (R353). -/
  ended : Option Nat := none
  deriving DecidableEq, Repr, Inhabited

/-- The range of indices a member still holds, its steal requests, and its counts of region words (21_scheduler.md
R349, R350, R395). -/
structure Rg where
  untaken : List (Nat × Nat) := []
  /-- each with the clock cycle in which it came and the thief's rank. -/
  req : List (Nat × Nat) := []
  spawnCnt : Nat := 0
  k : Nat := 0
  exited : Bool := false
  deriving DecidableEq, Repr, Inhabited

/-- A core. -/
structure Core where
  run : CoreRun := .idle
  /-- the region and rank of the member on the core. -/
  rid : Nat := 0
  rank : Nat := 0
  /-- the copy of a dual run the member belongs to (R349). -/
  copy : Option Nat := none
  /-- the clock cycle from which the member issues (R345). -/
  since : Nat := 0
  main : ApCtx := {}
  shadow : ApCtx := {}
  sys : Sys := {}
  hnd : Option Deliv := none
  hndQ : List Deliv := []
  /-- the six token counts in the order of R6; the pushes that fall to the cycle in progress: stream, FIFO, tokens; and those
  that an earlier cycle held because they did not fit, oldest first (R7). -/
  tok : SMap Nat := []
  pushReq : List (Stream × Nat × Nat) := []
  pushWait : List (Stream × Nat × Nat) := []
  /-- pushes that become due in a later cycle: cycle, stream, FIFO, tokens. -/
  pushLater : List (Nat × Stream × Nat × Nat) := []
  q : Queues := {}
  /-- engine commands numbered so far; CMDSEQ is that modulo 2^16 (R14). -/
  cmdSeq : Nat := 0
  cmds : List Cmd := []
  pend : Option Pend := none
  /-- the word the handler is held at. -/
  pendH : Option Pend := none
  vx : Vx := {}
  vc : VxCtl := {}
  mx : Mx := {}
  /-- channel descriptors of the BTE; an unlisted channel is invalid (13_bte.md R235). -/
  bt : SMap (BitVec 1536) := []
  lk : Lk := {}
  sd : Sd := {}
  wl : Wl := {}
  rg : Rg := {}
  stats : Stats := {}
  ev : Bool := false
  cycle : Nat := 0
  freeze : Freeze := {}
  tokWait : Nat := 0
  /-- the clock cycle since which the core has had no region (R369). -/
  idle : Nat := 0
  ret : Ret := .awake
  apIm : SMap Byte := []
  mxIm : SMap Byte := []
  vxIm : SMap Byte := []
  shIm : SMap (BitVec 32) := []
  /-- instruction words with an uncorrectable error (R367): stream, address; the shadow instruction memory's stand at the AP's
  addresses from 16,384 on. -/
  imBad : List (Stream × Nat) := []
  /-- the checker's copy of the next output will differ (R117). -/
  chkBad : Bool := false
  swz : SMap (BitVec 4) := []
  /-- SNAP_* values captured at the delivery to the handler (R365, R366). -/
  hsnap : SMap Word := []
  /-- SNAP_* values captured at the stop (R352, R366), with the region and rank they belong to; kept until the core is given to another
  region (24_device.md R391). -/
  snap : SMap Word := []
  snapOf : Option (Nat × Nat) := none
  test : Option Nat := none
  deriving DecidableEq, Repr, Inhabited

/-- A Quern (20_quern.md R310), with the position reached in a running sweep (R321). -/
structure Quern where
  owner : Option Nat := none
  ring : Word := 0
  checked : Bool := true
  h : SMap (BitVec 16) := []
  st : SMap Bool := []
  col : SMap (BitVec 3) := []
  cl : SMap Bool := []
  cv : SMap Bool := []
  /-- edge e of p-bit i at 24 i + e: neighbour, coupling; an unlisted edge is invalid. -/
  nb : SMap (BitVec 14 × BitVec 8) := []
  sum : SMap (BitVec 32) := []
  corr : SMap (BitVec 32) := []
  mcnt : BitVec 32 := 0
  /-- ownership is to be released when the owner's commands have retired (R318). -/
  releasing : Bool := false
  deriving DecidableEq, Repr, Inhabited

/-- A window of a region (14_link.md R257). -/
structure Win where
  base : Nat
  len : Nat
  mstride : Nat
  cnt : Nat
  ctl : Nat
  deriving DecidableEq, Repr, Inhabited

/-- The loop state that the Weir unit keeps for a region (18_weir.md R292, R293). -/
structure WLoop where
  lid : Nat
  n : Nat
  w : Nat
  window : List Nat
  /-- the smallest index never dealt. -/
  e : Nat
  deriving DecidableEq, Repr, Inhabited

/-- The fields of a region control block, effective values (21_scheduler.md R334, R336). -/
structure Rcb where
  kimg : Nat := 0
  args : Nat := 0
  crec : Nat := 0
  stats : Nat := 0
  wtab : Nat := 0
  slist : Nat := 0
  lo : Nat := 0
  hi : Nat := 0
  ctl : Nat := 0
  ovr : Nat := 0
  place : Nat := 0
  minc : Nat := 0
  maxc : Nat := 0
  fdom : Nat := 0
  hbmb : Nat := 0
  timeb : Nat := 0
  nstr : Nat := 0
  utag : Nat := 0
  deriving DecidableEq, Repr, Inhabited

/-- The states of a region (R337); `journal` is accepted and not yet in the scoreboard, `gone` has its record written. -/
inductive RegionSt where
  | journal | staging | ready | running | suspended | done | gone
  deriving DecidableEq, Repr, Inhabited

/-- How a region ended (R333): STATUS, CAUSE, RANK, FADDR. -/
structure RegionEnd where
  status : Nat
  cause : Nat
  rank : Nat
  faddr : Word
  deriving DecidableEq, Repr, Inhabited

/-- A copy of a dual run (R349): its cores, its copy-on-write overlay of translated memory, its held spawns (rank, RCB as read), its exit codes,
the statistics of its members that have ended. -/
structure Copy where
  cores : List Nat := []
  /-- the bytes of the overlay's pages, each with the key generation it was written under; an unlisted one is 0 under its page's. -/
  overlay : SMap (Byte × Nat) := []
  /-- the 64 KiB pages of `State.mem` in the overlay, with the key generation each was copied under. -/
  pages : SMap Nat := []
  spawns : List (Nat × BitVec 2048) := []
  user : List (Nat × Nat) := []
  finished : Bool := false
  loop : Option WLoop := none
  mstats : List Stats := []
  deriving DecidableEq, Repr, Inhabited

/-- An accepted region (R332-R351). -/
structure Region where
  part : Nat
  /-- the submission channel: none for the host's, the spawning region and rank for a member's. -/
  chan : Option (Nat × Nat)
  seq : Nat
  /-- the die whose scoreboard holds it (R337). -/
  die : Nat := 0
  /-- the clock cycle of acceptance, the age of R342. -/
  age : Nat
  raw : BitVec 2048
  rcb : Rcb := {}
  st : RegionSt := .journal
  /-- the cores of the members in rank order. -/
  members : List Nat := []
  runs : Nat := 0
  steps : Nat := 0
  /-- the number of streams copied so far. -/
  streams : Nat := 0
  timeUsed : Nat := 0
  /-- bytes of HBMB used by its streams and its live children (R339). -/
  hbmUsed : Nat := 0
  waited : Nat := 0
  user : List (Nat × Nat) := []
  fin : Option RegionEnd := none
  /-- the fault of a member in the cycle in progress, which ends the run as the cycle ends (R346). -/
  fail : Option RegionEnd := none
  wins : SMap Win := []
  lring : Option Nat := none
  /-- the members lost, by copy and rank (14_link.md R255). -/
  lost : List (Option Nat × Nat) := []
  loop : Option WLoop := none
  copies : List Copy := []
  /-- the statistics slots of the members of this run that have ended (03_numbers.md R73). -/
  mstats : List Stats := []
  /-- member state saved at a pre-emption, in rank order (22_faults.md R363). -/
  saved : List Core := []
  /-- scratchpad bytes saved with the members, at rank * 2 MiB + offset. -/
  savedMem : SMap Byte := []
  /-- the bytes among them in units with an uncorrectable error. -/
  savedBad : List Nat := []
  /-- the Querns that members owned, by rank (20_quern.md R321). -/
  savedQ : List (Nat × Quern) := []
  feat : BitVec 32 := 0
  oum : BitVec 48 := 0
  /-- its streams: source, destination, bytes (R338). -/
  strm : List (Nat × Nat × Nat) := []
  /-- the parent's unspent time at acceptance, and the region's own time budget, in the unit of `Config.cycleTime`, as `timeUsed`,
  `waited` and `Part.qtimer` are; none is unbounded (R336). -/
  unspent : Option Nat := none
  bound : Option Nat := none
  /-- bytes of HBMB deducted from the parent's budget until the region completes (R336). -/
  charge : Nat := 0
  deriving DecidableEq, Repr, Inhabited

/-- The states of a virtual function (24_device.md R381, R383). -/
inductive TState where
  | configUnlocked | configLocked | run | error
  deriving DecidableEq, Repr, Inhabited

/-- A partition and the register page of its virtual function (R377-R391). -/
structure Part where
  formed : Bool := false
  tenant : Nat := 0
  clusters : List Nat := []
  share : List (Nat × Nat × Nat) := []
  weight : Nat := 1
  rectX : Nat := 1
  rect : List Nat := []
  shared : List (Nat × Nat) := []
  stage2 : List S2Map := []
  privOk : Bool := false
  keyGen : Nat := 0
  tstate : TState := .configUnlocked
  s1root : Word := 0
  pthb : Word := 0
  pthl : Word := 0
  qwd : Word := 0
  qtimer : Nat := 0
  intctl : Word := 1
  wrej : Bool := false
  resetting : Bool := false
  /-- the reset in progress ends in CONFIG_UNLOCKED with a new key (R385). -/
  afterReset : Bool := false
  dcause : Byte := 0
  dbgOpen : Bool := false
  feat : BitVec 32 := 0
  ev29 : BitVec 32 := 0
  evB0 : BitVec 32 := 0
  assigns : Nat := 0
  dbgsel : Word := 0
  dbgkey : SMap Word := []
  dbgbuf : SMap Word := []
  nextSeq : Nat := 1
  /-- the debug policy image in force; empty while the policy is locked (R388). -/
  policy : List Byte := []
  /-- the partition reset of R385 has run since ERROR was entered. -/
  resetDone : Bool := false
  deriving DecidableEq, Repr, Inhabited

/-- What the device answers to a host request. -/
inductive Reply where
  | none
  | success
  | unsupported
  | retry
  | refused
  | data (v : List Nat)
  deriving DecidableEq, Repr, Inhabited

/-- The streams of a core in the order the step runs them within a core cycle. -/
inductive Phase where
  | ap | mx | vx | tick
  deriving DecidableEq, Repr, Inhabited

/-- Device-level state, by module: firmware, link, power (24_device.md R376, R386, R392, R393). -/
structure Device where
  /-- 0 off, 1 booted; 10 + k stopped at stage k with a bad signature (R386). -/
  boot : SMap Nat := []
  /-- the modules with a junction above 110 °C or without coolant flow (R393): set from outside. -/
  overheat : List Nat := []
  /-- the modules that have shut down (R393). -/
  off : List Nat := []
  /-- lanes of the link; an unlisted module's trains at 16. -/
  lanes : SMap Nat := []
  /-- the streams whose keys are set: module and stream. -/
  ide : List (Nat × Nat) := []
  /-- the power cap in watts; an unlisted module's is 2,600. -/
  powerCap : SMap Nat := []
  /-- steps of 1/16 by which each die's clock is lowered (R393). -/
  clockDiv : SMap Nat := []
  stretch : SMap Bool := []
  retunes : Nat := 0
  suspect : List (Nat × Nat) := []
  fences : List (Nat × Nat) := []
  fused : List Nat := []
  s2log : List Nat := []
  keyCtr : Nat := 0
  reply : Reply := .none
  msix : List (Nat × Nat) := []
  deriving DecidableEq, Repr, Inhabited

/-- The machine. -/
structure State where
  /-- arithmetic-clock cycles since module reset (R102). -/
  clock : Nat
  /-- every byte of HBM, of host memory and of the scratchpads, at the addresses of Machine/Mem.lean. -/
  mem : SMap Byte
  /-- the key generation that each HBM byte was written under (04_memory.md R83). -/
  keyTag : SMap Nat
  /-- HBM ranges that count as written under one key generation where `keyTag` lists nothing, newest first: first address, bytes,
  generation (24_device.md R384, R385). -/
  keyRange : List (Nat × Nat × Nat)
  /-- bytes whose 8-byte unit has an uncorrectable error. -/
  poison : List Nat
  cores : SMap Core
  querns : SMap Quern
  tlb : SMap (List TlbE)
  regions : SMap Region
  nextRid : Nat
  parts : SMap Part
  dev : Device
  /-- the events still to run, in order: host requests, engine progress, port accesses. -/
  agenda : List Instr
  /-- the core and stream that the step runs next. -/
  turn : Nat × Phase
  /-- ticks place the internal events on the agenda by themselves. -/
  eager : Bool
  /-- names the next free value; the model's own. -/
  freeCtr : Nat
  deriving DecidableEq, Repr

/-- Reasons for which the machine stops. There is none: every fault of the spec is an exception or a record, and a module that
shuts down leaves the machine without partitions (24_device.md R393). -/
inductive Fault where
  deriving DecidableEq, Repr

/-- Reasons for which an instruction has no meaning in the model. -/
inductive Refusal where
  /-- Raised by an arm of exec whose instruction has no meaning yet. Safe. -/
  | notModelled (mnemonic : String)
  deriving DecidableEq, Repr

/-- The machine right after module reset: no partition formed, no region, every register at its reset value. -/
def State.reset : State where
  clock := 0
  mem := []
  keyTag := []
  keyRange := []
  poison := []
  cores := []
  querns := []
  tlb := []
  regions := []
  nextRid := 1
  parts := []
  dev := {}
  agenda := []
  turn := (0, .ap)
  eager := true
  freeCtr := 0

/-- The outcome of a step of this machine. -/
abbrev Out := Host.Outcome State Fault Refusal

end Sys2Proof.Machine
end

