-- ==== Sys2Proof/Machine/Sparse.lean ====
section
/-!
DEFINITION. Reading and writing the sparse maps of the state. `smSet` keeps the canonical form: pairs strictly rising, no
entry equal to the default `d`, which is what an unlisted number reads as. `smPut` is for maps whose unlisted entries are
whole records.
-/

namespace Sys2Proof.Machine

/-- The value at `k`; `d` where `k` is not listed. -/
def smGet {α : Type} (d : α) : SMap α → Nat → α
  | [], _ => d
  | (j, v) :: m, k => if j = k then v else smGet d m k

/-- The entry at `k`, where one is listed. -/
def smFind {α : Type} : SMap α → Nat → Option α
  | [], _ => none
  | (j, v) :: m, k => if j = k then some v else smFind m k

/-- Lists the value `v` at `k`, in order. -/
def smPut {α : Type} : SMap α → Nat → α → SMap α
  | [], k, v => [(k, v)]
  | (j, w) :: m, k, v =>
    if k < j then (k, v) :: (j, w) :: m
    else if j = k then (k, v) :: m
    else (j, w) :: smPut m k v

/-- Removes what is listed at `k`. -/
def smDel {α : Type} : SMap α → Nat → SMap α
  | [], _ => []
  | (j, w) :: m, k => if j = k then smDel m k else (j, w) :: smDel m k

/-- Makes `k` read as `v`, in canonical form. -/
def smSet {α : Type} [DecidableEq α] (d : α) (m : SMap α) (k : Nat) (v : α) : SMap α :=
  if v = d then smDel m k else smPut m k v

/-- Every key of the map is above `lo`, and the keys rise strictly. -/
def smRising {α : Type} : Nat → SMap α → Bool
  | _, [] => true
  | lo, (j, _) :: m => decide (lo ≤ j) && smRising (j + 1) m

/-- No entry equals the default. -/
def smNoDefault {α : Type} [DecidableEq α] (d : α) : SMap α → Bool
  | [] => true
  | (_, v) :: m => decide (v ≠ d) && smNoDefault d m

/-- The canonical form of a sparse map. -/
def smWf {α : Type} [DecidableEq α] (d : α) (m : SMap α) : Bool := smRising 0 m && smNoDefault d m

/-- The canonical form of memory: an unlisted byte reads 0 (log entry 2). -/
def Memory.wf (m : SMap Byte) : Bool := smWf 0 m

end Sys2Proof.Machine
end

