-- ==== Sys2Proof/Machine/Bits.lean ====
section
/-!
DEFINITION. Bit fields, sign extension, byte order, and the lanes, half-lanes and bytes of a 384-byte row
(00_scope.md R1, 07_vxe_model.md R157).
-/

namespace Sys2Proof.Machine

/-- Bits lo to lo + len - 1 of a number. -/
def nbits (v lo len : Nat) : Nat := (v >>> lo) % 2 ^ len

/-- Bits lo to lo + len - 1 of a word, as a number. -/
def wbits {n : Nat} (w : BitVec n) (lo len : Nat) : Nat := nbits w.toNat lo len

/-- The two's complement reading of an n-bit number. -/
def sint (n v : Nat) : Int :=
  if v % 2 ^ n < 2 ^ (n - 1) then ((v % 2 ^ n : Nat) : Int) else ((v % 2 ^ n : Nat) : Int) - (2 ^ n : Nat)

/-- The low n bits of an integer's two's complement. -/
def intBits (n : Nat) (i : Int) : Nat := (i % ((2 ^ n : Nat) : Int)).toNat

/-- A word from an integer, modulo 2^64. -/
def wordOfInt (i : Int) : Word := BitVec.ofNat 64 (intBits 64 i)

/-- A lane from an integer, modulo 2^32. -/
def laneOfInt (i : Int) : Lane := BitVec.ofNat 32 (intBits 32 i)

/-- A word with `v` in its low bits. -/
def w64 (v : Nat) : Word := BitVec.ofNat 64 v

/-- n chunks of w bits, chunk i being `f i`, as one number. -/
def chunks (w : Nat) (f : Nat → Nat) : Nat → Nat
  | 0 => 0
  | n + 1 => chunks w f n + (f n % 2 ^ w) <<< (w * n)

/-- Lane i of a row (R157). -/
def rowLane (r : Row) (i : Nat) : Lane := r.extractLsb' (32 * i) 32

/-- Half-lane j of a row. -/
def rowHalf (r : Row) (j : Nat) : BitVec 16 := r.extractLsb' (16 * j) 16

/-- Byte k of a row. -/
def rowByte (r : Row) (k : Nat) : Byte := r.extractLsb' (8 * k) 8

/-- The row whose lane i is `f i`. -/
def rowOfLanes (f : Nat → Lane) : Row := BitVec.ofNat 3072 (chunks 32 (fun i => (f i).toNat) 96)

/-- The row whose half-lane j is `f j`. -/
def rowOfHalves (f : Nat → BitVec 16) : Row := BitVec.ofNat 3072 (chunks 16 (fun i => (f i).toNat) 192)

/-- The row whose byte k is `f k`. -/
def rowOfBytes (f : Nat → Byte) : Row := BitVec.ofNat 3072 (chunks 8 (fun i => (f i).toNat) 384)

/-- Half-lane mask of a lane mask: bit i governs half-lanes 2i and 2i + 1 (R161). -/
def halfMask (m : BitVec 96) : BitVec 192 :=
  BitVec.ofNat 192 (chunks 2 (fun i => if m.getLsbD i then 3 else 0) 96)

/-- The half-lane mask whose bit j is `f j`. -/
def halfMaskOf (f : Nat → Bool) : BitVec 192 := BitVec.ofNat 192 (chunks 1 (fun j => if f j then 1 else 0) 192)

/-- The lane mask whose bit i is `f i`. -/
def laneMaskOf (f : Nat → Bool) : BitVec 96 := BitVec.ofNat 96 (chunks 1 (fun j => if f j then 1 else 0) 96)

/-- `old` with the half-lanes of `mask` replaced by those of `new`. -/
def rowMerge (old new : Row) (mask : BitVec 192) : Row :=
  rowOfHalves fun j => if mask.getLsbD j then rowHalf new j else rowHalf old j

/-- Bitwise choice between two 96-bit masks. -/
def maskMerge (old new m : BitVec 96) : BitVec 96 := (old &&& ~~~m) ||| (new &&& m)

/-- A little-endian number from bytes, first byte lowest (R1). -/
def leNat : List Byte → Nat
  | [] => 0
  | b :: bs => b.toNat + 256 * leNat bs

/-- The n little-endian bytes of a number (R1). -/
def leBytes : Nat → Nat → List Byte
  | 0, _ => []
  | n + 1, v => BitVec.ofNat 8 v :: leBytes n (v / 256)

/-- The first n bytes of a row. -/
def rowBytes (r : Row) : List Byte := leBytes 384 r.toNat

/-- A row from bytes. -/
def rowOfList (bs : List Byte) : Row := BitVec.ofNat 3072 (leNat bs)

/-- Puts an element before the first that it may precede. -/
def insertBy {α : Type} (le : α → α → Bool) (x : α) : List α → List α
  | [] => [x]
  | y :: ys => if le x y then x :: y :: ys else y :: insertBy le x ys

/-- A list in order; elements that precede each other keep theirs. -/
def sortBy {α : Type} (le : α → α → Bool) (l : List α) : List α := l.foldr (insertBy le) []

/-- Number of one bits among the low n bits. -/
def popcount : Nat → Nat → Nat
  | 0, _ => 0
  | n + 1, v => v % 2 + popcount n (v / 2)

/-- Leading zeros of an n-bit number. -/
def clzNat (n v : Nat) : Nat := if v = 0 then n else n - 1 - Nat.log2 v

/-- 32-bit rotations (03_numbers.md R74). -/
def rotl32 (v : Lane) (k : Nat) : Lane := v.rotateLeft k
/-- As `rotl32`, to the right. -/
def rotr32 (v : Lane) (k : Nat) : Lane := v.rotateRight k

/-- The ceiling of a quotient. -/
def ceilDiv (a b : Nat) : Nat := (a + b - 1) / b

/-- floor(i / 2^k) of an integer by a positive divisor. -/
def floorDiv (i : Int) (d : Nat) : Int := Int.fdiv i (d : Int)

/-- Sum of two statistics counts. -/
def Cnt.plus (a b : Cnt) : Cnt := ⟨a.sat + b.sat, a.ftz + b.ftz, a.nan + b.nan, a.len + b.len⟩

/-- `f 0, …, f (n - 1)`. -/
def tabulate {α : Type} (f : Nat → α) : Nat → List α
  | 0 => []
  | n + 1 => tabulate f n ++ [f n]

/-- Looks an element up by position. -/
def nth {α : Type} (d : α) (l : List α) (i : Nat) : α := l.getD i d

end Sys2Proof.Machine
end

