-- ==== Sys2Proof/Machine/Mem.lean ====
section
/-!
DEFINITION. The parts of the state by number, the address spaces, translation, and reading and writing bytes
(04_memory.md R75-R90, 03_numbers.md R71).

A core's number is module * 1024 + die * 256 + cluster * 32 + core (01_machine.md R4); its cluster's number is that
divided by 32, its die's divided by 256. `State.mem` holds byte `off` of a core's scratchpad at core * 2^21 + off, HBM byte
`pa` of a module at 2^60 + module * 2^48 + pa, and host memory byte `pa` at 2^61 + pa. DESIGN CHOICE (log entry 2): the
numbering is the model's own.
-/

namespace Sys2Proof.Machine

def State.core (s : State) (k : Nat) : Core := smGet {} s.cores k
def State.setCore (s : State) (k : Nat) (c : Core) : State := { s with cores := smPut s.cores k c }
def State.region? (s : State) (r : Nat) : Option Region := smFind s.regions r
def State.setRegion (s : State) (r : Nat) (g : Region) : State := { s with regions := smPut s.regions r g }
def State.part (s : State) (p : Nat) : Part := smGet {} s.parts p
def State.setPart (s : State) (p : Nat) (v : Part) : State := { s with parts := smPut s.parts p v }
def State.quern (s : State) (k : Nat) : Quern := smGet {} s.querns k
def State.setQuern (s : State) (k : Nat) (q : Quern) : State := { s with querns := smPut s.querns k q }

/-- The core the step is at. -/
def State.cur (s : State) : Core := s.core s.turn.1
/-- Replaces the core the step is at. -/
def State.setCur (s : State) (c : Core) : State := s.setCore s.turn.1 c

def clusterOf (core : Nat) : Nat := core / 32
def dieOf (core : Nat) : Nat := core / 256
def moduleOf (core : Nat) : Nat := core / 1024
def coreInCluster (core : Nat) : Nat := core % 32

/-- A working core's number within its cluster is below 24 (R4). -/
def coreExists (core : Nat) : Bool := decide (core % 32 < 24)

def spadKey (core off : Nat) : Nat := core * 2 ^ 21 + off
def hbmKey (mod pa : Nat) : Nat := 2 ^ 60 + mod * 2 ^ 48 + pa
def hostKey (pa : Nat) : Nat := 2 ^ 61 + pa
def isSpadKey (k : Nat) : Bool := decide (k < 2 ^ 60)
def isHbmKey (k : Nat) : Bool := decide (2 ^ 60 ≤ k) && decide (k < 2 ^ 61)

/-- The partition that holds a cluster; 0 where none does. -/
def partOfCluster (s : State) (cl : Nat) : Nat :=
  match s.parts.find? (fun e => e.2.formed && e.2.clusters.contains cl) with
  | some e => e.1
  | none => 0

def partOfCore (s : State) (core : Nat) : Nat := partOfCluster s (clusterOf core)

/-- The members of the region of a core, in rank order: of its own copy in a dual run (21_scheduler.md R349). -/
def membersOf (s : State) (core : Nat) : List Nat :=
  let c := s.core core
  match s.region? c.rid with
  | none => [core]
  | some g =>
    match c.copy with
    | some k => (nth {} g.copies k).cores
    | none => g.members

/-- The core behind a cluster scratchpad index of an access by `core` (R76). -/
def spadCore (s : State) (core idx : Nat) : Option Nat :=
  if idx = 31 then some core
  else if 24 ≤ idx then none
  else ((membersOf s core).filter (fun k => clusterOf k == clusterOf core))[idx]?

/-- The cluster-local rank of a core (R76, R344). -/
def localRank (s : State) (core : Nat) : Nat :=
  ((membersOf s core).filter (fun k => clusterOf k == clusterOf core)).idxOf core

/-- Bytes of a scratchpad: 2 MiB. -/
def spadSize : Nat := 2 ^ 21

/-- The space of a VA (R75). -/
def vaSpace (va : Word) : Nat := wbits va 60 4

/-- Where a VA of the cluster scratchpad space lies: the core and the offset (R76). -/
def spadOf (s : State) (core : Nat) (va : Word) : Option (Nat × Nat) :=
  if wbits va 26 34 ≠ 0 then none
  else (spadCore s core (wbits va 21 5)).map fun k => (k, wbits va 0 21)

/-- Bytes of the translated space: 256 TiB (R75). -/
def xlSize : Nat := 2 ^ 48

/-- The lowest byte of an access of `size` bytes that leaves the translated space (R75, R137). -/
def xlOutside (va : Word) (size : Nat) : Option Word :=
  if wbits va 48 12 ≠ 0 then some va else if xlSize < va.toNat + size then some (w64 xlSize) else none

/-- Checks 3 to 5 of R137 on an access of `size` bytes: space, scratchpad index and range, alignment; the cause, and FADDR. -/
def vaCheck (s : State) (core : Nat) (va : Word) (size spadAlign xlAlign : Nat) : Option (Nat × Word) :=
  if vaSpace va = 0 then
    match xlOutside va size with
    | some f => some (0x21, f)
    | none => if va.toNat % xlAlign ≠ 0 then some (0x23, va) else none
  else if vaSpace va = 15 then
    match spadOf s core va with
    | none => some (0x25, va)
    | some (_, off) =>
      if spadSize < off + size then some (0x25, va)
      else if off % spadAlign ≠ 0 then some (0x23, va) else none
  else some (0x21, va)

/-- The stage-2 mapping of a guest address at a module (R84). -/
def stage2 (p : Part) (mod gpa : Nat) : Option S2Map :=
  p.stage2.find? fun m => m.mod == mod && decide (m.gpa ≤ gpa) && decide (gpa < m.gpa + m.len)

/-- Where a guest address lies in `State.mem`. -/
def s2Key (m : S2Map) (gpa : Nat) : Nat :=
  if m.host then hostKey (m.pa + (gpa - m.gpa)) else hbmKey m.mod (m.pa + (gpa - m.gpa))

/-- The byte at an address of `State.mem`; an unlisted byte reads 0 (log entry 2). -/
def memByte (s : State) (key : Nat) : Byte := smGet 0 s.mem key

/-- The key generation that a byte was written under: its own, or that of the range it lies in (24_device.md R384); none for a
byte that nothing has written. -/
def keyGenAt (s : State) (key : Nat) : Option Nat :=
  match smFind s.keyTag key with
  | some t => some (t - 1)
  | none => (s.keyRange.find? fun r => decide (r.1 ≤ key) && decide (key < r.1 + r.2.1)).map fun r => r.2.2

/-- The byte at an address as read under a key generation: another key's data decrypts to a free value (R83). -/
def memRead (s : State) (key gen : Nat) : Byte :=
  if !isHbmKey key then memByte s key
  else match keyGenAt s key with
    | none => memByte s key
    | some t => if t = gen then memByte s key else Config.crossKey t gen key (memByte s key)

/-- Writes one byte; an HBM byte remembers the key it was written under. A byte written anew is no longer in error. DESIGN CHOICE
(log entry 53): a byte written under another key leaves the other bytes of its 16-byte XTS block as they were. -/
def memWrite (s : State) (key gen : Nat) (b : Byte) : State :=
  { s with
    mem := smSet 0 s.mem key b
    keyTag := if isHbmKey key then smPut s.keyTag key (gen + 1) else s.keyTag
    poison := s.poison.filter fun p => p != key }

/-- n little-endian bytes at a guest address through stage 2, under the partition's own key. -/
def gpaNat (s : State) (p : Part) (mod gpa : Nat) : Nat → Option Nat
  | 0 => some 0
  | n + 1 =>
    match stage2 p mod gpa, gpaNat s p mod (gpa + 1) n with
    | some m, some v => some ((memRead s (s2Key m gpa) p.keyGen).toNat + 256 * v)
    | _, _ => none

/-- How a walk ends (R81, R84). -/
inductive Walk where
  | leaf (e : TlbE) (key : Nat)
  | invalid
  | stage2 (perm : Bool) (gpa : Nat)
  deriving DecidableEq, Repr

/-- The key generation a page's key id names: own, shared, plaintext (R83); none where it is not bound or not allowed. -/
def keyOf (s : State) (p : Part) (m : S2Map) (key : Nat) : Option Nat :=
  if m.host then (if key = 0 then some 0 else none)
  else if key = 0 then some p.keyGen
  else if key = 63 then (if m.plain then some 0 else none)
  else (p.shared.find? (fun e => e.1 == key)).map fun e => (s.part e.2).keyGen

/-- One level of the stage-1 walk: the descriptor of `va` in the table at `tab` (R79-R81). `lvl` counts levels left. -/
def walkFrom (s : State) (pn : Nat) (p : Part) (mod va : Nat) : Nat → Nat → Walk
  | 0, _ => .invalid
  | l + 1, tab =>
    let idx := if l = 2 then nbits va 30 18 else if l = 1 then nbits va 21 9 else nbits va 16 5
    let size := if l = 2 then 2 ^ 30 else if l = 1 then 2 ^ 21 else 2 ^ 16
    let next := if l = 2 then 4096 else 256
    match gpaNat s p mod (tab + 8 * idx) 8 with
    | none => .stage2 false (tab + 8 * idx)
    | some d =>
      let key := nbits d 58 6
      let addr := nbits d 8 44 * 256
      if nbits d 0 1 = 0 ∨ nbits d 52 6 ≠ 0 ∨ nbits d 5 3 ≠ 0 then .invalid
      else if nbits d 1 1 = 1 then
        if addr % size ≠ 0 then .invalid
        else .leaf { part := pn, va := va / size * size, size := size, gpa := addr, r := nbits d 2 1 == 1,
                     w := nbits d 3 1 == 1, a := nbits d 4 1 == 1, key := key } key
      else if l = 0 ∨ key ≠ 0 ∨ nbits d 2 3 ≠ 0 ∨ addr % next ≠ 0 then .invalid
      else walkFrom s pn p mod va l addr

/-- A stage-1 walk of a partition at a module (R79); with S1ROOT.EN = 0 every access faults (24_device.md R380). -/
def walk (s : State) (pn mod va : Nat) : Walk :=
  let p := s.part pn
  if wbits p.s1root 0 1 = 0 then .invalid
  else walkFrom s pn p mod va 3 (wbits p.s1root 21 31 * 2 ^ 21)

/-- A die's TLB entry for a VA (R85). -/
def tlbFind (s : State) (die pn va : Nat) : Option TlbE :=
  (smGet [] s.tlb die).find? fun e => e.part == pn && decide (e.va ≤ va) && decide (va < e.va + e.size)

/-- Fills a die's TLB; the oldest entry of 512 leaves (R85). DESIGN CHOICE (log entry 8): which entry leaves is not
stated. -/
def tlbFill (s : State) (die : Nat) (e : TlbE) : State :=
  { s with tlb := smPut s.tlb die ((smGet [] s.tlb die ++ [e]).drop ((smGet [] s.tlb die).length + 1 - 512)) }

/-- What an access needs of a page (R82, R89). -/
structure Need where
  r : Bool := false
  w : Bool := false
  /-- the access is an atomic that the host can carry out (R89), where it is one: A and an AtomicOp are needed there. -/
  atomic : Option Bool := none
  /-- a Weir cell: a host page faults (18_weir.md R299). -/
  cell : Bool := false
  /-- a page of the host is a permission fault for a writer of a dual run (21_scheduler.md R349). -/
  dual : Bool := false
  deriving DecidableEq, Repr

/-- How the check of one page ends: no translation cached, usable, a fault with its order in R137, or a stage-2 end. -/
inductive PageRes where
  | miss
  | ok (x : Xl)
  | fault (ord cause : Nat)
  | stage2 (cause gpa : Nat)
  deriving DecidableEq, Repr

/-- Checks 7 to 9 of R137 on the 64 KiB granule `vpg` of a leaf. -/
def leafCheck (s : State) (mod : Nat) (e : TlbE) (vpg : Nat) (n : Need) : PageRes :=
  let p := s.part e.part
  let gpa := e.gpa + (vpg * 65536 - e.va)
  match stage2 p mod gpa with
  | none => .stage2 0x21 gpa
  | some m =>
    if (n.r && !e.r) || (n.w && !e.w) then .fault 7 0x22
    else if n.w && !m.wr then .stage2 0x22 gpa
    else if n.dual && n.w && m.host then .fault 7 0x22
    else match keyOf s p m e.key with
      | none => .fault 8 0x28
      | some g =>
        if m.host && (n.cell || (match n.atomic with | some ok => !ok || !e.a | none => false)) then .fault 9 0x24
        else .ok { vpg := vpg, base := s2Key m gpa, host := m.host, r := e.r, w := e.w, a := e.a, key := g }

/-- The check of one page against the TLB of the accessing die. -/
def pageCheck (s : State) (die pn vpg : Nat) (n : Need) : PageRes :=
  match tlbFind s die pn (vpg * 65536) with
  | none => .miss
  | some e => leafCheck s (die / 4) e vpg n

/-- How the check of a whole access ends. -/
inductive AccRes where
  | ok (xl : List Xl)
  | miss (vpg : Nat)
  | fault (cause : Nat) (va : Word)
  | stage2 (cause gpa : Nat)
  deriving DecidableEq, Repr

/-- The granules of an access, ascending. -/
def granules (va len : Nat) : List Nat :=
  tabulate (fun k => va / 65536 + k) (if len = 0 then 0 else (va + len - 1) / 65536 - va / 65536 + 1)

/-- Folds the page checks of an access: a stage-2 end first, then a page without a cached translation (its walk comes
before the later checks), then the fault of lowest order at the lowest VA (R137). -/
def accFold (va : Nat) (l : List (Nat × PageRes)) : AccRes :=
  match l.find? (fun e => match e.2 with | .stage2 _ _ => true | _ => false) with
  | some (_, .stage2 c g) => .stage2 c g
  | _ =>
    match l.find? (fun e => e.2 == .miss) with
    | some (v, _) => .miss v
    | none =>
      let at_ (o : Nat) := l.find? (fun e => match e.2 with | .fault o' _ => o == o' | _ => false)
      match (at_ 7).or ((at_ 8).or (at_ 9)) with
      | some (v, .fault _ c) => .fault c (BitVec.ofNat 64 (max va (v * 65536)))
      | _ => .ok (l.filterMap fun e => match e.2 with | .ok x => some x | _ => none)

/-- Checks 6 to 9 of R137 on an access by `core`; scratchpad accesses need none. -/
def accCheck (s : State) (core : Nat) (va : Word) (len : Nat) (n : Need) : AccRes :=
  if vaSpace va ≠ 0 then .ok []
  else
    let n := { n with dual := (s.core core).copy.isSome }
    accFold va.toNat ((granules va.toNat len).map fun v => (v, pageCheck s (dieOf core) (partOfCore s core) v n))

/-- Where the byte at a VA lies, by the translations an access holds: its address in `State.mem` and its key. -/
def byteLoc (s : State) (core : Nat) (xl : List Xl) (va : Word) : Option (Nat × Nat) :=
  if vaSpace va = 15 then (spadOf s core va).map fun p => (spadKey p.1 p.2, 0)
  else (xl.find? (fun x => x.vpg == va.toNat / 65536)).map fun x => (x.base + va.toNat % 65536, x.key)

/-- The copy of a dual run that a core belongs to (21_scheduler.md R349). -/
def copyOf (s : State) (core : Nat) : Option Copy :=
  match (s.core core).copy, s.region? (s.core core).rid with
  | some k, some g => g.copies[k]?
  | _, _ => none

/-- A byte as stored under a key generation and read under another (R83). -/
def underKey (b : Byte × Nat) (gen key : Nat) : Byte := if b.2 = gen then b.1 else Config.crossKey b.2 gen key b.1

/-- The byte at an address as a copy of a dual run reads it: of its overlay, where that holds the page (R349). -/
def copyRead (s : State) (c : Copy) (key gen : Nat) : Byte :=
  match smFind c.pages (key / 65536) with
  | some t => underKey (smGet (0, t) c.overlay key) gen key
  | none => memRead s key gen

/-- The overlay of a copy with the page of an address in it: the page is copied as its first byte is written (R349). -/
def Copy.touch (s : State) (c : Copy) (key gen : Nat) : Copy :=
  let p := key / 65536
  if (smFind c.pages p).isSome then c
  else
    let put (m : SMap (Byte × Nat)) (i : Nat) : SMap (Byte × Nat) :=
      let b := memRead s (65536 * p + i) gen
      if b = 0 then m else smPut m (65536 * p + i) (b, gen)
    { c with pages := smPut c.pages p gen, overlay := (List.range 65536).foldl put c.overlay }

/-- The byte at a VA; 0 where no translation is held (a checked access always holds one). -/
def vaByte (s : State) (core : Nat) (xl : List Xl) (va : Word) : Byte :=
  match byteLoc s core xl va with
  | none => 0
  | some (k, g) =>
    if isSpadKey k then memByte s k
    else match copyOf s core with
      | none => memRead s k g
      | some c => copyRead s c k g

/-- Sets the swizzle tag of the scratchpad row that an address lies in (03_numbers.md R71). -/
def setTag (s : State) (key : Nat) (tag : BitVec 4) : State :=
  if isSpadKey key then
    let k := key / 2 ^ 21
    let c := s.core k
    s.setCore k { c with swz := smSet 0 c.swz (key % 2 ^ 21 / 384) tag }
  else s

/-- The swizzle tag of a row at an address; HBM and host rows have tag 0 (R71). -/
def tagAt (s : State) (key : Nat) : BitVec 4 :=
  if isSpadKey key then smGet 0 (s.core (key / 2 ^ 21)).swz (key % 2 ^ 21 / 384) else 0

/-- Writes one byte at a VA with a tag: to the overlay of a dual run's copy, else to memory (R71, R349). -/
def vaWrite (s : State) (core : Nat) (xl : List Xl) (tag : BitVec 4) (va : Word) (b : Byte) : State :=
  match byteLoc s core xl va with
  | none => s
  | some (k, g) =>
    if isSpadKey k then setTag (memWrite s k g b) k tag
    else match (s.core core).copy, s.region? (s.core core).rid with
      | some n, some r =>
        s.setRegion (s.core core).rid
          { r with copies := r.copies.modify n fun c =>
              let c := c.touch s k g
              { c with overlay := smPut c.overlay k (b, g) } }
      | _, _ => memWrite s k g b

/-- n bytes from a VA. -/
def vaBytes (s : State) (core : Nat) (xl : List Xl) (va : Word) (n : Nat) : List Byte :=
  (List.range n).map fun i => vaByte s core xl (va + w64 i)

/-- A little-endian number of n bytes at a VA. -/
def vaNat (s : State) (core : Nat) (xl : List Xl) (va : Word) (n : Nat) : Nat := leNat (vaBytes s core xl va n)

/-- Writes bytes from a VA upwards, tag 0 (R71). -/
def vaStore (s : State) (core : Nat) (xl : List Xl) (va : Word) : List Byte → State
  | [] => s
  | b :: bs => vaStore (vaWrite s core xl 0 va b) core xl (va + 1) bs

/-- Some 8-byte unit of an access has an uncorrectable error. -/
def vaPoison (s : State) (core : Nat) (xl : List Xl) (va : Word) (n : Nat) : Bool :=
  (List.range n).any fun i =>
    match byteLoc s core xl (va + w64 i) with
    | some (k, _) => s.poison.any fun p => p / 8 == k / 8
    | none => false

/-- Bytes of a core's own scratchpad. -/
def spadBytes (s : State) (core off n : Nat) : List Byte :=
  (List.range n).map fun i => memByte s (spadKey core (off + i))

/-- Writes bytes into a core's scratchpad, tag 0. -/
def spadStore (s : State) (core off : Nat) : List Byte → State
  | [] => s
  | b :: bs => spadStore (setTag (memWrite s (spadKey core off) 0 b) (spadKey core off) 0) core (off + 1) bs

/-- Adds to a 64-bit word of a scratchpad, as a `red.add` (14_link.md R258). -/
def spadAdd (s : State) (core off n : Nat) : State :=
  spadStore s core off (leBytes 8 (leNat (spadBytes s core off 8) + n))

/-- The own-scratchpad VA of an offset (R76). -/
def ownVa (off : Nat) : Word := 0xF000000003E00000#64 + w64 off

/-- Walks and checks a whole access at once, filling the TLB: what an engine does for its own accesses and the launch
for the structures it reads. `miss` says that a walk met an invalid descriptor. -/
def xlNow (s : State) (core : Nat) (va : Word) (n : Need) (pages : List Nat) : State × AccRes :=
  match pages with
  | [] => (s, .ok [])
  | v :: rest =>
    let die := dieOf core
    let pn := partOfCore s core
    let s1 : State × Option PageRes :=
      match tlbFind s die pn (v * 65536) with
      | some _ => (s, none)
      | none =>
        match walk s pn (die / 4) (v * 65536) with
        | .leaf e _ => (tlbFill s die e, none)
        | .invalid => (s, some .miss)
        | .stage2 p g => (s, some (.stage2 (if p then 0x22 else 0x21) g))
    let r := match s1.2 with
      | some r => r
      | none => pageCheck s1.1 die pn v n
    match r with
    | .ok x =>
      match xlNow s1.1 core va n rest with
      | (s2, .ok xs) => (s2, .ok (x :: xs))
      | o => o
    | .miss => (s1.1, .miss v)
    | .fault _ c => (s1.1, .fault c (BitVec.ofNat 64 (max va.toNat (v * 65536))))
    | .stage2 c g => (s1.1, .stage2 c g)

/-- An engine's check of an access of `len` bytes: space and scratchpad range, then pages. -/
def engCheck (s : State) (core : Nat) (va : Word) (len : Nat) (n : Need) : State × AccRes :=
  if len = 0 then (s, .ok [])
  else match vaCheck s core va len 1 1 with
    | some (c, f) => (s, .fault c f)
    | none =>
      if vaSpace va = 0 then
        xlNow s core va { n with dual := (s.core core).copy.isSome } (granules va.toNat len)
      else (s, .ok [])

end Sys2Proof.Machine
end

