-- ==== Sys2Proof/Machine/Snapshot.lean ====
section
/-!
DEFINITION. The snapshot registers of a stopped core, layout 1 (22_faults.md R365, R366). Registers without a row there
read as zero and are not listed.
-/

namespace Sys2Proof.Machine

/-- The causes of R105 and R356 for which a core is frozen: it executes nothing while one holds. -/
def Core.frozen (c : Core) : Bool := c.freeze.late.isSome || c.freeze.ecc.isSome || c.hnd.isSome || !c.hndQ.isEmpty

/-- The freeze of a core begins in clock cycle `now`: the core ran in the cycle before, or would have run in this one (R353). -/
def freezeStarts (c : Core) (now : Nat) : Bool := c.freeze.len == 0 || c.freeze.ended == some now

/-- The shadow scalar context runs the handler (R354). -/
def Core.inHandler (c : Core) : Bool :=
  match c.hnd with
  | some d => d.running
  | none => false

/-- Rows of a stream that stand in the decoder's input buffer: those it has not read to the end (07_vxe_model.md R170). -/
def zmWaiting (z : ZStream) : Nat := z.rows.length - z.pos / 384

/-- The value at `k`; `d` where it is not listed. -/
def mapGet {α : Type} (d : α) (m : SMap α) (k : Nat) : α :=
  match m.find? (fun e => e.1 == k) with
  | some e => e.2
  | none => d

/-- SNAP_HDR: the cause, the stream of the faulting word (0 AP, 1 MXE, 2 VXE, 3 none or handler) and its address. -/
def snapHdr (c : Core) (cause strm addr : Nat) : Word :=
  let bit (b : Bool) (n : Nat) : Nat := if b then 2 ^ n else 0
  w64 (1 + bit c.freeze.late.isSome 16 + bit (walkDelivery c) 17 + bit c.freeze.ecc.isSome 18 + bit c.hnd.isSome 19
    + addr % 2 ^ 14 * 2 ^ 24 + strm % 4 * 2 ^ 38 + cause % 256 * 2 ^ 40)
where
  /-- the delivery in progress is of a walk. -/
  walkDelivery (c : Core) : Bool :=
    match c.hnd with
    | some d => d.cause == 0x21
    | none => false

/-- n fields of w bits from a list, first lowest; missing ones are zero. -/
def packList (w : Nat) (l : List Nat) (n : Nat) : Nat := chunks w (fun i => l.getD i 0) n

/-- SNAP_BTn (R366): the walk point and element of the channel's running command. -/
def snapBt (c : Core) (ch : Nat) : Word :=
  let mine := c.cmds.filter fun k => k.eng == .bte ch && k.done.isNone
  match mine.find? (fun k => k.started) with
  | some k =>
    let len := max 1 (wbits k.op.desc (8 * 0x18) 32)
    w64 (k.pos / len % 2 ^ 47 + k.pos % len % 2 ^ 13 * 2 ^ 47 + 2 * 2 ^ 60)
  | none => if mine.isEmpty then 0 else w64 (2 ^ 60)

/-- The number by which SNAP_WB names an AP destination: the spec gives no numbering (log entry 9). -/
def apDstNo : ApDst → Nat
  | .x n => n
  | .p n => 32 + n
  | .b n => 40 + n
  | .pf => 44
  | .sys n => 128 + n
  | .kill _ => 46
  | .sdKey _ _ _ => 47
  | .qring _ => 48

/-- The number by which SNAP_WB names a VXE destination (log entry 9). -/
def vxDstNo : VxDst → Nat
  | .v p _ _ => p % 128
  | .q n _ _ => 128 + n
  | .p n _ => 136 + n
  | .vb n _ => 144 + n
  | .tile t _ _ _ => 148 + t
  | .tclr t => 148 + t
  | .cfg r _ => 160 + r
  | .vrcAdd _ => 152
  | .vrcSet _ _ => 152
  | .sq _ => 153
  | .aq _ => 154
  | .eq _ => 155
  | .nothing => 157

/-- WFMT of a format entry (10_mxe_model.md R215). -/
def enWfmt (e : Word) : Nat := wbits e 0 2
/-- TID of PERT (11_mxe_instr.md R227). -/
def ptTid (p : Pert) : Nat := wbits p.ctl 0 24

/-- Cycles per activation row (10_mxe_model.md R210). -/
def rowCycles (wfmt : Nat) : Nat := if wfmt = 0 ∨ wfmt = 3 then 2 else 1

/-- Cycles of a load whose LQM keeps pace: 18,432 elements at 64 a cycle, perturbed, or at 128 (10_mxe_model.md R210). -/
def loadCycles (j : Job) : Nat := if ptTid j.pert = 0 then 144 else 288

/-- What an unfinished MXE word writes, as SNAP_WB names it, and the cycles until it finishes if nothing makes it wait (log entry 9). -/
def jobWrites (j : Job) : Option (Nat × Nat) :=
  match j.kind with
  | .run => some (192 + j.tile, rowCycles (enWfmt j.entry) * j.n + 12 - j.el)
  | .zero => some (192 + j.tile, 4 - j.el)
  | .ldw => some (200 + j.bank, loadCycles j - j.el)
  | .swap => some (202, 1 - j.el)
  | .bias => some (203, 0)
  | .drain => some (204, j.n - j.j)
  | .chk => none

/-- SNAP_WB: results in flight from producers other than memory reads, one for each destination. -/
def snapWb (c : Core) : List Nat :=
  let entry (strm dst left : Nat) : Nat := dst % 256 + strm * 2 ^ 8 + min 1023 left * 2 ^ 10 + 2 ^ 63
  let ap := (c.main.fly.filter fun f => !f.mem).map fun f => entry 0 (apDstNo f.dst) (f.due - c.cycle)
  let mx := (c.mx.jobs.filterMap jobWrites).map fun e => entry 1 e.1 e.2
  let vx := c.vx.fly.flatMap fun f => f.dsts.map fun d => entry 2 (vxDstNo d) (f.due - c.cycle)
  (ap ++ mx ++ vx).take 48

/-- The kind number of a read-queue entry: the size of a load, 9 `ldq`, 10 an atomic, 11 `wl.test` (log entry 9). -/
def rdKindNo : RdKind → Nat
  | .ld n _ => n
  | .ldq _ _ _ => 9
  | .amo => 10
  | .test => 11

/-- The kind number of a write-queue entry: the size of a store, 9 `stq`, 10 an atomic, 11 and 12 a Weir reserve and
release, 13 `wl.test` (log entry 9). -/
def wrKindNo : WrKind → Nat
  | .st n => n
  | .stq => 9
  | .amo _ => 10
  | .rsv => 11
  | .rels => 12
  | .test => 13

def apDstReg : Option ApDst → Nat
  | some (.x n) => n
  | _ => 0

/-- Read-queue entries as SNAP_RQ shows them, oldest first: performed reads in flight and reads not yet performed, as
(VA, RQK bits). -/
def snapRq (c : Core) : List (Nat × Nat) :=
  let perf := c.main.fly.filterMap fun f => f.rd.map fun kind =>
    (f.va.toNat, rdKindNo kind % 16 + 16 + min 1023 (f.due - c.cycle) * 2 ^ 5 + apDstReg (some f.dst) * 2 ^ 15)
  (perf ++ c.main.rq.map fun (e : RdE) => (e.va.toNat, rdKindNo e.kind % 16 + apDstReg e.dst * 2 ^ 15)).take 64

/-- Write-queue entries, of which the `stq` words find `rows` rows in SQ. -/
def snapWrs : Nat → List WrE → List (Nat × Nat)
  | _, [] => []
  | rows, e :: es =>
    let present : Bool := e.kind != .stq || decide (0 < rows)
    (e.va.toNat, wrKindNo e.kind % 16 + (if present then 16 else 0)) :: snapWrs (if e.kind = .stq then rows - 1 else rows) es

/-- Write-queue entries as SNAP_WQ and SNAP_WQK show them; an `stq` has its data once its row stands in SQ. -/
def snapWq (c : Core) : List (Nat × Nat) := (snapWrs (c.q.sq.filter fun e => decide (e.1 < c.cycle)).length c.main.wq).take 32

/-- SNAP_ZM1: block number, cycles left and busy bit of a decoder lane. -/
def snapZm (c : Core) (lane : Nat) : Word :=
  match (c.q.zm.flatMap ZStream.out).find? (fun b => b.k % 4 == lane && decide (c.cycle < b.ready)) with
  | some b => w64 (b.k % 2 ^ 16 + min 255 (b.ready - c.cycle) * 2 ^ 16 + 2 ^ 24)
  | none => 0

/-- Position of the current point of the MXE's loop nest in its order of visits, modulo 256 (log entry 9). -/
def snapMxPoint (c : Core) : Nat :=
  (List.range 6).foldl (fun a l => a * max 1 (wbits (mapGet 0 c.mx.nest l) 48 16) + c.mx.idx.getD l 0) 0 % 256

/-- All snapshot registers of a core at a stop (R366). -/
def snapshot (c : Core) (cause strm addr : Nat) : SMap Word :=
  let rq := snapRq c
  let wq := snapWq c
  let wb := snapWb c
  let ext := c.main.ext.foldl (fun a e => a * 65536 + e.toNat) 0
  let mxq := (c.cmds.filter fun k => k.eng == .mx && !k.started).length
  let br := match c.vx.br with | some b => b | none => ⟨0, 0⟩
  let zin := (c.q.zm.map zmWaiting).foldl (· + ·) 0
  let i (n : Nat) := c.mx.idx.getD n 0 % 65536
  let all : SMap Word :=
    [ (0x100, snapHdr c cause strm addr),
      (0x101, w64 c.cycle),
      (0x102, w64 (c.main.pc.toNat + c.main.ext.length % 4 * 2 ^ 14 + ext * 2 ^ 16 + c.main.stall % 256 * 2 ^ 48)),
      (0x103, w64 (c.mx.mpc % 4096 + (if c.mx.routine.isSome then 2 ^ 12 else 0) + min 15 mxq * 2 ^ 13
        + snapMxPoint c * 2 ^ 17)),
      (0x104, w64 (c.vx.vpc.toNat + br.left % 4 * 2 ^ 12 + (if c.vx.br.isSome then 2 ^ 14 else 0)
        + br.target.toNat % 4096 * 2 ^ 15 + (if c.vx.active.isSome then 2 ^ 27 else 0) + c.vx.calls.length % 16 * 2 ^ 28)),
      (0x105, w64 (chunks 4 (fun f => mapGet 0 c.tok f) 6)),
      (0x106, w64 (c.q.lqv.length % 128 + c.q.lqm.length % 128 * 2 ^ 7 + c.q.sq.length % 64 * 2 ^ 14
        + c.q.aq.length % 64 * 2 ^ 20 + c.q.dq.length % 64 * 2 ^ 26 + c.q.eq.length % 32 * 2 ^ 32 + zin % 128 * 2 ^ 37)),
      (0x107, w64 (c.cmdSeq % 2 ^ 16 + c.cmds.length % 256 * 2 ^ 16 + rq.length % 128 * 2 ^ 24
        + c.main.wq.length % 128 * 2 ^ 31 + (if c.ev then 2 ^ 38 else 0))),
      (0x108, w64 (i 0 + i 1 * 2 ^ 16 + i 2 * 2 ^ 32 + i 3 * 2 ^ 48)),
      (0x109, w64 (i 4 + i 5 * 2 ^ 16)) ]
    ++ tabulate (fun n => (0x10C + n, snapBt c n)) 4
    ++ tabulate (fun n => (0x110 + n, w64 (wb.getD n 0))) 48
    ++ tabulate (fun n => (0x140 + n, w64 ((rq.getD n (0, 0)).1))) 64
    ++ tabulate (fun n => (0x180 + n, w64 (packList 32 ((rq.drop (2 * n)).map fun e => e.2) 2))) 32
    ++ tabulate (fun n => (0x1A0 + n, w64 ((wq.getD n (0, 0)).1))) 32
    ++ tabulate (fun n => (0x1C0 + n, w64 (packList 8 ((wq.drop (8 * n)).map fun e => e.2) 8))) 4
    ++ tabulate (fun n => (0x1C4 + n, snapZm c n)) 4
  all.filter fun e => e.2 != 0

end Sys2Proof.Machine
end

