-- ==== Sys2Proof/Machine/Ops.lean ====
section
/-!
DEFINITION. The shared operations over the state: tokens, the AP's program counter and result list, engine commands and
their records, the end of a run, taking an exception and returning from one, and what every AP word does around its own
effect (02_encoding.md R22-R32, 05_ap_model.md R103-R117, 22_faults.md R352-R359).
-/

namespace Sys2Proof.Machine

/-! ### Tokens (R6, R7, R22, R24) -/

/-- The FIFO that a stream's words pop, from the previous station (false) or the next (true), by its place in R6. -/
def popFifo : Stream → Bool → Nat
  | .ap, false => 2
  | .ap, true => 3
  | .mx, false => 0
  | .mx, true => 4
  | .vx, false => 1
  | .vx, true => 5

/-- The FIFO that a stream's words push to, towards the previous station (false) or the next (true). -/
def pushFifo : Stream → Bool → Nat
  | .ap, false => 5
  | .ap, true => 0
  | .mx, false => 3
  | .mx, true => 1
  | .vx, false => 4
  | .vx, true => 2

/-- The pops of a header, as (FIFO, tokens) (R22). -/
def hdrPops (st : Stream) (h : Hdr) : List (Nat × Nat) :=
  if h.vs = 1 then [(popFifo st false, 2 * h.wp.toNat + h.wn.toNat)]
  else [(popFifo st false, h.wp.toNat), (popFifo st true, h.wn.toNat)]

/-- The pushes of a header. -/
def hdrPushes (st : Stream) (h : Hdr) : List (Nat × Nat) :=
  if h.vs = 1 then [(pushFifo st true, 2 * h.sp.toNat + h.sn.toNat)]
  else [(pushFifo st false, h.sp.toNat), (pushFifo st true, h.sn.toNat)]

/-- Tokens that a list of transfers moves through FIFO `f`. -/
def tokSum (l : List (Nat × Nat)) (f : Nat) : Nat :=
  (l.map fun e => if e.1 = f then e.2 else 0).sum

/-- Tokens in FIFO `f`. -/
def Core.tokens (c : Core) (f : Nat) : Nat := smGet 0 c.tok f

/-- Every FIFO holds what the pops need (R7). -/
def popsReady (c : Core) (l : List (Nat × Nat)) : Bool :=
  [0, 1, 2, 3, 4, 5].all fun f => decide (tokSum l f ≤ c.tokens f)

/-- Takes all pops at once. -/
def takePops (c : Core) (l : List (Nat × Nat)) : Core :=
  { c with tok := [0, 1, 2, 3, 4, 5].foldl (fun m f => smSet 0 m f (smGet 0 m f - tokSum l f)) c.tok }

/-- Asks for pushes of a stream at the end of the cycle; transfers of no tokens are dropped. -/
def askPushes (c : Core) (st : Stream) (l : List (Nat × Nat)) : Core :=
  { c with pushReq := c.pushReq ++ ((l.filter fun e => e.2 != 0).map fun e => (st, e.1, e.2)) }

/-- A push of the stream that did not fit is still to be made: it holds the stream (R7). -/
def pushHeld (c : Core) (st : Stream) : Bool := c.pushWait.any fun e => e.1 == st

/-- The pushes of a cycle as they are made: several slots of the VXE push to one FIFO together (R34). -/
def cyclePushes (l : List (Stream × Nat × Nat)) : List (Stream × Nat × Nat) :=
  let n (f : Nat) : Nat := tokSum ((l.filter fun e => e.1 == .vx).map fun e => e.2) f
  (l.filter fun e => e.1 != .vx)
    ++ (([2, 4].filter fun f => n f != 0).map fun f => (Stream.vx, f, n f))

/-- Makes a push, or holds it: where it would take its FIFO above 15, or stands behind one that is held. -/
def makePush (a : SMap Nat × List (Stream × Nat × Nat)) (e : Stream × Nat × Nat) : SMap Nat × List (Stream × Nat × Nat) :=
  if (a.2.any fun x => x.2.1 == e.2.1) || decide (15 < smGet 0 a.1 e.2.1 + e.2.2) then (a.1, a.2 ++ [e])
  else (smSet 0 a.1 e.2.1 (smGet 0 a.1 e.2.1 + e.2.2), a.2)

/-- The end of a cycle (R7): the pushes held before, in order, then those of the cycle. -/
def resolvePushes (c : Core) : Core :=
  let r := (c.pushWait ++ cyclePushes c.pushReq).foldl makePush (c.tok, [])
  { c with tok := r.1, pushReq := [], pushWait := r.2 }

/-- The pushes that landed in this cycle fit, as the FIFOs stand after the pops of the AP and the MXE: no bundle issues over a
push that is held (R34). -/
def landedFit (c : Core) : Bool := (cyclePushes c.pushReq).all fun e => e.1 != .vx || decide (c.tokens e.2.1 + e.2.2 ≤ 15)

/-! ### The AP's registers and results -/

/-- The register context the AP runs in: the shadow scalar context while the handler runs (R354). -/
def Core.ctx (c : Core) : ApCtx := if c.inHandler then c.shadow else c.main

def Core.setCtx (c : Core) (x : ApCtx) : Core := if c.inHandler then { c with shadow := x } else { c with main := x }

/-- The word that the running context is held at. -/
def Core.held (c : Core) : Option Pend := if c.inHandler then c.pendH else c.pend

def Core.setHeld (c : Core) (p : Option Pend) : Core := if c.inHandler then { c with pendH := p } else { c with pend := p }

/-- The cycle count that the AP's latencies run in: core cycles, and clock cycles in the handler (R105, R354). -/
def apTime (s : State) : Nat := if s.cur.inHandler then s.clock else s.cur.cycle

/-- Words of the instruction memory the AP fetches from (R101, R354). -/
def Core.apWords (c : Core) : Nat := if c.inHandler then 2048 else 16384

/-- x[n] as a word issuing now reads it (R118); x0 reads zero. -/
def xr (s : State) (n : BitVec 5) : Word := if n = 0 then 0 else smGet 0 s.cur.ctx.x n.toNat

/-- x[n + k] of a group of consecutive registers. -/
def xg (s : State) (n : BitVec 5) (k : Nat) : Word := xr s (n + BitVec.ofNat 5 k)

/-- p[n]; p0 reads 1. -/
def pr (s : State) (n : BitVec 3) : Bool := if n = 0 then true else smGet false s.cur.ctx.p n.toNat

/-- b[n]. -/
def br (s : State) (n : BitVec 2) : Word := smGet 0 s.cur.ctx.b n.toNat

/-- Changes the context of the current core. -/
def State.modCtx (s : State) (f : ApCtx → ApCtx) : State := s.setCur (s.cur.setCtx (f s.cur.ctx))

/-- Changes the current core. -/
def State.modCur (s : State) (f : Core → Core) : State := s.setCur (f s.cur)

/-- A result that lands `lat` cycles from now (R104). -/
def result (s : State) (lat : Nat) (dst : ApDst) (v : Word) : State :=
  s.modCtx fun x => { x with fly := x.fly ++ [{ due := apTime s + lat, po := x.po, dst := dst, val := v }] }

/-- Writes x[d] with a latency; a write to x0 is discarded (R118). -/
def setX (s : State) (lat : Nat) (d : BitVec 5) (v : Word) : State :=
  if d = 0 then s else result s lat (.x d.toNat) v

/-- Writes p[d] with latency 1; a write to p0 is discarded. -/
def setP (s : State) (lat : Nat) (d : BitVec 3) (v : Bool) : State :=
  if d = 0 then s else result s lat (.p d.toNat) (if v then 1 else 0)

/-! ### The program counter (R114-R116) -/

/-- Sends the pc to a word address; one outside the memory is kept for the fetch that faults (R115). -/
def ApCtx.goto (x : ApCtx) (lim : Nat) (t : Word) : ApCtx :=
  if t.toNat < lim then { x with pc := BitVec.ofNat 14 t.toNat, bad := none } else { x with bad := some t }

/-- Inserts a loop number, larger START first (R116). -/
def loopInsert (m : SMap Loop) (n : Nat) : List Nat → List Nat
  | [] => [n]
  | k :: ks =>
    if (smGet ⟨0, 0, 0⟩ m k).start < (smGet ⟨0, 0, 0⟩ m n).start then n :: k :: ks else k :: loopInsert m n ks

/-- The active loops whose END is `pc`, innermost first. -/
def loopsAt (m : SMap Loop) (pc : Nat) : List Nat :=
  [0, 1, 2, 3].foldl (fun l n =>
    let e := smGet ⟨0, 0, 0⟩ m n
    if e.count ≠ 0 ∧ e.stop.toNat = pc then loopInsert m n l else l) []

/-- The examination of R116: the loops afterwards, and the START to go to. -/
def loopRun : List Nat → SMap Loop → SMap Loop × Option (BitVec 14)
  | [], m => (m, none)
  | n :: ns, m =>
    let e := smGet ⟨0, 0, 0⟩ m n
    if 1 < e.count.toNat then (smPut m n { e with count := e.count - 1 }, some e.start)
    else loopRun ns (smPut m n { e with count := 0 })

/-- The pc after a word: a delay word counts down to the transfer, otherwise the loops are examined. -/
def ApCtx.advance (x : ApCtx) (lim : Nat) : ApCtx :=
  let seq := w64 (x.pc.toNat + 1)
  match x.br with
  | some b =>
    if b.left ≤ 1 then ({ x with br := none, via := true } : ApCtx).goto lim b.target
    else ({ x with br := some { b with left := b.left - 1 }, via := false } : ApCtx).goto lim seq
  | none =>
    match loopRun (loopsAt x.loops x.pc.toNat) x.loops with
    | (m, some st) => ({ x with loops := m, via := false } : ApCtx).goto lim (st.zeroExtend 64)
    | (m, none) => ({ x with loops := m, via := false } : ApCtx).goto lim seq

/-- The address of the word at the pc, or of the first `ext` before it (R32). -/
def ApCtx.unitPc (x : ApCtx) : BitVec 14 := if x.ext = [] then x.pc else x.extAt

/-- The branch pending at the word of a context, as BRPEND shows it (R115): its `ext` words count among those left. -/
def ApCtx.pending (x : ApCtx) : Option Br := x.br.map fun b => { b with left := b.left + x.ext.length }

/-! ### Engine commands (R11-R15) -/

/-- The records of an engine's commands (13_bte.md R247): the ring register, and CHAN. -/
def cmdRing (s : State) (k : Nat) (m : Cmd) : Option (Nat × Nat) :=
  match m.eng with
  | .bte ch => some (wbits m.op.desc (8 * 0x28) 64, ch)
  | .link => ((s.region? (s.core k).rid).bind Region.lring).map fun r => (r, 4)
  | .seed => ((s.region? (s.core k).rid).bind Region.lring).map fun r => (r, 5)
  | .quern => some ((s.quern (clusterOf k)).ring.toNat, 6)
  | _ => none

/-- The 16 bytes of a completion record (R247). -/
def recordBytes (seq cause status chan bytes : Nat) : List Byte :=
  leBytes 8 (seq % 2 ^ 16 + cause % 256 * 2 ^ 16 + status % 256 * 2 ^ 24 + chan % 256 * 2 ^ 32) ++ leBytes 8 bytes

/-- Sets the event bit of a core (R155). -/
def setEv (s : State) (k : Nat) : State := s.setCore k { s.core k with ev := true }

/-- Writes a completion record into a ring in core `k`'s scratchpad and sets EV (R248). -/
def writeRecord (s : State) (k ring seq cause status chan bytes : Nat) : State :=
  setEv (spadStore s k (nbits ring 4 17 * 16 + 16 * (seq % 2 ^ nbits ring 24 4)) (recordBytes seq cause status chan bytes)) k

/-- Replaces an unretired command, found by its number. -/
def Core.putCmd (c : Core) (m : Cmd) : Core := { c with cmds := c.cmds.map fun e => if e.seq = m.seq then m else e }

/-- The command with a number. -/
def Core.cmd? (c : Core) (seq : Nat) : Option Cmd := c.cmds.find? fun e => e.seq == seq

/-- Every AP memory event po-before a command has been performed. -/
def earlierDone (c : Core) (m : Cmd) : Bool :=
  (c.main.rq.all fun e => decide (m.po ≤ e.po)) && (c.main.wq.all fun e => decide (m.po ≤ e.po))

/-- REL holds back what shows that a command is complete: AP events before it have not been performed (R95). -/
def releaseHeld (c : Core) (m : Cmd) : Bool := wbits m.ccw 13 1 == 1 && !earlierDone c m

/-- A command retires: its record, unless NOREC suppresses that of a success, then its number is free (R14, R248). -/
def recordCmd (s : State) (k : Nat) (m : Cmd) (status cause bytes : Nat) : State :=
  let s := match cmdRing s k m with
    | some (ring, chan) =>
      if status = 1 ∧ wbits m.ccw 0 1 = 1 then s else writeRecord s k ring m.seq cause status chan bytes
    | none => s
  let c := s.core k
  setEv (s.setCore k { c with cmds := c.cmds.filter fun e => e.seq != m.seq }) k

/-- A command whose work has ended retires; with REL the record waits until the AP events before the command have been performed
(R14, R95), but for one that was stopped. -/
def retireCmd (s : State) (k : Nat) (m : Cmd) (status cause bytes : Nat) : State :=
  if status ≠ 3 ∧ releaseHeld (s.core k) m then
    s.setCore k ((s.core k).putCmd { m with ended := some (status, cause, bytes), done := some (m.done.getD cause) })
  else recordCmd s k m status cause bytes

/-- The release of a command whose work has ended: it retires once that is complete. -/
def releaseCmd (s : State) (k : Nat) (m : Cmd) : State :=
  match m.ended with
  | some (status, cause, bytes) => retireCmd s k m status cause bytes
  | none => s

/-- A command of a core that names `m` by one of its predecessor distances (R14). -/
def cmdAt (c : Core) (m : Cmd) (d : Nat) : List Cmd := if d = 0 then [] else c.cmds.filter fun e => e.seq + d == m.seq

/-- A command's predecessors have retired, and every earlier one if ALL = 1; with ACQ every earlier AP memory event has
been performed (R14, R95). -/
def cmdReady (c : Core) (m : Cmd) : Bool :=
  (cmdAt c m (wbits m.ccw 24 8)).isEmpty && (cmdAt c m (wbits m.ccw 16 8)).isEmpty
    && (wbits m.ccw 15 1 == 0 || !c.cmds.any fun e => decide (e.seq < m.seq))
    && (wbits m.ccw 14 1 == 0 || earlierDone c m)

/-- A CCW that R13 refuses; with `norec`, ARG[0] is NOREC and ARG[9:1] must be zero, otherwise ARG must be zero. -/
def ccwBad (v : Word) (norec : Bool) : Bool :=
  wbits v 32 32 != 0 || decide (5 ≤ wbits v 10 3) || (if norec then wbits v 1 9 != 0 else wbits v 0 10 != 0)

/-- The earliest core cycle in which an engine accepts a command issued now (R117). -/
def acceptAt (s : State) : Nat := s.cur.cycle + 4

/-- Issues a command of the current core: it takes the next number and waits at its engine (R14). -/
def issueCmd (s : State) (eng : Eng) (ccw : Word) (op : CmdOp) (foot : List Foot) : State :=
  s.modCur fun c => { c with
    cmdSeq := c.cmdSeq + 1
    cmds := c.cmds ++ [{ seq := c.cmdSeq, eng := eng, ccw := ccw, op := op, po := c.main.po, at_ := acceptAt s, foot := foot }] }

/-- Takes a number for a command that retires at once: one guarded off (R14), or one whose word has waited it out. -/
def takeSeq (s : State) : State := s.modCur fun c => { c with cmdSeq := c.cmdSeq + 1 }

/-- Commands of an engine that the core has not retired. -/
def engCount (c : Core) (p : Eng → Bool) : Nat := (c.cmds.filter fun m => p m.eng).length

/-- A word that was an engine command retires as it ends (R14, R155). -/
def retireHere (s : State) : State := setEv (takeSeq s) s.turn.1

/-- The engine takes its commands one after another, and with them every access of one before those of the next (R250). -/
def Eng.serial : Eng → Bool
  | .link => false
  | _ => true

/-- Commands of a core that are ordered before `m` by its CCW or by the order of its engine or channel. -/
def cmdBefore (c : Core) (m : Cmd) : List Nat :=
  (c.cmds.filter fun e => decide (e.seq < m.seq) && (wbits m.ccw 15 1 == 1 || (m.eng.serial && e.eng == m.eng))).map Cmd.seq
    ++ (cmdAt c m (wbits m.ccw 24 8) ++ cmdAt c m (wbits m.ccw 16 8)).map Cmd.seq

/-- The lowest byte that command bytes `foot` share with an unretired command that is not ordered before the new one, of engine
`eng`, where one of them writes (R17). Orders are followed back through the commands that give them. -/
def overlapVa (c : Core) (ccw : Word) (eng : Eng) (foot : List Foot) : Option Word :=
  let start := cmdBefore c { seq := c.cmdSeq, eng := eng, ccw := ccw, op := { op := 0 }, po := 0, at_ := 0 }
  let ordered := c.cmds.reverse.foldl (fun (acc : List Nat) (m : Cmd) =>
    if acc.contains m.seq then acc ++ cmdBefore c m else acc) start
  let others := c.cmds.filter fun m => !ordered.contains m.seq
  let hits := foot.flatMap fun f => (others.flatMap Cmd.foot).filterMap fun g =>
    if (f.wr || g.wr) && decide (f.key < g.key + g.len) && decide (g.key < f.key + f.len) then
      some (max f.key g.key, f.va + w64 (max f.key g.key - f.key))
    else none
  match hits with
  | [] => none
  | h :: t => some (t.foldl (fun a e => if e.1 < a.1 then e else a) h).2

/-! ### The end of a run (R346, R352) -/

/-- Every unretired command of a core is stopped: it retires with STATUS 3 and the cause of the event (13_bte.md R247); a
running Quern sweep does so at its next colour-phase boundary (20_quern.md R318). -/
def abortCmds (s : State) (k cause : Nat) : State :=
  (s.core k).cmds.foldl (fun s m =>
    if m.eng = .quern ∧ m.started ∧ m.op.op = 4 then
      let c := s.core k
      s.setCore k (c.putCmd { m with done := some cause, aborted := true })
    else retireCmd s k m 3 cause m.bytes) s

/-- An attempt ends at a member (14_link.md R269, R270): reductions and gathers retire with 0x78, a waiting barrier
returns 0x78, and the count of collectives starts again. -/
def attemptEnds (s : State) (k : Nat) (att : BitVec 8) : State :=
  let s := (s.core k).cmds.foldl (fun s m =>
    if m.eng = .link ∧ (m.op.op = 4 ∨ m.op.op = 5) ∧ m.done.isNone then retireCmd s k m 2 0x78 m.bytes else s) s
  let c := s.core k
  let pend := match c.pend with
    | some p =>
      match p.kind with
      | .bar _ _ _ => if p.res.isNone then some { p with res := some (.value 0x78) } else some p
      | _ => some p
    | none => none
  s.setCore k { c with lk := { att := att, k := 0 }, pend := pend }

/-- A notice of attempt `a` reaches a member; it advances only a member that holds an older one (R269, R270). -/
def noticeAtt (s : State) (k : Nat) (a : BitVec 8) : State :=
  let d := (a - (s.core k).lk.att).toNat
  if 1 ≤ d ∧ d ≤ 127 then attemptEnds s k a else s

/-- The other members of a core's region, by core. -/
def otherMembers (s : State) (k : Nat) : List Nat := (membersOf s k).filter fun j => j != k

/-- Keeps the statistics slots of a member whose kernel ends, for the merge (03_numbers.md R73). DEDUCED (log entry 61): those of a
copy of a dual run stay with the copy, so that of a dual run which ends with STATUS 2, none being kept, none are merged. -/
def keepStats (s : State) (k : Nat) : State :=
  let c := s.core k
  match s.region? c.rid with
  | none => s
  | some g =>
    match c.copy with
    | some n => s.setRegion c.rid { g with copies := g.copies.modify n fun e => { e with mstats := e.mstats ++ [c.stats] } }
    | none => s.setRegion c.rid { g with mstats := g.mstats ++ [c.stats] }

/-- A member's kernel ends: its slots are kept, and its Quern is to be released. -/
def closeMember (s : State) (k : Nat) : State :=
  let c := s.core k
  let s := s.setCore k { c with run := .stopped, pend := none, pendH := none, hnd := none, hndQ := [], freeze := {} }
  let q := s.quern (clusterOf k)
  keepStats (if q.owner = some k then s.setQuern (clusterOf k) { q with releasing := true } else s) k

/-- A member's kernel stops: its state is captured for the snapshot registers and its commands are aborted (R346, R352). -/
def stopMember (s : State) (k cause strm addr : Nat) : State :=
  let c := s.core k
  let s := closeMember (abortCmds s k cause) k
  s.setCore k { s.core k with snap := snapshot c cause strm addr, snapOf := some (c.rid, c.rank) }

/-- The members of a region that still run or wait. -/
def runningOf (s : State) (rid : Nat) : List Nat :=
  (s.cores.filter fun e => e.2.rid == rid && e.2.run == .running).map fun e => e.1

/-- The cores of a region are given back; a Quern that had been put back for a member which has not started yet is released. -/
def freeCores (s : State) (rid : Nat) : State :=
  let waits (k : Nat) : Bool := (s.core k).rid == rid && (s.core k).run == .starting
  { s with
    querns := s.querns.map fun e => match e.2.owner with
      | some k => if waits k then (e.1, { e.2 with releasing := true }) else e
      | none => e
    cores := s.cores.map fun e => if e.2.rid = rid ∧ e.2.run ≠ .idle then (e.1, { e.2 with run := .idle, idle := s.clock }) else e }

/-- BRPEND with the branch pending at a word (R115): without one, V is 0 and the other fields stay. -/
def Sys.pend (y : Sys) : Option Br → Sys
  | some b => { y with bpV := true, bpLeft := BitVec.ofNat 2 b.left, bpTarget := b.target.setWidth 14 }
  | none => { y with bpV := false }

/-- What a precise fault writes into the system registers (R352): CAUSE and FADDR, EPC for an AP word and for a bundle (R35,
R197, R206), and for an AP word BRPEND, with the branch `bp` pending at it. -/
def faultSys (y : Sys) (strm addr cause : Nat) (faddr : Word) (bp : Option Br) : Sys :=
  let y := { y with
    epc := if strm = 0 ∨ strm = 2 then BitVec.ofNat 14 addr else y.epc
    cause := BitVec.ofNat 8 cause
    faddr := faddr }
  if strm = 0 then y.pend bp else y

/-- The word of a member that its barrier completed with a fault faults in the same cycle as the others (18_weir.md R294,
R308): its registers show it, though another member's rank is reported (R346). -/
def noteHeldFault (s : State) (k : Nat) : State :=
  let c := s.core k
  match c.pend with
  | some { res := some (.fault cause f), .. } => s.setCore k { c with sys := faultSys c.sys 0 c.main.unitPc.toNat cause f c.main.pending }
  | _ => s

/-- One region completes: every member still running stops, with the cause in its abort records, and the
completion record is owed (R333, R337, R346). -/
def endOne (s : State) (rid : Nat) (e : RegionEnd) : State :=
  let s := (runningOf s rid).foldl (fun s k => stopMember (noteHeldFault s k) k e.cause 3 0) s
  let s := freeCores s rid
  match s.region? rid with
  | some g => s.setRegion rid
      { g with st := .done, fin := some e, loop := none, fail := none, mstats := g.mstats ++ suspendedStats g e.status }
  | none => s
where
  /-- the slots of the members that a suspended region has saved: their kernels end with it (03_numbers.md R73). DESIGN CHOICE (log
  entry 61): also where it ends with 0xC1. -/
  suspendedStats (g : Region) (status : Nat) : List Stats :=
    if status = 3 then [] else (g.saved.filter fun c => c.copy.isNone && c.run == .running).map Core.stats

/-- A region ends before or without running: STATUS, CAUSE, FADDR; no rank (R333). -/
def noRank : Nat := 0xFFFFFFFF

/-- The fault domain of a region: FDOM as its checks have found it, or, in the journal, as its RCB and its parent's give it
(R336, R347). -/
def fdomOf (s : State) (g : Region) : Nat :=
  if g.st ≠ .journal then g.rcb.fdom
  else match g.chan.bind fun c => s.region? c.1 with
    | some p => if wbits g.raw (8 * 0x44 + 2) 1 = 1 then wbits g.raw (8 * 0x54) 32 else p.rcb.fdom
    | none => wbits g.raw (8 * 0x54) 32

/-- The regions of a region's fault domain that have not completed (R347). -/
def domainOf (s : State) (rid : Nat) : List Nat :=
  match s.region? rid with
  | none => []
  | some g =>
    if fdomOf s g = 0 then []
    else (s.regions.filter fun p => p.1 != rid && p.2.part == g.part && fdomOf s p.2 == fdomOf s g && p.2.fin.isNone
      && p.2.st != .gone).map fun p => p.1

/-- A region completes; with STATUS 2 it takes its fault domain with it (R347). -/
def endRegion (s : State) (rid : Nat) (e : RegionEnd) : State :=
  let s := endOne s rid e
  if e.status = 2 then (domainOf s rid).foldl (fun s r => endOne s r { status := 2, cause := e.cause, rank := noRank, faddr := 0 }) s
  else s

/-- A run is abandoned and the region returns to READY (R346): nothing of it is merged, no exit code is kept. -/
def restartRegion (s : State) (rid cause : Nat) : State :=
  let s := (runningOf s rid).foldl (fun s k => stopMember (noteHeldFault s k) k cause 3 0) s
  let s := freeCores s rid
  match s.region? rid with
  | some g => s.setRegion rid
      { g with st := .ready, members := [], user := [], mstats := [], copies := [], loop := none, lost := [], waited := 0,
               steps := 0, fail := none }
  | none => s

/-- The causes for which a restartable region runs again (R346). -/
def restartable (cause : Nat) : Bool := [0x07, 0x62, 0x63, 0x7A, 0xB1, 0xB2, 0xB3, 0xB5].contains cause

/-- Of two faults of a region's members in one cycle, the one of the lowest rank (R346); the earlier one, of the same rank. -/
def lowerRank (old : Option RegionEnd) (e : RegionEnd) : RegionEnd :=
  match old with
  | some o => if o.rank ≤ e.rank then o else e
  | none => e

/-- A fault of a member ends its region's run: the region ends or restarts as the cycle ends, when every fault of the cycle is
known (R346). -/
def failRegion (s : State) (rid : Nat) (e : RegionEnd) : State :=
  match s.region? rid with
  | none => s
  | some g => if g.st ≠ .running then s else s.setRegion rid { g with fail := some (lowerRank g.fail e) }

/-- A region whose run a fault has ended restarts, if that is allowed, or ends (R346). -/
def settleRegion (s : State) (rid : Nat) : State :=
  match s.region? rid with
  | none => s
  | some g =>
    match g.fail with
    | none => s
    | some e =>
      if g.st ≠ .running then s
      else if g.rcb.ctl / 4 % 2 = 1 ∧ restartable e.cause ∧ g.runs < 3 then restartRegion s rid e.cause
      else endRegion s rid e

/-- The end of a cycle for the regions in which members have faulted. -/
def settleFaults (s : State) : State := (s.regions.map fun e => e.1).foldl settleRegion s

/-- A Weir loop is broken by the fault of a member whose WST is not IDLE (18_weir.md R308). -/
def breakLoop (s : State) (k : Nat) : State :=
  if (s.core k).wl.wst = 0 then s
  else (membersOf s k).foldl (fun s j =>
    let c := s.core j
    let pend := match c.pend with
      | some p =>
        match p.kind with
        | .wlOpen _ _ _ => some { p with res := some ((p.res).getD (.fault 0x81 (w64 (s.core k).rank))) }
        | .wlRound => some { p with res := some ((p.res).getD (.fault 0x81 (w64 (s.core k).rank))) }
        | .wlClose => some { p with res := some ((p.res).getD (.fault 0x81 (w64 (s.core k).rank))) }
        | _ => some p
      | none => none
    s.setCore j { c with wl := { c.wl with wst := 4, broken := some (s.core k).rank }, pend := pend }) s

/-- Classes become suspect on a core (21_scheduler.md R341). -/
def suspect (s : State) (k : Nat) (classes : List Nat) : State :=
  { s with dev := { s.dev with suspect := s.dev.suspect ++ (classes.filter fun c => !s.dev.suspect.contains (k, c)).map fun c => (k, c) } }

/-- A kernel ends by a precise fault of a word at which the branch `bp` is pending (R352): the system registers are written, the
state is captured with the stream and address of the word, and the region ends or restarts. -/
def endKernelAt (s : State) (k strm addr cause : Nat) (faddr : Word) (bp : Option Br) : State :=
  let c := s.core k
  let s := s.setCore k { c with sys := faultSys c.sys strm addr cause faddr bp }
  let s := breakLoop s k
  let s := stopMember s k cause strm addr
  failRegion s c.rid { status := 2, cause := cause, rank := c.rank, faddr := faddr }

/-- A kernel ends by a precise fault of the word that its stream stands at. -/
def endKernel (s : State) (k strm addr cause : Nat) (faddr : Word) : State :=
  endKernelAt s k strm addr cause faddr (s.core k).main.pending

/-! ### Exceptions (R356-R358) -/

/-- The partition of a core has a handler (R355). -/
def hasHandler (s : State) (k : Nat) : Bool := wbits (s.part (partOfCore s k)).pthl 0 12 != 0

/-- An event is delivered to the handler, or queued behind the delivery in progress (R356). The core freezes; EPC, CAUSE
and FADDR are written and BRPEND is set; the handler starts eight clock cycles later. -/
def deliver (s : State) (k : Nat) (epc : BitVec 14) (cause : Nat) (faddr : Word) (cmd apPo : Option Nat) (bp : Option Br) : State :=
  let c := s.core k
  let d : Deliv := { epc := epc, cause := BitVec.ofNat 8 cause, faddr := faddr, cmd := cmd, apPo := apPo, bp := bp
                     start := s.clock + 8, running := false }
  if c.hnd.isSome || !c.hndQ.isEmpty then s.setCore k { c with hndQ := c.hndQ ++ [d] } else enterHandler s k d
where
  /-- The entry of R356: the core freezes, the registers are written, the state is captured. An engine's walk has no word of
  a stream (R366). -/
  enterHandler (s : State) (k : Nat) (d : Deliv) : State :=
    let c := s.core k
    let sys := ({ c.sys with epc := d.epc, cause := d.cause, faddr := d.faddr } : Sys).pend d.bp
    let cause := if d.cause = 9 then 0 else d.cause.toNat
    let snap := if d.cmd.isSome then snapshot { c with hnd := some d } cause 3 0
      else snapshot { c with hnd := some d } cause 0 d.epc.toNat
    s.setCore k { c with sys := sys, hnd := some d, hsnap := snap }

/-- A stage-2 failure ends the region of a core with status 0x21 or 0x22, and the GPA is logged (04_memory.md R84). The
FADDR of its record is not stated: a free value (log entry 4). -/
def stage2Fail (s : State) (k cause gpa : Nat) : State :=
  let c := s.core k
  let s := { s with dev := { s.dev with s2log := s.dev.s2log ++ [gpa] }, freeCtr := s.freeCtr + 1 }
  failRegion s c.rid { status := 2, cause := cause, rank := c.rank, faddr := Config.freeWord (s.freeCtr - 1) }

/-- The FADDR of a fault: what the cause states, or, where the spec states none, a free value (log entry 4). -/
def faddrOf (s : State) : Option Word → State × Word
  | some w => (s, w)
  | none => ({ s with freeCtr := s.freeCtr + 1 }, Config.freeWord s.freeCtr)

/-- Notes why the stream stalls. -/
def apStall (why : Nat) (s : State) : State := s.modCtx fun x => { x with stall := why }

/-- An AP word of the current core faults, which ends its stall: in the handler the kernel ends with STRM 3 (R357); a `trap` goes to the handler
where there is one (R356); every other fault ends the kernel (R352). -/
def apFault (s : State) (cause : Nat) (faddr : Option Word) : State :=
  let (s, faddr) := faddrOf (apStall 0 s) faddr
  let k := s.turn.1
  let c := s.cur
  if c.inHandler then endKernel s k 3 c.shadow.unitPc.toNat cause faddr
  else if cause = 9 ∧ hasHandler s k then deliver s k c.main.unitPc cause faddr none none c.main.pending
  else endKernel s k 0 c.main.unitPc.toNat cause faddr

/-- The return of R151: the pc becomes EPC; a pending branch transfers at once, or after LEFT words as delay words. A word
that is run again does not take its pops again (R26), nor the cycles of its `ext` words (R358). -/
def returnPc (x : ApCtx) (sys : Sys) : ApCtx :=
  let same := sys.epc == x.unitPc
  let x := { x with br := none, bad := none, ext := [], extBad := false, lead := if same then max x.lead x.ext.length else 0
                    popped := x.popped && same, via := x.via && same }
  if sys.bpV then
    if sys.bpLeft = 0 then { x with pc := sys.bpTarget, lead := 0, popped := false, via := true }
    else { x with pc := sys.epc, br := some ⟨sys.bpLeft.toNat, sys.bpTarget.zeroExtend 64⟩ }
  else { x with pc := sys.epc }

/-- The return of R151 goes back to the word that the main context stands at. -/
def sameWord (x : ApCtx) (y : Sys) : Bool := y.epc == x.unitPc && !(y.bpV && y.bpLeft == 0)

/-- No freeze holds the core any more (R360). -/
def Core.thawed (c : Core) : Bool :=
  c.freeze.late.isNone && c.freeze.ecc.isNone && c.hnd.isNone && c.hndQ.isEmpty

/-- A freeze has ended: where no other holds it, the core runs from clock cycle `t` on. -/
def Core.thaw (c : Core) (t : Nat) : Core :=
  if c.thawed then { c with freeze := { c.freeze with ended := some t } } else c

/-- The handler ends (R358): the main context resumes at EPC under R151, a failed AP access or engine access is walked
again. DEDUCED (log entry 52): after the walk of an AP access, whose word has issued, the main context goes on where it stood, and
EPC and BRPEND, as the handler has left them, do not move it; where they move it after another event, the word that it was held at
is given up. -/
def resumeMain (s : State) (k : Nat) : State :=
  let c := s.core k
  match c.hnd with
  | none => s
  | some d =>
    let main :=
      if d.apPo.isSome then c.main
      else returnPc c.main c.sys
    let cmds := match d.cmd with
      | some q => c.cmds.map fun m => if m.seq = q then { m with walk := false } else m
      | none => c.cmds
    let pend := if d.apPo.isSome || sameWord c.main c.sys then c.pend else none
    s.setCore k (({ c with
      main := main, pend := pend, cmds := cmds, hnd := none, since := s.clock + 1, sys := { c.sys with bpV := false }
      shadow := { c.shadow with br := none, bad := none, ext := [], extBad := false } } : Core).thaw (s.clock + 1))

/-- The handler declines (R358): for an AP event the kernel ends with the CAUSE and FADDR it was entered with; an engine
command retires with 0x21 and the core resumes. -/
def declineEvent (s : State) (k : Nat) : State :=
  let c := s.core k
  match c.hnd with
  | none => s
  | some d =>
    match d.cmd with
    | none => endKernelAt (s.setCore k { c with hnd := none }) k 0 d.epc.toNat d.cause.toNat d.faddr d.bp
    | some q =>
      let s := resumeMain s k
      match (s.core k).cmd? q with
      | some m =>
        if m.eng = .link ∧ (m.op.op = 4 ∨ m.op.op = 5) then endCollective s k m 0x21 else retireCmd s k m 2 0x21 m.bytes
      | none => s
where
  /-- A fault of one member's part of a reduction or gather ends it at every member (14_link.md R265). -/
  endCollective (s : State) (k : Nat) (m : Cmd) (cause : Nat) : State :=
    (membersOf s k).foldl (fun s j =>
      ((s.core j).cmds.filter fun e => e.eng == .link && e.op.op == m.op.op && e.att == m.att && e.k == m.k).foldl
        (fun s e => retireCmd s j e 2 cause e.bytes) s) s

/-! ### AP words -/

/-- How the effect of a word ends. -/
inductive Res where
  /-- the word is done; the pc advances. -/
  | done (s : State)
  /-- the word is done and has set the pc itself. -/
  | jump (s : State)
  /-- the word has left its context: nothing more is done for it. -/
  | leave (s : State)
  /-- the word stalls: the cause in the order of R103, 0 for the waits of other rules. -/
  | stall (why : Nat) (s : State)
  /-- the word faults; FADDR where the cause states one. -/
  | trap (cause : Nat) (faddr : Option Word)
  deriving DecidableEq, Repr

/-- What a card says of an AP word besides its effect: its capability class (R37), whether its encoded fields break the
card (0x02), whether `ext` may extend it (R30), and what it sends out of the AP. -/
structure ApSpec where
  cls : Nat
  bad : Bool := false
  extOk : Bool := false
  /-- a memory event, held by unretired fences (R142). -/
  mem : Bool := false
  /-- an engine command: takes a sequence number (R14). -/
  cmd : Bool := false
  /-- not permitted in the handler (R357). -/
  mainOnly : Bool := false
  /-- its pushes are made elsewhere: a fence's at its retirement (R97). -/
  noPush : Bool := false
  /-- a command whose engine has accepted it by the time its word is done. -/
  accepted : Bool := false
  /-- neither, and yet the AP sends something out: a claim, a release, an invalidation, a notice (R117). -/
  sends : Bool := false
  deriving DecidableEq, Repr

/-- The checks made when an AP word is decoded, in the order of R26, then the capability checks of R19 or, in the handler,
those of R357. -/
def apDecodeFault (h : Hdr) (sp : ApSpec) (c : Core) : Option Nat :=
  if 2 ≤ h.vs.toNat then some 0x03
  else if c.ctx.ext ≠ [] ∧ (sp.extOk = false ∨ c.ctx.extBad) then some 0x04
  else if sp.bad then some 0x02
  else if c.inHandler then
    if h.wp || h.wn || h.sp || h.sn || h.vs != 0 || sp.cmd || sp.mainOnly || decide (4 ≤ sp.cls) then some 0x08
    else if c.sys.ccm.getLsbD sp.cls then none else some 0x07
  else if !c.sys.oum.getLsbD sp.cls then some 0x06
  else if !c.sys.ccm.getLsbD sp.cls then some 0x07
  else none

/-- A word is finished: its pushes are made, `ext` words are used up, program order advances (R24). A command's pushes are
made when its engine accepts it, four cycles after issue at the earliest (R117). -/
def apFinish (h : Hdr) (sp : ApSpec) (s : State) : State :=
  let s := s.modCtx fun x => { x with popped := false, lead := 0, ext := [], extBad := false, po := x.po + 1, stall := 0 }
  s.modCur fun c =>
    if sp.noPush then c
    else if sp.cmd && !sp.accepted then
      { c with pushLater := c.pushLater ++ ((hdrPushes .ap h).filter fun e => e.2 != 0).map fun e => (c.cycle + 4, .ap, e.1, e.2) }
    else askPushes c .ap (hdrPushes .ap h)

/-- The pc of the current core's context advances. -/
def apAdvance (s : State) : State := s.modCtx fun x => x.advance s.cur.apWords

/-- Why a word waits before its effect: a held push, tokens, an unretired fence, or the 256th command (R7, R15, R142). -/
def apWait (h : Hdr) (sp : ApSpec) (on : Bool) (c : Core) : Option Nat :=
  if c.inHandler = false ∧ pushHeld c .ap then some 2
  else if c.ctx.popped = false ∧ popsReady c (hdrPops .ap h) = false then some 1
  else if on ∧ (sp.mem || sp.cmd) ∧ c.ctx.fences ≠ [] then some 0
  else if on ∧ sp.cmd ∧ 255 ≤ c.cmds.length then some 7
  else none

/-- The pops of a word that has not taken them yet (R26). -/
def apPops (h : Hdr) (s : State) : State :=
  if s.cur.ctx.popped then s
  else (s.modCur fun c => takePops c (hdrPops .ap h)).modCtx fun x => { x with popped := true }

/-- Pops and takes a sequence number where the word is a guarded-off command, then finishes (R25, R27). -/
def apOff (h : Hdr) (sp : ApSpec) (s : State) : State :=
  apAdvance (apFinish h { cls := sp.cls } (if sp.cmd then takeSeq s else s))

/-- A word that is held at a barrier, a victim or a system operation (R103): first it asks, then it waits for the answer,
which is a value for `fin` or a fault. -/
def heldWord (ask : State → Res) (fin : Word → State → Res) (s : State) : Res :=
  match s.cur.held with
  | none => ask s
  | some p =>
    match p.res with
    | none => .stall 0 s
    | some (.value v) => fin v (s.modCur fun c => c.setHeld none)
    | some (.fault c f) => .trap c (some f)

/-- A word that has issued and waits, which is no stall of R103: it has read its guard, and what `k` holds, for good (R25, R118). -/
def waitAt (k : PendKind) (s : State) : Res :=
  .stall 0 (if s.cur.held.isSome then s else s.modCur fun c => c.setHeld (some { kind := k, from_ := apTime s }))

/-- The word that the context was held at goes on. -/
def unheld (s : State) : State := s.modCur fun c => c.setHeld none

/-- A word that waits until something holds. -/
def waitFor (b : Bool) (s : State) : Res := if b then .done (unheld s) else waitAt .wait s

/-- Holds the current word. -/
def holdAt (k : PendKind) (s : State) : Res :=
  .stall 0 (s.modCur fun c => c.setHeld (some { kind := k, from_ := apTime s + 4 }))

/-- A word that the main context is held at has no answer yet and has left the AP: its engine can act on it (R117). -/
def Core.asks (c : Core) : Option PendKind :=
  match c.pend with
  | some p => if p.res.isNone && decide (p.from_ ≤ c.cycle) then some p.kind else none
  | none => none

/-- The classes that a mismatch of the checker makes suspect: the AP's (R117) and that of the word (21_scheduler.md R341). DEDUCED
(log entry 64). -/
def mismatchClasses (cls : Nat) : List Nat := [0, 1, 2, 3] ++ if cls < 4 then [] else [cls]

/-- What an AP word does (R22-R27): the checks at decode, its waits, its pops, its guard, its own effect, its pushes and the
pc. `off` is what a guarded-off word of this kind does besides. A word that is held has read its guard when it issued (R118). -/
def apWord (h : Hdr) (sp : ApSpec) (body : State → Res) (s : State) (off : State → State := id) : State :=
  match apDecodeFault h sp s.cur with
  | some c => apFault s c none
  | none =>
    let on := pr s h.g || s.cur.held.isSome
    match apWait h sp on s.cur with
    | some w => apStall w (if w = 1 ∨ w = 2 then s else apPops h s)
    | none =>
      let s := apPops h s
      if !on then apOff h sp (off s)
      else if (sp.mem || sp.cmd || sp.sends) && s.cur.chkBad then suspect (apFault s 0xB2 none) s.turn.1 (mismatchClasses sp.cls)
      else match body s with
        | .done t => apAdvance (apFinish h sp t)
        | .jump t => apFinish h sp t
        | .leave t => t
        | .stall w t => apStall w t
        | .trap c f => apFault s c f

end Sys2Proof.Machine
end

