-- ==== Sys2Proof/Machine/Operands.lean ====
section
/-!
DEFINITION. Operand forms: assembled immediates (02_encoding.md R28-R30), field descriptors (06_ap_instr.md R123), and the
value operations that several cards share.
-/

namespace Sys2Proof.Machine

/-- The bits that the `ext` words before the current word supply, above the word's own field (R30). -/
def extBits (s : State) : Nat := s.cur.ctx.ext.foldl (fun a e => a * 65536 + e.toNat) 0

/-- The assembled immediate of an n-bit field, unsigned (R30). -/
def immU {n : Nat} (s : State) (i : BitVec n) : Nat := extBits s * 2 ^ n + i.toNat

/-- The assembled immediate, sign-extended from its top assembled bit (R30). -/
def immS {n : Nat} (s : State) (i : BitVec n) : Int := sint (n + 16 * s.cur.ctx.ext.length) (immU s i)

/-- The assembled immediate as a 64-bit operand. -/
def immW {n : Nat} (s : State) (i : BitVec n) : Word := wordOfInt (immS s i)

/-- The low `n` bits of a word, zero-extended; all of it for n = 64 (R122). -/
def zextN (v : Word) (n : Nat) : Word := w64 (v.toNat % 2 ^ n)

/-- The low `n` bits of a word, sign-extended (R122). -/
def sextN (v : Word) (n : Nat) : Word := wordOfInt (sint n v.toNat)

/-- POS of a field descriptor (R123). -/
def bfPos (v : Word) : Nat := wbits v 0 6
/-- LEN of a field descriptor. -/
def bfLen (v : Word) : Nat := wbits v 8 6 + 1

/-- The field that `bfx` extracts. -/
def bfField (a v : Word) : Nat := a.toNat / 2 ^ bfPos v % 2 ^ bfLen v

/-- The result of `bfi`: x[D] with the field replaced (R123). -/
def bfInsert (d a v : Word) : Word :=
  let mask := w64 ((2 ^ bfLen v - 1) * 2 ^ bfPos v)
  (d &&& ~~~mask) ||| ((a <<< bfPos v) &&& mask)

/-- High half of the signed product (R121). -/
def mulHi (a b : Word) : Word := wordOfInt (Int.fdiv (a.toInt * b.toInt) (2 ^ 64))

/-- High half of the unsigned product. -/
def mulHiU (a b : Word) : Word := w64 (a.toNat * b.toNat / 2 ^ 64)

/-- Unsigned quotient; all ones where the divisor is 0 (R121). -/
def divU (a b : Word) : Word := if b = 0 then ~~~0 else w64 (a.toNat / b.toNat)

/-- Unsigned remainder; the dividend where the divisor is 0. -/
def remU (a b : Word) : Word := if b = 0 then a else w64 (a.toNat % b.toNat)

def minS (a b : Word) : Word := if a.toInt ≤ b.toInt then a else b
def maxS (a b : Word) : Word := if a.toInt ≤ b.toInt then b else a
def minU (a b : Word) : Word := if a.toNat ≤ b.toNat then a else b
def maxU (a b : Word) : Word := if a.toNat ≤ b.toNat then b else a

/-- The predicate file as a number, bit k = p[k] (R128). -/
def pfBits (s : State) : Nat := chunks 1 (fun k => if pr s (BitVec.ofNat 3 k) then 1 else 0) 8

/-- The effective address of a load or store: x[A] + x[B] (R135). -/
def effAddr (s : State) (a b : BitVec 5) : Word := xr s a + xr s b

end Sys2Proof.Machine
end

