-- ==== Sys2Proof/Machine/Flags.lean ====
section
/-!
DEFINITION. Predicate computations: the conditions of compares (06_ap_instr.md R125, R126, 08_vxe_instr.md R181, R183)
and the functions of two predicates (R127, R196).
-/

namespace Sys2Proof.Machine

/-- Condition c of `cmp` (R125); 6 and 7 are reserved. -/
def cmpCond (c : Nat) (a b : Word) : Bool :=
  match c with
  | 0 => a == b
  | 1 => a != b
  | 2 => decide (a.toInt < b.toInt)
  | 3 => decide (b.toInt ≤ a.toInt)
  | 4 => decide (a.toNat < b.toNat)
  | 5 => decide (b.toNat ≤ a.toNat)
  | _ => false

/-- Function c of two predicates (R127). -/
def predFn (c : Nat) (a b : Bool) : Bool :=
  match c with
  | 0 => a && b
  | 1 => a || b
  | 2 => a != b
  | 3 => a && !b
  | 4 => !(a && b)
  | 5 => !(a || b)
  | 6 => !(a != b)
  | _ => a || !b

/-- Function c of two lane masks, bit by bit (R196). -/
def maskFn (c : Nat) (a b : BitVec 96) : BitVec 96 :=
  match c with
  | 0 => a &&& b
  | 1 => a ||| b
  | 2 => a ^^^ b
  | 3 => a &&& ~~~b
  | 4 => ~~~(a &&& b)
  | 5 => ~~~(a ||| b)
  | 6 => ~~~(a ^^^ b)
  | _ => a ||| ~~~b

/-- Condition c of an integer lane compare (R183): the same codes as `cmp`, on n-bit values. -/
def laneCond (c : Nat) (n a b : Nat) : Bool :=
  match c with
  | 0 => a == b
  | 1 => a != b
  | 2 => decide (sint n a < sint n b)
  | 3 => decide (sint n b ≤ sint n a)
  | 4 => decide (a < b)
  | 5 => decide (b ≤ a)
  | _ => false

end Sys2Proof.Machine
end

