-- ==== Sys2Proof/Machine/ApAlu.lean ====
section
/-!
DEFINITION. The AP's integer, immediate, compare and predicate words (06_ap_instr.md R120-R128, R134).
-/

namespace Sys2Proof.Machine

/-- Class AP.ALU (R18). -/
def clAlu : Nat := 0
/-- Class AP.MUL. -/
def clMul : Nat := 1

/-- A word that writes x[D] with a latency, and does nothing else (R104, R118). -/
def apValue (h : Hdr) (sp : ApSpec) (lat : Nat) (d : BitVec 5) (f : State → Word) (s : State) : State :=
  apWord h sp (fun t => .done (setX t lat d (f t))) s

/-- A word that writes p[D] with latency 1. -/
def apPred (h : Hdr) (sp : ApSpec) (d : BitVec 3) (f : State → Bool) (s : State) : State :=
  apWord h sp (fun t => .done (setP t 1 d (f t))) s

/-- `nop` (R134). -/
def execNop (h : Hdr) (s : State) : Out := .next (apWord h { cls := clAlu } (fun t => .done t) s)

/-- `add` (R120). -/
def execAdd (h : Hdr) (d a b : BitVec 5) (s : State) : Out :=
  .next (apValue h { cls := clAlu } 1 d (fun t => xr t a + xr t b) s)

/-- `sub` (R120). -/
def execSub (h : Hdr) (d a b : BitVec 5) (s : State) : Out :=
  .next (apValue h { cls := clAlu } 1 d (fun t => xr t a - xr t b) s)

/-- `and` (R120). -/
def execAnd (h : Hdr) (d a b : BitVec 5) (s : State) : Out :=
  .next (apValue h { cls := clAlu } 1 d (fun t => xr t a &&& xr t b) s)

/-- `or` (R120). -/
def execOr (h : Hdr) (d a b : BitVec 5) (s : State) : Out :=
  .next (apValue h { cls := clAlu } 1 d (fun t => xr t a ||| xr t b) s)

/-- `xor` (R120). -/
def execXor (h : Hdr) (d a b : BitVec 5) (s : State) : Out :=
  .next (apValue h { cls := clAlu } 1 d (fun t => xr t a ^^^ xr t b) s)

/-- `andn` (R120). -/
def execAndn (h : Hdr) (d a b : BitVec 5) (s : State) : Out :=
  .next (apValue h { cls := clAlu } 1 d (fun t => xr t a &&& ~~~(xr t b)) s)

/-- `shl` (R120). -/
def execShl (h : Hdr) (d a b : BitVec 5) (s : State) : Out :=
  .next (apValue h { cls := clAlu } 1 d (fun t => xr t a <<< wbits (xr t b) 0 6) s)

/-- `shr` (R120). -/
def execShr (h : Hdr) (d a b : BitVec 5) (s : State) : Out :=
  .next (apValue h { cls := clAlu } 1 d (fun t => xr t a >>> wbits (xr t b) 0 6) s)

/-- `sra` (R120). -/
def execSra (h : Hdr) (d a b : BitVec 5) (s : State) : Out :=
  .next (apValue h { cls := clAlu } 1 d (fun t => (xr t a).sshiftRight (wbits (xr t b) 0 6)) s)

/-- `rotl` (R120). -/
def execRotl (h : Hdr) (d a b : BitVec 5) (s : State) : Out :=
  .next (apValue h { cls := clAlu } 1 d (fun t => (xr t a).rotateLeft (wbits (xr t b) 0 6)) s)

/-- `min` (R120). -/
def execMin (h : Hdr) (d a b : BitVec 5) (s : State) : Out :=
  .next (apValue h { cls := clAlu } 1 d (fun t => minS (xr t a) (xr t b)) s)

/-- `max` (R120). -/
def execMax (h : Hdr) (d a b : BitVec 5) (s : State) : Out :=
  .next (apValue h { cls := clAlu } 1 d (fun t => maxS (xr t a) (xr t b)) s)

/-- `minu` (R120). -/
def execMinu (h : Hdr) (d a b : BitVec 5) (s : State) : Out :=
  .next (apValue h { cls := clAlu } 1 d (fun t => minU (xr t a) (xr t b)) s)

/-- `maxu` (R120). -/
def execMaxu (h : Hdr) (d a b : BitVec 5) (s : State) : Out :=
  .next (apValue h { cls := clAlu } 1 d (fun t => maxU (xr t a) (xr t b)) s)

/-- `mul` (R121). -/
def execMul (h : Hdr) (d a b : BitVec 5) (s : State) : Out :=
  .next (apValue h { cls := clMul } 3 d (fun t => xr t a * xr t b) s)

/-- `mulh` (R121). -/
def execMulh (h : Hdr) (d a b : BitVec 5) (s : State) : Out :=
  .next (apValue h { cls := clMul } 3 d (fun t => mulHi (xr t a) (xr t b)) s)

/-- `mulhu` (R121). -/
def execMulhu (h : Hdr) (d a b : BitVec 5) (s : State) : Out :=
  .next (apValue h { cls := clMul } 3 d (fun t => mulHiU (xr t a) (xr t b)) s)

/-- `divu` (R121). -/
def execDivu (h : Hdr) (d a b : BitVec 5) (s : State) : Out :=
  .next (apValue h { cls := clMul } 12 d (fun t => divU (xr t a) (xr t b)) s)

/-- `remu` (R121). -/
def execRemu (h : Hdr) (d a b : BitVec 5) (s : State) : Out :=
  .next (apValue h { cls := clMul } 12 d (fun t => remU (xr t a) (xr t b)) s)

/-- `clz` (R122). -/
def execClz (h : Hdr) (d a : BitVec 5) (s : State) : Out :=
  .next (apValue h { cls := clAlu } 1 d (fun t => w64 (clzNat 64 (xr t a).toNat)) s)

/-- `popc` (R122). -/
def execPopc (h : Hdr) (d a : BitVec 5) (s : State) : Out :=
  .next (apValue h { cls := clAlu } 1 d (fun t => w64 (popcount 64 (xr t a).toNat)) s)

/-- `lea` (R122). -/
def execLea (h : Hdr) (d a b : BitVec 5) (s : State) : Out :=
  .next (apValue h { cls := clAlu } 1 d (fun t => xr t a + xr t b) s)

/-- `leaD` (R122, X = 1). -/
def execLeaD (h : Hdr) (d a b : BitVec 5) (s : State) : Out :=
  .next (apValue h { cls := clAlu } 1 d (fun t => xr t a + 8 * xr t b) s)

/-- `sext` (R122; the field holds n - 1). -/
def execSext (h : Hdr) (d a : BitVec 5) (n : BitVec 6) (s : State) : Out :=
  .next (apValue h { cls := clAlu } 1 d (fun t => sextN (xr t a) (n.toNat + 1)) s)

/-- `zext` (R122; the field holds n - 1). -/
def execZext (h : Hdr) (d a : BitVec 5) (n : BitVec 6) (s : State) : Out :=
  .next (apValue h { cls := clAlu } 1 d (fun t => zextN (xr t a) (n.toNat + 1)) s)

/-- `bfx` (R123). -/
def execBfx (h : Hdr) (d a b : BitVec 5) (s : State) : Out :=
  .next (apValue h { cls := clAlu } 1 d (fun t => w64 (bfField (xr t a) (xr t b))) s)

/-- `bfxS` (R123, X = 1). -/
def execBfxS (h : Hdr) (d a b : BitVec 5) (s : State) : Out :=
  .next (apValue h { cls := clAlu } 1 d (fun t => sextN (w64 (bfField (xr t a) (xr t b))) (bfLen (xr t b))) s)

/-- `bfi` (R123). -/
def execBfi (h : Hdr) (d a b : BitVec 5) (s : State) : Out :=
  .next (apValue h { cls := clAlu } 1 d (fun t => bfInsert (xr t d) (xr t a) (xr t b)) s)

/-- `addi` (R124). -/
def execAddi (h : Hdr) (d a : BitVec 5) (i : BitVec 6) (s : State) : Out :=
  .next (apValue h { cls := clAlu, extOk := true } 1 d (fun t => xr t a + immW t i) s)

/-- `andi` (R124). -/
def execAndi (h : Hdr) (d a : BitVec 5) (i : BitVec 6) (s : State) : Out :=
  .next (apValue h { cls := clAlu, extOk := true } 1 d (fun t => xr t a &&& immW t i) s)

/-- `ori` (R124). -/
def execOri (h : Hdr) (d a : BitVec 5) (i : BitVec 6) (s : State) : Out :=
  .next (apValue h { cls := clAlu, extOk := true } 1 d (fun t => xr t a ||| immW t i) s)

/-- `xori` (R124). -/
def execXori (h : Hdr) (d a : BitVec 5) (i : BitVec 6) (s : State) : Out :=
  .next (apValue h { cls := clAlu, extOk := true } 1 d (fun t => xr t a ^^^ immW t i) s)

/-- `shli` (R124). -/
def execShli (h : Hdr) (d a : BitVec 5) (i : BitVec 6) (s : State) : Out :=
  .next (apValue h { cls := clAlu, extOk := true, bad := decide (63 < immU s i) } 1 d (fun t => xr t a <<< immU t i) s)

/-- `shri` (R124). -/
def execShri (h : Hdr) (d a : BitVec 5) (i : BitVec 6) (s : State) : Out :=
  .next (apValue h { cls := clAlu, extOk := true, bad := decide (63 < immU s i) } 1 d (fun t => xr t a >>> immU t i) s)

/-- `srai` (R124). -/
def execSrai (h : Hdr) (d a : BitVec 5) (i : BitVec 6) (s : State) : Out :=
  .next (apValue h { cls := clAlu, extOk := true, bad := decide (63 < immU s i) } 1 d (fun t => (xr t a).sshiftRight (immU t i)) s)

/-- `movi` (R124). -/
def execMovi (h : Hdr) (d : BitVec 5) (i : BitVec 11) (s : State) : Out :=
  .next (apValue h { cls := clAlu, extOk := true } 1 d (fun t => immW t i) s)

/-- `cmp` (R125): conditions 6 and 7 are reserved. -/
def execCmp (h : Hdr) (c p : BitVec 3) (a b : BitVec 5) (s : State) : Out :=
  .next (apPred h { cls := clAlu, bad := decide (6 ≤ c.toNat) } p (fun t => cmpCond c.toNat (xr t a) (xr t b)) s)

/-- `cmpi` (R126). -/
def execCmpi (h : Hdr) (c : BitVec 2) (p : BitVec 3) (a : BitVec 5) (i : BitVec 6) (s : State) : Out :=
  .next (apPred h { cls := clAlu, extOk := true } p (fun t => cmpCond c.toNat (xr t a) (immW t i)) s)

/-- `plog` (R127). -/
def execPlog (h : Hdr) (c p a b : BitVec 3) (s : State) : Out :=
  .next (apPred h { cls := clAlu } p (fun t => predFn c.toNat (pr t a) (pr t b)) s)

/-- `pmov xD, pf` (R128). -/
def execPmovToX (h : Hdr) (d : BitVec 5) (s : State) : Out :=
  .next (apValue h { cls := clAlu } 1 d (fun t => w64 (pfBits t)) s)

/-- `pmov pf, xA` (R128). -/
def execPmovToPf (h : Hdr) (a : BitVec 5) (s : State) : Out :=
  .next (apWord h { cls := clAlu } (fun t => .done (result t 1 .pf (xr t a))) s)

end Sys2Proof.Machine
end

