-- ==== Sys2Proof/Machine/ApControl.lean ====
section
/-!
DEFINITION. The AP's branches, loops and system words, and `ext` (05_ap_model.md R114-R116, 06_ap_instr.md R129-R133,
R150-R154, 02_encoding.md R30-R32), with the system registers (R102).
-/

namespace Sys2Proof.Machine

/-- `bprep` (R129). -/
def execBprep (h : Hdr) (n : BitVec 2) (i : BitVec 14) (s : State) : Out :=
  .next (apWord h { cls := clAlu, extOk := true }
    (fun t => .done (result t 1 (.b n.toNat) (t.cur.ctx.pc.zeroExtend 64 + immW t i))) s)

/-- `bset` (R130). -/
def execBset (h : Hdr) (n : BitVec 2) (a : BitVec 5) (s : State) : Out :=
  .next (apWord h { cls := clAlu } (fun t => .done (result t 1 (.b n.toNat) (xr t a))) s)

/-- The effect of a taken `bxfer` (R114, R131): the link, BRREC, and the transfer after its delay words, the target no
earlier than three cycles later. -/
def takeBranch (n d : BitVec 2) (l : BitVec 5) (t : State) : State :=
  let pc := t.cur.ctx.pc
  let target := br t n
  let t := setX t 1 l (pc.zeroExtend 64 + 1 + d.zeroExtend 64)
  let t := t.modCur fun c => { c with sys := { c.sys with brrec := pc } }
  let lim := t.cur.apWords
  t.modCtx fun x =>
    let x := { x with hold := apTime t + 3, via := d == 0 }
    if d = 0 then x.goto lim target
    else ({ x with br := some ⟨d.toNat, target⟩ } : ApCtx).goto lim (pc.zeroExtend 64 + 1)

/-- `bxfer` (R131). -/
def execBxfer (h : Hdr) (n d : BitVec 2) (l : BitVec 5) (s : State) : Out :=
  .next (apWord h { cls := clAlu }
    (fun t => if t.cur.ctx.br.isSome then .trap 0x0A none else .jump (takeBranch n d l t)) s)

/-- A loop that would nest wrongly (R116): its register has COUNT 2 or more, or its body starts inside the body of an active loop,
its own register's among them, and ends after that loop's END. -/
def nestBad (m : SMap Loop) (n first last : Nat) : Bool :=
  decide (2 ≤ (smGet ⟨0, 0, 0⟩ m n).count.toNat)
    || ([0, 1, 2, 3].any fun k =>
      let e := smGet ⟨0, 0, 0⟩ m k
      e.count != 0 && decide (e.start.toNat ≤ first) && decide (first ≤ e.stop.toNat) && decide (e.stop.toNat < last))

/-- The pc after an `lset` with COUNT 0, which skips its body; at the END of an outer loop that loop is examined first, as at any
word there (R116). DEDUCED (log entry 17): where it branches back, the skip is given up. -/
def ApCtx.skipTo (x : ApCtx) (lim : Nat) (t : Word) : ApCtx :=
  match loopRun (loopsAt x.loops x.pc.toNat) x.loops with
  | (m, some st) => ({ x with loops := m, via := false } : ApCtx).goto lim (st.zeroExtend 64)
  | (m, none) => ({ x with loops := m, via := false } : ApCtx).goto lim t

/-- `lset` (R132, R116). DESIGN CHOICE (log entry 56): of its faults at execution, 0x0A comes first, then 0x02, then 0x0B. -/
def execLset (h : Hdr) (n : BitVec 2) (a : BitVec 5) (i : BitVec 6) (s : State) : Out :=
  .next (apWord h { cls := clAlu, extOk := true, bad := decide (immU s i = 0) } (fun t =>
    let x := t.cur.ctx
    let pc := x.pc.toNat
    let last := pc + immU t i
    if x.br.isSome then .trap 0x0A none
    else if 0xFFFFFFFF < (xr t a).toNat ∨ 16383 < last then .trap 0x02 none
    else if nestBad x.loops n.toNat (pc + 1) last then .trap 0x0B none
    else
      let count := (xr t a).setWidth 32
      let set := t.modCtx fun x =>
        { x with loops := smSet ⟨0, 0, 0⟩ x.loops n.toNat ⟨count, BitVec.ofNat 14 (pc + 1), BitVec.ofNat 14 last⟩ }
      if count = 0 then .jump (set.modCtx fun x => x.skipTo t.cur.apWords (w64 (last + 1)))
      else .done set) s)

/-- `lbrk` (R133). -/
def execLbrk (h : Hdr) (n : BitVec 2) (s : State) : Out :=
  .next (apWord h { cls := clAlu } (fun t =>
    if t.cur.ctx.br.isSome then .trap 0x0A none
    else .done (t.modCtx fun x =>
      let e := smGet ⟨0, 0, 0⟩ x.loops n.toNat
      { x with loops := smSet ⟨0, 0, 0⟩ x.loops n.toNat { e with count := if e.count = 0 then 0 else 1 } })) s)

/-- An `ext` word of the current core (R30-R32, R116): its bits wait for the next word, with which it issues as one unit.
A use that is wrong by itself (`bad`: bits 31:23 set; a sequence split by a taken branch) is reported by the next word. Its
capability checks come after those of its use (R26): they are those of the word it extends, which has the same class (R30, R37);
an `ext` at the END of a loop extends none. -/
def extWord (bad : Bool) (i : BitVec 16) (s : State) : State :=
  let c := s.cur
  let x := c.ctx
  if 2 ≤ x.ext.length ∨ x.extBad then apFault s 0x04 none
  else if x.br.isNone ∧ loopsAt x.loops x.pc.toNat ≠ [] then
    apFault s (if bad then 0x04 else if c.inHandler = false ∧ c.sys.oum.getLsbD clAlu = false then 0x06
      else if c.sys.ccm.getLsbD clAlu = false then 0x07 else 0x0B) none
  else
    let split := match x.br with
      | some b => decide (b.left ≤ 1)
      | none => false
    s.modCtx fun x =>
      ({ x with ext := x.ext ++ [i], extAt := x.unitPc, extBad := bad || split } : ApCtx).advance c.apWords

/-- `ext` (R30-R32). -/
def execExt (i : BitVec 16) (s : State) : Out := .next (extWord false i s)

/-- The last word of the handler is done. -/
def handlerDone (t : State) : State :=
  t.modCtx fun x => { x with popped := false, lead := 0, ext := [], extBad := false, po := x.po + 1, stall := 0 }

/-- Memory events of the running context are still to be performed. -/
def eventsLeft (x : ApCtx) : Bool := !x.rq.isEmpty || !x.wq.isEmpty

/-- The delivery in progress is of an engine's walk. -/
def Core.engineEvent (c : Core) : Bool :=
  match c.hnd with
  | some d => d.cmd.isSome
  | none => false

/-- `trap` (R150); in the handler it declines (R358). Where the core then goes on, it waits as an `eret` does (R359). -/
def execTrap (h : Hdr) (i : BitVec 6) (s : State) : Out :=
  .next (apWord h { cls := clAlu, extOk := true } (fun t =>
    if !t.cur.inHandler then .trap 0x09 (some (w64 (immU t i)))
    else if t.cur.engineEvent && eventsLeft t.cur.ctx then .stall 0 t
    else .leave (declineEvent (handlerDone t) t.turn.1)) s)

/-- `eret` (R151, R358): it waits until every memory event of the handler has been performed. -/
def execEret (h : Hdr) (s : State) : Out :=
  .next (apWord h { cls := clAlu } (fun t =>
    let x := t.cur.ctx
    if x.br.isSome then .trap 0x0A none
    else if !t.cur.inHandler then .trap 0x08 none
    else if eventsLeft x then .stall 0 t
    else .leave (resumeMain (handlerDone t) t.turn.1)) s)

/-- The numbers of R102. -/
def sysListed (n : Nat) : Bool :=
  decide (n ≤ 5) || n == 8 || n == 9 || n == 0x10 || n == 0x11 || n == 0x18 || n == 0x20 || n == 0x40
    || (decide (0x100 ≤ n) && decide (n ≤ 0x1FF))

/-- BRPEND as a word. -/
def brpendWord (y : Sys) : Word :=
  w64 (y.bpTarget.toNat + (if y.bpV then 2 ^ 16 else 0) + y.bpLeft.toNat * 2 ^ 17)

/-- CORE_ID of a core: die, cluster within the die, core within the cluster (R102). -/
def coreId (k : Nat) : Word := w64 (k % 32 + clusterOf k % 8 * 2 ^ 5 + dieOf k % 4 * 2 ^ 8)

/-- The value that `sysr` reads (R102, R152). -/
def sysValue (s : State) (n : Nat) : Word :=
  let y := s.cur.sys
  match n with
  | 0x000 => w64 ((if y.det then 1 else 0) + (if y.raw then 2 else 0) + (if y.priv then 8 else 0))
  | 0x001 => y.epc.zeroExtend 64
  | 0x002 => y.cause.zeroExtend 64
  | 0x003 => y.faddr
  | 0x004 => y.brrec.zeroExtend 64
  | 0x005 => brpendWord y
  | 0x008 => y.oum.zeroExtend 64
  | 0x009 => y.ccm.zeroExtend 64
  | 0x010 => w64 s.clock
  | 0x011 => coreId s.turn.1
  | 0x018 => y.zrows.zeroExtend 64
  | 0x020 => w64 ((if y.injArm then 1 else 0) + y.injKind.toNat * 2 + y.injAddr.toNat * 8)
  | _ => if 0x100 ≤ n then smGet 0 s.cur.hsnap n else 0

/-- `sysr` (R152): the deterministic trap, then PRIV, then the debug lock. -/
def execSysr (h : Hdr) (d : BitVec 5) (i : BitVec 11) (s : State) : Out :=
  .next (apWord h { cls := clAlu, extOk := true, bad := !sysListed (immU s i) } (fun t =>
    let n := immU t i
    if t.cur.sys.det && (n == 0x10 || n == 0x11 || n == 0x101) then .trap 0xE0 none
    else if 0x100 ≤ n ∧ t.cur.inHandler = false then .trap 0x08 none
    else if 0x100 ≤ n ∧ t.cur.sys.feat.getLsbD 0 = false then .trap 0xD0 none
    else .done (setX t 2 d (sysValue t n))) s)

/-- A value that a system register refuses (R86, R102). -/
def sysBad (n : Nat) (v : Word) : Bool :=
  match n with
  | 0x000 => wbits v 4 60 != 0 || wbits v 2 1 != 0
  | 0x005 => wbits v 19 45 != 0 || wbits v 14 2 != 0
  | 0x020 => wbits v 0 1 == 1 && decide (2 ≤ wbits v 1 2)
  | 0x040 => wbits v 2 14 != 0 || decide (2 ≤ wbits v 0 2)
  | _ => false

/-- The effect of a `sysw` on the system registers, once its cycle is over (R102, R153). -/
def sysWrite (y : Sys) (n : Nat) (v : Word) : Sys :=
  match n with
  | 0x000 => { y with raw := wbits v 1 1 == 1 }
  | 0x001 => { y with epc := v.setWidth 14 }
  | 0x005 => { y with bpV := wbits v 16 1 == 1, bpLeft := BitVec.ofNat 2 (wbits v 17 2), bpTarget := v.setWidth 14 }
  | 0x018 => { y with zrows := v.setWidth 32 }
  | 0x020 => { y with injAddr := BitVec.ofNat 61 (wbits v 3 61), injKind := BitVec.ofNat 2 (wbits v 1 2), injArm := wbits v 0 1 == 1 }
  | _ => y

/-- `sysw` (R153): the new value governs words that issue in later cycles; a write of TLBI holds the stream until it
retires (R86). -/
def execSysw (h : Hdr) (d : BitVec 5) (i : BitVec 11) (s : State) : Out :=
  .next (apWord h { cls := clAlu, extOk := true, bad := !sysListed (immU s i), sends := immU s i == 0x040 } (fun t =>
    let n := immU t i
    let v := xr t d
    let taken (go : State → Res) (u : State) : Res := if sysBad n v then .trap 0x02 none else go u
    if n = 0x040 then heldWord (taken (holdAt (.tlbi v))) (fun _ u => .done u) t
    else taken (fun u => .done (result u 1 (.sys n) v)) t) s)

/-- `wfe` (R154). DEDUCED (log entry 65): a word that waits has issued, and has read its guard. -/
def execWfe (h : Hdr) (s : State) : Out :=
  .next (apWord h { cls := clAlu, mainOnly := true } (fun t =>
    if t.cur.ev then .done (unheld (t.modCur fun c => { c with ev := false })) else waitAt .wait t) s)

end Sys2Proof.Machine
end

