-- ==== Sys2Proof/Machine/ApMem.lean ====
section
/-!
DEFINITION. The AP's memory words: loads, stores, queue words, fences and atomics (06_ap_instr.md R135-R149,
05_ap_model.md R106-R113). They check their access and enter the read and write queues; the accesses are performed by the
steps of Machine/MemEvents.lean.
-/

namespace Sys2Proof.Machine

/-- Class AP.ATOM (R18). -/
def clAtom : Nat := 2
/-- Class AP.MEM. -/
def clMem : Nat := 3

/-- Entries of the read queue (R101, R354). -/
def rqCap (c : Core) : Nat := if c.inHandler then 8 else 64
/-- Entries of the write queue. -/
def wqCap (c : Core) : Nat := if c.inHandler then 8 else 32

/-- The latency of a read at a VA: own scratchpad, another scratchpad of the cluster, translated space (R104). -/
def memLatency (s : State) (va : Word) : Nat :=
  if vaSpace va = 0 then 600
  else match spadOf s s.turn.1 va with
    | some (k, _) => if k = s.turn.1 then 6 else 24
    | none => 24

/-- Checks 3 to 9 of R137 on one access of the current core; a page without a cached translation is walked later. -/
def apAccess (t : State) (va : Word) (size spadAlign xlAlign : Nat) (n : Need) (go : State → Res) : Res :=
  match vaCheck t t.turn.1 va size spadAlign xlAlign with
  | some (c, f) => .trap c (some f)
  | none =>
    match accCheck t t.turn.1 va size n with
    | .ok _ => go t
    | .miss _ => go t
    | .fault c f => .trap c (some f)
    | .stage2 c g => .leave (stage2Fail t t.turn.1 c g)

/-- Enters a read into the read queue of the running context: the checker holds it for 4 cycles (R117), and a later fault of it
reports the branch pending at its word (R115). -/
def pushRd (t : State) (e : RdE) : State :=
  t.modCtx fun x => { x with rq := x.rq ++ [{ e with from_ := apTime t + 4, bp := x.pending }] }

/-- Enters an event into the write queue, likewise. -/
def pushWr (t : State) (e : WrE) : State :=
  t.modCtx fun x => { x with wq := x.wq ++ [{ e with from_ := apTime t + 4, bp := x.pending }] }

/-- The destination of a result for x[D]; x0 is none. -/
def xDst (d : BitVec 5) : Option ApDst := if d = 0 then none else some (.x d.toNat)

/-- A load of `size` bytes (R135). -/
def apLoad (h : Hdr) (d a b : BitVec 5) (size : Nat) (sgn : Bool) (s : State) : State :=
  apWord h { cls := clMem, mem := true } (fun t =>
    let va := effAddr t a b
    if rqCap t.cur ≤ t.cur.ctx.rq.length then .stall 3 t
    else apAccess t va size size size { r := true } fun u =>
      .done (pushRd u { po := u.cur.ctx.po, pc := u.cur.ctx.unitPc, va := va, kind := .ld size sgn, dst := xDst d,
                        due := apTime u + memLatency u va })) s

def execLdB (h : Hdr) (d a b : BitVec 5) (s : State) : Out := .next (apLoad h d a b 1 true s)
def execLdBu (h : Hdr) (d a b : BitVec 5) (s : State) : Out := .next (apLoad h d a b 1 false s)
def execLdH (h : Hdr) (d a b : BitVec 5) (s : State) : Out := .next (apLoad h d a b 2 true s)
def execLdHu (h : Hdr) (d a b : BitVec 5) (s : State) : Out := .next (apLoad h d a b 2 false s)
def execLdW (h : Hdr) (d a b : BitVec 5) (s : State) : Out := .next (apLoad h d a b 4 true s)
def execLdWu (h : Hdr) (d a b : BitVec 5) (s : State) : Out := .next (apLoad h d a b 4 false s)
def execLdD (h : Hdr) (d a b : BitVec 5) (s : State) : Out := .next (apLoad h d a b 8 false s)

/-- A store of the low `size` bytes of x[D] (R136). -/
def apStore (h : Hdr) (d a b : BitVec 5) (size : Nat) (s : State) : State :=
  apWord h { cls := clMem, mem := true } (fun t =>
    let va := effAddr t a b
    if wqCap t.cur ≤ t.cur.ctx.wq.length then .stall 4 t
    else apAccess t va size size size { w := true } fun u =>
      .done (pushWr u { po := u.cur.ctx.po, pc := u.cur.ctx.unitPc, va := va, kind := .st size, data := xr u d })) s

def execStB (h : Hdr) (d a b : BitVec 5) (s : State) : Out := .next (apStore h d a b 1 s)
def execStH (h : Hdr) (d a b : BitVec 5) (s : State) : Out := .next (apStore h d a b 2 s)
def execStW (h : Hdr) (d a b : BitVec 5) (s : State) : Out := .next (apStore h d a b 4 s)
def execStD (h : Hdr) (d a b : BitVec 5) (s : State) : Out := .next (apStore h d a b 8 s)

/-- Rows of a queue that issued `ldq` words still hold reserved: rows not yet performed and rows on their way (R108). -/
def reserved (c : Core) (lqm zm1 : Bool) : Nat :=
  ((c.main.rq.map fun e =>
    match e.kind with
    | .ldq m z _ => if m = lqm ∧ z = zm1 ∧ e.kill = false then e.n - e.k else 0
    | _ => 0).sum)
    + (c.q.rowsIn.filter fun r => r.lqm == lqm && r.zm1 == zm1).length

/-- Rows that the decoder has taken and not yet moved into LQV. -/
def zmDecoded (c : Core) : Nat := (c.q.zm.map fun z => z.out.length).sum

/-- The rows that R108 counts for an `ldq`: those of its queue, with those on their way to it, or of the decoder's input buffer
(R170). -/
def queueLoad (c : Core) (lqm zm1 : Bool) : Nat :=
  reserved c lqm zm1
    + (if zm1 then (c.q.zm.map zmWaiting).sum else if lqm then c.q.lqm.length else c.q.lqv.length + zmDecoded c)

/-- The lanes of the decoder that blocks of the streams occupy: lane, and the cycle at which it is free (R170). -/
def zmLanes (l : List ZStream) : SMap Nat :=
  (l.flatMap ZStream.out).foldl (fun m b => smSet 0 m (b.k % 4) (max (smGet 0 m (b.k % 4)) b.ready)) []

/-- The checks of the rows of an `ldq` at issue, in row order: the first row that fails decides, and one whose page must be
walked puts those of the rows from it on off until they are read (R138). -/
def rowsAccess (t : State) (va : Word) : Nat → Nat → (State → Res) → Res
  | _, 0, go => go t
  | k, n + 1, go =>
    match vaCheck t t.turn.1 (va + w64 (384 * k)) 384 384 64 with
    | some (c, f) => .trap c (some f)
    | none =>
      match accCheck t t.turn.1 (va + w64 (384 * k)) 384 { r := true } with
      | .ok _ => rowsAccess t va (k + 1) n go
      | .miss _ => go t
      | .fault c f => .trap c (some f)
      | .stage2 c g => .leave (stage2Fail t t.turn.1 c g)

/-- `ldq` (R138, R107, R108). -/
def execLdq (h : Hdr) (f : BitVec 3) (a b : BitVec 5) (s : State) : Out :=
  let lqm := f.getLsbD 0
  let zm1 := f.getLsbD 1
  .next (apWord h { cls := clMem, mem := true, mainOnly := true, bad := lqm && zm1 } (fun t =>
    let va := xr t a
    let n := (xr t b).toNat
    if 64 < n then .trap 0x02 none
    else if n = 0 then .done t
    else rowsAccess t va 0 n fun u =>
      if rqCap u.cur ≤ u.cur.ctx.rq.length then .stall 3 u
      else if 64 < queueLoad u.cur lqm zm1 + n then .stall 5 u
      else .done (pushRd u { po := u.cur.ctx.po, pc := u.cur.ctx.unitPc, va := va,
                             kind := .ldq lqm zm1 (f.getLsbD 2), dst := none, due := apTime u + memLatency u va, n := n })) s)

/-- `stq` (R139, R112). -/
def execStq (h : Hdr) (a b : BitVec 5) (s : State) : Out :=
  .next (apWord h { cls := clMem, mem := true, mainOnly := true } (fun t =>
    let va := effAddr t a b
    if wqCap t.cur ≤ t.cur.ctx.wq.length then .stall 4 t
    else apAccess t va 384 384 64 { w := true } fun u =>
      .done (pushWr u { po := u.cur.ctx.po, pc := u.cur.ctx.unitPc, va := va, kind := .stq })) s)

/-- The oldest EQ entry, once the cycle in which it was pushed is over (R113). -/
def eqHead (c : Core) : Option Word :=
  match c.q.eq with
  | (t, w) :: _ => if t < c.cycle then some w else none
  | [] => none

/-- A word that takes the oldest EQ entry (R140). -/
def apPopq (h : Hdr) (put : Word → State → State) (s : State) : State :=
  apWord h { cls := clMem, mainOnly := true } (fun t =>
    match eqHead t.cur with
    | none => .stall 6 t
    | some w => .done (put w (t.modCur fun c => { c with q := { c.q with eq := c.q.eq.drop 1 } }))) s

/-- `popq xD` (R140). -/
def execPopq (h : Hdr) (d : BitVec 5) (s : State) : Out := .next (apPopq h (fun w t => setX t 2 d w) s)
/-- `popq pN` (R140). -/
def execPopqP (h : Hdr) (p : BitVec 3) (s : State) : Out := .next (apPopq h (fun w t => setP t 2 p (w.getLsbD 0)) s)

/-- `qmark` (R106, R141): a marker in the order of the queues. Markers that neither name the latest of their tag nor hold a
read any more are dropped. -/
def execQmark (h : Hdr) (g : BitVec 6) (s : State) : Out :=
  .next (apWord h { cls := clMem, mainOnly := true } (fun t =>
    .done (t.modCtx fun x => { x with
      marks := (g.toNat, x.po) :: x.marks.filter fun m => m.1 != g.toNat || x.wq.any fun e => decide (e.po < m.2) })) s)

/-- `qkill` (R111, R141): it takes effect once the pops of its cycle are served. -/
def execQkill (h : Hdr) (g : BitVec 6) (s : State) : Out :=
  .next (apWord h { cls := clMem, mainOnly := true } (fun t =>
    match t.cur.ctx.marks.find? (fun m => m.1 == g.toNat) with
    | some m => .done (result t 1 (.kill m.2) 0)
    | none => .done t) s)

/-- `fence` (R94, R142): it makes its pushes when it retires. DEDUCED (log entry 54): every memory of the model is one, so the orders
that a fence gives inside its scope hold for every agent; none is lost outside it (R96). -/
def execFence (h : Hdr) (k : BitVec 2) (sc : BitVec 3) (s : State) : Out :=
  .next (apWord h { cls := clMem, bad := decide (k = 3) || decide (5 ≤ sc.toNat), noPush := true } (fun t =>
    .done (t.modCtx fun x => { x with fences := x.fences ++ [⟨x.po, k.toNat, hdrPushes .ap h⟩] })) s)

/-- The atomics a host completer carries out, `ret` for the returning form (R89). -/
def hostAmo (op : AmoOp) (ret : Bool) : Bool :=
  match op with
  | .add => true
  | .swap => ret
  | .cas => ret
  | _ => false

/-- Bytes and alignment of an atomic (R143, R147). -/
def amoSize : AmoOp → Nat
  | .faddlim => 16
  | _ => 8

/-- Atomics with a success bit (R145). -/
def amoTwo : AmoOp → Bool
  | .incb => true
  | .faddlim => true
  | _ => false

/-- An atomic (R143-R149): `ret` is the returning form, which traps in deterministic mode and holds an entry of both
queues. -/
def apAmo (h : Hdr) (op : AmoOp) (ret : Bool) (d a b : BitVec 5) (s : State) : State :=
  apWord h { cls := clAtom, mem := true, bad := ret && amoTwo op && d.getLsbD 0 } (fun t =>
    let va := xr t a
    let n := amoSize op
    if ret && t.cur.sys.det then .trap 0xE1 (some va)
    else if ret = true ∧ rqCap t.cur ≤ t.cur.ctx.rq.length then .stall 3 t
    else if wqCap t.cur ≤ t.cur.ctx.wq.length then .stall 4 t
    else apAccess t va n n n { r := true, w := true, atomic := some (hostAmo op ret) } fun u =>
      let po := u.cur.ctx.po
      let pc := u.cur.ctx.unitPc
      let due := apTime u + memLatency u va
      let dst := if ret then xDst d else none
      let w : WrE := { po := po, pc := pc, va := va, kind := .amo op, data := xr u b, expect := xr u d, dst := dst,
                       dst2 := if ret && amoTwo op && d != 0 then some (.x (d.toNat + 1)) else none, due := due, ret := ret }
      .done (if ret then pushWr (pushRd u { po := po, pc := pc, va := va, kind := .amo, dst := dst, due := due }) w
             else pushWr u w)) s

/-- `amo.add` (R144). -/
def execAmoAdd (h : Hdr) (d a b : BitVec 5) (s : State) : Out := .next (apAmo h .add true d a b s)
/-- `red.add` (R144). -/
def execRedAdd (h : Hdr) (a b : BitVec 5) (s : State) : Out := .next (apAmo h .add false 0 a b s)
/-- `amo.min` (R144). -/
def execAmoMin (h : Hdr) (d a b : BitVec 5) (s : State) : Out := .next (apAmo h .min true d a b s)
/-- `red.min` (R144). -/
def execRedMin (h : Hdr) (a b : BitVec 5) (s : State) : Out := .next (apAmo h .min false 0 a b s)
/-- `amo.minu` (R144). -/
def execAmoMinu (h : Hdr) (d a b : BitVec 5) (s : State) : Out := .next (apAmo h .minu true d a b s)
/-- `red.minu` (R144). -/
def execRedMinu (h : Hdr) (a b : BitVec 5) (s : State) : Out := .next (apAmo h .minu false 0 a b s)
/-- `amo.max` (R144). -/
def execAmoMax (h : Hdr) (d a b : BitVec 5) (s : State) : Out := .next (apAmo h .max true d a b s)
/-- `red.max` (R144). -/
def execRedMax (h : Hdr) (a b : BitVec 5) (s : State) : Out := .next (apAmo h .max false 0 a b s)
/-- `amo.maxu` (R144). -/
def execAmoMaxu (h : Hdr) (d a b : BitVec 5) (s : State) : Out := .next (apAmo h .maxu true d a b s)
/-- `red.maxu` (R144). -/
def execRedMaxu (h : Hdr) (a b : BitVec 5) (s : State) : Out := .next (apAmo h .maxu false 0 a b s)
/-- `amo.and` (R144). -/
def execAmoAnd (h : Hdr) (d a b : BitVec 5) (s : State) : Out := .next (apAmo h .and true d a b s)
/-- `red.and` (R144). -/
def execRedAnd (h : Hdr) (a b : BitVec 5) (s : State) : Out := .next (apAmo h .and false 0 a b s)
/-- `amo.or` (R144). -/
def execAmoOr (h : Hdr) (d a b : BitVec 5) (s : State) : Out := .next (apAmo h .or true d a b s)
/-- `red.or` (R144). -/
def execRedOr (h : Hdr) (a b : BitVec 5) (s : State) : Out := .next (apAmo h .or false 0 a b s)
/-- `amo.xor` (R144). -/
def execAmoXor (h : Hdr) (d a b : BitVec 5) (s : State) : Out := .next (apAmo h .xor true d a b s)
/-- `red.xor` (R144). -/
def execRedXor (h : Hdr) (a b : BitVec 5) (s : State) : Out := .next (apAmo h .xor false 0 a b s)
/-- `amo.swap` (R144). -/
def execAmoSwap (h : Hdr) (d a b : BitVec 5) (s : State) : Out := .next (apAmo h .swap true d a b s)
/-- `red.swap` (R144). -/
def execRedSwap (h : Hdr) (a b : BitVec 5) (s : State) : Out := .next (apAmo h .swap false 0 a b s)
/-- `amo.incwrap` (R144). -/
def execAmoIncwrap (h : Hdr) (d a b : BitVec 5) (s : State) : Out := .next (apAmo h .incwrap true d a b s)
/-- `red.incwrap` (R144). -/
def execRedIncwrap (h : Hdr) (a b : BitVec 5) (s : State) : Out := .next (apAmo h .incwrap false 0 a b s)
/-- `amo.incb` (R144). -/
def execAmoIncb (h : Hdr) (d a b : BitVec 5) (s : State) : Out := .next (apAmo h .incb true d a b s)
/-- `red.incb` (R144). -/
def execRedIncb (h : Hdr) (a b : BitVec 5) (s : State) : Out := .next (apAmo h .incb false 0 a b s)
/-- `amo.faddlim` (R144). -/
def execAmoFaddlim (h : Hdr) (d a b : BitVec 5) (s : State) : Out := .next (apAmo h .faddlim true d a b s)
/-- `red.faddlim` (R144). -/
def execRedFaddlim (h : Hdr) (a b : BitVec 5) (s : State) : Out := .next (apAmo h .faddlim false 0 a b s)
/-- `amo.cas` (R146). -/
def execAmoCas (h : Hdr) (d a b : BitVec 5) (s : State) : Out := .next (apAmo h .cas true d a b s)
/-- `amo.decpos` (R144). -/
def execAmoDecpos (h : Hdr) (d a : BitVec 5) (s : State) : Out := .next (apAmo h .decpos true d a 0 s)
/-- `red.decpos` (R144). -/
def execRedDecpos (h : Hdr) (a : BitVec 5) (s : State) : Out := .next (apAmo h .decpos false 0 a 0 s)

end Sys2Proof.Machine
end

