-- ==== Sys2Proof/Machine/MemEvents.lean ====
section
/-!
DEFINITION. The steps that perform the AP's accesses and land its results: reads, writes and atomics performed, replies,
rows entering their queues, walks, the handler's delivery and start, freezes and their watchdogs
(04_memory.md R87-R100, 05_ap_model.md R104-R113, 22_faults.md R354-R361). A step whose condition does not hold leaves the
state as it is.
-/

namespace Sys2Proof.Machine

/-- The context that a memory step serves: the handler's queue while it has an entry there, else the main one. -/
def servesShadow (c : Core) (hasShadow : Bool) : Bool := c.inHandler && hasShadow

def Core.ctxOf (c : Core) (sh : Bool) : ApCtx := if sh then c.shadow else c.main
def Core.setCtxOf (c : Core) (sh : Bool) (x : ApCtx) : Core := if sh then { c with shadow := x } else { c with main := x }

/-- A core's kernel is placed and not ended. -/
def Core.alive (c : Core) : Bool := c.run == .running

/-- The word of an access that has issued: its context, program order, address, and the branch pending at it (R115). -/
structure At where
  sh : Bool
  po : Nat
  pc : BitVec 14
  bp : Option Br
  deriving DecidableEq, Repr

/-- A fault of an AP access that has already issued: of its word (R137). A walk goes to the handler where there is one, but not
from within it (R356, R357). -/
def accessFault (s : State) (k : Nat) (walk : Bool) (w : At) (cause : Nat) (va : Word) : State :=
  if w.sh then endKernelAt s k 3 w.pc.toNat cause va w.bp
  else if walk && hasHandler s k then deliver s k w.pc cause va none (some w.po) w.bp
  else endKernelAt s k 0 w.pc.toNat cause va w.bp

/-- An address of `State.mem` lies in a share: (module, first 1 GiB granule, granules). -/
def inShare (share : List (Nat × Nat × Nat)) (key : Nat) : Bool :=
  share.any fun e => decide (hbmKey e.1 (e.2.1 * 2 ^ 30) ≤ key) && decide (key < hbmKey e.1 ((e.2.1 + e.2.2) * 2 ^ 30))

/-- The partition that a correctable error at an address concerns: that of its HBM share, else that of the reading core
(R368). -/
def eccOwner (s : State) (k : Nat) (key : Option Nat) : Nat :=
  match key.bind fun a => s.parts.find? fun e => inShare e.2.share a with
  | some e => e.1
  | none => partOfCore s k

/-- A correctable error is logged for a partition (R368). -/
def eccLog (s : State) (pn : Nat) : State :=
  let p := s.part pn
  s.setPart pn { p with evB0 := if p.evB0 = 0xFFFFFFFF then p.evB0 else p.evB0 + 1 }

/-- A correctable error that a core meets: it freezes for 16 clock cycles, and the event is logged (R360, R367, R368). -/
def eccEvent (s : State) (k : Nat) (key : Option Nat) : State :=
  let c := s.core k
  let until_ := s.clock + 16
  let e := match c.freeze.ecc with
    | some u => max u until_
    | none => until_
  eccLog (s.setCore k { c with freeze := { c.freeze with ecc := some e } }) (eccOwner s k key)

/-- The 8-byte unit of `State.mem` that a VA names for a core, by the translations that a walk would find now. -/
def unitOf (s : State) (k : Nat) (va : Word) : Option Nat :=
  if vaSpace va = 15 then (spadOf s k va).map fun p => spadKey p.1 p.2 / 8
  else if vaSpace va ≠ 0 then none
  else
    let pn := partOfCore s k
    let e := match tlbFind s (dieOf k) pn va.toNat with
      | some e => some e
      | none => match walk s pn (moduleOf k) va.toNat with
        | .leaf e _ => some e
        | _ => none
    match e.map fun e => leafCheck s (moduleOf k) e (va.toNat / 65536) {} with
    | some (.ok x) => some ((x.base + va.toNat % 65536) / 8)
    | _ => none

/-- The armed injection meets an access: it reads the unit that ADDR names, under whichever VA (R110). -/
def injHits (s : State) (k : Nat) (xl : List Xl) (va : Word) (size : Nat) : Bool :=
  let y := (s.core k).sys
  y.injArm && (match unitOf s k (w64 (y.injAddr.toNat * 8)) with
    | some u => (List.range size).any fun i => match byteLoc s k xl (va + w64 i) with
      | some (key, _) => key / 8 == u
      | none => false
    | none => false)

/-- What a read meets: the code of its data, after the injection hook, which is used up (R109, R110). -/
def readEcc (s : State) (k : Nat) (xl : List Xl) (va : Word) (size : Nat) (ecc : Ecc) : State × Ecc :=
  let c := s.core k
  let hit := injHits s k xl va size
  let s := if hit then s.setCore k { c with sys := { c.sys with injArm := false } } else s
  if vaPoison s k xl va size || (hit && c.sys.injKind == 1) then (s, .uncorrectable)
  else if hit then (s, .correctable)
  else (s, ecc)

/-- The access check of an issued entry, with the translations it uses (R137). -/
def entryCheck (s : State) (k : Nat) (va : Word) (size : Nat) (n : Need) : AccRes := accCheck s k va size n

/-- The checks of rows of an `ldq`, in row order: the first row that fails decides (R138). -/
def rowsCheck (s : State) (k : Nat) (va : Word) : Nat → Nat → AccRes
  | _, 0 => .ok []
  | i, n + 1 =>
    match vaCheck s k (va + w64 (384 * i)) 384 384 64 with
    | some (c, f) => .fault c f
    | none => match entryCheck s k (va + w64 (384 * i)) 384 { r := true } with
      | .ok xs => match rowsCheck s k va (i + 1) n with
        | .ok ys => .ok (xs ++ ys)
        | r => r
      | r => r

/-- The check of a read-queue entry; of an `ldq`, all its rows before the first is read, then each row (R138). -/
def rdCheck (s : State) (k : Nat) (e : RdE) : AccRes :=
  match e.kind with
  | .ld n _ => entryCheck s k e.va n { r := true }
  | .ldq _ _ _ => if e.k = 0 then rowsCheck s k e.va 0 e.n else rowsCheck s k e.va e.k 1
  | .amo => .ok []
  | .test => .ok []

/-- The check of a write-queue entry. -/
def wrCheck (s : State) (k : Nat) (e : WrE) : AccRes :=
  match e.kind with
  | .st n => entryCheck s k e.va n { w := true }
  | .stq => entryCheck s k e.va 384 { w := true }
  | .amo op => entryCheck s k e.va (amoSize op) { r := true, w := true, atomic := some (hostAmo op e.ret) }
  | .rsv => entryCheck s k e.va 8 { r := true, w := true, cell := true }
  | .rels => entryCheck s k e.va 8 { r := true, w := true, cell := true }
  | .test => entryCheck s k e.va 8 { r := true, w := true, cell := true }

/-- A read po-after a `qmark` waits until every earlier write-queue event has been performed (R106). -/
def markHolds (x : ApCtx) (po : Nat) : Bool :=
  x.marks.any fun m => decide (m.2 < po) && x.wq.any fun w => decide (w.po < m.2)

/-- The value of a load (R135). -/
def loadValue (size : Nat) (sgn : Bool) (v : Nat) : Word := if sgn then sextN (w64 v) (8 * size) else w64 v

/-- A VA is in the core's own scratchpad. -/
def ownSpad (s : State) (k : Nat) (va : Word) : Bool :=
  vaSpace va == 15 && (match spadOf s k va with | some (j, _) => j == k | none => false)

/-- The word of a read-queue entry. -/
def RdE.at_ (e : RdE) (sh : Bool) : At := ⟨sh, e.po, e.pc, e.bp⟩
/-- The word of a write-queue entry. -/
def WrE.at_ (e : WrE) (sh : Bool) : At := ⟨sh, e.po, e.pc, e.bp⟩

/-- Where a VA lies in `State.mem`. -/
def keyAt (s : State) (k : Nat) (xl : List Xl) (va : Word) : Option Nat := (byteLoc s k xl va).map fun p => p.1

/-- Performs the load at the head of a read queue. -/
def performLd (s : State) (k : Nat) (sh : Bool) (e : RdE) (size : Nat) (sgn : Bool) (xl : List Xl) (ecc : Ecc) : State :=
  let (s, ecc) := readEcc s k xl e.va size ecc
  if ecc = .uncorrectable then accessFault s k false (e.at_ sh) 0xB1 e.va
  else
    let v := loadValue size sgn (vaNat s k xl e.va size)
    let c := s.core k
    let x := c.ctxOf sh
    let f : ApFly := { due := e.due, po := e.po, dst := e.dst.getD (.x 0), val := v, mem := true
                       arrived := ownSpad s k e.va, va := e.va, rd := some e.kind }
    let s := s.setCore k (c.setCtxOf sh { x with rq := x.rq.drop 1, fly := x.fly ++ [f] })
    if ecc = .correctable then eccEvent s k (keyAt s k xl e.va) else s

/-- Performs the next row of the `ldq` at the head of the read queue (R107, R109). -/
def performRow (s : State) (k : Nat) (e : RdE) (lqm zm1 zero : Bool) (xl : List Xl) (ecc : Ecc) : State :=
  let va := e.va + w64 (384 * e.k)
  let (s, ecc) := readEcc s k xl va 384 ecc
  let tag := match byteLoc s k xl va with
    | some (key, _) => tagAt s key
    | none => 0
  let bad := ecc = .uncorrectable
  let data : Row := if bad && zero then 0 else rowOfList (vaBytes s k xl va 384)
  let row : QRow := { data := data, tag := tag, poison := bad && !zero, po := some e.po }
  let c := s.core k
  let c := if bad && zero && c.sys.zrows != 0xFFFFFFFF then { c with sys := { c.sys with zrows := c.sys.zrows + 1 } } else c
  let rq := if e.k + 1 < e.n then { e with k := e.k + 1 } :: c.main.rq.drop 1 else c.main.rq.drop 1
  let ins := if e.kill then c.q.rowsIn
    else c.q.rowsIn ++ [{ lqm := lqm, zm1 := zm1, due := e.due, po := e.po, total := e.n, row := row }]
  let s := s.setCore k { c with main := { c.main with rq := rq }, q := { c.q with rowsIn := ins } }
  if ecc = .correctable then eccEvent s k (keyAt s k xl va) else s

/-- The cycle count that a context's latencies run in (R354). -/
def ctxTime (s : State) (k : Nat) (sh : Bool) : Nat := if sh then s.clock else (s.core k).cycle

/-- The read at the head of a context's read queue has its value fixed, once the checker has let it out of the AP (R91, R93,
R117). -/
def readNext (s : State) (k : Nat) (sh : Bool) (ecc : Ecc) : State :=
  let c := s.core k
  let x := c.ctxOf sh
  match x.rq with
  | [] => s
  | e :: _ =>
    if !c.alive || decide (ctxTime s k sh < e.from_) || markHolds x e.po then s
    else match rdCheck s k e with
      | .miss _ => s
      | .fault cause va => accessFault s k false (e.at_ sh) cause va
      | .stage2 cause gpa => stage2Fail s k cause gpa
      | .ok xl =>
        match e.kind with
        | .ld n sg => performLd s k sh e n sg xl ecc
        | .ldq m z zero => performRow s k e m z zero xl ecc
        | .amo => s
        | .test => s

/-- The value an atomic writes, where it writes (R144-R147): `lim` is the word after the cell. -/
def amoNew (op : AmoOp) (old v expect lim : Word) : Option Word :=
  match op with
  | .add => some (old + v)
  | .min => some (minS old v)
  | .minu => some (minU old v)
  | .max => some (maxS old v)
  | .maxu => some (maxU old v)
  | .and => some (old &&& v)
  | .or => some (old ||| v)
  | .xor => some (old ^^^ v)
  | .swap => some v
  | .cas => if old = expect then some v else none
  | .incwrap => some (if v.toNat ≤ old.toNat then 0 else old + 1)
  | .incb => if old.toNat < v.toNat then some (old + 1) else none
  | .decpos => if old = 0 then none else some (old - 1)
  | .faddlim => if old.toNat + v.toNat ≤ lim.toNat then some (old + v) else none

/-- An access to another core's scratchpad wakes that core (R155); an atomic sets the row's tag to 0 (R148). -/
def touchSpad (s : State) (k : Nat) (xl : List Xl) (va : Word) : State :=
  match byteLoc s k xl va with
  | some (key, _) =>
    if isSpadKey key then
      let s := setTag s key 0
      if key / 2 ^ 21 = k then s else setEv s (key / 2 ^ 21)
    else s
  | none => s

/-- The result of a returning access enters its list (R104, R148). -/
def returnValue (s : State) (k : Nat) (sh : Bool) (e : WrE) (v : Word) (ok : Bool) : State :=
  let c := s.core k
  let x := c.ctxOf sh
  let f (d : ApDst) (w : Word) (rd : Option RdKind) : ApFly :=
    { due := e.due, po := e.po, dst := d, val := w, mem := true, arrived := ownSpad s k e.va, va := e.va, rd := rd }
  let second := match e.dst2 with
    | some d => [f d (if ok then 1 else 0) none]
    | none => []
  s.setCore k (c.setCtxOf sh { x with
    rq := x.rq.drop 1, fly := x.fly ++ [f (e.dst.getD (.x 0)) v (some (if e.kind = .test then .test else .amo))] ++ second })

/-- Performs an atomic at its port (R87, R148). A word that reads uncorrectable data faults with 0xB1, whether it returns what
it read or not (R109, R110, R367). -/
def performAmo (s : State) (k : Nat) (sh : Bool) (e : WrE) (op : AmoOp) (xl : List Xl) : State :=
  let (s, ecc) := readEcc s k xl e.va (amoSize op) .clean
  if ecc = .uncorrectable then accessFault s k false (e.at_ sh) 0xB1 e.va
  else
    let old := w64 (vaNat s k xl e.va 8)
    let lim := if op = .faddlim then w64 (vaNat s k xl (e.va + 8) 8) else 0
    let new := amoNew op old e.data e.expect lim
    let s := match new with
      | some m => vaStore s k xl e.va (leBytes 8 m.toNat)
      | none => s
    let s := touchSpad s k xl e.va
    let s := if e.ret then returnValue s k sh e old new.isSome else s
    if ecc = .correctable then eccEvent s k (keyAt s k xl e.va) else s

/-- EMPTY of a reservation cell (18_weir.md R291). -/
def cellEmpty : Word := ~~~0

/-- A cell holds another loop's value than that of the tag. -/
def cellAlien (old tag : Word) : Bool := old != cellEmpty && wbits old 48 16 != wbits tag 48 16

/-- Latches the first alien cell (R304). -/
def latchAlias (s : State) (k : Nat) (va : Word) : State :=
  let c := s.core k
  if c.wl.walias.isSome then s else s.setCore k { c with wl := { c.wl with walias := some va } }

/-- A Weir word reads its cell: an uncorrectable error faults at it (R367). -/
def readCell (s : State) (k : Nat) (sh : Bool) (e : WrE) (xl : List Xl) (go : Word → State) : State :=
  if vaPoison s k xl e.va 8 then accessFault s k false (e.at_ sh) 0xB1 e.va else go (w64 (vaNat s k xl e.va 8))

/-- A Weir word writes its cell. DESIGN CHOICE (log entry 57): an operation that writes a cell at another core's port counts
there as an atomic, which sets EV (R155); one that only reads it does not. -/
def writeCell (s : State) (k : Nat) (e : WrE) (xl : List Xl) (v : Word) : State :=
  touchSpad (vaStore s k xl e.va (leBytes 8 v.toNat)) k xl e.va

/-- Performs a reserve (R304). -/
def performRsv (s : State) (k : Nat) (sh : Bool) (e : WrE) (xl : List Xl) : State :=
  readCell s k sh e xl fun old =>
    if cellAlien old e.data then latchAlias s k e.va
    else if e.data.toNat < old.toNat then writeCell s k e xl e.data
    else s

/-- Performs a release (R306); its write counts as an atomic at the port (`writeCell`, log entry 57). -/
def performRels (s : State) (k : Nat) (sh : Bool) (e : WrE) (xl : List Xl) : State :=
  readCell s k sh e xl fun old =>
    if old = e.data then writeCell s k e xl cellEmpty
    else if cellAlien old e.data then latchAlias s k e.va
    else s

/-- Performs a `wl.test` (R305). -/
def performTest (s : State) (k : Nat) (sh : Bool) (e : WrE) (xl : List Xl) : State :=
  readCell s k sh e xl fun old =>
    if cellAlien old e.data then accessFault s k false (e.at_ sh) 0x80 e.va
    else returnValue s k sh e (if old = e.data then 1 else 0) true

/-- The head of SQ, once the cycle in which it was pushed is over (R9). -/
def sqHead (c : Core) : Option Row :=
  match c.q.sq with
  | (t, r) :: _ => if t < c.cycle then some r else none
  | [] => none

/-- The write-queue event at the head may be performed: every earlier read has been (R93), and a returning one stands at
the head of the read queue too (R148). -/
def wrReady (x : ApCtx) (e : WrE) : Bool :=
  (x.rq.all fun r => decide (e.po < r.po) || (e.ret && decide (r.po = e.po)))
    && (!e.ret || (match x.rq with | r :: _ => r.po == e.po | [] => false))

/-- Drops the head of a write queue. -/
def dropWr (s : State) (k : Nat) (sh : Bool) : State :=
  let c := s.core k
  let x := c.ctxOf sh
  s.setCore k (c.setCtxOf sh { x with wq := x.wq.drop 1 })

/-- The event at the head of a context's write queue enters the write queue of its port, once the checker has let it out of the
AP (R91, R87, R112, R117). -/
def writeNext (s : State) (k : Nat) (sh : Bool) : State :=
  let c := s.core k
  let x := c.ctxOf sh
  match x.wq with
  | [] => s
  | e :: _ =>
    if !c.alive || decide (ctxTime s k sh < e.from_) || !wrReady x e then s
    else match wrCheck s k e with
      | .miss _ => s
      | .fault cause va => accessFault s k false (e.at_ sh) cause va
      | .stage2 cause gpa => stage2Fail s k cause gpa
      | .ok xl =>
        match e.kind with
        | .st n => dropWr (vaStore s k xl e.va (leBytes n e.data.toNat)) k sh
        | .stq =>
          match (if c.frozen then none else sqHead c) with
          | none => s
          | some row =>
            let s := dropWr (vaStore s k xl e.va (rowBytes row)) k sh
            let c := s.core k
            s.setCore k { c with q := { c.q with sq := c.q.sq.drop 1 } }
        | .amo op => performAmo (dropWr s k sh) k sh e op xl
        | .rsv => performRsv (dropWr s k sh) k sh e xl
        | .rels => performRels (dropWr s k sh) k sh e xl
        | .test => performTest (dropWr s k sh) k sh e xl

/-- Where the next walk of a context is needed: the first entry whose page has no cached translation, as its word, the page and
the VA (R81, R85). -/
def walkOf (s : State) (k : Nat) (sh : Bool) : Option (At × Nat × Word) :=
  let x := (s.core k).ctxOf sh
  let out (from_ : Nat) : Bool := decide (from_ ≤ ctxTime s k sh)
  let rs := (x.rq.filter fun e => out e.from_).filterMap fun e => match rdCheck s k e with
    | .miss v => some (e.at_ sh, v, e.va)
    | _ => none
  let ws := (x.wq.filter fun e => out e.from_).filterMap fun e => match wrCheck s k e with
    | .miss v => some (e.at_ sh, v, e.va)
    | _ => none
  match rs, ws with
  | r :: _, w :: _ => some (if w.1.po < r.1.po then w else r)
  | r :: _, [] => some r
  | [], w :: _ => some w
  | [], [] => none

/-- Where the next walk of a core is needed. While a delivery waits or runs, the main context's walks wait (R356). -/
def walkWanted (s : State) (k : Nat) : Option (At × Nat × Word) :=
  let c := s.core k
  if c.hnd.isSome || !c.hndQ.isEmpty then (if c.inHandler then walkOf s k true else none) else walkOf s k false

/-- A walk for the core's oldest access that needs one completes. -/
def walkNext (s : State) (k : Nat) : State :=
  if !(s.core k).alive then s else match walkWanted s k with
    | none => s
    | some (w, vpg, va) =>
      match walk s (partOfCore s k) (moduleOf k) (vpg * 65536) with
      | .leaf e _ => tlbFill s (dieOf k) e
      | .invalid => accessFault s k true w 0x21 (BitVec.ofNat 64 (max va.toNat (vpg * 65536)))
      | .stage2 perm gpa => stage2Fail s k (if perm then 0x22 else 0x21) gpa

/-- TRANSLATION_WALK (R81, R84, R85). -/
def execTranslationWalk (core : Nat) (s : State) : Out := .next (walkNext s core)

/-- One result lands (R104); `c` is the core, `sh` the context. -/
def landOne (sh : Bool) (c : Core) (f : ApFly) : Core :=
  let x := c.ctxOf sh
  match f.dst with
  | .x n => if n = 0 then c else c.setCtxOf sh { x with x := smSet 0 x.x n f.val }
  | .p n => if n = 0 then c else c.setCtxOf sh { x with p := smSet false x.p n (f.val.getLsbD 0) }
  | .b n => c.setCtxOf sh { x with b := smSet 0 x.b n f.val }
  | .pf => c.setCtxOf sh { x with p := [1, 2, 3, 4, 5, 6, 7].foldl (fun m n => smSet false m n (f.val.getLsbD n)) x.p }
  | .sys n => { c with sys := sysWrite c.sys n f.val }
  | .qring _ => c
  | .sdKey rk cfg fr => { c with sd := { rk := rk, cfg := cfg, fr := fr, keyed := true } }
  | .kill po => killRows c po
where
  /-- `qkill`: rows and decoder work of every `ldq` after the marker are discarded (R111, R172). -/
  killRows (c : Core) (po : Nat) : Core :=
    let keep (p : Option Nat) : Bool := match p with
      | some n => decide (n < po)
      | none => true
    { c with
      main := { c.main with rq := c.main.rq.map fun e =>
        match e.kind with
        | .ldq _ _ _ => if po < e.po then { e with kill := true } else e
        | _ => e }
      q := { c.q with
        lqv := c.q.lqv.filter fun r => keep r.po
        lqm := c.q.lqm.filter fun r => keep r.po
        rowsIn := c.q.rowsIn.filter fun r => decide (r.po < po)
        zm := c.q.zm.filter fun z => decide (z.po < po)
        lanes := zmLanes (c.q.zm.filter fun z => decide (z.po < po)) } }

/-- Puts a result into a list by its word's place in program order, after those of the same word. -/
def flyInsert (f : ApFly) : List ApFly → List ApFly
  | [] => [f]
  | g :: l => if f.po < g.po then f :: g :: l else g :: flyInsert f l

/-- Results in program order. -/
def flyOrder (l : List ApFly) : List ApFly := l.foldl (fun a f => flyInsert f a) []

/-- Lands every result of a context that is due by cycle `now` and has arrived, in program order. -/
def landCtx (sh : Bool) (now : Nat) (c : Core) : Core :=
  let x := c.ctxOf sh
  let ready := x.fly.filter fun f => decide (f.due ≤ now) && f.arrived
  let rest := x.fly.filter fun f => !(decide (f.due ≤ now) && f.arrived)
  (flyOrder ready).foldl (landOne sh) (c.setCtxOf sh { x with fly := rest })

/-- An entry of a read queue stands for one reply, not for rows of a queue. -/
def RdE.single (e : RdE) : Bool := match e.kind with | .ldq _ _ _ => false | _ => true

/-- A read of the core's own scratchpad is due, which is never late (R104). -/
def ownDue (s : State) (k : Nat) (sh : Bool) : Bool :=
  ((s.core k).ctxOf sh).rq.any fun e => e.single && decide (e.due ≤ ctxTime s k sh) && ownSpad s k e.va

/-- Performs the accesses of a context in order until its due reads of the core's own scratchpad have been performed, or nothing
more can be. -/
def serveOwn (k : Nat) (sh : Bool) : Nat → State → State
  | 0, s => s
  | n + 1, s => if ownDue s k sh then serveOwn k sh n (writeNext (readNext (walkNext s k) k sh .clean) k sh) else s

/-- The accesses that stand in a context's queues, each row of an `ldq` for one. -/
def queued (x : ApCtx) : Nat := (x.rq.map fun e => e.n - e.k).sum + x.wq.length

/-- A reply that is due and absent, oldest first: of a read performed, or of one not yet performed (R105). -/
def lateIn (x : ApCtx) (now : Nat) : Option Word :=
  match x.fly.find? (fun f => f.mem && !f.arrived && decide (f.due ≤ now)) with
  | some f => some f.va
  | none => (x.rq.find? (fun e => decide (e.due ≤ now) && e.single)).map RdE.va

/-- The late reply of a core's main context. -/
def lateVa (c : Core) : Option Word := lateIn c.main c.cycle

/-- The ring that a `pb.claim` of the core's own Quern gives it, once the word has left the AP (20_quern.md R323, R117). -/
def ringLands (s : State) (k now : Nat) : State :=
  (s.core k).main.fly.foldl (fun s f => match f.dst with
    | .qring v => if f.due ≤ now then s.setQuern (clusterOf k) { s.quern (clusterOf k) with ring := v } else s
    | _ => s) s

/-- The main context's results that are due by its core cycle are written. -/
def landMain (s : State) (k : Nat) : State :=
  let now := (s.core k).cycle
  let s := ringLands s k now
  s.setCore k (landCtx false now (s.core k))

/-- The results of a context that are due by the core cycle about to run, or in the handler by the clock, are written; none of the
main context in a core cycle in which a reply is late, since that cycle runs after the reply (R104, R105). -/
def landNow (s : State) (k : Nat) (sh : Bool) : State :=
  let s := serveOwn k sh (2 * queued ((s.core k).ctxOf sh) + 2) s
  if sh then s.setCore k (landCtx true s.clock (s.core k))
  else if (lateVa (s.core k)).isSome then s
  else landMain s k

/-- AP_RESULT_LANDING (R104): the results due by the core cycle about to run are written, and those of the handler's words by the
clock. -/
def execApResultLanding (core : Nat) (s : State) : Out := .next (landNow (landNow s core false) core true)

/-- The oldest reply on its way has arrived. -/
def firstArrives : List ApFly → List ApFly
  | [] => []
  | f :: l => if f.arrived then f :: firstArrives l else { f with arrived := true } :: l

/-- The freeze of a late reply ends once no reply is absent; the results of its core cycle are then written, in program order (R104,
R105). -/
def lateEnds (s : State) (k : Nat) : State :=
  let c := s.core k
  if c.freeze.late.isNone then s
  else match lateVa c with
    | some va => s.setCore k { c with freeze := { c.freeze with late := some va } }
    | none => landMain (s.setCore k (({ c with freeze := { c.freeze with late := none } } : Core).thaw s.clock)) k

/-- LATE_REPLY_FREEZE (R105): the core freezes when a reply is due and absent; if it has come meanwhile, the freeze ends, and the results
of the cycle are written. -/
def execLateReplyFreeze (core : Nat) (s : State) : Out :=
  let c := s.core core
  .next (if !c.alive then s else match lateVa c with
    | some va => s.setCore core { c with freeze := { c.freeze with late := some va } }
    | none => if c.freeze.late.isNone then landMain s core else lateEnds s core)

/-- READ_PERFORMED (R91, R93): the read at the head of the read queue is performed. -/
def execReadPerformed (core : Nat) (ecc : Ecc) (s : State) : Out :=
  let c := s.core core
  .next (lateEnds (readNext s core (servesShadow c (!c.shadow.rq.isEmpty)) ecc) core)

/-- WRITE_PERFORMED (R91, R87, R112): the event at the head of the write queue is performed. -/
def execWritePerformed (core : Nat) (s : State) : Out :=
  let c := s.core core
  .next (lateEnds (writeNext s core (servesShadow c (!c.shadow.wq.isEmpty))) core)

/-- READ_REPLY_ARRIVAL (R104, R105): the oldest reply on its way arrives; where it was late it is written, and the freeze
ends once no reply is absent. -/
def execReadReplyArrival (core : Nat) (s : State) : Out :=
  let c := s.core core
  let sh := servesShadow c (c.shadow.fly.any fun f => !f.arrived)
  let x := c.ctxOf sh
  .next (lateEnds (s.setCore core (c.setCtxOf sh { x with fly := firstArrives x.fly })) core)

/-- LATE_REPLY (R360): a core frozen for 2^20 consecutive clock cycles ends its kernel with 0x27; FADDR is the VA of the oldest
absent reply, in either context, else that of the handler's entry. -/
def execLateReply (core : Nat) (s : State) : Out :=
  let c := s.core core
  .next (if c.alive && c.frozen && decide (2 ^ 20 ≤ c.freeze.len) then
      let va := match (lateVa c).or (if c.inHandler then lateIn c.shadow s.clock else none) with
        | some va => va
        | none => match c.hnd with
          | some d => d.faddr
          | none => c.sys.faddr
      endKernel s core 3 0 0x27 va
    else s)

/-- LDQ_ROW_ENTRY (R107, R108, R138): the next row on its way to a queue enters it, or the decoder's input. -/
def execLdqRowEntry (core : Nat) (lqm : Bool) (s : State) : Out :=
  let c := s.core core
  .next (match c.q.rowsIn.find? (fun r => r.lqm == lqm) with
    | none => s
    | some r =>
      if !c.alive || c.frozen || decide (c.cycle < r.due) then s
      else
        let rest := c.q.rowsIn.erase r
        if r.zm1 then
          let zm := if c.q.zm.any (fun z => z.po == r.po) then
              c.q.zm.map fun z => if z.po = r.po then { z with rows := z.rows ++ [r.row] } else z
            else c.q.zm ++ [{ po := r.po, total := r.total, rows := [r.row], pos := 0, k := 0, out := [] }]
          s.setCore core { c with q := { c.q with rowsIn := rest, zm := zm } }
        else if lqm then s.setCore core { c with q := { c.q with rowsIn := rest, lqm := c.q.lqm ++ [r.row] } }
        else if c.q.zm.any fun z => decide (z.po < r.po) then s
        else s.setCore core { c with q := { c.q with rowsIn := rest, lqv := c.q.lqv ++ [r.row] } })

/-- HANDLER_DELIVERY (R356): the next queued event is delivered once the one before it has ended. -/
def execHandlerDelivery (core : Nat) (s : State) : Out :=
  let c := s.core core
  .next (match c.hndQ with
    | [] => s
    | d :: ds =>
      if c.hnd.isSome then s
      else
        let d := if d.cmd.isSome then { d with epc := c.main.unitPc, bp := c.main.pending } else d
        deliver.enterHandler (s.setCore core { c with hndQ := ds }) core { d with start := s.clock + 8 })

/-- HANDLER_START (R356): eight clock cycles after delivery the shadow context starts at word 0. -/
def execHandlerStart (core : Nat) (s : State) : Out :=
  let c := s.core core
  .next (match c.hnd with
    | none => s
    | some d =>
      if d.running || decide (s.clock < d.start) then s
      else s.setCore core { c with hnd := some { d with running := true },
                                   shadow := { c.shadow with pc := 0, bad := none, br := none, ext := [], extBad := false, hold := 0 } })

/-- ECC_CORRECTED (R367, R368): a correctable error in one of a core's arrays; or one that an engine, a walk or the host meets in a
partition's HBM share, which is logged and freezes no core. -/
def execEccCorrected (at_ : EccSite) (s : State) : Out :=
  .next (match at_ with
    | .share pn => eccLog s pn
    | .core k => eccEvent s k none)

/-- ECC_FREEZE_END (R360): the freeze ends after its 16 clock cycles. -/
def execEccFreezeEnd (core : Nat) (s : State) : Out :=
  let c := s.core core
  .next (match c.freeze.ecc with
    | some e =>
      if e ≤ s.clock then s.setCore core (({ c with freeze := { c.freeze with ecc := none } } : Core).thaw s.clock) else s
    | none => s)

/-- TOKEN_DEADLOCK (R361): the token watchdog ends the kernel; FADDR holds SNAP_TOK. -/
def execTokenDeadlock (core : Nat) (s : State) : Out :=
  let c := s.core core
  .next (if c.alive && decide (2 ^ 24 ≤ c.tokWait) then
      endKernel s core 3 0 0xC4 (w64 (chunks 4 (fun f => c.tokens f) 6))
    else s)

/-- The main context's events that a fence of the handler waits for (R359): whether reads, or writes, are still queued that can
be performed while the handler runs. Those behind a missing translation, a word that the checker has not let out, or an `stq`
cannot: the core is frozen. -/
def mainQueued (s : State) (k : Nat) : Bool × Bool :=
  let x := (s.core k).main
  let held (from_ : Nat) (r : AccRes) : Bool := decide ((s.core k).cycle < from_) || (match r with | .miss _ => true | _ => false)
  let noRd := (x.rq.find? fun e => held e.from_ (rdCheck s k e)).map RdE.po
  let noWr := (x.wq.find? fun e => e.kind == .stq || held e.from_ (wrCheck s k e)).map WrE.po
  let before (o : Option Nat) (po : Nat) : Bool := match o with | some n => decide (po < n) | none => true
  let alone (e : RdE) : Bool := e.kind != .amo && e.kind != .test && !x.marks.any fun m => decide (m.2 < e.po)
  (x.rq.any fun e => before noRd e.po && (alone e || before noWr e.po),
   x.wq.any fun e => before noRd e.po && before noWr e.po)

/-- Retires fences whose earlier events have been performed, with their pushes (R94, R97, R142). -/
def retireFences (s : State) (k : Nat) (c : Core) (sh : Bool) : Core :=
  let x := c.ctxOf sh
  let main := if sh then mainQueued s k else (false, false)
  let done (f : FenceE) : Bool :=
    (x.rq.all fun e => decide (f.po ≤ e.po)) && !main.1
      && (f.kind == 1 || ((x.wq.all fun e => decide (f.po ≤ e.po)) && !main.2))
  let r := x.fences.filter done
  let c := c.setCtxOf sh { x with fences := x.fences.filter fun f => !done f }
  r.foldl (fun c f => askPushes c .ap f.pushes) c

/-- The TLBI that a core's running context waits for, once the checker has let it out of the AP (R86, R117); `now` is the context's
cycle count. -/
def tlbiWait (c : Core) (now : Nat) : Option Word :=
  match c.held with
  | some p => if p.res.isSome ∨ now < p.from_ then none else match p.kind with
    | .tlbi v => some v
    | _ => none
  | none => none

/-- Removes the entries of a partition that `f` names from every TLB. -/
def tlbDrop (s : State) (pn : Nat) (f : TlbE → Bool) : State :=
  { s with tlb := s.tlb.map fun e => (e.1, e.2.filter fun t => !(t.part == pn && f t)) }

/-- TLBI_PAGE (R86): every die has removed the translations that cover the page. -/
def execTlbiPage (core : Nat) (s : State) : Out :=
  .next (match tlbiWait (s.core core) (ctxTime s core (s.core core).inHandler) with
    | some v =>
      if wbits v 0 2 = 0 then
        let page := wbits v 16 48 * 65536
        let s := tlbDrop s (partOfCore s core) fun t => decide (t.va ≤ page) && decide (page < t.va + t.size)
        s.setCore core ((s.core core).setHeld (some { kind := .tlbi v, res := some (.value 0) }))
      else s
    | none => s)

/-- TLBI_STAGE1 (R86): every die has removed the partition's stage-1 translations. -/
def execTlbiStage1 (core : Nat) (s : State) : Out :=
  .next (match tlbiWait (s.core core) (ctxTime s core (s.core core).inHandler) with
    | some v =>
      if wbits v 0 2 = 1 then
        let s := tlbDrop s (partOfCore s core) fun _ => true
        s.setCore core ((s.core core).setHeld (some { kind := .tlbi v, res := some (.value 0) }))
      else s
    | none => s)

/-- ECCINJ_ARM (R110): ECCINJ takes a value, unless it is one that `sysw` refuses. -/
def execEccinjArm (core : Nat) (v : BitVec 64) (s : State) : Out :=
  let c := s.core core
  .next (if sysBad 0x020 v then s else s.setCore core { c with sys := sysWrite c.sys 0x020 v })

end Sys2Proof.Machine
end

