-- ==== Sys2Proof/Machine/Stats.lean ====
section
/-!
DEFINITION. Statistics counters and their merge (03_numbers.md R72, R73).
-/

namespace Sys2Proof.Machine

/-- A 32-bit counter that saturates. -/
def satAdd (a b : Nat) : Nat := min (a + b) 0xFFFFFFFF

def Cnt.sat32 (a b : Cnt) : Cnt := ⟨satAdd a.sat b.sat, satAdd a.ftz b.ftz, satAdd a.nan b.nan, satAdd a.len b.len⟩

def Cnt.isZero (a : Cnt) : Bool := a.sat == 0 && a.ftz == 0 && a.nan == 0 && a.len == 0

/-- Counts events under a tensor id: in its slot, in a new one of 64, or in the overflow slot (R72). -/
def Stats.add (t : Stats) (tid : Nat) (n : Cnt) : Stats :=
  if n.isZero then t
  else if t.slots.any (fun e => e.1 == tid) then
    { t with slots := t.slots.map fun e => if e.1 = tid then (e.1, e.2.sat32 n) else e }
  else if t.slots.length < 64 then { t with slots := t.slots ++ [(tid, n)] }
  else { t with ovf := t.ovf.sat32 n, ovfUsed := true }

/-- Counts events on a core. -/
def countOn (c : Core) (tid : Nat) (n : Cnt) : Core := { c with stats := c.stats.add tid n }

/-- The counters of a tensor id on a core; zero where it has no slot. -/
def Stats.get (t : Stats) (tid : Nat) : Cnt :=
  match t.slots.find? (fun e => e.1 == tid) with
  | some e => e.2
  | none => {}

/-- An entry of the statistics area: TID, SAT, FTZ, NAN, LEN, reserved (R73). -/
def statEntry (tid : Nat) (n : Cnt) : List Byte :=
  leBytes 4 tid ++ leBytes 4 n.sat ++ leBytes 4 n.ftz ++ leBytes 4 n.nan ++ leBytes 4 n.len ++ leBytes 12 0

/-- Reads entry `i` of a statistics area given as bytes. -/
def statRead (area : List Byte) (i : Nat) : Nat × Cnt :=
  let w (o : Nat) : Nat := leNat ((area.drop (32 * i + o)).take 4)
  (w 0, ⟨w 4, w 8, w 12, w 16⟩)

/-- Replaces entry `i` of an area. -/
def statPut (area : List Byte) (i tid : Nat) (n : Cnt) : List Byte :=
  area.take (32 * i) ++ statEntry tid n ++ area.drop (32 * i + 32)

/-- Merges one slot into an area (R73): the matching entry, the lowest invalid one of 0 to 62, or the overflow entry 63. -/
def statMerge (area : List Byte) (tid : Nat) (n : Cnt) : List Byte :=
  let id := tid % 2 ^ 24 + 2 ^ 31
  match (List.range 63).find? (fun i => (statRead area i).1 == id) with
  | some i => statPut area i id ((statRead area i).2.sat32 n)
  | none =>
    match (List.range 63).find? (fun i => nbits (statRead area i).1 31 1 == 0) with
    | some i => statPut area i id ((statRead area i).2.sat32 n)
    | none => statPut area 63 0xFFFFFFFF ((statRead area 63).2.sat32 n)

/-- Merges all slots of a core. -/
def statMergeAll (area : List Byte) (t : Stats) : List Byte :=
  let a := t.slots.foldl (fun a e => statMerge a e.1 e.2) area
  if t.ovfUsed then statPut a 63 0xFFFFFFFF ((statRead a 63).2.sat32 t.ovf) else a

end Sys2Proof.Machine
end

