-- ==== Sys2Proof/Machine/Engine.lean ====
section
/-!
DEFINITION. What the asynchronous engines share (01_machine.md R11-R15, 13_bte.md R249): starting a command, its own
accesses, and the faults met while it runs.
-/

namespace Sys2Proof.Machine

/-- How an engine's access ends: the access may be made, with the translations held, or the command has stopped or waits. -/
inductive EngRes where
  | ok (s : State) (xl : List Xl)
  | stop (s : State)
  deriving DecidableEq, Repr

/-- A command meets a fault (R249): it retires with STATUS 2. -/
def engFault (s : State) (k : Nat) (m : Cmd) (cause bytes : Nat) : State := retireCmd s k m 2 cause bytes

/-- The translation of an engine's access met an invalid descriptor: the handler is asked, while the channel waits, or the
command retires with 0x21 (R249, 22_faults.md R356). -/
def engWalkFault (s : State) (k : Nat) (m : Cmd) (va : Word) (bytes : Nat) : State :=
  let c := s.core k
  if hasHandler s k then
    deliver (s.setCore k (c.putCmd { m with walk := true })) k c.main.unitPc 0x21 va (some m.seq) none c.main.pending
  else engFault s k m 0x21 bytes

/-- Updates an unretired command. -/
def setCmd (s : State) (k : Nat) (m : Cmd) : State := s.setCore k ((s.core k).putCmd m)

/-- An engine's access of `len` bytes for command `m` of core `k`. A stage-2 failure stops the region, and with it the command as it
stands (R247). -/
def engAccess (s : State) (k : Nat) (m : Cmd) (va : Word) (len : Nat) (n : Need) (bytes : Nat) : EngRes :=
  match engCheck s k va len n with
  | (s, .ok xl) => .ok s xl
  | (s, .miss v) => .stop (engWalkFault s k m (BitVec.ofNat 64 (max va.toNat (v * 65536))) bytes)
  | (s, .fault c _) => .stop (engFault s k m c bytes)
  | (s, .stage2 c g) => .stop (stage2Fail (setCmd s k { m with bytes := bytes }) k c g)

/-- A command whose work has ended is released; one that still works goes on (R14, R95). -/
def orRelease (s : State) (k seq : Nat) (go : Cmd → State) : State :=
  match (s.core k).cmd? seq with
  | some m => if m.ended.isSome then releaseCmd s k m else go m
  | none => s

/-- Engines that run one command at a time: an earlier one of the same engine, or the same channel, must have retired. -/
def inTurn (c : Core) (m : Cmd) : Bool :=
  match m.eng with
  | .link => true
  | e => ((c.cmds.takeWhile fun x => x.seq != m.seq).filter fun x => x.eng == e).isEmpty

/-- Cycles from the start of a command to its first fixed time: a colour phase of a Quern's sweep (20_quern.md R315). -/
def firstTime (m : Cmd) : Nat := if m.eng = .quern then 64 else 0

/-- ENGINE_COMMAND_START (R14, R95, R117): a command whose predecessors have retired starts at its engine. -/
def execEngineCommandStart (core seq : Nat) (s : State) : Out :=
  let c := s.core core
  .next (match c.cmd? seq with
    | none => s
    | some m =>
      let own := match m.eng with
        | .mx => false
        | .vx => false
        | _ => true
      if own && c.alive && !m.started && decide (m.at_ ≤ c.cycle) && cmdReady c m && inTurn c m then
        setCmd s core { m with started := true, due := s.clock + firstTime m }
      else s)

end Sys2Proof.Machine
end

