-- ==== Sys2Proof/Machine/Float.lean ====
section
/-!
DEFINITION. Number formats and rounding (03_numbers.md R52-R68). Arithmetic is exact on rational numbers; a result is
rounded once, by `rnd` (RND, R60) or `rndi` (RNDI, R63).
-/

namespace Sys2Proof.Machine

/-- An exact floating-point value: NaN, an infinity, or (-1)^neg * num / den * 2^e. -/
inductive FV where
  | nan
  | inf (neg : Bool)
  | fin (neg : Bool) (num den : Nat) (e : Int)
  deriving DecidableEq, Repr, Inhabited

/-- A floating-point format (R52). -/
structure Fmt where
  ebits : Nat
  fbits : Nat
  bias : Nat
  /-- E4M3: no infinity, the top exponent is ordinary but for the last fraction. -/
  tight : Bool
  deriving DecidableEq, Repr, Inhabited

def fp32 : Fmt := ⟨8, 23, 127, false⟩
def fp16 : Fmt := ⟨5, 10, 15, false⟩
def bf16 : Fmt := ⟨8, 7, 127, false⟩
def e4m3 : Fmt := ⟨4, 3, 7, true⟩
def e5m2 : Fmt := ⟨5, 2, 15, false⟩

/-- Exponent of the unit of a subnormal of the format: emin - p + 1. -/
def Fmt.unit (f : Fmt) : Int := 1 - (f.bias : Int) - (f.fbits : Int)

/-- The bits of the largest finite value. -/
def Fmt.maxBits (f : Fmt) : Nat :=
  if f.tight then 2 ^ (f.ebits + f.fbits) - 2 else (2 ^ f.ebits - 1) * 2 ^ f.fbits - 1

/-- The canonical NaN (R52, R53). -/
def Fmt.nanBits (f : Fmt) : Nat :=
  if f.tight then 2 ^ (f.ebits + f.fbits) - 1 else (2 ^ f.ebits - 1) * 2 ^ f.fbits + 2 ^ (f.fbits - 1)

/-- The bits of +Inf. -/
def Fmt.infBits (f : Fmt) : Nat := (2 ^ f.ebits - 1) * 2 ^ f.fbits

/-- The sign bit's weight. -/
def Fmt.signW (f : Fmt) : Nat := 2 ^ (f.ebits + f.fbits)

/-- The value of an encoding (R52). -/
def Fmt.val (f : Fmt) (bits : Nat) : FV :=
  let neg := nbits bits (f.ebits + f.fbits) 1 = 1
  let e := nbits bits f.fbits f.ebits
  let m := nbits bits 0 f.fbits
  if f.tight && e == 2 ^ f.ebits - 1 && m == 2 ^ f.fbits - 1 then .nan
  else if !f.tight && e == 2 ^ f.ebits - 1 then (if m = 0 then .inf neg else .nan)
  else if e = 0 then .fin neg m 1 f.unit
  else .fin neg (2 ^ f.fbits + m) 1 (f.unit + (e : Int) - 1)

/-- A value is a zero. -/
def FV.isZero : FV → Bool
  | .fin _ n _ _ => n == 0
  | _ => false

/-- The bits are those of a subnormal (R52). -/
def Fmt.isSub (f : Fmt) (bits : Nat) : Bool :=
  nbits bits f.fbits f.ebits == 0 && nbits bits 0 f.fbits != 0

/-- A rounded result and the statistics it counts (R60, R72). -/
structure Rnd where
  bits : Nat
  cnt : Cnt := {}
  deriving DecidableEq, Repr, Inhabited

/-- The control of a rounding: mode (R59), saturation, flush of subnormal results, and the SR draw of R61. -/
structure RC where
  mode : Nat := 0
  sat : Bool := false
  ftzo : Bool := false
  u : Nat := 0
  deriving DecidableEq, Repr, Inhabited

/-- Whether the value m + r/d (0 ≤ r < d) is rounded to the larger magnitude (R59, R61). -/
def roundUp (c : RC) (neg : Bool) (m r d : Nat) : Bool :=
  if r = 0 then false
  else match c.mode with
    | 0 => decide (d < 2 * r) || (decide (2 * r = d) && m % 2 == 1)
    | 1 => false
    | 2 => neg
    | 3 => !neg
    | 4 => decide (d ≤ 2 * r)
    | _ => decide (65536 ≤ r * 65536 / d + c.u)

/-- num / den * 2^(e - q) as a quotient of naturals. -/
def scaled (num den : Nat) (e q : Int) : Nat × Nat :=
  if q ≤ e then (num * 2 ^ (e - q).toNat, den) else (num, den * 2 ^ (q - e).toNat)

/-- floor(log2) of num / den * 2^e, for num and den positive. -/
def flog2 (num den : Nat) (e : Int) : Int :=
  let k : Int := (Nat.log2 num : Int) - (Nat.log2 den : Int)
  let p := scaled num den 0 k
  (if p.1 < p.2 then k - 1 else k) + e

/-- The encoding of sign and m * 2^q, m at most 2^(fbits + 1), q at least the format's unit. -/
def Fmt.enc (f : Fmt) (neg : Bool) (m : Nat) (q : Int) : Nat :=
  let s := if neg then f.signW else 0
  if m < 2 ^ f.fbits then s + m
  else
    let m' := if m = 2 ^ (f.fbits + 1) then 2 ^ f.fbits else m
    let q' := if m = 2 ^ (f.fbits + 1) then q + 1 else q
    s + ((q' - f.unit).toNat + 1) * 2 ^ f.fbits + (m' - 2 ^ f.fbits)

/-- RND of R60. -/
def rnd (f : Fmt) (c : RC) (x : FV) : Rnd :=
  match x with
  | .nan => ⟨f.nanBits, ⟨0, 0, 1, 0⟩⟩
  | .inf neg =>
    let s := if neg then f.signW else 0
    if c.sat then ⟨s + f.maxBits, ⟨1, 0, 0, 0⟩⟩
    else if f.tight then ⟨f.nanBits, ⟨0, 0, 1, 0⟩⟩
    else ⟨s + f.infBits, {}⟩
  | .fin neg num den e =>
    let s := if neg then f.signW else 0
    if num = 0 then ⟨s, {}⟩
    else
      let q := max (flog2 num den e - (f.fbits : Int)) f.unit
      let p := scaled num den e q
      let m0 := p.1 / p.2
      let m := if roundUp c neg m0 (p.1 % p.2) p.2 then m0 + 1 else m0
      let bigger :=
        match f.val f.maxBits with
        | .fin _ mm _ mq =>
          if q ≤ mq then decide (mm * 2 ^ (mq - q).toNat < m) else decide (mm < m * 2 ^ (q - mq).toNat)
        | _ => false
      if bigger then
        if c.sat || c.mode == 1 || (c.mode == 2 && !neg) || (c.mode == 3 && neg) then ⟨s + f.maxBits, ⟨1, 0, 0, 0⟩⟩
        else if f.tight then ⟨f.nanBits, ⟨0, 0, 1, 0⟩⟩
        else ⟨s + f.infBits, {}⟩
      else if m = 0 then ⟨s, {}⟩
      else if c.ftzo && decide (m < 2 ^ f.fbits) then ⟨s, ⟨0, 1, 0, 0⟩⟩
      else ⟨f.enc neg m q, {}⟩

/-- RNE32, RNE16, RNEBF of R74: mode RNE, no saturation, no flush. -/
def rne (f : Fmt) (x : FV) : Nat := (rnd f {} x).bits

/-- RNDI of R63: an n-bit integer and the events it counts. -/
def rndi (n : Nat) (signed : Bool) (c : RC) (x : FV) : Rnd :=
  let lo : Int := if signed then -((2 ^ (n - 1) : Nat) : Int) else 0
  let hi : Int := if signed then ((2 ^ (n - 1) : Nat) : Int) - 1 else ((2 ^ n : Nat) : Int) - 1
  match x with
  | .nan => ⟨0, ⟨0, 0, 1, 0⟩⟩
  | .inf neg => ⟨intBits n (if neg then lo else hi), ⟨1, 0, 0, 0⟩⟩
  | .fin neg num den e =>
    let p := scaled num den e 0
    let m0 := p.1 / p.2
    let m := if roundUp c neg m0 (p.1 % p.2) p.2 then m0 + 1 else m0
    let i : Int := if neg then -(m : Int) else (m : Int)
    if lo ≤ i ∧ i ≤ hi then ⟨intBits n i, {}⟩
    else if c.sat then ⟨intBits n (if i < lo then lo else hi), ⟨1, 0, 0, 0⟩⟩
    else ⟨intBits n i, {}⟩

/-- Nearest integer, ties to even (R74). -/
def rneInt (neg : Bool) (num den : Nat) : Int :=
  let m0 := num / den
  let m := if roundUp {} neg m0 (num % den) den then m0 + 1 else m0
  if neg then -(m : Int) else (m : Int)

/-- The exact value of an integer. -/
def FV.ofInt (i : Int) : FV := .fin (decide (i < 0)) i.natAbs 1 0

def FV.neg : FV → FV
  | .nan => .nan
  | .inf n => .inf !n
  | .fin n a b e => .fin (!n) a b e

def FV.abs : FV → FV
  | .nan => .nan
  | .inf _ => .inf false
  | .fin _ a b e => .fin false a b e

/-- Exact sum (R179): an exact zero sum of opposite signs is +0, and -0 under RDN. -/
def FV.add (rdn : Bool) : FV → FV → FV
  | .nan, _ => .nan
  | _, .nan => .nan
  | .inf a, .inf b => if a = b then .inf a else .nan
  | .inf a, _ => .inf a
  | _, .inf b => .inf b
  | .fin s n d e, .fin s' n' d' e' =>
    let m := min e e'
    let a : Nat := n * 2 ^ (e - m).toNat * d'
    let b : Nat := n' * 2 ^ (e' - m).toNat * d
    if s = s' then .fin s (a + b) (d * d') m
    else if a = b then .fin rdn 0 1 0
    else if b < a then .fin s (a - b) (d * d') m
    else .fin s' (b - a) (d * d') m

/-- Exact product; 0 x Inf is NaN (R64). -/
def FV.mul : FV → FV → FV
  | .nan, _ => .nan
  | _, .nan => .nan
  | .inf a, .inf b => .inf (a != b)
  | .inf a, .fin b n _ _ => if n = 0 then .nan else .inf (a != b)
  | .fin b n _ _, .inf a => if n = 0 then .nan else .inf (a != b)
  | .fin s n d e, .fin s' n' d' e' => .fin (s != s') (n * n') (d * d') (e + e')

/-- Strict order of values that are not NaN; -0 equals +0. -/
def FV.lt : FV → FV → Bool
  | .nan, _ => false
  | _, .nan => false
  | .inf a, .inf b => a && !b
  | .inf a, .fin _ _ _ _ => a
  | .fin _ _ _ _, .inf b => !b
  | .fin s n d e, .fin s' n' d' e' =>
    let m := min e e'
    let a : Int := ((n * 2 ^ (e - m).toNat * d' : Nat) : Int)
    let b : Int := ((n' * 2 ^ (e' - m).toNat * d : Nat) : Int)
    decide ((if s then -a else a) < (if s' then -b else b))

/-- Equality of values that are not NaN; -0 equals +0. -/
def FV.eqv (a b : FV) : Bool :=
  match a, b with
  | .nan, _ => false
  | _, .nan => false
  | _, _ => !(FV.lt a b) && !(FV.lt b a)

def FV.isNan : FV → Bool
  | .nan => true
  | _ => false

def FV.isNeg : FV → Bool
  | .nan => false
  | .inf n => n
  | .fin n _ _ _ => n

/-- min of R179: NaN if either is; min(-0, +0) = -0. -/
def FV.min (a b : FV) : FV :=
  if a.isNan || b.isNan then .nan
  else if FV.lt a b then a
  else if FV.lt b a then b
  else if a.isNeg then a else b

/-- max of R179. -/
def FV.max (a b : FV) : FV :=
  if a.isNan || b.isNan then .nan
  else if FV.lt a b then b
  else if FV.lt b a then a
  else if a.isNeg then b else a

/-- FTZI (R65): a subnormal becomes a zero of its sign, and is counted. -/
def flushIn (f : Fmt) (ftzi : Bool) (bits : Nat) : Nat × Cnt :=
  if ftzi && f.isSub bits then (if nbits bits (f.ebits + f.fbits) 1 = 1 then f.signW else 0, ⟨0, 1, 0, 0⟩)
  else (bits, {})

/-- Bits written without rounding (R179): the canonical NaN, and the flush of FTZO. -/
def writeExact (f : Fmt) (ftzo : Bool) (bits : Nat) : Rnd :=
  if (f.val bits).isNan then ⟨f.nanBits, ⟨0, 0, 1, 0⟩⟩
  else if ftzo && f.isSub bits then ⟨if nbits bits (f.ebits + f.fbits) 1 = 1 then f.signW else 0, ⟨0, 1, 0, 0⟩⟩
  else ⟨bits, {}⟩

/-- Pairs neighbours of a list by `op`; an element without a partner passes up unchanged (R68). -/
def pairLevel {α : Type} (op : α → α → α) : List α → List α
  | a :: b :: l => op a b :: pairLevel op l
  | l => l

/-- PAIRSUM of R68, one level for each unit of fuel. -/
def pairsum {α : Type} (op : α → α → α) (d : α) : Nat → List α → α
  | 0, l => l.headD d
  | k + 1, l => match l with
    | [] => d
    | [a] => a
    | l => pairsum op d k (pairLevel op l)

/-- FP32 addition rounded to nearest even. -/
def add32 (a b : Nat) : Nat := rne fp32 (FV.add false (fp32.val a) (fp32.val b))

/-- Addition in a format, rounded to nearest even. -/
def addRne (f : Fmt) (a b : Nat) : Nat := rne f (FV.add false (f.val a) (f.val b))

/-- Largest integer whose square is at most n, by its bits from position k down. -/
def isqrtFrom (n : Nat) : Nat → Nat → Nat
  | 0, r => r
  | k + 1, r => let t := r + 2 ^ k; isqrtFrom n k (if t * t ≤ n then t else r)

/-- Integer square root. -/
def isqrt (n : Nat) : Nat := isqrtFrom n (Nat.log2 n / 2 + 1) 0

end Sys2Proof.Machine
end

