-- ==== Sys2Proof/Machine/Bte.lean ====
section
/-!
DEFINITION. The block transfer engine (13_bte.md R235-R253): its words, the walk of its descriptor, and the steps that move
elements, deliver rows and write overlays.
-/

namespace Sys2Proof.Machine

/-- Class BT.COPY (R18). -/
def clBtCopy : Nat := 20
/-- Class BT.QNT. -/
def clBtQnt : Nat := 21

/-! ### The descriptor (R236-R238) -/

/-- A field of a descriptor: `len` bytes at offset `off`. -/
def btField (d : BitVec 1536) (off len : Nat) : Nat := wbits d (8 * off) (8 * len)

def btCtl (d : BitVec 1536) (lo len : Nat) : Nat := nbits (btField d 0x10 8) lo len
def btEw (d : BitVec 1536) : Nat := btCtl d 0 3
def btKind (d : BitVec 1536) : Nat := btCtl d 16 3
def btQsrc (d : BitVec 1536) : Nat := btCtl d 25 2
def btQnt (d : BitVec 1536) : Bool := btCtl d 27 1 == 1
def btSwz (d : BitVec 1536) : BitVec 4 := BitVec.ofNat 4 (btCtl d 36 4)
def btStid (d : BitVec 1536) : Nat := btCtl d 40 24
def btLen (d : BitVec 1536) : Nat := btField d 0x18 4
def btSlimj (d : BitVec 1536) : Nat := btField d 0x1C 4
/-- Iterations of level L; an unused level runs once (R236). -/
def btCount (d : BitVec 1536) (l : Nat) : Nat := max 1 (btField d (0x40 + 16 * l) 4)
def btSlim (d : BitVec 1536) (l : Nat) : Nat := btField d (0x44 + 16 * l) 4
def btSstr (d : BitVec 1536) (l : Nat) : Int := sint 32 (btField d (0x48 + 16 * l) 4)
def btDstr (d : BitVec 1536) (l : Nat) : Int := sint 32 (btField d (0x4C + 16 * l) 4)

/-- Points of the loop nest. -/
def btPoints (d : BitVec 1536) : Nat := [0, 1, 2, 3, 4, 5].foldl (fun a l => a * btCount d l) 1

/-- The index of level `l` at point `p`: level 5 advances fastest (R239). -/
def btIdx (d : BitVec 1536) (p l : Nat) : Nat :=
  p / (([0, 1, 2, 3, 4, 5].filter fun m => decide (l < m)).foldl (fun a m => a * btCount d m) 1) % btCount d l

/-- Source element of element j of point p (R239). -/
def btSe (d : BitVec 1536) (p j : Nat) : Int :=
  [0, 1, 2, 3, 4, 5].foldl (fun a l => a + (btIdx d p l : Int) * btSstr d l) ((btField d 0x20 4 + j : Nat) : Int)

/-- Destination element of element j of point p. -/
def btDe (d : BitVec 1536) (p j : Nat) : Int :=
  [0, 1, 2, 3, 4, 5].foldl (fun a l => a + (btIdx d p l : Int) * btDstr d l) ((btField d 0x24 4 + j : Nat) : Int)

/-- Element j of point p lies outside the source (R239). -/
def btOut (d : BitVec 1536) (p j : Nat) : Bool :=
  decide (btSlimj d ≤ j) || [0, 1, 2, 3, 4, 5].any fun l => btSlim d l != 0 && decide (btSlim d l ≤ btIdx d p l)

/-- Elements that move together: a byte of T3P digits, a block of BX8 elements (R239). -/
def btUnit (ew : Nat) : Nat := if ew = 5 then 5 else if ew = 6 then 24 else 1

/-- Bits of a unit. -/
def btUnitBits (ew : Nat) : Nat :=
  match ew with
  | 5 => 8
  | 6 => 200
  | e => 4 * 2 ^ e

/-- The bit position of element e from its base. -/
def btBit (ew : Nat) (e : Int) : Int := Int.fdiv e (btUnit ew) * (btUnitBits ew : Nat)

/-- Bytes that n elements take (R247). -/
def btBytes (ew n : Nat) : Nat := ceilDiv (n / btUnit ew * btUnitBits ew) 8

/-- Bits of the whole destination: LEN x w x points (R243). -/
def btTotalBits (d : BitVec 1536) : Nat := btLen d * btPoints d * btUnitBits (btEw d) / btUnit (btEw d)

/-- Bytes of the instruction memory of DKIND 3, 4, 5 (R244). -/
def btImSize (kind : Nat) : Nat := if kind = 3 then 65536 else if kind = 4 then 16384 else 49152

/-- Bytes of an instruction word or bundle of DKIND 3 to 5. -/
def btImWord (kind : Nat) : Nat := if kind = 5 then 12 else 4

/-! ### The checks of `btcfg` (R251) -/

/-- CTL fails a check (R237, R241, R243-R245): every check that involves a CTL field is reported at CTL. -/
def btCtlBad (d : BitVec 1536) (ch : Nat) : Bool :=
  let ew := btEw d
  let kind := btKind d
  let dst := btField d 0x08 8
  let size := btTotalBits d
  btCtl d 28 8 != 0 || btCtl d 19 6 != 0 || btCtl d 3 13 != 0 || ew == 7 || decide (6 ≤ kind) || btQsrc d == 3
    || decide (4096 < btBytes ew (btLen d))
    || ((kind == 1 || kind == 2) && (dst != 0 || size % 3072 != 0))
    || (decide (3 ≤ kind) && (size % 8 != 0 || decide (btImSize kind < dst + size / 8)
        || dst % btImWord kind != 0 || size / 8 % btImWord kind != 0))
    || (ch == 3 && kind != 0)
    || (btQnt d && (ew != 1 || kind != 0 || btLen d != 32 || btField d 0x90 4 != 32))

/-- A ring word that R238 refuses. -/
def ringBad (r : Nat) : Bool :=
  nbits r 28 36 != 0 || nbits r 21 3 != 0 || nbits r 0 4 != 0 || decide (8 < nbits r 24 4)
    || decide (2 ^ 21 < nbits r 4 17 * 16 + 16 * 2 ^ nbits r 24 4)

/-- Offsets whose fields fail the checks for 0x70, ascending. -/
def btBad70 (d : BitVec 1536) (ch : Nat) : List Nat :=
  ([(0x10, btCtlBad d ch), (0x18, btLen d == 0), (0x28, ringBad (btField d 0x28 8)),
    (0x30, btField d 0x30 16 != 0), (0xB8, btField d 0xB8 8 != 0)].filter fun e => e.2).map fun e => e.1

/-- Offsets whose fields are no multiple of the unit of EW 5 or 6 (R240), ascending. -/
def btBad41 (d : BitVec 1536) : List Nat :=
  let u := btUnit (btEw d)
  ([0x18, 0x1C, 0x20, 0x24].filter fun o => btField d o 4 % u != 0)
    ++ [0, 1, 2, 3, 4, 5].flatMap fun l =>
      [0x48 + 16 * l, 0x4C + 16 * l].filter fun o => sint 32 (btField d o 4) % (u : Nat) != 0

/-- The fault of a descriptor: its cause and the failing offset; of 0x70 and 0x41 that at the lower offset. -/
def btCheck (d : BitVec 1536) (ch : Nat) : Option (Nat × Nat) :=
  match btBad70 d ch, btBad41 d with
  | a :: _, b :: _ => if b < a then some (0x41, b) else some (0x70, a)
  | a :: _, [] => some (0x70, a)
  | [], b :: _ => some (0x41, b)
  | [], [] => none

/-- The offset of a VA in the current core's own scratchpad (R76 index 31 or its own rank). -/
def ownOffset (s : State) (va : Word) : Option Nat :=
  if vaSpace va ≠ 15 then none
  else match spadOf s s.turn.1 va with
    | some (k, off) => if k = s.turn.1 then some off else none
    | none => none

/-- The end of a `btcfg`: the descriptor is read and checked (R251). -/
def btcfgRead (ch off : Nat) (va : Word) (t : State) : Res :=
  let k := t.turn.1
  if vaPoison t k [] (ownVa off) 192 then .trap 0xB1 (some va)
  else
    let d : BitVec 1536 := BitVec.ofNat 1536 (leNat (spadBytes t k off 192))
    match btCheck d ch with
    | some (c, o) => .trap c (some (w64 o))
    | none => .done (t.modCur fun c => { c with bt := smPut c.bt ch d })

/-- `btcfg` (R251): it takes its operand as it issues, waits for the write queue, and then for its read. -/
def execBtcfg (h : Hdr) (c : BitVec 2) (a : BitVec 5) (s : State) : Out :=
  .next (apWord h { cls := clBtCopy, mainOnly := true, mem := true } (fun t =>
    match t.cur.held with
    | none =>
      let va := xr t a
      match ownOffset t va with
      | none => .trap 0x25 (some va)
      | some off =>
        if off % 64 ≠ 0 then .trap 0x23 (some va)
        else if 2 ^ 21 < off + 192 then .trap 0x25 (some va)
        else holdAt (.btcfg (if t.cur.main.wq = [] then some (t.cur.cycle + 6) else none) va) t
    | some p =>
      match p.kind with
      | .btcfg none va => if t.cur.main.wq = [] then holdAt (.btcfg (some (t.cur.cycle + 6)) va) t else .stall 0 t
      | .btcfg (some u) va =>
        if t.cur.cycle < u then .stall 0 t
        else btcfgRead c.toNat ((ownOffset t va).getD 0) va (t.modCur fun c => c.setHeld none)
      | _ => .stall 0 t) s)

/-! ### `btgo` and `btwait` (R252, R253) -/

/-- Elements of point `p` whose destination is written: on channel 3 those in range (R241). -/
def btWritten (d : BitVec 1536) (ch p : Nat) : Nat :=
  if ch = 3 then (if btOut d p 0 then 0 else min (btLen d) (btSlimj d)) else btLen d

/-- Bytes of `n` elements from element `e`: the offset from the base of the first, and how many. -/
def btSpan (ew : Nat) (e : Int) (n : Nat) : Int × Nat :=
  let b := btBit ew e
  let first := Int.fdiv b 8
  let last := Int.fdiv (b + ((n / btUnit ew * btUnitBits ew : Nat) : Int) - 1) 8
  (first, (last - first + 1).toNat)

/-- Blocks of an instruction memory that a command's destination meets (R244): 256 words or bundles each. -/
def btBlocks (d : BitVec 1536) (ch : Nat) : List Nat :=
  let blk : Int := ((256 * btImWord (btKind d) : Nat) : Int)
  let dst : Int := ((btField d 0x08 8 : Nat) : Int)
  (List.range (btPoints d)).flatMap fun p =>
    let n := btWritten d ch p
    if n = 0 then []
    else
      let sp := btSpan (btEw d) (btDe d p 0) n
      let lo := Int.fdiv (dst + sp.1) blk
      let hi := Int.fdiv (dst + sp.1 + (sp.2 : Int) - 1) blk
      ((List.range (hi - lo + 1).toNat).filter fun (i : Nat) => decide (0 ≤ lo + (i : Int))).map fun (i : Nat) => (lo + (i : Int)).toNat

/-- The place of a stream, first, and the bodies of its active loops, as ranges of words or bundles. -/
def liveRanges (c : Core) (kind : Nat) : List (Nat × Nat) :=
  let loops (m : SMap Loop) : List (Nat × Nat) :=
    (m.filter fun e => e.2.count != 0).map fun e => (e.2.start.toNat, e.2.stop.toNat)
  if kind = 3 then (c.main.pc.toNat, c.main.pc.toNat) :: loops c.main.loops
  else if kind = 4 then [(c.mx.mpc, c.mx.mpc)]
  else (c.vx.vpc.toNat, c.vx.vpc.toNat) :: loops c.vx.loops

/-- A range of words or bundles meets a block. -/
def meetsBlock (blk : Nat) (r : Nat × Nat) : Bool := decide (r.1 / 256 ≤ blk) && decide (blk ≤ r.2 / 256)

/-- A block is live (R244). -/
def blockLive (c : Core) (kind blk : Nat) : Bool := (liveRanges c kind).any (meetsBlock blk)

/-- A block that an overlay writes has become live: a loop's body meets it. DEDUCED (log entry 58): a stream whose PC has come to
the block fetches nothing there until the command retires, so the PC does not count. -/
def blockRuns (c : Core) (kind blk : Nat) : Bool := ((liveRanges c kind).drop 1).any (meetsBlock blk)

/-- An unretired overlay command targets the block of a word of the instruction memory of DKIND `kind` (R244). -/
def overlayTargets (c : Core) (kind addr : Nat) : Bool :=
  c.cmds.any fun m => match m.eng with
    | .bte ch => btKind m.op.desc == kind && (btBlocks m.op.desc ch).contains (addr / 256)
    | _ => false

/-- Scratchpad bytes behind a VA, as R17 compares them. -/
def footOf (s : State) (k : Nat) (va : Word) (len : Nat) (wr : Bool) : List Foot :=
  if len = 0 ∨ vaSpace va ≠ 15 then []
  else match spadOf s k va with
    | some (j, off) => [{ key := spadKey j off, len := len, va := va, wr := wr }]
    | none => []

/-- Bytes of a source element of quantise-on-copy (R245). -/
def qntSrcBytes (d : BitVec 1536) : Nat := if btQsrc d = 0 then 4 else 2

/-- A VA at an offset from the base in descriptor field `off`. -/
def btVa (d : BitVec 1536) (off : Nat) (rel : Int) : Word := w64 (btField d off 8) + wordOfInt rel

/-- Column code of (r, c) of a tile (R245): `p0` is the tile's first point, so that r = 0 there. -/
def qntColVa (d : BitVec 1536) (p0 r c : Nat) : Word :=
  btVa d 0xA0 (btDe d p0 0 + (r : Int) + (c : Int) * btDstr d 5)

/-- The scratchpad bytes of a command's source and destination (R17, R252); rings are not counted. -/
def btFoot (s : State) (k ch : Nat) (d : BitVec 1536) : List Foot :=
  (List.range (btPoints d)).flatMap fun p =>
    let src := if btOut d p 0 then 0 else min (btLen d) (btSlimj d)
    let n := btWritten d ch p
    let ew := btEw d
    if btQnt d then
      let w := qntSrcBytes d
      let t := p / 32
      let r := p % 32
      footOf s k (btVa d 0x00 (btSe d p 0 * (w : Int))) (w * src) false
        ++ footOf s k (btVa d 0x08 (btDe d p 0)) n true
        ++ ((List.range n).flatMap fun c => footOf s k (qntColVa d (t * 32) r c) 1 true)
        ++ footOf s k (btVa d 0xA8 ((2 * p : Nat) : Int)) 2 true
        ++ footOf s k (btVa d 0xB0 ((2 * p : Nat) : Int)) 2 true
    else
      let ss := btSpan ew (btSe d p 0) src
      let ds := btSpan ew (btDe d p 0) n
      (if src = 0 then [] else footOf s k (btVa d 0x00 ss.1) ss.2 false)
        ++ (if n = 0 ∨ btKind d ≠ 0 then [] else footOf s k (btVa d 0x08 ds.1) ds.2 true)

/-- A channel's commands that have not started (R235). -/
def btQueued (c : Core) (ch : Nat) : Nat := (c.cmds.filter fun m => m.eng == .bte ch && !m.started).length

/-- The class of a `btgo` on the current core's channel (R252). -/
def btgoClass (s : State) (ch : Nat) : Nat :=
  match smFind s.cur.bt ch with
  | some d => if btQnt d then clBtQnt else clBtCopy
  | none => clBtCopy

/-- `btgo` (R252). -/
def execBtgo (h : Hdr) (c : BitVec 2) (a : BitVec 5) (s : State) : Out :=
  let ch := c.toNat
  .next (apWord h { cls := btgoClass s ch, cmd := true } (fun t =>
    let ccw := xr t a
    if ccwBad ccw true then .trap 0x02 none
    else match smFind t.cur.bt ch with
      | none => .trap 0x70 none
      | some ds =>
        let foot := if t.cur.sys.det then btFoot t t.turn.1 ch ds else []
        if ch = 3 ∧ t.cur.sys.priv = false then .trap 0x08 none
        else if 3 ≤ btKind ds ∧ (btBlocks ds ch).any (blockLive t.cur (btKind ds)) then .trap 0x72 none
        else match overlapVa t.cur ccw (.bte ch) foot with
          | some va => .trap 0xE4 (some va)
          | none =>
            if 8 ≤ btQueued t.cur ch then .stall 8 t
            else .done (issueCmd t (.bte ch) ccw { op := 0, desc := ds } foot)) s)

/-- A `btwait` on the channels that `p` names (R253). -/
def apBtwait (h : Hdr) (p : Eng → Bool) (s : State) : State :=
  apWord h { cls := clBtCopy, mainOnly := true } (fun t => waitFor (engCount t.cur p == 0) t) s

/-- `btwait` (R253). -/
def execBtwait (h : Hdr) (c : BitVec 2) (s : State) : Out :=
  .next (apBtwait h (fun e => e == .bte c.toNat) s)

/-- `btwait.all` (R253). -/
def execBtwaitAll (h : Hdr) (s : State) : Out :=
  .next (apBtwait h (fun e => match e with | .bte _ => true | _ => false) s)

/-! ### Moving elements (R239-R244, R249) -/

/-- How a step of a command ends: it goes on, or it has stopped or waits. -/
inductive BtRes where
  | go (s : State) (m : Cmd)
  | stop (s : State)
  deriving DecidableEq, Repr

/-- 4-bit elements written so far. -/
def btNibs (m : Cmd) : Nat := m.sub.getD 0 0

/-- Counts n written elements (R247). -/
def btCountBytes (m : Cmd) (n : Nat) : Cmd :=
  if btEw m.op.desc = 0 then
    { m with sub := [btNibs m + n, m.sub.getD 1 0], bytes := ceilDiv (btNibs m + n) 2 }
  else { m with bytes := m.bytes + btBytes (btEw m.op.desc) n }

/-- What the youngest store that stands in the AP's write queue po-before a command writes to a scratchpad byte. -/
def pendingByte (s : State) (k : Nat) (m : Cmd) (key : Nat) : Option Byte :=
  ((s.core k).main.wq.filter fun e => decide (e.po < m.po)).foldl (fun a e =>
    match e.kind, (if vaSpace e.va = 15 then spadOf s k e.va else none) with
    | .st n, some (j, off) =>
      if spadKey j off ≤ key ∧ key < spadKey j off + n then some (BitVec.ofNat 8 (wbits e.data (8 * (key - spadKey j off)) 8)) else a
    | _, _ => a) none

/-- Source bytes as a command reads them: byte i takes the value of a store not yet performed where bit i of `early` is set, since
nothing orders the read after it (R99). -/
def btBytesAt (s : State) (k : Nat) (m : Cmd) (xl : List Xl) (early : Nat) (va : Word) (n : Nat) : List Byte :=
  (List.range n).map fun i =>
    let old := vaByte s k xl (va + w64 i)
    if early.testBit i then ((keyAt s k xl (va + w64 i)).bind (pendingByte s k m)).getD old else old

/-- Bytes that are read for a unit. -/
def btReadBytes (ew : Nat) : Nat := max 1 (btUnitBits ew / 8)

/-- Reads a source unit: its bytes, a 4-bit element in the low bits of one byte. -/
def btRead (s : State) (k : Nat) (m : Cmd) (early : Nat) (se : Int) : Sum State (State × List Byte) :=
  let d := m.op.desc
  let ew := btEw d
  let va := btVa d 0x00 (Int.fdiv (btBit ew se) 8)
  let n := btReadBytes ew
  match engAccess s k m va n { r := true } m.bytes with
  | .stop s => .inl s
  | .ok s xl =>
    if vaPoison s k xl va n then .inl (engFault s k m 0x71 m.bytes)
    else
      let bs := btBytesAt s k m xl early va n
      .inr (s, if ew = 0 then [BitVec.ofNat 8 (leNat bs / (if se % 2 = 0 then 1 else 16) % 16)] else bs)

/-- Writes bytes with a tag from a VA upwards. -/
def storeTag (s : State) (k : Nat) (xl : List Xl) (tag : BitVec 4) (va : Word) : List Byte → State
  | [] => s
  | b :: bs => storeTag (vaWrite s k xl tag va b) k xl tag (va + 1) bs

/-- Replaces one half of a byte. -/
def nibInto (old : Byte) (hi : Bool) (v : Byte) : Byte :=
  BitVec.ofNat 8 (if hi then old.toNat % 16 + v.toNat % 16 * 16 else old.toNat / 16 * 16 + v.toNat % 16)

/-- Writes a unit to memory (R240, R242). -/
def btWriteMem (s : State) (k : Nat) (m : Cmd) (de : Int) (bs : List Byte) : BtRes :=
  let d := m.op.desc
  let ew := btEw d
  let va := btVa d 0x08 (Int.fdiv (btBit ew de) 8)
  match engAccess s k m va bs.length { w := true } m.bytes with
  | .stop s => .stop s
  | .ok s xl =>
    let bs := if ew = 0 then [nibInto (vaByte s k xl va) (de % 2 != 0) (bs.headD 0)] else bs
    .go (storeTag s k xl (btSwz d) va bs) (btCountBytes m (btUnit ew))

/-- The lowest destination element of a command. -/
def btMinDe (d : BitVec 1536) : Int :=
  [0, 1, 2, 3, 4, 5].foldl (fun a l => a + min 0 ((btCount d l - 1 : Nat) * btDstr d l)) ((btField d 0x24 4 : Nat) : Int)

/-- The number of the first destination row, and so of row 0 of `Cmd.part` (R243). -/
def btRow0 (d : BitVec 1536) : Int := Int.fdiv (btBit (btEw d) (btMinDe d)) 3072

/-- The 4-bit parts of a unit, lowest first. -/
def btNibbles (ew : Nat) (bs : List Byte) : List (BitVec 4) :=
  if ew = 0 then [BitVec.ofNat 4 (bs.headD 0).toNat]
  else bs.flatMap fun b => [BitVec.ofNat 4 b.toNat, BitVec.ofNat 4 (b.toNat / 16)]

/-- Collects a unit for a destination row (R243). -/
def btCollect (m : Cmd) (de : Int) (bs : List Byte) : Cmd :=
  let d := m.op.desc
  let at_ := (Int.fdiv (btBit (btEw d) de) 4 - btRow0 d * 768).toNat
  { m with part := (btNibbles (btEw d) bs).zipIdx.foldl (fun p e => smPut p (at_ + e.2) e.1) m.part }

/-- Every byte of destination row `r` is present. -/
def btRowFull (m : Cmd) (r : Nat) : Bool :=
  (m.part.filter fun e => decide (768 * r ≤ e.1) && decide (e.1 < 768 * r + 768)).length == 768

/-- Elements of a command. -/
def btTotal (d : BitVec 1536) : Nat := btLen d * btPoints d

/-- Rows that the destination may reach. -/
def btRowCount (m : Cmd) : Nat := match m.part.getLast? with | some e => e.1 / 768 + 1 | none => 0

/-- The next row to enter: in row order; once every element has moved, the next complete one. -/
def btNextRow (m : Cmd) : Option Nat :=
  let next := m.sub.getD 1 0
  if m.pos < btTotal m.op.desc then (if btRowFull m next then some next else none)
  else ((List.range (btRowCount m)).filter fun r => decide (next ≤ r)).find? (btRowFull m)

/-- The command has passed `n` elements, unless it has stopped or waits. -/
def BtRes.past (n : Nat) : BtRes → BtRes
  | .go s m => .go s { m with pos := m.pos + n }
  | .stop s => .stop s

/-- Moves one unit of a command whose destination is memory or a queue (R239, R241). -/
def btStep (s : State) (k ch : Nat) (m : Cmd) (early : Nat) : BtRes :=
  let d := m.op.desc
  let ew := btEw d
  let p := m.pos / btLen d
  let j := m.pos % btLen d
  let put (s : State) (bs : List Byte) : BtRes :=
    BtRes.past (btUnit ew)
      (if btKind d = 0 then btWriteMem s k m (btDe d p j) bs else .go s (btCollect m (btDe d p j) bs))
  if btOut d p j then
    if ch = 3 then BtRes.past (btUnit ew) (.go s m) else put s (List.replicate (btReadBytes ew) 0)
  else match btRead s k m early (btSe d p j) with
    | .inl s => .stop s
    | .inr (s, bs) => put s bs

/-! ### Quantise-on-copy (R245, R246) -/

/-- Element magnitudes of a group that are finite, largest last seen first. -/
def qntMax (xs : List FV) : FV :=
  xs.foldl (fun a x => match x with
    | .fin _ n d e => if FV.lt a (.fin false n d e) then .fin false n d e else a
    | _ => a) (.fin false 0 1 0)

/-- The scale of a group: RND(A / 127, FP16, RNE) with saturation. -/
def qntScale (xs : List FV) : Rnd :=
  rnd fp16 { sat := true } (match qntMax xs with
    | .fin n a d e => .fin n a (d * 127) e
    | x => x)

/-- The code of a value under a scale, and what it counts. -/
def qntCode (scale : Nat) (x : FV) : Nat × Cnt :=
  match x with
  | .nan => (128, ⟨0, 0, 1, 0⟩)
  | .inf neg => (if neg then 1 else 255, ⟨1, 0, 0, 0⟩)
  | .fin neg n d e =>
    match fp16.val scale with
    | .fin _ sn sd se =>
      if sn = 0 then (128, if n = 0 then {} else ⟨0, 1, 0, 0⟩)
      else
        let q := scaled (n * sd) (d * sn) (e - se) 0
        let v := rneInt neg q.1 q.2
        if v < -127 then (1, ⟨1, 0, 0, 0⟩)
        else if 127 < v then (255, ⟨1, 0, 0, 0⟩)
        else ((v + 128).toNat, {})
    | _ => (128, {})

/-- A group's scale, codes and counts. -/
def qntGroup (xs : List FV) : Nat × List Nat × Cnt :=
  let s := qntScale xs
  let cs := xs.map (qntCode s.bits)
  (s.bits, cs.map fun e => e.1, cs.foldl (fun a e => a.plus e.2) s.cnt)

/-- Source format of quantise-on-copy. -/
def qntFmt (d : BitVec 1536) : Fmt := if btQsrc d = 0 then fp32 else if btQsrc d = 1 then fp16 else bf16

/-- Reads the elements of a tile, row by row: `i` of 1,024 are left (R245). -/
def qntRead (s : State) (k : Nat) (m : Cmd) (early p0 : Nat) : Nat → List FV → Sum State (State × List FV)
  | 0, acc => .inr (s, acc)
  | n + 1, acc =>
    let d := m.op.desc
    let i := 1023 - n
    let p := p0 + i / 32
    if btOut d p (i % 32) then qntRead s k m early p0 n (acc ++ [.fin false 0 1 0])
    else
      let w := qntSrcBytes d
      let va := btVa d 0x00 (btSe d p (i % 32) * (w : Int))
      match engAccess s k m va w { r := true } m.bytes with
      | .stop s => .inl s
      | .ok s xl =>
        if vaPoison s k xl va w then .inl (engFault s k m 0x71 m.bytes)
        else qntRead s k m early p0 n (acc ++ [(qntFmt d).val (leNat (btBytesAt s k m xl (early >>> (w * i)) va w))])

/-- Makes writes in order, counting their bytes. Each is its VA and its bytes; those still to be made stand in `Cmd.memo`, behind the
events that the tile counts, so that a command that has waited for a walk goes on where it stood (R249). -/
def btWrites (s : State) (k : Nat) (cnt : List Nat) : Cmd → List (List Nat) → BtRes
  | m, [] => .go s { m with memo := [] }
  | m, w :: rest =>
    let va := w64 (w.headD 0)
    let bs : List Byte := w.tail.map (BitVec.ofNat 8)
    let m := { m with memo := cnt :: w :: rest }
    match engAccess s k m va bs.length { w := true } m.bytes with
    | .stop s => .stop s
    | .ok s xl => btWrites (storeTag s k xl (btSwz m.op.desc) va bs) k cnt { m with bytes := m.bytes + bs.length } rest

/-- The writes of a quantised tile are made; then its events count. -/
def qntPut (s : State) (k : Nat) (m : Cmd) (cnt : List Nat) (ws : List (List Nat)) : BtRes :=
  let n (i : Nat) : Nat := cnt.getD i 0
  match BtRes.past 1024 (btWrites s k cnt m ws) with
  | .stop s => .stop s
  | .go s m => .go (s.setCore k (countOn (s.core k) (btStid m.op.desc) ⟨n 0, n 1, n 2, n 3⟩)) m

/-- Quantises the next tile (R245, R246), or goes on with one of which writes are left. -/
def qntTile (s : State) (k ch : Nat) (m : Cmd) (early : Nat) : BtRes :=
  match m.memo with
  | cnt :: ws => qntPut s k m cnt ws
  | [] =>
  let d := m.op.desc
  let t := m.pos / 1024
  let p0 := t * 32
  match qntRead s k m early p0 1024 [] with
  | .inl s => .stop s
  | .inr (s, xs) =>
    let x (r c : Nat) : FV := xs.getD (32 * r + c) .nan
    let rows := (List.range 32).map fun r => qntGroup ((List.range 32).map fun c => x r c)
    let cols := (List.range 32).map fun c => qntGroup ((List.range 32).map fun r => x r c)
    let code (g : List (Nat × List Nat × Cnt)) (i j : Nat) : List Byte :=
      match g[i]? with
      | some e => leBytes 1 (e.2.1.getD j 0)
      | none => [0]
    let codes := (List.range 1024).flatMap fun i =>
      let r := i / 32
      let c := i % 32
      if ch = 3 ∧ btOut d (p0 + r) c then []
      else [(btVa d 0x08 (btDe d (p0 + r) c), code rows r c), (qntColVa d p0 r c, code cols c r)]
    let scales (off : Nat) (g : List (Nat × List Nat × Cnt)) : List (Word × List Byte) :=
      g.zipIdx.map fun e => (btVa d off ((2 * (p0 + e.2) : Nat) : Int), leBytes 2 e.1.1)
    let cnt : Cnt := (rows ++ cols).foldl (fun a e => a.plus e.2.2) {}
    qntPut s k m [cnt.sat, cnt.ftz, cnt.nan, cnt.len]
      ((codes ++ scales 0xA8 rows ++ scales 0xB0 cols).map fun e => e.1.toNat :: e.2.map BitVec.toNat)

/-! ### The steps -/

/-- The channel of a BTE command. -/
def btChan (m : Cmd) : Nat := match m.eng with | .bte ch => ch | _ => 0

/-- The started command of a core's BTE with a number, free to go on. -/
def btRunning (s : State) (k seq : Nat) : Option Cmd :=
  match (s.core k).cmd? seq with
  | some m =>
    match m.eng with
    | .bte _ => if (s.core k).alive && m.started && !m.walk && m.ended.isNone then some m else none
    | _ => none
  | none => none

/-- Bits of `early` that a move uses up: one for each byte read. -/
def btEarlyBits (d : BitVec 1536) : Nat := if btQnt d then 1024 * qntSrcBytes d else btReadBytes (btEw d)

/-- Moves up to `n` units of a command, ending early where a row waits to enter its queue (R243). -/
def btMove (s : State) (k : Nat) : Cmd → Nat → Nat → BtRes
  | m, _, 0 => .go s m
  | m, early, n + 1 =>
    if btTotal m.op.desc ≤ m.pos ∨ 3 ≤ btKind m.op.desc ∨ (btNextRow m).isSome then .go s m
    else match (if btQnt m.op.desc then qntTile s k (btChan m) m early else btStep s k (btChan m) m early) with
      | .stop s => .stop s
      | .go s m => btMove s k m (early >>> btEarlyBits m.op.desc) n

/-- The command moves up to n more units, and retires when it is complete. -/
def btGoOn (s : State) (k : Nat) (m : Cmd) (n early : Nat) : State :=
  match btMove s k m early n with
  | .stop s => s
  | .go s m =>
    if btTotal m.op.desc ≤ m.pos ∧ (btNextRow m).isNone then retireCmd (setCmd s k m) k m 1 0 m.bytes
    else setCmd s k m

/-- BTE_COMMAND_RETIRE (R247, R248): the command moves up to `units` more units, and retires when it is complete. The bits of `early` say,
byte by byte of what it reads, where an unordered store of the AP is read before it is performed (R99). -/
def execBteCommandRetire (core seq : Nat) (mv : BteMove) (s : State) : Out :=
  .next (match btRunning s core seq with
    | none => orRelease s core seq fun _ => s
    | some m => btGoOn s core m mv.units mv.early)

/-- A row of 768 collected 4-bit parts. -/
def btRowOf (m : Cmd) (r : Nat) : Row :=
  let l := m.part.filter fun e => decide (768 * r ≤ e.1) && decide (e.1 < 768 * r + 768)
  BitVec.ofNat 3072 (l.foldr (fun e a => e.2.toNat + 16 * a) 0)

/-- BTE_ROW_ENTRY (R243): the next complete row enters its queue, which is full at 64 with the entries that `ldq` words
have reserved. -/
def execBteRowEntry (core seq : Nat) (s : State) : Out :=
  .next (match btRunning s core seq with
    | none => s
    | some m =>
      match btNextRow m with
      | none => s
      | some r =>
        let c := s.core core
        let lqm := btKind m.op.desc == 2
        let have_ := (if lqm then c.q.lqm.length else c.q.lqv.length) + reserved c lqm false
        if c.frozen || decide (64 ≤ have_) then s
        else
          let row : QRow := { data := btRowOf m r, tag := btSwz m.op.desc }
          let q := if lqm then { c.q with lqm := c.q.lqm ++ [row] } else { c.q with lqv := c.q.lqv ++ [row] }
          setCmd (s.setCore core { c with q := q }) core
            { m with sub := [m.sub.getD 0 0, r + 1], bytes := m.bytes + 384,
                     part := m.part.filter fun e => decide (768 * r + 768 ≤ e.1) })

/-- One byte of an instruction memory; a byte outside it is not written (log entry 10). -/
def imByte (c : Core) (kind : Nat) (off : Int) (b : Byte) : Core :=
  if off < 0 ∨ ((btImSize kind : Nat) : Int) ≤ off then c
  else
    let o := off.toNat
    let st : Stream := if kind = 3 then .ap else if kind = 4 then .mx else .vx
    let c := { c with imBad := c.imBad.filter fun e => !(e.1 == st && e.2 == o / btImWord kind) }
    if kind = 3 then { c with apIm := smSet 0 c.apIm o b }
    else if kind = 4 then { c with mxIm := smSet 0 c.mxIm o b }
    else { c with vxIm := smSet 0 c.vxIm o b }

/-- The byte of an instruction memory at an offset. -/
def imOld (c : Core) (kind : Nat) (off : Int) : Byte :=
  if off < 0 then 0
  else if kind = 3 then smGet 0 c.apIm off.toNat
  else if kind = 4 then smGet 0 c.mxIm off.toNat
  else smGet 0 c.vxIm off.toNat

/-- BTE_OVERLAY_WRITE (R244): the command writes its next unit into the instruction memory, unless its block has become live; byte i of
the unit is read as bit i of `early` says (R99). -/
def execBteOverlayWrite (core : Nat) (cmd : EarlyTurn) (s : State) : Out :=
  .next (match btRunning s core cmd.of with
    | none => s
    | some m =>
      let d := m.op.desc
      let kind := btKind d
      if kind < 3 ∨ btTotal d ≤ m.pos then s
      else
        let ew := btEw d
        let p := m.pos / btLen d
        let j := m.pos % btLen d
        let off : Int := (btField d 0x08 8 : Int) + Int.fdiv (btBit ew (btDe d p j)) 8
        let src : Sum State (State × List Byte) :=
          if btOut d p j then .inr (s, List.replicate (btReadBytes ew) 0) else btRead s core m cmd.early (btSe d p j)
        match src with
        | .inl s => s
        | .inr (s, bs) =>
          let c := s.core core
          if (List.range bs.length).any (fun i => decide (0 ≤ off + (i : Int))
              && blockRuns c kind ((off + (i : Int)).toNat / (256 * btImWord kind))) then engFault s core m 0x72 m.bytes
          else
            let bs := if ew = 0 then [nibInto (imOld c kind off) (btDe d p j % 2 != 0) (bs.headD 0)] else bs
            let c := bs.zipIdx.foldl (fun c e => imByte c kind (off + (e.2 : Int)) e.1) c
            setCmd (s.setCore core c) core (btCountBytes { m with pos := m.pos + btUnit ew } (btUnit ew)))

end Sys2Proof.Machine
end

