-- ==== Sys2Proof/Machine/Grt.lean ====
section
/-!
DEFINITION. The Graticule function and its draws (16_seed.md R272, 03_numbers.md R74), and CRC-32C.
-/

namespace Sys2Proof.Machine

/-- One round of the Graticule function (R272). -/
def grtRound (k : Lane) (i : Nat) (ab : Lane × Lane) : Lane × Lane :=
  let a := (rotr32 ab.1 9 + ab.2) ^^^ k ^^^ BitVec.ofNat 32 (0x3C6E0000 + i)
  (a, rotl32 ab.2 5 ^^^ a)

/-- GRT(K, T, S, I) of R272, by its pseudocode (log entry 6: three rows of R274 disagree with it). -/
def grt (key : Word) (tid : BitVec 24) (st : BitVec 8) (idx : Lane) : Lane :=
  let k0 : Lane := key.extractLsb' 0 32
  let k1 : Lane := key.extractLsb' 32 32
  let b : Lane := st ++ tid
  let r := grtRound k0 0 (idx, b)
  let r := grtRound k1 1 r
  let r := grtRound k0 2 r
  let r := grtRound k1 3 r
  let r := grtRound k0 4 r
  (grtRound k1 5 r).2

/-- UNI16(h) = h[15:0]. -/
def uni16 (h : Lane) : Nat := wbits h 0 16
/-- UNI24(h) = h[31:8]. -/
def uni24 (h : Lane) : Nat := wbits h 8 24
/-- RAD(h) = 1 - 2 h[31]. -/
def rad (h : Lane) : Int := 1 - 2 * (wbits h 31 1 : Int)
/-- BIN8(h) = popcount(h[31:24]) - popcount(h[23:16]). -/
def bin8 (h : Lane) : Int := (popcount 8 (wbits h 24 8) : Int) - (popcount 8 (wbits h 16 8) : Int)

/-- The CRC register after n more bits. -/
def crcBits : Nat → Lane → Lane
  | 0, c => c
  | n + 1, c => crcBits n (if c.getLsbD 0 then (c >>> 1) ^^^ 0x82F63B78 else c >>> 1)

/-- The CRC register after more bytes. -/
def crcBytes : List Byte → Lane → Lane
  | [], c => c
  | b :: bs, c => crcBytes bs (crcBits 8 (c ^^^ b.zeroExtend 32))

/-- CRC-32C (Castagnoli) of bytes: reflected, initial value and final inversion all ones. PRESUMED (log entry 7): the
standard's parameters, which spec/ cites by name only. -/
def crc32c (bs : List Byte) : Lane := ~~~ (crcBytes bs 0xFFFFFFFF)

/-- The seed of SEQ s under a run key (R277). -/
def seedOf (rk : Word) (s : Word) : Word :=
  grt rk 0xFFFFFF 7 (s.extractLsb' 0 32) ++ grt rk 0xFFFFFE 7 (s.extractLsb' 0 32)

/-- A draw of a seed's noise, RAD or BIN8 (R216). -/
def draw (binary : Bool) (h : Lane) : Int := if binary then bin8 h else rad h

end Sys2Proof.Machine
end

