-- ==== Sys2Proof/Machine/Weir.lean ====
section
/-!
DEFINITION. The reserving loop engine (18_weir.md R291-R308): its words and its barrier.
-/

namespace Sys2Proof.Machine

/-- Class WL (R18). -/
def clWl : Nat := 22

/-- The groups that meet at a region's barriers: its members, or those of each copy of a dual run (21_scheduler.md R349). -/
def groupsOf (g : Region) : List (Option Nat × List Nat) :=
  if g.copies.isEmpty then [(none, g.members)]
  else ((tabulate (fun k => (k, nth {} g.copies k)) g.copies.length).filter fun e => !e.2.finished && !e.2.cores.isEmpty).map fun e =>
    (some e.1, e.2.cores)

/-- What each core of a group is held at, where all are held at a word that waits for its answer. -/
def groupHeld (s : State) (grp : List Nat) : Option (List (Nat × PendKind)) :=
  grp.foldr (fun k acc =>
    match acc, (s.core k).asks with
    | some l, some p => if (s.core k).alive then some ((k, p) :: l) else none
    | _, _ => none) (some [])

/-- Gives a held core its answer. -/
def answer (s : State) (k : Nat) (r : PendRes) : State :=
  let c := s.core k
  match c.pend with
  | some p => s.setCore k { c with pend := some { p with res := some r } }
  | none => s

/-- Every core of a group gets the same fault. -/
def answerAll (s : State) (grp : List Nat) (r : PendRes) : State := grp.foldl (fun s k => answer s k r) s

/-- The loop a core's group has open. -/
def loopOf (g : Region) (copy : Option Nat) : Option WLoop :=
  match copy with
  | some k => (g.copies[k]?).bind Copy.loop
  | none => g.loop

def setLoop (s : State) (rid : Nat) (copy : Option Nat) (l : Option WLoop) : State :=
  match s.region? rid with
  | none => s
  | some g =>
    match copy with
    | some k => s.setRegion rid { g with copies := g.copies.modify k fun c => { c with loop := l } }
    | none => s.setRegion rid { g with loop := l }

/-- The window of the next pass (R293): the uncommitted indices, then fresh ones from `e`, while fewer than W and no core
gets a 257th slot. The result is the window and the smallest index never dealt. -/
def formWindow (n w c : Nat) : Nat → List Nat → Nat → List Nat → List Nat × Nat
  | 0, acc, e, _ => (acc, e)
  | fuel + 1, acc, e, old =>
    let next := match old with
      | i :: _ => i
      | [] => e
    if n ≤ next ∨ w ≤ acc.length ∨ 256 ≤ (acc.filter fun i => i % c == next % c).length then (acc, e)
    else match old with
      | _ :: rest => formWindow n w c fuel (acc ++ [next]) e rest
      | [] => formWindow n w c fuel (acc ++ [next]) (e + 1) []

/-- A core's slots in a window: its indices, ascending (R293). -/
def slotsOf (window : List Nat) (c rank : Nat) : List Nat := window.filter fun i => i % c == rank

/-- Deals a window to the cores of a group; each gets its slot count as the answer, with bit 63 for DONE (R294, R301). -/
def dealWindow (s : State) (grp : List Nat) (window : List Nat) (wst : BitVec 3) (lid : BitVec 16) : State :=
  grp.foldl (fun s k =>
    let c := s.core k
    let slots := slotsOf window grp.length c.rank
    let wl := { c.wl with
      wst := wst, wlid := lid, wn := slots.length, wslot := none, wdone := 0
      widx := slots.zipIdx.foldl (fun m e => smSet 0 m e.2 (BitVec.ofNat 48 e.1)) [] }
    let s := s.setCore k { c with wl := wl }
    answer s k (.value (w64 (slots.length + (if wst = 3 then 2 ^ 63 else 0))))) s

/-- Every member's WST becomes BROKEN (R294, R296). -/
def breakAll (s : State) (grp : List Nat) : State :=
  grp.foldl (fun s k => let c := s.core k; s.setCore k { c with wl := { c.wl with wst := 4 } }) s

/-- The rank of the lowest core of a group whose word differs from that of the first. -/
def firstDiffering (s : State) (l : List (Nat × PendKind)) (same : PendKind → PendKind → Bool) : Option Nat :=
  match l with
  | [] => none
  | (_, p) :: rest => (rest.find? fun e => !same p e.2).map fun e => (s.core e.1).rank

/-- Two members stand at the same kind of Weir word. -/
def sameWlWord : PendKind → PendKind → Bool
  | .wlOpen _ _ _, .wlOpen _ _ _ => true
  | .wlRound, .wlRound => true
  | .wlClose, .wlClose => true
  | _, _ => false

def isWlWord : PendKind → Bool
  | .wlOpen _ _ _ => true
  | .wlRound => true
  | .wlClose => true
  | _ => false

/-- The barrier of `wl.open` (R300). -/
def openBarrier (s : State) (rid : Nat) (copy : Option Nat) (grp : List Nat) (l : List (Nat × PendKind)) : State :=
  match firstDiffering s l (fun a b => a == b), l with
  | some r, _ => answerAll s grp (.fault 0x81 (w64 r))
  | none, (_, .wlOpen lid w n) :: _ =>
    let f := formWindow n w grp.length (w + 1) [] 0 []
    let s := setLoop s rid copy (some { lid := lid, n := n, w := w, window := f.1, e := f.2 })
    dealWindow s grp f.1 1 (BitVec.ofNat 16 lid)
  | none, _ => s

/-- The barrier of `wl.round` (R294, R296, R301). -/
def roundBarrier (s : State) (rid : Nat) (copy : Option Nat) (grp : List Nat) (lp : WLoop) : State :=
  let c0 := s.core (grp.headD 0)
  if c0.wl.wst = 1 then
    grp.foldl (fun s k =>
      let c := s.core k
      answer (s.setCore k { c with wl := { c.wl with wst := 2, wslot := none } }) k (.value (w64 c.wl.wn))) s
  else
    let marked (i : Nat) : Bool :=
      grp.any fun k =>
        let c := s.core k
        (slotsOf lp.window grp.length c.rank).zipIdx.any fun e => e.1 == i && c.wl.wdone.getLsbD e.2
    let b := lp.window.headD 0
    let alias_ := grp.filterMap fun k => (s.core k).wl.walias.map fun va => (k, va)
    if !marked b then answerAll (breakAll s grp) grp (.fault 0x81 (w64 b))
    else match alias_ with
      | (k0, _) :: _ =>
        grp.foldl (fun s k =>
          answer s k (match (s.core k).wl.walias with
            | some va => .fault 0x80 va
            | none => .fault 0x81 (w64 (s.core k0).rank))) (breakAll s grp)
      | [] =>
        let f := formWindow lp.n lp.w grp.length (lp.w + 1) [] lp.e (lp.window.filter fun i => !marked i)
        let s := setLoop s rid copy (some { lp with window := f.1, e := f.2 })
        dealWindow s grp f.1 (if f.1.isEmpty then 3 else 1) (BitVec.ofNat 16 lp.lid)

/-- A core's earlier AP memory events have been performed (R295). -/
def apQuiet (c : Core) : Bool := c.main.rq.isEmpty && c.main.wq.isEmpty

/-- The member stands at a Weir barrier word, its earlier memory events performed: it has arrived (R295). -/
def wlArrived (c : Core) : Bool := c.asks.any isWlWord && apQuiet c

/-- The core cycles within which a barrier completes after its last arrival: on one die, and on several (R295). -/
def wlBound : List Nat → Nat
  | [] => 40
  | k :: rest => if rest.all fun j => dieOf j == dieOf k then 40 else 160

/-- The bound on the barrier of some group of a region has come: each of its members has counted it since its own arrival (R295). -/
def wlDue (s : State) (g : Region) : Bool :=
  (groupsOf g).any fun grp => !grp.2.isEmpty
    && grp.2.all fun k => wlArrived (s.core k) && decide (wlBound grp.2 ≤ (s.core k).wl.wait)

/-- WL_BARRIER_COMPLETE (R294-R296): a group whose members all stand at a Weir barrier word, their earlier memory events
performed, meets. -/
def execWlBarrierComplete (rid : Nat) (s : State) : Out :=
  .next (match s.region? rid with
    | none => s
    | some g =>
      (groupsOf g).foldl (fun s grp =>
        match groupHeld s grp.2 with
        | none => s
        | some l =>
          if l.isEmpty || !l.all (fun e => isWlWord e.2 && apQuiet (s.core e.1)) then s
          else match firstDiffering s l sameWlWord with
            | some r => answerAll (breakAll s grp.2) grp.2 (.fault 0x81 (w64 r))
            | none =>
              match l with
              | (_, .wlOpen _ _ _) :: _ => openBarrier s rid grp.1 grp.2 l
              | (_, .wlRound) :: _ =>
                match loopOf g grp.1 with
                | some lp => roundBarrier s rid grp.1 grp.2 lp
                | none => s
              | (_, .wlClose) :: _ =>
                grp.2.foldl (fun s k =>
                  let c := s.core k
                  answer (s.setCore k { c with wl := { c.wl with wst := 0, wslot := none } }) k (.value 0))
                  (setLoop s rid grp.1 none)
              | _ => s) s)

/-- The state check of R294: a Weir word outside its states faults with 0x81; FADDR holds WST, or at a barrier word of a
loop that a member's fault broke, that member's rank (R308). -/
def wlState (t : State) (allowed : List (BitVec 3)) (barrier : Bool) (go : Res) : Res :=
  let w := t.cur.wl
  if allowed.contains w.wst then go
  else .trap 0x81 (some (match (if barrier then w.broken else none) with
    | some r => w64 r
    | none => w.wst.zeroExtend 64))

/-- A Weir barrier word: it waits at its barrier, which it reaches once the AP's earlier memory events have been performed (R295,
R299). -/
def wlBarrier (allowed : List (BitVec 3)) (check : State → Option (Nat × Option Word)) (k : State → PendKind)
    (fin : Word → State → State) (t : State) : Res :=
  heldWord (fun u => wlState u allowed true (match check u with
      | some (c, f) => .trap c f
      | none => holdAt (k u) u))
    (fun v u => .done (fin v (retireHere u))) t

/-- `wl.open` (R300). -/
def execWlOpen (h : Hdr) (d a : BitVec 5) (s : State) : Out :=
  .next (apWord h { cls := clWl, cmd := true, accepted := true, bad := decide (30 < a.toNat) } (wlBarrier [0]
    (fun t =>
      let v := xr t a
      let n := (xg t a 1).toNat
      if wbits v 28 36 ≠ 0 ∨ wbits v 0 16 = 0xFFFF ∨ n = 0 ∨ 2 ^ 48 ≤ n then some (0x02, none)
      else if (membersOf t t.turn.1).any (fun k => moduleOf k != moduleOf t.turn.1) then some (0x81, some (t.cur.wl.wst.zeroExtend 64))
      else none)
    (fun t => .wlOpen (wbits (xr t a) 0 16) (wbits (xr t a) 16 12 + 1) (xg t a 1).toNat)
    (fun v t => setX t 1 d v)) s)

/-- `wl.round` (R301). -/
def execWlRound (h : Hdr) (d : BitVec 5) (s : State) : Out :=
  .next (apWord h { cls := clWl, cmd := true, accepted := true } (wlBarrier [1, 2] (fun _ => none) (fun _ => .wlRound)
    (fun v t => setX t 1 d v)) s)

/-- `wl.close` (R302). -/
def execWlClose (h : Hdr) (s : State) : Out :=
  .next (apWord h { cls := clWl, cmd := true, accepted := true } (wlBarrier [1, 2, 3] (fun _ => none) (fun _ => .wlClose)
    (fun _ t => t)) s)

/-- `wl.slot` (R303). -/
def execWlSlot (h : Hdr) (d a : BitVec 5) (s : State) : Out :=
  .next (apWord h { cls := clWl } (fun t => wlState t [1, 2] false (
    let k := (xr t a).toNat
    if t.cur.wl.wn ≤ k then .trap 0x82 (some (xr t a))
    else .done (setX (t.modCur fun c => { c with wl := { c.wl with wslot := some k } }) 2 d
      ((smGet 0 t.cur.wl.widx k).zeroExtend 64)))) s)

/-- The tag of the selected slot (R291): the loop id above the iteration index. -/
def slotTag (w : Wl) (k : Nat) : Word := w.wlid ++ smGet 0 w.widx k

/-- A word that needs a selected slot (R304-R307). -/
def withSlot (t : State) (go : Nat → Res) : Res :=
  match t.cur.wl.wslot with
  | some k => go k
  | none => .trap 0x81 (some (t.cur.wl.wst.zeroExtend 64))

/-- A cell operation: a write-queue event, with a read-queue entry beside it where it returns a value (R304-R306). -/
def wlCell (h : Hdr) (allowed : List (BitVec 3)) (kind : WrKind) (ret : Bool) (dst : Option ApDst) (a b : BitVec 5) (s : State) : State :=
  apWord h { cls := clWl, mem := true } (fun t => wlState t allowed false (withSlot t fun k =>
    let va := effAddr t a b
    if ret = true ∧ rqCap t.cur ≤ t.cur.ctx.rq.length then .stall 3 t
    else if wqCap t.cur ≤ t.cur.ctx.wq.length then .stall 4 t
    else apAccess t va 8 8 8 { r := true, w := true, cell := true } fun u =>
      let po := u.cur.ctx.po
      let pc := u.cur.ctx.unitPc
      let due := apTime u + memLatency u va
      let w : WrE := { po := po, pc := pc, va := va, kind := kind, data := slotTag u.cur.wl k, dst := dst, due := due, ret := ret }
      .done (if ret then pushWr (pushRd u { po := po, pc := pc, va := va, kind := .test, dst := dst, due := due }) w
             else pushWr u w))) s

/-- `wl.rsv` (R304). -/
def execWlRsv (h : Hdr) (a b : BitVec 5) (s : State) : Out := .next (wlCell h [1] .rsv false none a b s)
/-- `wl.rels` (R306). -/
def execWlRels (h : Hdr) (a b : BitVec 5) (s : State) : Out := .next (wlCell h [2] .rels false none a b s)
/-- `wl.test` (R305). -/
def execWlTest (h : Hdr) (d a b : BitVec 5) (s : State) : Out := .next (wlCell h [2] .test true (xDst d) a b s)
/-- `wl.test.p` (R305). -/
def execWlTestP (h : Hdr) (p : BitVec 3) (a b : BitVec 5) (s : State) : Out :=
  .next (wlCell h [2] .test true (if p = 0 then none else some (.p p.toNat)) a b s)

/-- `wl.done` (R307). -/
def execWlDone (h : Hdr) (s : State) : Out :=
  .next (apWord h { cls := clWl } (fun t => wlState t [2] false (withSlot t fun k =>
    .done (t.modCur fun c => { c with wl := { c.wl with wdone := c.wl.wdone ||| (1 <<< k) } }))) s)

end Sys2Proof.Machine
end

