-- ==== Sys2Proof/Machine/Link.lean ====
section
/-!
DEFINITION. The link and collective engine (14_link.md R254-R270): its words, transfers, barriers, reductions and gathers.
-/

namespace Sys2Proof.Machine

/-- Class CX (R18). -/
def clCx : Nat := 25

/-- The operation numbers of link commands: those of the E form's F field (R261-R269). -/
def cxPut : Nat := 0
def cxGet : Nat := 1
def cxAred : Nat := 4
def cxAgath : Nat := 5

/-- A window of the current core's region that is VALID (R257). -/
def winOf (s : State) (k w : Nat) : Option Win :=
  match (s.region? (s.core k).rid).bind fun g => smFind g.wins w with
  | some e => if nbits e.ctl 0 1 = 1 then some e else none
  | none => none

/-- The region has a window table (R260). -/
def hasTable (s : State) (k : Nat) : Bool := ((s.region? (s.core k).rid).bind Region.lring).isSome

/-- The VA, as member `rank` names it, of a byte of its window (R257). -/
def winVa (w : Win) (rank off : Nat) : Word :=
  if nbits w.ctl 1 1 = 1 then w64 (w.base + rank * w.mstride + off) else ownVa (w.base + off)

/-- An access to a window at a member: a KIND 1 window is a translated VA there. -/
def winAccess (s : State) (k : Nat) (w : Win) (va : Word) (len : Nat) (n : Need) : State × AccRes :=
  if nbits w.ctl 1 1 = 1 ∧ vaSpace va ≠ 0 then (s, .fault 0x21 va) else engCheck s k va len n

/-- Ranks that are lost among the members of one copy of a region (R255, 21_scheduler.md R349). -/
def lostIn (g : Region) (copy : Option Nat) : List Nat := (g.lost.filter fun e => e.1 == copy).map fun e => e.2

/-- Ranks that are lost for a core. -/
def lostOf (s : State) (k : Nat) : List Nat :=
  match s.region? (s.core k).rid with
  | some g => lostIn g (s.core k).copy
  | none => []

/-- Adds to a counter of a member and wakes it (R258): RCV at CNT, SND at CNT + 8. -/
def bumpCounter (s : State) (k : Nat) (w : Win) (snd n : Nat) : State := setEv (spadAdd s k (w.cnt + 8 * snd) n) k

/-- Link commands waiting in the engine's queue of 32 (R259). -/
def linkQueued (c : Core) : Nat := (c.cmds.filter fun m => m.eng == .link && !m.started).length

/-- Issues a link command, or stalls while the queue is full (R103, R259). -/
def issueLink (t : State) (op n : Nat) (a : BitVec 5) (ccw : Word) (foot : List Foot) : Res :=
  if 32 ≤ linkQueued t.cur then .stall 8 t
  else .done (issueCmd t .link ccw { op := op, regs := tabulate (fun i => xg t a i) n } foot)

/-- The overlap check of R17, then issue. -/
def linkOverlap (t : State) (ccw : Word) (foot : List Foot) (go : List Foot → Res) : Res :=
  let foot := if t.cur.sys.det then foot else []
  match overlapVa t.cur ccw .link foot with
  | some va => .trap 0xE4 (some va)
  | none => go foot

/-! ### Words -/

/-- `cx.put` and `cx.get` (R261). -/
def apTransfer (h : Hdr) (op : Nat) (a : BitVec 5) (s : State) : State :=
  apWord h { cls := clCx, cmd := true, bad := decide (28 < a.toNat) } (fun t =>
    let v := xg t a 3
    let len := wbits v 32 24
    let ccw := xr t a
    if wbits v 28 4 ≠ 0 ∨ wbits v 56 8 ≠ 0 ∨ ccwBad ccw true then .trap 0x02 none
    else match winOf t t.turn.1 (wbits v 20 8) with
      | none => .trap 0x26 none
      | some w =>
        if nbits w.ctl (if op = cxPut then 2 else 3) 1 = 0 ∨ w.len < (xg t a 2).toNat + len then .trap 0x26 none
        else if (membersOf t t.turn.1).length ≤ wbits v 0 20 then .trap 0x02 none
        else linkOverlap t ccw (footOf t t.turn.1 (xg t a 1) len (op == cxGet)) fun f => issueLink t op 4 a ccw f) s

def execCxPut (h : Hdr) (a : BitVec 5) (s : State) : Out := .next (apTransfer h cxPut a s)
def execCxGet (h : Hdr) (a : BitVec 5) (s : State) : Out := .next (apTransfer h cxGet a s)

/-- A `cx.wcnt` whose operands have been read: it waits for the counter, or for the loss of a member (R262). -/
def wcntWait (d : BitVec 5) (m : BitVec 2) (win : Nat) (want : Word) (t : State) : Res :=
  match winOf t t.turn.1 win with
  | none => .trap 0x26 none
  | some w =>
    if want.toNat ≤ leNat (spadBytes t t.turn.1 (w.cnt + 8 * m.toNat) 8) then .done (setX (unheld t) 1 d 0)
    else if lostOf t t.turn.1 ≠ [] then .done (setX (unheld t) 1 d 0x7A)
    else waitAt (.wcnt win want) t

/-- `cx.wcnt` (R262). It reads its operands as it issues, and waits with them (log entry 65). -/
def execCxWcnt (h : Hdr) (d a : BitVec 5) (m : BitVec 2) (s : State) : Out :=
  .next (apWord h { cls := clCx, bad := decide (30 < a.toNat) || decide (2 ≤ m.toNat) } (fun t =>
    match t.cur.held with
    | some { kind := .wcnt win want, .. } => wcntWait d m win want t
    | _ => if wbits (xr t a) 8 56 ≠ 0 then .trap 0x02 none else wcntWait d m (wbits (xr t a) 0 8) (xg t a 1) t) s)

/-- A barrier word: it holds the AP from its issue, as the member's next collective (R264, R265). -/
def apBarrier (h : Hdr) (sbar : Bool) (d : BitVec 5) (s : State) : State :=
  apWord h { cls := clCx, cmd := true, accepted := true } (heldWord
    (fun t =>
      let l := t.cur.lk
      holdAt (.bar sbar l.k l.att.toNat) (t.modCur fun c => { c with lk := { l with k := l.k + 1 } }))
    (fun v t => .done (setX (retireHere t) 1 d v))) s

def execCxSbar (h : Hdr) (d : BitVec 5) (s : State) : Out := .next (apBarrier h true d s)
def execCxBar (h : Hdr) (d : BitVec 5) (s : State) : Out := .next (apBarrier h false d s)

/-- The fields of a reduction's last register (R265). -/
structure RedShape where
  nt : Nat
  n : Nat
  op : Nat
  ty : Nat
  mode : Nat
  deriving DecidableEq, Repr

def redShape (v : Word) : RedShape := ⟨wbits v 0 32, wbits v 32 16, wbits v 48 4, wbits v 52 4, wbits v 56 1⟩

/-- Bytes of an element. -/
def redWidth (r : RedShape) : Nat := if r.op = 3 then 8 else if r.ty = 0 then 4 else if r.ty = 3 then 8 else 2

/-- A shape that R265 refuses. -/
def redBad (v : Word) : Bool :=
  let r := redShape v
  wbits v 57 7 != 0 || decide (3 < r.op) || decide (3 < r.ty) || (r.op == 3 && r.ty != 0) || r.n == 0 || decide (16384 < r.n)
    || decide (65536 < r.n * redWidth r)

/-- The smallest power of two, by its exponent, not below n; `fuel` bounds it. -/
def ceilLog2 (n : Nat) : Nat → Nat
  | 0 => 0
  | f + 1 => if n ≤ 2 ^ (ceilLog2 n f) then ceilLog2 n f else f + 1

/-- An aligned range of contributors (R265). -/
def redAligned (lo len nt : Nat) : Bool :=
  let p := 2 ^ ceilLog2 len 33
  decide (1 ≤ len) && decide (lo + len ≤ nt) && lo % p == 0 && (p == len || lo + len == nt)

/-- Counts a collective of the current core and gives its command its attempt and number. -/
def countCollective (t : State) : State :=
  t.modCur fun c => { c with
    lk := { c.lk with k := c.lk.k + 1 }
    cmds := match c.cmds.getLast? with
      | some m => c.cmds.dropLast ++ [{ m with att := c.lk.att.toNat, k := c.lk.k }]
      | none => [] }

/-- A reduction or gather, once issued, is the member's next collective. -/
def asCollective : Res → Res
  | .done t => .done (countCollective t)
  | r => r

/-- `cx.ared` (R265). -/
def execCxAred (h : Hdr) (a : BitVec 5) (s : State) : Out :=
  .next (apWord h { cls := clCx, cmd := true, bad := decide (27 < a.toNat) } (fun t =>
    let v := xg t a 4
    let r := redShape v
    let ccw := xr t a
    let len := r.n * redWidth r
    if redBad v || ccwBad ccw true then .trap 0x02 none
    else if hasTable t t.turn.1 = false then .trap 0x26 none
    else if r.mode = 1 ∧ t.cur.sys.det then .trap 0xE2 none
    else if r.mode = 0 ∧ redAligned (wbits (xg t a 3) 0 32) (wbits (xg t a 3) 32 32) r.nt = false then .trap 0x79 none
    else linkOverlap t ccw (footOf t t.turn.1 (xg t a 1) len false ++ footOf t t.turn.1 (xg t a 2) len true) fun f =>
      asCollective (issueLink t cxAred 5 a ccw f)) s)

/-- Bytes of a gathered item. -/
def gathWidth (v : Word) : Nat := 8 * 2 ^ wbits v 8 2

/-- `cx.agath` (R268). -/
def execCxAgath (h : Hdr) (a : BitVec 5) (s : State) : Out :=
  .next (apWord h { cls := clCx, cmd := true, bad := decide (28 < a.toNat) } (fun t =>
    let v := xg t a 2
    let n := (xg t a 3).toNat
    let w := gathWidth v
    let ccw := xr t a
    if wbits v 10 54 ≠ 0 ∨ 65536 < n ∨ ccwBad ccw true then .trap 0x02 none
    else match winOf t t.turn.1 (wbits v 0 8) with
      | none => .trap 0x26 none
      | some win =>
        if nbits win.ctl 2 1 = 0 ∨ win.len % w ≠ 0 then .trap 0x26 none
        else linkOverlap t ccw (footOf t t.turn.1 (xg t a 1) (n * w) false) fun f =>
          asCollective (issueLink t cxAgath 4 a ccw f)) s)

/-- `cx.abort` (R269): the local effects; a notice to every other member is under way once it has left the AP (R117, ABORT_NOTICE). -/
def execCxAbort (h : Hdr) (d : BitVec 5) (s : State) : Out :=
  .next (apWord h { cls := clCx, sends := true } (fun t =>
    let k := t.turn.1
    let a := t.cur.lk.att + 1
    let t := (attemptEnds t k a).modCur fun c => { c with lk := { c.lk with out := c.cycle + 4 } }
    .done (setX t 1 d (a.zeroExtend 64))) s)

/-- ABORT_NOTICE (R270): a notice or flit of attempt `att`, which a member has reached, arrives at a core. -/
def execAbortNotice (core att : Nat) (s : State) : Out :=
  let a := BitVec.ofNat 8 att
  .next (if (s.core core).alive && (otherMembers s core).any (fun j => decide (((s.core j).lk.att - a).toNat ≤ 127)
        && ((s.core j).lk.att != a || decide ((s.core j).lk.out ≤ (s.core j).cycle))) then
      noticeAtt s core a
    else s)

/-! ### Transfers (R258, R261) -/

/-- The started link command of a core with a number and an operation, free to go on. -/
def linkRunning (s : State) (k seq : Nat) (p : Nat → Bool) : Option Cmd :=
  match (s.core k).cmd? seq with
  | some m => if m.eng == .link && p m.op.op && (s.core k).alive && m.started && !m.walk && m.done.isNone then some m else none
  | none => none

def cmdReg (m : Cmd) (i : Nat) : Word := m.op.regs.getD i 0

/-- What a transfer works on: the target core, its rank, the window, LEN. -/
def transferOf (s : State) (k : Nat) (m : Cmd) : Option (Nat × Nat × Win × Nat) :=
  let v := cmdReg m 3
  match (membersOf s k)[wbits v 0 20]?, winOf s k (wbits v 20 8) with
  | some j, some w => some (j, wbits v 0 20, w, wbits v 32 24)
  | _, _ => none

/-- The end of a transfer in a window: a walk that fails there is serviced only where that is the initiating core itself
(R260). -/
def farAccess (s : State) (k : Nat) (m : Cmd) (j : Nat) (w : Win) (va : Word) (len : Nat) (n : Need) : EngRes :=
  match winAccess s j w va len n with
  | (s, .ok xl) => .ok s xl
  | (s, .miss v) =>
    .stop (if j = k then engWalkFault s k m (BitVec.ofNat 64 (max va.toNat (v * 65536))) m.bytes else engFault s k m 0x21 m.bytes)
  | (s, .fault c _) => .stop (engFault s k m c m.bytes)
  | (s, .stage2 c g) => .stop (stage2Fail (setCmd s k m) k c g)

/-- Moves `n` bytes of a put (`put`) or get; none if it stopped or waits. -/
def moveBytes (s : State) (k : Nat) (m : Cmd) (put : Bool) (j rank : Nat) (w : Win) (n : Nat) : State × Option Cmd :=
  let far := winVa w rank ((cmdReg m 2).toNat + m.pos)
  let near := cmdReg m 1 + w64 m.pos
  if n = 0 then (s, some m)
  else match engAccess s k m near n (if put then { r := true } else { w := true }) m.bytes with
    | .stop s => (s, none)
    | .ok s nx =>
      match farAccess s k m j w far n (if put then { w := true } else { r := true }) with
      | .stop s => (s, none)
      | .ok s fx =>
        if vaPoison s (if put then k else j) (if put then nx else fx) (if put then near else far) n then
          (engFault s k m 0x71 m.bytes, none)
        else
          let s := if put then vaStore s j fx far (vaBytes s k nx near n) else vaStore s k nx near (vaBytes s j fx far n)
          (s, some { m with pos := m.pos + n, bytes := m.bytes + n })

/-- A put or get moves up to n more bytes; once all have moved, and with REL the earlier AP events have been performed (R95), its
counters rise and it is done. -/
def transferStep (s : State) (k : Nat) (m : Cmd) (put : Bool) (n : Nat) : State :=
  match transferOf s k m with
  | none => engFault s k m 0x26 m.bytes
  | some (j, rank, w, len) =>
    if (lostOf s k).contains rank ∧ (s.core k).rank ≠ rank then engFault s k m 0x7A m.bytes
    else match moveBytes s k m put j rank w (min n (len - m.pos)) with
      | (s, none) => s
      | (s, some m) =>
        if m.pos < len ∨ releaseHeld (s.core k) m then setCmd s k m
        else
          let s := if put then bumpCounter s j w 0 1 else s
          setCmd (bumpCounter s k w 1 1) k { m with done := some 0 }

/-- LINK_PUT_DELIVERY (R258, R261). -/
def execLinkPutDelivery (core seq n : Nat) (s : State) : Out :=
  .next (match linkRunning s core seq (fun o => o == cxPut) with
    | some m => transferStep s core m true n
    | none => s)

/-- LINK_GET_COMPLETE (R261). -/
def execLinkGetComplete (core seq n : Nat) (s : State) : Out :=
  .next (match linkRunning s core seq (fun o => o == cxGet) with
    | some m => transferStep s core m false n
    | none => s)

/-- LINK_COMMAND_RETIRE (R260): a command whose work is done retires. -/
def execLinkCommandRetire (core seq : Nat) (s : State) : Out :=
  .next (orRelease s core seq fun m =>
    match m.done with
    | some c => if m.eng = .link then retireCmd s core m (if c = 0 then 1 else 2) c m.bytes else s
    | none => s)

/-! ### Collectives (R264-R268) -/

/-- A member's k-th collective, as far as matching compares it. -/
inductive Coll where
  | bar (sbar : Bool)
  | red (m : Cmd)
  | gath (m : Cmd)
  deriving DecidableEq, Repr

/-- A core has arrived at its barrier: its earlier AP events are performed and, for `cx.sbar`, its puts and gets retired
(R264). -/
def barArrived (c : Core) (sbar : Bool) : Bool :=
  c.main.rq.isEmpty && c.main.wq.isEmpty
    && (!sbar || !c.cmds.any fun m => m.eng == .link && (m.op.op == cxPut || m.op.op == cxGet))

/-- The collective with an attempt and a number that a member stands at or has started. -/
def collAt (s : State) (j att k : Nat) : Option Coll :=
  let c := s.core j
  let held := match c.asks with
    | some (.bar sb k' a') => if k' = k ∧ a' = att ∧ barArrived c sb then some (Coll.bar sb) else none
    | _ => none
  match held with
  | some x => some x
  | none =>
    match c.cmds.find? (fun m => m.eng == .link && (m.op.op == cxAred || m.op.op == cxAgath) && m.att == att && m.k == k && m.started && m.done.isNone) with
    | some m => some (if m.op.op = cxAred then .red m else .gath m)
    | none => none

/-- Every member's collective, where all are there. -/
def allColl (s : State) (grp : List Nat) (att k : Nat) : Option (List (Nat × Coll)) :=
  grp.foldr (fun j acc => match acc, collAt s j att k with
    | some l, some x => some ((j, x) :: l)
    | _, _ => none) (some [])

/-- The members' ranges of contributors, in order of LO, do not overlap and cover [0, NT); an empty range takes no part. -/
def rangesCover (nt : Nat) (l : List (Nat × Nat)) : Bool :=
  let sorted := sortBy (fun a b => decide (a.1 ≤ b.1)) (l.filter fun e => e.2 != 0)
  let r := sorted.foldl (fun (a : Nat × Bool) e =>
    (e.1 + e.2, a.2 && (if a.1 < nt then e.1 == a.1 else decide (a.1 ≤ e.1)))) (0, true)
  r.2 && decide (nt ≤ r.1)

/-- LO and LEN of a reduction command. -/
def redRange (m : Cmd) : Nat × Nat := (wbits (cmdReg m 3) 0 32, wbits (cmdReg m 3) 32 32)

/-- The cause of a mismatch among matching collectives (R265): kind and MODE first. -/
def collMismatch (l : List Coll) : Option Nat :=
  match l with
  | [] => none
  | .bar sb :: rest => if rest.all (fun x => x == .bar sb) then none else some 0x02
  | .red m :: rest =>
    let r := redShape (cmdReg m 4)
    if !rest.all (fun x => match x with | .red e => (redShape (cmdReg e 4)).mode == r.mode | _ => false) then some 0x02
    else if rest.all (fun x => match x with | .red e => redShape (cmdReg e 4) == r | _ => false)
      && rangesCover r.nt ((.red m :: rest).filterMap fun x => match x with | .red e => some (redRange e) | _ => none) then none
    else some 0x79
  | .gath m :: rest =>
    if !rest.all (fun x => match x with | .gath _ => true | _ => false) then some 0x02
    else if rest.all fun x => match x with | .gath e => wbits (cmdReg e 2) 0 10 == wbits (cmdReg m 2) 0 10 | _ => false then none
    else some 0x79

/-- Every member's matching collective ends with a cause: a barrier returns it, a command is done with it. -/
def collEnd (s : State) (l : List (Nat × Coll)) (cause : Nat) : State :=
  l.foldl (fun s e => match e.2 with
    | .bar _ => answer s e.1 (.value (w64 cause))
    | .red m => setCmd s e.1 { m with done := some cause }
    | .gath m => setCmd s e.1 { m with done := some cause }) s

/-- Every unretired collective of a group's members ends with 0x7A: a member is lost (R255). -/
def lostEnd (s : State) (grp : List Nat) : State :=
  grp.foldl (fun s j =>
    let c := s.core j
    let s := c.cmds.foldl (fun s m =>
      if m.eng = .link ∧ (m.op.op = cxAred ∨ m.op.op = cxAgath) ∧ m.done.isNone then setCmd s j { m with done := some 0x7A } else s) s
    match c.pend with
    | some p =>
      match p.kind with
      | .bar _ _ _ => if p.res.isNone then answer s j (.value 0x7A) else s
      | _ => s
    | none => s) s

/-- BARRIER_COMPLETE (R264, R265). -/
def execBarrierComplete (rid : Nat) (s : State) : Out :=
  .next (match s.region? rid with
    | none => s
    | some g =>
      (groupsOf g).foldl (fun s grp =>
        if lostIn g grp.1 ≠ [] then lostEnd s grp.2
        else
          let bars := grp.2.filterMap fun j => match (s.core j).asks with
            | some (.bar _ k att) => some (k, att)
            | _ => none
          match bars with
          | [] => s
          | (k, att) :: _ =>
            match allColl s grp.2 att k with
            | none => s
            | some l => collEnd s l ((collMismatch (l.map fun e => e.2)).getD 0)) s)

/-! Reductions -/

/-- The float format of a TYPE. -/
def redFmt (ty : Nat) : Fmt := if ty = 0 then fp32 else if ty = 1 then fp16 else bf16

/-- One binary step on an element (R266). -/
def redOp (r : RedShape) (a b : Nat) : Nat :=
  if r.ty = 3 then
    match r.op with
    | 0 => (a + b) % 2 ^ 64
    | 1 => if sint 64 a ≤ sint 64 b then b else a
    | _ => if sint 64 a ≤ sint 64 b then a else b
  else
    let f := redFmt r.ty
    match r.op with
    | 0 => addRne f a b
    | 1 => rne f (FV.max (f.val a) (f.val b))
    | _ => rne f (FV.min (f.val a) (f.val b))

/-- `a` ranks before `b` in a top-k list (R267, R193): value, then logical index; NaN after every number. -/
def topBefore (a b : Nat) : Bool :=
  let x := fp32.val (a % 2 ^ 32)
  let y := fp32.val (b % 2 ^ 32)
  if x.isNan || y.isNan then (!x.isNan && y.isNan) || (x.isNan && y.isNan && decide (a / 2 ^ 32 ≤ b / 2 ^ 32))
  else FV.lt y x || (FV.eqv x y && decide (a / 2 ^ 32 ≤ b / 2 ^ 32))

/-- A NaN value of a top-k entry is the canonical NaN (R53). -/
def topCanon (e : Nat) : Nat := if (fp32.val (e % 2 ^ 32)).isNan then e / 2 ^ 32 * 2 ^ 32 + fp32.nanBits else e

/-- Combines two vectors. -/
def redCombine (r : RedShape) (a b : List Nat) : List Nat :=
  if r.op = 3 then (sortBy topBefore ((a ++ b).map topCanon)).take r.n else List.zipWith (redOp r) a b

/-- The node of level `lvl` that starts at contributor `lo` (R69, R266): a member's partial, or its two children combined;
a node without a partner passes up. -/
def redNode (r : RedShape) (parts : List (Nat × Nat × List Nat)) : Nat → Nat → List Nat
  | 0, lo => match parts.find? (fun p => p.1 == lo) with
    | some p => p.2.2
    | none => []
  | l + 1, lo =>
    match parts.find? (fun p => p.1 == lo && p.1 + p.2.1 == min (lo + 2 ^ (l + 1)) r.nt) with
    | some p => p.2.2
    | none =>
      let a := redNode r parts l lo
      if lo + 2 ^ l < r.nt then redCombine r a (redNode r parts l (lo + 2 ^ l)) else a

/-- A NaN of a float result is the canonical one, also where a member's partial passes unchanged (R53, R266). -/
def redCanon (r : RedShape) (e : Nat) : Nat := if r.ty ≠ 3 ∧ ((redFmt r.ty).val e).isNan then (redFmt r.ty).nanBits else e

/-- The result of a reduction: the fixed tree, or the members' partials in the order of `order` (R266, R267). -/
def redResult (r : RedShape) (parts : List (Nat × Nat × List Nat)) (order : List Nat) : List Nat :=
  let v :=
    if r.mode = 0 then redNode r parts (ceilLog2 r.nt 33) 0
    else
      let ord := if sortBy (fun a b => decide (a ≤ b)) order = List.range parts.length then order else List.range parts.length
      match ord.filterMap fun i => parts[i]? with
      | [] => []
      | p :: ps => ps.foldl (fun a q => redCombine r a q.2.2) p.2.2
  if r.op = 3 then (sortBy topBefore (v.map topCanon)).take r.n else v.map (redCanon r)

/-- How one member's part of a reduction stands: its source elements and destination translations, a fault, or a walk. -/
inductive PartRes where
  | ok (src : List Nat) (xl : List Xl)
  | fault (cause : Nat)
  | walk (va : Word)
  | stage2 (cause gpa : Nat)
  deriving DecidableEq, Repr

/-- Checks a member's part: its source read and its destination write (R265). -/
def redPart (s : State) (j : Nat) (m : Cmd) : State × PartRes :=
  let r := redShape (cmdReg m 4)
  let w := redWidth r
  let src := cmdReg m 1
  let dst := cmdReg m 2
  match engCheck s j src (r.n * w) { r := true } with
  | (s, .fault c _) => (s, .fault c)
  | (s, .miss v) => (s, if hasHandler s j then .walk (BitVec.ofNat 64 (max src.toNat (v * 65536))) else .fault 0x21)
  | (s, .stage2 c g) => (s, .stage2 c g)
  | (s, .ok xl) =>
    if vaPoison s j xl src (r.n * w) then (s, .fault 0x71)
    else match engCheck s j dst (r.n * w) { w := true } with
      | (s, .fault c _) => (s, .fault c)
      | (s, .miss v) => (s, if hasHandler s j then .walk (BitVec.ofNat 64 (max dst.toNat (v * 65536))) else .fault 0x21)
      | (s, .stage2 c g) => (s, .stage2 c g)
      | (s, .ok yl) => (s, .ok (tabulate (fun i => vaNat s j xl (src + w64 (w * i)) w) r.n) yl)

/-- The parts of the members in rank order: all of them, or the state after the first that fails or waits. -/
def redParts (all : List (Nat × Coll)) : State → List (Nat × Coll) → List (Nat × Cmd × List Nat × List Xl) →
    Sum State (State × List (Nat × Cmd × List Nat × List Xl))
  | s, [], acc => .inr (s, acc)
  | s, (j, .red m) :: rest, acc =>
    match redPart s j m with
    | (s, .ok src xl) => redParts all s rest (acc ++ [(j, m, src, xl)])
    | (s, .fault c) => .inl (collEnd s all c)
    | (s, .walk va) => .inl (engWalkFault s j m va m.bytes)
    | (s, .stage2 c g) => .inl (stage2Fail s j c g)
  | s, _ :: rest, acc => redParts all s rest acc

/-- Little-endian bytes of a vector of w-byte elements. -/
def vecBytes (w : Nat) (v : List Nat) : List Byte := v.flatMap fun e => leBytes w e

/-- A matched reduction completes at every member (R266). -/
def redFinish (s : State) (l : List (Nat × Coll)) (order : List Nat) : State :=
  match redParts l s l [] with
  | .inl s => s
  | .inr (s, parts) =>
    match parts with
    | [] => s
    | (_, m0, _, _) :: _ =>
      let r := redShape (cmdReg m0 4)
      let w := redWidth r
      let res := redResult r (parts.map fun p => ((redRange p.2.1).1, (redRange p.2.1).2, p.2.2.1)) order
      parts.foldl (fun s p =>
        setCmd (vaStore s p.1 p.2.2.2 (cmdReg p.2.1 2) (vecBytes w res)) p.1
          { p.2.1 with done := some 0, bytes := r.n * w }) s

/-- The numbers of a member's started collectives of an operation that are not done, lowest first. -/
def collNums (c : Core) (op : Nat) : List (Nat × Nat) :=
  (c.cmds.filter fun m => m.eng == .link && m.op.op == op && m.started && m.done.isNone && !m.walk).map fun m => (m.att, m.k)

/-- REDUCTION_COMPLETE (R265-R267): the first reduction that every member has reached completes. -/
def execReductionComplete (rid : Nat) (order : List Nat) (s : State) : Out :=
  .next (match s.region? rid with
    | none => s
    | some g =>
      (groupsOf g).foldl (fun s grp =>
        if lostIn g grp.1 ≠ [] then lostEnd s grp.2
        else
          let cand := (grp.2.flatMap fun j => collNums (s.core j) cxAred).filterMap fun e => allColl s grp.2 e.1 e.2
          match cand with
          | [] => s
          | l :: _ =>
            match collMismatch (l.map fun e => e.2) with
            | some c => collEnd s l c
            | none =>
              if l.any (fun e => match e.2 with | .red m => m.walk | _ => false) then s else redFinish s l order) s)

/-! Gathers -/

/-- Every member's k-th collective is a matching gather: they are marked as matched (R265); a mismatch ends them. -/
def gathMatch (s : State) (k : Nat) (m : Cmd) : State :=
  match allColl s (membersOf s k) m.att m.k with
  | none => s
  | some l =>
    match collMismatch (l.map fun e => e.2) with
    | some c => collEnd s l c
    | none => l.foldl (fun s e => match e.2 with
      | .gath x =>
        let n := (cmdReg x 3).toNat
        setCmd s e.1 { x with pos := 1, sub := List.replicate l.length 0, done := if n = 0 then some 0 else none }
      | _ => s) s

/-- A fault in one member's part ends the gather at every member that has not retired it (R265). -/
def gathFault (s : State) (k : Nat) (m : Cmd) (cause : Nat) : State :=
  (membersOf s k).foldl (fun s j =>
    (s.core j).cmds.foldl (fun s e =>
      if e.eng = .link ∧ e.op.op = cxAgath ∧ e.att = m.att ∧ e.k = m.k ∧ e.done.isNone then setCmd s j { e with done := some cause } else s) s) s

/-- An item reaches a member that holds another attempt: the member takes up a newer one; an older one is dropped (R270). -/
def gathArrives (s : State) (j : Nat) (m : Cmd) : State × Bool :=
  let s := noticeAtt s j (BitVec.ofNat 8 m.att)
  (s, (s.core j).lk.att == BitVec.ofNat 8 m.att)

/-- Places the next item of a matched gather at one member (R268); with REL not before the earlier AP events have been performed, as
the counter rises with it (R95). -/
def gathPlace (s : State) (k : Nat) (m : Cmd) (rank : Nat) : State :=
  let w := gathWidth (cmdReg m 2)
  let i := m.sub.getD rank 0
  match (membersOf s k)[rank]?, winOf s k (wbits (cmdReg m 2) 0 8) with
  | some j, some win =>
    if (cmdReg m 3).toNat ≤ i ∨ releaseHeld (s.core k) m then s
    else
      let src := cmdReg m 1 + w64 (w * i)
      match engCheck s k src w { r := true } with
      | (s, .fault c _) => gathFault s k m c
      | (s, .miss v) =>
        if hasHandler s k then engWalkFault s k m (BitVec.ofNat 64 (max src.toNat (v * 65536))) m.bytes else gathFault s k m 0x21
      | (s, .stage2 c g) => stage2Fail (setCmd s k m) k c g
      | (s, .ok xl) =>
        let here := gathArrives s j m
        let s := here.1
        if vaPoison s k xl src w then gathFault s k m 0x71
        else if here.2 = false then s
        else
          let item := vaBytes s k xl src w
          let slot := leNat (item.take 8) % (win.len / w)
          let va := winVa win rank (slot * w)
          match winAccess s j win va w { w := true } with
          | (s, .fault c _) => gathFault s k m c
          | (s, .miss v) =>
            if j = k ∧ hasHandler s k then engWalkFault s k m (BitVec.ofNat 64 (max va.toNat (v * 65536))) m.bytes
            else gathFault s k m 0x21
          | (s, .stage2 c g) => stage2Fail (setCmd s k m) k c g
          | (s, .ok yl) =>
            let s := bumpCounter (vaStore s j yl va item) j win 0 1
            let sub := m.sub.set rank (i + 1)
            let all_ := sub.all fun e => e == (cmdReg m 3).toNat
            setCmd s k { m with sub := sub, bytes := w * sub.getD (s.core k).rank 0, done := if all_ then some 0 else none }
  | _, _ => s

/-- GATHER_ITEM_PLACE (R268): the next item of a member's gather is placed at member `rank`. -/
def execGatherItemPlace (core seq rank : Nat) (s : State) : Out :=
  .next (match linkRunning s core seq (fun o => o == cxAgath) with
    | none => s
    | some m =>
      if lostOf s core ≠ [] then setCmd s core { m with done := some 0x7A }
      else if m.pos = 0 then gathMatch s core m
      else gathPlace s core m rank)

/-- CX_MEMBER_LOST (R255): a member is lost, named by its copy of a dual run, if any, and its rank; commands that target it and collectives with it retire
with 0x7A. -/
def execCxMemberLost (rid : Nat) (m : Option Nat × Nat) (s : State) : Out :=
  .next (match s.region? rid with
    | none => s
    | some g =>
      if g.st ≠ .running ∨ g.lost.contains m then s
      else
        let s := s.setRegion rid { g with lost := g.lost ++ [m] }
        ((groupsOf g).filter fun grp => grp.1 == m.1).foldl (fun s grp =>
          let s := lostEnd s grp.2
          grp.2.foldl (fun s j =>
            (s.core j).cmds.foldl (fun s e =>
              if e.eng = .link ∧ (e.op.op = cxPut ∨ e.op.op = cxGet) ∧ wbits (cmdReg e 3) 0 20 = m.2 ∧ (s.core j).rank ≠ m.2
                ∧ e.done.isNone then
                retireCmd s j e 2 0x7A e.bytes
              else s) s) s) s)

end Sys2Proof.Machine
end

