-- ==== Sys2Proof/Machine/Mxe.lean ====
section
/-!
DEFINITION. The matrix engine (10_mxe_model.md R208-R221, 11_mxe_instr.md R222-R233): the AP's commands to it, its stream's
words, and the steps that move its rows and finish its words.
-/

namespace Sys2Proof.Machine

/-- Class MX.PERT (R18). -/
def clMxPert : Nat := 8
/-- Class MX.ACC. -/
def clMxAcc : Nat := 9
/-- The format class of a WFMT: MX.A8G, MX.A4G, MX.T3P, MX.BX8. -/
def mxFmtClass (wfmt : Nat) : Nat := 4 + wfmt

/-! ### The AP's commands (R222-R229) -/

/-- Operation numbers of MXE commands. -/
def mxOpTab : Nat := 0
def mxOpFmt : Nat := 1
def mxOpPert : Nat := 2
def mxOpGo : Nat := 3

/-- A command to the MXE: its operand check, its queue of eight entries, its issue (R222). -/
def mxCommand (h : Hdr) (cls : Nat) (bad : Bool) (op m : Nat) (a : BitVec 5) (valueBad : Word → Bool) (s : State) : State :=
  apWord h { cls := cls, cmd := true, bad := bad } (fun t =>
    let v := xr t a
    if valueBad v then .trap 0x02 none
    else if 8 ≤ (t.cur.cmds.filter fun e => e.eng == .mx && !e.started).length then .stall 8 t
    else .done (issueCmd t .mx 0 { op := op, m := m, regs := [v] } [])) s

/-- `mxtab` (R223, R224). -/
def execMxtab (h : Hdr) (d a : BitVec 5) (s : State) : Out :=
  .next (mxCommand h 0 (decide (6 < d.toNat)) mxOpTab d.toNat a (fun v => d != 6 && wbits v 3 3 != 0) s)

/-- `mxfmt` (R223, R225). -/
def execMxfmt (h : Hdr) (d a : BitVec 5) (s : State) : Out :=
  .next (mxCommand h 0 (decide (15 < d.toNat)) mxOpFmt d.toNat a
    (fun v => wbits v 16 24 != 0 || wbits v 6 2 != 0 || wbits v 2 2 != 0) s)

/-- `mxpert` (R223, R227). -/
def execMxpert (h : Hdr) (d a : BitVec 5) (s : State) : Out :=
  .next (mxCommand h clMxPert (decide (2 < d.toNat)) mxOpPert d.toNat a
    (fun v => d == 1 && (wbits v 30 34 != 0 || (wbits v 24 4 == 0 && wbits v 0 24 != 0))) s)

/-- `mxgo` (R223, R228). -/
def execMxgo (h : Hdr) (a : BitVec 5) (s : State) : Out :=
  .next (mxCommand h 0 false mxOpGo 0 a (fun v => decide (4095 < v.toNat)) s)

/-- `mxwait` (R229). -/
def execMxwait (h : Hdr) (s : State) : Out :=
  .next (apWord h { cls := 0 } (fun t => waitFor (engCount t.cur (fun e => e == .mx) == 0) t) s)

/-! ### The loop nest (R213-R215) -/

def lvWord (x : Mx) (l : Nat) : Word := smGet 0 x.nest l
def lvCount (x : Mx) (l : Nat) : Nat := wbits (lvWord x l) 48 16
def lvIdx (x : Mx) (l : Nat) : Nat := x.idx.getD l 0

/-- Σ i_L · stride_L. -/
def nestSum (x : Mx) (stride : Word → Int) : Int :=
  [0, 1, 2, 3, 4, 5].foldl (fun a l => a + (lvIdx x l : Int) * stride (lvWord x l)) 0

/-- The effective tile of a word. -/
def effTile (x : Mx) (field : Nat) : Nat := (((field : Int) + nestSum x fun w => (wbits w 0 3 : Int)) % 8).toNat
/-- The row base RB. -/
def effRb (x : Mx) : Int := nestSum x fun w => sint 10 (wbits w 6 10)
/-- k0. -/
def effK0 (x : Mx) : Int := (wbits (smGet 0 x.nest 6) 32 32 : Int) + 384 * nestSum x fun w => sint 16 (wbits w 32 16)
/-- n0. -/
def effN0 (x : Mx) : Int := (wbits (smGet 0 x.nest 6) 0 32 : Int) + 48 * nestSum x fun w => sint 16 (wbits w 16 16)

/-- The position predicates (R214). -/
def mxPred (x : Mx) (g : Nat) : Bool :=
  if g = 0 then true
  else if g = 7 then
    match [5, 4, 3, 2, 1, 0].find? (fun l => lvCount x l != 0) with
    | some l => lvIdx x l + 1 == lvCount x l
    | none => true
  else lvIdx x (g - 1) == 0

/-- The indices of the next point, innermost level first; none after the last point. -/
def nextIdx (x : Mx) : Nat → List Nat → Option (List Nat)
  | 0, _ => none
  | l + 1, idx =>
    let i := idx.getD l 0 + 1
    let put (v : Nat) : List Nat := tabulate (fun k => if k = l then v else idx.getD k 0) 6
    if i < max 1 (lvCount x l) then some (put i) else nextIdx x l (put 0)

/-- The format entry that a word's operand names (R215). -/
def mxEntry (x : Mx) (f : BitVec 5) : Word :=
  if f.getLsbD 4 then smGet 0 x.fmt ((x.base + (lvIdx x x.level &&& x.mask)) % 16) else smGet 0 x.fmt (f.toNat % 16)

def enAfmt (e : Word) : Nat := wbits e 4 2
/-- G of an entry: 32, 64 or 128. -/
def enG (e : Word) : Nat := 32 * 2 ^ wbits e 8 2
def enSwz (e : Word) : Nat := wbits e 10 4
def enLenient (e : Word) : Bool := wbits e 14 1 == 1
def enStid (e : Word) : Nat := wbits e 40 24

/-- A usable entry (R226). -/
def enUsable (e : Word) : Bool :=
  wbits e 15 1 == 1 && decide (enAfmt e < 2) && (if enWfmt e < 2 then decide (wbits e 8 2 < 3) else wbits e 8 2 == 0)
    && (!enLenient e || enWfmt e == 2)

/-- The formats of an entry pair (R58). -/
def enPaired (e : Word) : Bool := (enAfmt e == 1) == (enWfmt e == 3)

/-- Elements of a group: G, the K-tile for T3P, a block for BX8 (R67). -/
def mxGroup (wfmt g : Nat) : Nat := if wfmt < 2 then g else if wfmt = 2 then 384 else 24

/-- Sign and multiplier, mode of PERT (R227). -/
def ptStep (p : Pert) : Int := (if wbits p.ctl 28 1 = 1 then -1 else 1) * (wbits p.ctl 24 4 : Int)
def ptBin (p : Pert) : Bool := wbits p.ctl 29 1 == 1

/-! ### Words (R217, R230-R233) -/

/-- The active bank's number. -/
def actBank (x : Mx) : Nat := if x.act then 1 else 0
def shadowBank (x : Mx) : Nat := 1 - actBank x

/-- How the effect of an MXE word ends: finished at issue, a job that finishes later, a taken `mx.ret`, or a fault. -/
inductive MxRes where
  | done (s : State)
  | job (s : State) (j : Job)
  | ret (s : State)
  | trap (cause : Nat) (faddr : Option Word)
  deriving DecidableEq, Repr

/-- Changes the MXE of the current core. -/
def State.modMx (s : State) (f : Mx → Mx) : State := s.modCur fun c => { c with mx := f c.mx }

/-- The format class of the active bank becomes suspect (R219). -/
def suspectBank (s : State) (k : Nat) : State :=
  let x := (s.core k).mx
  suspect s k [mxFmtClass (smGet {} x.banks (actBank x)).fmt]

/-- An MXE word of a core faults: the stream stops at it and the kernel ends (R219, R352). -/
def mxFaultAt (s : State) (k mpc cause : Nat) (faddr : Option Word) : State :=
  let s := if cause = 0x62 ∨ cause = 0x63 then suspectBank s k else s
  let (s, f) := faddrOf s faddr
  endKernel s k 1 mpc cause f

/-- The checks at decode and at the masks (R26, R19). -/
def mxDecodeFault (h : Hdr) (bad : Bool) (cls : Nat) (c : Core) : Option Nat :=
  if 2 ≤ h.vs.toNat then some 0x03
  else if bad then some 0x02
  else if !c.sys.oum.getLsbD cls then some 0x06
  else if !c.sys.ccm.getLsbD cls then some 0x07
  else none

/-- Unfinished jobs of given kinds, on a tile where one is named (R217). -/
def jobsOf (x : Mx) (ks : List JobKind) (tile : Option Nat := none) : Bool :=
  x.jobs.any fun j => ks.contains j.kind && (match tile with | some t => j.tile == t | none => true)

/-- What an MXE word does (R24, R25, R217): checks, pops, guard, interlocks, its effect, the pushes of a word that finishes at
issue; the replay window notes it (R220). -/
def mxWord (h : Hdr) (bad : Bool) (cls : Mx → Nat) (free : Mx → Bool) (body : State → MxRes) (s : State) : State :=
  let c := s.cur
  let k := s.turn.1
  let stall (w : Nat) (t : State) : State := t.modMx fun x => { x with stall := w }
  match mxDecodeFault h bad (cls c.mx) c with
  | some f => mxFaultAt s k c.mx.mpc f none
  | none =>
    if pushHeld c .mx then stall 2 s
    else if c.mx.popped = false ∧ popsReady c (hdrPops .mx h) = false then stall 1 s
    else
      let s := if c.mx.popped then s else (s.modCur fun c => takePops c (hdrPops .mx h)).modMx fun x => { x with popped := true }
      let on := mxPred c.mx h.g.toNat
      let past (t : State) : State := t.modMx fun x => { x with mpc := x.mpc + 1, popped := false, stall := 0 }
      let push (t : State) : State := t.modCur fun c => askPushes c .mx (hdrPushes .mx h)
      let note (t : State) : State := t.modMx fun x => { x with window := { x.window with words := x.window.words + 1 } }
      if !on then push (past s)
      else if !free c.mx then stall 4 s
      else match body (note s) with
        | .done t => push (past t)
        | .ret t => push (t.modMx fun x => { x with popped := false, stall := 0 })
        | .job t j =>
          (past t).modMx fun x => { x with
            jobs := x.jobs ++ [{ j with cmd := x.routine.getD 0, next := c.cycle, pushes := hdrPushes .mx h, mpc := c.mx.mpc }] }
        | .trap f a => mxFaultAt s k c.mx.mpc f a

/-- The control unit is free: no swap unfinished (R217). -/
def ctrlFree (x : Mx) : Bool := !jobsOf x [.swap]
/-- Words of the drain unit. -/
def drainUnit : List JobKind := [.zero, .drain, .chk, .bias]

/-- `mx.nop` (R233). -/
def execMxNop (h : Hdr) (s : State) : Out := .next (mxWord h false (fun _ => clMxAcc) ctrlFree (fun t => .done t) s)

/-- `mx.swap` (R217, R233). -/
def execMxSwap (h : Hdr) (s : State) : Out :=
  .next (mxWord h false (fun _ => clMxAcc) (fun x => !jobsOf x [.ldw, .run, .swap])
    (fun t => .job (t.modMx fun x => { x with window := { x.window with swap := true } }) { kind := .swap }) s)

/-- `mx.mark` (R220, R233): a new replay window. -/
def execMxMark (h : Hdr) (s : State) : Out :=
  .next (mxWord h false (fun _ => clMxAcc) ctrlFree
    (fun t => .done (t.modMx fun x => { x with window := { opened := true, busy := x.window.busy } })) s)

/-- `mx.fsel` (R215, R233). -/
def execMxFsel (h : Hdr) (l : BitVec 3) (b m : BitVec 4) (s : State) : Out :=
  .next (mxWord h (decide (6 ≤ l.toNat)) (fun _ => clMxAcc) ctrlFree
    (fun t => .done (t.modMx fun x => { x with level := l.toNat, base := b.toNat, mask := m.toNat })) s)

/-- `mx.ret` (R228): the next point of the nest, or the end of the routine. -/
def execMxRet (h : Hdr) (s : State) : Out :=
  .next (mxWord h false (fun _ => clMxAcc) ctrlFree (fun t =>
    match nextIdx t.cur.mx 6 t.cur.mx.idx with
    | some i => .ret (t.modMx fun x => { x with idx := i, mpc := x.start })
    | none => .ret (t.modMx fun x => { x with mpc := x.mpc + 1, ending := x.ending ++ x.routine.toList, routine := none })) s)

/-- `mx.zero` (R233). -/
def execMxZero (h : Hdr) (k : BitVec 3) (s : State) : Out :=
  let tile := effTile s.cur.mx k.toNat
  .next (mxWord h false (fun _ => clMxAcc) (fun x => !jobsOf x drainUnit && !jobsOf x [.run] (some tile))
    (fun t => .job (t.modMx fun x => { x with window := { x.window with zeroed := tile :: x.window.zeroed } })
      { kind := .zero, tile := tile }) s)

/-- The number of the lowest row of a tile whose residue is not zero (R211). -/
def badResidue (x : Mx) (tile : Nat) : Option Nat :=
  (x.residue.find? fun e => decide (192 * tile ≤ e.1) && decide (e.1 < 192 * tile + 192) && e.2 != 0).map fun e => e.1 - 192 * tile

/-- `mx.chk` (R211, R233). -/
def execMxChk (h : Hdr) (k : BitVec 3) (s : State) : Out :=
  let tile := effTile s.cur.mx k.toNat
  .next (mxWord h false (fun _ => clMxAcc) (fun x => !jobsOf x drainUnit && !jobsOf x [.run] (some tile)) (fun t =>
    match badResidue t.cur.mx tile with
    | some r => .trap 0x62 (some (w64 r))
    | none => .job t { kind := .chk, tile := tile }) s)

/-- `mx.bias` (R218, R233). -/
def execMxBias (h : Hdr) (s : State) : Out :=
  .next (mxWord h false (fun _ => clMxAcc) (fun x => !jobsOf x drainUnit) (fun t => .job t { kind := .bias }) s)

/-- n rows of a run or drain: 1 to 192 (R230). -/
def rowsBad (n : BitVec 8) : Bool := n == 0 || decide (192 < n.toNat)

/-- Rows RB to RB + n - 1 leave the tile (R213). -/
def rbBad (x : Mx) (n : Nat) : Bool := decide (effRb x < 0) || decide (191 < effRb x) || decide (192 < effRb x + (n : Int))

/-- `mx.drain` (R218, R233). -/
def execMxDrain (h : Hdr) (e r b : BitVec 1) (n : BitVec 8) (k : BitVec 3) (s : State) : Out :=
  let tile := effTile s.cur.mx k.toNat
  .next (mxWord h (rowsBad n) (fun _ => clMxAcc) (fun x => !jobsOf x drainUnit && !jobsOf x [.run] (some tile)) (fun t =>
    if rbBad t.cur.mx n.toNat then .trap 0x60 none
    else .job t { kind := .drain, tile := tile, rb := (effRb t.cur.mx).toNat, n := n.toNat,
                  bias := b == 1, relu := r == 1, clear := e == 1 }) s)

/-- The format operand is one of F0 to F15 or `fx` (R230). -/
def fmtBad (f : BitVec 5) : Bool := f.getLsbD 4 && f.toNat % 16 != 0

/-- `mx.ldw` (R231). -/
def execMxLdw (h : Hdr) (f : BitVec 5) (s : State) : Out :=
  .next (mxWord h (fmtBad f) (fun x => if ptTid x.pert ≠ 0 then clMxPert else mxFmtClass (enWfmt (mxEntry x f)))
    (fun x => !jobsOf x [.ldw, .swap] && !x.jobs.any fun j => j.kind == .run && j.bank == shadowBank x) (fun t =>
    let x := t.cur.mx
    let e := mxEntry x f
    let k0 := effK0 x
    let n0 := effN0 x
    let unit : Int := if enWfmt e < 2 then (enG e : Int) else if enWfmt e = 2 then 40 else 24
    if !enUsable e then .trap 0x43 none
    else if enWfmt e = 2 ∧ ptTid x.pert ≠ 0 then .trap 0x61 none
    else if k0 % unit ≠ 0 then .trap 0x41 none
    else if k0 < 0 ∨ n0 < 0 then .trap 0x60 none
    else
      let b := shadowBank x
      .job (t.modMx fun x => { x with banks := smPut x.banks b { smGet {} x.banks b with valid := false } })
        { kind := .ldw, entry := e, k0 := k0.toNat, n0 := n0.toNat, bank := b, pert := x.pert }) s)

/-- `mx.run` (R232). DESIGN CHOICE (log entry 69): a bank with an uncorrectable error is found at issue, after 0x43 and 0x60, before a row
is popped. -/
def execMxRun (h : Hdr) (f : BitVec 5) (n : BitVec 8) (k : BitVec 3) (s : State) : Out :=
  let tile := effTile s.cur.mx k.toNat
  .next (mxWord h (fmtBad f || rowsBad n) (fun x => mxFmtClass (enWfmt (mxEntry x f)))
    (fun x => !jobsOf x [.run, .swap] && !jobsOf x [.zero, .drain] (some tile)) (fun t =>
    let x := t.cur.mx
    let e := mxEntry x f
    let b := smGet {} x.banks (actBank x)
    if !enUsable e || !enPaired e then .trap 0x43 none
    else if !b.valid || b.fmt != enWfmt e || b.g != mxGroup (enWfmt e) (enG e) || rbBad x n.toNat
      || decide (b.k0 < smGet 0 x.klast tile) then .trap 0x60 none
    else if b.poisoned then .trap 0xB1 none
    else .job t { kind := .run, tile := tile, rb := (effRb x).toNat, n := n.toNat, entry := e, bank := actBank x }) s)

/-! ### The loader (R210-R212, R216) -/

/-- Code rows of a tile image. -/
def codeRows (wfmt : Nat) : Nat := if wfmt = 1 then 24 else if wfmt = 2 then 12 else 48

/-- Side rows of a tile image. -/
def sideRows (wfmt g : Nat) : Nat := if wfmt < 2 then ceilDiv (144 * (384 / g)) 384 else if wfmt = 2 then 1 else 2

/-- A T3P byte at byte j of its slot that is not a valid code (R57, R212). -/
def t3Bad (j b : Nat) : Bool := decide (243 ≤ b) || (j == 76 && decide (81 ≤ b))

/-- Offsets of the bytes of row `i` of a tile image whose code or zero point is invalid (R212). -/
def rowBadBytes (e : Word) (i : Nat) (r : Row) : List Nat :=
  let nc := codeRows (enWfmt e)
  if enWfmt e = 2 ∧ i < nc then
    (List.range 384).filter fun o => decide (o % 96 < 77) && t3Bad (o % 96) (rowByte r o).toNat
  else if enWfmt e = 1 ∧ nc ≤ i then
    let z := 96 * (384 / enG e)
    (List.range 384).filter fun o =>
      decide (z ≤ 384 * (i - nc) + o) && decide (384 * (i - nc) + o < z + 48 * (384 / enG e)) && decide (15 < (rowByte r o).toNat)
  else []

/-- The check of a row as it is popped (R219): the fault, or the LEN events it counts. -/
def rowCheck (raw : Bool) (swz : Nat) (e : Option Word) (i : Nat) (r : QRow) : Sum (Nat × Word) Nat :=
  if !raw && r.tag.toNat != swz then .inl (0x42, w64 (swz * 16 + r.tag.toNat))
  else if r.poison then .inl (0xB1, w64 (i * 65536))
  else match e with
    | none => .inr 0
    | some e =>
      match rowBadBytes e i r.data with
      | [] => .inr 0
      | o :: os => if enWfmt e = 2 ∧ enLenient e then .inr (os.length + 1) else .inl (0x40, w64 (i * 65536 + o))

/-- The code of element (k, n) as the tile image holds it. -/
def imageCode (wfmt : Nat) (rows : List QRow) (k n : Nat) : Nat :=
  let row (i : Nat) : Row := match rows[i]? with | some r => r.data | none => 0
  if wfmt = 1 then (rowByte (row (n / 2)) (192 * (n % 2) + k / 2)).toNat / (if k % 2 = 0 then 1 else 16) % 16
  else if wfmt = 2 then
    let b := (rowByte (row (n / 4)) (96 * (n % 4) + k / 5)).toNat
    if t3Bad (k / 5) b then 0 else b / 3 ^ (k % 5) % 3
  else (rowByte (row n) k).toNat

/-- The code after the perturbing loader (R216). -/
def loadedCode (wfmt : Nat) (p : Pert) (k0 n0 : Nat) (rows : List QRow) (k n : Nat) : Nat :=
  let q := imageCode wfmt rows k n
  let kdim := wbits p.ext 0 32
  let ndim := wbits p.ext 32 32
  if ptTid p = 0 ∨ wfmt = 2 ∨ kdim ≤ k0 + k ∨ ndim ≤ n0 + n ∨ (wfmt = 3 ∧ q = 0x80) then q
  else
    let i := (k0 + k) * ndim + (n0 + n)
    let z := draw (ptBin p) (grt p.key (BitVec.ofNat 24 (ptTid p)) 0 (BitVec.ofNat 32 i))
    let v := (if wfmt = 3 then sint 8 q else (q : Int)) + ptStep p * z
    let lo : Int := if wfmt = 3 then -127 else 0
    let hi : Int := if wfmt = 3 then 127 else if wfmt = 1 then 15 else 255
    intBits 8 (max lo (min hi v))

/-- The value of a code in the sums of R67 and R211: a BX8 mantissa of 0x80 counts as 0. -/
def codeVal (wfmt : Nat) (b : Byte) : Int :=
  if wfmt = 3 then (if b = 0x80 then 0 else b.toInt)
  else if wfmt = 2 then (if b = 2 then -1 else (b.toNat : Int))
  else (b.toNat : Int)

/-- A byte of the side rows. -/
def sideByte (rows : List QRow) (o : Nat) : Byte :=
  match rows[o / 384]? with
  | some r => rowByte r.data (o % 384)
  | none => 0

/-- The bank that a finished load leaves (R211, R212, R231). -/
def loadBank (j : Job) : Bank :=
  let w := enWfmt j.entry
  let g := mxGroup w (enG j.entry)
  let groups := if w < 2 then 384 / g else 1
  let side := j.rows.drop (codeRows w)
  let cols := tabulate (fun n => (n, rowOfBytes fun k => BitVec.ofNat 8 (loadedCode w j.pert j.k0 j.n0 j.rows k n))) 48
  let fill {α : Type} [DecidableEq α] (d : α) (n : Nat) (f : Nat → α) : SMap α :=
    (tabulate (fun i => (i, f i)) n).filter fun e => e.2 != d
  { valid := true, fmt := w, g := g, k0 := j.k0, n0 := j.n0, entry := j.entry
    codes := cols.filter fun e => e.2 != 0
    sc := if w = 3 then [] else fill 0 (48 * groups) fun i =>
      sideByte side (96 * (i / 48) + 2 * (i % 48) + 1) ++ sideByte side (96 * (i / 48) + 2 * (i % 48))
    zp := if w < 2 then fill 0 (48 * groups) fun i => sideByte side (96 * groups + i) else []
    ex := if w = 3 then fill 0 768 fun i => sideByte side i else []
    chk := fill 0 384 fun k => cols.foldl (fun a c => a + codeVal w (rowByte c.2 k)) 0 }

/-! ### The array (R67, R211, R232) -/

/-- Step 2 of R67: a sum of 0 gives +0 unless the scale is not finite. -/
def mxProduct (s : Int) (w : FV) : Nat :=
  match w with
  | .fin _ _ _ _ => if s = 0 then 0 else rne fp32 (FV.mul (FV.ofInt s) w)
  | _ => rne fp32 (FV.mul (FV.ofInt s) w)

/-- The sum over a group of activations times codes. -/
def groupSum (a : Nat → Int) (q : Nat → Int) (lo n : Nat) : Int :=
  (List.range n).foldl (fun t i => t + a (lo + i) * q (lo + i)) 0

/-- The rounded product of one group and column. -/
def groupProduct (b : Bank) (act : Row) (side : Row) (j col g : Nat) : Nat :=
  let code (k : Nat) : Byte := rowByte (smGet 0 b.codes col) k
  if b.fmt = 3 then
    let ea := (rowByte side (16 * (j % 24) + g)).toNat
    let ew := (smGet 0 b.ex (16 * col + g)).toNat
    let nan (e : Nat) (f : Nat → Byte) : Bool := e == 255 || (e != 0 && (List.range 24).any fun i => f (24 * g + i) == 0x80)
    if nan ea (rowByte act) || nan ew code then fp32.nanBits
    else if ea = 0 ∨ ew = 0 then 0
    else mxProduct (groupSum (fun k => codeVal 3 (rowByte act k)) (fun k => codeVal 3 (code k)) (24 * g) 24)
      (.fin false 1 1 ((ea : Int) - 133 + ((ew : Int) - 133)))
  else
    let a (k : Nat) : Int := (rowByte act k).toInt
    let sw := fp16.val (smGet 0 b.sc (48 * g + col)).toNat
    let sa := fp32.val (rowLane side (j % 96)).toNat
    let zp : Int := ((smGet 0 b.zp (48 * g + col)).toNat : Int)
    let sum := groupSum a (fun k => codeVal b.fmt (code k)) (b.g * g) b.g - zp * groupSum a (fun _ => 1) (b.g * g) b.g
    mxProduct sum (FV.mul sw sa)

/-- What one activation row adds to a residue (R211): in a correct array, zero. -/
def residueTerm (b : Bank) (act : Row) : Int :=
  let a (k : Nat) : Int := if b.fmt = 3 then codeVal 3 (rowByte act k) else (rowByte act k).toInt
  let cs := groupSum a (fun k => smGet 0 b.chk k) 0 384
  let cols := (List.range 48).foldl (fun t n => t + groupSum a (fun k => codeVal b.fmt (rowByte (smGet 0 b.codes n) k)) 0 384) 0
  cs - cols

/-- Accumulates row j of a run (R232). -/
def runRow (x : Mx) (j : Job) (act side : Row) : Mx :=
  let b := smGet {} x.banks j.bank
  let row := 192 * j.tile + j.rb + j.j
  let groups := 384 / b.g
  let acc := (List.range 48).foldl (fun m col =>
    let c := (List.range groups).foldl (fun c g => add32 c (groupProduct b act side j.j col g)) (smGet 0 m (48 * row + col)).toNat
    smSet 0 m (48 * row + col) (BitVec.ofNat 32 c)) x.acc
  { x with acc := acc, residue := smSet 0 x.residue row (smGet 0 x.residue row + wordOfInt (residueTerm b act)) }

/-! ### The steps -/

/-- How one cycle of a job ends: it goes on, it has finished, or its word faults. -/
inductive JobRes where
  | go (s : State) (j : Job)
  | fin (s : State)
  | trap (cause : Nat) (faddr : Word)
  deriving DecidableEq, Repr

def modMxOf (s : State) (k : Nat) (f : Mx → Mx) : State :=
  let c := s.core k
  s.setCore k { c with mx := f c.mx }

/-- The cycle of a load in which row i of its tile image is popped, if LQM keeps pace (R212): code rows at the element rate, the side
rows after the last of them, one a cycle. DEDUCED (log entry 11): the last code rows are popped as much sooner as it takes for the
side rows to add no cycle. -/
def rowDue (j : Job) (i : Nat) : Nat :=
  let nc := codeRows (enWfmt j.entry)
  let need := nc + sideRows (enWfmt j.entry) (enG j.entry)
  let code (r : Nat) : Nat := min (r * (loadCycles j / nc)) (loadCycles j - need + r)
  if i < nc then code i else code (nc - 1) + (i + 1 - nc)

/-- A cycle of a load (R212, R217): a row that is due is popped, and an empty LQM then extends the load. DESIGN CHOICE (log entry 69): a
row that fails its check stays in LQM. -/
def ldwCycle (s : State) (k : Nat) (j : Job) : JobRes :=
  let c := s.core k
  let need := codeRows (enWfmt j.entry) + sideRows (enWfmt j.entry) (enG j.entry)
  if need ≤ j.rows.length ∧ loadCycles j ≤ j.el then
    .fin (modMxOf s k fun x => { x with banks := smPut x.banks j.bank (loadBank j) })
  else if need ≤ j.rows.length ∨ j.el < rowDue j j.rows.length then .go s { j with el := j.el + 1 }
  else match c.q.lqm with
    | [] => .go s j
    | r :: rest =>
      match rowCheck c.sys.raw (enSwz j.entry) (some j.entry) j.rows.length r with
      | .inl (f, a) => .trap f a
      | .inr n =>
        .go (s.setCore k (countOn { c with q := { c.q with lqm := rest } } (enStid j.entry) ⟨0, 0, 0, n⟩))
          { j with rows := j.rows ++ [r], el := j.el + 1 }

/-- AQ entries that may be popped now: those pushed in an earlier cycle (R9). -/
def aqReady (c : Core) : List Row := (c.q.aq.takeWhile fun e => decide (e.1 < c.cycle)).map fun e => e.2

/-- A cycle of a run (R217, R232). DESIGN CHOICE (log entry 68): KLAST has 32 bits and takes the run's k0 modulo 2^32. -/
def runCycle (s : State) (k : Nat) (j : Job) : JobRes :=
  let c := s.core k
  let w := enWfmt j.entry
  let t := rowCycles w
  let per := if w = 3 then 24 else 96
  let drop (s : State) (n : Nat) : State :=
    let c := s.core k
    s.setCore k { c with q := { c.q with aq := c.q.aq.drop n }
                         mx := { c.mx with window := { c.mx.window with rows := c.mx.window.rows + n } } }
  if t * j.n + 12 ≤ j.el ∧ j.n ≤ j.j then
    .fin (modMxOf s k fun x => { x with klast := smSet 0 x.klast j.tile ((smGet {} x.banks j.bank).k0 % 2 ^ 32) })
  else if j.n ≤ j.j ∨ j.el < t * j.j then .go s { j with el := j.el + 1 }
  else
    let ready := aqReady c
    if j.sides ≤ j.j / per then
      match ready with
      | side :: act :: _ =>
        .go (modMxOf (drop s 2) k fun x => runRow x j act side) { j with side := side, sides := j.sides + 1, j := j.j + 1, el := j.el + 1 }
      | [side] => .go (drop s 1) { j with side := side, sides := j.sides + 1 }
      | [] => .go s j
    else match ready with
      | act :: _ => .go (modMxOf (drop s 1) k fun x => runRow x j act j.side) { j with j := j.j + 1, el := j.el + 1 }
      | [] => .go s j

/-- A cycle of `mx.bias` (R233). -/
def biasCycle (s : State) (k : Nat) (j : Job) : JobRes :=
  let c := s.core k
  match c.q.lqm with
  | [] => .go s j
  | r :: rest =>
    match rowCheck c.sys.raw 0 none 0 r with
    | .inl (f, a) => .trap f a
    | .inr _ =>
      .fin (s.setCore k { c with q := { c.q with lqm := rest }
                                 mx := { c.mx with bias := (List.range 48).foldl (fun m i => smSet 0 m i (rowLane r.data i)) [] } })

/-- Keys outside a tile's `n` entries. -/
def dropTile {α : Type} (m : SMap α) (tile n : Nat) : SMap α := m.filter fun e => !(decide (n * tile ≤ e.1) && decide (e.1 < n * tile + n))

/-- One cycle of a job that is not a drain. -/
def jobCycle (s : State) (k : Nat) (j : Job) : JobRes :=
  let wait (n : Nat) (done : Mx → Mx) : JobRes :=
    if n ≤ j.el then .fin (modMxOf s k done) else .go s { j with el := j.el + 1 }
  match j.kind with
  | .ldw => ldwCycle s k j
  | .run => runCycle s k j
  | .swap => wait 1 fun x => { x with act := !x.act }
  | .zero => wait 4 fun x =>
      { x with acc := dropTile x.acc j.tile 9216, residue := dropTile x.residue j.tile 192, klast := smSet 0 x.klast j.tile 0 }
  | .chk => wait 2 id
  | .bias => biasCycle s k j
  | .drain => .go s j

/-- The MXE may run: its core's kernel runs, is not frozen, and no replay holds it. DESIGN CHOICE (log entry 70): a replay holds every
unfinished word, staged write and routine start with the stream. -/
def mxLive (c : Core) : Bool := c.alive && !c.frozen && decide (c.mx.window.busy ≤ c.cycle)

/-- One cycle of every job in order. -/
def jobsCycle (k : Nat) : List Job → State → State
  | [], s => s
  | j :: js, s =>
    let c := s.core k
    if j.kind = .drain ∨ c.cycle < j.next then jobsCycle k js s
    else match jobCycle s k j with
      | .go s j' => jobsCycle k js (modMxOf s k fun x => { x with jobs := x.jobs.map fun e => if e = j then { j' with next := c.cycle + 1 } else e })
      | .fin s =>
        let s := modMxOf s k fun x => { x with jobs := x.jobs.erase j }
        jobsCycle k js (s.setCore k (askPushes (s.core k) .mx j.pushes))
      | .trap f a => mxFaultAt s k j.mpc f (some a)

/-- MX_WORD_FINISH (R217): the unfinished words make the progress of a core cycle, after the stream's word of that cycle has issued,
and those that have come to their end finish in it. -/
def execMxWordFinish (core : Nat) (s : State) : Out :=
  .next (if mxLive (s.core core) then jobsCycle core (s.core core).mx.jobs s else s)

/-- The row that a drain pushes (R218). -/
def drainRow (x : Mx) (j : Job) (r : Nat) : Row :=
  rowOfLanes fun col =>
    if 48 ≤ col then 0
    else
      let y := (smGet 0 x.acc (48 * (192 * j.tile + r) + col)).toNat
      let y := if j.bias then add32 y (smGet 0 x.bias col).toNat else y
      let v := fp32.val y
      BitVec.ofNat 32 (if j.relu && !v.isNan && !(FV.lt (.fin false 0 1 0) v) then 0 else y)

/-- MX_DRAIN_ROW (R218): the drain in progress pushes its next row when DQ has room; its last row finishes the word. DESIGN CHOICE (log
entry 69): the first is pushed in the cycle in which the word issues. -/
def execMxDrainRow (core : Nat) (s : State) : Out :=
  let c := s.core core
  .next (match c.mx.jobs.find? (fun j => j.kind == .drain) with
    | none => s
    | some j =>
      if !mxLive c || decide (c.cycle < j.next) || decide (32 ≤ c.q.dq.length) then s
      else
        let r := j.rb + j.j
        let row := 192 * j.tile + r
        let x := c.mx
        let q := { c.q with dq := c.q.dq ++ [(c.cycle, drainRow x j r)] }
        let x := if j.clear then
            { x with acc := x.acc.filter fun e => !(decide (48 * row ≤ e.1) && decide (e.1 < 48 * row + 48)), residue := smSet 0 x.residue row 0 }
          else x
        let last := j.n ≤ j.j + 1
        let x := { x with jobs := if last then x.jobs.erase j
                                  else x.jobs.map fun e => if e = j then { j with j := j.j + 1, next := c.cycle + 1 } else e }
        let c := { c with q := q, mx := x }
        s.setCore core (if last then askPushes c .mx j.pushes else c))

/-- The command at the head of the MXE's queue. -/
def mxHead (c : Core) : Option Cmd :=
  match c.cmds.find? (fun m => m.eng == .mx && !m.started) with
  | some m => if m.at_ ≤ c.cycle then some m else none
  | none => none

/-- MX_STAGED_WRITE_APPLY (R222): a staged write at the head of the queue is applied and retires. -/
def execMxStagedWriteApply (core : Nat) (s : State) : Out :=
  let c := s.core core
  .next (match mxHead c with
    | none => s
    | some m =>
      if !mxLive c || m.op.op == mxOpGo then s
      else
        let v := cmdValue m
        let x := c.mx
        let x := if m.op.op = mxOpTab then { x with nestS := smSet 0 x.nestS m.op.m v }
          else if m.op.op = mxOpFmt then { x with fmtS := smSet 0 x.fmtS m.op.m v }
          else { x with pertS := if m.op.m = 0 then { x.pertS with key := v } else if m.op.m = 1 then { x.pertS with ctl := v } else { x.pertS with ext := v } }
        retireCmd (s.setCore core { c with mx := x }) core m 1 0 0)
where
  /-- The value a command carries. -/
  cmdValue (m : Cmd) : Word := m.op.regs.headD 0

/-- MX_ROUTINE_START (R213, R228): an `mxgo` at the head starts its routine once none is running; it latches the staging
copies. -/
def execMxRoutineStart (core : Nat) (s : State) : Out :=
  let c := s.core core
  .next (match mxHead c with
    | none => s
    | some m =>
      if !mxLive c || m.op.op != mxOpGo || c.mx.routine.isSome then s
      else
        let t := (m.op.regs.headD 0).toNat
        let x := { c.mx with nest := c.mx.nestS, fmt := c.mx.fmtS, pert := c.mx.pertS, mpc := t, start := t,
                             idx := [0, 0, 0, 0, 0, 0], routine := some m.seq, popped := false }
        setCmd (s.setCore core { c with mx := x }) core { m with started := true })

/-- MX_ROUTINE_RETIRE (R228): an `mxgo` retires when every word of its routine has finished, whatever an earlier one still does. -/
def execMxRoutineRetire (core : Nat) (s : State) : Out :=
  let c := s.core core
  .next (match c.mx.ending.find? fun q => !c.mx.jobs.any fun j => j.cmd == q with
    | none => s
    | some q =>
      if !mxLive c then s
      else
        let s := s.setCore core { c with mx := { c.mx with ending := c.mx.ending.erase q } }
        match c.cmd? q with
        | some m => retireCmd s core m 1 0 0
        | none => s)

/-- The replay window allows a replay of a tile (R220). -/
def replayOk (w : Window) (tile : Nat) : Bool :=
  w.opened && decide (w.words ≤ 64) && decide (w.rows ≤ 384) && !w.swap && w.zeroed.contains tile

/-- MX_REPLAY (R220): an uncorrectable error is found in an accumulator row of a tile that a run accumulates or a drain reads.
The window is replayed, to the same bits, while the stream is held for a time the spec does not give (log entry 4); or the
word faults. -/
def execMxReplay (core tile : Nat) (s : State) : Out :=
  let c := s.core core
  .next (match c.mx.jobs.find? (fun j => (j.kind == .run || j.kind == .drain) && j.tile == tile) with
    | none => s
    | some j =>
      if !c.alive || c.frozen then s
      else if replayOk c.mx.window tile && decide (c.mx.window.busy ≤ c.cycle) then
        { modMxOf s core fun x => { x with window := { x.window with busy := c.cycle + 1 + (Config.freeWord s.freeCtr).toNat } } with
          freeCtr := s.freeCtr + 1 }
      else mxFaultAt s core j.mpc 0x63 none)

end Sys2Proof.Machine
end

