-- ==== Sys2Proof/Machine/Seed.lean ====
section
/-!
DEFINITION. The seed engine (16_seed.md R275-R289): the log context, records, gaps, fetches and replay.
-/

namespace Sys2Proof.Machine

/-- Class SD (R18). -/
def clSd : Nat := 24

/-- Operation numbers of seed commands: those of the E form's F field. -/
def sdOpEmit : Nat := 1
def sdOpApply : Nat := 2
def sdOpGap : Nat := 3
def sdOpFetch : Nat := 4

/-- `sd.seed` (R277). -/
def execSdSeed (h : Hdr) (d a : BitVec 5) (s : State) : Out :=
  .next (apValue h { cls := clSd } 8 d (fun t => seedOf t.cur.sd.rk (xr t a)) s)

/-- `sd.key` (R276). -/
def execSdKey (h : Hdr) (a : BitVec 5) (s : State) : Out :=
  .next (apWord h { cls := clSd, bad := decide (29 < a.toNat) } (fun t =>
    if engCount t.cur (fun e => e == .seed) ≠ 0 then .stall 0 t
    else
      let cfg := xg t a 1
      if wbits cfg 32 32 ≠ 0 then .trap 0x02 none
      else match winOf t t.turn.1 (wbits cfg 0 8) with
        | none => .trap 0x26 none
        | some w =>
          if nbits w.ctl 1 3 ≠ 7 ∨ w.len ≠ 33554432 then .trap 0x26 none
          else .done (result t 1 (.sdKey (xr t a) cfg (xg t a 2)) 0)) s)

/-- The checks that the seed commands share, in the order of R281, and the issue. -/
def sdIssue (h : Hdr) (op n lim : Nat) (a : BitVec 5) (fieldBad : State → Bool) (foot : State → Nat × Bool) (align : Nat)
    (s : State) : State :=
  apWord h { cls := clSd, cmd := true, bad := decide (lim < a.toNat) } (fun t =>
    let ccw := xr t a
    let va := xg t a 1
    let f := if t.cur.sys.det then footOf t t.turn.1 va (foot t).1 (foot t).2 else []
    if t.cur.sd.keyed = false then .trap 0x26 none
    else if fieldBad t || ccwBad ccw true then .trap 0x02 none
    else match overlapVa t.cur ccw .seed f with
      | some v => .trap 0xE4 (some v)
      | none =>
        if va.toNat % align ≠ 0 then .trap 0x23 (some va)
        else if 16 ≤ (t.cur.cmds.filter fun m => m.eng == .seed && !m.started).length then .stall 8 t
        else .done (issueCmd t .seed ccw { op := op, regs := tabulate (fun i => xg t a i) n } f)) s

/-- RANKM1 and PROBEM1 of SDCFG (R275). -/
def sdRankM1 (cfg : Word) : Nat := wbits cfg 8 16
def sdProbeM1 (cfg : Word) : Nat := wbits cfg 24 8

/-- `sd.emit` (R282). -/
def execSdEmit (h : Hdr) (a : BitVec 5) (s : State) : Out :=
  .next (sdIssue h sdOpEmit 4 28 a (fun t =>
    let v := xg t a 3
    wbits v 25 39 != 0 || decide (sdRankM1 t.cur.sd.cfg < wbits v 0 16) || decide (sdProbeM1 t.cur.sd.cfg < wbits v 16 8))
    (fun _ => (32, true)) 32 s)

/-- `sd.gap` (R283). -/
def execSdGap (h : Hdr) (a : BitVec 5) (s : State) : Out :=
  .next (sdIssue h sdOpGap 3 29 a (fun _ => false) (fun _ => (16, true)) 8 s)

/-- `sd.fetch` (R284). -/
def execSdFetch (h : Hdr) (a : BitVec 5) (s : State) : Out :=
  .next (sdIssue h sdOpFetch 4 28 a (fun t =>
    let c := (xg t a 2).toNat
    let v := xg t a 3
    let n := wbits v 60 2
    c == 0 || decide (4096 < c) || n == 0 || wbits v 62 2 != 0
      || ((List.range n).any fun i => decide ((membersOf t t.turn.1).length ≤ wbits v (20 * i) 20)))
    (fun _ => (0, false)) 1 s)

/-- `sd.apply` (R286). -/
def execSdApply (h : Hdr) (a : BitVec 5) (s : State) : Out :=
  .next (sdIssue h sdOpApply 3 29 a (fun _ => false) (fun _ => (64, true)) 64 s)

/-! ### Records and slots (R278, R279) -/

/-- What a slot holds for a wanted SEQ. -/
inductive Slot where
  | present | corrupt | overwritten | absent
  deriving DecidableEq, Repr

/-- The state of 32 bytes for SEQ `q` (R279). -/
def slotState (bs : List Byte) (q : Nat) : Slot :=
  let seq := leNat (bs.take 8)
  let flags := leNat ((bs.drop 0x17).take 1)
  if seq = q ∧ flags % 2 = 1 then
    if flags / 4 = 0 ∧ leNat ((bs.drop 0x1C).take 4) = (crc32c (bs.take 0x1C)).toNat then .present else .corrupt
  else if q < seq then .overwritten
  else .absent

/-- The 32 bytes of a record (R278, R282). -/
def recordOf (rk : Word) (seq g rank probe step : Nat) (void : Bool) : List Byte :=
  let bad := void || (match fp32.val g with | .fin _ _ _ _ => false | _ => true)
  let body := leBytes 8 seq ++ leBytes 8 (seedOf rk (w64 seq)).toNat ++ leBytes 4 (if bad then 0 else g) ++ leBytes 2 rank
    ++ leBytes 1 probe ++ leBytes 1 (if bad then 3 else 1) ++ leBytes 4 step
  body ++ leBytes 4 (crc32c body).toNat

/-- The VA of a slot in a member's log. -/
def slotVa (win : Win) (rank q : Nat) : Word := winVa win rank (32 * (q % 2 ^ 20))

/-- The pair log's window of a core. -/
def logWin (s : State) (k : Nat) : Option Win := winOf s k (wbits (s.core k).sd.cfg 0 8)

/-- Reads 32 bytes of the core's own log for command `m`. -/
def ownSlot (s : State) (k : Nat) (m : Cmd) (win : Win) (q : Nat) : Sum State (State × List Byte) :=
  let va := slotVa win (s.core k).rank q
  match engAccess s k m va 32 { r := true } m.bytes with
  | .stop s => .inl s
  | .ok s xl => if vaPoison s k xl va 32 then .inl (engFault s k m 0x71 m.bytes) else .inr (s, vaBytes s k xl va 32)

/-- Retires a seed command successfully. -/
def sdDone (s : State) (k : Nat) (m : Cmd) (bytes : Nat) : State := retireCmd s k m 1 0 bytes

/-- Writes bytes for a command, or stops. -/
def sdWrite (s : State) (k : Nat) (m : Cmd) (va : Word) (bs : List Byte) : EngRes :=
  match engAccess s k m va bs.length { w := true } m.bytes with
  | .stop s => .stop s
  | .ok s xl => .ok (vaStore s k xl va bs) xl

/-- Runs `sd.emit` (R282). -/
def runEmit (s : State) (k : Nat) (m : Cmd) : State :=
  let sd := (s.core k).sd
  let ranks := sdRankM1 sd.cfg + 1
  let probes := sdProbeM1 sd.cfg + 1
  let g := wbits (cmdReg m 2) 0 32
  let step := wbits (cmdReg m 2) 32 32
  let v := cmdReg m 3
  let rank := wbits v 0 16
  let probe := wbits v 16 8
  let seq := step * (ranks * probes) + rank * probes + probe
  match sdWrite s k m (cmdReg m 1) (recordOf sd.rk seq g rank probe step (wbits v 24 1 == 1)) with
  | .stop s => s
  | .ok s _ => sdDone s k m 32

/-- The scan of R283 from SEQ `q`: the first missing SEQ, then the first present one after it. A command that waits for a walk
keeps the slots passed in `pos`, and the first missing SEQ in `memo`. -/
def gapScan (k : Nat) (win : Win) (hi : Nat) : Nat → Nat → State → Cmd → Sum State (State × Cmd × Nat × Nat)
  | 0, q, s, m => .inr (s, m, (m.memo.headD [q]).headD q, hi)
  | n + 1, q, s, m =>
    match ownSlot s k m win q with
    | .inl s => .inl s
    | .inr (s, bs) =>
      let next := { m with pos := m.pos + 1 }
      match m.memo, slotState bs q with
      | [], .present => gapScan k win hi n (q + 1) s next
      | [], _ => gapScan k win hi n (q + 1) s { next with memo := [[q]] }
      | f :: _, .present => .inr (s, m, f.headD q, q)
      | _ :: _, _ => gapScan k win hi n (q + 1) s next

/-- Sets the apply frontier of a core. -/
def setFrontier (s : State) (k f : Nat) : State :=
  let c := s.core k
  s.setCore k { c with sd := { c.sd with fr := w64 f } }

/-- Runs `sd.gap` (R283). -/
def runGap (s : State) (k : Nat) (m : Cmd) (win : Win) : State :=
  let fr := (s.core k).sd.fr.toNat
  let hi := (cmdReg m 2).toNat
  if hi < fr ∨ 2 ^ 20 < hi - fr then retireCmd s k m 2 0xA2 hi
  else match gapScan k win hi (hi - fr - m.pos) (fr + m.pos) s m with
    | .inl s => s
    | .inr (s, m, f, n) =>
      match sdWrite s k m (cmdReg m 1) (leBytes 8 f ++ leBytes 8 n) with
      | .stop s => s
      | .ok s _ => sdDone (setFrontier s k f) k m 16

/-- How the search of the peers for one SEQ ends. -/
inductive PeerRes where
  | stop (s : State)
  | found (s : State) (bs : List Byte)
  | none (s : State) (lost bad : Bool)
  deriving DecidableEq, Repr

/-- Asks the named peers in order (R284). -/
def askPeers (s : State) (k : Nat) (m : Cmd) (win : Win) (q : Nat) : List Nat → Bool → Bool → PeerRes
  | [], lost, bad => .none s lost bad
  | p :: ps, lost, bad =>
    if (lostOf s k).contains p then askPeers s k m win q ps lost bad
    else match (membersOf s k)[p]? with
      | none => askPeers s k m win q ps lost bad
      | some j =>
        let va := slotVa win p q
        match farAccess s k m j win va 32 { r := true } with
        | .stop s => .stop s
        | .ok s xl =>
          if vaPoison s j xl va 32 then .stop (engFault s k m 0x71 m.bytes)
          else
            let bs := vaBytes s j xl va 32
            match slotState bs q with
            | .present => .found s bs
            | .corrupt => askPeers s k m win q ps lost true
            | .absent => askPeers s k m win q ps false bad
            | .overwritten => askPeers s k m win q ps lost bad

/-- One SEQ of R284: it is passed over, or the record that a peer holds is placed. The command passes each SEQ once: what it has
found for one whose write waits for a walk is kept in `memo`. -/
def fetchOne (s : State) (k : Nat) (m : Cmd) (win : Win) (peers : List Nat) (q : Nat) : Sum State (State × Cmd) :=
  let past := { m with pos := m.pos + 1, memo := [] }
  let place (s : State) (bs : List Byte) : Sum State (State × Cmd) :=
    match sdWrite s k { m with memo := [bs.map BitVec.toNat] } (slotVa win (s.core k).rank q) bs with
    | .stop s => .inl s
    | .ok s _ => .inr (s, { past with bytes := m.bytes + 1 })
  match m.memo with
  | bs :: _ => place s (bs.map (BitVec.ofNat 8))
  | [] =>
    match ownSlot s k m win q with
    | .inl s => .inl s
    | .inr (s, bs) =>
      if slotState bs q = .present then .inr (s, past)
      else match askPeers s k m win q peers true false with
        | .stop s => .inl s
        | .none s lost bad =>
          if bad then .inl (retireCmd s k m 2 0xA1 q)
          else if lost then .inl (retireCmd s k m 2 0xA0 q)
          else .inr (s, past)
        | .found s bs => place s bs

/-- The loop of R284: `n` SEQs are left from `q` on; `m.bytes` counts the records placed, `m.pos` the SEQs passed. -/
def fetchLoop (k : Nat) (win : Win) (peers : List Nat) : Nat → Nat → State → Cmd → State
  | 0, _, s, m => sdDone s k m m.bytes
  | n + 1, q, s, m =>
    match fetchOne s k m win peers q with
    | .inl s => s
    | .inr (s, m) => fetchLoop k win peers n (q + 1) (setCmd s k m) m

/-- Runs `sd.fetch` (R284). -/
def runFetch (s : State) (k : Nat) (m : Cmd) (win : Win) : State :=
  let v := cmdReg m 3
  fetchLoop k win (tabulate (fun i => wbits v (20 * i) 20) (wbits v 60 2)) ((cmdReg m 2).toNat - m.pos) ((cmdReg m 1).toNat + m.pos) s m

/-! ### Replay (R285-R287) -/

/-- A replay descriptor. -/
structure Replay where
  w : Nat
  scales : Nat
  kdim : Nat
  ndim : Nat
  ctl : Nat
  eta : Nat
  next : Nat
  deriving DecidableEq, Repr

/-- Reads a replay descriptor from its 64 bytes. -/
def replayOf (bs : List Byte) : Replay :=
  let f (o n : Nat) : Nat := leNat ((bs.drop o).take n)
  ⟨f 0 8, f 8 8, f 0x10 4, f 0x14 4, f 0x18 8, f 0x20 4, f 0x28 8⟩

/-- The lowest failing offset of a descriptor (R285). -/
def replayBad (bs : List Byte) : Option Nat :=
  let d := replayOf bs
  let ctlBad := nbits d.ctl 31 33 != 0 || nbits d.ctl 29 2 == 3 || nbits d.ctl 24 4 == 0 || nbits d.ctl 0 24 == 0
  (([(0x00, d.w % 4 != 0), (0x10, d.kdim == 0 || decide (2 ^ 32 < d.kdim * d.ndim)), (0x14, d.ndim == 0), (0x18, ctlBad),
    (0x24, leNat ((bs.drop 0x24).take 4) != 0), (0x30, leNat ((bs.drop 0x30).take 16) != 0)].filter fun e => e.2).map
      fun e => e.1).head?

/-- An entry of the log that replay applies: SEED and G; none if it is VOID. -/
abbrev Entry := Option (Word × Nat)

/-- An entry as a command keeps it in `memo`. -/
def entryNums : Entry → List Nat
  | some (seed, g) => [seed.toNat, g]
  | none => []

/-- The entry that such numbers stand for. -/
def entryOf : List Nat → Entry
  | seed :: g :: _ => some (w64 seed, g)
  | _ => none

/-- Reads the records from `q` on, up to the first missing one (R286): the entries stand in `memo`, behind the descriptor. -/
def readEntries (k : Nat) (win : Win) : Nat → Nat → State → Cmd → Sum State (State × Cmd)
  | 0, _, s, m => .inr (s, m)
  | n + 1, q, s, m =>
    match ownSlot s k m win q with
    | .inl s => .inl s
    | .inr (s, bs) =>
      match slotState bs q with
      | .corrupt => .inl (retireCmd s k m 2 0xA1 q)
      | .present =>
        let void := leNat ((bs.drop 0x17).take 1) / 2 % 2 = 1
        let e : Entry := if void then none else some (w64 (leNat ((bs.drop 8).take 8)), leNat ((bs.drop 0x10).take 4))
        readEntries k win n (q + 1) s { m with memo := m.memo ++ [entryNums e] }
      | _ => .inr (s, m)

/-- One entry applied to a weight (R286). -/
def applyEntry (d : Replay) (sg : FV) (i : Nat) (w : Nat) (e : Entry) : Nat :=
  match e with
  | none => w
  | some (seed, g) =>
    let c := rne fp32 (FV.mul (FV.mul (fp32.val d.eta) (fp32.val g)) (FV.mul (FV.ofInt (nbits d.ctl 24 4)) sg))
    let z := draw (nbits d.ctl 28 1 == 1) (grt seed (BitVec.ofNat 24 d.ctl) 0 (BitVec.ofNat 32 i))
    let cz := rne fp32 (FV.mul (fp32.val c) (FV.ofInt z))
    rne fp32 (FV.add false (fp32.val w) (FV.neg (fp32.val cz)))

/-- The loop over the elements: `n` are left; `m.pos` counts those done. -/
def applyLoop (k : Nat) (d : Replay) (es : List Entry) : Nat → State → Cmd → Sum State (State × Cmd)
  | 0, s, m => .inr (s, m)
  | n + 1, s, m =>
    let i := m.pos
    let g := 32 * 2 ^ nbits d.ctl 29 2
    let scale : Sum State (State × FV) :=
      if d.scales = 0 then .inr (s, .fin false 1 1 0)
      else
        let va := w64 (d.scales + 2 * (i / d.ndim / g * d.ndim + i % d.ndim))
        match engAccess s k m va 2 { r := true } m.bytes with
        | .stop s => .inl s
        | .ok s xl => if vaPoison s k xl va 2 then .inl (engFault s k m 0x71 m.bytes) else .inr (s, fp16.val (vaNat s k xl va 2))
    match scale with
    | .inl s => .inl s
    | .inr (s, sg) =>
      let va := w64 (d.w + 4 * i)
      match engAccess s k m va 4 { r := true, w := true } m.bytes with
      | .stop s => .inl s
      | .ok s xl =>
        if vaPoison s k xl va 4 then .inl (engFault s k m 0x71 m.bytes)
        else
          let w := es.foldl (applyEntry d sg i) (vaNat s k xl va 4)
          let m := { m with pos := i + 1, bytes := m.bytes + 4 }
          applyLoop k d es n (setCmd (vaStore s k xl va (leBytes 4 w)) k m) m

/-- The descriptor of a replay, as the command keeps it in `memo`. -/
def memoReplay (m : Cmd) : Replay := replayOf ((m.memo.headD []).map (BitVec.ofNat 8))

/-- Reads and checks the descriptor of a replay (R285, R286). -/
def applyOpen (s : State) (k : Nat) (m : Cmd) : Sum State (State × Cmd) :=
  let dva := cmdReg m 1
  match engAccess s k m dva 64 { r := true } m.bytes with
  | .stop s => .inl s
  | .ok s xl =>
    if vaPoison s k xl dva 64 then .inl (engFault s k m 0x71 m.bytes)
    else
      let bs := vaBytes s k xl dva 64
      let s1 := (cmdReg m 2).toNat
      match replayBad bs with
      | some o => .inl (retireCmd s k m 2 0x02 o)
      | none =>
        if s1 < (replayOf bs).next then .inl (retireCmd s k m 2 0xA2 s1)
        else .inr (s, { m with memo := [bs.map BitVec.toNat] })

/-- The records of a replay are read; `sub` then says that all are. -/
def applyRead (s : State) (k : Nat) (m : Cmd) (win : Win) : Sum State (State × Cmd) :=
  let s0 := (memoReplay m).next
  let have_ := m.memo.length - 1
  match readEntries k win (min (cmdReg m 2).toNat (s0 + 256) - s0 - have_) (s0 + have_) s m with
  | .inl s => .inl s
  | .inr (s, m) => .inr (s, { m with sub := [1] })

/-- The weights of a replay, then NEXT and the frontier. -/
def applyWrite (s : State) (k : Nat) (m : Cmd) : State :=
  let d := memoReplay m
  let es := m.memo.tail.map entryOf
  let e := d.next + es.length
  match applyLoop k d es (d.kdim * d.ndim - m.pos) (setCmd s k m) m with
  | .inl s => s
  | .inr (s, m) =>
    match sdWrite s k m (cmdReg m 1 + 0x28) (leBytes 8 e) with
    | .stop s => s
    | .ok s _ => sdDone (setFrontier s k (max (s.core k).sd.fr.toNat e)) k m es.length

/-- Goes on with a command, unless it has stopped or waits. -/
def orStop (r : Sum State (State × Cmd)) (go : State → Cmd → State) : State :=
  match r with
  | .inl s => s
  | .inr (s, m) => go s m

/-- Runs `sd.apply` (R286). A command that has waited for a walk goes on with the descriptor and the records that it had read. -/
def runApply (s : State) (k : Nat) (m : Cmd) (win : Win) : State :=
  orStop (if m.memo = [] then applyOpen s k m else .inr (s, m)) fun s m =>
    orStop (if m.sub = [] then applyRead s k m win else .inr (s, m)) fun s m => applyWrite s k m

/-- SD_COMMAND_RETIRE (R281): the started seed command runs and retires, or waits for a walk. -/
def execSdCommandRetire (core seq : Nat) (s : State) : Out :=
  .next (orRelease s core seq fun m =>
    if m.eng = .seed ∧ (s.core core).alive ∧ m.started ∧ m.walk = false then
      if m.op.op = sdOpEmit then runEmit s core m
      else match logWin s core with
        | none => engFault s core m 0x26 m.bytes
        | some win =>
          if m.op.op = sdOpGap then runGap s core m win
          else if m.op.op = sdOpFetch then runFetch s core m win
          else runApply s core m win
    else s)

end Sys2Proof.Machine
end

