-- ==== Sys2Proof/Machine/Transc.lean ====
section
/-!
DEFINITION. The transcendental operations (08_vxe_instr.md R180) and the sigmoid table of the Quern (20_quern.md R312).
An irrational value x is given to `rnd` as a dyadic number with the same leading bits and one more bit set below them:
every grid point and midpoint of a format lies on the coarser bits, so `rnd` decides as for x itself.
-/

namespace Sys2Proof.Machine

/-- 1 / a (R180). -/
def fvRcp : FV → FV
  | .nan => .nan
  | .inf n => .fin n 0 1 0
  | .fin n a d e => if a = 0 then .inf n else .fin n d a (-e)

/-- Sticky form of the value r * 2^q with a remainder above it when `exact` is false. -/
def sticky (neg : Bool) (r : Nat) (exact : Bool) (q : Int) : FV :=
  .fin neg (2 * r + (if exact then 0 else 1)) 1 (q - 1)

/-- 1 / sqrt(a) (R180). -/
def fvRsq : FV → FV
  | .nan => .nan
  | .inf n => if n then .nan else .fin false 0 1 0
  | .fin n a d e =>
    if a = 0 then .inf n
    else if n then .nan
    else
      -- a / d * 2^e with an even exponent; the value is 2^(-e/2) * sqrt(d / a)
      let a' := if e % 2 = 0 then a else 2 * a
      let e' := if e % 2 = 0 then e else e - 1
      let t := 192 + Nat.log2 a'
      let r := isqrt (d * 2 ^ (2 * t) / a')
      sticky false r (r * r * a' == d * 2 ^ (2 * t)) (-(t : Int) - e' / 2)

/-- Working precision, in bits, of the interval computations. -/
def tbits : Nat := 512

/-- The leading `n` bits of the fraction of log2 of m, for m in [1, 2) held between lo and hi over 2^tbits. -/
def log2Frac : Nat → Nat → Nat → Nat → Nat
  | 0, _, _, acc => acc
  | n + 1, lo, hi, acc =>
    let lo2 := (lo * lo) >>> tbits
    let hi2 := ((hi * hi) >>> tbits) + 1
    if 2 ^ (tbits + 1) ≤ lo2 then log2Frac n (lo2 / 2) (hi2 / 2 + 1) (2 * acc + 1)
    else log2Frac n lo2 hi2 (2 * acc)

/-- log2 a (R180). -/
def fvLog2 : FV → FV
  | .nan => .nan
  | .inf n => if n then .nan else .inf false
  | .fin n a d e =>
    if a = 0 then .inf true
    else if n then .nan
    else
      let k := flog2 a d e
      let p := scaled a d e k
      if p.1 = p.2 then FV.ofInt k
      else
        let m := p.1 * 2 ^ tbits / p.2
        let t : Nat := 192
        let f := log2Frac t m (m + 1) 0
        if 0 ≤ k then sticky false (k.toNat * 2 ^ t + f) false (-(t : Int))
        else sticky true ((-k).toNat * 2 ^ t - f - 1) false (-(t : Int))

/-- Bounds of 2^f over 2^tbits for a fraction f with n bits, most significant first; rlo and rhi bound the root
2^(2^-j) of the last bit taken. -/
def exp2Frac (f : Nat) : Nat → Nat → Nat → Nat → Nat → Nat × Nat
  | 0, _, _, lo, hi => (lo, hi)
  | n + 1, rlo, rhi, lo, hi =>
    let rlo' := isqrt (rlo <<< tbits)
    let rhi' := isqrt (rhi <<< tbits) + 1
    if f / 2 ^ n % 2 = 1 then
      exp2Frac f n rlo' rhi' ((lo * rlo') >>> tbits) (((hi * rhi') >>> tbits) + 1)
    else exp2Frac f n rlo' rhi' lo hi

/-- 2^a (R180). -/
def fvExp2 : FV → FV
  | .nan => .nan
  | .inf n => if n then .fin false 0 1 0 else .inf false
  | .fin n a d e =>
    if a = 0 then .fin false 1 1 0
    else if 11 ≤ flog2 a d e then (if n then .fin false 3 1 (-5000) else .fin false 3 1 5000)
    else
      -- |a| as whole number and fraction of D bits; the inputs are dyadic
      let D := (-e).toNat
      let v : Int := (if n then -1 else 1) * ((a * 2 ^ e.toNat / d : Nat) : Int)
      let i := Int.fdiv v ((2 ^ D : Nat) : Int)
      let f := (v - i * ((2 ^ D : Nat) : Int)).toNat
      if f = 0 then .fin false 1 1 i
      else
        let b := exp2Frac f D (2 ^ (tbits + 1)) (2 ^ (tbits + 1)) (2 ^ tbits) (2 ^ tbits)
        sticky false (b.1 >>> (tbits - 256)) false (i - 256)

/-- Partial sum of the series of e^y, y = j / 128, over 2^200: the terms from number k on. -/
def expSeries (j : Nat) : Nat → Nat → Nat → Nat → Nat
  | 0, _, _, acc => acc
  | n + 1, k, term, acc => expSeries j n (k + 1) (term * j / (128 * (k + 1))) (acc + term)

/-- TAB[k] of R312: RNE(65536 / (1 + exp(-(k - 2048) / 128))) clamped to 65,535. -/
def quernTab (k : Nat) : Nat :=
  let j := if k < 2048 then 2048 - k else k - 2048
  let y := expSeries j 200 0 (2 ^ 200) 0
  -- below 2048: 65536 / (1 + e^y); above: 65536 e^y / (1 + e^y)
  let v := if k < 2048 then rneInt false (65536 * 2 ^ 200) (2 ^ 200 + y) else rneInt false (65536 * y) (2 ^ 200 + y)
  min v.toNat 65535

end Sys2Proof.Machine
end

