-- ==== Sys2Proof/Machine/QuernUnit.lean ====
section
/-!
DEFINITION. The Quern (20_quern.md R310-R330): its words, and the steps of its sweeps and commands.
-/

namespace Sys2Proof.Machine

/-- Class QN (R18). -/
def clQn : Nat := 23

/-- Operation numbers of Quern commands: those of the E form's F field (R322). -/
def qnLoad : Nat := 1
def qnColour : Nat := 2
def qnClamp : Nat := 3
def qnSweep : Nat := 4
def qnRead : Nat := 5
def qnMom : Nat := 6

/-- The Quern of the current core's cluster. -/
def ownQuern (s : State) : Quern := s.quern (clusterOf s.turn.1)

/-- The current core owns its cluster's Quern (R318). -/
def ownsQuern (s : State) : Bool := (ownQuern s).owner == some s.turn.1 && !(ownQuern s).releasing

/-- The pushes of a word that retires `n` cycles from now. -/
def pushIn (n : Nat) (h : Hdr) (t : State) : State :=
  t.modCur fun c => { c with
    pushLater := c.pushLater ++ ((hdrPushes .ap h).filter fun e => e.2 != 0).map fun e => (c.cycle + n, .ap, e.1, e.2) }

/-- `pb.claim` (R318, R323): a free Quern becomes the core's once the checker has let the word out of the AP (R117), and the AP is
held for 96 cycles; a claim of the core's own takes its ring then, and retires after 24. -/
def execPbClaim (h : Hdr) (a : BitVec 5) (s : State) : Out :=
  .next (apWord h { cls := clQn, noPush := true, sends := true } (fun t =>
    let k := t.turn.1
    let q := ownQuern t
    match t.cur.held with
    | some { kind := .claim u ring, from_ := f, .. } =>
      if t.cur.cycle < f then .stall 0 t
      else if q.owner.isNone then .stall 0 (t.setQuern (clusterOf k) { owner := some k, ring := ring })
      else if ownsQuern t = false then .trap 0x90 none
      else if t.cur.cycle < u then .stall 0 t
      else .done (pushIn 0 h (unheld t))
    | _ =>
      if q.owner.isSome ∧ ownsQuern t = false then .trap 0x90 none
      else if ringBad (xr t a).toNat then .trap 0x02 none
      else if ownsQuern t then .done (pushIn 24 h (result t 4 (.qring (xr t a)) 0))
      else holdAt (.claim (t.cur.cycle + 96) (xr t a)) t) s)

/-- `pb.free` (R324): it waits for the core's Quern commands, and for the checker (R117). -/
def execPbFree (h : Hdr) (s : State) : Out :=
  .next (apWord h { cls := clQn, sends := true } (fun t =>
    match t.cur.held with
    | none => if ownsQuern t = false then .trap 0x90 none else holdAt .wait t
    | some p =>
      if t.cur.cycle < p.from_ ∨ engCount t.cur (fun e => e == .quern) ≠ 0 then .stall 0 t
      else .done (unheld (t.setQuern (clusterOf t.turn.1) { ownQuern t with owner := none }))) s)

/-- A range register (R320): its reserved bits, FIRST and COUNT. -/
def rangeRes (v : Word) : Bool := wbits v 30 34 != 0 || wbits v 15 1 != 0
def rangeFirst (v : Word) : Nat := wbits v 16 14
def rangeCount (v : Word) : Nat := wbits v 0 15
def rangeBad (v : Word) : Bool := rangeCount v == 0 || decide (16384 < rangeFirst v + rangeCount v)

/-- What a Quern command's card adds to the checks that all share (R320). -/
structure QnSpec where
  op : Nat
  m : Nat
  regs : Nat
  bad : Bool
  fieldBad : State → Bool := fun _ => false
  range : Bool := false
  entropy : Bool := false
  foot : State → List Foot := fun _ => []
  align : State → List (Word × Nat) := fun _ => []

/-- The checks of R320 in order, and the issue. -/
def qnIssue (h : Hdr) (q : QnSpec) (a : BitVec 5) (s : State) : State :=
  apWord h { cls := clQn, cmd := true, bad := q.bad } (fun t =>
    let ccw := xr t a
    let foot := if t.cur.sys.det then q.foot t else []
    if ownsQuern t = false then .trap 0x90 none
    else if q.fieldBad t || (q.range && rangeRes (xg t a 2)) then .trap 0x02 none
    else if q.range && rangeBad (xg t a 2) then .trap 0x92 none
    else if ccwBad ccw true then .trap 0x02 none
    else if q.entropy && t.cur.sys.det then .trap 0xE3 none
    else match overlapVa t.cur ccw .quern foot with
      | some v => .trap 0xE4 (some v)
      | none =>
        match (q.align t).find? (fun e => e.1.toNat % e.2 != 0) with
        | some e => .trap 0x23 (some e.1)
        | none =>
          if 8 ≤ (t.cur.cmds.filter fun m => m.eng == .quern && !m.started).length then .stall 8 t
          else .done (issueCmd t .quern ccw { op := q.op, m := q.m, regs := tabulate (fun i => xg t a i) q.regs } foot)) s

/-- Bytes of `n` units of `w` bytes at x[A + i]. -/
def qnFoot (a : BitVec 5) (i w : Nat) (wr : Bool) (n : State → Nat) (t : State) : List Foot :=
  footOf t t.turn.1 (xg t a i) (n t * w) wr

/-- `pb.load` (R325). -/
def execPbLoad (h : Hdr) (a : BitVec 5) (m : BitVec 1) (s : State) : Out :=
  .next (qnIssue h { op := qnLoad, m := m.toNat, regs := 3, bad := decide (29 < a.toNat), range := true,
                     foot := qnFoot a 1 80 false fun t => rangeCount (xg t a 2), align := fun t => [(xg t a 1, 8)] } a s)

/-- `pb.colour` (R326). -/
def execPbColour (h : Hdr) (a : BitVec 5) (m : BitVec 1) (s : State) : Out :=
  .next (qnIssue h { op := qnColour, m := m.toNat, regs := 3, bad := decide (29 < a.toNat), range := true,
                     foot := qnFoot a 1 1 false fun t => rangeCount (xg t a 2) } a s)

/-- `pb.clamp` (R326). -/
def execPbClamp (h : Hdr) (a : BitVec 5) (s : State) : Out :=
  .next (qnIssue h { op := qnClamp, m := 0, regs := 3, bad := decide (29 < a.toNat), range := true,
                     foot := qnFoot a 1 1 false fun t => rangeCount (xg t a 2) } a s)

/-- `pb.sweep` (R327). -/
def execPbSweep (h : Hdr) (a : BitVec 5) (m : BitVec 2) (s : State) : Out :=
  .next (qnIssue h { op := qnSweep, m := m.toNat, regs := 4, bad := decide (28 < a.toNat), entropy := m.getLsbD 0,
                     fieldBad := fun t => wbits (xg t a 2) 19 13 != 0 || wbits (xg t a 2) 32 32 == 0 || wbits (xg t a 3) 32 32 != 0 } a s)

/-- `pb.read` (R328). -/
def execPbRead (h : Hdr) (a : BitVec 5) (s : State) : Out :=
  .next (qnIssue h { op := qnRead, m := 0, regs := 2, bad := decide (30 < a.toNat),
                     foot := qnFoot a 1 2048 true fun _ => 1, align := fun t => [(xg t a 1, 8)] } a s)

/-- `pb.mom` (R329). -/
def execPbMom (h : Hdr) (a : BitVec 5) (m : BitVec 1) (s : State) : Out :=
  .next (qnIssue h { op := qnMom, m := m.toNat, regs := 3, bad := decide (29 < a.toNat),
                     foot := fun t => qnFoot a 1 65536 true (fun _ => 1) t
                       ++ (if xg t a 2 = 0 then [] else qnFoot a 2 1572864 true (fun _ => 1) t)
                     align := fun t => [(xg t a 1, 4), (xg t a 2, 4)] } a s)

/-! ### The running command -/

/-- The command that a cluster's Quern runs: the owner's oldest, once started. -/
def qnCurrent (s : State) (cl : Nat) : Option (Nat × Cmd) :=
  match (s.quern cl).owner with
  | none => none
  | some k =>
    match (s.core k).cmds.find? (fun m => m.eng == .quern) with
    | some m => if m.started && !m.walk then some (k, m) else none
    | none => none

/-- Number of p-bits. -/
def qnBits : Nat := 16384

/-- The state of a p-bit as +1 or -1. -/
def qnSpin (q : Quern) (i : Nat) : Int := if smGet false q.st i then 1 else -1

/-- The edges of p-bit i that are valid. -/
def qnEdges (q : Quern) (i : Nat) : List (Nat × BitVec 14 × BitVec 8) :=
  q.nb.filter fun e => decide (24 * i ≤ e.1) && decide (e.1 < 24 * i + 24)

/-- The field F of R312. -/
def qnField (q : Quern) (i : Nat) : Int :=
  (qnEdges q i).foldl (fun a e => a + e.2.2.toInt * qnSpin q e.2.1.toNat) (smGet 0 q.h i).toInt

/-- The table index k of R312. -/
def qnIndex (beta : Nat) (f : Int) : Nat := (max 0 (min 4095 (2048 + Int.fdiv ((beta : Int) * f) 2))).toNat

/-- The draw of R313. -/
def qnDraw (seed : Word) (w b : Nat) : Nat :=
  uni16 (grt seed (BitVec.ofNat 24 (0xF00000 ||| (w / 2 ^ 18))) 3 (BitVec.ofNat 32 (w % 2 ^ 18 * 2 ^ 14 + b)))

/-- One colour phase (R314): every p-bit of the colour that is not clamped updates at once; `u` is the draw. -/
def qnPhase (q : Quern) (beta c : Nat) (u : Nat → Nat) : Quern :=
  { q with st := (List.range qnBits).foldl (fun st i =>
      if (smGet 0 q.col i).toNat = c ∧ smGet false q.cl i = false then
        smSet false st i (decide (u i < quernTab (qnIndex beta (qnField q i))))
      else st) q.st }

/-- A saturating INT32 sum. -/
def satAdd32 (a : BitVec 32) (d : Int) : BitVec 32 := laneOfInt (max (-(2 ^ 31)) (min (2 ^ 31 - 1) (a.toInt + d)))

/-- The moments of a finished sweep (R317). -/
def qnMoments (q : Quern) : Quern :=
  { q with
    sum := (List.range qnBits).foldl (fun m i => smSet 0 m i (satAdd32 (smGet 0 m i) (qnSpin q i))) q.sum
    corr := q.nb.foldl (fun m e => smSet 0 m e.1 (satAdd32 (smGet 0 m e.1) (qnSpin q (e.1 / 24) * qnSpin q e.2.1.toNat))) q.corr
    mcnt := if q.mcnt = 0xFFFFFFFF then q.mcnt else q.mcnt + 1 }

/-- Colours of a sweep. -/
def sweepK (m : Cmd) : Nat := wbits (cmdReg m 2) 16 3 + 1

/-- Cycles of a colour phase, of a sweep's commit, and of a colour check (R315, R316). -/
def phaseTime : Nat := 64
def commitTime : Nat := 32
def checkTime : Nat := 1536

/-- A sweep that goes on after a pre-emption, at the phase boundary where it stopped (R321): the next phase, or the commit, takes its
whole time. -/
def quernResume (now : Nat) (m : Cmd) : Cmd :=
  if m.eng = .quern ∧ m.started ∧ m.op.op = qnSweep then
    { m with due := now + (if m.sub.headD 0 < sweepK m then phaseTime else commitTime) }
  else m

/-- QUERN_PHASE_END (R314, R315): the next colour phase of the running sweep ends; an aborted sweep retires here (R318). -/
def execQuernPhaseEnd (cluster : Nat) (s : State) : Out :=
  .next (match qnCurrent s cluster with
    | none => s
    | some (k, m) =>
      let q := s.quern cluster
      let c := m.sub.headD 0
      if m.op.op ≠ qnSweep ∨ s.clock < m.due then s
      else if m.aborted then retireCmd s k m 3 (m.done.getD 0) m.bytes
      else if m.done.isSome ∨ q.checked = false ∨ sweepK m ≤ c then s
      else
        let w := (wbits (cmdReg m 3) 0 32 + m.pos) % 2 ^ 32
        let ent := m.op.m % 2 = 1
        let u (i : Nat) : Nat := if ent then (Config.entropy (s.freeCtr + i)).toNat else qnDraw (cmdReg m 1) w i
        let s := if ent then { s with freeCtr := s.freeCtr + qnBits } else s
        setCmd (s.setQuern cluster (qnPhase q (wbits (cmdReg m 2) 0 16) c u)) k
          { m with sub := [c + 1], due := m.due + (if c + 1 < sweepK m then phaseTime else commitTime) })

/-- QUERN_SWEEP_END (R315, R317): a sweep whose phases have all ended commits. -/
def execQuernSweepEnd (cluster : Nat) (s : State) : Out :=
  .next (match qnCurrent s cluster with
    | none => s
    | some (k, m) =>
      let q := s.quern cluster
      if m.op.op ≠ qnSweep ∨ m.aborted ∨ m.done.isSome ∨ m.sub.headD 0 < sweepK m ∨ s.clock < m.due then s
      else
        let s := if m.op.m / 2 % 2 = 1 then s.setQuern cluster (qnMoments q) else s
        let n := m.pos + 1
        setCmd s k { m with pos := n, bytes := n, sub := [0], due := m.due + phaseTime
                            done := if wbits (cmdReg m 2) 32 32 ≤ n then some 0 else none })

/-- The lowest p-bit that owns an edge between two p-bits of one colour (R316). -/
def qnClash (q : Quern) : Option Nat :=
  (q.nb.find? fun e => smGet 0 q.col (e.1 / 24) == smGet 0 q.col e.2.1.toNat).map fun e => e.1 / 24

/-- QUERN_COLOUR_CHECK (R316): the check that a load or colour asked for. -/
def execQuernColourCheck (cluster : Nat) (s : State) : Out :=
  .next (match qnCurrent s cluster with
    | none => s
    | some (k, m) =>
      let q := s.quern cluster
      if m.sub ≠ [1] ∨ m.op.op = qnSweep ∨ m.done.isSome ∨ s.clock < m.due then s
      else match qnClash q with
        | none => setCmd (s.setQuern cluster { q with checked := true }) k { m with done := some 0 }
        | some i => setCmd (s.setQuern cluster { q with checked := false }) k { m with done := some 0x91, bytes := i })

/-! ### Loads, reads and moments -/

/-- A record of `pb.load` that R325 refuses. -/
def qnRecBad (r : List Byte) : Bool :=
  let b (o n : Nat) : Nat := leNat ((r.drop o).take n)
  b 2 1 / 16 != 0 || b 3 5 != 0
    || (List.range 24).any fun e =>
      let v := b (8 + 3 * e) 2
      nbits v 14 1 != 0 || (nbits v 15 1 == 0 && (v != 0 || b (10 + 3 * e) 1 != 0))

/-- p-bit i takes a record whole. -/
def qnPutRec (q : Quern) (i : Nat) (r : List Byte) : Quern :=
  let b (o n : Nat) : Nat := leNat ((r.drop o).take n)
  { q with
    h := smSet 0 q.h i (BitVec.ofNat 16 (b 0 2))
    col := smSet 0 q.col i (BitVec.ofNat 3 (b 2 1))
    st := smSet false q.st i (if smGet false q.cl i then smGet false q.cv i else b 2 1 / 8 % 2 == 1)
    nb := (List.range 24).foldl (fun m e =>
      let v := b (8 + 3 * e) 2
      if nbits v 15 1 = 1 then smPut m (24 * i + e) (BitVec.ofNat 14 v, BitVec.ofNat 8 (b (10 + 3 * e) 1)) else smDel m (24 * i + e)) q.nb }

/-- p-bit i takes a clamp byte. -/
def qnPutClamp (q : Quern) (i : Nat) (b : Byte) : Quern :=
  { q with
    cl := smSet false q.cl i (b.getLsbD 0)
    cv := smSet false q.cv i (b.getLsbD 1)
    st := if b.getLsbD 0 then smSet false q.st i (b.getLsbD 1) else q.st }

/-- Runs a load, colour or clamp: all of its records are checked before any is taken. Byte i of its source is read as bit i of `early`
says (R330, 04_memory.md R99). -/
def runTake (s : State) (cl k : Nat) (m : Cmd) (early : Nat) : State :=
  let first := rangeFirst (cmdReg m 2)
  let n := rangeCount (cmdReg m 2)
  let w := if m.op.op = qnLoad then 80 else 1
  let va := cmdReg m 1
  match engAccess s k m va (n * w) { r := true } 0 with
  | .stop s => s
  | .ok s xl =>
    if vaPoison s k xl va (n * w) then engFault s k m 0x71 0
    else
      let bs := btBytesAt s k m xl early va (n * w)
      let rec_ (j : Nat) : List Byte := (bs.drop (w * j)).take w
      let bad (j : Nat) : Bool :=
        if m.op.op = qnLoad then qnRecBad (rec_ j)
        else if m.op.op = qnColour then decide (8 ≤ leNat (rec_ j)) else decide (4 ≤ leNat (rec_ j))
      match (List.range n).find? bad with
      | some j => retireCmd s k m 2 0x02 j
      | none =>
        let q := (List.range n).foldl (fun q j =>
          if m.op.op = qnLoad then qnPutRec q (first + j) (rec_ j)
          else if m.op.op = qnColour then { q with col := smSet 0 q.col (first + j) (BitVec.ofNat 3 (leNat (rec_ j))) }
          else qnPutClamp q (first + j) ((rec_ j).headD 0)) (s.quern cl)
        let m := { m with bytes := n }
        if m.op.op = qnClamp then retireCmd (s.setQuern cl q) k m 1 0 n
        else if m.op.m = 1 then setCmd (s.setQuern cl q) k { m with sub := [1], due := s.clock + checkTime }
        else retireCmd (s.setQuern cl { q with checked := false }) k m 1 0 n

/-- The state map of R328. -/
def qnMap (q : Quern) : List Byte :=
  leBytes 2048 (chunks 1 (fun i => if smGet false q.st i then 1 else 0) qnBits)

/-- Runs `pb.read` or `pb.mom` (R328, R329), or goes on with the writes that are left. -/
def runGive (s : State) (cl k : Nat) (m : Cmd) : State :=
  let q := s.quern cl
  let write (va : Word) (bs : List Byte) : List Nat := va.toNat :: bs.map BitVec.toNat
  let words (va : Word) (n : Nat) (f : Nat → BitVec 32) : List (List Nat) :=
    (List.range n).map fun i => write (va + w64 (4 * i)) (leBytes 4 (f i).toNat)
  let writes :=
    if m.memo ≠ [] then m.memo.tail
    else if m.op.op = qnRead then (qnMap q).zipIdx.map fun e => write (cmdReg m 1 + w64 e.2) [e.1]
    else words (cmdReg m 1) qnBits (fun i => smGet 0 q.sum i)
      ++ (if cmdReg m 2 = 0 then []
          else words (cmdReg m 2) (24 * qnBits) fun i => if (smFind q.nb i).isSome then smGet 0 q.corr i else 0)
  match btWrites s k [] m writes with
  | .stop s => s
  | .go s m =>
    if m.op.op = qnRead then retireCmd s k m 1 0 2048
    else
      let s := if m.op.m = 1 then s.setQuern cl { q with sum := [], corr := [], mcnt := 0 } else s
      retireCmd s k m 1 0 q.mcnt.toNat

/-- QUERN_COMMAND_RETIRE (R319): the running command does its transfer, or retires with what it has come to. -/
def execQuernCommandRetire (cluster : EarlyTurn) (s : State) : Out :=
  .next (match qnCurrent s cluster.of with
    | none => s
    | some (k, m) =>
      if m.aborted then s
      else if m.ended.isSome then releaseCmd s k m
      else match m.done with
        | some c => retireCmd s k m (if c = 0 then 1 else 2) c m.bytes
        | none =>
          if (s.core k).alive = false then s
          else if m.op.op = qnSweep then
            (if (s.quern cluster.of).checked = false then retireCmd s k m 2 0x91 0 else s)
          else if m.sub = [1] then s
          else if m.op.op = qnRead ∨ m.op.op = qnMom then runGive s cluster.of k m
          else runTake s cluster.of k m cluster.early)

/-- QUERN_RELEASE (R318): the Quern of an ended kernel is free once its commands have retired. -/
def execQuernRelease (cluster : Nat) (s : State) : Out :=
  let q := s.quern cluster
  .next (match q.owner with
    | some k =>
      if q.releasing && engCount (s.core k) (fun e => e == .quern) == 0 then
        s.setQuern cluster { q with owner := none, releasing := false }
      else s
    | none => s)

end Sys2Proof.Machine
end

