-- ==== Sys2Proof/Machine/Sched.lean ====
section
/-!
DEFINITION. What the region scheduler's steps share: access to a partition's memory without a core (04_memory.md
R79-R84), the fields of a region control block (21_scheduler.md R334), placement (R340-R344) and the order of issue (R342).
-/

namespace Sys2Proof.Machine

/-! ### A partition's memory -/

/-- The module whose page tables serve a partition's own structures. -/
def partMod (s : State) (pn : Nat) : Nat := (s.part pn).clusters.headD 0 / 32

/-- The check of one granule by a walk of its own (R79-R84). -/
def partPage (s : State) (pn vpg : Nat) (n : Need) : PageRes :=
  match walk s pn (partMod s pn) (vpg * 65536) with
  | .leaf e _ => leafCheck s (partMod s pn) e vpg n
  | .invalid => .miss
  | .stage2 p g => .stage2 (if p then 0x22 else 0x21) g

/-- Why a check or an access of the scheduler fails: the cause, FADDR where it is stated, and the guest address that stage 2
refused, which is logged (R84). -/
structure LErr where
  cause : Nat
  faddr : Option Word
  gpa : Option Nat := none
  deriving DecidableEq, Repr, Inhabited

/-- The guest address of a failed access is logged (R84). -/
def LErr.log (e : LErr) (s : State) : State :=
  match e.gpa with
  | some g => { s with dev := { s.dev with s2log := s.dev.s2log ++ [g] } }
  | none => s

/-- The check of an access to a partition's translated space; a descriptor that is not valid is 0x21. -/
def partAcc (s : State) (pn : Nat) (va : Word) (len : Nat) (n : Need) : Except LErr (List Xl) :=
  if vaSpace va ≠ 0 then .error ⟨0x21, some va, none⟩
  else match xlOutside va len with
    | some f => .error ⟨0x21, some f, none⟩
    | none => match accFold va.toNat ((granules va.toNat len).map fun v => (v, partPage s pn v n)) with
      | .ok xl => .ok xl
      | .miss v => .error ⟨0x21, some (w64 (max va.toNat (v * 65536))), none⟩
      | .fault c f => .error ⟨c, some f, none⟩
      | .stage2 c g => .error ⟨c, none, some g⟩

/-- Where a byte of the translated space lies, and its key. -/
def xlLoc (xl : List Xl) (va : Word) : Option (Nat × Nat) :=
  (xl.find? (fun x => x.vpg == va.toNat / 65536)).map fun x => (x.base + va.toNat % 65536, x.key)

/-- n bytes through held translations. -/
def xlBytes (s : State) (xl : List Xl) (va : Word) (n : Nat) : List Byte :=
  (List.range n).map fun i => match xlLoc xl (va + w64 i) with
    | some (k, g) => memRead s k g
    | none => 0

/-- Writes bytes through held translations. -/
def xlStore (s : State) (xl : List Xl) (va : Word) : List Byte → State
  | [] => s
  | b :: bs =>
    let s := match xlLoc xl va with
      | some (k, g) => memWrite s k g b
      | none => s
    xlStore s xl (va + 1) bs

/-- Reads n bytes of a partition's translated space, or the fault. -/
def partRead (s : State) (pn : Nat) (va : Word) (n : Nat) : Except LErr (List Byte) :=
  match partAcc s pn va n { r := true } with
  | .ok xl => .ok (xlBytes s xl va n)
  | .error e => .error e

/-- Writes bytes of a partition's translated space, where that is allowed. -/
def partWrite (s : State) (pn : Nat) (va : Word) (bs : List Byte) : State :=
  match partAcc s pn va bs.length { w := true } with
  | .ok xl => xlStore s xl va bs
  | .error e => e.log s

/-! ### Region control blocks (R334) -/

/-- A field of an RCB as written: offset and size in bytes. -/
def rcbField (raw : BitVec 2048) (off size : Nat) : Nat := wbits raw (8 * off) (8 * size)

/-- The fields of an RCB as written. -/
def rcbRaw (raw : BitVec 2048) : Rcb :=
  let f := rcbField raw
  { kimg := f 0x00 8, args := f 0x08 8, crec := f 0x10 8, stats := f 0x18 8, wtab := f 0x20 8, slist := f 0x28 8
    lo := f 0x30 8, hi := f 0x38 8, ctl := f 0x40 4, ovr := f 0x44 4, place := f 0x48 4, minc := f 0x4C 4, maxc := f 0x50 4
    fdom := f 0x54 4, hbmb := f 0x58 8, timeb := f 0x60 8, nstr := f 0x68 2, utag := f 0x70 8 }

def Rcb.det (r : Rcb) : Bool := nbits r.ctl 0 1 == 1
def Rcb.dual (r : Rcb) : Bool := nbits r.ctl 1 1 == 1
def Rcb.restart (r : Rcb) : Bool := nbits r.ctl 2 1 == 1
def Rcb.preempt (r : Rcb) : Bool := nbits r.ctl 3 1 == 1
def Rcb.mdm (r : Rcb) : Nat := nbits r.ctl 8 2
def Rcb.prio (r : Rcb) : Nat := nbits r.ctl 12 3
def Rcb.priv (r : Rcb) : Bool := nbits r.ctl 15 1 == 1
def Rcb.xb (r : Rcb) : Nat := nbits r.place 0 8
def Rcb.xa (r : Rcb) : Nat := nbits r.place 8 8
def Rcb.cpu (r : Rcb) : Nat := nbits r.place 16 10
def Rcb.unit (r : Rcb) : Nat := nbits r.place 30 2

/-- The fewest cores a region can run on (R335). -/
def Rcb.fewest (r : Rcb) : Nat :=
  match r.mdm with
  | 0 => r.minc
  | 1 => r.cpu * r.xa
  | _ => r.cpu * r.xa * r.xb

/-- The most cores it can run on. -/
def Rcb.most (r : Rcb) : Nat :=
  match r.mdm with
  | 0 => r.maxc
  | 1 => r.cpu * r.xb
  | _ => r.cpu * r.xa * r.xb

/-! ### Placement (R340, R344) -/

/-- The partitions at the positions of a partition's Aknus rectangle, row by row (24_device.md R377). -/
def Part.rectOf (p : Part) (pn : Nat) : List Nat := if p.rect.isEmpty then [pn] else p.rect

/-- The rows of a partition's Aknus rectangle. -/
def Part.rectH (p : Part) : Nat := (p.rectOf 0).length / max 1 p.rectX

/-- The clusters on which a region may be placed: its partition's own, or for a rectangle of modules those of every
partition of the Aknus rectangle. -/
def launchClusters (s : State) (pn : Nat) (r : Rcb) : List Nat :=
  if 2 ≤ r.mdm ∧ r.unit ≠ 0 then ((s.part pn).rectOf pn).flatMap fun q => (s.part q).clusters else (s.part pn).clusters

/-- The cores of those clusters that exist, work and have the classes. -/
def ableCores (s : State) (pn : Nat) (r : Rcb) (oum : BitVec 48) (suspects : Bool) : List Nat :=
  ((sortBy (fun a b => decide (a ≤ b)) (launchClusters s pn r)).flatMap fun cl => (List.range 24).map fun i => 32 * cl + i).filter fun k =>
    !s.dev.fused.contains k
      && (s.core k).sys.ccm &&& oum == oum
      && (suspects || !s.dev.suspect.any fun e => e.1 == k && oum.getLsbD e.2)

/-- A core is free: no region, no command of a kernel that has ended, no Quern still to be released, no test (R340, R341). -/
def coreFree (s : State) (k : Nat) : Bool :=
  let c := s.core k
  c.run == .idle && c.cmds.isEmpty && c.test.isNone && (s.quern (clusterOf k)).owner != some k

/-- The retention state of a core at a clock cycle (22_faults.md R369): a core that no region has been given since reset goes
through its entry as any other does. -/
def Core.retNow (c : Core) (clock : Nat) : Ret :=
  match c.ret with
  | .awake =>
    if c.run = .idle ∧ c.test = none ∧ c.idle + 65536 ≤ clock then
      if clock < c.idle + 67584 then .entering (c.idle + 67584) else .retained
    else .awake
  | r => r

/-- Cores of a list by cluster. -/
def byCluster (l : List Nat) : List (List Nat) :=
  (l.map clusterOf).eraseDups.map fun cl => l.filter fun k => clusterOf k == cl

/-- The members that logical cluster j holds of a unit of n members (R344). -/
def clusterShare (n j : Nat) : Nat :=
  let k := ceilDiv n 24
  (j + 1) * n / k - j * n / k

/-- Spreads a unit over clusters in ascending order, each with enough free cores; `j` logical clusters are filled. -/
def spread (n : Nat) : Nat → List (List Nat) → List Nat → Option (List Nat)
  | j, [], acc => if ceilDiv n 24 ≤ j then some acc else none
  | j, cl :: rest, acc =>
    if ceilDiv n 24 ≤ j then some acc
    else if clusterShare n j ≤ cl.length then spread n (j + 1) rest (acc ++ cl.take (clusterShare n j))
    else spread n j rest acc

/-- A unit of n members on the cores of a list. -/
def pickUnit (l : List Nat) (n : Nat) : Option (List Nat) := spread n 0 (byCluster l) []

/-- The largest unit of `lo` to `hi` members that fits. -/
def pickMost (l : List Nat) (lo : Nat) : Nat → Option (List Nat)
  | 0 => none
  | h + 1 => if h + 1 < lo then none else match pickUnit l (h + 1) with
    | some u => some u
    | none => pickMost l lo h

/-- The positions at which a rectangle of X x Y fits in one of W x H. -/
def positions (x y w h : Nat) : List (Nat × Nat) :=
  ((List.range (h + 1 - y)).flatMap fun b => (List.range (w + 1 - x)).map fun a => (a, b))

/-- All or nothing. -/
def allSome {α : Type} : List (Option α) → Option (List α)
  | [] => some []
  | none :: _ => none
  | some a :: l => (allSome l).map fun r => a :: r

/-- The sets of cores, unit by unit, that the implementation may choose for a region of C members fixed to `fix` where it
resumes (R344), among the cores `l`. -/
def placements (s : State) (pn : Nat) (r : Rcb) (fix : Option Nat) (l : List Nat) : List (List Nat) :=
  let dies := (l.map dieOf).eraseDups
  let onDie (d : Nat) : List Nat := l.filter fun k => dieOf k == d
  match r.mdm with
  | 0 =>
    let lo := fix.getD r.minc
    let hi := fix.getD r.maxc
    if r.maxc ≤ 24 then (byCluster l).filterMap fun cl => pickMost cl lo hi
    else dies.filterMap fun d => pickMost (onDie d) lo hi
  | 1 =>
    ((l.map moduleOf).eraseDups).filterMap fun m =>
      let units := (dies.filter fun d => d / 4 == m).filterMap fun d => pickUnit (onDie d) r.cpu
      let dlo := match fix with
        | some c => c / r.cpu
        | none => r.xa
      let dhi := match fix with
        | some c => c / r.cpu
        | none => r.xb
      if dlo ≤ units.length then some (units.take (min dhi units.length)).flatten else none
  | _ =>
    if r.unit = 0 then
      ((l.map moduleOf).eraseDups).flatMap fun m =>
        (positions r.xa r.xb 2 2).filterMap fun p =>
          (allSome ((List.range (r.xa * r.xb)).map fun u =>
            pickUnit (onDie (4 * m + (p.1 + u % r.xa) + 2 * (p.2 + u / r.xa))) r.cpu)).map List.flatten
    else
      let q := s.part pn
      (positions r.xa r.xb q.rectX q.rectH).filterMap fun p =>
        (allSome ((List.range (r.xa * r.xb)).map fun u =>
          let n := (q.rectOf pn).getD ((p.2 + u / r.xa) * q.rectX + p.1 + u % r.xa) 0
          pickUnit (l.filter fun k => partOfCore s k == n) r.cpu)).map List.flatten

/-- The clusters that the two copies of a dual run have used, which the other of the two may not use; a third copy may (R349). -/
def copyClusters (g : Region) : List Nat :=
  if g.saved.isEmpty || 2 < g.copies.length then [] else g.copies.flatMap fun c => c.cores.map clusterOf

/-- Places units of fixed sizes one after another, on disjoint clusters. -/
def placeSeq (s : State) (pn : Nat) (r : Rcb) : List Nat → List Nat → List (List Nat)
  | [], _ => [[]]
  | c :: cs, l => (placements s pn r (some c) l).flatMap fun a =>
      (placeSeq s pn r cs (l.filter fun k => !(a.map clusterOf).contains (clusterOf k))).map fun b => a ++ b

/-- The sizes of the copies of a dual run that are to be placed: those that were suspended, or a third one. -/
def copySizes (g : Region) : List Nat :=
  if g.saved.isEmpty then (g.copies.take 1).map fun c => c.cores.length
  else ((List.range g.copies.length).map fun n => (g.saved.filter fun c => c.copy == some n).length).filter fun n => n != 0

/-- The placements of a region on a list of cores; a dual run needs two sets of one size on disjoint clusters. -/
def regionPlacements (s : State) (g : Region) (l : List Nat) : List (List Nat) :=
  if !g.rcb.dual then
    placements s g.part g.rcb (if g.saved.isEmpty then none else some g.saved.length) l
  else if g.copies.isEmpty then
    (placements s g.part g.rcb none l).flatMap fun a =>
      let others := l.filter fun k => !(a.map clusterOf).contains (clusterOf k)
      (placements s g.part g.rcb none others).filterMap fun b =>
        let n := min a.length b.length
        match pickUnit a n, pickUnit b n with
        | some x, some y => some (x ++ y)
        | _, _ => none
  else placeSeq s g.part g.rcb (copySizes g) (l.filter fun k => !(copyClusters g).contains (clusterOf k))

/-- A member that owned a Quern needs a free one in its cluster (20_quern.md R321). -/
def quernsFree (s : State) (g : Region) (cores : List Nat) : Bool :=
  g.savedQ.all fun e => match cores[e.1]? with
    | some k => (s.quern (clusterOf k)).owner.isNone
    | none => true

/-- The placements of a region on cores that are free now, with or without those that have a suspect class. -/
def placementsNow (s : State) (g : Region) (susp : Bool) : List (List Nat) :=
  (regionPlacements s g ((ableCores s g.part g.rcb g.oum susp).filter (coreFree s))).filter (quernsFree s g)

/-- A region can be placed only with the help of cores that have a suspect class (R341). -/
def needsSuspects (s : State) (g : Region) : Bool := (placementsNow s g false).isEmpty

/-- The placements open to a region now: cores with a suspect class only where there is no other way (R341). -/
def openPlacements (s : State) (g : Region) : List (List Nat) := placementsNow s g (needsSuspects s g)

/-- Some set of unfenced cores could ever hold the region (R340). -/
def couldPlace (s : State) (g : Region) : Bool :=
  !(regionPlacements s g (ableCores s g.part g.rcb g.oum true)).isEmpty

/-! ### The order of issue (R342) -/

/-- Effective priority: one more for each 2 ms READY, at most two more and at most 7. -/
def effPrio (g : Region) : Nat := min (min (g.rcb.prio + g.waited / (2000 * Config.usTime)) (g.rcb.prio + 2)) 7

/-- The order of channels: the host's first, then by the spawning region's number and the member's rank. -/
def chanKey (s : State) (g : Region) : Nat × Nat × Nat :=
  match g.chan with
  | none => (0, 0, 0)
  | some (rid, rank) => (1, (match s.region? rid with | some p => p.seq | none => 0), rank)

/-- A region was accepted before another. -/
def older (s : State) (a b : Region) : Bool :=
  let ka := chanKey s a
  let kb := chanKey s b
  decide (a.age < b.age)
    || (a.age == b.age && (decide (ka.1 < kb.1) || (ka.1 == kb.1 && (decide (ka.2.1 < kb.2.1) || (ka.2.1 == kb.2.1
      && (decide (ka.2.2 < kb.2.2) || (ka.2.2 == kb.2.2 && decide (a.seq < b.seq))))))))

/-- A READY region goes before another. -/
def goesFirst (s : State) (a b : Region) : Bool :=
  decide (effPrio b < effPrio a) || (effPrio a == effPrio b && older s a b)

/-- A region completes without a member's fault. -/
def finishRegion (s : State) (rid status cause : Nat) (faddr : Word) : State :=
  endRegion s rid { status := status, cause := cause, rank := noRank, faddr := faddr }

/-- Earlier regions of a region's channel have their records (R333). -/
def inOrder (s : State) (g : Region) : Bool :=
  s.regions.all fun p => p.2.part != g.part || p.2.chan != g.chan || decide (g.seq ≤ p.2.seq) || p.2.st == .gone

/-- The record of a region that was DONE when its partition was reset, or is by it, comes at step 5 of the reset: before those of
earlier regions that are to run again (22_faults.md R371, 23_fault_program.md R373). -/
def inResetOrder (s : State) (g : Region) : Bool :=
  (s.part g.part).resetting
    && s.regions.all fun p => p.2.part != g.part || p.2.chan != g.chan || decide (g.seq ≤ p.2.seq) || p.2.st != .done

/-- Regions of a channel without their record. -/
def chanCount (s : State) (part : Nat) (chan : Option (Nat × Nat)) : Nat :=
  (s.regions.filter fun p => p.2.part == part && p.2.chan == chan && p.2.st != .gone).length

/-- Some region of a partition is in a state. -/
def anyRegion (s : State) (pn : Nat) (f : RegionSt → Bool) : Bool := s.regions.any fun p => p.2.part == pn && f p.2.st

end Sys2Proof.Machine
end

