-- ==== Sys2Proof/Machine/Launch.lean ====
section
/-!
DEFINITION. From a submission to the start of a region's members: acceptance (21_scheduler.md R331, R332, R349), the launch
checks (R335, R336, 02_encoding.md R50, 14_link.md R257), streams (R338), issue, loading and resumption (R340-R345,
02_encoding.md R51, 22_faults.md R355, R363, R369).
-/

namespace Sys2Proof.Machine

/-! ### Acceptance -/

/-- The parent of a region. -/
def parentOf (s : State) (g : Region) : Option Region := g.chan.bind fun c => s.region? c.1

/-- What a region has left of its time budget, in the unit of `Config.cycleTime` (R336, R339). -/
def timeLeft (g : Region) : Option Nat := g.bound.map fun b => b - g.timeUsed

/-- A region is accepted with the next number of its channel (R332 step 3). -/
def acceptRegion (s : State) (pn : Nat) (chan : Option (Nat × Nat)) (seq : Nat) (raw : BitVec 2048) : State :=
  let g : Region := { part := pn, chan := chan, seq := seq, age := s.clock, raw := raw }
  { (s.setRegion s.nextRid { g with unspent := (parentOf s g).bind timeLeft }) with nextRid := s.nextRid + 1 }

/-- The number that the next region of a member's channel gets (R332, R333). -/
def memberSeq (s : State) (pn : Nat) (chan : Option (Nat × Nat)) : Nat :=
  (s.regions.filter fun p => p.2.part == pn && p.2.chan == chan).length + 1

/-- Answers the host. -/
def replyWith (s : State) (r : Reply) : State := { s with dev := { s.dev with reply := r } }

/-- The number of a virtual function: 64 m + n for VF n, from 1 to 32, of module m (24_device.md R377; log entry 5). -/
def vfNumber (vf : Nat) : Bool := decide (1 ≤ vf % 64) && decide (vf % 64 ≤ 32)

/-- A module has booted (24_device.md R386). -/
def booted (s : State) (m : Nat) : Bool := smGet 0 s.dev.boot m == 1

/-- The VF is enabled: its module booted, and a partition is formed for it (24_device.md R377, R386). -/
def vfUp (s : State) (vf : Nat) : Bool := booted s (vf / 64) && vfNumber vf && (s.part vf).formed

/-- The RCB that a submission record names, with the address of its ACK word, where the record is not refused (R332
step 1); else the access that failed, where it is one. -/
def submissionRcb (s : State) (vf : Nat) (rec : List Byte) : Except (Option LErr) (BitVec 2048 × Word) :=
  let rcb := w64 (leNat (rec.take 8))
  let ack := w64 (leNat ((rec.drop 8).take 8))
  if rec.length ≠ 64 ∨ (rec.drop 16).any (fun b => b != 0) ∨ rcb.toNat % 256 ≠ 0 ∨ ack.toNat % 8 ≠ 0 then .error none
  else do
    let bs ← (partRead s vf rcb 256).mapError some
    let _ ← (partAcc s vf ack 8 { w := true }).mapError some
    let raw := BitVec.ofNat 2048 (leNat bs)
    let crec := rcbField raw 0x10 8
    if crec % 32 ≠ 0 then .error none
    else do
      let _ ← (partAcc s vf (w64 crec) 32 { w := true }).mapError some
      .ok (raw, ack)

/-- SUBMISSION (R331, R332): refused, retried, or accepted. A stage-2 failure that refuses one is logged (04_memory.md R84). -/
def execSubmission (vf : Nat) (rec : List (BitVec 8)) (ideT : Bool) (s : State) : Out :=
  let p := s.part vf
  .next (if !vfUp s vf || (p.tstate == .run && !ideT) then replyWith s .unsupported
    else match submissionRcb s vf rec with
      | .error e => replyWith (match e with | some e => e.log s | none => s) .unsupported
      | .ok (raw, ack) =>
        if 4096 ≤ chanCount s vf none ∨ p.resetting ∨ p.tstate = .configLocked ∨ p.tstate = .error then replyWith s .retry
        else
          let s := acceptRegion (s.setPart vf { p with nextSeq := p.nextSeq + 1 }) vf none p.nextSeq raw
          replyWith (partWrite s vf ack (leBytes 8 p.nextSeq)) .success)

/-! ### Launch checks -/

/-- The first failing check of a list of (offset, failing); FADDR holds the offset. -/
def firstBad (cause : Nat) (l : List (Nat × Bool)) : Except LErr Unit :=
  match l.find? (fun e => e.2) with
  | none => .ok ()
  | some e => .error ⟨cause, some (w64 e.1), none⟩

/-- Order 1 of R335: what the RCB must hold as written. -/
def rcbWritten (raw : BitVec 2048) : Except LErr Unit :=
  let r := rcbRaw raw
  firstBad 0x02
    [ (0x00, decide (r.kimg % 256 ≠ 0)),
      (0x18, decide (r.stats % 64 ≠ 0)),
      (0x38, decide (r.hi < r.lo) || decide (2 ^ 48 ≤ r.hi - r.lo)),
      (0x40, nbits r.ctl 16 16 != 0 || nbits r.ctl 10 2 != 0 || nbits r.ctl 4 4 != 0 || r.mdm == 3),
      (0x48, nbits r.place 26 4 != 0 || decide (2 ≤ r.unit)),
      (0x6A, rcbField raw 0x6A 6 != 0),
      (0x78, rcbField raw 0x78 136 != 0) ]

/-- Order 2 of R335 (R336): OVR, and zero bytes in every group that a child inherits. -/
def rcbGroups (raw : BitVec 2048) (child : Bool) : Except LErr Unit :=
  let r := rcbRaw raw
  let clear (n : Nat) : Bool := nbits r.ovr n 1 == 0
  if !child then firstBad 0x02 [(0x44, r.ovr != 0)]
  else firstBad 0x02
    [ (0x00, clear 5 && r.kimg != 0),
      (0x08, clear 5 && r.args != 0),
      (0x18, clear 5 && r.stats != 0),
      (0x20, clear 5 && r.wtab != 0),
      (0x40, r.priv || (clear 1 && r.prio != 0) || (clear 3 && nbits r.ctl 0 4 != 0) || (clear 4 && r.mdm != 0)),
      (0x44, nbits r.ovr 6 26 != 0),
      (0x48, clear 4 && r.place != 0),
      (0x4C, clear 4 && r.minc != 0),
      (0x50, clear 4 && r.maxc != 0),
      (0x54, clear 2 && r.fdom != 0),
      (0x58, clear 0 && r.hbmb != 0),
      (0x60, clear 0 && r.timeb != 0) ]

/-- The effective values of a child: each group from its RCB or from its parent's (R336). -/
def effective (raw : BitVec 2048) (parent : Option Region) : Rcb :=
  let r := rcbRaw raw
  match parent with
  | none => r
  | some g =>
    let p := g.rcb
    let set (n : Nat) : Bool := nbits r.ovr n 1 == 1
    let a := if set 5 then r else p
    let pl := if set 4 then r else p
    let bu := if set 0 then r else p
    { r with
      kimg := a.kimg, args := a.args, stats := a.stats, wtab := a.wtab
      hbmb := bu.hbmb, timeb := bu.timeb
      fdom := if set 2 then r.fdom else p.fdom
      place := pl.place, minc := pl.minc, maxc := pl.maxc
      ctl := nbits (if set 3 then r.ctl else p.ctl) 0 4 + nbits pl.ctl 8 2 * 2 ^ 8
        + nbits (if set 1 then r.ctl else p.ctl) 12 3 * 2 ^ 12 + nbits p.ctl 15 1 * 2 ^ 15 }

/-- Order 3 of R335: the fields of the placement. The cores that the clusters of the partition, or of those of its rectangle,
hold are counted. -/
def placeCheck (s : State) (pn : Nat) (r : Rcb) : Except LErr Unit :=
  let p := s.part pn
  let cap := 24 * (launchClusters s pn r).length
  match r.mdm with
  | 0 => firstBad 0x02
      [ (0x48, r.place != 0),
        (0x4C, decide (r.minc < 1) || decide (r.maxc < r.minc) || decide (cap < r.minc)),
        (0x50, decide (192 < r.maxc)) ]
  | 1 => firstBad 0x02
      [ (0x48, r.unit != 0 || decide (r.xa < 1) || decide (r.xb < r.xa) || decide (4 < r.xb) || decide (r.cpu < 1)
          || decide (192 < r.cpu) || decide (cap < r.fewest)),
        (0x4C, r.minc != 0),
        (0x50, r.maxc != 0) ]
  | _ => firstBad 0x02
      [ (0x48, decide (r.xa < 1) || decide (r.xb < 1) || decide (r.cpu < 1) || decide (cap < r.fewest)
          || (if r.unit = 0 then decide (2 < r.xa) || decide (2 < r.xb) || decide (192 < r.cpu)
              else decide (16 < r.xa) || decide (16 < r.xb) || decide (256 < r.xa * r.xb) || decide (768 < r.cpu)
                || decide (p.rectX < r.xa) || decide (p.rectH < r.xb))) ]

/-- Order 6 of R335: a child against its parent (R336). -/
def childCheck (r : Rcb) (g : Region) (unspent : Option Nat) : Except LErr Unit := do
  firstBad 0x02 [(0x40, decide (g.rcb.prio < r.prio) || (g.rcb.det && !r.det))]
  firstBad 0xC2
    [ ((if r.mdm = 0 then 0x50 else 0x48), decide (g.rcb.most < r.most)),
      (0x58, decide (g.rcb.hbmb - g.hbmUsed < r.hbmb)),
      (0x60, match unspent with | some u => r.timeb != 0 && decide (u < r.timeb * Config.usTime) | none => false) ]

/-- n little-endian bytes of a byte list. -/
def leAt (l : List Byte) (off n : Nat) : Nat := leNat ((l.drop off).take n)

/-- The section of an image: offset and length (R49), numbered AP 0, MXE 1, VXE 2. -/
def imgSec (h : List Byte) (n : Nat) : Nat × Nat := (leAt h (0x10 + 8 * n) 4, leAt h (0x14 + 8 * n) 4)
def imgData (h : List Byte) : Nat × Nat := (leAt h 0x34 4, leAt h 0x38 4)
def imgSpad (h : List Byte) : Nat := leAt h 0x3C 4
def imgEntry (h : List Byte) (n : Nat) : Nat := leAt h (0x28 + 2 * n) 2
def imgOum (h : List Byte) : Nat := leAt h 0x08 8
def imgFmt (h : List Byte) (n : Nat) : Option Word :=
  if leAt h 0x30 2 / 2 ^ n % 2 = 1 then some (w64 (leAt h (0x80 + 8 * n) 8)) else none

/-- The unit and the size of a section's instruction memory (R49). -/
def secUnit (n : Nat) : Nat := if n = 2 then 12 else 4
def secMax (n : Nat) : Nat := if n = 0 then 65536 else if n = 1 then 16384 else 49152

/-- The end of an image (R49). -/
def imgEnd (h : List Byte) : Nat :=
  let e (p : Nat × Nat) : Nat := p.1 + p.2
  max (max (e (imgSec h 0)) (e (imgSec h 1))) (max (max (e (imgSec h 2)) (e (imgData h))) 0x100)

/-- The checks of a kernel image after its header has been read, before the CRC (R50 orders 1 to 7). -/
def imgHeader (h : List Byte) (det : Bool) : Except LErr Unit :=
  let flags := leAt h 0x06 2
  let offBad (n : Nat) : Bool := decide ((imgSec h n).1 % 256 ≠ 0) || decide ((imgSec h n).1 < 0x100)
  let lenBad (n : Nat) : Bool := decide ((imgSec h n).2 % secUnit n ≠ 0) || decide (secMax n < (imgSec h n).2)
  let entBad (n : Nat) : Bool :=
    let len := (imgSec h n).2 / secUnit n
    if len = 0 then imgEntry h n != 0 else decide (len ≤ imgEntry h n)
  firstBad 0x02
    [ (0x00, leAt h 0 4 != 0x4B4E4D47),
      (0x04, leAt h 4 2 != 1),
      (0x06, decide (4 ≤ flags) || (nbits flags 0 1 == 1 && !det) || (nbits flags 1 1 == 1 && det)),
      (0x08, decide (2 ^ 26 ≤ imgOum h)),
      (0x10, offBad 0), (0x14, lenBad 0), (0x18, offBad 1), (0x1C, lenBad 1), (0x20, offBad 2), (0x24, lenBad 2),
      (0x28, entBad 0), (0x2A, entBad 1), (0x2C, entBad 2),
      (0x2E, leAt h 0x2E 2 != 0),
      (0x32, leAt h 0x32 2 != 0),
      (0x34, decide ((imgData h).1 % 256 ≠ 0) || decide ((imgData h).1 < 0x100)
        || decide (spadSize < imgSpad h + (imgData h).2)) ]

/-- A format entry with a reserved bit set (11_mxe_instr.md R225). -/
def fmtReserved (v : Word) : Bool := wbits v 16 24 != 0 || wbits v 6 2 != 0 || wbits v 2 2 != 0

/-- The checks of the whole image (R50 orders 8 to 10). DEDUCED (log entry 59): an entry with a reserved bit set is an invalid one. -/
def imgBody (img : List Byte) : Except LErr Unit := do
  firstBad 0x02
    [ (0x40, leAt img 0x40 4 != (crc32c (img.take 0x40 ++ leBytes 4 0 ++ img.drop 0x44)).toNat),
      (0x44, ((img.drop 0x44).take 60).any fun b => b != 0) ]
  firstBad 0x43 ((List.range 16).map fun n =>
    (0x80 + 8 * n, match imgFmt img n with | some e => fmtReserved e || !(enUsable e && enPaired e) | none => false))

/-- The kernel image of a region (R50): its header. -/
def imageCheck (s : State) (pn kimg : Nat) (det : Bool) : Except LErr (List Byte) := do
  let h ← partRead s pn (w64 kimg) 256
  imgHeader h det
  let img ← partRead s pn (w64 kimg) (imgEnd h)
  imgBody img
  return h

/-- Entry `w` of a window table (R257). -/
def winEntry (t : List Byte) (w : Nat) : Win :=
  let o := 0x20 + 32 * w
  { base := leAt t o 8, len := leAt t (o + 8) 8, mstride := leAt t (o + 0x10) 8, cnt := leAt t (o + 0x18) 4,
    ctl := leAt t (o + 0x1C) 4 }

/-- The checks of one entry (R257). -/
def winBad (w : Nat) (e : Win) : List (Nat × Bool) :=
  let o := 0x20 + 32 * w
  let valid := nbits e.ctl 0 1 == 1
  let kind0 := nbits e.ctl 1 1 == 0
  [ (o, if valid then kind0 && decide (spadSize < e.base + e.len) else e.base != 0),
    (o + 0x08, if valid then decide (e.len < 1) else e.len != 0),
    (o + 0x10, if valid then kind0 && e.mstride != 0 else e.mstride != 0),
    (o + 0x18, if valid then decide (e.cnt % 16 ≠ 0) || decide (spadSize < e.cnt + 16) else e.cnt != 0),
    (o + 0x1C, decide (16 ≤ e.ctl)) ]

/-- The window table of a region: LRING and the valid entries (R257). -/
def windowCheck (s : State) (pn wtab : Nat) : Except LErr (Option Nat × SMap Win) := do
  if wtab = 0 then return (none, [])
  let t ← partRead s pn (w64 wtab) 8224
  firstBad 0x02 [(0x00, ringBad (leAt t 0 8)), (0x08, leAt t 8 24 != 0)]
  firstBad 0x02 ((List.range 256).flatMap fun w => winBad w (winEntry t w))
  return (some (leAt t 0 8), (List.range 256).filterMap fun w =>
    if nbits (winEntry t w).ctl 0 1 = 1 then some (w, winEntry t w) else none)

/-- The stream list (R338). -/
def streamCheck (s : State) (pn : Nat) (r : Rcb) : Except LErr (List (Nat × Nat × Nat)) := do
  firstBad 0x02 [(0x68, decide (64 < r.nstr))]
  let t ← if r.nstr = 0 then pure [] else partRead s pn (w64 r.slist) (32 * r.nstr)
  let l := (List.range r.nstr).map fun i => (leAt t (32 * i) 8, leAt t (32 * i + 8) 8, leAt t (32 * i + 16) 8)
  firstBad 0x02 [(0x28, ((List.range r.nstr).any fun i => leAt t (32 * i + 24) 8 != 0) || l.any fun e => e.2.2 == 0)]
  firstBad 0xC2 [(0x58, decide (r.hbmb < (l.map fun e => e.2.2).sum))]
  return l

/-- The launch checks in order (R335): the region as it enters the scoreboard. -/
def launchChecks (s : State) (g : Region) : Except LErr Region := do
  let parent := parentOf s g
  rcbWritten g.raw
  rcbGroups g.raw g.chan.isSome
  let r := effective g.raw parent
  placeCheck s g.part r
  firstBad 0x08 [(0x40, r.priv && g.chan.isNone && !(s.part g.part).privOk)]
  firstBad 0x02 [(0x40, r.dual && (!r.det || r.mdm != 0))]
  match parent with
  | some p => childCheck r p g.unspent
  | none => pure ()
  let h ← imageCheck s g.part r.kimg r.det
  let w ← windowCheck s g.part r.wtab
  let l ← streamCheck s g.part r
  return { g with
    rcb := r, oum := BitVec.ofNat 48 (imgOum h), lring := w.1, wins := w.2, strm := l
    bound := if r.timeb = 0 then g.unspent else some (r.timeb * Config.usTime)
    charge := if parent.isSome then r.hbmb else 0
    hbmUsed := (l.map fun e => e.2.2).sum
    st := if l.isEmpty then .ready else .staging }

/-- Regions of a partition in the scoreboard of a die (R337). -/
def inScoreboard (s : State) (pn die : Nat) : Nat :=
  (s.regions.filter fun p => p.2.part == pn && p.2.die == die && p.2.st != .journal && p.2.st != .gone).length

/-- The dies on which a partition has clusters, each with a scoreboard for it (01_machine.md R4). -/
def partDies (s : State) (pn : Nat) : List Nat := ((s.part pn).clusters.map fun cl => cl / 8).eraseDups

/-- A part of its budget is deducted from a region (R336). -/
def chargeRegion (s : State) (rid n : Nat) : State :=
  match s.region? rid with
  | some g => s.setRegion rid { g with hbmUsed := g.hbmUsed + n }
  | none => s

/-- SCOREBOARD_ENTRY (R337): a region leaves the journal for the scoreboard of a die that has room; its launch checks are made
(R335), then the capability check (R340). Which die of the partition takes a region is not stated: the event says it (log entry 41). -/
def execScoreboardEntry (place : RegionDie) (s : State) : Out :=
  let rid := place.rid
  let die := place.die
  .next (match s.region? rid with
    | none => s
    | some g =>
      if g.st ≠ .journal ∨ (s.part g.part).resetting ∨ !(partDies s g.part).contains die ∨ 1024 ≤ inScoreboard s g.part die then s
      else match launchChecks s g with
        | .error e =>
          let (s, f) := faddrOf (e.log s) e.faddr
          finishRegion (s.setRegion rid { g with die := die, rcb := effective g.raw (parentOf s g) }) rid 2 e.cause f
        | .ok n =>
          let s := s.setRegion rid { n with die := die }
          let s := match g.chan with
            | some c => chargeRegion s c.1 n.charge
            | none => s
          if couldPlace s n then s
          else
            let (s, f) := faddrOf s none
            finishRegion s rid 2 0xC1 f)

/-! ### Streams (R338) -/

/-- A STAGING region's streams come before another's in the copy queue: base PRIO, then age. -/
def copiesFirst (s : State) (a b : Region) : Bool :=
  decide (b.rcb.prio < a.rcb.prio) || (a.rcb.prio == b.rcb.prio && older s a b)

/-- Streams that wait ahead of a region's next one in the queue of its die, whatever their partition. -/
def streamsAhead (s : State) (rid : Nat) (g : Region) : Nat :=
  ((s.regions.filter fun p => p.1 != rid && p.2.st == .staging && p.2.die == g.die && copiesFirst s p.2 g).map fun p =>
    p.2.strm.length - p.2.streams).sum

/-- Bytes of a translated range that lie in a unit with an uncorrectable error. -/
def xlPoison (s : State) (xl : List Xl) (va : Word) (n : Nat) : Bool :=
  (List.range n).any fun i => match xlLoc xl (va + w64 i) with
    | some (k, _) => s.poison.any fun p => p / 8 == k / 8
    | none => false

/-- One stream is copied, or fails with the cause of 13_bte.md R249. -/
def copyStream (s : State) (pn src dst len : Nat) : Except LErr State := do
  let a ← partAcc s pn (w64 src) len { r := true }
  let b ← partAcc s pn (w64 dst) len { w := true, dual := true }
  if xlPoison s a (w64 src) len then throw ⟨0x71, some (w64 src), none⟩
  return xlStore s b (w64 dst) (xlBytes s a (w64 src) len)

/-- STREAM_COPY (R338): the next stream of a region is copied, in one of the sixteen slots. -/
def execStreamCopy (rid : Nat) (s : State) : Out :=
  .next (match s.region? rid with
    | none => s
    | some g =>
      match g.strm[g.streams]? with
      | none => s
      | some e =>
        if g.st ≠ .staging ∨ (s.part g.part).resetting ∨ 16 ≤ streamsAhead s rid g then s
        else match copyStream s g.part e.1 e.2.1 e.2.2 with
          | .error e =>
            let (s, f) := faddrOf (e.log s) e.faddr
            finishRegion s rid 2 e.cause f
          | .ok t => t.setRegion rid { g with
              streams := g.streams + 1
              st := if g.strm.length ≤ g.streams + 1 then .ready else .staging })

/-! ### Loading (R51, R345, R355) -/

/-- The positions [a, b) of the indices in a list of ranges. -/
def sliceRanges : List (Nat × Nat) → Nat → Nat → List (Nat × Nat)
  | [], _, _ => []
  | (l, h) :: r, a, b =>
    let n := h - l
    (if a < min b n then [(l + a, l + min b n)] else []) ++ sliceRanges r (a - n) (b - n)

/-- Indices in a list of ranges. -/
def rangeCountOf (l : List (Nat × Nat)) : Nat := (l.map fun e => e.2 - e.1).sum

/-- The share of rank r of c in a list of ranges (R350, R351). -/
def dealShare (l : List (Nat × Nat)) (r c : Nat) : List (Nat × Nat) :=
  sliceRanges l (r * rangeCountOf l / c) ((r + 1) * rangeCountOf l / c)

/-- The bytes of an instruction memory. -/
def imOf (bs : List Byte) : SMap Byte := bs.zipIdx.foldl (fun m e => smSet 0 m e.2 e.1) []

/-- What a launch reads for each member: the image, and the handler's words. -/
structure LoadSet where
  img : List Byte
  handlers : SMap (List Byte)
  deriving DecidableEq, Repr

/-- Reads the handler image of a partition (R355). -/
def readHandler (s : State) (pn : Nat) : Except LErr (List Byte) :=
  let p := s.part pn
  let len := wbits p.pthl 0 12
  let base := w64 (wbits p.pthb 8 56 * 256)
  if 2048 < len then .error ⟨0x02, none, none⟩
  else if len = 0 then .ok []
  else match partRead s pn base (4 * len) with
    | .ok bs => .ok bs
    | .error e => .error { e with faddr := some base }

/-- Reads the handlers of several partitions. -/
def readHandlers (s : State) : List Nat → Except LErr (SMap (List Byte))
  | [] => .ok []
  | pn :: l => match readHandler s pn, readHandlers s l with
    | .ok bs, .ok m => .ok (smPut m pn bs)
    | .error e, _ => .error e
    | _, .error e => .error e

/-- Reads the image of a region and the handlers of its members' partitions (R51, R355). -/
def readLoad (s : State) (g : Region) (cores : List Nat) : Except LErr LoadSet :=
  do
    let h ← partRead s g.part (w64 g.rcb.kimg) 256
    let img ← partRead s g.part (w64 g.rcb.kimg) (imgEnd h)
    let hs ← readHandlers s ((cores.map (partOfCore s)).eraseDups)
    return { img := img, handlers := hs }

/-- A core as its member starts (R8, R51, R345): zero but for what is named here. -/
def freshCore (s : State) (old : Core) (handler : List Byte) (rid : Nat) (g : Region) (ld : LoadSet) (rank count : Nat) (copy : Option Nat)
    (range : List (Nat × Nat)) : Core :=
  let sec (n : Nat) : SMap Byte := imOf ((ld.img.drop (imgSec ld.img n).1).take (imgSec ld.img n).2)
  let fmt : SMap Word := (List.range 16).foldl (fun m n => smSet 0 m n ((imgFmt ld.img n).getD 0)) []
  { run := .running, rid := rid, rank := rank, copy := copy, since := s.clock
    main := { x := smSet 0 (smSet 0 [] 1 (w64 g.rcb.args)) 2 (w64 g.steps), pc := BitVec.ofNat 14 (imgEntry ld.img 0) }
    sys := { det := g.rcb.det, priv := g.rcb.priv, oum := g.oum, ccm := old.sys.ccm, feat := g.feat }
    mx := { fmt := fmt, fmtS := fmt, mpc := imgEntry ld.img 1 }
    vx := { vpc := BitVec.ofNat 12 (imgEntry ld.img 2) }
    rg := { untaken := dealShare range rank count }
    apIm := sec 0, mxIm := sec 1, vxIm := sec 2
    shIm := (List.range (handler.length / 4)).foldl (fun m n => smSet 0 m n (BitVec.ofNat 32 (leAt handler (4 * n) 4))) []
    swz := old.swz, ret := old.ret, snap := old.snap, snapOf := old.snapOf }

/-- Zeroes the counters of every valid window in a member's scratchpad (14_link.md R258). -/
def zeroCounters (s : State) (k : Nat) (wins : SMap Win) : State :=
  wins.foldl (fun s e => if nbits e.2.ctl 0 1 = 1 then spadStore s k e.2.cnt (leBytes 16 0) else s) s

/-- Loads one member: its core, its data section, its counters. -/
def startMember (s : State) (k rid : Nat) (g : Region) (ld : LoadSet) (rank count : Nat) (copy : Option Nat)
    (range : List (Nat × Nat)) : State :=
  let s := s.setCore k (freshCore s (s.core k) (smGet [] ld.handlers (partOfCore s k)) rid g ld rank count copy range)
  let d := imgData ld.img
  zeroCounters (spadStore s k (imgSpad ld.img) ((ld.img.drop d.1).take d.2)) k g.wins

/-! ### Suspension and resumption (R343, R363) -/

/-- The scratchpad addresses of a core's commands, with the core's number or rank in them replaced. -/
def footMap (f : Nat → Nat) (c : Core) : Core :=
  let move (e : Foot) : Foot := if isSpadKey e.key then { e with key := f (e.key / 2 ^ 21) * 2 ^ 21 + e.key % 2 ^ 21 } else e
  { c with cmds := c.cmds.map fun m => { m with foot := m.foot.map move } }

/-- Moves the times that count on the module's clock. -/
def shiftTimes (f : Nat → Nat) (c : Core) : Core :=
  let dl (d : Deliv) : Deliv := { d with start := f d.start }
  { c with
    cmds := c.cmds.map fun m => if m.eng = .quern then { m with due := f m.due } else m
    pendH := c.pendH.map fun p => { p with from_ := f p.from_ }
    hnd := c.hnd.map dl
    hndQ := c.hndQ.map dl
    freeze := { c.freeze with ecc := c.freeze.ecc.map f, ended := c.freeze.ended.map f }
    shadow := { c.shadow with
      hold := if c.inHandler then f c.shadow.hold else c.shadow.hold
      fly := c.shadow.fly.map fun e => { e with due := f e.due }
      rq := c.shadow.rq.map fun e => { e with due := f e.due, from_ := f e.from_ }
      wq := c.shadow.wq.map fun e => { e with due := f e.due, from_ := f e.from_ } } }

/-- A suspended member's core, its state put back (R363): every time still to come is as far off as it was. -/
def resumeCore (s : State) (cores : List Nat) (old saved : Core) : Core :=
  let c := footMap (fun r => cores.getD r 0) (shiftTimes (fun t => t + s.clock) saved)
  { c with since := s.clock, ret := old.ret, ev := true, sys := { c.sys with ccm := old.sys.ccm }, snap := old.snap, snapOf := old.snapOf
           cmds := c.cmds.map (quernResume s.clock) }

/-- Puts the saved scratchpad bytes of rank r back into core k, with the units that were in error. -/
def restoreSpad (s : State) (k r : Nat) (g : Region) : State :=
  let kept := s.mem.filter fun e => e.1 / 2 ^ 21 != k
  let mine := (g.savedMem.filter fun e => e.1 / 2 ^ 21 == r).map fun e => (k * 2 ^ 21 + e.1 % 2 ^ 21, e.2)
  { s with
    mem := mine.foldl (fun m e => smSet 0 m e.1 e.2) kept
    poison := s.poison.filter (fun p => p / 2 ^ 21 != k)
      ++ (g.savedBad.filter fun p => p / 2 ^ 21 == r).map fun p => k * 2 ^ 21 + p % 2 ^ 21 }

/-- Puts the Quern of rank r back, owned by core k, as the core is given to the region (20_quern.md R321). -/
def restoreQuern (s : State) (k r : Nat) (g : Region) : State :=
  match g.savedQ.find? fun e => e.1 == r with
  | some e => s.setQuern (clusterOf k) { e.2 with owner := some k }
  | none => s

/-- A suspended region's members go on (R343, R363): ranks unchanged, on the cores given. -/
def resumeRegion (s : State) (rid : Nat) (g : Region) (cores : List Nat) : State :=
  let s := cores.zipIdx.foldl (fun s e =>
    let s := restoreSpad s e.1 e.2 g
    s.setCore e.1 (resumeCore s cores (s.core e.1) (nth {} g.saved e.2))) s
  match s.region? rid with
  | some g => s.setRegion rid { g with saved := [], savedMem := [], savedBad := [], savedQ := [] }
  | none => s

/-! ### Issue (R342-R345) -/

/-- The cores of each copy, where the cores of a dual run are given one copy after another. -/
def copyShares (g : Region) (cores : List Nat) : List (Option Nat × List Nat) :=
  if !g.rcb.dual then [(none, cores)]
  else if g.copies.isEmpty then
    [(some 0, cores.take (cores.length / 2)), (some 1, cores.drop (cores.length / 2))]
  else if g.saved.isEmpty then [(some g.copies.length, cores)]
  else (List.range g.copies.length).filterMap fun n =>
    let mine := (cores.zip g.saved).filter fun e => e.2.copy == some n
    if mine.isEmpty then none else some (some n, mine.map fun e => e.1)

/-- The copies of a dual run once its shares are placed. -/
def placeCopies (cs : List Copy) : List (Option Nat × List Nat) → List Copy
  | [] => cs
  | (some n, l) :: r =>
    placeCopies (if n < cs.length then cs.modify n fun c => { c with cores := l } else cs ++ [{ cores := l }]) r
  | (none, _) :: r => placeCopies cs r

/-- A core is given to a region: it leaves retention if it is in it (22_faults.md R369), and the state of a stop that it still shows goes,
unless it is of a member of that region (24_device.md R391). -/
def giveCore (s : State) (rid : Nat) (share : Option Nat × List Nat) (k : Nat) : State :=
  let c := s.core k
  let ret := match c.retNow s.clock with
    | .awake => Ret.awake
    | .entering u => Ret.leaving (max u s.clock + 2048)
    | .retained => Ret.leaving (s.clock + 2048)
    | .leaving u => Ret.leaving u
  let own : Bool := c.snapOf.any fun e => e.1 == rid
  s.setCore k { c with run := .starting, rid := rid, rank := share.2.idxOf k, copy := share.1, ret := ret
                       snap := if own then c.snap else [], snapOf := if own then c.snapOf else none }

/-- The members of a region whose cores are all ready start together (R345), or go on where they were suspended. -/
def startRegion (s : State) (rid : Nat) : State :=
  match s.region? rid with
  | none => s
  | some g =>
    let mine := (s.cores.filter fun e => e.2.rid == rid && e.2.run == .starting && (membersOf s e.1).contains e.1).map fun e => e.1
    if mine.isEmpty ∨ mine.any (fun k => (s.core k).ret != .awake) then s
    else if !g.saved.isEmpty then
      resumeRegion s rid g (if g.rcb.dual then savedOrder g else g.members)
    else match readLoad s g mine with
      | .error e =>
        let (s, f) := faddrOf (e.log s) e.faddr
        finishRegion s rid 2 e.cause f
      | .ok ld => mine.foldl (fun s k =>
          let c := s.core k
          let count := (membersOf s k).length
          startMember s k rid g ld c.rank count c.copy [(g.rcb.lo, g.rcb.hi)]) s
where
  /-- the cores of a suspended dual run in the order of its saved members. -/
  savedOrder (g : Region) : List Nat :=
    g.saved.map fun c => match c.copy with
      | some n => (nth {} g.copies n).cores.getD c.rank 0
      | none => 0

/-- Where a placement lies, as far as the implementation's choice goes (R344): its cluster, die or module. -/
def locus (r : Rcb) (l : List Nat) : Nat :=
  let k := l.headD 0
  match r.mdm with
  | 0 => if r.maxc ≤ 24 then clusterOf k else dieOf k
  | _ => moduleOf k

/-- A list of cores that the scheduler may choose for a region now (R344). -/
def mayPlace (s : State) (g : Region) (cores : List Nat) : Bool :=
  let l := openPlacements s g
  (l.any fun p => p.length == cores.length && locus g.rcb p == locus g.rcb cores)
    && (regionPlacements s g ((ableCores s g.part g.rcb g.oum (needsSuspects s g)).filter fun k => coreFree s k && cores.contains k)).contains cores
    && quernsFree s g cores

/-- A READY region that can issue now. -/
def canIssue (s : State) (g : Region) : Bool :=
  g.st == .ready && !(s.part g.part).resetting && !(openPlacements s g).isEmpty

/-- A region may issue: it is READY, and no region that goes before it can (R342). -/
def issueTurn (s : State) (rid : Nat) (g : Region) : Bool :=
  g.st == .ready && !(s.part g.part).resetting
    && !s.regions.any fun p => p.1 != rid && p.2.part == g.part && goesFirst s p.2 g && canIssue s p.2

/-- REGION_ISSUE (R342, R344): a region takes cores; its members start once all of them are ready. Before that the routing tables of
a rectangle's units are loaded and checked: one that proves `unreachable` ends the region with 0x7A. -/
def execRegionIssue (rid : Nat) (place : Placing) (s : State) : Out :=
  let cores := place.cores
  .next (match s.region? rid with
    | none => s
    | some g =>
      if !issueTurn s rid g || !mayPlace s g cores then s
      else if place.unreachable && decide (2 ≤ g.rcb.mdm) then
        let (s, f) := faddrOf s none
        finishRegion s rid 2 0x7A f
      else
        let shares := copyShares g cores
        let first := g.saved.isEmpty && g.copies.isEmpty
        let s := s.setRegion rid { g with
          st := .running, waited := 0
          members := if g.rcb.dual then [] else cores
          copies := placeCopies g.copies shares
          runs := if first then g.runs + 1 else g.runs
          feat := if first then (s.part g.part).feat else g.feat }
        let s := shares.foldl (fun s sh => sh.2.foldl (fun s k => giveCore s rid sh k) s) s
        let s := cores.zipIdx.foldl (fun s e => restoreQuern s e.1 e.2 g) s
        startRegion s rid)

/-- RETENTION_ENTRY (22_faults.md R369): a core idle for 65,536 cycles puts its arrays into retention, which takes 2,048. -/
def execRetentionEntry (core : Nat) (s : State) : Out :=
  let c := s.core core
  .next (match c.ret with
    | .awake =>
      if c.run = .idle ∧ c.test = none ∧ c.idle + 65536 ≤ s.clock then s.setCore core { c with ret := .entering (s.clock + 2048) } else s
    | .entering u => if u ≤ s.clock then s.setCore core { c with ret := .retained } else s
    | _ => s)

/-- RETENTION_EXIT (R369): a core that is given to a region has left retention; the 64-bit scratchpad units of `bad` are
found uncorrectable. Every other array is loaded or zeroed at the start. -/
def execRetentionExit (core : Nat) (bad : List Nat) (s : State) : Out :=
  let c := s.core core
  .next (match c.ret with
    | .leaving u =>
      if s.clock < u then s
      else
        let s := { (s.setCore core { c with ret := .awake }) with
          poison := s.poison ++ (bad.filter fun n => decide (n < 2 ^ 18)).map fun n => spadKey core (8 * n) }
        startRegion s c.rid
    | _ => s)

end Sys2Proof.Machine
end

