-- ==== Sys2Proof/Machine/Region.lean ====
section
/-!
DEFINITION. The region words (21_scheduler.md R348-R351, R395) and the steps that answer them.
-/

namespace Sys2Proof.Machine

/-- "None" and the answer of a region word without an index (R350). -/
def allOnes : Word := ~~~0

/-- What a region word is (R348): class AP.ALU, an engine command that its scheduler has accepted by the time it is done. -/
def rgSpec (bad : Bool) : ApSpec := { cls := 0, cmd := true, accepted := true, bad := bad }

/-- A region word acts once the checker has let it out of the AP (R117); until then, and while it waits, it is held with the operands
it read at issue. -/
def acceptedWord (kind : PendKind) (body : State → Res) (s : State) : Res :=
  match s.cur.held with
  | none => holdAt kind s
  | some p =>
    if apTime s < p.from_ then .stall 0 s
    else match body (s.modCur fun c => c.setHeld none) with
      | .stall w t => .stall w (t.modCur fun c => c.setHeld (some p))
      | r => r

/-- The current core's place in its region's index range. -/
def modRg (s : State) (f : Rg → Rg) : State := s.modCur fun c => { c with rg := f c.rg }

/-! ### `rg.spawn` (R349) -/

/-- The command a spawn is, for its CCW's waits (R14). -/
def spawnCmd (c : Core) (ccw : Word) : Cmd :=
  { seq := c.cmdSeq, eng := .region, ccw := ccw, op := { op := 0 }, po := c.main.po, at_ := 0 }

/-- The acquire and release of a spawn's CCW: its predecessors have retired; with ACQ or REL every earlier AP memory event
has been performed (R95). -/
def spawnReady (c : Core) (ccw : Word) : Bool :=
  cmdReady c (spawnCmd c ccw)
    && ((wbits ccw 14 1 == 0 && wbits ccw 13 1 == 0) || (c.main.rq.isEmpty && c.main.wq.isEmpty))

/-- The check of an access that a spawn makes, in the order of 06_ap_instr.md R137: the translated space, alignment, pages. -/
def spawnAccess (s : State) (k : Nat) (va : Word) (len : Nat) (n : Need) : State × AccRes :=
  if vaSpace va ≠ 0 then (s, .fault 0x21 va)
  else match xlOutside va len with
    | some f => (s, .fault 0x21 f)
    | none => if va.toNat % len ≠ 0 then (s, .fault 0x23 va) else xlNow s k va n (granules va.toNat len)

/-- How a spawn's access ends its word where it may not be made. A walk that fails goes to the handler, which may serve it (R81,
R356): the word is then run again. -/
def spawnStop (t : State) (va : Word) : AccRes → Res
  | .ok _ => .stall 0 t
  | .miss v =>
    let f := w64 (max va.toNat (v * 65536))
    let x := t.cur.main
    if hasHandler t t.turn.1 then .leave (deliver t t.turn.1 x.unitPc 0x21 f none none x.pending) else .trap 0x21 (some f)
  | .fault c f => .trap c (some f)
  | .stage2 c g => .leave (stage2Fail t t.turn.1 c g)

/-- The child is accepted, or held by the copy of a dual run (R349). -/
def spawnChild (t : State) (raw : BitVec 2048) : State :=
  let c := t.cur
  let chan := some (c.rid, c.rank)
  match c.copy, t.region? c.rid with
  | some n, some g =>
    t.setRegion c.rid { g with copies := g.copies.modify n fun e => { e with spawns := e.spawns ++ [(c.rank, raw)] } }
  | _, _ =>
    let pn := partOfCore t t.turn.1
    acceptRegion t pn chan (memberSeq t pn chan) raw

/-- What an accepted spawn does, with its operands (R349). -/
def spawnBody (d : BitVec 5) (ccw va : Word) (t : State) : Res :=
  let c := t.cur
  if !spawnReady c ccw then .stall 0 t
  else if 4096 ≤ chanCount t (partOfCore t t.turn.1) (some (c.rid, c.rank)) then .stall 8 t
  else match spawnAccess t t.turn.1 va 256 { r := true } with
    | (t, .ok xl) =>
      let raw := BitVec.ofNat 2048 (vaNat t t.turn.1 xl va 256)
      let crec := w64 (rcbField raw 0x10 8)
      match spawnAccess t t.turn.1 crec 32 { w := true } with
      | (t, .ok _) =>
        let t := modRg (spawnChild t raw) fun r => { r with spawnCnt := r.spawnCnt + 1 }
        .done (setX (retireHere t) 1 d (w64 c.rg.spawnCnt))
      | (t, r) => spawnStop t crec r
    | (t, r) => spawnStop t va r

/-- The operands of a spawn, as they were read at issue. -/
def spawnOps (c : Core) (ccw va : Word) : Word × Word :=
  match c.held with
  | some { kind := .rgSpawn a b, .. } => (a, b)
  | _ => (ccw, va)

def execRgSpawn (h : Hdr) (d a : BitVec 5) (s : State) : Out :=
  .next (apWord h (rgSpec (decide (30 < a.toNat))) (fun t =>
    let o := spawnOps t.cur (xr t a) (xg t a 1)
    if ccwBad o.1 false then .trap 0x02 none
    else acceptedWord (.rgSpawn o.1 o.2) (spawnBody d o.1 o.2) t) s
    fun t => modRg t fun r => { r with spawnCnt := r.spawnCnt + 1 })

/-! ### `rg.next` and `rg.steal` (R350) -/

/-- The lowest index of a set, and the rest. -/
def takeLowest : List (Nat × Nat) → Option (Nat × List (Nat × Nat))
  | [] => none
  | (l, h) :: r => some (l, if l + 1 < h then (l + 1, h) :: r else r)

/-- A victim's answer to a thief: the upper half of what the victim holds, of which the thief takes the lowest index. -/
def grantTo (s : State) (thief : Nat) (g : List (Nat × Nat)) : State :=
  match takeLowest g with
  | none => s
  | some (i, rest) =>
    let c := s.core thief
    answer (s.setCore thief { c with rg := { c.rg with untaken := rest } }) thief (.value (w64 i))

/-- A victim answers "none" to a thief, which asks the next member, or ends with all ones. -/
def refuseThief (s : State) (thief : Nat) : State :=
  let c := s.core thief
  match c.pend with
  | some { kind := .rgNext asked only, res := none, from_ } =>
    s.setCore thief { c with pend := some { kind := .rgNext (asked + 1) only, from_ } }
  | _ => s

/-- The request that a victim serves first: the earliest, then of the lowest thief rank (R350). -/
def firstRequest : List (Nat × Nat) → Option (Nat × Nat)
  | [] => none
  | e :: l => match firstRequest l with
    | some f => if f.1 < e.1 || (f.1 == e.1 && decide (f.2 < e.2)) then some f else some e
    | none => some e

/-- A victim serves its first request (R350). -/
def serveRequest (s : State) (k : Nat) : State :=
  let c := s.core k
  match firstRequest c.rg.req with
  | none => s
  | some e =>
    let thief := (membersOf s k).getD e.2 0
    let n := rangeCountOf c.rg.untaken
    let m := n - ceilDiv n 2
    let served (l : List (Nat × Nat)) : State := s.setCore k { c with rg := { c.rg with untaken := l, req := c.rg.req.erase e } }
    if n = 0 then refuseThief (served c.rg.untaken) thief
    else grantTo (served (sliceRanges c.rg.untaken 0 m)) thief (sliceRanges c.rg.untaken m n)

/-- A member stands at its `rg.next` or `rg.steal` until its scheduler answers (R350). -/
def nextBody (d : BitVec 5) (only : Option Nat) (t : State) : Res :=
  heldWord (holdAt (.rgNext 0 only)) (fun v t => .done (setX (retireHere t) 1 d v)) t

def execRgNext (h : Hdr) (d : BitVec 5) (s : State) : Out := .next (apWord h (rgSpec false) (nextBody d none) s)

/-- The victim that an `rg.steal` named at issue. -/
def stealVictim (c : Core) (v : Word) : Nat :=
  match c.held with
  | some { kind := .rgNext _ (some r), .. } => r
  | _ => v.toNat

def execRgSteal (h : Hdr) (d a : BitVec 5) (s : State) : Out :=
  .next (apWord h (rgSpec false) (fun t =>
    let v := stealVictim t.cur (xr t a)
    if (membersOf t t.turn.1).length ≤ v ∨ v = t.cur.rank then .trap 0x02 none
    else nextBody d (some v) t) s)

/-- A member answers "none" at once: it has no index, and so waits for one itself or holds none, or has left (R350). -/
def answersNone (c : Core) : Bool := c.rg.untaken.isEmpty || !c.alive

/-- The members that a thief asks, in order. -/
def victimsOf (rank count : Nat) : Option Nat → List Nat
  | some v => [v]
  | none => (List.range (count - 1)).map fun i => (rank + 1 + i) % count

/-- A thief asks its victims in turn, until one is to answer at its next `rg.next`. -/
def askVictims : Nat → Nat → State → State
  | 0, _, s => s
  | fuel + 1, thief, s =>
    let c := s.core thief
    match c.pend with
    | some { kind := .rgNext asked only, res := none, .. } =>
      let grp := membersOf s thief
      match (victimsOf c.rank grp.length only)[asked]? with
      | none => answer s thief (.value allOnes)
      | some v =>
        let j := grp.getD v 0
        let b := s.core j
        if answersNone b then
          askVictims fuel thief (refuseThief (s.setCore j { b with rg := { b.rg with req := b.rg.req.filter fun r => r.2 != c.rank } }) thief)
        else if b.rg.req.any fun r => r.2 == c.rank then s
        else s.setCore j { b with rg := { b.rg with req := b.rg.req ++ [(s.clock, c.rank)] } }
    | _ => s

/-- The scheduler's answer to a member at `rg.next` or `rg.steal` (R350): its lowest index, after which it serves a request; all ones,
to an `rg.steal` of a member that has indices; else what the others answer. -/
def nextAnswer (s : State) (k : Nat) (only : Option Nat) : State :=
  let c := s.core k
  match takeLowest c.rg.untaken, only with
  | some (i, rest), none => serveRequest (answer (s.setCore k { c with rg := { c.rg with untaken := rest } }) k (.value (w64 i))) k
  | some _, some _ => answer s k (.value allOnes)
  | none, _ => askVictims ((membersOf s k).length + 1) k s

/-- RG_NEXT_ANSWER (R350): a member at `rg.next` or `rg.steal` has its answer, or asks for it. -/
def execRgNextAnswer (core : Nat) (s : State) : Out :=
  .next (match (s.core core).alive, (s.core core).asks with
    | true, some (.rgNext _ only) => nextAnswer s core only
    | _, _ => s)

/-! ### Region barriers (R351, R395) -/

/-- The member's next region barrier word is counted, whether its guard is true or not (R348, R395). -/
def countBarrier (t : State) : State := modRg t fun r => { r with k := r.k + 1 }

def execRgStep (h : Hdr) (d : BitVec 5) (s : State) : Out :=
  .next (apWord h (rgSpec false) (heldWord
    (fun t =>
      if t.cur.wl.wst ≠ 0 then .trap 0x81 (some (t.cur.wl.wst.zeroExtend 64))
      else holdAt (.rgStep t.cur.rg.k) (countBarrier t))
    (fun v t => .done (setX (retireHere t) 1 d v))) s countBarrier)

def execRgYield (h : Hdr) (s : State) : Out :=
  .next (apWord h (rgSpec false) (heldWord
    (fun t => holdAt (.rgYield t.cur.rg.k) (countBarrier t))
    (fun _ t => .done (retireHere t))) s countBarrier)

/-- A core has arrived at the region barrier word it stands at: earlier AP events are performed and, at `rg.step`, every
earlier engine command has retired. -/
def rgArrived (c : Core) : PendKind → Bool
  | .rgStep _ => barArrived c true && c.cmds.isEmpty
  | .rgYield _ => barArrived c false
  | _ => false

/-- Two members stand at the same kind of region barrier word (R395). -/
def sameRgWord : PendKind → PendKind → Bool
  | .rgStep _, .rgStep _ => true
  | .rgYield _, .rgYield _ => true
  | _, _ => false

/-- Which of its region barrier words a member stands at (R395). -/
def barrierCount : PendKind → Option Nat
  | .rgStep k => some k
  | .rgYield k => some k
  | _ => none

/-- What the members of a group stand at, where all have arrived at their k-th region barrier word, for one k (R395). -/
def groupArrived (s : State) (grp : List Nat) : Option (List (Nat × PendKind)) :=
  match groupHeld s grp with
  | some (e :: l) =>
    if (e :: l).all fun x => rgArrived (s.core x.1) x.2 && barrierCount x.2 == barrierCount e.2 then some (e :: l) else none
  | _ => none

/-- Inserts a range in ascending order. -/
def insertRange (e : Nat × Nat) : List (Nat × Nat) → List (Nat × Nat)
  | [] => [e]
  | f :: l => if e.1 < f.1 then e :: f :: l else f :: insertRange e l

/-- The untaken ranges of a group, in ascending order (R351). -/
def poolRanges (s : State) (grp : List Nat) : List (Nat × Nat) :=
  (grp.flatMap fun k => (s.core k).rg.untaken).foldr insertRange []

/-- Deals a pool over a member set, and completes the barrier at the continuing members (R351). -/
def redeal (s : State) (pool : List (Nat × Nat)) (grp : List Nat) : State :=
  grp.zipIdx.foldl (fun s e =>
    let c := s.core e.1
    answer (s.setCore e.1 { c with rg := { c.rg with untaken := dealShare pool e.2 grp.length, req := [] } }) e.1
      (.value (w64 (grp.length * 2 ^ 32 + e.2)))) s

/-- The cores that a step is about to add to a region, in rank order: given to it, and not yet its members (R351). -/
def joining (s : State) (rid : Nat) : List Nat :=
  (sortBy (fun a b => decide ((s.core a).rank ≤ (s.core b).rank))
    ((s.cores.filter fun e => e.2.rid == rid && e.2.run == .starting).map fun e => e.1)).filter fun k => !(membersOf s k).contains k

/-- The cores that an elastic region may add at a step: CPU on each of some further dies of its module, eligible without a suspect
class, since the region runs without them (R341, R344, R351). -/
def mayAdd (s : State) (g : Region) (add : List Nat) : Bool :=
  let dies := (add.map dieOf).eraseDups
  let able := ableCores s g.part g.rcb g.oum false
  g.rcb.mdm == 1 && dies.all (fun d => !(g.members.map dieOf).contains d && d / 4 == (g.members.headD 0) / 1024)
    && add.all (fun k => coreFree s k && able.contains k)
    && (dies.flatMap fun d => (pickUnit (add.filter fun k => dieOf k == d) g.rcb.cpu).getD []) == add
    && decide (g.members.length + add.length ≤ g.rcb.cpu * g.rcb.xb)

/-- The dies that an elastic region may be made to give up at a step. -/
def mayWithdraw (g : Region) (n : Nat) : Bool :=
  g.rcb.mdm == 1 && decide (g.rcb.cpu * (n + g.rcb.xa) ≤ g.members.length)

/-- A member leaves as if by `rg.exit x0`, and its core is given back. -/
def withdrawMember (s : State) (k : Nat) : State :=
  let s := closeMember s k
  let c := s.core k
  s.setCore k { c with run := .idle, idle := s.clock, rg := { c.rg with exited := true, untaken := [] } }

/-- The added members start, once every one of their cores has left retention, and the step completes (R345, R351). They stand at the
same count of region barriers as the others (R395). -/
def addMembers (s : State) (rid : Nat) (g : Region) (pool : List (Nat × Nat)) (grp add : List Nat) : State :=
  if add.any fun k => (s.core k).ret != .awake then s
  else match readLoad s g add with
    | .error e =>
      let (s, f) := faddrOf (e.log s) e.faddr
      finishRegion s rid 2 e.cause f
    | .ok ld =>
      let g := { g with steps := g.steps + 1, members := grp ++ add }
      let k := (s.core (grp.headD 0)).rg.k
      let join (s : State) (e : Nat × Nat) : State :=
        let t := startMember s e.1 rid g ld (grp.length + e.2) (grp.length + add.length) none []
        t.setCore e.1 { t.core e.1 with rg := { (t.core e.1).rg with k := k } }
      redeal (add.zipIdx.foldl join (s.setRegion rid g)) pool (grp ++ add)

/-- `rg.step` completes at a group (R351): resizing, pooling, dealing. Cores that are to be added leave retention first. -/
def stepBarrier (s : State) (rid : Nat) (copy : Option Nat) (grp : List Nat) (withdraw : Nat) (add : List Nat) : State :=
  match s.region? rid with
  | none => s
  | some g =>
    let pool := poolRanges s grp
    if copy.isSome then (if withdraw = 0 ∧ add = [] then redeal s pool grp else s)
    else if joining s rid ≠ [] then addMembers s rid g pool grp (joining s rid)
    else if withdraw = 0 ∧ add = [] then redeal (s.setRegion rid { g with steps := g.steps + 1 }) pool grp
    else if withdraw ≠ 0 then
      if !mayWithdraw g withdraw || add != [] then s
      else
        let kept := grp.take (grp.length - withdraw * g.rcb.cpu)
        let s := (grp.drop kept.length).foldl withdrawMember s
        match s.region? rid with
        | some g => redeal (s.setRegion rid { g with steps := g.steps + 1, members := kept }) pool kept
        | none => s
    else if !mayAdd s g add then s
    else
      let s := add.foldl (fun s k => giveCore s rid (none, add) k) s
      addMembers s rid g pool grp add

/-- A region barrier completes at one group, where all its members have arrived (R395). -/
def groupBarrier (s : State) (rid : Nat) (copy : Option Nat) (grp : List Nat) (withdraw : Nat) (add : List Nat) : State :=
  match groupArrived s grp with
  | none => s
  | some l =>
    match firstDiffering s l sameRgWord, l with
    | some r, _ => answerAll s grp (.fault 0x02 (w64 r))
    | none, (_, .rgStep _) :: _ => stepBarrier s rid copy grp withdraw add
    | none, _ => answerAll s grp (.value 0)

/-- REGION_BARRIER_COMPLETE (R395): the region barrier of a region's members, or of each copy's, completes; an elastic
region may give up its last `withdraw` dies, or gain the cores `add` (R351). -/
def execRegionBarrierComplete (rid : Nat) (withdraw : Nat) (add : List Nat) (s : State) : Out :=
  .next (match s.region? rid with
    | none => s
    | some g => if g.st ≠ .running then s else (groupsOf g).foldl (fun s p => groupBarrier s rid p.1 p.2 withdraw add) s)

/-! ### `rg.exit` (R348) -/

/-- Notes a member's exit code. -/
def noteExit (s : State) (k code : Nat) : State :=
  let c := s.core k
  match s.region? c.rid with
  | none => s
  | some g =>
    match c.copy with
    | some n => s.setRegion c.rid { g with copies := g.copies.modify n fun e => { e with user := e.user ++ [(c.rank, code)] } }
    | none => s.setRegion c.rid { g with user := g.user ++ [(c.rank, code)] }

/-- Every member of a core's group has exited: the region completes, or its copy of a dual run has finished (R348, R349). -/
def groupDone (s : State) (k : Nat) : State :=
  let c := s.core k
  let grp := membersOf s k
  if grp.all (fun j => (s.core j).rg.exited) then
    match c.copy, s.region? c.rid with
    | some n, some g =>
      { (s.setRegion c.rid { g with copies := g.copies.modify n fun e => { e with finished := true } }) with
        cores := s.cores.map fun e => if grp.contains e.1 then (e.1, { e.2 with run := .idle, idle := s.clock }) else e }
    | _, _ => finishRegion s c.rid 1 0 0
  else s

/-- A store that can still be performed stands at the head of the write queue. -/
def storeLeft (c : Core) : Bool :=
  match c.main.wq with
  | [] => false
  | e :: _ => e.kind != .stq || (sqHead c).isSome

/-- The operand of an `rg.exit`, as it was read at issue. -/
def exitCode (c : Core) (v : Word) : Word :=
  match c.held with
  | some { kind := .rgExit w, .. } => w
  | _ => v

/-- What an accepted `rg.exit` does. -/
def exitBody (v : Word) (t : State) : Res :=
  if !t.cur.cmds.isEmpty || storeLeft t.cur then .stall 0 t
  else .leave (noteExit (modRg (retireHere t) fun r => { r with exited := true, untaken := [] }) t.turn.1 (wbits v 0 16))

def execRgExit (h : Hdr) (a : BitVec 5) (s : State) : Out :=
  .next (apWord h (rgSpec false) (fun t =>
    acceptedWord (.rgExit (exitCode t.cur (xr t a))) (exitBody (exitCode t.cur (xr t a))) t) s)

/-- The members whose `rg.exit` has retired end with the cycle (R348): the other streams' words of that cycle still issue, and
a fault among them ends the kernel instead. DEDUCED (log entry 44). -/
def exitMembers (s : State) : State :=
  let l := (s.cores.filter fun e => e.2.alive && e.2.rg.exited).map fun e => e.1
  l.foldl (fun s k => groupDone s k) (l.foldl (fun s k => closeMember s k) s)

end Sys2Proof.Machine
end

