-- ==== Sys2Proof/Machine/Complete.lean ====
section
/-!
DEFINITION. How regions end, and what takes their cores from them: completion (21_scheduler.md R333, R347), dual runs (R349),
budgets (R339), pre-emption (R343, 22_faults.md R363), capability fences and in-field tests (R340, R341), and the reset of
a partition (22_faults.md R362, R370, R371, 24_device.md R385).
-/

namespace Sys2Proof.Machine

/-! ### Completion -/

/-- A region that is to be placed, and that no set of unfenced cores can hold any more, completes with 0xC1 (21_scheduler.md R340). -/
def endUnplaced (s : State) (rid : Nat) : State :=
  match s.region? rid with
  | some g =>
    if !(g.st == .staging || g.st == .ready || g.st == .suspended) || couldPlace s g || g.fin.isSome then s
    else
      let (s, f) := faddrOf s none
      finishRegion s rid 2 0xC1 f
  | none => s

/-- USER: the code of the lowest rank that exited with one other than 0 (R348). -/
def userCode (l : List (Nat × Nat)) : Nat :=
  match (l.filter fun e => e.2 != 0) with
  | [] => 0
  | h :: t => (t.foldl (fun a e => if e.1 < a.1 then e else a) h).2

/-- The exit codes of the run that ended a region: those of the copy that is kept, or, where a dual run fails, of all its copies
(R348). -/
def exitCodes (g : Region) (status : Nat) : List (Nat × Nat) :=
  if status = 1 then g.user else g.user ++ g.copies.flatMap Copy.user

/-- The 32 bytes of a region's record (R333). -/
def regionRecord (g : Region) (e : RegionEnd) : List Byte :=
  leBytes 8 g.seq ++ leBytes 1 e.cause ++ leBytes 1 e.status ++ leBytes 2 (userCode (exitCodes g e.status)) ++ leBytes 4 e.rank
    ++ leBytes 8 e.faddr.toNat ++ leBytes 8 (rcbField g.raw 0x70 8)

/-- The members' slots are merged into the statistics area, unless the run was stopped by a reset (03_numbers.md R73). DESIGN
CHOICE (log entry 55): the counts are lost where the area cannot be read or written. -/
def mergeStats (s : State) (g : Region) (status : Nat) : State :=
  if status = 3 ∨ g.rcb.stats = 0 ∨ g.mstats = [] then s
  else match partRead s g.part (w64 g.rcb.stats) 2048 with
    | .ok area => partWrite s g.part (w64 g.rcb.stats) (g.mstats.foldl statMergeAll area)
    | .error e => e.log s

/-- Raises an interrupt vector of a virtual function. -/
def raiseMsix (s : State) (vf vec : Nat) : State := { s with dev := { s.dev with msix := s.dev.msix ++ [(vf, vec)] } }

/-- What the writing of a host channel's record does besides (22_faults.md R362, 24_device.md R382). -/
def hostRecord (s : State) (pn : Nat) : State :=
  let p := s.part pn
  let s := s.setPart pn { p with qtimer := 0 }
  if wbits p.intctl 1 1 = 1 then raiseMsix s pn 1 else s

/-- A partition gets a new key: the key ids of other partitions that were bound to the old one are bound no more (24_device.md
R384, R385). -/
def newKey (s : State) (pn : Nat) : State :=
  let n := s.dev.keyCtr + 1
  let s := { s with parts := s.parts.map fun (e : Nat × Part) => (e.1, { e.2 with shared := e.2.shared.filter fun b => b.2 != pn }) }
  { (s.setPart pn { s.part pn with keyGen := n }) with dev := { s.dev with keyCtr := n } }

/-- The ranges of `State.mem` of a share, with a key generation. -/
def shareRanges (share : List (Nat × Nat × Nat)) (gen : Nat) : List (Nat × Nat × Nat) :=
  share.map fun e => (hbmKey e.1 (e.2.1 * 2 ^ 30), e.2.2 * 2 ^ 30, gen)

/-- Everything in a share counts as written under a key generation. -/
def coverShare (s : State) (share : List (Nat × Nat × Nat)) (gen : Nat) : State :=
  let new := shareRanges share gen
  let within (r : Nat × Nat × Nat) : Bool := new.any fun n => decide (n.1 ≤ r.1) && decide (r.1 + r.2.1 ≤ n.1 + n.2.1)
  { s with
    keyTag := s.keyTag.filter fun e => !inShare share e.1
    keyRange := new ++ s.keyRange.filter fun r => !within r }

/-- A partition's key is destroyed and replaced: everything in its share, under whichever key it was written, is unreadable from
then on (24_device.md R385). -/
def replaceKey (s : State) (pn : Nat) : State := newKey (coverShare s (s.part pn).share (s.part pn).keyGen) pn

/-- Steps 6 and 7 of a partition reset, once every record that can be written has been (22_faults.md R370). -/
def resetFinish (s : State) (pn : Nat) : State :=
  let p := s.part pn
  if !p.resetting ∨ s.regions.any (fun e => e.2.part == pn && e.2.st == .done) then s
  else
    let s := s.setPart pn { p with resetting := false, qtimer := 0, resetDone := p.tstate == .error }
    let s := if wbits p.intctl 0 1 = 1 then raiseMsix s pn 0 else s
    if p.afterReset then
      let s := replaceKey s pn
      s.setPart pn { s.part pn with afterReset := false, resetDone := false, tstate := .configUnlocked }
    else s

/-- REGION_COMPLETION (R333): the record of a region that has ended is written, in the order of its channel, at a reset among the
records that the reset writes (22_faults.md R371, 23_fault_program.md R373). -/
def execRegionCompletion (rid : Nat) (s : State) : Out :=
  .next (match s.region? rid with
    | none => s
    | some g =>
      match g.fin with
      | none => s
      | some e =>
        if g.st ≠ .done ∨ !(inOrder s g || inResetOrder s g) then s
        else
          let s := mergeStats s g e.status
          let s := partWrite s g.part (w64 (rcbField g.raw 0x10 8)) (regionRecord g e)
          let s := match g.chan with
            | some c => match s.region? c.1 with
              | some p => s.setRegion c.1 { p with hbmUsed := p.hbmUsed - g.charge }
              | none => s
            | none => hostRecord s g.part
          resetFinish (s.setRegion rid { g with st := .gone, mstats := [] }) g.part)

/-- TIMEB_EXPIRY (R339): a running region has used up its time. -/
def execTimebExpiry (rid : Nat) (s : State) : Out :=
  .next (match s.region? rid with
    | none => s
    | some g =>
      if g.st = .running ∧ timeLeft g = some 0 then
        let (s, f) := faddrOf s none
        finishRegion s rid 2 0xC2 f
      else s)

/-! ### Dual runs (R349) -/

/-- Two copies leave equal overlays: the same pages, and in them the same bytes. -/
def copiesAgree (a b : Copy) : Bool :=
  let byte (c : Copy) (key : Nat) : Byte := (smGet (0, 0) c.overlay key).1
  a.pages.map Prod.fst == b.pages.map Prod.fst && (a.overlay ++ b.overlay).all fun e => byte a e.1 == byte b e.1

/-- Bytes of the 64 KiB pages of a copy's overlay. -/
def overlaySize (c : Copy) : Nat := 65536 * c.pages.length

/-- One page of an overlay is written to memory. -/
def commitPage (c : Copy) (s : State) (p : Nat × Nat) : State :=
  (List.range 65536).foldl (fun s i =>
    let b := smGet (0, p.2) c.overlay (65536 * p.1 + i)
    memWrite s (65536 * p.1 + i) b.2 b.1) s

/-- The result of a copy is kept: its overlay is committed, its spawns are accepted in order (R349). -/
def commitCopy (s : State) (rid : Nat) (g : Region) (c : Copy) : State :=
  let s := c.pages.foldl (commitPage c) s
  let s := s.setRegion rid { g with user := c.user, mstats := c.mstats }
  let s := c.spawns.foldl (fun s e => acceptRegion s g.part (some (rid, e.1)) (memberSeq s g.part (some (rid, e.1))) e.2) s
  finishRegion s rid 1 0 0

/-- The classes of a mask. -/
def oumClasses (oum : BitVec 48) : List Nat := (List.range 48).filter fun i => oum.getLsbD i

/-- Compares the finished copies (R349): agreement commits, a first disagreement calls for a third copy, a second ends the
region with 0xB4. -/
def compareCopies (s : State) (rid : Nat) (g : Region) : State :=
  match g.copies with
  | [a, b] =>
    if copiesAgree a b then commitCopy s rid g a
    else endUnplaced (s.setRegion rid { g with st := .ready, waited := 0 }) rid
  | [a, b, c] =>
    if copiesAgree a c then commitCopy s rid g a
    else if copiesAgree b c then commitCopy s rid g b
    else
      let s := (g.copies.flatMap Copy.cores).foldl (fun s k => suspect s k (oumClasses g.oum)) s
      let (s, f) := faddrOf s none
      finishRegion s rid 2 0xB4 f
  | _ => s

/-- DUAL_RUN_COMPARE (R349): every copy of a dual run has finished. -/
def execDualRunCompare (rid : Nat) (s : State) : Out :=
  .next (match s.region? rid with
    | none => s
    | some g =>
      if g.st ≠ .running ∨ !g.rcb.dual ∨ !g.copies.all Copy.finished then s
      else if g.rcb.hbmb < g.hbmUsed + (g.copies.map overlaySize).sum then
        let (s, f) := faddrOf s none
        finishRegion s rid 2 0xC2 f
      else compareCopies s rid g)

/-! ### Pre-emption (R343, R363) -/

/-- The cores of a region's members that have not been given back, in rank order, copy by copy. -/
def heldCores (g : Region) : List Nat :=
  if g.rcb.dual then (g.copies.filter fun c => !c.finished).flatMap Copy.cores else g.members

/-- A core with nothing of its kernel left on it (R363): the swizzle tags and the snapshot stay. -/
def clearedCore (c : Core) (clock : Nat) : Core :=
  { rid := c.rid, sys := { ccm := c.sys.ccm }, ret := c.ret, idle := clock, snap := c.snap, snapOf := c.snapOf }

/-- The state with some cores given back. -/
def withFree (s : State) (cores : List Nat) : State :=
  cores.foldl (fun s k =>
    let q := s.quern (clusterOf k)
    let s := if q.owner = some k then s.setQuern (clusterOf k) { q with owner := none } else s
    s.setCore k (clearedCore (s.core k) s.clock)) s

/-- Every member of a region stands at an `rg.yield` that can complete. -/
def atYield (s : State) (g : Region) : Bool :=
  !(groupsOf g).isEmpty && (groupsOf g).all fun p => match groupArrived s p.2 with
    | some l => l.all fun e => match e.2 with | .rgYield _ => true | _ => false
    | none => false

/-- A RUNNING region that may be pre-empted now by one of effective priority `p`, on cores with the classes `oum`. -/
def preemptible (s : State) (q : Region) (p : Nat) (able : List Nat) : Bool :=
  q.st == .running && decide (q.rcb.prio < p) && (q.rcb.preempt || atYield s q)
    && (heldCores q).all (fun k => (s.core k).run != .starting) && (heldCores q).any able.contains

/-- Of two candidates, the one to be pre-empted: lower base PRIO, then later acceptance. -/
def yieldsFirst (s : State) (a b : Region) : Bool :=
  decide (a.rcb.prio < b.rcb.prio) || (a.rcb.prio == b.rcb.prio && older s b a)

/-- The region `rid` is the one that READY region `r` pre-empts (R343). -/
def preemptedBy (s : State) (rid : Nat) (r : Region) : Bool :=
  let able := ableCores s r.part r.rcb r.oum true
  let cands := s.regions.filter fun e => e.2.part == r.part && preemptible s e.2 (effPrio r) able
  match s.region? rid with
  | none => false
  | some q =>
    r.st == .ready && (openPlacements s r).isEmpty
      && cands.any (fun e => e.1 == rid)
      && !cands.any (fun e => e.1 != rid && yieldsFirst s e.2 q)
      && !(openPlacements (withFree s (cands.flatMap fun e => heldCores e.2)) r).isEmpty
      && !(q.rcb.mdm == 1 && decide (q.rcb.fewest < q.members.length)
            && !(openPlacements (withFree s (q.members.drop q.rcb.fewest)) r).isEmpty)

/-- Performs the write-queue entries of a context that have all their data, and the reads before them. -/
def drainCtx (k : Nat) (sh : Bool) : Nat → State → State
  | 0, s => s
  | n + 1, s =>
    if ((s.core k).ctxOf sh).wq.isEmpty then s
    else drainCtx k sh n (writeNext (readNext (walkNext s k) k sh .clean) k sh)

/-- An access that the checker holds leaves the AP at once. -/
def ApCtx.letOut (x : ApCtx) : ApCtx :=
  { x with rq := x.rq.map fun e => { e with from_ := 0 }, wq := x.wq.map fun e => { e with from_ := 0 } }

/-- The core's write-queue entries that have all their data are performed before it is saved (R363), a freeze in progress
notwithstanding; of a main context that has an event at the handler, those behind a page that has no valid translation wait for it. -/
def drainWrites (s : State) (k : Nat) : State :=
  let c := s.core k
  let fuel (x : ApCtx) : Nat := 2 * queued x + 2
  let t := drainCtx k true (fuel c.shadow) (s.setCore k { c with main := c.main.letOut, shadow := c.shadow.letOut, freeze := {} })
  let d := t.core k
  let thaw : Bool := d.alive && d.hnd.isNone && d.hndQ.isEmpty
  let t := if thaw then drainCtx k false (fuel d.main) t
    else drainHeld k (fuel d.main) (t.setCore k { d with hnd := none, hndQ := [] })
  let e := t.core k
  t.setCore k (if !e.alive then e
    else { e with freeze := { c.freeze with ecc := e.freeze.ecc.or c.freeze.ecc }
                  hnd := if thaw then e.hnd else d.hnd
                  hndQ := if thaw then e.hndQ else d.hndQ })
where
  /-- a walk that finds a valid page. -/
  walkValid (k : Nat) (s : State) : State :=
    match walkOf s k false with
    | some (_, vpg, _) => match walk s (partOfCore s k) (moduleOf k) (vpg * 65536) with
      | .leaf e _ => tlbFill s (dieOf k) e
      | _ => s
    | none => s
  /-- the same without the walks that would go to the handler. -/
  drainHeld (k : Nat) : Nat → State → State
    | 0, s => s
    | n + 1, s =>
      if (s.core k).main.wq.isEmpty then s else drainHeld k n (writeNext (readNext (walkValid k s) k false .clean) k false)

/-- A member at an `rg.yield` finds it complete when it resumes (R348). -/
def yieldDone (c : Core) : Core :=
  match c.pend with
  | some { kind := .rgYield n, res := none, .. } => { c with pend := some { kind := .rgYield n, res := some (.value 0) } }
  | _ => c

/-- What is saved of a core at clock cycle `now`: every time on the clock is kept as what is left of it, and a reply on its way lands on
schedule (R363). -/
def savedCore (now : Nat) (c : Core) : Core :=
  let ready (x : ApCtx) : ApCtx := { x with fly := x.fly.map fun f => { f with arrived := true } }
  let past := c.freeze.ended.any fun t => decide (t < now)
  shiftTimes (fun t => t - now) { c with
    main := ready c.main, shadow := ready c.shadow, freeze := { c.freeze with ended := if past then none else c.freeze.ended } }

/-- Saves the members of a region, and gives their cores back; their snapshots show them as they stood at the stop, in state `stop`
(R365). -/
def suspendRegion (stop s : State) (rid : Nat) (g : Region) (yield_ : Bool) : State :=
  let cores := heldCores g
  let mine (a : Nat) : Bool := cores.contains (a / 2 ^ 21)
  let move (a : Nat) : Nat := cores.idxOf (a / 2 ^ 21) * 2 ^ 21 + a % 2 ^ 21
  let save (k : Nat) : Core :=
    let c := footMap (fun j => cores.idxOf j) (savedCore s.clock (s.core k))
    if yield_ then yieldDone c else c
  let mem := s.mem.filter fun e => mine e.1
  let g := { g with
    st := .suspended
    saved := cores.map save
    savedMem := cores.flatMap fun k => (mem.filter fun e => e.1 / 2 ^ 21 == k).map fun e => (move e.1, e.2)
    savedBad := (s.poison.filter mine).map move
    savedQ := cores.zipIdx.filterMap fun e =>
      if (s.quern (clusterOf e.1)).owner = some e.1 then some (e.2, s.quern (clusterOf e.1)) else none
    members := []
    copies := g.copies.map fun c => if c.finished then c else { c with cores := [] } }
  let s := cores.foldl (fun s k =>
    let c := s.core k
    let q := s.quern (clusterOf k)
    let s := if q.owner = some k then s.setQuern (clusterOf k) {} else s
    s.setCore k (clearedCore { c with snap := snapshot (stop.core k) 0xC3 3 0, snapOf := some (rid, c.rank) } s.clock)) s
  { (s.setRegion rid g) with mem := s.mem.filter (fun e => !mine e.1), poison := s.poison.filter fun a => !mine a }

/-- PREEMPTION (R343): a RUNNING region is suspended for a more urgent one, unless one of its members faults in that cycle; a
SUSPENDED one, its state saved, becomes READY. -/
def execPreemption (rid : Nat) (s : State) : Out :=
  .next (match s.region? rid with
    | none => s
    | some g =>
      if g.st = .suspended then s.setRegion rid { g with st := .ready, waited := 0 }
      else if (s.part g.part).resetting ∨ !s.regions.any (fun e => e.1 != rid && e.2.part == g.part && preemptedBy s rid e.2) then s
      else
        let t := (heldCores g).foldl drainWrites s
        match t.region? rid with
        | some h => if h.st = .running ∧ h.fail.isNone then endUnplaced (suspendRegion s t rid h (atYield s g)) rid else t
        | none => t)

/-! ### Capability fences and in-field tests (R20, R340, R341) -/

/-- The regions that could have been placed on a core, and that no set of unfenced cores can hold any more, complete with 0xC1
(R340). -/
def endUnplaceable (s : State) (k : Nat) : State :=
  let near (g : Region) : Bool := (launchClusters s g.part g.rcb).contains (clusterOf k)
  (s.regions.filter fun e => near e.2).foldl (fun s e => endUnplaced s e.1) s

/-- The runs that faults have ended in this cycle end (R346); a region that is to run again, and that a fence has left no place while it
was RUNNING, completes (R340). -/
def settleCycle (s : State) : State :=
  ((s.regions.filter fun e => e.2.fail.isSome).map Prod.fst).foldl endUnplaced (settleFaults s)

/-- A class of a core is fenced. -/
def fenceClass (s : State) (k cls : Nat) : State :=
  let c := s.core k
  let s := s.setCore k { c with sys := { c.sys with ccm := c.sys.ccm &&& ~~~(BitVec.twoPow 48 cls) } }
  let s := { s with dev := { s.dev with
    fences := if s.dev.fences.contains (k, cls) then s.dev.fences else s.dev.fences ++ [(k, cls)]
    suspect := s.dev.suspect.filter fun e => e != (k, cls) } }
  let s :=
    if c.run != .idle && (match s.region? c.rid with | some g => g.st == .running && g.oum.getLsbD cls | none => false) then
      let (s, f) := faddrOf s none
      if c.alive then endKernel s k 3 0 0x07 f
      else failRegion s c.rid { status := 2, cause := 0x07, rank := c.rank, faddr := f }
    else s
  endUnplaceable s k

/-- CAPABILITY_FENCE (R20): the trusted firmware fences a class on a core. -/
def execCapabilityFence (core cls : Nat) (s : State) : Out := .next (if cls < 26 then fenceClass s core cls else s)

/-- IN_FIELD_TEST_START (R341): the test of a suspect class starts on a core that is idle. -/
def execInFieldTestStart (core cls : Nat) (s : State) : Out :=
  let c := s.core core
  .next (if coreFree s core && s.dev.suspect.contains (core, cls) then s.setCore core { c with test := some cls } else s)

/-- IN_FIELD_TEST (R341): a test ends; the class is clear, or fenced. -/
def execInFieldTest (core : Nat) (pass : Bool) (s : State) : Out :=
  let c := s.core core
  .next (match c.test with
    | none => s
    | some cls =>
      let s := s.setCore core { c with test := none, idle := s.clock }
      if pass then { s with dev := { s.dev with suspect := s.dev.suspect.filter fun e => e != (core, cls) } }
      else fenceClass s core cls)

/-! ### Partition reset (R370, R371) -/

/-- Cores after a scrub: zero, tags 0, nothing on them (R370 step 4); what an ended member's core shows of its stop stays (24_device.md
R391). -/
def scrubCores (s : State) (clusters : List Nat) : State :=
  let mine (k : Nat) : Bool := clusters.contains (clusterOf k)
  { s with
    cores := s.cores.map fun e =>
      if mine e.1 then
        (e.1, { rid := 0, sys := { ccm := e.2.sys.ccm }, ret := e.2.ret, test := e.2.test
                idle := if e.2.run = .idle then e.2.idle else s.clock
                snap := if e.2.alive then [] else e.2.snap, snapOf := if e.2.alive then none else e.2.snapOf })
      else e
    querns := s.querns.filter fun e => !clusters.contains e.1
    mem := s.mem.filter fun e => !(isSpadKey e.1 && mine (e.1 / 2 ^ 21))
    poison := s.poison.filter fun a => !(isSpadKey a && mine (a / 2 ^ 21)) }

/-- What cores show of the stops on them goes, as they leave their tenant's assignment (24_device.md R384). -/
def dropStops (s : State) (clusters : List Nat) : State :=
  { s with cores := s.cores.map fun e => if clusters.contains (clusterOf e.1) then (e.1, { e.2 with snap := [], snapOf := none }) else e }

/-- What becomes of an unrecorded region at a reset (R371): `wd` for a watchdog's. -/
def resetRegion (s : State) (wd : Bool) (g : Region) : Region :=
  let ended (cause : Nat) : Region :=
    { g with st := .done, fin := some { status := 3, cause := cause, rank := noRank, faddr := 0 }, mstats := [], loop := none,
             saved := [], savedMem := [], savedBad := [], savedQ := [] }
  let again : Bool := wd && (effective g.raw (parentOf s g)).restart && decide (g.runs < 3)
  let requeued : Region :=
    { g with members := [], copies := [], user := [], mstats := [], loop := none, lost := [], waited := 0, steps := 0,
             saved := [], savedMem := [], savedBad := [], savedQ := [] }
  match g.st with
  | .running => ended (if wd then 0xC0 else 0)
  | .suspended => if again then { requeued with st := .ready } else ended 0xC3
  | .ready => if again then { requeued with st := .ready } else ended (if wd then 0xC0 else 0)
  | .staging => if again then { requeued with st := .staging, streams := 0 } else ended (if wd then 0xC0 else 0)
  | .journal => if again then requeued else ended (if wd then 0xC0 else 0)
  | _ => g

/-- The members that a partition's regions have on cores of other partitions stop with the region: `wd` at a watchdog's reset, whose
cause their records carry (13_bte.md R247). -/
def stopElsewhere (s : State) (pn : Nat) (wd : Bool) : State :=
  let rids := (s.regions.filter fun e => e.2.part == pn && e.2.st == .running).map fun e => e.1
  let ks := (s.cores.filter fun e => rids.contains e.2.rid && e.2.run != .idle && partOfCore s e.1 != pn).map fun e => e.1
  ks.foldl (fun s k =>
    let s := stopMember s k (if wd then 0xC0 else 0) 3 0
    let c := s.core k
    s.setCore k { c with run := .idle, idle := s.clock }) s

/-- The members of other partitions' regions on the cores of a partition that is reset are lost (14_link.md R255); the members
elsewhere go on in the next attempt (R370 step 3). -/
def loseMembers (s : State) (pn : Nat) : State :=
  let mine := s.cores.filter fun e => e.2.alive && partOfCore s e.1 == pn
  mine.foldl (fun s e =>
    match s.region? e.2.rid with
    | none => s
    | some g =>
      if g.part = pn then s
      else
        let others := (otherMembers s e.1).filter fun j => partOfCore s j != pn
        let s := match execCxMemberLost e.2.rid (e.2.copy, e.2.rank) s with
          | .next t => t
          | _ => s
        others.foldl (fun s j => noticeAtt s j (e.2.lk.att + 1)) s) s

/-- Steps 1 to 5 of a partition reset; records follow, then steps 6 and 7. -/
def partReset (s : State) (pn : Nat) (wd : Bool) : State :=
  let p := s.part pn
  let s := loseMembers (stopElsewhere s pn wd) pn
  let s := s.setPart pn { p with resetting := true, resetDone := false }
  let s := { s with regions := s.regions.map fun e => if e.2.part = pn then (e.1, resetRegion s wd e.2) else e }
  resetFinish (scrubCores s p.clusters) pn

/-- QUEUE_WATCHDOG_EXPIRY (R362): the timer has reached QWD microseconds while a region runs. -/
def execQueueWatchdogExpiry (part : Nat) (s : State) : Out :=
  let p := s.part part
  .next (if wbits p.qwd 0 32 = 0 ∨ p.qtimer < wbits p.qwd 0 32 * Config.usTime ∨ p.resetting
            ∨ !anyRegion s part (fun st => st == .running) then s
    else partReset s part true)

/-- A virtual function leaves for CONFIG_UNLOCKED (24_device.md R385): the reset runs, if it has not, and the key is
replaced. -/
def leaveAssigned (s : State) (pn : Nat) : State :=
  let p := s.part pn
  if p.tstate = .error ∧ p.resetDone then
    let s := replaceKey s pn
    s.setPart pn { s.part pn with resetDone := false, tstate := .configUnlocked }
  else if p.tstate = .error ∧ p.resetting then s.setPart pn { p with afterReset := true }
  else partReset (s.setPart pn { p with afterReset := true }) pn false

/-- FUNCTION_LEVEL_RESET (R370, R385). -/
def execFunctionLevelReset (part : Nat) (s : State) : Out :=
  let p := s.part part
  .next (if !p.formed then s
    else if p.tstate = .configUnlocked then partReset s part false
    else leaveAssigned s part)

end Sys2Proof.Machine
end

