-- ==== Sys2Proof/Machine/Slh.lean ====
section
/-!
DEFINITION. The verification of a signature under SLH-DSA-SHA2-128s (FIPS 205, pure, with an empty context), the scheme that signs
debug policies (24_device.md R389), on lists of bytes. PRESUMED (log entry 66): the scheme is the standard's.
-/

namespace Sys2Proof.Machine

/-- The n bytes of a hash, a node or a seed. -/
def slhN : Nat := 16

/-- Item i of a list of n-byte strings. -/
def slhItem (l : List Byte) (i : Nat) : List Byte := (l.drop (slhN * i)).take slhN

/-- An address, compressed: layer, tree, type, and three words that depend on the type. -/
structure Adrs where
  layer : Nat := 0
  tree : Nat
  type : Nat
  w1 : Nat
  w2 : Nat := 0
  w3 : Nat := 0
  deriving DecidableEq, Repr

/-- The types of addresses. -/
def adWotsHash : Nat := 0
def adWotsPk : Nat := 1
def adTree : Nat := 2
def adForsTree : Nat := 3
def adForsRoots : Nat := 4

/-- The 22 bytes of an address. -/
def Adrs.bytes (a : Adrs) : List Byte :=
  beBytes 1 a.layer ++ beBytes 8 a.tree ++ beBytes 1 a.type ++ beBytes 4 a.w1 ++ beBytes 4 a.w2 ++ beBytes 4 a.w3

/-- The tweakable hash F, H or T of a message under an address. -/
def slhHash (seed : List Byte) (a : Adrs) (m : List Byte) : List Byte :=
  (sha256 (seed ++ List.replicate 48 0 ++ a.bytes ++ m)).take slhN

/-- Digits of b bits, the most significant first: n of them. -/
def slhDigits (m : List Byte) (b n : Nat) : List Nat :=
  (List.range n).map fun i => beNat m / 2 ^ (8 * m.length - b * (i + 1)) % 2 ^ b

/-- The root that a node and its authentication path give: the sibling at each height above, from height `z` on; `i` is the node's
index, and `ad` the address of a height and an index. -/
def slhPath (seed : List Byte) (ad : Nat → Nat → Adrs) : Nat → Nat → List Byte → List (List Byte) → List Byte
  | _, _, node, [] => node
  | z, i, node, sib :: rest =>
    slhPath seed ad (z + 1) (i / 2) (slhHash seed (ad (z + 1) (i / 2)) (if i % 2 = 0 then node ++ sib else sib ++ node)) rest

/-- A chain of `n` hashes from position `j` on. -/
def wotsChain (seed : List Byte) (a : Adrs) : Nat → Nat → List Byte → List Byte
  | 0, _, x => x
  | n + 1, j, x => wotsChain seed a n (j + 1) (slhHash seed { a with w3 := j } x)

/-- The WOTS+ key that a signature of a message gives: 32 digits of 4 bits, and 3 of their checksum. -/
def wotsKey (seed : List Byte) (a : Adrs) (sig m : List Byte) : List Byte :=
  let ds := slhDigits m 4 32
  let sum := (ds.map fun d => 15 - d).sum
  let ends := (ds ++ slhDigits (beBytes 2 (16 * sum)) 4 3).zipIdx.flatMap fun e =>
    wotsChain seed { a with w2 := e.2 } (15 - e.1) e.1 (slhItem sig e.2)
  slhHash seed { a with type := adWotsPk } ends

/-- The root of an XMSS tree of height 9 that a signature by leaf `i` gives: 35 chain values and 9 siblings. -/
def xmssRoot (seed : List Byte) (layer tree i : Nat) (sig m : List Byte) : List Byte :=
  slhPath seed (fun z j => { layer := layer, tree := tree, type := adTree, w1 := 0, w2 := z, w3 := j }) 0 i
    (wotsKey seed { layer := layer, tree := tree, type := adWotsHash, w1 := i } sig m)
    ((List.range 9).map fun k => slhItem sig (35 + k))

/-- The root of the hypertree: `n` layers from `layer` on, the signature of each above 44 items of the one below. -/
def htRoot (seed : List Byte) : Nat → Nat → Nat → Nat → List Byte → List Byte → List Byte
  | 0, _, _, _, _, m => m
  | n + 1, layer, tree, i, sig, m =>
    htRoot seed n (layer + 1) (tree / 2 ^ 9) (tree % 2 ^ 9) (sig.drop (slhN * 44)) (xmssRoot seed layer tree i sig m)

/-- The FORS key that a signature gives: 14 trees of height 12, each with its leaf's secret and 12 siblings. -/
def forsKey (seed : List Byte) (tree leaf : Nat) (sig md : List Byte) : List Byte :=
  let ad (z j : Nat) : Adrs := { tree := tree, type := adForsTree, w1 := leaf, w2 := z, w3 := j }
  slhHash seed { tree := tree, type := adForsRoots, w1 := leaf } ((slhDigits md 12 14).zipIdx.flatMap fun e =>
    let j := 4096 * e.2 + e.1
    slhPath seed ad 0 j (slhHash seed (ad 0 j) (slhItem sig (13 * e.2))) ((List.range 12).map fun k => slhItem sig (13 * e.2 + 1 + k)))

/-- The 30 bytes that a message is signed by: of SHA-256 through MGF1, which needs one block. -/
def slhDigest (r seed root m : List Byte) : List Byte :=
  (sha256 (r ++ seed ++ sha256 (r ++ seed ++ root ++ m) ++ beBytes 4 0)).take 30

/-- A signature of a message is valid under a key: PK.seed and PK.root. -/
def slhValid (key m sig : List Byte) : Bool :=
  let seed := key.take slhN
  let root := key.drop slhN
  let d := slhDigest (sig.take slhN) seed root ([0, 0] ++ m)
  let tree := beNat ((d.drop 21).take 7) % 2 ^ 54
  let leaf := beNat (d.drop 28) % 2 ^ 9
  sig.length == 7856 && key.length == 32
    && htRoot seed 7 0 tree leaf (sig.drop (slhN * 183)) (forsKey seed tree leaf (sig.drop slhN) (d.take 21)) == root

end Sys2Proof.Machine
end

