-- ==== Sys2Proof/Machine/Host.lean ====
section
/-!
DEFINITION. The device as its host, its firmware and its tenant's driver see it (24_device.md R376-R393): partitions, the VF
register page, TDISP states and keys, the debug policy, power-on, attestation, monitors, and host accesses to device memory
(04_memory.md R82, R90).
-/

namespace Sys2Proof.Machine

/-! ### The VF register page (R379-R383) -/

/-- A register write was discarded: VFSTAT.WREJ (R381). -/
def setWrej (s : State) (vf : Nat) : State := s.setPart vf { s.part vf with wrej := true }

/-- A write to the register page of a virtual function, where its state lets the write in (R383). One with `reserved` bits set,
where that is refused, is discarded whole and sets WREJ in every state (R380). -/
def pageWrite (s : State) (vf : Nat) (ideT reserved : Bool) (f : State → State) : State :=
  if !vfUp s vf then replyWith s .unsupported
  else
    let t := if reserved then setWrej s vf else s
    let done : State := replyWith (if reserved then t else f s) .success
    match (s.part vf).tstate with
    | .configUnlocked => done
    | .run => if ideT then done else replyWith (setWrej s vf) .unsupported
    | .configLocked => replyWith t .unsupported
    | .error => replyWith t .unsupported

/-- VFSTAT_WRITE (R381): bit 4 clears WREJ; every other field is read-only. DESIGN CHOICE (log entry 62): reserved bits of the
value are ignored and set no WREJ. -/
def execVfstatWrite (vf : Nat) (v : BitVec 64) (ideT : Bool) (s : State) : Out :=
  .next (pageWrite s vf ideT false fun s => if wbits v 4 1 = 1 then s.setPart vf { s.part vf with wrej := false } else s)

/-- A write to S1ROOT, PTHB or PTHL (R380): discarded with reserved bits set, or while a region runs or is suspended. -/
def launchRegWrite (s : State) (vf : Nat) (ideT : Bool) (reserved : Bool) (f : State → State) : State :=
  pageWrite s vf ideT reserved fun s =>
    if anyRegion s vf (fun st => st == .running || st == .suspended) then setWrej s vf else f s

/-- Translations of a partition leave every TLB. -/
def dropTlb (s : State) (pn : Nat) : State := tlbDrop s pn (fun _ => true)

/-- S1ROOT_WRITE (R380): the new root governs every region issued afterwards, so no old translation stays cached. -/
def execS1rootWrite (vf : Nat) (v : BitVec 64) (ideT : Bool) (s : State) : Out :=
  .next (launchRegWrite s vf ideT (wbits v 52 12 != 0 || wbits v 1 20 != 0) fun s =>
    dropTlb (s.setPart vf { s.part vf with s1root := v }) vf)

/-- PTHB_WRITE (22_faults.md R355, R380). -/
def execPthbWrite (vf : Nat) (v : BitVec 64) (ideT : Bool) (s : State) : Out :=
  .next (launchRegWrite s vf ideT (wbits v 0 8 != 0) fun s => s.setPart vf { s.part vf with pthb := v })

/-- PTHL_WRITE (22_faults.md R355, R380). -/
def execPthlWrite (vf : Nat) (v : BitVec 64) (ideT : Bool) (s : State) : Out :=
  .next (launchRegWrite s vf ideT (wbits v 12 52 != 0) fun s => s.setPart vf { s.part vf with pthl := v })

/-- QWD_WRITE (22_faults.md R362, R380): the timer restarts at zero. -/
def execQwdWrite (vf : Nat) (v : BitVec 64) (ideT : Bool) (s : State) : Out :=
  .next (pageWrite s vf ideT (wbits v 32 32 != 0) fun s => s.setPart vf { s.part vf with qwd := v, qtimer := 0 })

/-- VF_PAGE_BAD_ACCESS (R379): an access that the page does not serve completes with Unsupported Request. -/
def execVfPageBadAccess (vf : Nat) (s : State) : Out := .next (let _ := vf; replyWith s .unsupported)

/-! ### Debug policy (R389-R391) -/

/-- DBGKEY_WRITE (R389): the four words of the key are accepted once per assignment, in RUN only. -/
def execDbgkeyWrite (vf idx : Nat) (v : BitVec 64) (ideT : Bool) (s : State) : Out :=
  .next (if 4 ≤ idx then replyWith s .unsupported
    else pageWrite s vf ideT false fun s =>
      let p := s.part vf
      if p.tstate ≠ .run ∨ (smFind p.dbgkey idx).isSome then setWrej s vf
      else s.setPart vf { p with dbgkey := smPut p.dbgkey idx v })

/-- The result of a DBGCMD (R381, R382). -/
def dbgResult (s : State) (vf : Nat) (cause : Byte) : State :=
  let s := s.setPart vf { s.part vf with dcause := cause }
  if wbits (s.part vf).intctl 2 1 = 1 then raiseMsix s vf 2 else s

/-- The bytes of DBGBUF that hold an image, and those of DBGKEY (R389). -/
def policyImage (p : Part) : List Byte := (List.range 990).flatMap fun i => leBytes 8 (smGet 0 p.dbgbuf i).toNat
def policyKey (p : Part) : List Byte := (List.range 4).flatMap fun i => leBytes 8 (smGet 0 p.dbgkey i).toNat

/-- An image is accepted (R389, R390): every field matches, the signature is valid, and DBGKEY has been written. -/
def policyOk (p : Part) (vf : Nat) : Bool :=
  let m := policyImage p
  (List.range 4).all (fun i => (smFind p.dbgkey i).isSome)
    && leAt m 0x00 4 == 0x44474C50 && decide (leAt m 0x04 4 < 4) && leAt m 0x08 8 == p.assigns
    && (m.drop 0x10).take 32 == leBytes 32 Config.leafCertHash.toNat && leAt m 0x30 4 == vf % 64 && leAt m 0x34 12 == 0
    && slhValid (policyKey p) (m.take 0x40) ((m.drop 0x40).take 7856)

/-- DBGCMD := 1 (R390). -/
def submitPolicy (s : State) (vf : Nat) : State :=
  let p := s.part vf
  if policyOk p vf then
    dbgResult (s.setPart vf { p with
      dbgOpen := true, feat := BitVec.ofNat 32 (leAt (policyImage p) 0x04 4), policy := policyImage p }) vf 0
  else dbgResult s vf 0xD1

/-- The debug policy of a partition is locked, on every core and for every region of it. -/
def lockPolicy (s : State) (vf : Nat) : State :=
  let s := s.setPart vf { s.part vf with dbgOpen := false, feat := 0, policy := [] }
  let off (c : Core) : Core := { c with sys := { c.sys with feat := 0 } }
  { s with
    cores := s.cores.map fun e => if partOfCore s e.1 = vf then (e.1, off e.2) else e
    regions := s.regions.map fun e => if e.2.part = vf then (e.1, { e.2 with feat := 0, saved := e.2.saved.map off }) else e }

/-- DBGCMD_SUBMIT (R390). -/
def execDbgcmdSubmit (vf : Nat) (ideT : Bool) (s : State) : Out := .next (pageWrite s vf ideT false fun s => submitPolicy s vf)

/-- DBGCMD_LOCK (R390). -/
def execDbgcmdLock (vf : Nat) (ideT : Bool) (s : State) : Out :=
  .next (pageWrite s vf ideT false fun s => dbgResult (lockPolicy s vf) vf 0)

/-- DBGCMD_INVALID (R390): any value but 1 and 2 sets WREJ. -/
def execDbgcmdInvalid (vf : Nat) (v : BitVec 64) (ideT : Bool) (s : State) : Out :=
  .next (pageWrite s vf ideT false fun s =>
    if v = 1 then submitPolicy s vf else if v = 2 then dbgResult (lockPolicy s vf) vf 0 else setWrej s vf)

/-- VF_REGISTER_WRITE (R379): the registers of the page without a step of their own, INTCTL, DBGSEL and DBGBUF; a read-only
register ignores the write, and an offset that is not listed is an Unsupported Request. -/
def execVfRegisterWrite (vf off : Nat) (v : BitVec 64) (ideT : Bool) (s : State) : Out :=
  if off = 0x100 then execVfstatWrite vf v ideT s
  else if off = 0x108 then execS1rootWrite vf v ideT s
  else if off = 0x110 then execPthbWrite vf v ideT s
  else if off = 0x118 then execPthlWrite vf v ideT s
  else if off = 0x120 then execQwdWrite vf v ideT s
  else if off = 0x128 then
    .next (pageWrite s vf ideT (wbits v 3 61 != 0) fun s => s.setPart vf { s.part vf with intctl := v })
  else if off = 0x130 ∨ off = 0x138 ∨ off = 0x158 then .next (pageWrite s vf ideT false id)
  else if off = 0x140 then execDbgcmdInvalid vf v ideT s
  else if off = 0x150 then .next (pageWrite s vf ideT false fun s => s.setPart vf { s.part vf with dbgsel := v })
  else if 0x160 ≤ off ∧ off < 0x180 ∧ off % 8 = 0 then execDbgkeyWrite vf ((off - 0x160) / 8) v ideT s
  else if 0x2000 ≤ off ∧ off < 0x3FF0 ∧ off % 8 = 0 then
    .next (pageWrite s vf ideT false fun s =>
      let p := s.part vf
      s.setPart vf { p with dbgbuf := smSet 0 p.dbgbuf ((off - 0x2000) / 8) v })
  else .next (replyWith s .unsupported)

/-- The VFSTAT word (R381). -/
def vfstat (p : Part) : Nat :=
  let state := match p.tstate with
    | .configUnlocked => 0
    | .configLocked => 1
    | .run => 2
    | .error => 3
  let bit (b : Bool) (n : Nat) : Nat := if b then 2 ^ n else 0
  state + bit p.resetting 3 + bit p.wrej 4 + bit p.dbgOpen 5 + p.dcause.toNat * 2 ^ 8

/-- The value of a register of the page that is read as it stands (R379): one that is write-only reads zero (R3). -/
def pageReg (p : Part) (off : Nat) : Option Nat :=
  if off = 0x100 then some (vfstat p)
  else if off = 0x108 then some p.s1root.toNat
  else if off = 0x110 then some p.pthb.toNat
  else if off = 0x118 then some p.pthl.toNat
  else if off = 0x120 then some p.qwd.toNat
  else if off = 0x128 then some p.intctl.toNat
  else if off = 0x130 then some (p.ev29.toNat + p.evB0.toNat * 2 ^ 32)
  else if off = 0x138 then some p.assigns
  else if off = 0x140 then some 0
  else if off = 0x150 then some p.dbgsel.toNat
  else if 0x160 ≤ off ∧ off < 0x180 ∧ off % 8 = 0 then some 0
  else if 0x2000 ≤ off ∧ off < 0x3FF0 ∧ off % 8 = 0 then some 0
  else none

/-- The member that DBGSEL selects, of a region whose sequence number and rank it names, where its core still shows the state of
its stop: the core, and the region's debug features (R365, R391). -/
def dbgMember (s : State) (vf : Nat) : Option (Core × BitVec 32) :=
  let sel := (s.part vf).dbgsel
  (s.cores.filterMap fun e => match e.2.snapOf with
    | some (rid, rank) => match s.region? rid with
      | some g =>
        if !e.2.alive && rank == wbits sel 12 20 && g.part == vf && g.chan.isNone && g.seq % 2 ^ 32 == wbits sel 32 32
        then some (e.2, g.feat) else none
      | none => none
    | none => none).head?

/-- DBGDATA (R391): a SNAP value of a stopped or pre-empted member, where DBGIF is open: to its region, as that was issued, or,
where there is no such state, in the policy in force (R390). -/
def dbgdata (s : State) (vf : Nat) : State :=
  let n := wbits (s.part vf).dbgsel 0 12
  match dbgMember s vf with
  | some (c, feat) =>
    if feat.getLsbD 1 = false then replyWith s .unsupported
    else if 0x100 ≤ n ∧ n < 0x200 then replyWith s (.data [(smGet 0 c.snap n).toNat])
    else replyWith (setWrej s vf) (.data [0])
  | none => if (s.part vf).feat.getLsbD 1 then replyWith (setWrej s vf) (.data [0]) else replyWith s .unsupported

/-- DBGDATA_READ (R379, R383, R391): an aligned 8-byte read of the page, of DBGDATA or of another register, which is served in every
state of the virtual function; an offset that is not listed is an Unsupported Request. -/
def execDbgdataRead (reg : PageReg) (s : State) : Out :=
  let vf := reg.vf
  .next (if !vfUp s vf then replyWith s .unsupported
    else if reg.off = 0x158 then dbgdata s vf
    else match pageReg (s.part vf) reg.off with
      | some v => replyWith s (.data [v])
      | none => replyWith s .unsupported)

/-! ### TDISP (R383-R385) -/

/-- An accepted region of a partition lacks its record. -/
def unrecorded (s : State) (pn : Nat) : Bool := anyRegion s pn fun st => st != .gone

/-- Zeros over a partition's share, under its key (R384). -/
def zeroShare (s : State) (pn : Nat) : State :=
  let share := (s.part pn).share
  coverShare { s with
    mem := s.mem.filter fun e => !inShare share e.1
    poison := s.poison.filter fun a => !inShare share a } share (s.part pn).keyGen

/-- The parameters of a partition with the rest as after assignment (R3, R377, R384). -/
def assigned (p : Part) : Part :=
  { formed := true, tenant := p.tenant, clusters := p.clusters, share := p.share, weight := p.weight, rectX := p.rectX, rect := p.rect
    shared := p.shared, stage2 := p.stage2, privOk := p.privOk, keyGen := p.keyGen, assigns := p.assigns }

/-- LOCK_INTERFACE_REQUEST (R384). -/
def execLockInterfaceRequest (vf : Nat) (s : State) : Out :=
  let p := s.part vf
  .next (if !vfUp s vf || p.tstate != .configUnlocked || p.resetting || unrecorded s vf then replyWith s .refused
    else
      let s := dropStops (scrubCores s p.clusters) p.clusters
      let s := zeroShare (newKey s vf) vf
      let s := dropTlb s vf
      let q := assigned (s.part vf)
      replyWith (lockPolicy (s.setPart vf { q with shared := [], assigns := q.assigns + 1, tstate := .configLocked }) vf) .success)

/-- START_INTERFACE_REQUEST (R383). -/
def execStartInterfaceRequest (vf : Nat) (s : State) : Out :=
  let p := s.part vf
  .next (if vfUp s vf && p.tstate == .configLocked then replyWith (s.setPart vf { p with tstate := .run }) .success
    else replyWith s .refused)

/-- STOP_INTERFACE_REQUEST (R383, R385). DESIGN CHOICE (log entry 71): in CONFIG_UNLOCKED it changes nothing and succeeds. -/
def execStopInterfaceRequest (vf : Nat) (s : State) : Out :=
  let p := s.part vf
  .next (if !vfUp s vf then replyWith s .refused
    else if p.tstate = .configUnlocked then replyWith s .success
    else replyWith (leaveAssigned s vf) .success)

/-- The parameters of a partition as numbers (R377). -/
def partNumbers (p : Part) : List Nat :=
  p.tenant :: p.clusters ++ p.share.flatMap (fun e => [e.1, e.2.1, e.2.2]) ++ p.weight :: p.rectX :: p.rect
    ++ p.shared.flatMap (fun e => [e.1, e.2])
    ++ (p.stage2.filter fun m => m.plain).flatMap (fun m => [m.mod, m.gpa, m.len, m.pa]) ++ [if p.privOk then 1 else 0]

/-- GET_DEVICE_INTERFACE_REPORT (R384): the report carries the partition's parameters. -/
def execGetDeviceInterfaceReport (vf : Nat) (s : State) : Out :=
  .next (if vfUp s vf then replyWith s (.data (partNumbers (s.part vf))) else replyWith s .refused)

/-- IDE_INTEGRITY_FAILURE (R383, R385): a virtual function in RUN enters ERROR, and its partition is reset. -/
def execIdeIntegrityFailure (vf : Nat) (s : State) : Out :=
  let p := s.part vf
  .next (if vfUp s vf && p.tstate == .run then partReset (s.setPart vf { p with tstate := .error, afterReset := false }) vf false
    else s)

/-- IDE_KM (R376): the keys of a selective stream of a module are set, inside a session with its responder: of the PF's (0) or of
VF n's. -/
def execIdeKm (stream : OfModule Nat) (s : State) : Out :=
  .next (if !booted s stream.mod ∨ 32 < stream.val then replyWith s .refused
    else
      let e := (stream.mod, stream.val)
      replyWith { s with dev := { s.dev with ide := if s.dev.ide.contains e then s.dev.ide else s.dev.ide ++ [e] } } .success)

/-- The CCMs of a partition's cores, 6 bytes each, in logical order (R388). -/
def ccmImage (s : State) (p : Part) : List Byte :=
  (sortBy (fun a b => decide (a ≤ b)) p.clusters).flatMap fun cl =>
    (List.range 24).flatMap fun i => leBytes 6 (s.core (32 * cl + i)).sys.ccm.toNat

/-- A measurement block (R388): the SHA-256 of its byte image where that is stated, byte 0 in the lowest bits; of the others, whose
bytes are not stated, a free value of what they measure (log entry 4). -/
def measurement (s : State) (vf idx : Nat) : Nat :=
  let p := s.part vf
  let here (core : Nat) : Bool := moduleOf core == vf / 64
  match idx with
  | 3 => (Config.measurement 3 (partNumbers p ++ [p.assigns])).toNat
  | 4 => leNat (sha256 (ccmImage s p))
  | 5 => (Config.measurement 5 ((s.dev.fences.filter fun e => here e.1).flatMap fun e => [e.1, e.2])).toNat
  | 6 => leNat (sha256 (if p.policy = [] then List.replicate 32 0 else p.policy))
  | 7 => (Config.measurement 7 (s.dev.fused.filter here ++ [1, 1])).toNat
  | n => (Config.measurement n []).toNat

/-- GET_MEASUREMENTS (R388): the seven blocks of the responder of a virtual function, or of the PF (64 m), as they stand. -/
def execGetMeasurements (vf : Nat) (s : State) : Out :=
  .next (if !booted s (vf / 64) ∨ 32 < vf % 64 then replyWith s .refused
    else replyWith s (.data ((List.range 7).map fun i => measurement s vf (i + 1))))

/-! ### Firmware (R377, R386, R387) -/

/-- Steps 1 and 2 of a module's boot (R386): fenced classes are cleared, and a failed test makes its class suspect. -/
def bootCores (s : State) (mod : Nat) (failed : List (Nat × Nat)) : State :=
  let here (e : Nat × Nat) : Bool := moduleOf e.1 == mod
  let s := (s.dev.fences.filter here).foldl (fun s e =>
    let c := s.core e.1
    s.setCore e.1 { c with sys := { c.sys with ccm := c.sys.ccm &&& ~~~(BitVec.twoPow 48 e.2) } }) s
  (failed.filter here).foldl (fun s e => if e.2 < 26 ∧ !s.dev.fences.contains e then suspect s e.1 [e.2] else s) s

/-- POWER_ON (R386): the module boots, or stops at the stage whose signature fails, which the PF reports. -/
def execPowerOn (badSig : OfModule (Option Nat)) (failed : List (Nat × Nat)) (s : State) : Out :=
  let mod := badSig.mod
  let stage (s : State) (n : Nat) : State := { s with dev := { s.dev with boot := smSet 0 s.dev.boot mod n } }
  .next (if smGet 0 s.dev.boot mod ≠ 0 ∨ s.dev.off.contains mod then s
    else match badSig.val with
      | none => stage (bootCores s mod failed) 1
      | some k => replyWith (stage (if 3 ≤ k then bootCores s mod failed else s) (10 + k)) (.data [k]))

/-- 1 GiB granules of a module's HBM: 44 on each of 12 stacks of 48 GB (01_machine.md R4). -/
def hbmGranules : Nat := 528

/-- Two runs of granules share one. -/
def sharesMeet (a b : Nat × Nat × Nat) : Bool :=
  a.1 == b.1 && decide (a.2.1 < b.2.1 + b.2.2) && decide (b.2.1 < a.2.1 + a.2.2)

/-- A list's runs of granules meet nowhere. -/
def sharesApart : List (Nat × Nat × Nat) → Bool
  | [] => true
  | a :: l => !l.any (sharesMeet a) && sharesApart l

/-- The clusters of a request: whole clusters of its module, each once, none of another partition's (R377). -/
def clustersRefused (r : PartReq) (others : List (Nat × Part)) : Bool :=
  r.clusters.isEmpty || (r.clusters.any fun c => c / 32 != r.part / 64)
    || (r.clusters.any fun c => others.any fun e => e.2.clusters.contains c)
    || decide (r.clusters.eraseDups.length ≠ r.clusters.length)

/-- The HBM share of a request: free granules of its module (R377). -/
def shareRefused (r : PartReq) (others : List (Nat × Part)) : Bool :=
  (r.share.any fun e => e.1 != r.part / 64 || decide (hbmGranules < e.2.1 + e.2.2) || others.any fun o => o.2.share.any (sharesMeet e))
    || !sharesApart r.share

/-- The shared key ids of a request: 1 to 62, each bound to the key of another partition of the tenant; a partition whose key others
use keeps its tenant (R377). -/
def keysRefused (r : PartReq) (p : Part) (others : List (Nat × Part)) : Bool :=
  (r.shared.any fun e => decide (e.1 < 1) || decide (62 < e.1)
      || !others.any fun o => o.1 == e.2 && o.2.tenant == r.tenant)
    || (p.formed && p.tenant != r.tenant && others.any fun o => o.2.shared.any fun e => e.2 == r.part)

/-- The Aknus rectangle of a request holds its partition and fills its rows, and joins no two tenants: a launch there runs on the cores
of every partition in it (R377, R387, 21_scheduler.md R335). -/
def rectRefused (r : PartReq) (others : List (Nat × Part)) : Bool :=
  (!r.rect.isEmpty && !(r.rect.contains r.part && r.rect.length % max 1 r.rectX == 0))
    || others.any fun o => o.2.tenant != r.tenant && (r.rect.contains o.1 || o.2.rect.contains r.part)

/-- Every granule that a mapping to device memory touches is in a share. -/
def mapWithin (share : List (Nat × Nat × Nat)) (m : S2Map) : Bool :=
  decide (m.pa + m.len ≤ hbmGranules * 2 ^ 30)
    && (List.range hbmGranules).all fun g =>
      decide (m.pa + m.len ≤ g * 2 ^ 30) || decide ((g + 1) * 2 ^ 30 ≤ m.pa) || inShare share (hbmKey m.mod (g * 2 ^ 30))

/-- The stage-2 mappings of a request: at its module, to its own share or to host memory (R84). -/
def mapsRefused (r : PartReq) : Bool := r.stage2.any fun m => m.mod != r.part / 64 || (!m.host && !mapWithin r.share m)

/-- A request that the Security Firmware refuses (R377, R387). -/
def partRefused (s : State) (r : PartReq) : Bool :=
  let p := s.part r.part
  let others := s.parts.filter fun e => e.1 != r.part && e.2.formed
  !booted s (r.part / 64) || !vfNumber r.part || p.tstate != .configUnlocked || p.resetting || unrecorded s r.part
    || (if r.form then
          clustersRefused r others || shareRefused r others || keysRefused r p others || mapsRefused r || rectRefused r others
            || decide (r.weight < 1) || decide (255 < r.weight)
        else !p.formed)

/-- PARTITION_REQUEST (R377): a partition is formed, changed or dissolved, or the request is refused. The key of one that is
dissolved is destroyed. -/
def execPartitionRequest (req : PartReq) (s : State) : Out :=
  .next (if partRefused s req then replyWith s .refused
    else
      let p := s.part req.part
      if req.form then
        let q := { p with
          formed := true, tenant := req.tenant, clusters := req.clusters, share := req.share, weight := req.weight, rectX := req.rectX
          rect := req.rect, shared := req.shared, stage2 := req.stage2, privOk := req.privOk }
        if p.formed then replyWith (dropTlb (s.setPart req.part q) req.part) .success
        else replyWith (newKey (s.setPart req.part (assigned q)) req.part) .success
      else
        let s := dropTlb (dropStops (scrubCores (newKey s req.part) p.clusters) p.clusters) req.part
        replyWith (s.setPart req.part { assigns := p.assigns }) .success)

/-- POWER_CAP_SET (R392): the Management Firmware of a module, which runs once that has booted (R386), sets its cap. -/
def execPowerCapSet (watts : OfModule Nat) (s : State) : Out :=
  .next (if booted s watts.mod ∧ 1200 ≤ watts.val ∧ watts.val ≤ 2600 then
      replyWith { s with dev := { s.dev with powerCap := smSet 2600 s.dev.powerCap watts.mod watts.val } } .success
    else replyWith s .refused)

/-- What the monitors show asks for a lower clock: power above the module's cap, or a junction above 95 °C (R392, R393). -/
def mustSlow (s : State) (die : Nat) (r : Reading) : Bool :=
  decide (smGet 2600 s.dev.powerCap (die / 4) < r.power) || decide (95 < r.junction)

/-- MONITOR_SAMPLE (R393): power above the cap or a junction too hot lowers a die's clock by a sixteenth, a low voltage stretches it,
drift retunes the rail. -/
def execMonitorSample (die : Nat) (reading : Reading) (slow drift : Bool) (s : State) : Out :=
  .next { s with dev := { s.dev with
    clockDiv := smSet 0 s.dev.clockDiv die (if mustSlow s die reading then min 15 (smGet 0 s.dev.clockDiv die + 1) else 0)
    stretch := smSet false s.dev.stretch die slow
    retunes := s.dev.retunes + (if drift then 1 else 0) } }

/-- LANE_FAILURE (R376): a module's link trains at fewer lanes, 8 or 4. -/
def execLaneFailure (lanes : OfModule Nat) (s : State) : Out :=
  .next (if (lanes.val = 8 ∨ lanes.val = 4) ∧ lanes.val < smGet 16 s.dev.lanes lanes.mod then
      { s with dev := { s.dev with lanes := smSet 16 s.dev.lanes lanes.mod lanes.val } }
    else s)

/-- A module shuts down (R393): every key is destroyed and every partition of it is lost, with its regions. Members that they had
elsewhere stop, and members of other modules' regions on its cores are lost (14_link.md R255). -/
def shutModule (s : State) (mod : Nat) : State :=
  let lost := (s.parts.filter fun e => e.1 / 64 == mod).map Prod.fst
  let s := lost.foldl (fun s pn => newKey (loseMembers (stopElsewhere s pn false) pn) pn) s
  { s with
    parts := s.parts.filter fun e => e.1 / 64 != mod
    regions := s.regions.filter fun e => e.2.part / 64 != mod
    cores := s.cores.filter fun e => moduleOf e.1 != mod
    querns := s.querns.filter fun e => e.1 / 32 != mod
    tlb := s.tlb.filter fun e => e.1 / 4 != mod
    dev := { s.dev with
      off := if s.dev.off.contains mod then s.dev.off else s.dev.off ++ [mod]
      boot := smSet 0 s.dev.boot mod 0
      ide := s.dev.ide.filter fun e => e.1 != mod } }

/-- THERMAL_SHUTDOWN (R393): the modules with a junction above 110 °C, or without coolant flow, shut down. -/
def execThermalShutdown (s : State) : Out :=
  let t := s.dev.overheat.foldl shutModule s
  .next { t with dev := { t.dev with overheat := [] } }

/-! ### Host accesses to device memory (R82, R90) -/

/-- The stage-2 mapping of a guest address that lies in device memory. -/
def deviceMap (p : Part) (gpa : Nat) : Option S2Map :=
  p.stage2.find? fun m => !m.host && decide (m.gpa ≤ gpa) && decide (gpa < m.gpa + m.len)

/-- Where the bytes of a host access lie, if its stage-2 permission allows it; host accesses use no key (log entry 12). -/
def hostRange (p : Part) (gpa len : Nat) (wr : Bool) : Option (List Nat) :=
  allSome ((List.range len).map fun i => match deviceMap p (gpa + i) with
    | some m => if wr && !m.wr then none else some (s2Key m (gpa + i))
    | none => none)

/-- HOST_MEMORY_REQUEST (R82): a host read or write of device memory under the stage-2 permission. -/
def execHostMemoryRequest (part gpa len : Nat) (wr : Option (List (BitVec 8))) (s : State) : Out :=
  .next (if !vfUp s part then replyWith s .unsupported
    else match wr with
      | none => match hostRange (s.part part) gpa len false with
        | some keys => replyWith s (.data (keys.map fun k => (memRead s k 0).toNat))
        | none => replyWith s .unsupported
      | some bs => match hostRange (s.part part) gpa bs.length true with
        | some keys => replyWith ((keys.zip bs).foldl (fun s e => memWrite s e.1 0 e.2) s) .success
        | none => replyWith s .unsupported)

/-- The guest addresses of the listed bytes of memory that a partition can name at a module. -/
def listedGpas (s : State) (p : Part) (mod : Nat) : List Nat :=
  s.mem.filterMap fun e =>
    (p.stage2.find? fun m => m.mod == mod && decide (s2Key m m.gpa ≤ e.1) && decide (e.1 < s2Key m m.gpa + m.len)).map fun m =>
      m.gpa + (e.1 - s2Key m m.gpa)

/-- The indices of a table's descriptors that are not zero. -/
def tableIdx (gpas : List Nat) (tab n : Nat) : List Nat :=
  ((gpas.filter fun g => decide (tab ≤ g) && decide (g < tab + 8 * n)).map fun g => (g - tab) / 8).eraseDups

/-- Some leaf of a stage-1 table covers a guest address and has A = 1 (R80, R90). `lvl` counts the levels left. -/
def leafWithA (s : State) (p : Part) (mod gpa : Nat) (gpas : List Nat) : Nat → Nat → Bool
  | 0, _ => false
  | l + 1, tab =>
    let n := if l = 2 then 262144 else if l = 1 then 512 else 32
    let size := if l = 2 then 2 ^ 30 else if l = 1 then 2 ^ 21 else 2 ^ 16
    (tableIdx gpas tab n).any fun i => match gpaNat s p mod (tab + 8 * i) 8 with
      | none => false
      | some d =>
        let addr := nbits d 8 44 * 256
        if nbits d 0 1 = 0 ∨ nbits d 52 6 ≠ 0 ∨ nbits d 5 3 ≠ 0 then false
        else if nbits d 1 1 = 1 then
          addr % size == 0 && nbits d 4 1 == 1 && decide (addr ≤ gpa) && decide (gpa < addr + size)
        else if nbits d 58 6 ≠ 0 ∨ nbits d 2 3 ≠ 0 ∨ addr % (if l = 2 then 4096 else 256) ≠ 0 then false
        else leafWithA s p mod gpa gpas l addr

/-- A page of the device permits system-wide atomics (R80, R90). -/
def pageHasA (s : State) (p : Part) (mod gpa : Nat) : Bool :=
  wbits p.s1root 0 1 == 1 && leafWithA s p mod gpa (listedGpas s p mod) 3 (wbits p.s1root 21 31 * 2 ^ 21)

/-- Counts a rejected host AtomicOp (22_faults.md R368). -/
def countReject (s : State) (pn : Nat) : State :=
  let p := s.part pn
  s.setPart pn { p with ev29 := if p.ev29 = BitVec.allOnes 32 then p.ev29 else p.ev29 + 1 }

/-- HOST_ATOMIC (R90): FetchAdd, Swap or CAS (op 0, 1, 2) of 32 or 64 bits on a device page with A, answered with the old
value; a 128-bit CAS or a page without A is rejected and logged. -/
def execHostAtomic (part op size gpa operand cmp : Nat) (s : State) : Out :=
  let p := s.part part
  .next (if !vfUp s part || decide (2 < op) then replyWith s .unsupported
    else match deviceMap p gpa with
      | none => replyWith s .unsupported
      | some m =>
        if (op = 2 ∧ size = 128) ∨ !pageHasA s p m.mod gpa then replyWith (countReject s part) .unsupported
        else if !m.wr then replyWith s .unsupported
        else if (size ≠ 32 ∧ size ≠ 64) ∨ gpa % (size / 8) ≠ 0 then replyWith s .unsupported
        else
          let n := size / 8
          let keys := (List.range n).map fun i => s2Key m (gpa + i)
          let old := leNat (keys.map fun k => memRead s k 0)
          let new := if op = 0 then old + operand else if op = 1 then operand
            else if old = cmp % 2 ^ size then operand else old
          let s := if op = 2 ∧ old ≠ cmp % 2 ^ size then s
            else (keys.zip (leBytes n new)).foldl (fun s e => memWrite s e.1 0 e.2) s
          replyWith s (.data [old]))

end Sys2Proof.Machine
end

