-- ==== Sys2Proof/Machine/Vxe.lean ====
section
/-!
DEFINITION. What the words of the vector engine share (02_encoding.md R33-R36, 07_vxe_model.md R156-R165,
08_vxe_instr.md R176-R178): registers and masks, the checks of a slot, results in flight and their landing.
A word of the VXE is one slot of a bundle: its meaning is what the slot does in the bundle being issued
(`Core.vc`); Machine/Bundle.lean issues the bundle.
-/

namespace Sys2Proof.Machine

/-! ### Classes (R18, R40) -/

def clVxF32 : Nat := 10
def clVxF16 : Nat := 11
def clVxBf16 : Nat := 12
def clVxTrans : Nat := 13
def clVxInt : Nat := 14
def clVxCvt : Nat := 15
def clVxTile : Nat := 16
def clVxRed : Nat := 17
def clVxGrt : Nat := 18
def clVxDec : Nat := 19

/-! ### Registers -/

/-- The physical register that vN names now (R157). -/
def vphys (c : Core) (n : BitVec 5) : Nat := 32 * wbits c.vx.vwb 0 6 + n.toNat

/-- vN (R160). -/
def vreg (c : Core) (n : BitVec 5) : Row := smGet 0 c.vx.phys (vphys c n)

/-- qN; q0 reads all ones (R156). -/
def vq (c : Core) (n : BitVec 3) : BitVec 96 := if n = 0 then BitVec.allOnes 96 else smGet 0 c.vx.q n.toNat

/-- The VXE's pN; p0 reads 1 (R156). -/
def vp (c : Core) (n : BitVec 3) : Bool := if n = 0 then true else smGet false c.vx.p n.toNat

/-- The lane mask of the slots 0 and 1 of the bundle (R161). -/
def vmask (c : Core) : BitVec 96 := c.vc.mask.getD (BitVec.allOnes 96)

/-- VTID.TID, the tensor id of results (R177). -/
def vtidOf (c : Core) : Nat := wbits c.vx.vtid 0 24

/-- The logical index of a 32-bit lane (R177). -/
def laneIdx (c : Core) (i : Nat) : Lane := rowLane (vreg c 31) i

/-- The logical index of a half-lane (R177). -/
def halfIdx (c : Core) (j : Nat) : Lane := 2 * rowLane (vreg c 31) (j / 2) + BitVec.ofNat 32 (j % 2)

/-- VRM.MODE (R66). -/
def vmode (c : Core) : Nat := wbits c.vx.vrm 0 3
/-- VSM.EN. -/
def vsat (c : Core) : Bool := wbits c.vx.vsm 0 1 == 1
/-- VNM.FTZI. -/
def vftzi (c : Core) : Bool := wbits c.vx.vnm 0 1 == 1
/-- VNM.FTZO. -/
def vftzo (c : Core) : Bool := wbits c.vx.vnm 1 1 == 1

/-- The rounding control of an element with logical index `idx` (R60, R61). -/
def vrc (c : Core) (idx : Lane) : RC :=
  { mode := vmode c, sat := vsat c, ftzo := vftzo c
    u := if vmode c = 5 then uni16 (grt c.vx.vseed (BitVec.ofNat 24 (vtidOf c)) 2 idx) else 0 }

/-- An input of a format, flushed under FTZI (R65). -/
def vin (c : Core) (f : Fmt) (bits : Nat) : Nat × Cnt := flushIn f (vftzi c) bits

/-! ### Immediates (R33, R36) -/

/-- The `vext` words that extend the current slot. -/
def vexts (c : Core) : List (BitVec 16) := smGet [] c.vx.ext c.vc.slot

/-- The assembled immediate, unsigned. -/
def vimmU {n : Nat} (c : Core) (i : BitVec n) : Nat := ((vexts c).foldl (fun a e => a * 65536 + e.toNat) 0) * 2 ^ n + i.toNat

/-- The assembled immediate, sign-extended from its top assembled bit. -/
def vimmS {n : Nat} (c : Core) (i : BitVec n) : Int := sint (n + 16 * (vexts c).length) (vimmU c i)

/-- The bundle address that a fault names: the bundle at VPC, or that of the first `vext` of the unit (R32, R36). -/
def vxUnit (c : Core) : Nat :=
  let l (t : Nat) : Nat := (smGet [] c.vx.ext t).length
  let far := [0, 1, 2].foldl (fun b t => if l b < l t then t else b) 0
  if l far = 0 then c.vx.vpc.toNat else smGet 0 c.vx.extAt far

/-! ### Slots -/

/-- The queues that slots pop or push (R164). -/
inductive VxQueue where
  | lqv | dq | sq | aq | eq
  deriving DecidableEq, Repr

/-- What a card says of a slot word besides its effect: capability class, slot (3: any), whether its encoded fields break the
card, whether it takes an immediate, the registers, masks and predicates it names as destinations (R35), its queue. -/
structure VxSpec where
  cls : Nat
  slot : Nat
  bad : Bool := false
  imm : Bool := false
  dV : Option (BitVec 5) := none
  dQ : List (BitVec 3) := []
  dP : Option (BitVec 3) := none
  pop : Option VxQueue := none
  push : Option VxQueue := none
  deriving DecidableEq, Repr

/-- The effect of a slot: a result that lands `lat` cycles from now; none, finished at issue; a `vret`; or a fault, with the
state it leaves. -/
inductive VxRes where
  | land (s : State) (lat : Nat) (dsts : List VxDst) (cnt : Cnt)
  | now (s : State)
  | ret (s : State)
  | trap (s : State) (cause : Nat) (faddr : Word)
  deriving DecidableEq, Repr

/-- Changes the VXE of the current core. -/
def State.modVx (s : State) (f : Vx → Vx) : State := s.modCur fun c => { c with vx := f c.vx }

/-- A bundle of a core faults: the stream stops at it and the kernel ends (R35, R176, R352); `vtrap` too is never delivered to
the handler (R356). -/
def vxFaultAt (s : State) (k addr cause : Nat) (faddr : Word) : State := endKernel s k 2 addr cause faddr

/-- The bundle being issued faults. -/
def vxFault (s : State) (cause : Nat) (faddr : Word) : State := vxFaultAt s s.turn.1 (vxUnit s.cur) cause faddr

/-- The checks of a slot at decode, in the order of R26, with 0x68 where the slot shares a destination (R35). -/
def vxDecodeFault (h : Hdr) (sp : VxSpec) (c : Core) (slot : Nat) (shared : Bool) : Option Nat :=
  let e := smGet [] c.vx.ext slot
  if 2 ≤ h.vs.toNat then some 0x03
  else if sp.slot ≠ 3 ∧ sp.slot ≠ slot then some 0x05
  else if e ≠ [] ∧ (sp.imm = false ∨ c.vx.extBad.contains slot) then some 0x04
  else if sp.bad then some 0x02
  else if shared then some 0x68
  else if !c.sys.oum.getLsbD sp.cls then some 0x06
  else if !c.sys.ccm.getLsbD sp.cls then some 0x07
  else none

/-- What a slot does when its bundle issues (R25, R27, R34, R176): a guarded-off slot only makes its pushes; a result lands
later and its pushes with it. -/
def vxWord (h : Hdr) (sp : VxSpec) (body : State → VxRes) (s : State) : State :=
  let c := s.cur
  match vxDecodeFault h sp c c.vc.slot false with
  | some f => vxFault s f (w64 c.vc.slot)
  | none =>
    let push (t : State) : State := t.modCur fun c => askPushes c .vx (hdrPushes .vx h)
    if !vp c h.g then push s
    else match body s with
      | .land t lat dsts cnt =>
        t.modVx fun x => { x with
          fly := x.fly ++ [{ due := c.cycle + lat, order := c.vc.order, dsts := dsts, cnt := cnt, tid := vtidOf c,
                             pushes := hdrPushes .vx h }] }
      | .now t => push t
      | .ret t => push (t.modCur fun c => { c with vc := { c.vc with atRet := true, jumped := true } })
      | .trap t f a => vxFault t f a

/-- The fault of reading source registers in the lanes `m`: an uncorrectable error (R367), or check bits that differ (R174). -/
def srcFault (c : Core) (srcs : List (BitVec 5)) (m : BitVec 96) : Option Nat :=
  if srcs.any (fun n => c.vx.poisoned.contains (vphys c n)) then some 0xB1
  else if srcs.any (fun n => smGet 0 c.vx.badLanes (vphys c n) &&& m != 0) then some 0xB3
  else none

/-- The register that a rounded word reads besides its operands: v31 under SR, for the logical indices (R61, R177). -/
def idxSrc (c : Core) : List (BitVec 5) := if vmode c = 5 then [31] else []

/-- A slot that reads source registers, in lanes `m`. -/
def vxReads (srcs : List (BitVec 5)) (m : BitVec 96) (body : State → VxRes) (s : State) : VxRes :=
  match srcFault s.cur srcs m with
  | some f => .trap s f 0
  | none => body s

/-! ### Rows from elements -/

/-- Elements of w bits packed from the lowest. -/
def packElems (w : Nat) (l : List Nat) : Nat := l.foldr (fun v a => a * 2 ^ w + v % 2 ^ w) 0

/-- Sum of the events of elements. -/
def sumCnt (l : List Rnd) : Cnt := l.foldl (fun a r => a.plus r.cnt) {}

/-- The elements of a lane-wise result under a mask: 96 lanes, or 192 half-lanes; a masked element is not computed. -/
def elems (half : Bool) (m : BitVec 96) (g : Nat → Rnd) : List Rnd :=
  (List.range (if half then 192 else 96)).map fun j => if m.getLsbD (if half then j / 2 else j) then g j else ⟨0, {}⟩

/-- The row of such elements. -/
def elemRow (half : Bool) (l : List Rnd) : Row := BitVec.ofNat 3072 (packElems (if half then 16 else 32) (l.map Rnd.bits))

/-- A lane-wise result to vD (R161, R162). -/
def vecOut (s : State) (lat : Nat) (d : BitVec 5) (half : Bool) (g : Nat → Rnd) : VxRes :=
  let m := vmask s.cur
  let l := elems half m g
  .land s lat [.v (vphys s.cur d) (elemRow half l) (halfMask m)] (sumCnt l)

/-- An element with nothing to count. -/
def plain (v : Nat) : Rnd := ⟨v, {}⟩

/-- Element j of a row, a lane or a half-lane. -/
def rowElem (half : Bool) (r : Row) (j : Nat) : Nat := if half then (rowHalf r j).toNat else (rowLane r j).toNat

/-! ### Landing (R160, R162, R165) -/

/-- Lanes of which a half-lane is in a mask. -/
def lanesOf (m : BitVec 192) : BitVec 96 := laneMaskOf fun i => m.getLsbD (2 * i) || m.getLsbD (2 * i + 1)

/-- Writes half-lanes of a physical register. A shadow check that has not been made is dropped when another write lands on
its register (R174), and the lanes written lose their wrong check bits. -/
def writePhys (x : Vx) (now order phys : Nat) (val : Row) (m : BitVec 192) : Vx :=
  { x with
    phys := smSet 0 x.phys phys (rowMerge (smGet 0 x.phys phys) val m)
    poisoned := if m = BitVec.allOnes 192 then x.poisoned.filter fun p => p != phys else x.poisoned
    badLanes := smSet 0 x.badLanes phys (smGet 0 x.badLanes phys &&& ~~~(lanesOf m))
    checks := x.checks.filter fun k => !(k.prod.phys == phys && k.prod.order != order && decide (k.prod.due ≤ now)) }

/-- Writes elements of a tile row under a mask. -/
def tileMerge (old new : Row) (m : BitVec 96) : Row := rowMerge old new (halfMask m)

/-- One destination of a result is written. -/
def landDst (now order : Nat) (c : Core) (d : VxDst) : Core :=
  let x := c.vx
  match d with
  | .v phys val m => { c with vx := writePhys x now order phys val m }
  | .q n val m => if n = 0 then c else { c with vx := { x with q := smSet 0 x.q n (maskMerge (smGet 0 x.q n) val m) } }
  | .p n val => if n = 0 then c else { c with vx := { x with p := smSet false x.p n val } }
  | .vb n val => { c with vx := { x with vb := smSet 0 x.vb n val } }
  | .tile t r val m =>
    { c with vx := { x with tiles := smSet 0 x.tiles (96 * t + r) (tileMerge (smGet 0 x.tiles (96 * t + r)) val m) } }
  | .tclr t =>
    { c with vx := { x with tiles := x.tiles.filter (fun e => e.1 / 96 != t), poisoned := x.poisoned.filter fun p => p != 2048 + t } }
  | .cfg r v => { c with vx := cfgWrite x r v }
  | .vrcAdd m => { c with vx := { x with vrc := rowOfLanes fun i => if m.getLsbD i then rowLane x.vrc i + 1 else rowLane x.vrc i } }
  | .vrcSet val m => { c with vx := { x with vrc := rowMerge x.vrc val (halfMask m) } }
  | .sq v => { c with q := { c.q with sq := c.q.sq ++ [(now, v)] } }
  | .aq v => { c with q := { c.q with aq := c.q.aq ++ [(now, v)] } }
  | .eq v => { c with q := { c.q with eq := c.q.eq ++ [(now, v)] }, ev := true }
  | .nothing => c
where
  /-- The configuration registers of `vwin` (R201). -/
  cfgWrite (x : Vx) (r : Nat) (v : Word) : Vx :=
    let v32 : BitVec 32 := v.setWidth 32
    match r with
    | 0 => { x with vwb := (x.vwb &&& ~~~0x3F) ||| (v32 &&& 0x3F) }
    | 1 => { x with vwb := v32 }
    | 2 => { x with vrm := v32 }
    | 3 => { x with vsm := v32 }
    | 4 => { x with vnm := v32 }
    | 5 => { x with vtid := v32 }
    | 6 => { x with vseed := (x.vseed &&& 0xFFFFFFFF00000000) ||| v32.zeroExtend 64 }
    | 7 => { x with vseed := (x.vseed &&& 0xFFFFFFFF) ||| (v32.zeroExtend 64 <<< 32) }
    | _ => { x with zcfg := v32 }

/-- A result lands: its destinations, the events it counts, its pushes. -/
def landFly (c : Core) (f : VxFly) : Core :=
  let c := f.dsts.foldl (landDst c.cycle f.order) c
  askPushes (countOn c f.tid f.cnt) .vx f.pushes

/-- Every result due by the current core cycle lands, in bundle order. -/
def vxLand (c : Core) : Core :=
  let ready := c.vx.fly.filter fun f => decide (f.due ≤ c.cycle)
  ready.foldl landFly { c with vx := { c.vx with fly := c.vx.fly.filter fun f => !decide (f.due ≤ c.cycle) } }

/-- VX_RESULT_LANDING (R165). -/
def execVxResultLanding (core : Nat) (s : State) : Out :=
  let c := s.core core
  .next (if c.alive && !c.frozen then s.setCore core (vxLand c) else s)

/-- The first lane of a mask. -/
def firstLane (m : BitVec 96) : Nat := ((List.range 96).find? fun i => m.getLsbD i).getD 96

/-- SHADOW_CHECK (R174): the oldest check whose time has come is made; `badLanes` are the lanes in which the recomputed result
differs from the data. Check bits come from the recomputed value, so reads of those lanes fault until they are overwritten, and the
producer's class becomes suspect (21_scheduler.md R341). A check of the cycle in which a freeze begins is made still (22_faults.md
R353). -/
def execShadowCheck (core : Nat) (badLanes : BitVec 96) (s : State) : Out :=
  let c := s.core core
  .next (match c.vx.checks.find? fun k => decide (k.prod.due + 1 ≤ c.cycle) with
    | none => s
    | some k =>
      if !c.alive || (c.frozen && !freezeStarts c s.clock) then s
      else
        let bad := badLanes &&& lanesOf k.prod.mask
        let x := { c.vx with checks := c.vx.checks.erase k }
        let old : BitVec 96 := smGet 0 x.badLanes k.prod.phys
        let x := { x with badLanes := smSet 0 x.badLanes k.prod.phys ((old &&& ~~~(lanesOf k.prod.mask)) ||| bad) }
        let s := s.setCore core { c with vx := x }
        if bad = 0 then s else suspect (vxFaultAt s core k.vpc.toNat 0xB3 (w64 (firstLane bad))) core [k.prod.cls])

end Sys2Proof.Machine
end

