-- ==== Sys2Proof/Machine/VxArith.lean ====
section
/-!
DEFINITION. The VXE's slot-0 words: floating-point arithmetic, transcendental operations, compares (08_vxe_instr.md
R179-R181), integer operations and moves (R182-R184), and random values (R202, R203).
-/

namespace Sys2Proof.Machine

/-! ### Floating-point arithmetic (R179, R180) -/

/-- The capability class of a type suffix. -/
def fmtClass (f : Fmt) : Nat := if f = fp32 then clVxF32 else if f = fp16 then clVxF16 else clVxBf16
/-- A half-width type. -/
def fmtHalf (f : Fmt) : Bool := f != fp32

/-- What the cards of slot 0 with a vector destination share. -/
def spArith (cls : Nat) (d : BitVec 5) (bad imm : Bool := false) : VxSpec := { cls := cls, slot := 0, bad := bad, imm := imm, dV := some d }

/-- The events of flushed inputs. -/
def inCnt (l : List (Nat × Cnt)) : Cnt := l.foldl (fun (a : Cnt) e => a.plus e.2) {}

/-- An operation rounded by RND, on the flushed inputs of an element (R179). -/
def fpRound (c : Core) (f : Fmt) (j : Nat) (ins : List Nat) (op : List FV → FV) : Rnd :=
  let i := ins.map (vin c f)
  let r := rnd f (vrc c (if fmtHalf f then halfIdx c j else laneIdx c j)) (op (i.map fun e => f.val e.1))
  ⟨r.bits, (inCnt i).plus r.cnt⟩

/-- An exact operation on the flushed inputs, by their bits (R179). -/
def fpExact (c : Core) (f : Fmt) (ins : List Nat) (op : List Nat → Nat) : Rnd :=
  let i := ins.map (vin c f)
  let r := writeExact f (vftzo c) (op (i.map Prod.fst))
  ⟨r.bits, (inCnt i).plus r.cnt⟩

/-- A word with operands from registers, lane by lane. -/
def fpWord (h : Hdr) (f : Fmt) (cls lat : Nat) (d : BitVec 5) (srcs : List (BitVec 5)) (rounds : Bool)
    (g : Core → Nat → List Nat → Rnd) (s : State) : State :=
  vxWord h (spArith cls d) (fun t =>
    let c := t.cur
    vxReads (srcs ++ if rounds then idxSrc c else []) (vmask c) (fun t => vecOut t lat d (fmtHalf f) fun j => g c j (srcs.map fun r => rowElem (fmtHalf f) (vreg c r) j)) t) s

/-- A rounded word. -/
def fpRoundWord (h : Hdr) (f : Fmt) (cls lat : Nat) (d : BitVec 5) (srcs : List (BitVec 5)) (op : Bool → List FV → FV) (s : State) :
    State :=
  fpWord h f cls lat d srcs true (fun c j i => fpRound c f j i (op (vmode c == 2))) s

/-- An exact word. -/
def fpExactWord (h : Hdr) (f : Fmt) (d : BitVec 5) (srcs : List (BitVec 5)) (op : List Nat → Nat) (s : State) : State :=
  fpWord h f (fmtClass f) 4 d srcs false (fun c _ i => fpExact c f i op) s

/-- Operand k of an element. -/
def arg {α : Type} [Inhabited α] (l : List α) (k : Nat) : α := l.getD k default

/-- a + b; the Bool is rounding towards minus infinity (R179). -/
def opAdd (rdn : Bool) (l : List FV) : FV := FV.add rdn (arg l 0) (arg l 1)
/-- a - b. -/
def opSub (rdn : Bool) (l : List FV) : FV := FV.add rdn (arg l 0) (arg l 1).neg
/-- a b. -/
def opMul (_ : Bool) (l : List FV) : FV := FV.mul (arg l 0) (arg l 1)
/-- a b + c, rounded once. -/
def opFma (rdn : Bool) (l : List FV) : FV := FV.add rdn (FV.mul (arg l 0) (arg l 1)) (arg l 2)

/-- The operand that FV.min chooses. -/
def opMin (f : Fmt) (l : List Nat) : Nat :=
  let a := f.val (arg l 0)
  let b := f.val (arg l 1)
  if a.isNan || b.isNan then f.nanBits
  else if FV.lt a b then arg l 0 else if FV.lt b a then arg l 1 else if a.isNeg then arg l 0 else arg l 1

/-- The operand that FV.max chooses. -/
def opMax (f : Fmt) (l : List Nat) : Nat :=
  let a := f.val (arg l 0)
  let b := f.val (arg l 1)
  if a.isNan || b.isNan then f.nanBits
  else if FV.lt a b then arg l 1 else if FV.lt b a then arg l 0 else if a.isNeg then arg l 1 else arg l 0

/-- |a|. -/
def opAbs (f : Fmt) (l : List Nat) : Nat := arg l 0 % f.signW
/-- -a. -/
def opNeg (f : Fmt) (l : List Nat) : Nat := if arg l 0 < f.signW then arg l 0 + f.signW else arg l 0 - f.signW

/-- `vadd.f32` (R179). -/
def execVaddF32 (h : Hdr) (d a b : BitVec 5) (s : State) : Out :=
  .next (fpRoundWord h fp32 (fmtClass fp32) 4 d [a, b] opAdd s)

/-- `vsub.f32` (R179). -/
def execVsubF32 (h : Hdr) (d a b : BitVec 5) (s : State) : Out :=
  .next (fpRoundWord h fp32 (fmtClass fp32) 4 d [a, b] opSub s)

/-- `vmul.f32` (R179). -/
def execVmulF32 (h : Hdr) (d a b : BitVec 5) (s : State) : Out :=
  .next (fpRoundWord h fp32 (fmtClass fp32) 4 d [a, b] opMul s)

/-- `vfma.f32` (R179): vD is the addend. -/
def execVfmaF32 (h : Hdr) (d a b : BitVec 5) (s : State) : Out :=
  .next (fpRoundWord h fp32 (fmtClass fp32) 5 d [a, b, d] opFma s)

/-- `vmin.f32` (R179). -/
def execVminF32 (h : Hdr) (d a b : BitVec 5) (s : State) : Out :=
  .next (fpExactWord h fp32 d [a, b] (opMin fp32) s)

/-- `vmax.f32` (R179). -/
def execVmaxF32 (h : Hdr) (d a b : BitVec 5) (s : State) : Out :=
  .next (fpExactWord h fp32 d [a, b] (opMax fp32) s)

/-- `vabs.f32` (R179). -/
def execVabsF32 (h : Hdr) (d a : BitVec 5) (s : State) : Out :=
  .next (fpExactWord h fp32 d [a] (opAbs fp32) s)

/-- `vneg.f32` (R179). -/
def execVnegF32 (h : Hdr) (d a : BitVec 5) (s : State) : Out :=
  .next (fpExactWord h fp32 d [a] (opNeg fp32) s)

/-- `vrcp.f32` (R180). -/
def execVrcpF32 (h : Hdr) (d a : BitVec 5) (s : State) : Out :=
  .next (fpRoundWord h fp32 clVxTrans 10 d [a] (fun _ l => fvRcp (arg l 0)) s)

/-- `vrsq.f32` (R180). -/
def execVrsqF32 (h : Hdr) (d a : BitVec 5) (s : State) : Out :=
  .next (fpRoundWord h fp32 clVxTrans 10 d [a] (fun _ l => fvRsq (arg l 0)) s)

/-- `vexp2.f32` (R180). -/
def execVexp2F32 (h : Hdr) (d a : BitVec 5) (s : State) : Out :=
  .next (fpRoundWord h fp32 clVxTrans 10 d [a] (fun _ l => fvExp2 (arg l 0)) s)

/-- `vlog2.f32` (R180). -/
def execVlog2F32 (h : Hdr) (d a : BitVec 5) (s : State) : Out :=
  .next (fpRoundWord h fp32 clVxTrans 10 d [a] (fun _ l => fvLog2 (arg l 0)) s)

/-- `vadd.f16` (R179). -/
def execVaddF16 (h : Hdr) (d a b : BitVec 5) (s : State) : Out :=
  .next (fpRoundWord h fp16 (fmtClass fp16) 4 d [a, b] opAdd s)

/-- `vsub.f16` (R179). -/
def execVsubF16 (h : Hdr) (d a b : BitVec 5) (s : State) : Out :=
  .next (fpRoundWord h fp16 (fmtClass fp16) 4 d [a, b] opSub s)

/-- `vmul.f16` (R179). -/
def execVmulF16 (h : Hdr) (d a b : BitVec 5) (s : State) : Out :=
  .next (fpRoundWord h fp16 (fmtClass fp16) 4 d [a, b] opMul s)

/-- `vfma.f16` (R179): vD is the addend. -/
def execVfmaF16 (h : Hdr) (d a b : BitVec 5) (s : State) : Out :=
  .next (fpRoundWord h fp16 (fmtClass fp16) 5 d [a, b, d] opFma s)

/-- `vmin.f16` (R179). -/
def execVminF16 (h : Hdr) (d a b : BitVec 5) (s : State) : Out :=
  .next (fpExactWord h fp16 d [a, b] (opMin fp16) s)

/-- `vmax.f16` (R179). -/
def execVmaxF16 (h : Hdr) (d a b : BitVec 5) (s : State) : Out :=
  .next (fpExactWord h fp16 d [a, b] (opMax fp16) s)

/-- `vabs.f16` (R179). -/
def execVabsF16 (h : Hdr) (d a : BitVec 5) (s : State) : Out :=
  .next (fpExactWord h fp16 d [a] (opAbs fp16) s)

/-- `vneg.f16` (R179). -/
def execVnegF16 (h : Hdr) (d a : BitVec 5) (s : State) : Out :=
  .next (fpExactWord h fp16 d [a] (opNeg fp16) s)

/-- `vrcp.f16` (R180). -/
def execVrcpF16 (h : Hdr) (d a : BitVec 5) (s : State) : Out :=
  .next (fpRoundWord h fp16 clVxTrans 10 d [a] (fun _ l => fvRcp (arg l 0)) s)

/-- `vrsq.f16` (R180). -/
def execVrsqF16 (h : Hdr) (d a : BitVec 5) (s : State) : Out :=
  .next (fpRoundWord h fp16 clVxTrans 10 d [a] (fun _ l => fvRsq (arg l 0)) s)

/-- `vexp2.f16` (R180). -/
def execVexp2F16 (h : Hdr) (d a : BitVec 5) (s : State) : Out :=
  .next (fpRoundWord h fp16 clVxTrans 10 d [a] (fun _ l => fvExp2 (arg l 0)) s)

/-- `vlog2.f16` (R180). -/
def execVlog2F16 (h : Hdr) (d a : BitVec 5) (s : State) : Out :=
  .next (fpRoundWord h fp16 clVxTrans 10 d [a] (fun _ l => fvLog2 (arg l 0)) s)

/-- `vadd.bf16` (R179). -/
def execVaddBf16 (h : Hdr) (d a b : BitVec 5) (s : State) : Out :=
  .next (fpRoundWord h bf16 (fmtClass bf16) 4 d [a, b] opAdd s)

/-- `vsub.bf16` (R179). -/
def execVsubBf16 (h : Hdr) (d a b : BitVec 5) (s : State) : Out :=
  .next (fpRoundWord h bf16 (fmtClass bf16) 4 d [a, b] opSub s)

/-- `vmul.bf16` (R179). -/
def execVmulBf16 (h : Hdr) (d a b : BitVec 5) (s : State) : Out :=
  .next (fpRoundWord h bf16 (fmtClass bf16) 4 d [a, b] opMul s)

/-- `vfma.bf16` (R179): vD is the addend. -/
def execVfmaBf16 (h : Hdr) (d a b : BitVec 5) (s : State) : Out :=
  .next (fpRoundWord h bf16 (fmtClass bf16) 5 d [a, b, d] opFma s)

/-- `vmin.bf16` (R179). -/
def execVminBf16 (h : Hdr) (d a b : BitVec 5) (s : State) : Out :=
  .next (fpExactWord h bf16 d [a, b] (opMin bf16) s)

/-- `vmax.bf16` (R179). -/
def execVmaxBf16 (h : Hdr) (d a b : BitVec 5) (s : State) : Out :=
  .next (fpExactWord h bf16 d [a, b] (opMax bf16) s)

/-- `vabs.bf16` (R179). -/
def execVabsBf16 (h : Hdr) (d a : BitVec 5) (s : State) : Out :=
  .next (fpExactWord h bf16 d [a] (opAbs bf16) s)

/-- `vneg.bf16` (R179). -/
def execVnegBf16 (h : Hdr) (d a : BitVec 5) (s : State) : Out :=
  .next (fpExactWord h bf16 d [a] (opNeg bf16) s)

/-- `vrcp.bf16` (R180). -/
def execVrcpBf16 (h : Hdr) (d a : BitVec 5) (s : State) : Out :=
  .next (fpRoundWord h bf16 clVxTrans 10 d [a] (fun _ l => fvRcp (arg l 0)) s)

/-- `vrsq.bf16` (R180). -/
def execVrsqBf16 (h : Hdr) (d a : BitVec 5) (s : State) : Out :=
  .next (fpRoundWord h bf16 clVxTrans 10 d [a] (fun _ l => fvRsq (arg l 0)) s)

/-- `vexp2.bf16` (R180). -/
def execVexp2Bf16 (h : Hdr) (d a : BitVec 5) (s : State) : Out :=
  .next (fpRoundWord h bf16 clVxTrans 10 d [a] (fun _ l => fvExp2 (arg l 0)) s)

/-- `vlog2.bf16` (R180). -/
def execVlog2Bf16 (h : Hdr) (d a : BitVec 5) (s : State) : Out :=
  .next (fpRoundWord h bf16 clVxTrans 10 d [a] (fun _ l => fvLog2 (arg l 0)) s)

/-! ### Compares (R181) -/

/-- Condition c of `vcmp` (R181). -/
def fpCond (c : Nat) (a b : FV) : Bool :=
  let n := a.isNan || b.isNan
  match c with
  | 0 => FV.eqv a b
  | 1 => !FV.eqv a b
  | 2 => FV.lt a b
  | 3 => !n && !FV.lt b a
  | 4 => FV.lt b a
  | 5 => !n && !FV.lt a b
  | 6 => n
  | _ => !n

/-- The masks that a compare names (R181, R35). -/
def cmpDst (f : Fmt) (q : BitVec 3) : List (BitVec 3) := if fmtHalf f then [q, q + 1] else [q]

/-- What `vcmp` is, for decode. -/
def spCmp (f : Fmt) (q : BitVec 3) : VxSpec :=
  { cls := fmtClass f, slot := 0, bad := fmtHalf f && q.getLsbD 0, dQ := cmpDst f q }

/-- `vcmp` (R181). -/
def vcmpWord (h : Hdr) (f : Fmt) (cc : BitVec 3) (q : BitVec 3) (a b : BitVec 5) (s : State) : State :=
  vxWord h (spCmp f q) (fun t =>
    let c := t.cur
    let m := vmask c
    vxReads [a, b] m (fun t =>
      let l := elems (fmtHalf f) m fun j =>
        let x := vin c f (rowElem (fmtHalf f) (vreg c a) j)
        let y := vin c f (rowElem (fmtHalf f) (vreg c b) j)
        ⟨if fpCond cc.toNat (f.val x.1) (f.val y.1) then 1 else 0, x.2.plus y.2⟩
      let bits := packElems 1 (l.map Rnd.bits)
      .land t 4
        (if fmtHalf f then
          [.q q.toNat (laneMaskOf fun i => bits.testBit (2 * i)) m, .q (q.toNat + 1) (laneMaskOf fun i => bits.testBit (2 * i + 1)) m]
        else [.q q.toNat (BitVec.ofNat 96 bits) m])
        (sumCnt l)) t) s

/-- `vcmp.f32` (R181). -/
def execVcmpF32 (h : Hdr) (c q : BitVec 3) (a b : BitVec 5) (s : State) : Out := .next (vcmpWord h fp32 c q a b s)

/-- `vcmp.f16` (R181). -/
def execVcmpF16 (h : Hdr) (c q : BitVec 3) (a b : BitVec 5) (s : State) : Out := .next (vcmpWord h fp16 c q a b s)

/-- `vcmp.bf16` (R181). -/
def execVcmpBf16 (h : Hdr) (c q : BitVec 3) (a b : BitVec 5) (s : State) : Out := .next (vcmpWord h bf16 c q a b s)

/-! ### Integer operations (R182, R183) -/

/-- An integer word, lane by lane (R182). -/
def intWord (h : Hdr) (d a b : BitVec 5) (op : Lane → Lane → Lane) (s : State) : State :=
  vxWord h (spArith clVxInt d) (fun t =>
    let c := t.cur
    vxReads [a, b] (vmask c) (fun t => vecOut t 2 d false fun i =>
      plain (op (rowLane (vreg c a) i) (rowLane (vreg c b) i)).toNat) t) s

/-- The signed smaller. -/
def laneMin (a b : Lane) : Lane := if a.toInt ≤ b.toInt then a else b
/-- The unsigned smaller. -/
def laneMinU (a b : Lane) : Lane := if a.toNat ≤ b.toNat then a else b
/-- The signed larger. -/
def laneMax (a b : Lane) : Lane := if a.toInt ≤ b.toInt then b else a
/-- The unsigned larger. -/
def laneMaxU (a b : Lane) : Lane := if a.toNat ≤ b.toNat then b else a

/-- `viadd` (R182). -/
def execViadd (h : Hdr) (d a b : BitVec 5) (s : State) : Out := .next (intWord h d a b (fun x y => x + y) s)

/-- `visub` (R182). -/
def execVisub (h : Hdr) (d a b : BitVec 5) (s : State) : Out := .next (intWord h d a b (fun x y => x - y) s)

/-- `vimul` (R182). -/
def execVimul (h : Hdr) (d a b : BitVec 5) (s : State) : Out := .next (intWord h d a b (fun x y => x * y) s)

/-- `vand` (R182). -/
def execVand (h : Hdr) (d a b : BitVec 5) (s : State) : Out := .next (intWord h d a b (fun x y => x &&& y) s)

/-- `vor` (R182). -/
def execVor (h : Hdr) (d a b : BitVec 5) (s : State) : Out := .next (intWord h d a b (fun x y => x ||| y) s)

/-- `vxor` (R182). -/
def execVxor (h : Hdr) (d a b : BitVec 5) (s : State) : Out := .next (intWord h d a b (fun x y => x ^^^ y) s)

/-- `vshl` (R182). -/
def execVshl (h : Hdr) (d a b : BitVec 5) (s : State) : Out := .next (intWord h d a b (fun x y => x <<< (y.toNat % 32)) s)

/-- `vshr` (R182). -/
def execVshr (h : Hdr) (d a b : BitVec 5) (s : State) : Out := .next (intWord h d a b (fun x y => x >>> (y.toNat % 32)) s)

/-- `vsra` (R182). -/
def execVsra (h : Hdr) (d a b : BitVec 5) (s : State) : Out := .next (intWord h d a b (fun x y => x.sshiftRight (y.toNat % 32)) s)

/-- `vimin` (R182). -/
def execVimin (h : Hdr) (d a b : BitVec 5) (s : State) : Out := .next (intWord h d a b laneMin s)

/-- `vimin.u` (R182). -/
def execViminU (h : Hdr) (d a b : BitVec 5) (s : State) : Out := .next (intWord h d a b laneMinU s)

/-- `vimax` (R182). -/
def execVimax (h : Hdr) (d a b : BitVec 5) (s : State) : Out := .next (intWord h d a b laneMax s)

/-- `vimax.u` (R182). -/
def execVimaxU (h : Hdr) (d a b : BitVec 5) (s : State) : Out := .next (intWord h d a b laneMaxU s)

/-- What `vicmp` is, for decode. -/
def spIcmp (cc : BitVec 3) (q : BitVec 3) : VxSpec := { cls := clVxInt, slot := 0, bad := decide (6 ≤ cc.toNat), dQ := [q] }

/-- `vicmp` (R183). -/
def execVicmp (h : Hdr) (cc : BitVec 3) (q : BitVec 3) (a b : BitVec 5) (s : State) : Out :=
  .next (vxWord h (spIcmp cc q) (fun t =>
    let c := t.cur
    let m := vmask c
    vxReads [a, b] m (fun t => .land t 2 [.q q.toNat (laneMaskOf fun i =>
      laneCond cc.toNat 32 (rowLane (vreg c a) i).toNat (rowLane (vreg c b) i).toNat) m] {}) t) s)

/-! ### Moves (R184) -/

/-- `vsel` (R184): the old vD is the selector. -/
def execVsel (h : Hdr) (d a b : BitVec 5) (s : State) : Out :=
  .next (vxWord h (spArith clVxInt d) (fun t =>
    let c := t.cur
    vxReads [d, a, b] (vmask c) (fun t => vecOut t 2 d false fun i =>
      plain (if rowLane (vreg c d) i = 0 then rowLane (vreg c b) i else rowLane (vreg c a) i).toNat) t) s)

/-- `vmov` of a register (R184). -/
def execVmov (h : Hdr) (d a : BitVec 5) (s : State) : Out :=
  .next (vxWord h (spArith clVxInt d) (fun t =>
    let c := t.cur
    vxReads [a] (vmask c) (fun t => vecOut t 2 d false fun i => plain (rowLane (vreg c a) i).toNat) t) s)

/-- `vmov` of a lane mask (R184). -/
def execVmovQ (h : Hdr) (d : BitVec 5) (q : BitVec 3) (s : State) : Out :=
  .next (vxWord h (spArith clVxInt d) (fun t =>
    let m := vq t.cur q
    vecOut t 2 d false fun i => plain (if m.getLsbD i then 0xFFFFFFFF else 0)) s)

/-- `vsplat` (R184). -/
def execVsplat (h : Hdr) (d : BitVec 5) (i : BitVec 11) (s : State) : Out :=
  .next (vxWord h (spArith clVxInt d (imm := true)) (fun t =>
    let v := vimmS t.cur i
    vecOut t 2 d false fun _ => plain (laneOfInt v).toNat) s)

/-- `vidx` (R184). -/
def execVidx (h : Hdr) (d : BitVec 5) (i : BitVec 11) (s : State) : Out :=
  .next (vxWord h (spArith clVxInt d (imm := true)) (fun t =>
    let v := vimmS t.cur i
    vecOut t 2 d false fun k => plain (laneOfInt ((k : Int) + v)).toNat) s)

/-! ### Random values (R202, R203) -/

/-- The value that `vgrt` and `vrand` write for a draw h (R202). -/
def grtValue (kind : Nat) (h : Lane) : Nat :=
  match kind with
  | 0 => h.toNat
  | 1 => uni16 h
  | 2 => uni24 h
  | 3 => intBits 32 (rad h)
  | 4 => intBits 32 (bin8 h)
  | _ => rne fp32 (.fin false (uni24 h) 1 (-24))

/-- What `vgrt` and `vrand` are, for decode. -/
def spGrt (d : BitVec 5) (k : BitVec 3) (sc : BitVec 2) : VxSpec :=
  spArith clVxGrt d (bad := decide (6 ≤ k.toNat) || sc == 3)

/-- The draw of an index in stream 4 + s (R202). -/
def vdraw (c : Core) (sc : BitVec 2) (idx : Lane) : Lane :=
  grt c.vx.vseed (BitVec.ofNat 24 (vtidOf c)) (BitVec.ofNat 8 (4 + sc.toNat)) idx

/-- `vgrt` (R202). -/
def execVgrt (h : Hdr) (d a : BitVec 5) (k : BitVec 3) (sc : BitVec 2) (s : State) : Out :=
  .next (vxWord h (spGrt d k sc) (fun t =>
    let c := t.cur
    vxReads [a] (vmask c) (fun t => vecOut t 4 d false fun i => plain (grtValue k.toNat (vdraw c sc (rowLane (vreg c a) i)))) t) s)

/-- `vrand` (R203): the counters advance in the cycle the result lands. -/
def execVrand (h : Hdr) (d : BitVec 5) (k : BitVec 3) (sc : BitVec 2) (s : State) : Out :=
  .next (vxWord h (spGrt d k sc) (fun t =>
    let c := t.cur
    match vecOut t 4 d false (fun i => plain (grtValue k.toNat (vdraw c sc (rowLane c.vx.vrc i)))) with
    | .land t lat dsts cnt => .land t lat (dsts ++ [.vrcAdd (vmask c)]) cnt
    | r => r) s)

/-- What `vrand.set` is, for decode. -/
def spRandSet : VxSpec := { cls := clVxGrt, slot := 0 }

/-- `vrand.set` (R203). -/
def execVrandSet (h : Hdr) (a : BitVec 5) (s : State) : Out :=
  .next (vxWord h spRandSet (fun t =>
    let c := t.cur
    vxReads [a] (vmask c) (fun t => .land t 4 [.vrcSet (vreg c a) (vmask c)] {}) t) s)

end Sys2Proof.Machine
end

