-- ==== Sys2Proof/Machine/VxConvert.lean ====
section
/-!
DEFINITION. The VXE's conversions, quantisation and packing (08_vxe_instr.md R185-R189).
-/

namespace Sys2Proof.Machine

/-! ### `vcvt` (R185) -/

/-- A rounded conversion of a float element (R185). -/
def cvtF (c : Core) (idx : Lane) (src dst : Fmt) (bits : Nat) : Rnd :=
  let i := vin c src bits
  let r := rnd dst (vrc c idx) (src.val i.1)
  ⟨r.bits, i.2.plus r.cnt⟩

/-- A conversion of a float element to an n-bit integer. -/
def cvtI (c : Core) (idx : Lane) (src : Fmt) (n : Nat) (signed : Bool) (bits : Nat) : Rnd :=
  let i := vin c src bits
  let r := rndi n signed (vrc c idx) (src.val i.1)
  ⟨r.bits, i.2.plus r.cnt⟩

/-- An element widened exactly (R54, R185, R188). -/
def widenExact (c : Core) (f : Fmt) (bits : Nat) : Rnd :=
  let i := vin c f bits
  match f.val i.1 with
  | .nan => ⟨fp32.nanBits, i.2.plus ⟨0, 0, 1, 0⟩⟩
  | v => ⟨rne fp32 v, i.2⟩

/-- A narrowing conversion: the 96 half-lanes from `base` on take the lanes of the source; source lane i is governed by mask
bit i. -/
def narrow (s : State) (d : BitVec 5) (a : BitVec 5) (dst : Fmt) (base : Nat) : VxRes :=
  let c := s.cur
  let m := vmask c
  let l := elems false m fun i => cvtF c (laneIdx c i) fp32 dst (rowLane (vreg c a) i).toNat
  let row := BitVec.ofNat 3072 (packElems 16 (l.map Rnd.bits) * 2 ^ (16 * base))
  .land s 3 [.v (vphys c d) row (halfMaskOf fun j => decide (base ≤ j) && decide (j < base + 96) && m.getLsbD (j - base))] (sumCnt l)

/-- The conversion of a code (R185). -/
def cvtBody (d a : BitVec 5) (cc : BitVec 5) (s : State) : VxRes :=
  let c := s.cur
  let x := vreg c a
  let lane (g : Nat → Nat → Rnd) : VxRes := vecOut s 3 d false fun i => g i (rowLane x i).toNat
  let half (g : Nat → Nat → Rnd) : VxRes := vecOut s 3 d true fun j => g j (rowHalf x j).toNat
  let widen (src : Fmt) (base : Nat) : VxRes :=
    vecOut s 3 d false fun i => widenExact c src (rowHalf x (base + i)).toNat
  match cc.toNat with
  | 0 => lane fun i v => cvtI c (laneIdx c i) fp32 32 true v
  | 1 => lane fun i v => cvtI c (laneIdx c i) fp32 32 false v
  | 2 => lane fun i v => rnd fp32 (vrc c (laneIdx c i)) (FV.ofInt (sint 32 v))
  | 3 => lane fun i v => rnd fp32 (vrc c (laneIdx c i)) (FV.ofInt v)
  | 4 => narrow s d a fp16 0
  | 5 => narrow s d a fp16 96
  | 6 => narrow s d a bf16 0
  | 7 => narrow s d a bf16 96
  | 8 => widen fp16 0
  | 9 => widen fp16 96
  | 10 => widen bf16 0
  | 11 => widen bf16 96
  | 12 => half fun j v => cvtF c (halfIdx c j) fp16 bf16 v
  | 13 => half fun j v => cvtF c (halfIdx c j) bf16 fp16 v
  | 14 => half fun j v => cvtI c (halfIdx c j) fp16 16 true v
  | _ => half fun j v => rnd fp16 (vrc c (halfIdx c j)) (FV.ofInt (sint 16 v))

/-- What `vcvt` is, for decode. -/
def spCvt (d cc : BitVec 5) : VxSpec := spArith clVxCvt d (bad := decide (16 ≤ cc.toNat))

/-- The source lanes that a conversion reads under a mask: those of the half-lanes that a widening one takes, else the lanes of the
mask (R174, R185). -/
def cvtReads (cc : Nat) (m : BitVec 96) : BitVec 96 :=
  match cc with
  | 8 => lanesOf (halfMaskOf fun j => decide (j < 96) && m.getLsbD j)
  | 9 => lanesOf (halfMaskOf fun j => decide (96 ≤ j) && m.getLsbD (j - 96))
  | 10 => lanesOf (halfMaskOf fun j => decide (j < 96) && m.getLsbD j)
  | 11 => lanesOf (halfMaskOf fun j => decide (96 ≤ j) && m.getLsbD (j - 96))
  | _ => m

/-- `vcvt` (R185). -/
def execVcvt (h : Hdr) (d a cc : BitVec 5) (s : State) : Out :=
  .next (vxWord h (spCvt d cc) (fun t =>
    vxReads (a :: if 8 ≤ cc.toNat ∧ cc.toNat < 12 then [] else idxSrc t.cur) (cvtReads cc.toNat (vmask t.cur)) (cvtBody d a cc) t) s)

/-! ### `vqnt`, `vdeq` (R186, R187) -/

/-- `vqnt` (R186). -/
def qntWord (signed : Bool) (h : Hdr) (d a b : BitVec 5) (s : State) : State :=
  vxWord h (spArith clVxCvt d) (fun t =>
    let c := t.cur
    vxReads (a :: b :: idxSrc c) (vmask c) (fun t => vecOut t 3 d false fun i =>
      let x := vin c fp32 (rowLane (vreg c a) i).toNat
      let y := vin c fp32 (rowLane (vreg c b) i).toNat
      let r := rndi 8 signed (vrc c (laneIdx c i)) (FV.mul (fp32.val x.1) (fp32.val y.1))
      ⟨if signed then intBits 32 (sint 8 r.bits) else r.bits, (x.2.plus y.2).plus r.cnt⟩) t) s

/-- `vqnt.s8` (R186). -/
def execVqntS8 (h : Hdr) (d a b : BitVec 5) (s : State) : Out := .next (qntWord true h d a b s)

/-- `vqnt.u8` (R186). -/
def execVqntU8 (h : Hdr) (d a b : BitVec 5) (s : State) : Out := .next (qntWord false h d a b s)

/-- `vdeq` (R187). -/
def deqWord (signed : Bool) (h : Hdr) (d a b : BitVec 5) (s : State) : State :=
  vxWord h (spArith clVxCvt d) (fun t =>
    let c := t.cur
    vxReads (a :: b :: idxSrc c) (vmask c) (fun t => vecOut t 3 d false fun i =>
      let n := rowLane (vreg c a) i
      let y := vin c fp32 (rowLane (vreg c b) i).toNat
      let r := rnd fp32 (vrc c (laneIdx c i)) (FV.mul (FV.ofInt (if signed then n.toInt else n.toNat)) (fp32.val y.1))
      ⟨r.bits, y.2.plus r.cnt⟩) t) s

/-- `vdeq` (R187). -/
def execVdeq (h : Hdr) (d a b : BitVec 5) (s : State) : Out := .next (deqWord true h d a b s)

/-- `vdeq.u` (R187). -/
def execVdeqU (h : Hdr) (d a b : BitVec 5) (s : State) : Out := .next (deqWord false h d a b s)

/-! ### `vpack` (R188, R189) -/

/-- Bytes of the chunk of a packed format (R188). -/
def chunkBytes (f : Nat) : Nat :=
  match f with
  | 0 => 96
  | 1 => 48
  | 2 => 192
  | 3 => 16
  | 4 => 100
  | _ => 96

/-- An integer lane in w bits (R188). -/
def packInt (c : Core) (signed : Bool) (w : Nat) (x : Int) : Rnd :=
  let lo : Int := if signed then -((2 ^ (w - 1) : Nat) : Int) else 0
  let hi : Int := if signed then ((2 ^ (w - 1) : Nat) : Int) - 1 else ((2 ^ w : Nat) : Int) - 1
  if (lo ≤ x ∧ x ≤ hi) ∨ vsat c = false then ⟨intBits w x, {}⟩
  else ⟨intBits w (if x < lo then lo else hi), ⟨1, 0, 0, 0⟩⟩

/-- A lane as a ternary digit: -1 is digit 2 (R57, R188). -/
def packT3 (x : Int) : Rnd :=
  ⟨if x = 0 then 0 else if 0 < x then 1 else 2, if x < -1 ∨ 1 < x then ⟨1, 0, 0, 0⟩ else {}⟩

/-- Numbers of base b from a list of digits, lowest first. -/
def digits (b : Nat) (l : List Nat) : Nat := l.foldr (fun v a => a * b + v) 0

/-- The smallest integer e with M * 2^(133 - e) ≤ 127, for M = n / d * 2^k > 0 (R189). -/
def bx8Exp (n d : Nat) (k : Int) : Int :=
  let e := 127 + flog2 n d k
  let p := scaled n d k (e - 133)
  if p.1 ≤ 127 * p.2 then e else e + 1

/-- The largest magnitude of a list of values; the others are passed by. -/
def maxMag (l : List FV) : FV :=
  l.foldl (fun a v => match v with
    | .fin _ _ _ _ => if FV.lt a v.abs then v.abs else a
    | _ => a) (.fin false 0 1 0)

/-- One block of `vpack bx8` (R189): E, and the mantissa bytes with their events. `idx` gives the logical index of element k. DESIGN
CHOICE (log entry 67): a block written with E = 0 because FTZI has flushed its lanes counts nothing, and one whose finite lanes are zero
beside an infinity takes E = 1. -/
def bx8Block (c : Core) (idx : Nat → Lane) (l : List Nat) : Nat × List Rnd :=
  let ins := l.map (vin c fp32)
  let vs := ins.map fun e => fp32.val e.1
  let flush (k : Nat) : Cnt := (ins.getD k (0, {})).2
  let add (rs : List Rnd) : List Rnd := rs.zipIdx.map fun e => ⟨e.1.bits, (flush e.2).plus e.1.cnt⟩
  if vs.all FV.isZero then (0, vs.map fun _ => plain 0)
  else if vs.all FV.isNan then (255, add (vs.map fun _ => ⟨0x80, ⟨0, 0, 1, 0⟩⟩))
  else
    let e : Int := match maxMag vs with
      | .fin _ n d k => if n = 0 then 1 else max 1 (min 254 (bx8Exp n d k))
      | _ => 1
    (e.toNat, add (vs.zipIdx.map fun p => match p.1 with
      | .nan => ⟨0x80, ⟨0, 0, 1, 0⟩⟩
      | .inf neg => if vsat c then ⟨if neg then 0x81 else 0x7F, ⟨1, 0, 0, 0⟩⟩ else ⟨0x80, ⟨0, 0, 1, 0⟩⟩
      | .fin neg n d k =>
        let q := scaled n d k (e - 133)
        let m0 := q.1 / q.2
        let m := if roundUp (vrc c (idx p.2)) neg m0 (q.1 % q.2) q.2 then m0 + 1 else m0
        let r : Int := if neg then -((min m 127 : Nat) : Int) else ((min m 127 : Nat) : Int)
        ⟨intBits 8 r, if 127 < m then ⟨1, 0, 0, 0⟩ else {}⟩))

/-- The chunk that `vpack` makes of a row, and its events (R188). -/
def packChunk (c : Core) (signed : Bool) (f : Nat) (x : Row) : Nat × Cnt :=
  let lane (i : Nat) : Lane := rowLane x i
  let all (n : Nat) (g : Nat → Rnd) : List Rnd := (List.range n).map g
  match f with
  | 0 => let l := all 96 fun i => packInt c signed 8 (lane i).toInt; (packElems 8 (l.map Rnd.bits), sumCnt l)
  | 1 => let l := all 96 fun i => packInt c signed 4 (lane i).toInt; (packElems 4 (l.map Rnd.bits), sumCnt l)
  | 2 => let l := all 96 fun i => packInt c signed 16 (lane i).toInt; (packElems 16 (l.map Rnd.bits), sumCnt l)
  | 3 =>
    let l := all 80 fun i => packT3 (lane i).toInt
    (packElems 8 ((List.range 16).map fun b => digits 3 (((l.drop (5 * b)).take 5).map Rnd.bits)), sumCnt l)
  | 4 =>
    let bs := (List.range 4).map fun b =>
      bx8Block c (fun k => laneIdx c (24 * b + k)) ((List.range 24).map fun k => (lane (24 * b + k)).toNat)
    (packElems 200 (bs.map fun b => b.1 + 256 * packElems 8 (b.2.map Rnd.bits)), sumCnt (bs.flatMap Prod.snd))
  | 5 => let l := all 96 fun i => cvtF c (laneIdx c i) fp32 e4m3 (lane i).toNat; (packElems 8 (l.map Rnd.bits), sumCnt l)
  | _ => let l := all 96 fun i => cvtF c (laneIdx c i) fp32 e5m2 (lane i).toNat; (packElems 8 (l.map Rnd.bits), sumCnt l)

/-- What `vpack` is, for decode: f = 7 is reserved, and X = 1 is for `b8`, `b4`, `b16` only. -/
def spPack (signed : Bool) (d : BitVec 5) (f : BitVec 3) : VxSpec :=
  spArith clVxCvt d (bad := f == 7 || (signed && decide (3 ≤ f.toNat)))

/-- `vpack` (R188): the chunk is shifted in from the top of vD; the mask is ignored. -/
def vpackWord (signed : Bool) (h : Hdr) (d a : BitVec 5) (f : BitVec 3) (s : State) : State :=
  vxWord h (spPack signed d f) (fun t =>
    let c := t.cur
    vxReads (a :: d :: if 4 ≤ f.toNat then idxSrc c else []) (BitVec.allOnes 96) (fun t =>
      let k := packChunk c signed f.toNat (vreg c a)
      let n := chunkBytes f.toNat
      let row := BitVec.ofNat 3072 ((vreg c d).toNat / 2 ^ (8 * n) + k.1 * 2 ^ (8 * (384 - n)))
      .land t 3 [.v (vphys c d) row (BitVec.allOnes 192)] k.2) t) s

/-- `vpack` (R188). -/
def execVpack (h : Hdr) (d a : BitVec 5) (f : BitVec 3) (s : State) : Out := .next (vpackWord false h d a f s)

/-- `vpack.s` (R188). -/
def execVpackS (h : Hdr) (d a : BitVec 5) (f : BitVec 3) (s : State) : Out := .next (vpackWord true h d a f s)

/-! ### `vunpk` (R188) -/

/-- Element m of a BX8 block with exponent byte E (R56). -/
def bx8Val (e m : Nat) : Rnd :=
  if e = 0 then plain 0
  else if e = 255 ∨ m = 0x80 then ⟨fp32.nanBits, ⟨0, 0, 1, 0⟩⟩
  else plain (rne fp32 (.fin (decide (128 ≤ m)) (sint 8 m).natAbs 1 ((e : Int) - 133)))

/-- The lanes that `vunpk` decodes from the chunk of a row, with their events; or the offset of an invalid T3P byte (R188). -/
def unpkLanes (c : Core) (x1 : Bool) (f : Nat) (x : Row) : Except Nat (List Nat × Cnt) :=
  let byte (k : Nat) : Nat := (rowByte x k).toNat
  let int (w : Nat) : List Nat :=
    (List.range 96).map fun i =>
      let v := wbits x (w * i) w
      if x1 then intBits 32 (sint w v) else v
  let rnds (g : Nat → Rnd) : Except Nat (List Nat × Cnt) :=
    let l := (List.range 96).map g
    .ok (l.map Rnd.bits, sumCnt l)
  match f with
  | 0 => .ok (int 8, {})
  | 1 => .ok (int 4, {})
  | 2 => .ok (int 16, {})
  | 3 =>
    let bad := (List.range 16).filter fun k => decide (243 ≤ byte k)
    match bad with
    | o :: _ =>
      if x1 then .ok (t3 byte, ⟨0, 0, 0, bad.length⟩) else .error o
    | [] => .ok (t3 byte, {})
  | 4 => rnds fun i => bx8Val (byte (25 * (i / 24))) (byte (25 * (i / 24) + 1 + i % 24))
  | 5 => rnds fun i => widenExact c e4m3 (byte i)
  | _ => rnds fun i => widenExact c e5m2 (byte i)
where
  /-- The digits of 16 ternary bytes as lanes; an invalid byte gives five zeros. -/
  t3 (byte : Nat → Nat) : List Nat :=
    (List.range 80).map fun i =>
      let b := byte (i / 5)
      if 243 ≤ b then 0
      else match b / 3 ^ (i % 5) % 3 with
        | 0 => 0
        | 1 => 1
        | _ => 0xFFFFFFFF

/-- What `vunpk` is, for decode: f = 7 is reserved, and X = 1 is not for `bx8`, `e4m3`, `e5m2`. -/
def spUnpk (x1 : Bool) (d : BitVec 5) (f : BitVec 3) : VxSpec :=
  spArith clVxCvt d (bad := f == 7 || (x1 && decide (4 ≤ f.toNat)))

/-- `vunpk` (R188): every lane of vD is written; the mask is ignored, and the source is read whole (log entry 39). -/
def unpkWord (x1 : Bool) (h : Hdr) (d a : BitVec 5) (f : BitVec 3) (s : State) : State :=
  vxWord h (spUnpk x1 d f) (fun t =>
    let c := t.cur
    vxReads [a] (BitVec.allOnes 96) (fun t =>
      match unpkLanes c x1 f.toNat (vreg c a) with
      | .error o => .trap t 0x40 (w64 o)
      | .ok (l, cnt) => .land t 3 [.v (vphys c d) (BitVec.ofNat 3072 (packElems 32 l)) (BitVec.allOnes 192)] cnt) t) s

/-- `vunpk` (R188). -/
def execVunpk (h : Hdr) (d a : BitVec 5) (f : BitVec 3) (s : State) : Out := .next (unpkWord false h d a f s)

/-- `vunpk.s`, and `vunpk.len` for `t3` (R188). -/
def execVunpkS (h : Hdr) (d a : BitVec 5) (f : BitVec 3) (s : State) : Out := .next (unpkWord true h d a f s)

end Sys2Proof.Machine
end

