-- ==== Sys2Proof/Machine/VxMove.lean ====
section
/-!
DEFINITION. The VXE's slot-1 words: permutes, reductions and top-k, tiles, queue pops and pushes, the shadow check and
statistics (08_vxe_instr.md R190-R195, R204, R205, 07_vxe_model.md R163, R170-R174), and the ZM1 decoder (R166-R172).
-/

namespace Sys2Proof.Machine

/-- What the cards of slot 1 with a vector destination share. -/
def spMove (cls : Nat) (d : BitVec 5) (bad : Bool := false) (pop : Option VxQueue := none) : VxSpec :=
  { cls := cls, slot := 1, bad := bad, dV := some d, pop := pop }

/-! ### Permutes (R190)

DESIGN CHOICE (log entry 39): a word that crosses lanes reads every lane of its sources, whatever its mask and index (07_vxe_model.md
R174). -/

/-- `vperm` (R190); its sources are read whole (log entry 39). -/
def execVperm (h : Hdr) (d a b : BitVec 5) (s : State) : Out :=
  .next (vxWord h (spMove clVxInt d) (fun t =>
    let c := t.cur
    vxReads [a, b] (BitVec.allOnes 96) (fun t => vecOut t 3 d false fun i =>
      let k := wbits (rowLane (vreg c b) i) 0 7
      plain (if k < 96 then (rowLane (vreg c a) k).toNat else 0)) t) s)

/-- `vperm.h` (R190). -/
def execVpermH (h : Hdr) (d a b : BitVec 5) (s : State) : Out :=
  .next (vxWord h (spMove clVxInt d) (fun t =>
    let c := t.cur
    vxReads [a, b] (BitVec.allOnes 96) (fun t => vecOut t 3 d true fun j =>
      let k := wbits (rowHalf (vreg c b) j) 0 8
      plain (if k < 192 then (rowHalf (vreg c a) k).toNat else 0)) t) s)

/-- `vbcst` (R190). -/
def execVbcst (h : Hdr) (d a : BitVec 5) (k : BitVec 6) (s : State) : Out :=
  .next (vxWord h (spMove clVxInt d) (fun t =>
    let c := t.cur
    vxReads [a] (BitVec.allOnes 96) (fun t => vecOut t 3 d false fun _ => plain (rowLane (vreg c a) k.toNat).toNat) t) s)

/-- `vrot` (R190). -/
def execVrot (h : Hdr) (d a : BitVec 5) (k : BitVec 6) (s : State) : Out :=
  .next (vxWord h (spMove clVxInt d) (fun t =>
    let c := t.cur
    vxReads [a] (BitVec.allOnes 96) (fun t => vecOut t 3 d false fun i =>
      plain (rowLane (vreg c a) ((i + k.toNat) % 96)).toNat) t) s)

/-! ### Reductions (R191-R193, R68) -/

/-- A partial result of a float reduction, with the events so far. -/
def vredNode (f : Fmt) (ftzo : Bool) (op : Nat) (x y : Nat × Cnt) : Nat × Cnt :=
  let a := f.val x.1
  let b := f.val y.1
  let k := x.2.plus y.2
  match op with
  | 0 =>
    let r := rnd f { ftzo := ftzo } (FV.add false a b)
    (r.bits, k.plus { ftz := r.cnt.ftz })
  | 1 => (opMax f [x.1, y.1], k)
  | _ => (opMin f [x.1, y.1], k)

/-- The identity of a float reduction (R68). -/
def redId (f : Fmt) (op : Nat) : Nat :=
  match op with
  | 0 => f.signW
  | 1 => f.signW + f.infBits
  | _ => f.infBits

/-- A float reduction of a row under a mask (R68, R191): its bits and events. -/
def redFloat (c : Core) (f : Fmt) (op : Nat) (m : BitVec 96) (x : Row) : Nat × Cnt :=
  let half := fmtHalf f
  let l := (List.range (if half then 192 else 96)).map fun j =>
    if m.getLsbD (if half then j / 2 else j) then vin c f (rowElem half x j) else (redId f op, {})
  let r := pairsum (vredNode f (vftzo c) op) (0, {}) 8 l
  if (f.val r.1).isNan then (f.nanBits, r.2.plus { nan := 1 }) else r

/-- An integer reduction (R191). -/
def redInt (op : Nat) (m : BitVec 96) (x : Row) : Lane :=
  let g (start : Lane) (f : Lane → Lane → Lane) : Lane :=
    (List.range 96).foldl (fun a i => if m.getLsbD i then f a (rowLane x i) else a) start
  match op with
  | 5 => g 0 fun a b => a + b
  | 6 => g 0x80000000 laneMax
  | _ => g 0x7FFFFFFF laneMin

/-- The half-lanes of lane i. -/
def lanePair (i : Nat) : BitVec 192 := halfMaskOf fun j => j / 2 == i

/-- `vred` (R191). -/
def execVred (h : Hdr) (d a : BitVec 5) (o : BitVec 3) (s : State) : Out :=
  .next (vxWord h (spMove clVxRed d) (fun t =>
    let c := t.cur
    let m := vmask c
    vxReads [a] m (fun t =>
      let x := vreg c a
      let out (half : Bool) (v : Nat) (cnt : Cnt) : VxRes :=
        .land t 8 [.v (vphys c d) (BitVec.ofNat 3072 v) (if half then 1 else lanePair 0)] cnt
      match o.toNat with
      | 0 => let r := redFloat c fp32 0 m x; out false r.1 r.2
      | 1 => let r := redFloat c fp32 1 m x; out false r.1 r.2
      | 2 => let r := redFloat c fp32 2 m x; out false r.1 r.2
      | 3 => let r := redFloat c fp16 0 m x; out true r.1 r.2
      | 4 => let r := redFloat c bf16 0 m x; out true r.1 r.2
      | n => out false (redInt n m x).toNat {}) t) s)

/-- A lane that takes part in an extremum or top-k: bits, logical index, lane number. -/
structure RLane where
  bits : Nat
  idx : Nat
  lane : Nat
  deriving DecidableEq, Repr, Inhabited

/-- Lower logical index, then lower lane. -/
def RLane.lower (a b : RLane) : Bool := decide (a.idx < b.idx) || (a.idx == b.idx && decide (a.lane < b.lane))

/-- `a` ranks before `b`: by `less` on the bits, then by index. -/
def RLane.before (less : Nat → Nat → Bool) (a b : RLane) : Bool :=
  less a.bits b.bits || (!less b.bits a.bits && a.lower b)

/-- Inserts a lane in rank order. -/
def rankInsert (less : Nat → Nat → Bool) (e : RLane) : List RLane → List RLane
  | [] => [e]
  | x :: xs => if e.before less x then e :: x :: xs else x :: rankInsert less e xs

/-- Lanes in rank order. -/
def rank (less : Nat → Nat → Bool) (l : List RLane) : List RLane := l.foldl (fun a e => rankInsert less e a) []

/-- FP32 rank (R193): larger values first, or smaller ones; every NaN behind every number. -/
def floatLess (smallest : Bool) (x y : Nat) : Bool :=
  let a := fp32.val x
  let b := fp32.val y
  if a.isNan then false
  else if b.isNan then true
  else if smallest then FV.lt a b else FV.lt b a

/-- The unmasked lanes of a row, flushed where they are floats, and the events of that. -/
def rlanes (c : Core) (isFloat : Bool) (x : Row) : List RLane × Cnt :=
  let l := ((List.range 96).filter fun i => (vmask c).getLsbD i).map fun i =>
    let v := if isFloat then vin c fp32 (rowLane x i).toNat else ((rowLane x i).toNat, {})
    (({ bits := v.1, idx := (laneIdx c i).toNat, lane := i } : RLane), v.2)
  (l.map Prod.fst, l.foldl (fun (a : Cnt) e => a.plus e.2) {})

/-- `vredx` (R192). -/
def execVredx (h : Hdr) (d a : BitVec 5) (o : BitVec 2) (s : State) : Out :=
  .next (vxWord h (spMove clVxRed d) (fun t =>
    let c := t.cur
    vxReads [a, 31] (vmask c) (fun t =>
      let isFloat := decide (o.toNat < 2)
      let r := rlanes c isFloat (vreg c a)
      let nans := r.1.filter fun e => isFloat && (fp32.val e.bits).isNan
      let less : Nat → Nat → Bool := match o.toNat with
        | 0 => floatLess false
        | 1 => floatLess true
        | 2 => fun p q => decide (sint 32 q < sint 32 p)
        | _ => fun p q => decide (sint 32 p < sint 32 q)
      let none' : Nat := match o.toNat with
        | 0 => redId fp32 1
        | 1 => redId fp32 2
        | 2 => 0x80000000
        | _ => 0x7FFFFFFF
      let (v, i, cnt) := match rank (fun _ _ => false) nans with
        | e :: _ => (fp32.nanBits, e.idx, r.2.plus { nan := 1 })
        | [] => match rank less r.1 with
          | e :: _ => (e.bits, e.idx, r.2)
          | [] => (none', 0xFFFFFFFF, r.2)
      .land t 8 [.v (vphys c d) (BitVec.ofNat 3072 (v + i * 2 ^ 32)) (lanePair 0 ||| lanePair 1)] cnt) t) s)

/-- `vtopk` (R193). -/
def topkWord (smallest : Bool) (h : Hdr) (d a k : BitVec 5) (s : State) : State :=
  vxWord h (spMove clVxRed d) (fun t =>
    let c := t.cur
    vxReads [a, 31] (vmask c) (fun t =>
      let n := k.toNat + 1
      let r := rlanes c true (vreg c a)
      let top := (rank (floatLess smallest) r.1).take n
      let isNan (e : RLane) : Bool := (fp32.val e.bits).isNan
      let missing := if smallest then redId fp32 2 else redId fp32 1
      let val (i : Nat) : Nat := match top[i]? with
        | some e => if isNan e then fp32.nanBits else e.bits
        | none => missing
      let idx (i : Nat) : Nat := match top[i]? with
        | some e => e.idx
        | none => 0xFFFFFFFF
      let row := rowOfLanes fun i =>
        BitVec.ofNat 32 (if i < n then val i else if 48 ≤ i ∧ i < 48 + n then idx (i - 48) else 0)
      let m := halfMaskOf fun j => decide (j / 2 < n) || (decide (48 ≤ j / 2) && decide (j / 2 < 48 + n))
      .land t 8 [.v (vphys c d) row m] (r.2.plus { nan := (top.filter isNan).length })) t) s

/-- `vtopk` (R193). -/
def execVtopk (h : Hdr) (d a k : BitVec 5) (s : State) : Out := .next (topkWord false h d a k s)

/-- `vtopk.min` (R193). -/
def execVtopkMin (h : Hdr) (d a k : BitVec 5) (s : State) : Out := .next (topkWord true h d a k s)

/-! ### Tiles (R163, R194) -/

/-- What `trow` is, for decode. -/
def spTrow (r : BitVec 7) : VxSpec := { cls := clVxTile, slot := 1, bad := decide (96 ≤ r.toNat) }

/-- `trow` (R194). -/
def execTrow (h : Hdr) (r : BitVec 7) (n : BitVec 2) (a : BitVec 5) (s : State) : Out :=
  .next (vxWord h (spTrow r) (fun t =>
    let c := t.cur
    vxReads [a] (vmask c) (fun t => .land t 2 [.tile n.toNat r.toNat (vreg c a) (vmask c)] {}) t) s)

/-- What `tcol` is, for decode. -/
def spTcol (d : BitVec 5) (cc : BitVec 7) : VxSpec := spMove clVxTile d (bad := decide (96 ≤ cc.toNat))

/-- `tcol` (R194): an uncorrectable error in the tile faults at the word that reads it (R367). -/
def execTcol (h : Hdr) (d : BitVec 5) (cc : BitVec 7) (n : BitVec 2) (s : State) : Out :=
  .next (vxWord h (spTcol d cc) (fun t =>
    let x := t.cur.vx
    if x.poisoned.contains (2048 + n.toNat) then .trap t 0xB1 0
    else vecOut t 2 d false fun i => plain (rowLane (smGet 0 x.tiles (96 * n.toNat + i)) cc.toNat).toNat) s)

/-- What `tclr` is, for decode. -/
def spTclr : VxSpec := { cls := clVxTile, slot := 1 }

/-- `tclr` (R194). -/
def execTclr (h : Hdr) (n : BitVec 2) (s : State) : Out :=
  .next (vxWord h spTclr (fun t => .land t 2 [.tclr n.toNat] {}) s)

/-! ### Queues (R195, R164) -/

/-- The tag check of a row (R71): FADDR holds the expected id and the tag found. -/
def tagFault (c : Core) (sc : BitVec 4) (r : QRow) : Option Word :=
  if c.sys.raw = false ∧ r.tag ≠ sc then some (w64 (sc.toNat * 16 + r.tag.toNat)) else none

/-- The head of LQV is removed. -/
def dropLqv (s : State) : State := s.modCur fun c => { c with q := { c.q with lqv := c.q.lqv.drop 1 } }

/-- A row of LQV goes to vD. -/
def popInto (s : State) (d : BitVec 5) (r : QRow) : VxRes :=
  let c := s.cur
  .land (dropLqv s) 2 [.v (vphys c d) r.data (halfMask (vmask c))] {}

/-- `vpop` (R195). -/
def execVpop (h : Hdr) (d : BitVec 5) (sc : BitVec 4) (s : State) : Out :=
  .next (vxWord h (spMove clVxInt d (pop := some .lqv)) (fun t =>
    match t.cur.q.lqv with
    | [] => .now t
    | r :: _ =>
      if r.decoded then .trap t 0x02 0
      else if r.poison then .trap (dropLqv t) 0xB1 0
      else match tagFault t.cur sc r with
        | some f => .trap t 0x42 f
        | none => popInto t d r) s)

/-- What stands behind a failed block is discarded (R171): decoded blocks, decoder work, and input still to come of the
streams whose `ldq` has issued; plain rows are kept. -/
def dropDecoder (c : Core) : Core :=
  { c with
    main := { c.main with rq := c.main.rq.map fun e => match e.kind with
      | .ldq _ true _ => { e with kill := true }
      | _ => e }
    q := { c.q with
      lqv := c.q.lqv.filter fun r => !r.decoded
      zm := []
      lanes := []
      rowsIn := c.q.rowsIn.filter fun r => !r.zm1 } }

/-- `vpopd` (R195, R171). -/
def execVpopd (h : Hdr) (d : BitVec 5) (sc : BitVec 4) (s : State) : Out :=
  .next (vxWord h (spMove clVxDec d (pop := some .lqv)) (fun t =>
    match t.cur.q.lqv with
    | [] => .now t
    | r :: _ =>
      if !r.decoded then .trap t 0x02 0
      else match r.err with
        | some (cause, k) => .trap (t.modCur fun c => dropDecoder c) cause (w64 k)
        | none => match tagFault t.cur sc r with
          | some f => .trap t 0x42 f
          | none => popInto t d r) s)

/-- `vdq` (R195): a row of 48 lanes from DQ goes to the lower or the upper half of vD. -/
def dqWord (hi : Bool) (h : Hdr) (d : BitVec 5) (s : State) : State :=
  vxWord h (spMove clVxInt d (pop := some .dq)) (fun t =>
    let c := t.cur
    match c.q.dq with
    | [] => .now t
    | e :: rest =>
      let row : Row := if hi then e.2 <<< 1536 else e.2
      let m := halfMask (vmask c) &&& halfMaskOf fun j => decide (96 ≤ j) == hi
      .land (t.modCur fun c => { c with q := { c.q with dq := rest } }) 2 [.v (vphys c d) row m] {}) s

/-- `vdq` (R195). -/
def execVdq (h : Hdr) (d : BitVec 5) (s : State) : Out := .next (dqWord false h d s)

/-- `vdq.hi` (R195). -/
def execVdqHi (h : Hdr) (d : BitVec 5) (s : State) : Out := .next (dqWord true h d s)

/-- What a push is, for decode. -/
def spPush (q : VxQueue) : VxSpec := { cls := clVxInt, slot := 1, push := some q }

/-- `vpush` (R195): the whole row, whatever the mask. -/
def execVpush (h : Hdr) (a : BitVec 5) (s : State) : Out :=
  .next (vxWord h (spPush .sq) (fun t =>
    vxReads [a] (BitVec.allOnes 96) (fun t => .land t 1 [.sq (vreg t.cur a)] {}) t) s)

/-- `vaq` (R195). -/
def execVaq (h : Hdr) (a : BitVec 5) (s : State) : Out :=
  .next (vxWord h (spPush .aq) (fun t =>
    vxReads [a] (BitVec.allOnes 96) (fun t => .land t 1 [.aq (vreg t.cur a)] {}) t) s)

/-- `veq` of lanes 1:0 (R195). -/
def execVeq (h : Hdr) (a : BitVec 5) (s : State) : Out :=
  .next (vxWord h (spPush .eq) (fun t =>
    vxReads [a] 3 (fun t => .land t 1 [.eq ((vreg t.cur a).setWidth 64)] {}) t) s)

/-- `veq` of a predicate (R195). -/
def execVeqP (h : Hdr) (p : BitVec 3) (s : State) : Out :=
  .next (vxWord h (spPush .eq) (fun t => .land t 1 [.eq (if vp t.cur p then 1 else 0)] {}) s)

/-! ### Shadow check, statistics (R173, R174, R204, R205) -/

/-- What `vshd` is, for decode. -/
def spShd : VxSpec := { cls := clVxInt, slot := 1 }

/-- `vshd` (R173, R174): the check is made one cycle after the result of the slot-0 word before it lands. -/
def execVshd (h : Hdr) (s : State) : Out :=
  .next (vxWord h spShd (fun t =>
    let c := t.cur
    match c.vx.prod with
    | some p =>
      if p.cycle + 1 = c.cycle then
        .land (t.modVx fun x => { x with checks := x.checks ++ [{ prod := p, vpc := BitVec.ofNat 12 (vxUnit c) }] })
          (p.due + 1 - c.cycle) [.nothing] {}
      else .now t
    | none => .now t) s)

/-- `vstat` (R205). -/
def statWord (clr : Bool) (h : Hdr) (d : BitVec 5) (s : State) : State :=
  vxWord h (spMove clVxInt d) (fun t =>
    let c := t.cur
    if c.sys.det then .trap t 0xE0 0
    else
      let tid := vtidOf c
      let own := c.stats.slots.any fun e => e.1 == tid
      let n := c.stats.get tid
      let v (i : Nat) : Nat :=
        match i with
        | 0 => n.sat
        | 1 => n.ftz
        | 2 => n.nan
        | 3 => n.len
        | 4 => if own then 1 else 0
        | _ => 0
      let t := if clr then
          t.modCur fun c => { c with stats := { c.stats with slots := c.stats.slots.map fun e => if e.1 = tid then (tid, {}) else e } }
        else t
      vecOut t 2 d false fun i => plain (v i)) s

/-- `vstat` (R205). -/
def execVstat (h : Hdr) (d : BitVec 5) (s : State) : Out := .next (statWord false h d s)

/-- `vstat.clr` (R205). -/
def execVstatClr (h : Hdr) (d : BitVec 5) (s : State) : Out := .next (statWord true h d s)

/-! ### The ZM1 decoder (R166-R171) -/

/-- The bytes of the rows of a stream that have arrived, from a position. -/
def zmByte (z : ZStream) (i : Nat) : Nat :=
  match z.rows[i / 384]? with
  | some r => (rowByte r.data (i % 384)).toNat
  | none => 0

/-- n little-endian bytes of a stream. -/
def zmNat (z : ZStream) (i n : Nat) : Nat := leNat ((List.range n).map fun k => BitVec.ofNat 8 (zmByte z (i + k)))

/-- Runs of KIND 0x01 (R168), from the payload bytes left: the output, or none where the payload is not consumed exactly when
the output reaches 384 bytes. -/
def zmRuns : Nat → List Nat → List Nat → Option (List Nat)
  | 0, _, _ => none
  | fuel + 1, inp, out =>
    match inp with
    | [] => if out.length = 384 then some out else none
    | c :: rest =>
      if 384 ≤ out.length then none
      else if c < 128 then
        (if rest.length < c + 1 then none else zmRuns fuel (rest.drop (c + 1)) (out ++ rest.take (c + 1)))
      else zmRuns fuel rest (out ++ List.replicate (c - 127) 0)

/-- LEN and KIND are consistent (R166). -/
def zmLenOk (kind len : Nat) : Bool :=
  if kind = 0 then len == 384 else if kind = 2 then len == 4 else true

/-- What is found at the position of a stream: nothing yet; a pad, and where the stream goes on; the stream's end; or a block,
with where the stream goes on, the cycles it takes, its row, and whether the stream can be followed past it. -/
inductive ZFind where
  | wait
  | pad (pos : Nat)
  | finished
  | block (pos cycles : Nat) (row : QRow) (last : Bool)
  deriving DecidableEq, Repr

/-- The cycles that a block of LEN payload bytes takes (R170). -/
def zmCycles (len : Nat) : Nat := max 6 (ceilDiv (8 + len) 32)

/-- The next item of a stream (R166-R170), with the ratio bound B. DESIGN CHOICE (log entry 60): a block whose header is cut off
by the end of its stream, or is poisoned, has no LEN and takes the least time, 6 cycles. -/
def zmNext (z : ZStream) (bound : Nat) : ZFind :=
  let size := 384 * z.total
  let have_ := 384 * z.rows.length
  let p := z.pos
  let tag := match z.rows[p / 384]? with
    | some r => r.tag
    | none => 0
  let pois (n : Nat) : Bool := (List.range n).any fun i => match z.rows[(p + i) / 384]? with
    | some r => r.poison
    | none => false
  let fail (cause pos n cycles : Nat) (last : Bool) : ZFind :=
    .block pos cycles { tag := tag, decoded := true, err := some (if pois n then 0xB1 else cause, z.k), po := some z.po } last
  if size ≤ p then .finished
  else if size < p + 8 then (if size ≤ have_ then fail 0x6D size (size - p) 6 true else .wait)
  else if have_ < p + 8 then .wait
  else
    let hdr := zmNat z p 8
    let len := nbits hdr 0 16
    let kind := nbits hdr 16 8
    let res := nbits hdr 24 8
    let crc := nbits hdr 32 32
    let stop := p + 8 + len
    let n := min (8 + len) (size - p)
    if pois 8 then fail 0x6D size 8 6 true
    else if kind = 0xFF ∧ res = 0 ∧ len = 0 ∧ crc = 0 then .pad (384 * ((p + 7) / 384 + 1))
    else if have_ < p + n then .wait
    else if res ≠ 0 ∨ 2 < kind ∨ zmLenOk kind len = false ∨ size < stop then fail 0x6D size n (zmCycles len) true
    else if bound * (8 + len) < 384 then fail 0x6C stop n (zmCycles len) false
    else
      let payload := (List.range len).map fun i => zmByte z (p + 8 + i)
      let out : Option (List Nat) :=
        if kind = 0 then some payload
        else if kind = 2 then some ((List.range 384).map fun i => payload.getD (i % 4) 0)
        else zmRuns 400 payload []
      let cycles := zmCycles len
      let bytes : List Byte := (out.getD []).map fun b => BitVec.ofNat 8 b
      if pois n || out.isNone || (crc32c bytes).toNat != crc then
        .block stop cycles { tag := tag, decoded := true, err := some (if pois n then 0xB1 else 0x6D, z.k), po := some z.po } false
      else .block stop cycles { data := rowOfList bytes, tag := tag, decoded := true, po := some z.po } false

/-- Blocks in the order of their numbers. -/
def zmInsert (b : ZBlock) : List ZBlock → List ZBlock
  | [] => [b]
  | x :: xs => if b.k < x.k then b :: x :: xs else x :: zmInsert b xs

/-- Lets the decoder take every block that can start now (R170): a lane's next block starts when its bytes have arrived and the
lane is free, whatever the other lanes do. `front` is the place of the first block that has to wait. The decoder keeps any number
of finished rows that LQV has no room for (DESIGN CHOICE, log entry 60). -/
def zmTake (now bound : Nat) : Nat → ZStream → Option (Nat × Nat) → SMap Nat → ZStream × SMap Nat
  | 0, z, front, lanes => (zmStop z front, lanes)
  | fuel + 1, z, front, lanes =>
    match zmNext z bound with
    | .wait => (zmStop z front, lanes)
    | .finished => (zmStop z front, lanes)
    | .pad p => zmTake now bound fuel { z with pos := p } front lanes
    | .block p cycles row last =>
      let lane := z.k % 4
      let next : ZStream := { z with pos := if last then 384 * z.total else p, k := z.k + 1 }
      if z.out.any fun b => b.k == z.k then zmTake now bound fuel next front lanes
      else if now < smGet 0 lanes lane then zmTake now bound fuel next (some (front.getD (z.pos, z.k))) lanes
      else zmTake now bound fuel { next with out := zmInsert { k := z.k, ready := now + cycles, row := row } z.out } front
        (smPut lanes lane (now + cycles))
where
  /-- The stream stands at the first block that has to wait, or where the search has ended. -/
  zmStop (z : ZStream) (front : Option (Nat × Nat)) : ZStream :=
    match front with
    | some (p, k) => { z with pos := p, k := k }
    | none => z

/-- Rows that are ready leave the first stream for LQV, in the order of their blocks, while it holds fewer than `room` rows; `k` is the
first block not taken. -/
def zmOut (room now k : Nat) : List ZBlock → List QRow → List ZBlock × List QRow
  | [], q => ([], q)
  | b :: bs, q => if b.k < k ∧ b.ready ≤ now ∧ q.length < room then zmOut room now k bs (q ++ [b.row]) else (b :: bs, q)

/-- A stream with all its rows in and all its blocks delivered. -/
def zmOver (z : ZStream) : Bool := z.out.isEmpty && z.rows.length == z.total && decide (384 * z.total ≤ z.pos)

/-- Streams before the first unfinished one leave; its ready rows go to LQV (R170). -/
def zmDeliver (room now : Nat) : List ZStream → List QRow → List ZStream × List QRow
  | [], q => ([], q)
  | z :: zs, q =>
    let r := zmOut room now z.k z.out q
    let z := { z with out := r.1 }
    if zmOver z then zmDeliver room now zs r.2 else (z :: zs, r.2)

/-- One cycle of the decoder: blocks of the streams in order, then deliveries. DEDUCED (log entry 60): the entries that issued plain `ldq`
words hold are not free to it, so that their rows never wait for room (05_ap_model.md R108). -/
def zmCycle (c : Core) : Core :=
  let b := wbits c.vx.zcfg 0 6
  let bound := if b = 0 then 64 else b
  let taken := c.q.zm.foldl
    (fun (a : List ZStream × SMap Nat) z =>
      let r := zmTake c.cycle bound (z.total * 48 + 1) z none a.2
      (a.1 ++ [r.1], r.2)) ([], c.q.lanes)
  let out := zmDeliver (64 - reserved c false false) c.cycle taken.1 c.q.lqv
  { c with q := { c.q with zm := out.1, lanes := taken.2, lqv := out.2 } }

/-- ZM1_BLOCK_DECODE (R166-R171): the decoder's work of one core cycle. -/
def execZm1BlockDecode (core : Nat) (s : State) : Out :=
  let c := s.core core
  .next (if c.alive && !c.frozen then s.setCore core (zmCycle c) else s)

end Sys2Proof.Machine
end

