-- ==== Sys2Proof/Machine/VxControl.lean ====
section
/-!
DEFINITION. The VXE's slot-2 words: votes and masks, branches and loops, configuration, `vtrap` (08_vxe_instr.md R196-R198,
R201, R206), `vnop` and `vext` (02_encoding.md R36), and calls (R199, R200).
-/

namespace Sys2Proof.Machine

/-! ### Votes, masks, predicates (R196) -/

/-- What `vany` and `vall` are, for decode. -/
def spVote (d : BitVec 3) : VxSpec := { cls := clVxInt, slot := 2, dP := some d }

/-- `vany` (R196). -/
def execVany (h : Hdr) (d a : BitVec 3) (s : State) : Out :=
  .next (vxWord h (spVote d) (fun t => .land t 1 [.p d.toNat (vq t.cur a != 0)] {}) s)

/-- `vall` (R196). -/
def execVall (h : Hdr) (d a : BitVec 3) (s : State) : Out :=
  .next (vxWord h (spVote d) (fun t => .land t 1 [.p d.toNat (vq t.cur a == BitVec.allOnes 96)] {}) s)

/-- What `qlog` is, for decode. -/
def spQlog (d : BitVec 3) : VxSpec := { cls := clVxInt, slot := 2, dQ := [d] }

/-- `qlog` (R196). -/
def execQlog (h : Hdr) (cc d a b : BitVec 3) (s : State) : Out :=
  .next (vxWord h (spQlog d) (fun t =>
    .land t 1 [.q d.toNat (maskFn cc.toNat (vq t.cur a) (vq t.cur b)) (BitVec.allOnes 96)] {}) s)

/-- What a control word without destinations is, for decode. -/
def spControl (imm bad : Bool := false) : VxSpec := { cls := clVxInt, slot := 2, imm := imm, bad := bad }

/-- `vmsk` (R196, R161): the lane mask of slots 0 and 1 of its bundle. -/
def execVmsk (h : Hdr) (a : BitVec 3) (s : State) : Out :=
  .next (vxWord h spControl (fun t =>
    .land (t.modCur fun c => { c with vc := { c.vc with mask := some (vq c a) } }) 1 [.nothing] {}) s)

/-- `plog` of the VXE (R196). -/
def execVxPlog (h : Hdr) (cc d a b : BitVec 3) (s : State) : Out :=
  .next (vxWord h (spVote d) (fun t => .land t 1 [.p d.toNat (predFn cc.toNat (vp t.cur a) (vp t.cur b))] {}) s)

/-! ### Branches and loops (R197, R198) -/

/-- Sends VPC to a bundle address; one outside the memory is kept for the fetch that faults. -/
def Vx.goto (x : Vx) (t : Word) : Vx :=
  if t.toNat < 4096 then { x with vpc := BitVec.ofNat 12 t.toNat, bad := none } else { x with bad := some t }

/-- The control word of the bundle has set VPC. -/
def vxJumped (s : State) : State := s.modCur fun c => { c with vc := { c.vc with jumped := true } }

/-- `vbprep` (R197). -/
def execVbprep (h : Hdr) (n : BitVec 1) (i : BitVec 11) (s : State) : Out :=
  .next (vxWord h (spControl (imm := true)) (fun t =>
    .land t 1 [.vb n.toNat (wordOfInt ((t.cur.vx.vpc.toNat : Int) + vimmS t.cur i))] {}) s)

/-- The effect of a taken `vbxfer` (R197, R114). -/
def takeVBranch (n : BitVec 1) (d : BitVec 2) (s : State) : State :=
  let target := smGet 0 s.cur.vx.vb n.toNat
  vxJumped (s.modVx fun x =>
    let x := { x with hold := s.cur.cycle + 3, brFrom := some x.vpc }
    if d = 0 then x.goto target
    else ({ x with br := some ⟨d.toNat, target⟩ } : Vx).goto (w64 (x.vpc.toNat + 1)))

/-- `vbxfer` (R197). -/
def execVbxfer (h : Hdr) (n : BitVec 1) (d : BitVec 2) (s : State) : Out :=
  .next (vxWord h spControl (fun t =>
    if t.cur.vx.br.isSome then .trap t 0x0A 0 else .now (takeVBranch n d t)) s)

/-- What `vlset` is, for decode: imm[5:0] must not be zero, nor the count above 2^32 - 1, and with D[4] = 1
the count must be zero (R198). -/
def spVlset (c : Core) (cc : BitVec 1) (i : BitVec 11) : VxSpec :=
  let v := vimmU c i
  spControl (imm := true)
    (bad := decide (v % 64 = 0) || (if cc = 1 then decide (v / 64 ≠ 0) else decide (0xFFFFFFFF < v / 64)))

/-- `vlset` (R198, R116). DESIGN CHOICE (log entry 56): 0x0A comes before the 0x02 of a body past bundle 4,095, and both before 0x0B. -/
def execVlset (h : Hdr) (cc : BitVec 1) (n : BitVec 2) (i : BitVec 11) (s : State) : Out :=
  .next (vxWord h (spVlset s.cur cc i) (fun t =>
    let c := t.cur
    let v := vimmU c i
    let first := c.vx.vpc.toNat + 1
    let last := c.vx.vpc.toNat + v % 64
    let count := if cc = 1 then (rowLane (vreg c 0) 0).toNat else v / 64
    let body (t : State) : VxRes :=
      if c.vx.br.isSome then .trap t 0x0A 0
      else if 4095 < last then .trap t 0x02 0
      else if nestBad c.vx.loops n.toNat first last then .trap t 0x0B 0
      else
        let u := t.modVx fun x =>
          { x with loops := smSet ⟨0, 0, 0⟩ x.loops n.toNat ⟨BitVec.ofNat 32 count, BitVec.ofNat 14 first, BitVec.ofNat 14 last⟩ }
        if count = 0 then .now (u.modCur fun c => { c with vc := { c.vc with skip := some (last + 1) } }) else .now u
    if cc = 1 then vxReads [0] 1 body t else body t) s)

/-- `vret` (R199): the stream stands at it until VXE_CALL_TAKE. -/
def execVret (h : Hdr) (s : State) : Out :=
  .next (vxWord h spControl (fun t => if t.cur.vx.br.isSome then .trap t 0x0A 0 else .ret t) s)

/-! ### Configuration (R201, R158, R66, R167) -/

/-- Register codes of `vwin`: a value it refuses. -/
def vwinBad (r v : Nat) : Bool :=
  decide (2 ^ 32 ≤ v)
    || match r with
      | 0 => decide (63 < v)
      | 1 => nbits v 6 1 != 0 || nbits v 15 17 != 0
      | 2 => decide (5 < v)
      | 3 => decide (1 < v)
      | 4 => decide (3 < v)
      | 5 => decide (2 ^ 24 ≤ v)
      | 6 => false
      | 7 => false
      | 8 => decide (63 < v)
      | _ => true

/-- What `vwin` is, for decode. -/
def spVwin (c : Core) (r : BitVec 5) (i : BitVec 11) : VxSpec := spControl (imm := true) (bad := vwinBad r.toNat (vimmU c i))

/-- `vwin` (R201). -/
def execVwin (h : Hdr) (r : BitVec 5) (i : BitVec 11) (s : State) : Out :=
  .next (vxWord h (spVwin s.cur r i) (fun t => .land t 1 [.cfg r.toNat (w64 (vimmU t.cur i))] {}) s)

/-! ### `vtrap`, `vnop`, `vext` (R206, R36) -/

/-- `vtrap` (R206). -/
def execVtrap (h : Hdr) (i : BitVec 11) (s : State) : Out :=
  .next (vxWord h (spControl (imm := true)) (fun t => .trap t 0x09 (w64 (vimmU t.cur i))) s)

/-- What `vnop` is, for decode. -/
def spVnop : VxSpec := { cls := clVxInt, slot := 3 }

/-- `vnop` (R36). -/
def execVnop (h : Hdr) (s : State) : Out := .next (vxWord h spVnop (fun t => .now t) s)

/-- The check of a `vext` at decode (R36): a third one, or one after a wrong one. A use that is wrong by itself is reported by the
next bundle, before the capability checks (R26); one that the next bundle shows to be wrong, likewise (`slotFault`). -/
def vextFault (bad : Bool) (c : Core) (slot : Nat) : Option Nat :=
  if 2 ≤ (smGet [] c.vx.ext slot).length ∨ c.vx.extBad.contains slot then some 0x04
  else if bad then none
  else if !c.sys.oum.getLsbD clVxInt then some 0x06
  else if !c.sys.ccm.getLsbD clVxInt then some 0x07
  else none

/-- The bits of a `vext` wait for the same slot of the next bundle; a unit that a taken branch splits (R31) is wrong. -/
def Vx.extend (x : Vx) (slot : Nat) (bad : Bool) (i : BitVec 16) : Vx :=
  let split := match x.br with
    | some b => decide (b.left ≤ 1)
    | none => false
  let e := smGet [] x.ext slot
  { x with
    ext := smPut x.ext slot (e ++ [i])
    extAt := if e = [] then smPut x.extAt slot x.vpc.toNat else x.extAt
    extBad := if bad || split then slot :: x.extBad else x.extBad }

/-- A `vext` stands in the END bundle of an active loop (R198). -/
def Vx.extAtEnd (x : Vx) : Bool := x.br.isNone && !(loopsAt x.loops x.vpc.toNat).isEmpty

/-- A `vext` (R36, R198); `bad`: bits 31:23 are set. -/
def vextWord (bad : Bool) (i : BitVec 16) (s : State) : State :=
  let slot := s.cur.vc.slot
  match vextFault bad s.cur slot with
  | some f => vxFault s f (w64 slot)
  | none =>
    if s.cur.vx.extAtEnd then (if bad then vxFault s 0x04 (w64 slot) else vxFault s 0x0B 0)
    else s.modVx fun x => x.extend slot bad i

/-- `vext` (R36). -/
def execVext (i : BitVec 16) (s : State) : Out := .next (vextWord false i s)

/-! ### Calls (R199, R200) -/

/-- An enqueued call (R200). -/
def callWord (seed : Bool) (h : Hdr) (a b : BitVec 5) (s : State) : State :=
  apWord h { cls := clAlu, cmd := true } (fun t =>
    let target := xr t a
    if 4095 < target.toNat then .trap 0x02 none
    else if 8 ≤ t.cur.vx.calls.length then .stall 8 t
    else
      let call : Call := { seq := t.cur.cmdSeq, target := target.toNat, arg := xr t b, seed := seed }
      .done (issueCmd (t.modVx fun x => { x with calls := x.calls ++ [call] }) .vx 0 { op := 0, regs := [target, xr t b] } [])) s

/-- `vxcall` (R200). -/
def execVxcall (h : Hdr) (a b : BitVec 5) (s : State) : Out := .next (callWord false h a b s)

/-- `vxcall.seed` (R200). -/
def execVxcallSeed (h : Hdr) (a b : BitVec 5) (s : State) : Out := .next (callWord true h a b s)

/-- `vxwait` (R200). -/
def execVxwait (h : Hdr) (s : State) : Out :=
  .next (apWord h { cls := clAlu } (fun t => waitFor (engCount t.cur (fun e => e == .vx) == 0) t) s)

/-- A call's argument is delivered (R199): to lanes 0 and 1 of v0 as it is named now, or to VSEED. -/
def deliverArg (c : Core) (call : Call) : Core :=
  if call.seed then { c with vx := { c.vx with vseed := call.arg } }
  else { c with vx := writePhys c.vx c.cycle c.vc.order (vphys c 0) (call.arg.setWidth 3072) (lanePair 0 ||| lanePair 1) }

/-- VXE_CALL_TAKE (R199): at a `vret`, once the results of earlier bundles have landed and no push is held, the active call
retires, and the next one is taken when there is one. -/
def execVxeCallTake (core : Nat) (s : State) : Out :=
  let c := s.core core
  .next (
    if !c.alive || c.frozen || !c.vc.atRet || decide (c.cycle < c.vx.busy) then s
    else if (c.vx.fly.any fun f => decide (f.order < c.vc.order)) || pushHeld c .vx || !landedFit c then
      s.setCore core { c with vx := { c.vx with stall := 4 } }
    else
      let s := s.setCore core { c with vx := { c.vx with active := none } }
      let s := match c.vx.active.bind c.cmd? with
        | some m => retireCmd s core m 1 0 0
        | none => s
      let c := s.core core
      match c.vx.calls with
      | [] => s.setCore core { c with vx := { c.vx with stall := 3 } }
      | call :: rest =>
        let ready := match c.cmd? call.seq with
          | some m => decide (m.at_ ≤ c.cycle)
          | none => true
        if !ready then s.setCore core { c with vx := { c.vx with stall := 3 } }
        else
          let c := deliverArg c call
          let x := { c.vx with calls := rest, active := some call.seq, vpc := BitVec.ofNat 12 call.target, stall := 0,
                               brFrom := none, bad := none }
          s.setCore core { c with vx := x, vc := { c.vc with atRet := false } })

/-! ### VPC (R197, R198, R159) -/

/-- The loop among those examined that branches back, if one does (R116). -/
def loopBack : List Nat → SMap Loop → Option Nat
  | [], _ => none
  | n :: ns, m => if 1 < (smGet ⟨0, 0, 0⟩ m n).count.toNat then some n else loopBack ns m

/-- The window base that an iteration end computes, where it advances the window (R159). -/
def windowNext (x : Vx) : Option Int :=
  if x.br.isSome then none
  else match loopBack (loopsAt x.loops x.vpc.toNat) x.loops with
    | none => none
    | some n =>
      if wbits x.vwb 11 1 = 1 ∧ wbits x.vwb 12 2 = n then some ((wbits x.vwb 0 6 : Int) + sint 4 (wbits x.vwb 7 4)) else none

/-- The window base leaves the register file and does not wrap: 0x69 (R159). -/
def windowFault (x : Vx) : Option Int :=
  match windowNext x with
  | some b => if (b < 0 ∨ 63 < b) ∧ wbits x.vwb 14 1 = 0 then some b else none
  | none => none

/-- VPC after a bundle that has not set it itself: a delay bundle counts down to the transfer; otherwise the loops are
examined, and the window advances at an iteration end. -/
def Vx.advance (x : Vx) : Vx :=
  let seq := w64 (x.vpc.toNat + 1)
  match x.br with
  | some b =>
    if b.left ≤ 1 then ({ x with br := none } : Vx).goto b.target
    else ({ x with br := some { b with left := b.left - 1 } } : Vx).goto seq
  | none =>
    let vwb := match windowNext x with
      | some b => (x.vwb &&& ~~~0x3F) ||| BitVec.ofNat 32 ((b % 64).toNat)
      | none => x.vwb
    match loopRun (loopsAt x.loops x.vpc.toNat) x.loops with
    | (m, some st) => ({ x with loops := m, vwb := vwb, brFrom := none } : Vx).goto (st.zeroExtend 64)
    | (m, none) => ({ x with loops := m, brFrom := none } : Vx).goto seq

end Sys2Proof.Machine
end

