-- ==== Sys2Proof/Machine/Illegal.lean ====
section
/-!
DEFINITION. Words that no card describes (02_encoding.md R23, R26, R28, R30-R40): a reserved opcode, and an encoding that its
card forbids. Either is a decode fault of the word, before any pop.
-/

namespace Sys2Proof.Machine

/-- The opcode of a word (R22). -/
def opOf (w : BitVec 32) : Nat := wbits w 16 7
/-- VS of a word. -/
def vsOf (w : BitVec 32) : Nat := wbits w 26 2

/-! ### The decode fault of such a word, in the order of R26 -/

/-- AP opcodes whose immediate `ext` words extend (R30, R133, R141). -/
def apTakesExt (op : Nat) : Bool :=
  (decide (0x20 ≤ op) && decide (op ≤ 0x27)) || [0x31, 0x38, 0x3B, 0x78, 0x7A, 0x7B].contains op

/-- The slot class of a VXE opcode (R33, R40); 3 is any slot, none is reserved. -/
def vxSlotOf (op : Nat) : Option Nat :=
  let from_ (a b : Nat) : Bool := decide (a ≤ op) && decide (op ≤ b)
  if from_ 0x00 0x0C || from_ 0x10 0x1C || from_ 0x20 0x2C || from_ 0x30 0x3F || from_ 0x40 0x44 || from_ 0x70 0x71 then some 0
  else if from_ 0x48 0x4A || from_ 0x4C 0x4E || from_ 0x50 0x52 || from_ 0x58 0x5D || op == 0x74 || op == 0x78 then some 1
  else if from_ 0x60 0x64 || from_ 0x68 0x6C || op == 0x7D then some 2
  else if op = 0x7C ∨ op = 0x7F then some 3
  else none

/-- VXE opcodes that take an immediate (R33). -/
def vxTakesImm (op : Nat) : Bool := [0x3E, 0x3F, 0x68, 0x6A, 0x6C, 0x7D].contains op

/-- The fault of an AP word with a reserved opcode, or with fields that its card forbids. -/
def apIllegal (w : BitVec 32) (reserved : Bool) (c : Core) : Nat :=
  if 2 ≤ vsOf w then 0x03
  else if reserved then 0x01
  else if c.ctx.ext ≠ [] ∧ (!apTakesExt (opOf w) ∨ c.ctx.extBad) then 0x04
  else 0x02

/-- The fault of such an MXE word; the stream has no extension words (R39). -/
def mxIllegal (w : BitVec 32) (reserved : Bool) : Nat :=
  if 2 ≤ vsOf w then 0x03 else if reserved then 0x01 else 0x02

/-- The fault of such a word in a slot of a bundle. -/
def vxIllegal (w : BitVec 32) (reserved : Bool) (c : Core) (slot : Nat) : Nat :=
  if 2 ≤ vsOf w then 0x03
  else if reserved then 0x01
  else if (match vxSlotOf (opOf w) with | some k => k != 3 && k != slot | none => false) then 0x05
  else if smGet [] c.vx.ext slot ≠ [] ∧ (!vxTakesImm (opOf w) ∨ c.vx.extBad.contains slot) then 0x04
  else 0x02

/-! ### Meanings -/

/-- ILLEGAL_OPCODE (R37, R39, R40): a word with a reserved opcode. -/
def execIllegalOpcode (st : Stream) (w : BitVec 32) (s : State) : Out :=
  .next (match st with
    | .ap => apFault s (apIllegal w true s.cur) none
    | .mx => mxFaultAt s s.turn.1 s.cur.mx.mpc (mxIllegal w true) none
    | .vx => vxFault s (vxIllegal w true s.cur s.cur.vc.slot) (w64 s.cur.vc.slot))

/-- ILLEGAL_FIELD (R28, R31, R36): a word with fields that its card forbids; an `ext` or `vext` with bits 31:23 set is reported
by the word that follows it, unless its VS is reserved (R23). -/
def execIllegalField (st : Stream) (w : BitVec 32) (s : State) : Out :=
  .next (match st with
    | .ap => if opOf w = 0x7F ∧ vsOf w < 2 then extWord true (w.setWidth 16) s else apFault s (apIllegal w false s.cur) none
    | .mx => mxFaultAt s s.turn.1 s.cur.mx.mpc (mxIllegal w false) none
    | .vx => if opOf w = 0x7F ∧ vsOf w < 2 then vextWord true (w.setWidth 16) s
             else vxFault s (vxIllegal w false s.cur s.cur.vc.slot) (w64 s.cur.vc.slot))

end Sys2Proof.Machine
end

