-- ==== Sys2Proof/Machine/Dispatch.lean ====
section
/-!
DEFINITION. The meaning of every instruction and step, one arm each.
-/

namespace Sys2Proof.Machine

def exec (i : Instr) (s : State) : Host.Outcome State Fault Refusal :=
  match i with
  | .submission vf rec ideT => Sys2Proof.Machine.execSubmission vf rec ideT s
  | .scoreboardEntry place => Sys2Proof.Machine.execScoreboardEntry place s
  | .streamCopy rid => Sys2Proof.Machine.execStreamCopy rid s
  | .regionIssue rid place => Sys2Proof.Machine.execRegionIssue rid place s
  | .preemption rid => Sys2Proof.Machine.execPreemption rid s
  | .timebExpiry rid => Sys2Proof.Machine.execTimebExpiry rid s
  | .regionCompletion rid => Sys2Proof.Machine.execRegionCompletion rid s
  | .dualRunCompare rid => Sys2Proof.Machine.execDualRunCompare rid s
  | .capabilityFence core cls => Sys2Proof.Machine.execCapabilityFence core cls s
  | .inFieldTest core pass => Sys2Proof.Machine.execInFieldTest core pass s
  | .queueWatchdogExpiry part => Sys2Proof.Machine.execQueueWatchdogExpiry part s
  | .functionLevelReset part => Sys2Proof.Machine.execFunctionLevelReset part s
  | .tokenDeadlock core => Sys2Proof.Machine.execTokenDeadlock core s
  | .lateReply core => Sys2Proof.Machine.execLateReply core s
  | .lateReplyFreeze core => Sys2Proof.Machine.execLateReplyFreeze core s
  | .readReplyArrival core => Sys2Proof.Machine.execReadReplyArrival core s
  | .readPerformed core ecc => Sys2Proof.Machine.execReadPerformed core ecc s
  | .writePerformed core => Sys2Proof.Machine.execWritePerformed core s
  | .ldqRowEntry core lqm => Sys2Proof.Machine.execLdqRowEntry core lqm s
  | .translationWalk core => Sys2Proof.Machine.execTranslationWalk core s
  | .handlerDelivery core => Sys2Proof.Machine.execHandlerDelivery core s
  | .handlerStart core => Sys2Proof.Machine.execHandlerStart core s
  | .eccCorrected at_ => Sys2Proof.Machine.execEccCorrected at_ s
  | .eccFreezeEnd core => Sys2Proof.Machine.execEccFreezeEnd core s
  | .retentionEntry core => Sys2Proof.Machine.execRetentionEntry core s
  | .retentionExit core bad => Sys2Proof.Machine.execRetentionExit core bad s
  | .engineCommandStart core seq => Sys2Proof.Machine.execEngineCommandStart core seq s
  | .bteCommandRetire core seq mv => Sys2Proof.Machine.execBteCommandRetire core seq mv s
  | .bteRowEntry core seq => Sys2Proof.Machine.execBteRowEntry core seq s
  | .bteOverlayWrite core cmd => Sys2Proof.Machine.execBteOverlayWrite core cmd s
  | .linkPutDelivery core seq n => Sys2Proof.Machine.execLinkPutDelivery core seq n s
  | .linkGetComplete core seq n => Sys2Proof.Machine.execLinkGetComplete core seq n s
  | .linkCommandRetire core seq => Sys2Proof.Machine.execLinkCommandRetire core seq s
  | .barrierComplete rid => Sys2Proof.Machine.execBarrierComplete rid s
  | .reductionComplete rid order => Sys2Proof.Machine.execReductionComplete rid order s
  | .gatherItemPlace core seq rank => Sys2Proof.Machine.execGatherItemPlace core seq rank s
  | .abortNotice core att => Sys2Proof.Machine.execAbortNotice core att s
  | .cxMemberLost rid m => Sys2Proof.Machine.execCxMemberLost rid m s
  | .sdCommandRetire core seq => Sys2Proof.Machine.execSdCommandRetire core seq s
  | .wlBarrierComplete rid => Sys2Proof.Machine.execWlBarrierComplete rid s
  | .regionBarrierComplete rid withdraw add => Sys2Proof.Machine.execRegionBarrierComplete rid withdraw add s
  | .rgNextAnswer core => Sys2Proof.Machine.execRgNextAnswer core s
  | .quernPhaseEnd cluster => Sys2Proof.Machine.execQuernPhaseEnd cluster s
  | .quernSweepEnd cluster => Sys2Proof.Machine.execQuernSweepEnd cluster s
  | .quernColourCheck cluster => Sys2Proof.Machine.execQuernColourCheck cluster s
  | .quernCommandRetire cluster => Sys2Proof.Machine.execQuernCommandRetire cluster s
  | .quernRelease cluster => Sys2Proof.Machine.execQuernRelease cluster s
  | .mxStagedWriteApply core => Sys2Proof.Machine.execMxStagedWriteApply core s
  | .mxRoutineStart core => Sys2Proof.Machine.execMxRoutineStart core s
  | .mxRoutineRetire core => Sys2Proof.Machine.execMxRoutineRetire core s
  | .mxWordFinish core => Sys2Proof.Machine.execMxWordFinish core s
  | .mxDrainRow core => Sys2Proof.Machine.execMxDrainRow core s
  | .mxReplay core tile => Sys2Proof.Machine.execMxReplay core tile s
  | .zm1BlockDecode core => Sys2Proof.Machine.execZm1BlockDecode core s
  | .vxeCallTake core => Sys2Proof.Machine.execVxeCallTake core s
  | .apResultLanding core => Sys2Proof.Machine.execApResultLanding core s
  | .vxResultLanding core => Sys2Proof.Machine.execVxResultLanding core s
  | .shadowCheck core badLanes => Sys2Proof.Machine.execShadowCheck core badLanes s
  | .hostAtomic part op size gpa operand cmp => Sys2Proof.Machine.execHostAtomic part op size gpa operand cmp s
  | .hostMemoryRequest part gpa len wr => Sys2Proof.Machine.execHostMemoryRequest part gpa len wr s
  | .vfstatWrite vf v ideT => Sys2Proof.Machine.execVfstatWrite vf v ideT s
  | .s1rootWrite vf v ideT => Sys2Proof.Machine.execS1rootWrite vf v ideT s
  | .pthbWrite vf v ideT => Sys2Proof.Machine.execPthbWrite vf v ideT s
  | .pthlWrite vf v ideT => Sys2Proof.Machine.execPthlWrite vf v ideT s
  | .qwdWrite vf v ideT => Sys2Proof.Machine.execQwdWrite vf v ideT s
  | .vfRegisterWrite vf off v ideT => Sys2Proof.Machine.execVfRegisterWrite vf off v ideT s
  | .vfPageBadAccess vf => Sys2Proof.Machine.execVfPageBadAccess vf s
  | .dbgkeyWrite vf idx v ideT => Sys2Proof.Machine.execDbgkeyWrite vf idx v ideT s
  | .dbgcmdSubmit vf ideT => Sys2Proof.Machine.execDbgcmdSubmit vf ideT s
  | .dbgcmdLock vf ideT => Sys2Proof.Machine.execDbgcmdLock vf ideT s
  | .dbgcmdInvalid vf v ideT => Sys2Proof.Machine.execDbgcmdInvalid vf v ideT s
  | .dbgdataRead reg => Sys2Proof.Machine.execDbgdataRead reg s
  | .lockInterfaceRequest vf => Sys2Proof.Machine.execLockInterfaceRequest vf s
  | .startInterfaceRequest vf => Sys2Proof.Machine.execStartInterfaceRequest vf s
  | .stopInterfaceRequest vf => Sys2Proof.Machine.execStopInterfaceRequest vf s
  | .getDeviceInterfaceReport vf => Sys2Proof.Machine.execGetDeviceInterfaceReport vf s
  | .ideIntegrityFailure vf => Sys2Proof.Machine.execIdeIntegrityFailure vf s
  | .ideKm stream => Sys2Proof.Machine.execIdeKm stream s
  | .getMeasurements vf => Sys2Proof.Machine.execGetMeasurements vf s
  | .powerOn badSig failed => Sys2Proof.Machine.execPowerOn badSig failed s
  | .partitionRequest req => Sys2Proof.Machine.execPartitionRequest req s
  | .powerCapSet watts => Sys2Proof.Machine.execPowerCapSet watts s
  | .monitorSample die reading slow drift => Sys2Proof.Machine.execMonitorSample die reading slow drift s
  | .thermalShutdown => Sys2Proof.Machine.execThermalShutdown s
  | .laneFailure lanes => Sys2Proof.Machine.execLaneFailure lanes s
  | .tlbiPage core => Sys2Proof.Machine.execTlbiPage core s
  | .tlbiStage1 core => Sys2Proof.Machine.execTlbiStage1 core s
  | .eccinjArm core v => Sys2Proof.Machine.execEccinjArm core v s
  | .nop h => Sys2Proof.Machine.execNop h s
  | .add h d a b => Sys2Proof.Machine.execAdd h d a b s
  | .sub h d a b => Sys2Proof.Machine.execSub h d a b s
  | .and h d a b => Sys2Proof.Machine.execAnd h d a b s
  | .or h d a b => Sys2Proof.Machine.execOr h d a b s
  | .xor h d a b => Sys2Proof.Machine.execXor h d a b s
  | .andn h d a b => Sys2Proof.Machine.execAndn h d a b s
  | .shl h d a b => Sys2Proof.Machine.execShl h d a b s
  | .shr h d a b => Sys2Proof.Machine.execShr h d a b s
  | .sra h d a b => Sys2Proof.Machine.execSra h d a b s
  | .rotl h d a b => Sys2Proof.Machine.execRotl h d a b s
  | .min h d a b => Sys2Proof.Machine.execMin h d a b s
  | .max h d a b => Sys2Proof.Machine.execMax h d a b s
  | .minu h d a b => Sys2Proof.Machine.execMinu h d a b s
  | .maxu h d a b => Sys2Proof.Machine.execMaxu h d a b s
  | .mul h d a b => Sys2Proof.Machine.execMul h d a b s
  | .mulh h d a b => Sys2Proof.Machine.execMulh h d a b s
  | .mulhu h d a b => Sys2Proof.Machine.execMulhu h d a b s
  | .divu h d a b => Sys2Proof.Machine.execDivu h d a b s
  | .remu h d a b => Sys2Proof.Machine.execRemu h d a b s
  | .clz h d a => Sys2Proof.Machine.execClz h d a s
  | .popc h d a => Sys2Proof.Machine.execPopc h d a s
  | .lea h d a b => Sys2Proof.Machine.execLea h d a b s
  | .leaD h d a b => Sys2Proof.Machine.execLeaD h d a b s
  | .sext h d a n => Sys2Proof.Machine.execSext h d a n s
  | .zext h d a n => Sys2Proof.Machine.execZext h d a n s
  | .bfx h d a b => Sys2Proof.Machine.execBfx h d a b s
  | .bfxS h d a b => Sys2Proof.Machine.execBfxS h d a b s
  | .bfi h d a b => Sys2Proof.Machine.execBfi h d a b s
  | .addi h d a im => Sys2Proof.Machine.execAddi h d a im s
  | .andi h d a im => Sys2Proof.Machine.execAndi h d a im s
  | .ori h d a im => Sys2Proof.Machine.execOri h d a im s
  | .xori h d a im => Sys2Proof.Machine.execXori h d a im s
  | .shli h d a im => Sys2Proof.Machine.execShli h d a im s
  | .shri h d a im => Sys2Proof.Machine.execShri h d a im s
  | .srai h d a im => Sys2Proof.Machine.execSrai h d a im s
  | .movi h d im => Sys2Proof.Machine.execMovi h d im s
  | .cmp h c p a b => Sys2Proof.Machine.execCmp h c p a b s
  | .cmpi h c p a im => Sys2Proof.Machine.execCmpi h c p a im s
  | .plog h c p a b => Sys2Proof.Machine.execPlog h c p a b s
  | .pmovToX h d => Sys2Proof.Machine.execPmovToX h d s
  | .pmovToPf h a => Sys2Proof.Machine.execPmovToPf h a s
  | .bprep h n im => Sys2Proof.Machine.execBprep h n im s
  | .bset h n a => Sys2Proof.Machine.execBset h n a s
  | .bxfer h n d l => Sys2Proof.Machine.execBxfer h n d l s
  | .lset h n a im => Sys2Proof.Machine.execLset h n a im s
  | .lbrk h n => Sys2Proof.Machine.execLbrk h n s
  | .ldB h d a b => Sys2Proof.Machine.execLdB h d a b s
  | .ldBu h d a b => Sys2Proof.Machine.execLdBu h d a b s
  | .ldH h d a b => Sys2Proof.Machine.execLdH h d a b s
  | .ldHu h d a b => Sys2Proof.Machine.execLdHu h d a b s
  | .ldW h d a b => Sys2Proof.Machine.execLdW h d a b s
  | .ldWu h d a b => Sys2Proof.Machine.execLdWu h d a b s
  | .ldD h d a b => Sys2Proof.Machine.execLdD h d a b s
  | .stB h d a b => Sys2Proof.Machine.execStB h d a b s
  | .stH h d a b => Sys2Proof.Machine.execStH h d a b s
  | .stW h d a b => Sys2Proof.Machine.execStW h d a b s
  | .stD h d a b => Sys2Proof.Machine.execStD h d a b s
  | .ldq h f a b => Sys2Proof.Machine.execLdq h f a b s
  | .stq h a b => Sys2Proof.Machine.execStq h a b s
  | .popq h d => Sys2Proof.Machine.execPopq h d s
  | .popqP h p => Sys2Proof.Machine.execPopqP h p s
  | .qmark h t => Sys2Proof.Machine.execQmark h t s
  | .qkill h t => Sys2Proof.Machine.execQkill h t s
  | .fence h k sc => Sys2Proof.Machine.execFence h k sc s
  | .amoAdd h d a b => Sys2Proof.Machine.execAmoAdd h d a b s
  | .redAdd h a b => Sys2Proof.Machine.execRedAdd h a b s
  | .amoMin h d a b => Sys2Proof.Machine.execAmoMin h d a b s
  | .redMin h a b => Sys2Proof.Machine.execRedMin h a b s
  | .amoMinu h d a b => Sys2Proof.Machine.execAmoMinu h d a b s
  | .redMinu h a b => Sys2Proof.Machine.execRedMinu h a b s
  | .amoMax h d a b => Sys2Proof.Machine.execAmoMax h d a b s
  | .redMax h a b => Sys2Proof.Machine.execRedMax h a b s
  | .amoMaxu h d a b => Sys2Proof.Machine.execAmoMaxu h d a b s
  | .redMaxu h a b => Sys2Proof.Machine.execRedMaxu h a b s
  | .amoAnd h d a b => Sys2Proof.Machine.execAmoAnd h d a b s
  | .redAnd h a b => Sys2Proof.Machine.execRedAnd h a b s
  | .amoOr h d a b => Sys2Proof.Machine.execAmoOr h d a b s
  | .redOr h a b => Sys2Proof.Machine.execRedOr h a b s
  | .amoXor h d a b => Sys2Proof.Machine.execAmoXor h d a b s
  | .redXor h a b => Sys2Proof.Machine.execRedXor h a b s
  | .amoSwap h d a b => Sys2Proof.Machine.execAmoSwap h d a b s
  | .redSwap h a b => Sys2Proof.Machine.execRedSwap h a b s
  | .amoCas h d a b => Sys2Proof.Machine.execAmoCas h d a b s
  | .amoIncwrap h d a b => Sys2Proof.Machine.execAmoIncwrap h d a b s
  | .redIncwrap h a b => Sys2Proof.Machine.execRedIncwrap h a b s
  | .amoIncb h d a b => Sys2Proof.Machine.execAmoIncb h d a b s
  | .redIncb h a b => Sys2Proof.Machine.execRedIncb h a b s
  | .amoDecpos h d a => Sys2Proof.Machine.execAmoDecpos h d a s
  | .redDecpos h a => Sys2Proof.Machine.execRedDecpos h a s
  | .amoFaddlim h d a b => Sys2Proof.Machine.execAmoFaddlim h d a b s
  | .redFaddlim h a b => Sys2Proof.Machine.execRedFaddlim h a b s
  | .mxtab h d a => Sys2Proof.Machine.execMxtab h d a s
  | .mxfmt h d a => Sys2Proof.Machine.execMxfmt h d a s
  | .mxpert h d a => Sys2Proof.Machine.execMxpert h d a s
  | .mxgo h a => Sys2Proof.Machine.execMxgo h a s
  | .mxwait h => Sys2Proof.Machine.execMxwait h s
  | .vxcall h a b => Sys2Proof.Machine.execVxcall h a b s
  | .vxcallSeed h a b => Sys2Proof.Machine.execVxcallSeed h a b s
  | .vxwait h => Sys2Proof.Machine.execVxwait h s
  | .btcfg h c a => Sys2Proof.Machine.execBtcfg h c a s
  | .btgo h c a => Sys2Proof.Machine.execBtgo h c a s
  | .btwait h c => Sys2Proof.Machine.execBtwait h c s
  | .btwaitAll h => Sys2Proof.Machine.execBtwaitAll h s
  | .wlOpen h d a => Sys2Proof.Machine.execWlOpen h d a s
  | .wlSlot h d a => Sys2Proof.Machine.execWlSlot h d a s
  | .wlRsv h a b => Sys2Proof.Machine.execWlRsv h a b s
  | .wlTest h d a b => Sys2Proof.Machine.execWlTest h d a b s
  | .wlTestP h p a b => Sys2Proof.Machine.execWlTestP h p a b s
  | .wlRels h a b => Sys2Proof.Machine.execWlRels h a b s
  | .wlDone h => Sys2Proof.Machine.execWlDone h s
  | .wlRound h d => Sys2Proof.Machine.execWlRound h d s
  | .wlClose h => Sys2Proof.Machine.execWlClose h s
  | .pbClaim h a => Sys2Proof.Machine.execPbClaim h a s
  | .pbLoad h a m => Sys2Proof.Machine.execPbLoad h a m s
  | .pbColour h a m => Sys2Proof.Machine.execPbColour h a m s
  | .pbClamp h a => Sys2Proof.Machine.execPbClamp h a s
  | .pbSweep h a m => Sys2Proof.Machine.execPbSweep h a m s
  | .pbRead h a => Sys2Proof.Machine.execPbRead h a s
  | .pbMom h a m => Sys2Proof.Machine.execPbMom h a m s
  | .pbFree h => Sys2Proof.Machine.execPbFree h s
  | .sdSeed h d a => Sys2Proof.Machine.execSdSeed h d a s
  | .sdEmit h a => Sys2Proof.Machine.execSdEmit h a s
  | .sdApply h a => Sys2Proof.Machine.execSdApply h a s
  | .sdGap h a => Sys2Proof.Machine.execSdGap h a s
  | .sdFetch h a => Sys2Proof.Machine.execSdFetch h a s
  | .sdKey h a => Sys2Proof.Machine.execSdKey h a s
  | .cxPut h a => Sys2Proof.Machine.execCxPut h a s
  | .cxGet h a => Sys2Proof.Machine.execCxGet h a s
  | .cxWcnt h d a m => Sys2Proof.Machine.execCxWcnt h d a m s
  | .cxSbar h d => Sys2Proof.Machine.execCxSbar h d s
  | .cxAred h a => Sys2Proof.Machine.execCxAred h a s
  | .cxAgath h a => Sys2Proof.Machine.execCxAgath h a s
  | .cxAbort h d => Sys2Proof.Machine.execCxAbort h d s
  | .cxBar h d => Sys2Proof.Machine.execCxBar h d s
  | .rgSpawn h d a => Sys2Proof.Machine.execRgSpawn h d a s
  | .rgNext h d => Sys2Proof.Machine.execRgNext h d s
  | .rgSteal h d a => Sys2Proof.Machine.execRgSteal h d a s
  | .rgStep h d => Sys2Proof.Machine.execRgStep h d s
  | .rgYield h => Sys2Proof.Machine.execRgYield h s
  | .rgExit h a => Sys2Proof.Machine.execRgExit h a s
  | .trap h im => Sys2Proof.Machine.execTrap h im s
  | .eret h => Sys2Proof.Machine.execEret h s
  | .sysr h d im => Sys2Proof.Machine.execSysr h d im s
  | .sysw h d im => Sys2Proof.Machine.execSysw h d im s
  | .wfe h => Sys2Proof.Machine.execWfe h s
  | .ext im => Sys2Proof.Machine.execExt im s
  | .mxNop h => Sys2Proof.Machine.execMxNop h s
  | .mxLdw h f => Sys2Proof.Machine.execMxLdw h f s
  | .mxSwap h => Sys2Proof.Machine.execMxSwap h s
  | .mxRun h f n k => Sys2Proof.Machine.execMxRun h f n k s
  | .mxZero h k => Sys2Proof.Machine.execMxZero h k s
  | .mxDrain h e r b n k => Sys2Proof.Machine.execMxDrain h e r b n k s
  | .mxMark h => Sys2Proof.Machine.execMxMark h s
  | .mxChk h k => Sys2Proof.Machine.execMxChk h k s
  | .mxBias h => Sys2Proof.Machine.execMxBias h s
  | .mxFsel h l b m => Sys2Proof.Machine.execMxFsel h l b m s
  | .mxRet h => Sys2Proof.Machine.execMxRet h s
  | .vaddF32 h d a b => Sys2Proof.Machine.execVaddF32 h d a b s
  | .vsubF32 h d a b => Sys2Proof.Machine.execVsubF32 h d a b s
  | .vmulF32 h d a b => Sys2Proof.Machine.execVmulF32 h d a b s
  | .vfmaF32 h d a b => Sys2Proof.Machine.execVfmaF32 h d a b s
  | .vminF32 h d a b => Sys2Proof.Machine.execVminF32 h d a b s
  | .vmaxF32 h d a b => Sys2Proof.Machine.execVmaxF32 h d a b s
  | .vabsF32 h d a => Sys2Proof.Machine.execVabsF32 h d a s
  | .vnegF32 h d a => Sys2Proof.Machine.execVnegF32 h d a s
  | .vrcpF32 h d a => Sys2Proof.Machine.execVrcpF32 h d a s
  | .vrsqF32 h d a => Sys2Proof.Machine.execVrsqF32 h d a s
  | .vexp2F32 h d a => Sys2Proof.Machine.execVexp2F32 h d a s
  | .vlog2F32 h d a => Sys2Proof.Machine.execVlog2F32 h d a s
  | .vcmpF32 h c q a b => Sys2Proof.Machine.execVcmpF32 h c q a b s
  | .vaddF16 h d a b => Sys2Proof.Machine.execVaddF16 h d a b s
  | .vsubF16 h d a b => Sys2Proof.Machine.execVsubF16 h d a b s
  | .vmulF16 h d a b => Sys2Proof.Machine.execVmulF16 h d a b s
  | .vfmaF16 h d a b => Sys2Proof.Machine.execVfmaF16 h d a b s
  | .vminF16 h d a b => Sys2Proof.Machine.execVminF16 h d a b s
  | .vmaxF16 h d a b => Sys2Proof.Machine.execVmaxF16 h d a b s
  | .vabsF16 h d a => Sys2Proof.Machine.execVabsF16 h d a s
  | .vnegF16 h d a => Sys2Proof.Machine.execVnegF16 h d a s
  | .vrcpF16 h d a => Sys2Proof.Machine.execVrcpF16 h d a s
  | .vrsqF16 h d a => Sys2Proof.Machine.execVrsqF16 h d a s
  | .vexp2F16 h d a => Sys2Proof.Machine.execVexp2F16 h d a s
  | .vlog2F16 h d a => Sys2Proof.Machine.execVlog2F16 h d a s
  | .vcmpF16 h c q a b => Sys2Proof.Machine.execVcmpF16 h c q a b s
  | .vaddBf16 h d a b => Sys2Proof.Machine.execVaddBf16 h d a b s
  | .vsubBf16 h d a b => Sys2Proof.Machine.execVsubBf16 h d a b s
  | .vmulBf16 h d a b => Sys2Proof.Machine.execVmulBf16 h d a b s
  | .vfmaBf16 h d a b => Sys2Proof.Machine.execVfmaBf16 h d a b s
  | .vminBf16 h d a b => Sys2Proof.Machine.execVminBf16 h d a b s
  | .vmaxBf16 h d a b => Sys2Proof.Machine.execVmaxBf16 h d a b s
  | .vabsBf16 h d a => Sys2Proof.Machine.execVabsBf16 h d a s
  | .vnegBf16 h d a => Sys2Proof.Machine.execVnegBf16 h d a s
  | .vrcpBf16 h d a => Sys2Proof.Machine.execVrcpBf16 h d a s
  | .vrsqBf16 h d a => Sys2Proof.Machine.execVrsqBf16 h d a s
  | .vexp2Bf16 h d a => Sys2Proof.Machine.execVexp2Bf16 h d a s
  | .vlog2Bf16 h d a => Sys2Proof.Machine.execVlog2Bf16 h d a s
  | .vcmpBf16 h c q a b => Sys2Proof.Machine.execVcmpBf16 h c q a b s
  | .viadd h d a b => Sys2Proof.Machine.execViadd h d a b s
  | .visub h d a b => Sys2Proof.Machine.execVisub h d a b s
  | .vimul h d a b => Sys2Proof.Machine.execVimul h d a b s
  | .vand h d a b => Sys2Proof.Machine.execVand h d a b s
  | .vor h d a b => Sys2Proof.Machine.execVor h d a b s
  | .vxor h d a b => Sys2Proof.Machine.execVxor h d a b s
  | .vshl h d a b => Sys2Proof.Machine.execVshl h d a b s
  | .vshr h d a b => Sys2Proof.Machine.execVshr h d a b s
  | .vsra h d a b => Sys2Proof.Machine.execVsra h d a b s
  | .vimin h d a b => Sys2Proof.Machine.execVimin h d a b s
  | .viminU h d a b => Sys2Proof.Machine.execViminU h d a b s
  | .vimax h d a b => Sys2Proof.Machine.execVimax h d a b s
  | .vimaxU h d a b => Sys2Proof.Machine.execVimaxU h d a b s
  | .vicmp h c q a b => Sys2Proof.Machine.execVicmp h c q a b s
  | .vsel h d a b => Sys2Proof.Machine.execVsel h d a b s
  | .vmov h d a => Sys2Proof.Machine.execVmov h d a s
  | .vmovQ h d q => Sys2Proof.Machine.execVmovQ h d q s
  | .vsplat h d im => Sys2Proof.Machine.execVsplat h d im s
  | .vidx h d im => Sys2Proof.Machine.execVidx h d im s
  | .vcvt h d a c => Sys2Proof.Machine.execVcvt h d a c s
  | .vqntS8 h d a b => Sys2Proof.Machine.execVqntS8 h d a b s
  | .vqntU8 h d a b => Sys2Proof.Machine.execVqntU8 h d a b s
  | .vdeq h d a b => Sys2Proof.Machine.execVdeq h d a b s
  | .vdeqU h d a b => Sys2Proof.Machine.execVdeqU h d a b s
  | .vpack h d a f => Sys2Proof.Machine.execVpack h d a f s
  | .vpackS h d a f => Sys2Proof.Machine.execVpackS h d a f s
  | .vunpk h d a f => Sys2Proof.Machine.execVunpk h d a f s
  | .vunpkS h d a f => Sys2Proof.Machine.execVunpkS h d a f s
  | .vperm h d a b => Sys2Proof.Machine.execVperm h d a b s
  | .vpermH h d a b => Sys2Proof.Machine.execVpermH h d a b s
  | .vbcst h d a k => Sys2Proof.Machine.execVbcst h d a k s
  | .vrot h d a k => Sys2Proof.Machine.execVrot h d a k s
  | .vred h d a o => Sys2Proof.Machine.execVred h d a o s
  | .vredx h d a o => Sys2Proof.Machine.execVredx h d a o s
  | .vtopk h d a k => Sys2Proof.Machine.execVtopk h d a k s
  | .vtopkMin h d a k => Sys2Proof.Machine.execVtopkMin h d a k s
  | .trow h r n a => Sys2Proof.Machine.execTrow h r n a s
  | .tcol h d c n => Sys2Proof.Machine.execTcol h d c n s
  | .tclr h n => Sys2Proof.Machine.execTclr h n s
  | .vpop h d sc => Sys2Proof.Machine.execVpop h d sc s
  | .vpush h a => Sys2Proof.Machine.execVpush h a s
  | .vpopd h d sc => Sys2Proof.Machine.execVpopd h d sc s
  | .veq h a => Sys2Proof.Machine.execVeq h a s
  | .veqP h p => Sys2Proof.Machine.execVeqP h p s
  | .vdq h d => Sys2Proof.Machine.execVdq h d s
  | .vdqHi h d => Sys2Proof.Machine.execVdqHi h d s
  | .vaq h a => Sys2Proof.Machine.execVaq h a s
  | .vany h d a => Sys2Proof.Machine.execVany h d a s
  | .vall h d a => Sys2Proof.Machine.execVall h d a s
  | .qlog h c d a b => Sys2Proof.Machine.execQlog h c d a b s
  | .vmsk h a => Sys2Proof.Machine.execVmsk h a s
  | .vxPlog h c d a b => Sys2Proof.Machine.execVxPlog h c d a b s
  | .vbprep h n im => Sys2Proof.Machine.execVbprep h n im s
  | .vbxfer h n d => Sys2Proof.Machine.execVbxfer h n d s
  | .vlset h c n im => Sys2Proof.Machine.execVlset h c n im s
  | .vret h => Sys2Proof.Machine.execVret h s
  | .vwin h r im => Sys2Proof.Machine.execVwin h r im s
  | .vgrt h d a k sc => Sys2Proof.Machine.execVgrt h d a k sc s
  | .vrand h d k sc => Sys2Proof.Machine.execVrand h d k sc s
  | .vrandSet h a => Sys2Proof.Machine.execVrandSet h a s
  | .vshd h => Sys2Proof.Machine.execVshd h s
  | .vstat h d => Sys2Proof.Machine.execVstat h d s
  | .vstatClr h d => Sys2Proof.Machine.execVstatClr h d s
  | .vnop h => Sys2Proof.Machine.execVnop h s
  | .vtrap h im => Sys2Proof.Machine.execVtrap h im s
  | .vext im => Sys2Proof.Machine.execVext im s
  | .illegalOpcode st w => Sys2Proof.Machine.execIllegalOpcode st w s
  | .illegalField st w => Sys2Proof.Machine.execIllegalField st w s
  | .inFieldTestStart core cls => Sys2Proof.Machine.execInFieldTestStart core cls s

end Sys2Proof.Machine
end

