-- ==== Sys2Proof/Machine/Bundle.lean ====
section
/-!
DEFINITION. The bundles of the vector engine (02_encoding.md R33-R36, 07_vxe_model.md R164, 08_vxe_instr.md R176, R197):
fetching the three slots at VPC, the checks and waits of the bundle as a whole, and its issue, which runs each slot's own
meaning.
-/

namespace Sys2Proof.Machine

/-- The header of a slot word and what its card says of it at decode; none for `vext` and for words that no card describes. -/
def vxSpecOf (k : Core) : Instr → Option (Hdr × VxSpec)
  | .vaddF32 h d _ _ => some (h, (spArith (fmtClass fp32) d))
  | .vsubF32 h d _ _ => some (h, (spArith (fmtClass fp32) d))
  | .vmulF32 h d _ _ => some (h, (spArith (fmtClass fp32) d))
  | .vfmaF32 h d _ _ => some (h, (spArith (fmtClass fp32) d))
  | .vminF32 h d _ _ => some (h, (spArith (fmtClass fp32) d))
  | .vmaxF32 h d _ _ => some (h, (spArith (fmtClass fp32) d))
  | .vabsF32 h d _ => some (h, (spArith (fmtClass fp32) d))
  | .vnegF32 h d _ => some (h, (spArith (fmtClass fp32) d))
  | .vrcpF32 h d _ => some (h, (spArith clVxTrans d))
  | .vrsqF32 h d _ => some (h, (spArith clVxTrans d))
  | .vexp2F32 h d _ => some (h, (spArith clVxTrans d))
  | .vlog2F32 h d _ => some (h, (spArith clVxTrans d))
  | .vaddF16 h d _ _ => some (h, (spArith (fmtClass fp16) d))
  | .vsubF16 h d _ _ => some (h, (spArith (fmtClass fp16) d))
  | .vmulF16 h d _ _ => some (h, (spArith (fmtClass fp16) d))
  | .vfmaF16 h d _ _ => some (h, (spArith (fmtClass fp16) d))
  | .vminF16 h d _ _ => some (h, (spArith (fmtClass fp16) d))
  | .vmaxF16 h d _ _ => some (h, (spArith (fmtClass fp16) d))
  | .vabsF16 h d _ => some (h, (spArith (fmtClass fp16) d))
  | .vnegF16 h d _ => some (h, (spArith (fmtClass fp16) d))
  | .vrcpF16 h d _ => some (h, (spArith clVxTrans d))
  | .vrsqF16 h d _ => some (h, (spArith clVxTrans d))
  | .vexp2F16 h d _ => some (h, (spArith clVxTrans d))
  | .vlog2F16 h d _ => some (h, (spArith clVxTrans d))
  | .vaddBf16 h d _ _ => some (h, (spArith (fmtClass bf16) d))
  | .vsubBf16 h d _ _ => some (h, (spArith (fmtClass bf16) d))
  | .vmulBf16 h d _ _ => some (h, (spArith (fmtClass bf16) d))
  | .vfmaBf16 h d _ _ => some (h, (spArith (fmtClass bf16) d))
  | .vminBf16 h d _ _ => some (h, (spArith (fmtClass bf16) d))
  | .vmaxBf16 h d _ _ => some (h, (spArith (fmtClass bf16) d))
  | .vabsBf16 h d _ => some (h, (spArith (fmtClass bf16) d))
  | .vnegBf16 h d _ => some (h, (spArith (fmtClass bf16) d))
  | .vrcpBf16 h d _ => some (h, (spArith clVxTrans d))
  | .vrsqBf16 h d _ => some (h, (spArith clVxTrans d))
  | .vexp2Bf16 h d _ => some (h, (spArith clVxTrans d))
  | .vlog2Bf16 h d _ => some (h, (spArith clVxTrans d))
  | .vcmpF32 h _ q _ _ => some (h, (spCmp fp32 q))
  | .vcmpF16 h _ q _ _ => some (h, (spCmp fp16 q))
  | .vcmpBf16 h _ q _ _ => some (h, (spCmp bf16 q))
  | .viadd h d _ _ => some (h, (spArith clVxInt d))
  | .visub h d _ _ => some (h, (spArith clVxInt d))
  | .vimul h d _ _ => some (h, (spArith clVxInt d))
  | .vand h d _ _ => some (h, (spArith clVxInt d))
  | .vor h d _ _ => some (h, (spArith clVxInt d))
  | .vxor h d _ _ => some (h, (spArith clVxInt d))
  | .vshl h d _ _ => some (h, (spArith clVxInt d))
  | .vshr h d _ _ => some (h, (spArith clVxInt d))
  | .vsra h d _ _ => some (h, (spArith clVxInt d))
  | .vimin h d _ _ => some (h, (spArith clVxInt d))
  | .viminU h d _ _ => some (h, (spArith clVxInt d))
  | .vimax h d _ _ => some (h, (spArith clVxInt d))
  | .vimaxU h d _ _ => some (h, (spArith clVxInt d))
  | .vicmp h cc q _ _ => some (h, (spIcmp cc q))
  | .vsel h d _ _ => some (h, (spArith clVxInt d))
  | .vmov h d _ => some (h, (spArith clVxInt d))
  | .vmovQ h d _ => some (h, (spArith clVxInt d))
  | .vsplat h d _ => some (h, (spArith clVxInt d (imm := true)))
  | .vidx h d _ => some (h, (spArith clVxInt d (imm := true)))
  | .vgrt h d _ k sc => some (h, (spGrt d k sc))
  | .vrand h d k sc => some (h, (spGrt d k sc))
  | .vrandSet h _ => some (h, spRandSet)
  | .vcvt h d _ cc => some (h, (spCvt d cc))
  | .vqntS8 h d _ _ => some (h, (spArith clVxCvt d))
  | .vqntU8 h d _ _ => some (h, (spArith clVxCvt d))
  | .vdeq h d _ _ => some (h, (spArith clVxCvt d))
  | .vdeqU h d _ _ => some (h, (spArith clVxCvt d))
  | .vpack h d _ f => some (h, (spPack false d f))
  | .vpackS h d _ f => some (h, (spPack true d f))
  | .vunpk h d _ f => some (h, (spUnpk false d f))
  | .vunpkS h d _ f => some (h, (spUnpk true d f))
  | .vperm h d _ _ => some (h, (spMove clVxInt d))
  | .vpermH h d _ _ => some (h, (spMove clVxInt d))
  | .vbcst h d _ _ => some (h, (spMove clVxInt d))
  | .vrot h d _ _ => some (h, (spMove clVxInt d))
  | .vred h d _ _ => some (h, (spMove clVxRed d))
  | .vredx h d _ _ => some (h, (spMove clVxRed d))
  | .vtopk h d _ _ => some (h, (spMove clVxRed d))
  | .vtopkMin h d _ _ => some (h, (spMove clVxRed d))
  | .trow h r _ _ => some (h, (spTrow r))
  | .tcol h d cc _ => some (h, (spTcol d cc))
  | .tclr h _ => some (h, spTclr)
  | .vpop h d _ => some (h, (spMove clVxInt d (pop := some .lqv)))
  | .vpopd h d _ => some (h, (spMove clVxDec d (pop := some .lqv)))
  | .vdq h d => some (h, (spMove clVxInt d (pop := some .dq)))
  | .vdqHi h d => some (h, (spMove clVxInt d (pop := some .dq)))
  | .vpush h _ => some (h, (spPush .sq))
  | .vaq h _ => some (h, (spPush .aq))
  | .veq h _ => some (h, (spPush .eq))
  | .veqP h _ => some (h, (spPush .eq))
  | .vshd h => some (h, spShd)
  | .vstat h d => some (h, (spMove clVxInt d))
  | .vstatClr h d => some (h, (spMove clVxInt d))
  | .vany h d _ => some (h, (spVote d))
  | .vall h d _ => some (h, (spVote d))
  | .qlog h _ d _ _ => some (h, (spQlog d))
  | .vmsk h _ => some (h, spControl)
  | .vxPlog h _ d _ _ => some (h, (spVote d))
  | .vbprep h _ _ => some (h, (spControl (imm := true)))
  | .vbxfer h _ _ => some (h, spControl)
  | .vlset h cc _ i => some (h, (spVlset k cc i))
  | .vret h => some (h, spControl)
  | .vwin h r i => some (h, (spVwin k r i))
  | .vtrap h _ => some (h, (spControl (imm := true)))
  | .vnop h => some (h, spVnop)
  | _ => none

/-- A core seen from slot `t` of the bundle being issued. -/
def Core.atSlot (c : Core) (t : Nat) : Core := { c with vc := { c.vc with slot := t } }

/-- The word in slot `t` of bundle `b` (R33): 12 bytes a bundle, slot 0 first. -/
def vxWordAt (c : Core) (b t : Nat) : BitVec 32 :=
  let at_ (i : Nat) : Byte := smGet 0 c.vxIm (12 * b + 4 * t + i)
  wordOfBytes (at_ 0) (at_ 1) (at_ 2) (at_ 3)

/-- The three slots of the bundle at VPC. -/
noncomputable def bundleAt (c : Core) : List Instr :=
  [decodeVx (vxWordAt c c.vx.vpc.toNat 0), decodeVx (vxWordAt c c.vx.vpc.toNat 1), decodeVx (vxWordAt c c.vx.vpc.toNat 2)]

/-- The instruction in a slot; a `vnop` cannot be built here, so an absent slot is an AP word that no slot holds. -/
def slotAt (is : List Instr) (t : Nat) : Instr := is.getD t (.nop default)

/-- A word whose fields its card forbids, read for the destination it names: the first of the words that keep its header,
opcode and D (or D's low bits, for a mask or predicate) and perhaps X, which the decoder accepts. -/
noncomputable def namedForm (w : BitVec 32) : Instr :=
  let low (m : BitVec 32) : Instr := decodeVx (w &&& (0xFFFF0000 ||| m))
  match [low 0xF801, low 0xF800, low 0x3801, low 0x3800].find? (fun i => match i with | .illegalField _ _ => false | _ => true) with
  | some i => i
  | none => .illegalField .vx w

/-- The destinations that a word names, read as its card gives them: vector registers from 0, masks from 32, predicates
from 40. -/
def namedDests (c : Core) (t : Nat) (i : Instr) : List Nat :=
  match vxSpecOf (c.atSlot t) i with
  | some (_, sp) =>
    if sp.slot ≠ 3 ∧ sp.slot ≠ t then []
    else (sp.dV.map BitVec.toNat).toList ++ sp.dQ.map (fun q => 32 + q.toNat) ++ (sp.dP.map fun p => 40 + p.toNat).toList
  | none => []

/-- The destinations that a slot names (R35). A word outside its slot class names none (R51, log entry 13); one with a
forbidden field names the one in its D field. -/
noncomputable def slotDests (c : Core) (is : List Instr) (t : Nat) : List Nat :=
  match slotAt is t with
  | .illegalField _ w => namedDests c t (namedForm w)
  | i => namedDests c t i

/-- Another slot names one of slot `t`'s destinations. -/
noncomputable def slotShares (c : Core) (is : List Instr) (t : Nat) : Bool :=
  [0, 1, 2].any fun u => u != t && (slotDests c is t).any fun d => (slotDests c is u).contains d

/-- The decode fault of a slot by itself (R35). -/
noncomputable def wordFault (c : Core) (is : List Instr) (t : Nat) : Option Nat :=
  match vxSpecOf (c.atSlot t) (slotAt is t) with
  | some (h, sp) => vxDecodeFault h sp c t (slotShares c is t)
  | none => match slotAt is t with
    | .vext _ => vextFault false c t
    | .illegalOpcode _ w => some (vxIllegal w true c t)
    | .illegalField _ w => if opOf w = 0x7F ∧ vsOf w < 2 then vextFault true c t else some (vxIllegal w false c t)
    | _ => none

/-- Slot `t` holds a `vext`, whose bits wait for the next bundle. -/
def holdsVext (is : List Instr) (t : Nat) : Bool :=
  match slotAt is t with
  | .vext _ => true
  | .illegalField _ w => opOf w == 0x7F
  | _ => false

/-- The decode fault of a slot. A `vext` outside the masks is reported as misused where the words that follow it in its slot, up to
`n` of them, show that (R26, R36). -/
noncomputable def slotFault : Nat → Core → List Instr → Nat → Option Nat
  | 0, c, is, t => wordFault c is t
  | n + 1, c, is, t =>
    match wordFault c is t with
    | none => none
    | some f =>
      let next := { c with vx := { c.vx.extend t false 0 with vpc := c.vx.vpc + 1 } }
      if (f = 0x06 ∨ f = 0x07) ∧ holdsVext is t ∧ c.vx.vpc.toNat < 4095 ∧ slotFault n next (bundleAt next) t = some 0x04 then some 0x04
      else some f

/-- The lowest-numbered slot that faults at decode, with its cause. -/
noncomputable def bundleFault (c : Core) (is : List Instr) : Option (Nat × Nat) :=
  ([0, 1, 2].filterMap fun t => (slotFault 2 c is t).map fun f => (t, f)).head?

/-- The pops of all slots (R34). -/
def bundlePops (c : Core) (is : List Instr) : List (Nat × Nat) :=
  [0, 1, 2].flatMap fun t => match vxSpecOf (c.atSlot t) (slotAt is t) with
    | some (h, _) => hdrPops .vx h
    | none => []

/-- The slots whose guard is true, as their cards describe them. -/
def liveSlots (c : Core) (is : List Instr) : List VxSpec :=
  [0, 1, 2].filterMap fun t => match vxSpecOf (c.atSlot t) (slotAt is t) with
    | some (h, sp) => if vp c h.g then some sp else none
    | none => none

/-- Rows and words on their way to a queue (R165). -/
def inFlight (c : Core) (p : VxDst → Bool) : Nat := (c.vx.fly.map fun f => (f.dsts.filter p).length).sum

/-- A queue that a slot pops holds an entry (R164). -/
def canPop (c : Core) : VxQueue → Bool
  | .lqv => !c.q.lqv.isEmpty
  | .dq => match c.q.dq with
    | (t, _) :: _ => decide (t < c.cycle)
    | [] => false
  | _ => true

/-- A queue that a slot pushes has room (R9, R164). -/
def canPush (c : Core) : VxQueue → Bool
  | .sq => decide (c.q.sq.length + inFlight c (fun d => match d with | .sq _ => true | _ => false) < 32)
  | .aq => decide (c.q.aq.length + inFlight c (fun d => match d with | .aq _ => true | _ => false) < 32)
  | .eq => decide (c.q.eq.length + inFlight c (fun d => match d with | .eq _ => true | _ => false) < 16)
  | _ => true

/-- Every queue of the live slots is ready. -/
def queuesReady (c : Core) (is : List Instr) : Bool :=
  (liveSlots c is).all fun sp => (match sp.pop with | some q => canPop c q | none => true)
    && (match sp.push with | some q => canPush c q | none => true)

/-- Why the bundles of a unit, which pop `pops` in all, do not start yet (R34, R164). -/
def tokensWait (c : Core) (pops : List (Nat × Nat)) : Option Nat :=
  if pushHeld c .vx || !landedFit c then some 2
  else if c.vx.popped = false ∧ popsReady c pops = false then some 1
  else none

/-- Takes the pops of a unit that has not taken them yet. -/
def unitPop (c : Core) (pops : List (Nat × Nat)) : Core :=
  if c.vx.popped then c
  else
    let c := takePops c pops
    { c with vx := { c.vx with popped := true } }

/-- Runs the instruction of a slot. -/
def runSlot (t : Nat) (i : Instr) (s : State) : State :=
  match exec i (s.modCur fun c => c.atSlot t) with
  | .next u => u
  | _ => s

/-- The kernel of the current core runs on. -/
def curRuns (s : State) : Bool := s.cur.run == .running

/-- Runs the slots in order from the state `base`; one that faults leaves the bundle without effect (R176): the result is that
slot alone. -/
def runSlots (base : State) (is : List Instr) : List Nat → State → State
  | [], s => s
  | t :: ts, s =>
    let u := runSlot t (slotAt is t) s
    if curRuns u then runSlots base is ts u else runSlot t (slotAt is t) base

/-- The class of the word in slot 0. -/
def slotClass (c : Core) (is : List Instr) : Nat :=
  match vxSpecOf (c.atSlot 0) (slotAt is 0) with
  | some (_, sp) => sp.cls
  | none => 0

/-- The word of slot 0, of class `cls`, that a `vshd` in the next bundle may check (R173): it has a vector register as its first
destination. -/
def slotProd (cls : Nat) (b a : Core) : Option Prod :=
  if a.vx.fly.length ≤ b.vx.fly.length then none
  else match a.vx.fly.getLast? with
    | some f => match f.dsts with
      | .v p _ m :: _ => some { cls := cls, cycle := b.cycle, order := f.order, due := f.due, phys := p, mask := m }
      | _ => none
    | none => none

/-- Some slot of a bundle holds a `vext`. -/
def anyVext (is : List Instr) : Bool := [0, 1, 2].any (holdsVext is)

/-- The end of a bundle: the extensions it used are dropped, and VPC advances unless its control word has set it. A transfer
splits the unit of a `vext` in the bundle (R31). -/
def bundleEnd (base : State) (is : List Instr) (prod : Option Prod) (s : State) : State :=
  let c := s.cur
  let s := s.modVx fun x => { x with
    ext := x.ext.filter fun e => holdsVext is e.1
    extAt := x.extAt.filter fun e => holdsVext is e.1
    extBad := (x.extBad ++ if (c.vc.jumped && x.br.isNone) || c.vc.skip.isSome then [0, 1, 2] else []).filter fun t => holdsVext is t
    popped := false
    stall := 0
    prod := prod }
  if c.vc.jumped then s
  else match windowFault s.cur.vx with
    | some b => vxFault base 0x69 (wordOfInt b)
    | none => s.modVx fun x =>
      match c.vc.skip, loopBack (loopsAt x.loops x.vpc.toNat) x.loops with
      | some t, none => x.advance.goto (w64 t)
      | _, _ => x.advance

/-- A `vmsk` in slot 2 sets the mask of its own bundle's other slots (R161). -/
def slotsOrder (is : List Instr) : List Nat :=
  match slotAt is 2 with
  | .vmsk _ _ => [2, 0, 1]
  | _ => [0, 1, 2]

/-- A bundle that issues: its slots run, then the stream goes on. A `vmsk` leaves only its mask in the state to which a fault of
another slot goes back (R176). -/
def bundleRun (is : List Instr) (s : State) : State :=
  let base := s.modCur fun c => { c with vc := { c.vc with order := c.vc.order + 1, mask := none, jumped := false, skip := none } }
  match slotsOrder is with
  | 2 :: ts =>
    let u := runSlot 2 (slotAt is 2) base
    let base := base.modCur fun c => { c with vc := { c.vc with mask := u.cur.vc.mask } }
    finish base (runSlots base is ts u)
  | ts => finish base (runSlots base is ts base)
where
  /-- After the slots: a fault has ended the kernel, or the bundle ends. -/
  finish (base s : State) : State :=
    if curRuns s then bundleEnd base is (slotProd (slotClass base.cur is) base.cur (runSlot 0 (slotAt is 0) base).cur) s else s

/-- Notes why the VXE stalls. -/
def vxStall (w : Nat) (s : State) : State := s.modVx fun x => { x with stall := w }

/-! ### Units (R32, R36)

A bundle with a `vext` and the bundles it extends issue as one unit, one bundle in each of consecutive core cycles (R164), with
nothing between them: the unit starts when the tokens and the queues of all its bundles are ready, and all of it is issued in the
turn of its first bundle, the later bundles as they run in their own cycles. DEDUCED (log entry 16). -/

/-- How the unit at VPC ends. -/
inductive UnitRes where
  /-- all its bundles have issued. -/
  | done (s : State)
  /-- a queue of one of them is not ready. -/
  | wait
  /-- one of them lies in a block that an overlay targets (R244). -/
  | hold
  /-- one of them cannot be fetched, or faults at decode: bundle address, cause, FADDR where the cause states one. -/
  | bad (addr cause : Nat) (faddr : Option Word)
  /-- one of them faults when it runs: the kernel has ended, without an effect of the unit. -/
  | trap (s : State)
  deriving DecidableEq, Repr

/-- The core cycle after a bundle of a unit: its pushes are made at the end of their own cycle, and results land. -/
def unitNext (s : State) : State :=
  s.modCur fun c => vxLand { c with
    cycle := c.cycle + 1, pushReq := [], pushLater := c.pushLater ++ c.pushReq.map fun e => (c.cycle, e.1, e.2.1, e.2.2) }

/-- The unit has issued up to its last cycle, and its first is the one that runs. -/
def unitEnd (first : Nat) (s : State) : State :=
  s.modCur fun c =>
    if c.cycle = first then c
    else { c with
      cycle := first, pushReq := [], pushLater := c.pushLater ++ c.pushReq.map fun e => (c.cycle, e.1, e.2.1, e.2.2)
      vx := { c.vx with busy := c.cycle + 1 } }

/-- The fault that ended the kernel in `u` ends it in `s`. -/
def sameFault (s u : State) : State := vxFaultAt s s.turn.1 u.cur.sys.epc.toNat u.cur.sys.cause.toNat u.cur.sys.faddr

/-- Runs the bundles of the unit at VPC, of which the first is in core cycle `first`; `pops` are those of the bundles before, and the
result has the pops of all. -/
noncomputable def unitRun (first : Nat) : Nat → List (Nat × Nat) → State → List (Nat × Nat) × UnitRes
  | 0, pops, s => (pops, .done s)
  | n + 1, pops, s =>
    let c := s.cur
    match c.vx.bad with
    | some t => (pops, .bad (vxUnit c) 0x20 (some t))
    | none =>
      if overlayTargets c 5 c.vx.vpc.toNat then (pops, .hold)
      else if c.imBad.contains (.vx, c.vx.vpc.toNat) then (pops, .bad (vxUnit c) 0xB5 none)
      else
        let is := bundleAt c
        let pops := pops ++ bundlePops c is
        match bundleFault c is with
        | some (t, f) => (pops, .bad (vxUnit c) f (some (w64 t)))
        | none =>
          let u := bundleRun is s
          let r :=
            if !curRuns u then (pops, .trap u)
            else if !anyVext is || u.cur.vc.atRet then (pops, .done (unitEnd first u))
            else
              match unitRun first n pops (unitNext u) with
              | (pops, .trap v) => (pops, .trap (sameFault s v))
              | r => r
          match r.2 with
          | .bad _ _ _ => r
          | .hold => r
          | _ => if queuesReady c is then r else (r.1, .wait)

/-- The unit at VPC faults at decode, waits, or issues. -/
noncomputable def unitIssue (s : State) : State :=
  let c := s.cur
  match unitRun c.cycle 4096 [] s with
  | (_, .bad a f w) => let (s, w) := faddrOf s w; vxFaultAt s s.turn.1 a f w
  | (_, .hold) => vxStall 4 s
  | (pops, _) =>
    match tokensWait c pops with
    | some w => vxStall w s
    | none =>
      let s := s.modCur fun c => unitPop c pops
      match (unitRun c.cycle 4096 [] s).2 with
      | .done u => u
      | .trap u => u
      | _ => vxStall 4 s

/-- The VXE's core cycle: the fetch of the bundle at VPC (R115, R197), then its unit. -/
noncomputable def vxIssue (s : State) : State :=
  let c := s.cur
  let x := c.vx
  if c.cycle < x.busy then vxStall 0 s
  else if x.br.isNone ∧ c.cycle < x.hold then vxStall 4 s
  else match x.bad with
    | some t =>
      let at_ := match (if x.br.isNone then x.brFrom else none) with
        | some b => b.toNat
        | none => t.toNat
      vxFaultAt s s.turn.1 at_ 0x20 t
    | none => unitIssue s

end Sys2Proof.Machine
end

