-- ==== Sys2Proof/Machine/Turn.lean ====
section
/-!
DEFINITION. What one step does (log entry 5): the fetch and issue of the AP and MXE words, the order in which cores and
streams take their core cycles, the end of a cycle, and the internal events that a cycle brings with it.
A round runs the three streams of every running core, in rank order (21_scheduler.md R346) and on a core AP before MXE
before VXE (22_faults.md R353); then the clock advances.
-/

namespace Sys2Proof.Machine

/-! ### Fetch and issue (R23, R115, R244, R367) -/

/-- The word at an address of an instruction memory of 4-byte words. -/
def imWord (m : SMap Byte) (a : Nat) : BitVec 32 :=
  wordOfBytes (smGet 0 m (4 * a)) (smGet 0 m (4 * a + 1)) (smGet 0 m (4 * a + 2)) (smGet 0 m (4 * a + 3))

/-- The word at the AP's pc: of the shadow instruction memory while the handler runs (R354). -/
def apWordAt (c : Core) : BitVec 32 :=
  if c.inHandler then smGet 0 c.shIm c.shadow.pc.toNat else imWord c.apIm c.main.pc.toNat

/-- Why no AP word is fetched yet: a branch target before its cycle (R114), a block that an overlay targets (R244). -/
def apFetchWaits (s : State) : Bool :=
  let x := s.cur.ctx
  (x.br.isNone && decide (apTime s < x.hold)) || (!s.cur.inHandler && overlayTargets s.cur 3 x.pc.toNat)

/-- The words `ext` at the AP's pc, of which two are all that a unit may have (R31). -/
def extsAhead (c : Core) : Nat :=
  let is (w : BitVec 32) : Bool := opOf w == 0x7F && decide (vsOf w < 2)
  let at_ (i : Nat) : BitVec 32 := if c.inHandler then smGet 0 c.shIm (c.shadow.pc.toNat + i) else imWord c.apIm (c.main.pc.toNat + i)
  if is (at_ 0) then (if is (at_ 1) then 2 else 1) else 0

/-- The `ext` words at the pc have not all taken their cycles: they issue with the word that they extend, each one cycle after
another (R32). DEDUCED (log entry 16). -/
def extLeads (c : Core) : Bool := c.ctx.ext == [] && decide (c.ctx.lead < extsAhead c)

/-- The word at the AP's pc has an uncorrectable error (R367): the shadow instruction memory's stand from 16,384 on. -/
def apImBad (c : Core) : Bool := c.imBad.contains (.ap, if c.inHandler then 16384 + c.shadow.pc.toNat else c.main.pc.toNat)

/-- The AP's core cycle. -/
def apIssue (s : State) : Out :=
  let c := s.cur
  match c.ctx.bad with
  | some t =>
    if c.ctx.br.isNone && decide (apTime s < c.ctx.hold) then .next (apStall 0 s)
    else .next (endKernel s s.turn.1 (if c.inHandler then 3 else 0) (if c.ctx.ext = [] then t.toNat else c.ctx.extAt.toNat) 0x20 t)
  | none =>
    if apFetchWaits s then .next (apStall 0 s)
    else if apImBad c then .next (apFault s 0xB5 (if c.ctx.via then some (c.ctx.pc.zeroExtend 64) else none))
    else if extLeads c then .next (apStall 0 (s.modCtx fun x => { x with lead := x.lead + 1 }))
    else exec (decodeAp (apWordAt c)) s

/-- The MXE's core cycle. -/
def mxIssue (s : State) : Out :=
  let c := s.cur
  let stall (w : Nat) : Out := .next (s.modMx fun x => { x with stall := w })
  if c.mx.routine.isNone then stall 3
  else if c.cycle < c.mx.window.busy then stall 4
  else if 4095 < c.mx.mpc then .next (mxFaultAt s s.turn.1 c.mx.mpc 0x20 (some (w64 c.mx.mpc)))
  else if overlayTargets c 4 c.mx.mpc then stall 4
  else if c.imBad.contains (.mx, c.mx.mpc) then .next (mxFaultAt s s.turn.1 c.mx.mpc 0xB5 none)
  else exec (decodeMx (imWord c.mxIm c.mx.mpc)) s

/-! ### Turns -/

/-- No member of a lower rank has faulted in this cycle, nor this one: the others stop in the cycle of the fault (21_scheduler.md
R346). -/
def runsOn (s : State) : Bool :=
  match (s.region? s.cur.rid).bind Region.fail with
  | some e => decide (s.cur.rank < e.rank)
  | none => true

/-- The main streams of the current core are at work in this cycle: its kernel runs and has started. -/
def mainAtWork (s : State) : Bool := s.cur.alive && decide (s.cur.since ≤ s.clock) && runsOn s

/-- They run: the core is not frozen (R105). -/
def streamsRun (s : State) : Bool := mainAtWork s && !s.cur.frozen

/-- A freeze begins in this cycle: a fault of a word that would have run in it takes precedence (22_faults.md R353). -/
def freezeBegins (s : State) : Bool := mainAtWork s && s.cur.frozen && freezeStarts s.cur s.clock

/-- The AP runs: its main context, or the handler from its start on while no reply is late in it (R354, R356);
not after its `rg.exit`. -/
def apRuns (s : State) : Bool :=
  let c := s.cur
  if c.inHandler then c.alive && runsOn s && (lateIn c.shadow s.clock).isNone else streamsRun s && !c.rg.exited

/-- The AP would run in the cycle in which a freeze begins. -/
def apTried (s : State) : Bool := freezeBegins s && !s.cur.inHandler && !s.cur.rg.exited

/-- Cores whose kernels run. -/
def liveCores (s : State) : List Nat := (s.cores.filter fun e => e.2.alive).map fun e => e.1

/-- The place of a core in a round: its rank, then its number. -/
def turnKey (s : State) (k : Nat) : Nat := (s.core k).rank * 2 ^ 40 + k

/-- The running core of the lowest place from `bound` on. -/
def firstFrom (s : State) (bound : Nat) : Option Nat :=
  (liveCores s).foldl (fun a k =>
    if turnKey s k < bound then a
    else match a with
      | none => some k
      | some j => if turnKey s k < turnKey s j then some k else a) none

/-- The turn after a turn. -/
def nextTurn (s : State) : Nat × Phase → Nat × Phase
  | (k, .ap) => (k, .mx)
  | (k, .mx) => (k, .vx)
  | (k, .vx) => match firstFrom s (turnKey s k + 1) with
    | some j => (j, .ap)
    | none => (k, .tick)
  | (k, .tick) => match firstFrom s 0 with
    | some j => (j, .ap)
    | none => (k, .tick)

/-- The turn passes on. -/
def passTurn (s : State) : State := { s with turn := nextTurn s s.turn }

/-- The AP keeps the turn after an `ext`, which issues with the word it extends (02_encoding.md R32). -/
def apAfter (before after : State) : State :=
  if before.cur.ctx.ext.length < after.cur.ctx.ext.length then after else passTurn after

/-! ### The end of a core cycle -/

/-- The AP is stopped at a token pop or a held push, and each engine stream at one too or at no command (R361). -/
def tokensStuck (c : Core) : Bool :=
  let tok (n : Nat) : Bool := n == 1 || n == 2
  tok c.main.stall
    && (tok c.mx.stall || (c.mx.routine.isNone && !c.cmds.any fun m => m.eng == .mx && !m.started))
    && (tok c.vx.stall || (c.vc.atRet && c.vx.calls.isEmpty))

/-- A core at the end of a clock cycle: where it is not frozen, its pushes are made, its fences retire and its core cycle
count advances (R7, R24, R97, R105). -/
def coreTick (s : State) (k : Nat) (c : Core) : Core :=
  if !c.alive then c
  else if s.clock < c.since then (if c.frozen then { c with freeze := { c.freeze with len := c.freeze.len + 1 } } else c)
  else
    let c := if c.inHandler then retireFences s k c true else c
    if c.frozen then { c with freeze := { c.freeze with len := c.freeze.len + 1 } }
    else
      let due := (c.pushLater.filter fun e => decide (e.1 ≤ c.cycle)).map fun e => (e.2.1, e.2.2.1, e.2.2.2)
      let c := { c with pushReq := c.pushReq ++ due, pushLater := c.pushLater.filter fun e => !decide (e.1 ≤ c.cycle) }
      let c := resolvePushes (retireFences s k c false)
      { c with cycle := c.cycle + 1, wl := { c.wl with wait := if wlArrived c then c.wl.wait + 1 else 0 }
               freeze := { c.freeze with len := 0 }
               tokWait := if tokensStuck c then c.tokWait + 1 else 0 }

/-- How long a clock cycle takes on some dies, in the unit of `Config.cycleTime`: that of the slowest (24_device.md R393). -/
def cycleLen (s : State) (dies : List Nat) : Nat :=
  16 * Config.cycleTime / (16 - dies.foldl (fun a d => max a (smGet 0 s.dev.clockDiv d)) 0)

/-- The dies on which members of a region run. -/
def runDies (s : State) (rid : Nat) : List Nat :=
  (s.cores.filter fun c => c.2.rid == rid && c.2.run == .running).map fun c => dieOf c.1

/-- A region's times (R339, R342): while its members run, and while it is READY at its scoreboard's die. -/
def regionTick (s : State) (e : Nat × Region) : Nat × Region :=
  (e.1, match e.2.st with
    | .running =>
      if (runDies s e.1).isEmpty then e.2 else { e.2 with timeUsed := e.2.timeUsed + cycleLen s (runDies s e.1) }
    | .ready => { e.2 with waited := e.2.waited + cycleLen s [e.2.die] }
    | _ => e.2)

/-- A partition's queue watchdog (22_faults.md R362): it counts while a region runs, by the dies that its regions run on. -/
def partTick (s : State) (e : Nat × Part) : Nat × Part :=
  let running := s.regions.filter fun r => r.2.part == e.1 && r.2.st == .running
  if running.isEmpty then e
  else (e.1, { e.2 with qtimer := e.2.qtimer + cycleLen s (running.flatMap fun r => runDies s r.1) })

/-- The clock cycle ends. -/
def tickAll (s : State) : State :=
  { s with
    clock := s.clock + 1
    cores := s.cores.map fun e => (e.1, coreTick s e.1 e.2)
    regions := s.regions.map (regionTick s)
    parts := s.parts.map (partTick s) }

/-! ### The events of a cycle -/

/-- Events, where a condition holds. -/
def events (b : Bool) (l : List Instr) : List Instr := if b then l else []

/-- An event, once for each of n things that it may do. -/
def times (n : Nat) (i : Instr) : List Instr := List.replicate n i

/-- The events that open a core's cycle: freezes end, results land. -/
def landingEvents (eager : Bool) (k : Nat) (c : Core) : List Instr :=
  events c.freeze.ecc.isSome [.eccFreezeEnd k]
    ++ events eager (times (c.main.fly.countP (fun f => !f.arrived) + c.shadow.fly.countP fun f => !f.arrived) (.readReplyArrival k))
    ++ events (!c.main.fly.isEmpty || !c.main.rq.isEmpty || !c.shadow.fly.isEmpty || !c.shadow.rq.isEmpty) [.apResultLanding k]
    ++ events (!c.vx.fly.isEmpty) [.vxResultLanding k]

/-- Progress of a core's accesses, where nothing delays it. -/
def accessEvents (s : State) (k : Nat) (c : Core) : List Instr :=
  let rows (x : ApCtx) : Nat := (x.rq.map fun e => e.n - e.k).sum
  events (walkWanted s k).isSome [.translationWalk k]
    ++ times (rows c.main + rows c.shadow) (.readPerformed k .clean)
    ++ times (c.main.wq.length + c.shadow.wq.length) (.writePerformed k)

/-- The events that a core's cycle brings after its accesses: late replies, the handler, the decoder, watchdogs, retention. -/
def dueEvents (s : State) (k : Nat) (c : Core) : List Instr :=
  events ((lateVa c).isSome || c.freeze.late.isSome) [.lateReplyFreeze k]
    ++ events c.hnd.isSome [.handlerStart k]
    ++ events (!c.hndQ.isEmpty) [.handlerDelivery k]
    ++ events (!c.q.zm.isEmpty) [.zm1BlockDecode k]
    ++ events (decide (2 ^ 24 ≤ c.tokWait)) [.tokenDeadlock k]
    ++ events (decide (2 ^ 20 ≤ c.freeze.len)) [.lateReply k]
    ++ events (c.ret == .awake && c.run == .idle && decide (c.idle + 65536 ≤ s.clock)) [.retentionEntry k]
    ++ events (match c.ret with | .entering u => decide (u ≤ s.clock) | _ => false) [.retentionEntry k]

/-- Progress of the rows on their way, of the MXE's commands and of the word the AP is held at. -/
def unitEvents (s : State) (k : Nat) (c : Core) : List Instr :=
  times c.mx.ending.length (.mxRoutineRetire k)
    ++ events (c.cmds.any fun m => m.eng == .mx && !m.started) [.mxStagedWriteApply k, .mxRoutineStart k]
    ++ times (c.q.rowsIn.countP fun r => !r.lqm) (.ldqRowEntry k false)
    ++ times (c.q.rowsIn.countP fun r => r.lqm) (.ldqRowEntry k true)
    ++ (match tlbiWait c (ctxTime s k c.inHandler) with
      | some v => if wbits v 0 2 = 0 then [.tlbiPage k] else [.tlbiStage1 k]
      | none => [])
    ++ events (match c.asks with | some (.rgNext _ _) => true | _ => false) [.rgNextAnswer k]

/-- Progress of an engine command; one whose work has ended has only its release left. -/
def cmdEvents (k : Nat) (m : Cmd) : List Instr :=
  let q := m.seq
  if !m.started then (match m.eng with | .mx => [] | .vx => [] | _ => [.engineCommandStart k q])
  else if m.walk then []
  else match m.eng with
    | .bte _ =>
      if m.ended.isSome then [.bteCommandRetire k q ⟨0, 0⟩]
      else if 3 ≤ btKind m.op.desc then [.bteOverlayWrite k ⟨q, 0⟩, .bteCommandRetire k q ⟨0, 0⟩]
      else [.bteCommandRetire k q ⟨64, 0⟩, .bteRowEntry k q]
    | .link =>
      if m.done.isSome then [.linkCommandRetire k q]
      else if m.op.op = cxPut then [.linkPutDelivery k q 256]
      else if m.op.op = cxGet then [.linkGetComplete k q 256]
      else if m.op.op = cxAgath then
        (if m.pos = 0 then [.gatherItemPlace k q 0] else (List.range m.sub.length).map fun r => .gatherItemPlace k q r)
      else []
    | .seed => [.sdCommandRetire k q]
    | _ => []

/-- The notice of a newer attempt that is under way to a core (14_link.md R269, R270). -/
def noticeEvents (s : State) (k : Nat) (c : Core) : List Instr :=
  match (otherMembers s k).find? (fun j => (s.core j).alive && (s.core j).lk.att != c.lk.att
      && decide (((s.core j).lk.att - c.lk.att).toNat ≤ 127) && decide ((s.core j).lk.out ≤ (s.core j).cycle)) with
  | some j => [.abortNotice k (s.core j).lk.att.toNat]
  | none => []

/-- The events of a core, in the order in which they run. -/
def coreEvents (s : State) (e : Nat × Core) : List Instr :=
  let live := s.eager && e.2.alive
  landingEvents live e.1 e.2 ++ events live (noticeEvents s e.1 e.2) ++ events live (accessEvents s e.1 e.2) ++ dueEvents s e.1 e.2
    ++ events live (unitEvents s e.1 e.2) ++ events live (e.2.cmds.flatMap (cmdEvents e.1))

/-- The events of a cluster's Quern: phases, commits and checks, whose times are fixed (20_quern.md R315, R316), and, with `eager`, the
rest of its progress. -/
def quernEvents (s : State) (e : Nat × Quern) : List Instr :=
  match e.2.owner with
  | none => []
  | some k =>
    let busy := (s.core k).cmds.any fun m => m.eng == .quern && m.started
    events busy [.quernPhaseEnd e.1, .quernSweepEnd e.1, .quernColourCheck e.1]
      ++ events (s.eager && busy) [.quernCommandRetire ⟨e.1, 0⟩]
      ++ events (s.eager && e.2.releasing) [.quernRelease e.1]

/-- A member of a region stands at a word of a kind. -/
def regionHeld (s : State) (rid : Nat) (p : PendKind → Bool) : Bool :=
  s.cores.any fun e => e.2.rid == rid && e.2.alive && (match e.2.asks with
    | some k => p k
    | none => false)

/-- The ranks of a region in the order in which their reductions came to the link engines (14_link.md R266). -/
def arrivals (s : State) (rid : Nat) : List Nat :=
  let l := (s.cores.filter fun c => c.2.rid == rid && c.2.alive).filterMap fun c =>
    (c.2.cmds.find? fun m => m.eng == .link && m.op.op == cxAred && m.done.isNone).map fun m => (m.at_, c.2.rank)
  (sortBy (fun a b => decide (a.1 ≤ b.1)) l).map fun e => e.2

/-- The first die of a partition whose scoreboard has room for a region of it. -/
def dieWithRoom (s : State) (pn : Nat) : Option Nat := (partDies s pn).find? fun d => decide (inScoreboard s pn d < 1024)

/-- The events of a region that nothing delays. A running region is never pre-empted by them. -/
def regionEvents (s : State) (e : Nat × Region) : List Instr :=
  let r := e.1
  match e.2.st with
  | .journal => ((dieWithRoom s e.2.part).map fun d => .scoreboardEntry ⟨r, d⟩).toList
  | .staging => [.streamCopy r]
  | .ready => if issueTurn s r e.2 then ((openPlacements s e.2).head?.map fun p => .regionIssue r ⟨p, false⟩).toList else []
  | .running =>
    events (regionHeld s r fun k => match k with | .bar _ _ _ => true | _ => false) [.barrierComplete r]
      ++ events (s.cores.any fun c => c.2.rid == r && c.2.alive && c.2.cmds.any fun m =>
          m.eng == .link && m.op.op == cxAred && m.started && m.done.isNone) [.reductionComplete r (arrivals s r)]
      ++ events (regionHeld s r fun k => match k with | .wlOpen _ _ _ => true | .wlRound => true | .wlClose => true | _ => false)
        [.wlBarrierComplete r]
      ++ events (regionHeld s r fun k => match k with | .rgStep _ => true | .rgYield _ => true | _ => false)
        [.regionBarrierComplete r 0 []]
      ++ events (e.2.rcb.dual && !e.2.copies.isEmpty && e.2.copies.all Copy.finished) [.dualRunCompare r]
  | .suspended => [.preemption r]
  | .done => [.regionCompletion r]
  | .gone => []

/-- The events that the cycle about to run brings with it: those that time brings, and, with `eager`, the progress that
nothing delays. -/
def cycleEvents (s : State) : List Instr :=
  (sortBy (fun a b => decide (turnKey s a.1 ≤ turnKey s b.1)) s.cores).flatMap (coreEvents s)
    ++ (s.regions.flatMap fun e => events (e.2.st == .running && timeLeft e.2 == some 0) [.timebExpiry e.1])
    ++ (s.parts.flatMap fun e => events (decide (wbits e.2.qwd 0 32 ≠ 0)
          && decide (wbits e.2.qwd 0 32 * Config.usTime ≤ e.2.qtimer)) [.queueWatchdogExpiry e.1])
    ++ (s.cores.flatMap fun e => match e.2.ret with
          | .leaving u => events (s.eager && decide (u ≤ s.clock)) [.retentionExit e.1 []]
          | _ => [])
    ++ s.querns.flatMap (quernEvents s)
    ++ (s.regions.flatMap fun e => events (e.2.st == .running && wlDue s e.2) [.wlBarrierComplete e.1])
    ++ events s.eager (s.regions.flatMap (regionEvents s))
    ++ events (s.eager && !s.dev.overheat.isEmpty) [.thermalShutdown]

/-- The turn between two cycles: runs that a fault has ended end, members that have exited do, the clock advances, and the next
cycle's events are placed. -/
def endCycle (s : State) : State :=
  let t := tickAll (exitMembers (settleCycle s))
  { t with agenda := cycleEvents t }

/-! ### A step -/

/-- Continues an outcome. -/
def andThen (o : Out) (f : State → State) : Out :=
  match o with
  | .next s => .next (f s)
  | .fault r => .fault r
  | .refused r => .refused r

/-- What a core's cycle brings between its MXE's word and its VXE's bundle: progress of the MXE's words (R217), shadow checks whose time
has come (R174), the next call at a `vret` (R199). -/
def midCycle (k : Nat) (c : Core) : List Instr :=
  events (!c.mx.jobs.isEmpty) [.mxWordFinish k, .mxDrainRow k]
    ++ times (c.vx.checks.countP fun e => decide (e.prod.due + 1 ≤ c.cycle)) (.shadowCheck k 0)
    ++ events c.vc.atRet [.vxeCallTake k]

/-- The turn of the MXE is over. -/
def afterMx (s : State) : State := passTurn { s with agenda := s.agenda ++ midCycle s.turn.1 s.cur }

/-- A stream is tried in the cycle in which a freeze begins: what it does counts only where it faults, and the freeze is discarded
(22_faults.md R353). -/
def tried (s : State) (run : State → Out) : State :=
  match run (s.modCur fun c => { c with freeze := {}, hnd := none, hndQ := [] }) with
  | .next t => if (t.core s.turn.1).alive then s else t
  | _ => s

/-- The MXE's word and the progress of its earlier ones, as one. -/
def mxWhole (s : State) : Out :=
  match mxIssue s with
  | .next t => execMxWordFinish s.turn.1 t
  | o => o

/-- The turn of a stream, or of the clock. -/
noncomputable def turnStep (s : State) : Out :=
  match s.turn.2 with
  | .ap =>
    if apRuns s then andThen (apIssue s) (apAfter s)
    else .next (passTurn (if apTried s then tried s apIssue else s))
  | .mx =>
    if streamsRun s then andThen (mxIssue s) afterMx
    else .next (afterMx (if freezeBegins s then tried s mxWhole else s))
  | .vx =>
    .next (passTurn (if s.cur.vc.atRet then s
      else if streamsRun s then vxIssue s
      else if freezeBegins s then tried s (fun t => .next (vxIssue t)) else s))
  | .tick => .next (passTurn (endCycle s))

/-! ### Placing a word (log entry 5) -/

/-- The core that the words placed from outside run on. -/
def placeCore : Nat := 0

/-- Writes a word of 4 bytes into an instruction memory. -/
def putWord (m : SMap Byte) (a : Nat) (w : BitVec 32) : SMap Byte :=
  [0, 1, 2, 3].foldl (fun m i => smSet 0 m (4 * a + i) (byteOfWord w i)) m

/-- The word `vnop` without tokens (02_encoding.md R36). -/
def vnopWord : BitVec 32 := 0x007C0000

/-- Places a word at the fetch address of its stream; its bundle's other slots are `vnop`. A slot-1 or slot-2 word goes to its
slot (R33). -/
def putStream (c : Core) (st : Stream) (w : BitVec 32) : Core :=
  match st with
  | .ap => { c with apIm := putWord c.apIm c.main.pc.toNat w }
  | .mx => { c with mxIm := putWord c.mxIm c.mx.mpc w, mx := { c.mx with routine := some 0 } }
  | .vx =>
    let slot := match vxSlotOf (opOf w) with
      | some 1 => 1
      | some 2 => 2
      | _ => 0
    let im := [0, 1, 2].foldl (fun m t => putWord m (3 * c.vx.vpc.toNat + t) (if t = slot then w else vnopWord)) c.vxIm
    { c with vxIm := im, vc := { c.vc with atRet := false } }

/-- The phase of a stream. -/
def phaseOf : Stream → Phase
  | .ap => .ap
  | .mx => .mx
  | .vx => .vx

/-- A state in which the next step runs a word of a stream: the one member of a running region stands at it, with every
class permitted. -/
def placeWord (s : State) (st : Stream) (w : BitVec 32) : State :=
  let c := s.core placeCore
  let c := { c with
    run := .running, rid := 1, rank := 0, copy := none, since := s.clock, freeze := {}, hnd := none, hndQ := []
    sys := { c.sys with oum := BitVec.allOnes 48, ccm := BitVec.allOnes 48 }
    main := { c.main with bad := none, br := none, hold := 0, lead := 2 }
    vx := { c.vx with bad := none, br := none, hold := 0, busy := 0 }
    mx := { c.mx with window := { c.mx.window with busy := 0 } }
    imBad := [] }
  let g : Region := { part := 0, chan := none, seq := 1, age := 0, raw := 0, st := .running, members := [placeCore], runs := 1 }
  { (s.setCore placeCore (putStream c st w)) with
    regions := smPut s.regions 1 g
    nextRid := max s.nextRid 2
    agenda := []
    turn := (placeCore, phaseOf st) }

end Sys2Proof.Machine
end

