-- ==== Sys2Proof/Machine/Step.lean ====
section
/-!
DEFINITION. One step of the machine: the event at the head of the agenda, or the turn of a stream or of the clock.
-/

namespace Sys2Proof.Machine

/-- One step. A module that has been shut down has no core left to run (24_device.md R393). -/
noncomputable def step (s : State) : Host.Outcome State Fault Refusal :=
  match s.agenda with
  | i :: rest => exec i { s with agenda := rest }
  | [] => turnStep s

/-- The state with an opcode-table word stored where the next step fetches, in the stream that `tableStream` names (log
entries 1 and 5). -/
noncomputable def State.withFetchWord (s : State) (nbits w : Nat) : State :=
  placeWord s ((tableStream (tableWord nbits w)).getD .ap) (tableWord nbits w)

end Sys2Proof.Machine
end

