-- ==== Sys2Proof/Safety.lean ====
section
/-!
DEFINITION. What claims about runs are stated in: the invariant of the machine's data, when a word runs its own effect, and the
state that a word leaves (02_encoding.md R22-R27, 05_ap_model.md R103-R117).
-/

namespace Sys2Proof.Machine

/-- The data invariant: memory is in canonical form (log entry 2). -/
def State.Inv (s : State) : Prop := Memory.wf s.mem = true

/-! ### Words of the AP -/

/-- An AP word with header `h` and card `sp` runs its own effect: it passes the checks at decode (R26) and the capability masks
(R19; R357 in the handler), it waits for nothing (R7, R15, R142), and its guard holds (R25). -/
structure ApGoes (h : Hdr) (sp : ApSpec) (s : State) : Prop where
  vs : h.vs.toNat < 2
  ext : s.cur.ctx.ext = [] ∨ (sp.extOk = true ∧ s.cur.ctx.extBad = false)
  card : sp.bad = false
  owned : s.cur.inHandler = false → s.cur.sys.oum.getLsbD sp.cls = true
  healthy : s.cur.sys.ccm.getLsbD sp.cls = true
  handler : s.cur.inHandler = true →
    h.wp = false ∧ h.wn = false ∧ h.sp = false ∧ h.sn = false ∧ h.vs = 0 ∧ sp.cmd = false ∧ sp.mainOnly = false ∧ sp.cls < 4
  guard : pr s h.g = true
  free : s.cur.inHandler = false → ∀ e ∈ s.cur.pushWait, e.1 ≠ Stream.ap
  tokens : s.cur.ctx.popped = true ∨ ∀ f < 6, tokSum (hdrPops .ap h) f ≤ s.cur.tokens f
  fences : sp.mem = true ∨ sp.cmd = true → s.cur.ctx.fences = []
  room : sp.cmd = true → s.cur.cmds.length < 255
  copy : sp.mem = true ∨ sp.cmd = true ∨ sp.sends = true → s.cur.chkBad = false

/-- The tokens of a word's pushes, none of them zero. -/
def wordPushes (h : Hdr) : List (Nat × Nat) := (hdrPushes .ap h).filter fun e => e.2 != 0

/-- The current core after an AP word: `c` and `x` are what its own effect leaves of the core and of the context it runs in, the
pc already moved. The word takes its pops (unless they were taken, R26), asks for its pushes at the end of the cycle, or, for an
engine command, four cycles later (R117), uses up its `ext` words and takes its place in program order. -/
def coreDone (h : Hdr) (sp : ApSpec) (old c : Core) (x : ApCtx) : Core :=
  ({ c with
      tok := if old.ctx.popped then c.tok else (takePops c (hdrPops .ap h)).tok
      pushReq := if sp.noPush || (sp.cmd && !sp.accepted) then c.pushReq
                 else c.pushReq ++ (wordPushes h).map fun e => (Stream.ap, e.1, e.2)
      pushLater := if !sp.noPush && (sp.cmd && !sp.accepted)
                   then c.pushLater ++ (wordPushes h).map fun e => (c.cycle + 4, Stream.ap, e.1, e.2)
                   else c.pushLater } : Core).setCtx
    { x with popped := false, lead := 0, ext := [], extBad := false, po := x.po + 1, stall := 0 }

/-- The state after an AP word. -/
def wordDone (h : Hdr) (sp : ApSpec) (s : State) (c : Core) (x : ApCtx) : State := s.setCur (coreDone h sp s.cur c x)

/-- What a step leaves alone besides the current core: every byte of memory, and every other core. -/
structure OnlyCur (s t : State) : Prop where
  bytes : ∀ a, memByte t a = memByte s a
  others : ∀ k, k ≠ s.turn.1 → t.core k = s.core k
  rest : { t with cores := s.cores } = s

/-- What a step leaves alone besides core `k`. -/
structure OnlyCore (k : Nat) (s t : State) : Prop where
  bytes : ∀ a, memByte t a = memByte s a
  others : ∀ j, j ≠ k → t.core j = s.core j
  rest : { t with cores := s.cores } = s

/-- An AP word runs: the next state is the one its effect gives, and nothing but the current core differs. -/
structure WordRuns (i : Instr) (h : Hdr) (sp : ApSpec) (s : State) (c : Core) (x : ApCtx) : Prop where
  next : exec i s = .next (wordDone h sp s c x)
  frame : OnlyCur s (wordDone h sp s c x)

/-- The context with a result on its way to `dst`; a destination that discards writes has none (R104, R118). -/
def ApCtx.gets (x : ApCtx) (due : Nat) (dst : Option ApDst) (v : Word) : ApCtx :=
  match dst with
  | some d => { x with fly := x.fly ++ [{ due := due, po := x.po, dst := d, val := v }] }
  | none => x

/-- The place of a result for p[D]; p0 discards writes. -/
def pDst (d : BitVec 3) : Option ApDst := if d = 0 then none else some (.p d.toNat)

/-- A word whose whole effect is one result: after `lat` cycles, value `v`, to `dst`. -/
def Writes (i : Instr) (h : Hdr) (sp : ApSpec) (s : State) (lat : Nat) (dst : Option ApDst) (v : Word) : Prop :=
  WordRuns i h sp s s.cur ((s.cur.ctx.gets (apTime s + lat) dst v).advance s.cur.apWords)

/-! ### Slot words of the VXE -/

/-- The pushes of a word of a stream are asked for (R24); no transfer of no tokens. -/
def asking (c : Core) (st : Stream) (h : Hdr) : Core :=
  { c with pushReq := c.pushReq ++ ((hdrPushes st h).filter fun e => e.2 != 0).map fun e => (st, e.1, e.2) }

/-- A slot word with header `h`, of class `cls`, for slot `slot` (3: any), runs its own effect in the bundle that issues: it passes
the checks at decode and the masks (R19, R26, R33, R36), and its guard holds (R25). -/
structure VxGoes (h : Hdr) (cls slot : Nat) (imm : Bool) (s : State) : Prop where
  vs : h.vs.toNat < 2
  slot : slot = 3 ∨ slot = s.cur.vc.slot
  ext : smGet [] s.cur.vx.ext s.cur.vc.slot = [] ∨ (imm = true ∧ s.cur.vx.extBad.contains s.cur.vc.slot = false)
  owned : s.cur.sys.oum.getLsbD cls = true
  healthy : s.cur.sys.ccm.getLsbD cls = true
  guard : vp s.cur h.g = true

/-- The source registers hold no uncorrectable error (R367) and, in the lanes `m`, no wrong check bits (R174). -/
def Readable (s : State) (srcs : List (BitVec 5)) (m : BitVec 96) : Prop :=
  ∀ n ∈ srcs, vphys s.cur n ∉ s.cur.vx.poisoned ∧ smGet 0 s.cur.vx.badLanes (vphys s.cur n) &&& m = 0

/-- The core `c` with the result of a slot word on its way (R165): it lands, with the word's pushes, after `lat` cycles. -/
def vxFlying (h : Hdr) (s : State) (c : Core) (lat : Nat) (dsts : List VxDst) (cnt : Cnt) : Core :=
  { c with vx := { c.vx with
      fly := c.vx.fly ++ [{ due := s.cur.cycle + lat, order := s.cur.vc.order, dsts := dsts, cnt := cnt, tid := vtidOf s.cur,
                            pushes := hdrPushes .vx h }] } }

/-- A slot word runs and sends its result on its way; nothing but the current core differs, which is otherwise `c`. -/
structure VxLands (i : Instr) (h : Hdr) (s : State) (c : Core) (lat : Nat) (dsts : List VxDst) (cnt : Cnt) : Prop where
  next : exec i s = .next (s.setCur (vxFlying h s c lat dsts cnt))
  frame : OnlyCur s (s.setCur (vxFlying h s c lat dsts cnt))

/-- A slot word runs and is finished at issue, with its pushes; nothing but the current core differs, which is otherwise `c`. -/
structure VxDone (i : Instr) (h : Hdr) (s : State) (c : Core) : Prop where
  next : exec i s = .next (s.setCur (asking c .vx h))
  frame : OnlyCur s (s.setCur (asking c .vx h))

/-- Element j, a lane or a half-lane, is not masked off (R161). -/
def lit (s : State) (half : Bool) (j : Nat) : Bool := (vmask s.cur).getLsbD (if half then j / 2 else j)

/-- A word whose result is a row of elements for vD: each unmasked one has its value, the others are not written (R161, R162), and
the events of the unmasked ones are counted (R72). -/
def ElemWord (i : Instr) (h : Hdr) (s : State) (c : Core) (lat : Nat) (half : Bool) (d : BitVec 5) (g : Nat → Rnd) : Prop :=
  ∃ row, VxLands i h s c lat [.v (vphys s.cur d) row (halfMask (vmask s.cur))]
      (sumCnt (((List.range (if half then 192 else 96)).filter (lit s half)).map g))
    ∧ ∀ j < (if half then 192 else 96), lit s half j = true →
        rowElem half row j = (g j).bits % 2 ^ (if half then 16 else 32)

/-- A word whose result is a 32-bit value in each unmasked lane, with nothing counted. -/
def LaneWord (i : Instr) (h : Hdr) (s : State) (lat : Nat) (d : BitVec 5) (v : Nat → Lane) : Prop :=
  ElemWord i h s s.cur lat false d fun k => ⟨(v k).toNat, {}⟩

/-- A floating-point word: `op` takes the operands' bits, flushed under VNM.FTZI (R65), and the element's number; flushes are counted
with the rounding's events. -/
def FloatWord (i : Instr) (h : Hdr) (s : State) (f : Fmt) (lat : Nat) (d : BitVec 5) (srcs : List (BitVec 5))
    (op : List Nat → Nat → Rnd) : Prop :=
  Readable s srcs (vmask s.cur) → ElemWord i h s s.cur lat (fmtHalf f) d fun j =>
    let ins := srcs.map fun r => vin s.cur f (rowElem (fmtHalf f) (vreg s.cur r) j)
    let r := op (ins.map Prod.fst) j
    ⟨r.bits, (inCnt ins).plus r.cnt⟩

/-! ### Words of the MXE -/

/-- An MXE word with header `h` and class `cls` runs its own effect: it passes the checks at decode and the masks (R19, R26), it waits for
no token and holds no push (R7), and its position predicate holds (R214). -/
structure MxGoes (h : Hdr) (cls : Nat) (s : State) : Prop where
  vs : h.vs.toNat < 2
  owned : s.cur.sys.oum.getLsbD cls = true
  healthy : s.cur.sys.ccm.getLsbD cls = true
  guard : mxPred s.cur.mx h.g.toNat = true
  free : ∀ e ∈ s.cur.pushWait, e.1 ≠ Stream.mx
  tokens : s.cur.mx.popped = true ∨ ∀ f < 6, tokSum (hdrPops .mx h) f ≤ s.cur.tokens f

/-- The matrix engine as a word that issues notes itself in the replay window (R220). -/
def mxNoted (x : Mx) : Mx := { x with window := { x.window with words := x.window.words + 1 } }

/-- The current core after an MXE word whose effect leaves the engine as `x`: its pops are taken. -/
def mxCore (h : Hdr) (s : State) (x : Mx) : Core :=
  { s.cur with
    tok := if s.cur.mx.popped then s.cur.tok else (takePops s.cur (hdrPops .mx h)).tok
    mx := { x with popped := false, stall := 0 } }

/-- An MXE word runs, finishes at issue and makes its pushes; nothing but the current core differs. -/
structure MxDone (i : Instr) (h : Hdr) (s : State) (x : Mx) : Prop where
  next : exec i s = .next (s.setCur (asking (mxCore h s x) .mx h))
  frame : OnlyCur s (s.setCur (asking (mxCore h s x) .mx h))

/-- An MXE word runs and goes on after issue as the job `j` (R217), which keeps its pushes; MPC advances. -/
def MxJob (i : Instr) (h : Hdr) (s : State) (x : Mx) (j : Job) : Prop :=
  let t := s.setCur (mxCore h s { x with
    mpc := s.cur.mx.mpc + 1
    jobs := x.jobs ++ [{ j with cmd := x.routine.getD 0, next := s.cur.cycle, pushes := hdrPushes .mx h, mpc := s.cur.mx.mpc }] })
  exec i s = .next t ∧ OnlyCur s t

/-! ### Events -/

/-- A step whose whole effect is that core `k` becomes `c`. -/
structure CoreBecomes (i : Instr) (s : State) (k : Nat) (c : Core) : Prop where
  next : exec i s = .next (s.setCore k c)
  frame : OnlyCore k s (s.setCore k c)

/-- A step that leaves the state as it is: its condition does not hold. -/
def Idle (i : Instr) (s : State) : Prop := exec i s = .next s

/-- The bytes that an access of `n` bytes at `va` by core `k` names, in `State.mem`. -/
def namesByte (s : State) (k : Nat) (xl : List Xl) (va : Word) (n a : Nat) : Prop :=
  ∃ i < n, ∃ g, byteLoc s k xl (va + w64 i) = some (a, g)

/-- What a write leaves of a core: everything but the swizzle tags of its scratchpad rows (03_numbers.md R71). -/
def tagsAside (t s : State) (j : Nat) : Prop := { t.core j with swz := (s.core j).swz } = s.core j

/-- `t` is `s` with the bytes `bs` written from `va` upwards, through the translations `xl`, by core `k`: each address the access names
holds the byte that it names there last, every other byte is as before, and nothing else changes but key tags, errors of written
units and swizzle tags (03_numbers.md R71, 04_memory.md R83). -/
structure Wrote (k : Nat) (xl : List Xl) (va : Word) (bs : List Byte) (s t : State) : Prop where
  bytes : ∀ (i : Nat) (b : Byte), bs[i]? = some b → ∀ a g, byteLoc s k xl (va + w64 i) = some (a, g) →
    (∀ j, i < j → j < bs.length → ∀ g', byteLoc s k xl (va + w64 j) ≠ some (a, g')) → memByte t a = b
  apart : ∀ a, ¬ namesByte s k xl va bs.length a → memByte t a = memByte s a
  cores : ∀ j, tagsAside t s j
  rest : { t with mem := s.mem, keyTag := s.keyTag, poison := s.poison, cores := s.cores } = s

/-- A step whose whole effect is that region `r` becomes `g`. -/
structure RegionBecomes (i : Instr) (s : State) (r : Nat) (g : Region) : Prop where
  next : exec i s = .next (s.setRegion r g)
  others : ∀ q, q ≠ r → (s.setRegion r g).region? q = s.region? q
  rest : { s.setRegion r g with regions := s.regions } = s

/-- A step whose whole effect is that partition `p` becomes `v`, and an answer to the host. -/
structure PartBecomes (i : Instr) (s : State) (p : Nat) (v : Part) (r : Reply) : Prop where
  next : exec i s = .next (replyWith (s.setPart p v) r)
  others : ∀ q, q ≠ p → (s.setPart p v).part q = s.part q
  rest : { s.setPart p v with parts := s.parts } = s

/-- A step whose whole effect is an answer to the host. -/
def Answers (i : Instr) (s : State) (r : Reply) : Prop := exec i s = .next (replyWith s r)

end Sys2Proof.Machine
end

