-- ==== Sys2Proof/WellFormed.lean ====
section
/-!
DEFINITION. Well-formed instructions: what a word's own fields must satisfy, whatever the state (02_encoding.md R23, R28 and
the cards). A word that is not well-formed decodes and runs: its meaning raises the fault its card names. An immediate that
`ext` or `vext` words may extend is checked by the meaning, which knows the whole of it.
-/

namespace Sys2Proof

/-- VS is 0 or 1 (R23). -/
def Hdr.wf (h : Hdr) : Bool := decide (h.vs.toNat < 2)

/-- A working core's number (01_machine.md R4). -/
def wfCore (core : Nat) : Bool := decide (core % 32 < 24)

/-- A row count of the MXE: 1 to 192 (11_mxe_instr.md R230). -/
def wfRows (n : BitVec 8) : Bool := n != 0 && decide (n.toNat ≤ 192)

/-- A format operand of the MXE: F0 to F15 or `fx` (R230). -/
def wfFormat (f : BitVec 5) : Bool := decide (f.toNat ≤ 16)

/-- A group of `n` consecutive registers that starts at x[A] stays within the file. -/
def wfGroup (a : BitVec 5) (n : Nat) : Bool := decide (a.toNat + n ≤ 32)

/-- The operand fields of an instruction are ones its card permits; a step of the machine names things that exist. -/
def Instr.fieldsWf : Instr → Bool
  | .cmp _ c _ _ _ => decide (c.toNat < 6)
  | .ldq _ f _ _ => !(f.getLsbD 0 && f.getLsbD 1)
  | .fence _ k sc => k != 3 && decide (sc.toNat < 5)
  | .amoIncb _ d _ _ => !d.getLsbD 0
  | .amoFaddlim _ d _ _ => !d.getLsbD 0
  | .mxtab _ d _ => decide (d.toNat ≤ 6)
  | .mxfmt _ d _ => decide (d.toNat ≤ 15)
  | .mxpert _ d _ => decide (d.toNat ≤ 2)
  | .wlOpen _ _ a => wfGroup a 2
  | .pbLoad _ a _ => wfGroup a 3
  | .pbColour _ a _ => wfGroup a 3
  | .pbClamp _ a => wfGroup a 3
  | .pbSweep _ a _ => wfGroup a 4
  | .pbRead _ a => wfGroup a 2
  | .pbMom _ a _ => wfGroup a 3
  | .sdEmit _ a => wfGroup a 4
  | .sdApply _ a => wfGroup a 3
  | .sdGap _ a => wfGroup a 3
  | .sdFetch _ a => wfGroup a 4
  | .sdKey _ a => wfGroup a 3
  | .cxPut _ a => wfGroup a 4
  | .cxGet _ a => wfGroup a 4
  | .cxWcnt _ _ a m => wfGroup a 2 && decide (m.toNat < 2)
  | .cxAred _ a => wfGroup a 5
  | .cxAgath _ a => wfGroup a 4
  | .rgSpawn _ _ a => wfGroup a 2
  | .mxLdw _ f => wfFormat f
  | .mxRun _ f n _ => wfFormat f && wfRows n
  | .mxDrain _ _ _ _ n _ => wfRows n
  | .mxFsel _ l _ _ => decide (l.toNat < 6)
  | .vcmpF16 _ _ q _ _ => !q.getLsbD 0
  | .vcmpBf16 _ _ q _ _ => !q.getLsbD 0
  | .vicmp _ c _ _ _ => decide (c.toNat < 6)
  | .vcvt _ _ _ c => decide (c.toNat < 16)
  | .vpack _ _ _ f => f != 7
  | .vpackS _ _ _ f => decide (f.toNat < 3)
  | .vunpk _ _ _ f => f != 7
  | .vunpkS _ _ _ f => decide (f.toNat < 4)
  | .trow _ r _ _ => decide (r.toNat < 96)
  | .tcol _ _ c _ => decide (c.toNat < 96)
  | .vgrt _ _ _ k sc => decide (k.toNat < 6) && sc != 3
  | .vrand _ _ k sc => decide (k.toNat < 6) && sc != 3
  | .illegalOpcode _ _ => false
  | .illegalField _ _ => false
  | .capabilityFence core cls => wfCore core && decide (cls < 26)
  | .inFieldTestStart core cls => wfCore core && decide (cls < 26)
  | .inFieldTest core _ => wfCore core
  | .regionIssue _ place => place.cores.all wfCore
  | .hostAtomic _ op size _ _ _ => decide (op < 3) && (size == 32 || size == 64 || size == 128)
  | .hostMemoryRequest _ _ len wr => match wr with
    | some l => l.length == len
    | none => true
  | .submission _ rec _ => rec.length == 64
  | .dbgkeyWrite _ idx _ _ => decide (idx < 4)
  | _ => true

/-- A well-formed instruction. -/
def Instr.wf (i : Instr) : Bool :=
  (match i.hdr with
    | some h => h.wf
    | none => true) && i.fieldsWf

end Sys2Proof
end

