-- ==== Sys2Proof/Certificates/Slice0/Obligations.lean ====
section
/-!
DEFINITION. The statements to be proved. Those that stand for several rules name their parts, which are written out above them. -/

open Sys2Proof Sys2Proof.Machine

/-! ### Access processor: integer words -/

namespace Sys2Proof.Claims

/-- A word of the R form with X = 0 whose fields D, A and B are register numbers; with X = 1 it is refused (02_encoding.md R28). -/
def RForm (op : BitVec 7) (mk : Hdr → BitVec 5 → BitVec 5 → BitVec 5 → Instr) : Prop :=
  ∀ (h : Hdr) (d a b : BitVec 5), decodeAp (packWord h op (d ++ a ++ b ++ (0 : BitVec 1))) = mk h d a b
    ∧ decodeAp (packWord h op (d ++ a ++ b ++ (1 : BitVec 1))) = .illegalField .ap (packWord h op (d ++ a ++ b ++ (1 : BitVec 1)))

/-- A word of capability class `cls`: outside the handler it faults with 0x06 where the OUM does not hold the class, and with 0x07 where the core's
mask does not (02_encoding.md R26). -/
def InClass (cls : Nat) (mk : Hdr → BitVec 5 → BitVec 5 → BitVec 5 → Instr) : Prop :=
  ∀ (h : Hdr) (d a b : BitVec 5) (s : State), h.vs.toNat < 2 → s.cur.inHandler = false → s.cur.main.ext = [] →
    (s.cur.sys.oum.getLsbD cls = false → exec (mk h d a b) s = .next (apFault s 0x06 none))
    ∧ (s.cur.sys.oum.getLsbD cls = true → s.cur.sys.ccm.getLsbD cls = false → exec (mk h d a b) s = .next (apFault s 0x07 none))

end Sys2Proof.Claims

open Sys2Proof.Claims

/-- 06_ap_instr.md R120: the register-register words write op(x[A], x[B]) to x[D] with latency 1 (to x0: nothing, R118), in class
AP.ALU, and nothing else changes but the pc, the tokens and the program order. -/
def Obligations.ApIntegerWords : Prop :=
  (RForm 0x01 .add ∧ RForm 0x02 .sub ∧ RForm 0x03 .and ∧ RForm 0x04 .or ∧ RForm 0x05 .xor ∧ RForm 0x06 .andn ∧ RForm 0x07 .shl ∧ RForm 0x08 .shr
    ∧ RForm 0x09 .sra ∧ RForm 0x0A .rotl ∧ RForm 0x0B .min ∧ RForm 0x0C .max ∧ RForm 0x0D .minu ∧ RForm 0x0E .maxu)
  ∧ (∀ mk ∈ [Instr.add, .sub, .and, .or, .xor, .andn, .shl, .shr, .sra, .rotl, .min, .max, .minu, .maxu], InClass 0 mk)
  ∧ ∀ (h : Hdr) (d a b : BitVec 5) (s : State), ApGoes h { cls := 0 } s →
    let w (i : Instr) (v : Word) : Prop := Writes i h { cls := 0 } s 1 (xDst d) v
    let n := (xr s b).toNat % 64
    w (.add h d a b) (xr s a + xr s b) ∧ w (.sub h d a b) (xr s a - xr s b)
    ∧ w (.and h d a b) (xr s a &&& xr s b) ∧ w (.or h d a b) (xr s a ||| xr s b)
    ∧ w (.xor h d a b) (xr s a ^^^ xr s b) ∧ w (.andn h d a b) (xr s a &&& ~~~xr s b)
    ∧ w (.shl h d a b) (xr s a <<< n) ∧ w (.shr h d a b) (xr s a >>> n)
    ∧ w (.sra h d a b) ((xr s a).sshiftRight n) ∧ w (.rotl h d a b) ((xr s a).rotateLeft n)
    ∧ w (.min h d a b) (if (xr s a).toInt ≤ (xr s b).toInt then xr s a else xr s b)
    ∧ w (.max h d a b) (if (xr s a).toInt ≤ (xr s b).toInt then xr s b else xr s a)
    ∧ w (.minu h d a b) (if (xr s a).toNat ≤ (xr s b).toNat then xr s a else xr s b)
    ∧ w (.maxu h d a b) (if (xr s a).toNat ≤ (xr s b).toNat then xr s b else xr s a)

/-- 06_ap_instr.md R121: the products with latency 3, the quotient and remainder with latency 12, in class AP.MUL; a zero divisor
gives all ones, and the dividend. -/
def Obligations.ApMultiplyDivide : Prop :=
  (RForm 0x0F .mul ∧ RForm 0x10 .mulh ∧ RForm 0x11 .mulhu ∧ RForm 0x12 .divu ∧ RForm 0x13 .remu)
  ∧ (∀ mk ∈ [Instr.mul, .mulh, .mulhu, .divu, .remu], InClass 1 mk)
  ∧ ∀ (h : Hdr) (d a b : BitVec 5) (s : State), ApGoes h { cls := 1 } s →
    let w (i : Instr) (lat : Nat) (v : Word) : Prop := Writes i h { cls := 1 } s lat (xDst d) v
    w (.mul h d a b) 3 (xr s a * xr s b)
    ∧ w (.mulh h d a b) 3 (BitVec.ofInt 64 ((xr s a).toInt * (xr s b).toInt / 2 ^ 64))
    ∧ w (.mulhu h d a b) 3 (BitVec.ofNat 64 ((xr s a).toNat * (xr s b).toNat / 2 ^ 64))
    ∧ (xr s b ≠ 0 → w (.divu h d a b) 12 (BitVec.ofNat 64 ((xr s a).toNat / (xr s b).toNat))
        ∧ w (.remu h d a b) 12 (BitVec.ofNat 64 ((xr s a).toNat % (xr s b).toNat)))
    ∧ (xr s b = 0 → w (.divu h d a b) 12 0xFFFFFFFFFFFFFFFF ∧ w (.remu h d a b) 12 (xr s a))

namespace Sys2Proof.Claims

/-- 06_ap_instr.md R122, R123: counts of bits, address sums, extensions of the low n bits (the field holds n - 1), and bit fields
at POS = x[B][5:0] of LEN = x[B][13:8] + 1 bits. -/
def ApBitWords : Prop :=
  ∀ (h : Hdr) (d a b : BitVec 5) (n : BitVec 6) (s : State), ApGoes h { cls := 0 } s →
    let w (i : Instr) (v : Word) : Prop := Writes i h { cls := 0 } s 1 (xDst d) v
    let pos := (xr s b).toNat % 64
    let len := (xr s b).toNat / 256 % 64 + 1
    let field := (xr s a).toNat / 2 ^ pos % 2 ^ len
    (∃ z, w (.clz h d a) (BitVec.ofNat 64 z) ∧ z ≤ 64 ∧ (xr s a = 0 → z = 64)
      ∧ (xr s a ≠ 0 → 2 ^ (63 - z) ≤ (xr s a).toNat ∧ (xr s a).toNat < 2 ^ (64 - z)))
    ∧ w (.popc h d a) (BitVec.ofNat 64 ((List.range 64).countP fun k => (xr s a).getLsbD k))
    ∧ w (.lea h d a b) (xr s a + xr s b) ∧ w (.leaD h d a b) (xr s a + 8 * xr s b)
    ∧ w (.sext h d a n) (((xr s a).setWidth (n.toNat + 1)).signExtend 64)
    ∧ w (.zext h d a n) (((xr s a).setWidth (n.toNat + 1)).zeroExtend 64)
    ∧ w (.bfx h d a b) (BitVec.ofNat 64 field)
    ∧ w (.bfxS h d a b) ((BitVec.ofNat len field).signExtend 64)
    ∧ ∃ v, w (.bfi h d a b) v ∧ ∀ k < 64,
        v.getLsbD k = if pos ≤ k ∧ k < pos + len then (xr s a).getLsbD (k - pos) else (xr s d).getLsbD k

/-- The bits that `ext` words and the field give an immediate of n bits, the `ext` words uppermost (02_encoding.md R30). -/
def immediateBits {n : Nat} (s : State) (i : BitVec n) : Nat :=
  s.cur.ctx.ext.foldl (fun a e => a * 65536 + e.toNat) 0 * 2 ^ n + i.toNat

/-- 06_ap_instr.md R124 with 02_encoding.md R29, R30: the immediate words; a signed immediate extends from its top assembled bit,
a shift amount is 0 to 63, and `movi` has an 11-bit field. -/
def ApImmediateWords : Prop :=
  ∀ (h : Hdr) (d a : BitVec 5) (i : BitVec 6) (j : BitVec 11) (s : State), ApGoes h { cls := 0, extOk := true } s →
    let w (q : Instr) (v : Word) : Prop := Writes q h { cls := 0, extOk := true } s 1 (xDst d) v
    let e := s.cur.ctx.ext.length
    let im : Word := (BitVec.ofNat (6 + 16 * e) (immediateBits s i)).signExtend 64
    let n := immediateBits s i
    w (.addi h d a i) (xr s a + im) ∧ w (.andi h d a i) (xr s a &&& im)
    ∧ w (.ori h d a i) (xr s a ||| im) ∧ w (.xori h d a i) (xr s a ^^^ im)
    ∧ (n < 64 → w (.shli h d a i) (xr s a <<< n) ∧ w (.shri h d a i) (xr s a >>> n)
        ∧ w (.srai h d a i) ((xr s a).sshiftRight n))
    ∧ w (.movi h d j) ((BitVec.ofNat (11 + 16 * e) (immediateBits s j)).signExtend 64)

end Sys2Proof.Claims

/-- Bit words and immediate words: value, latency 1, frame. -/
def Obligations.ApBitAndImmediateWords : Prop :=
  Claims.ApBitWords ∧ Claims.ApImmediateWords

namespace Sys2Proof.Claims

/-- 06_ap_instr.md R125-R128: compares and functions of predicates write p[D] with latency 1 (to p0: nothing, R118); `pmov` moves
the whole predicate file, of which bit 0 is always 1. -/
def ApPredicateWords : Prop :=
  ∀ (h : Hdr) (d a b : BitVec 5) (p q r : BitVec 3) (s : State), ApGoes h { cls := 0 } s →
    let w (j : Instr) (v : Bool) : Prop := Writes j h { cls := 0 } s 1 (pDst p) (if v then 1 else 0)
    let x := xr s a
    let y := xr s b
    let f (c : BitVec 3) (v : Bool) : Prop := w (.plog h c p q r) v
    w (.cmp h 0 p a b) (x == y) ∧ w (.cmp h 1 p a b) (x != y)
    ∧ w (.cmp h 2 p a b) (decide (x.toInt < y.toInt)) ∧ w (.cmp h 3 p a b) (decide (y.toInt ≤ x.toInt))
    ∧ w (.cmp h 4 p a b) (decide (x.toNat < y.toNat)) ∧ w (.cmp h 5 p a b) (decide (y.toNat ≤ x.toNat))
    ∧ f 0 (pr s q && pr s r) ∧ f 1 (pr s q || pr s r) ∧ f 2 (pr s q != pr s r) ∧ f 3 (pr s q && !pr s r)
    ∧ f 4 (!(pr s q && pr s r)) ∧ f 5 (!(pr s q || pr s r)) ∧ f 6 (pr s q == pr s r) ∧ f 7 (pr s q || !pr s r)
    ∧ (∃ v, Writes (.pmovToX h d) h { cls := 0 } s 1 (xDst d) v ∧ v.toNat < 256 ∧ ∀ k : BitVec 3, v.getLsbD k.toNat = pr s k)
    ∧ Writes (.pmovToPf h a) h { cls := 0 } s 1 (some .pf) x

/-- 06_ap_instr.md R126: `cmpi` compares x[A] with the assembled immediate, read as signed. -/
def ApCompareImmediate : Prop :=
  ∀ (h : Hdr) (p : BitVec 3) (a : BitVec 5) (i : BitVec 6) (s : State), ApGoes h { cls := 0, extOk := true } s →
    let w (c : BitVec 2) (v : Bool) : Prop :=
      Writes (.cmpi h c p a i) h { cls := 0, extOk := true } s 1 (pDst p) (if v then 1 else 0)
    let x := xr s a
    let im : Word := (BitVec.ofNat (6 + 16 * s.cur.ctx.ext.length) (immediateBits s i)).signExtend 64
    w 0 (x == im) ∧ w 1 (x != im) ∧ w 2 (decide (x.toInt < im.toInt)) ∧ w 3 (decide (im.toInt ≤ x.toInt))

end Sys2Proof.Claims

/-- Compares, predicate functions and pmov: value, latency 1, frame. -/
def Obligations.ApPredicates : Prop :=
  Claims.ApPredicateWords ∧ Claims.ApCompareImmediate

/-! ### Access processor: control flow and system words -/

namespace Sys2Proof.Claims

/-- 05_ap_model.md R114-R116: where the pc goes after a word, and whether as the target of a branch. A delay word counts down to the transfer and
examines no loop. In sequence, the active loops whose END is the pc are examined from the larger START down: those whose COUNT is 1 end, the first
whose COUNT is larger goes back to its START. -/
def PcSequence : Prop :=
  ∀ (x : ApCtx) (lim : Nat),
    let loop (k : Nat) : Loop := smGet ⟨0, 0, 0⟩ x.loops k
    let here (k : Nat) : Prop := k < 4 ∧ (loop k).count ≠ 0 ∧ (loop k).stop.toNat = x.pc.toNat
    let next := w64 (x.pc.toNat + 1)
    (∀ b, x.br = some b → 1 < b.left →
        x.advance lim = ({ x with br := some ⟨b.left - 1, b.target⟩, via := false } : ApCtx).goto lim next)
    ∧ (∀ b, x.br = some b → b.left ≤ 1 → x.advance lim = ({ x with br := none, via := true } : ApCtx).goto lim b.target)
    ∧ (x.br = none → (∀ k, ¬ here k) → x.advance lim = ({ x with via := false } : ApCtx).goto lim next)
    ∧ (x.br = none → (∀ k, here k → (loop k).count = 1) → ∃ m,
        x.advance lim = ({ x with loops := m, via := false } : ApCtx).goto lim next
        ∧ ∀ k, (here k → smGet ⟨0, 0, 0⟩ m k = { loop k with count := 0 }) ∧ (¬ here k → smGet ⟨0, 0, 0⟩ m k = loop k))
    ∧ (∀ n, x.br = none → here n → 1 < (loop n).count.toNat →
        (∀ k, here k → k ≠ n → (loop k).start ≠ (loop n).start ∧ ((loop n).start < (loop k).start → (loop k).count = 1)) →
        ∃ m, x.advance lim = ({ x with loops := m, via := false } : ApCtx).goto lim ((loop n).start.zeroExtend 64)
          ∧ smGet ⟨0, 0, 0⟩ m n = { loop n with count := (loop n).count - 1 }
          ∧ ∀ k, k ≠ n →
            (here k ∧ (loop n).start < (loop k).start → smGet ⟨0, 0, 0⟩ m k = { loop k with count := 0 })
            ∧ (¬ (here k ∧ (loop n).start < (loop k).start) → smGet ⟨0, 0, 0⟩ m k = loop k))

/-- 06_ap_instr.md R129-R131 with 05_ap_model.md R114: `bprep` and `bset` write b[n] with latency 1; a taken `bxfer` links, notes its
address in BRREC, and transfers after d delay words to b[n] as read now, no earlier than three cycles later. -/
def ApBranchWords : Prop :=
  ∀ (h : Hdr) (n d : BitVec 2) (a l : BitVec 5) (i : BitVec 14) (s : State),
    (ApGoes h { cls := 0, extOk := true } s →
      Writes (.bprep h n i) h { cls := 0, extOk := true } s 1 (some (.b n.toNat))
        (s.cur.ctx.pc.zeroExtend 64 + (BitVec.ofNat (14 + 16 * s.cur.ctx.ext.length) (immediateBits s i)).signExtend 64))
    ∧ (ApGoes h { cls := 0 } s → Writes (.bset h n a) h { cls := 0 } s 1 (some (.b n.toNat)) (xr s a))
    ∧ (ApGoes h { cls := 0 } s → s.cur.ctx.br = none →
        let pc := s.cur.ctx.pc
        let x := s.cur.ctx.gets (apTime s + 1) (xDst l) (pc.zeroExtend 64 + 1 + d.zeroExtend 64)
        let x := { x with hold := apTime s + 3, via := d == 0 }
        WordRuns (.bxfer h n d l) h { cls := 0 } s { s.cur with sys := { s.cur.sys with brrec := pc } }
          (if d = 0 then x.goto s.cur.apWords (br s n)
           else ({ x with br := some ⟨d.toNat, br s n⟩ } : ApCtx).goto s.cur.apWords (pc.zeroExtend 64 + 1)))

/-- 05_ap_model.md R115 with 06_ap_instr.md R129: a target outside the instruction memory is no fault of the branch; the fetch of
it faults with 0x20, at the first `ext` of its unit where one is held (R32), and FADDR holds the target. So it does where the word there
has an uncorrectable error, cause 0xB5 (22_faults.md R367). -/
def BadTargetFaultsAtFetch : Prop :=
  ∀ (x : ApCtx) (lim : Nat) (t : Word) (s : State),
    (t.toNat < lim → (x.goto lim t).bad = none ∧ ((x.goto lim t).pc = BitVec.ofNat 14 t.toNat))
    ∧ (lim ≤ t.toNat → (x.goto lim t).bad = some t)
    ∧ (s.agenda = [] → s.turn.2 = Phase.ap → apRuns s = true → s.cur.inHandler = false →
        s.cur.main.bad = some t → s.cur.main.br = none → s.cur.cycle ≥ s.cur.main.hold →
        step s = .next (apAfter s (endKernel s s.turn.1 0 (if s.cur.main.ext = [] then t.toNat else s.cur.main.extAt.toNat) 0x20 t)))
    ∧ (s.agenda = [] → s.turn.2 = Phase.ap → apRuns s = true → s.cur.inHandler = false →
        s.cur.main.bad = none → s.cur.main.via = true → apFetchWaits s = false → (Stream.ap, s.cur.main.pc.toNat) ∈ s.cur.imBad →
        step s = .next (apAfter s (apFault s 0xB5 (some (s.cur.main.pc.zeroExtend 64)))))

end Sys2Proof.Claims

/-- Where the pc goes: branch words, delay words, loop ends, bad targets. -/
def Obligations.ApBranches : Prop :=
  Claims.PcSequence ∧ Claims.ApBranchWords ∧ Claims.BadTargetFaultsAtFetch

namespace Sys2Proof.Claims

/-- 06_ap_instr.md R132, R133 with 05_ap_model.md R116: `lset` sets COUNT, START = PC + 1 and END = PC + imm of loop n, and with
COUNT 0 goes on after END, once the other active loops that end at the word itself have been examined (the model's choice, log entry
17); `lbrk` sets COUNT to at most 1. -/
def ApLoopWords : Prop :=
  ∀ (h : Hdr) (n : BitVec 2) (a : BitVec 5) (i : BitVec 6) (s : State), s.cur.ctx.br = none →
    let x := s.cur.ctx
    let pc := x.pc.toNat
    let stop := pc + immediateBits s i
    let with_ (e : Loop) : ApCtx := { x with loops := smSet ⟨0, 0, 0⟩ x.loops n.toNat e }
    let set : Loop := ⟨(xr s a).setWidth 32, BitVec.ofNat 14 (pc + 1), BitVec.ofNat 14 stop⟩
    let old : Loop := smGet ⟨0, 0, 0⟩ x.loops n.toNat
    let sp : ApSpec := { cls := 0, extOk := true }
    (ApGoes h sp s → immediateBits s i ≠ 0 → (xr s a).toNat ≤ 0xFFFFFFFF → stop ≤ 16383 → nestBad x.loops n.toNat (pc + 1) stop = false →
      (xr s a ≠ 0 → WordRuns (.lset h n a i) h sp s s.cur ((with_ set).advance s.cur.apWords))
      ∧ (xr s a = 0 → (∀ k < 4, k ≠ n.toNat → (smGet ⟨0, 0, 0⟩ x.loops k).count = 0 ∨ (smGet ⟨0, 0, 0⟩ x.loops k).stop.toNat ≠ pc) →
          WordRuns (.lset h n a i) h sp s s.cur (({ with_ set with via := false } : ApCtx).goto s.cur.apWords (w64 (stop + 1))))
      ∧ (xr s a = 0 → ∀ k < 4, k ≠ n.toNat → 1 < (smGet ⟨0, 0, 0⟩ x.loops k).count.toNat →
          (smGet ⟨0, 0, 0⟩ x.loops k).stop.toNat = pc →
          (∀ j < 4, j ≠ n.toNat → j ≠ k → (smGet ⟨0, 0, 0⟩ x.loops j).count = 0 ∨ (smGet ⟨0, 0, 0⟩ x.loops j).stop.toNat ≠ pc) →
          let outer : Loop := smGet ⟨0, 0, 0⟩ x.loops k
          WordRuns (.lset h n a i) h sp s s.cur
            (({ with_ set with loops := smPut (with_ set).loops k { outer with count := outer.count - 1 }, via := false } : ApCtx).goto
              s.cur.apWords (outer.start.zeroExtend 64))))
    ∧ (ApGoes h { cls := 0 } s →
        WordRuns (.lbrk h n) h { cls := 0 } s s.cur
          ((with_ { old with count := if old.count = 0 then 0 else 1 }).advance s.cur.apWords))

/-- 02_encoding.md R30-R32, R26: an `ext` keeps its bits for the next word, with which it is checked, and the address of the first of
them; it is the pc alone that advances beside it. -/
def ApExtWord : Prop :=
  ∀ (i : BitVec 16) (s : State), s.cur.ctx.ext.length < 2 → s.cur.ctx.extBad = false →
    (s.cur.ctx.br = none → ∀ k < 4, (smGet ⟨0, 0, 0⟩ s.cur.ctx.loops k).count = 0
      ∨ (smGet ⟨0, 0, 0⟩ s.cur.ctx.loops k).stop.toNat ≠ s.cur.ctx.pc.toNat) →
    let x := s.cur.ctx
    let split := match x.br with
      | some b => decide (b.left ≤ 1)
      | none => false
    exec (.ext i) s = .next (s.setCur (s.cur.setCtx
      (({ x with ext := x.ext ++ [i], extAt := if x.ext = [] then x.pc else x.extAt, extBad := split } : ApCtx).advance s.cur.apWords)))

/-- 06_ap_instr.md R152 with 05_ap_model.md R102: `sysr` reads a system register with latency 2; TIME, CORE_ID and SNAP_CYC not in
deterministic mode, the snapshot registers, as the delivery captured them (22_faults.md R365), in the handler and with the debug
feature only. -/
def ApSystemRead : Prop :=
  ∀ (h : Hdr) (d : BitVec 5) (i : BitVec 11) (s : State), ApGoes h { cls := 0, extOk := true } s →
    let n := immediateBits s i
    let y := s.cur.sys
    let r (v : Word) : Prop := Writes (.sysr h d i) h { cls := 0, extOk := true } s 2 (xDst d) v
    (n = 0x001 → r (y.epc.zeroExtend 64)) ∧ (n = 0x002 → r (y.cause.zeroExtend 64)) ∧ (n = 0x003 → r y.faddr)
    ∧ (n = 0x000 → ∃ v, r v ∧ v.getLsbD 0 = y.det ∧ v.getLsbD 1 = y.raw ∧ v.getLsbD 2 = false ∧ v.getLsbD 3 = y.priv ∧ v.toNat < 16)
    ∧ (n = 0x004 → r (y.brrec.zeroExtend 64))
    ∧ (n = 0x005 → ∃ v, r v ∧ wbits v 0 14 = y.bpTarget.toNat ∧ wbits v 14 2 = 0 ∧ wbits v 16 1 = (if y.bpV then 1 else 0)
        ∧ wbits v 17 2 = y.bpLeft.toNat ∧ wbits v 19 45 = 0)
    ∧ (n = 0x008 → r (y.oum.zeroExtend 64)) ∧ (n = 0x009 → r (y.ccm.zeroExtend 64))
    ∧ (n = 0x010 → y.det = false → r (w64 s.clock))
    ∧ (n = 0x011 → y.det = false → ∃ v, r v ∧ wbits v 0 5 = s.turn.1 % 32 ∧ wbits v 5 3 = s.turn.1 / 32 % 8
        ∧ wbits v 8 2 = s.turn.1 / 256 % 4 ∧ wbits v 10 54 = 0)
    ∧ (n = 0x018 → r (y.zrows.zeroExtend 64)) ∧ (n = 0x040 → r 0)
    ∧ (0x100 ≤ n → n ≤ 0x1FF → s.cur.inHandler = true → y.feat.getLsbD 0 = true → ¬ (y.det = true ∧ n = 0x101) →
        r (smGet 0 s.cur.hsnap n))

/-- 06_ap_instr.md R153 with 05_ap_model.md R102: `sysw` sends x[D] to a system register, which takes it at the end of the cycle; the
read-only ones keep their value, and so do reserved fields and MODE's other bits. -/
def ApSystemWrite : Prop :=
  ∀ (h : Hdr) (d : BitVec 5) (i : BitVec 11) (s : State) (y : Sys) (v : Word), ApGoes h { cls := 0, extOk := true } s →
    (immediateBits s i ∈ [0, 1, 2, 3, 4, 5, 8, 9, 0x10, 0x11, 0x18, 0x20] → sysBad (immediateBits s i) (xr s d) = false →
      Writes (.sysw h d i) h { cls := 0, extOk := true } s 1 (some (.sys (immediateBits s i))) (xr s d))
    ∧ (∀ n, sysBad n v = true ↔
        (n = 0 ∧ (v.toNat / 4 % 2 = 1 ∨ 16 ≤ v.toNat)) ∨ (n = 5 ∧ (2 ^ 19 ≤ v.toNat ∨ v.toNat / 2 ^ 14 % 4 ≠ 0))
        ∨ (n = 0x20 ∧ v.toNat % 2 = 1 ∧ 2 ≤ v.toNat / 2 % 4) ∨ (n = 0x40 ∧ (2 ≤ v.toNat % 4 ∨ v.toNat / 4 % 2 ^ 14 ≠ 0)))
    ∧ sysWrite y 0 v = { y with raw := v.getLsbD 1 } ∧ sysWrite y 1 v = { y with epc := v.setWidth 14 }
    ∧ sysWrite y 5 v = { y with bpTarget := v.setWidth 14, bpV := v.getLsbD 16, bpLeft := v.extractLsb' 17 2 }
    ∧ sysWrite y 0x18 v = { y with zrows := v.setWidth 32 }
    ∧ sysWrite y 0x20 v = { y with injArm := v.getLsbD 0, injKind := v.extractLsb' 1 2, injAddr := v.extractLsb' 3 61 }
    ∧ ∀ n ∈ [2, 3, 4, 8, 9, 0x10, 0x11], sysWrite y n v = y

/-- The word the AP is held at, in the context that runs. -/
def heldAt (s : State) : Option Pend := if s.cur.inHandler then s.cur.pendH else s.cur.pend

/-- The current core released from the word it was held at. -/
def released (s : State) (c : Core) : Core := if s.cur.inHandler then { c with pendH := none } else { c with pend := none }

/-- The stream stands at its word, with its pops taken, held for `kind`, on a core that is otherwise `f` of what it was; the checker lets
the word out of the AP four cycles later (05_ap_model.md R117). -/
def HoldsAt (i : Instr) (h : Hdr) (s : State) (f : Core → Core) (kind : PendKind) : Prop :=
  exec i s = .next (apStall 0 ((apPops h s).modCur fun c => (f c).setHeld (some { kind := kind, from_ := apTime s + 4 })))

/-- The current word waits, having issued: it has read its guard for good (the model's reading, log entry 65), the pc stays, and nothing
else changes. -/
def standing (h : Hdr) (s : State) : State :=
  let t := apPops h s
  apStall 0 (if s.cur.held.isSome then t else t.modCur fun c => c.setHeld (some { kind := .wait, from_ := apTime s }))

/-- 06_ap_instr.md R134, R154: `nop` does nothing of its own; `wfe` clears EV and goes on where EV is 1, and waits, leaving the state but for
the note that it waits, where EV is 0. -/
def ApNopAndWait : Prop :=
  ∀ (h : Hdr) (s : State),
    (ApGoes h { cls := 0 } s → WordRuns (.nop h) h { cls := 0 } s s.cur (s.cur.ctx.advance s.cur.apWords))
    ∧ (ApGoes h { cls := 0, mainOnly := true } s → s.cur.ev = true →
        WordRuns (.wfe h) h { cls := 0, mainOnly := true } s { s.cur with ev := false, pend := none } (s.cur.ctx.advance s.cur.apWords))
    ∧ (ApGoes h { cls := 0, mainOnly := true } s → s.cur.ev = false →
        exec (.wfe h) s = .next (standing h s))

end Sys2Proof.Claims

/-- lset, lbrk, ext, nop and wfe. -/
def Obligations.ApLoopExtNopWait : Prop :=
  Claims.ApLoopWords ∧ Claims.ApExtWord ∧ Claims.ApNopAndWait

/-! ### Access processor: memory words -/

namespace Sys2Proof.Claims

/-- An access of the current core passes the checks of 06_ap_instr.md R137 that are made before it enters a queue: in a scratchpad of
the cluster, or in the translated space with every page usable or not yet walked. -/
def AccessPasses (s : State) (va : Word) (size spadAlign xlAlign : Nat) (n : Need) : Prop :=
  (vaSpace va = 15 ∧ ∃ k off, spadOf s s.turn.1 va = some (k, off) ∧ off + size ≤ 2 ^ 21 ∧ off % spadAlign = 0)
  ∨ (vaSpace va = 0 ∧ wbits va 48 12 = 0 ∧ va.toNat + size ≤ 2 ^ 48 ∧ va.toNat % xlAlign = 0
      ∧ ∀ v ∈ granules va.toNat size, ∀ r,
          pageCheck s (dieOf s.turn.1) (partOfCore s s.turn.1) v { n with dual := s.cur.copy.isSome } = r →
          r = .miss ∨ ∃ x, r = .ok x)

/-- The latency of a read (05_ap_model.md R104): the own scratchpad, another of the cluster, the translated space. -/
def ReadLatency (s : State) (va : Word) (lat : Nat) : Prop :=
  (vaSpace va = 0 → lat = 600)
  ∧ ∀ k off, vaSpace va = 15 → spadOf s s.turn.1 va = some (k, off) → lat = if k = s.turn.1 then 6 else 24

/-- The context with a read entered into its read queue; the checker lets it out of the AP four cycles later (05_ap_model.md R117). -/
def withRead (s : State) (va : Word) (kind : RdKind) (dst : Option ApDst) (lat n : Nat) : ApCtx :=
  let x := s.cur.ctx
  { x with rq := x.rq ++ [{ po := x.po, pc := if x.ext = [] then x.pc else x.extAt, va := va, kind := kind, dst := dst,
                            due := apTime s + lat, n := n, from_ := apTime s + 4, bp := x.pending }] }

/-- A write-queue entry of the word now issuing. -/
def newWrite (s : State) (va : Word) (kind : WrKind) (data : Word) : WrE :=
  let x := s.cur.ctx
  { po := x.po, pc := if x.ext = [] then x.pc else x.extAt, va := va, kind := kind, data := data,
    from_ := apTime s + 4, bp := x.pending }

/-- Room in the read queue: 64 entries, 8 in the handler (05_ap_model.md R101, 22_faults.md R354). -/
def readRoom (s : State) : Prop := s.cur.ctx.rq.length < if s.cur.inHandler then 8 else 64

/-- Room in the write queue: 32 entries, 8 in the handler. -/
def writeRoom (s : State) : Prop := s.cur.ctx.wq.length < if s.cur.inHandler then 8 else 32

/-- 06_ap_instr.md R135 with 05_ap_model.md R103, R104: a load whose access passes enters the read queue, with its address
x[A] + x[B], its destination (x0: none, and the read is still made) and its latency. -/
def ApLoadsIssue : Prop :=
  ∀ (h : Hdr) (d a b : BitVec 5) (s : State), ApGoes h { cls := 3, mem := true } s → readRoom s →
    let va := xr s a + xr s b
    let w (i : Instr) (size : Nat) (signed : Bool) : Prop :=
      AccessPasses s va size size size { r := true } → ∃ lat, ReadLatency s va lat
        ∧ WordRuns i h { cls := 3, mem := true } s s.cur
            ((withRead s va (.ld size signed) (xDst d) lat 1).advance s.cur.apWords)
    w (.ldB h d a b) 1 true ∧ w (.ldBu h d a b) 1 false ∧ w (.ldH h d a b) 2 true ∧ w (.ldHu h d a b) 2 false
    ∧ w (.ldW h d a b) 4 true ∧ w (.ldWu h d a b) 4 false ∧ w (.ldD h d a b) 8 false

/-- 06_ap_instr.md R136 with 05_ap_model.md R103: a store whose access passes enters the write queue, with its address and the value of
x[D]; no byte of memory changes yet. -/
def ApStoresIssue : Prop :=
  ∀ (h : Hdr) (d a b : BitVec 5) (s : State), ApGoes h { cls := 3, mem := true } s → writeRoom s →
    let va := xr s a + xr s b
    let w (i : Instr) (size : Nat) : Prop :=
      AccessPasses s va size size size { w := true } →
        WordRuns i h { cls := 3, mem := true } s s.cur
          (({ s.cur.ctx with wq := s.cur.ctx.wq ++ [newWrite s va (.st size) (xr s d)] } : ApCtx).advance s.cur.apWords)
    w (.stB h d a b) 1 ∧ w (.stH h d a b) 2 ∧ w (.stW h d a b) 4 ∧ w (.stD h d a b) 8

/-- 06_ap_instr.md R137: an access that fails its space, range or alignment check faults at its word, with the starting VA, or, where it
runs past the end of the translated space, with the first VA outside it (04_memory.md R75); nothing is entered into a queue. -/
def ApAccessFaults : Prop :=
  ∀ (h : Hdr) (d a b : BitVec 5) (s : State), ApGoes h { cls := 3, mem := true } s → readRoom s → writeRoom s →
    let va := xr s a + xr s b
    let faults (i : Instr) (cause : Nat) : Prop := exec i s = .next (apFault (apPops h s) cause (some va))
    (vaSpace va ≠ 0 → vaSpace va ≠ 15 → faults (.ldD h d a b) 0x21 ∧ faults (.stD h d a b) 0x21)
    ∧ (vaSpace va = 0 → wbits va 48 12 ≠ 0 → faults (.ldD h d a b) 0x21 ∧ faults (.stD h d a b) 0x21)
    ∧ (vaSpace va = 15 → spadOf s s.turn.1 va = none → faults (.ldD h d a b) 0x25 ∧ faults (.stD h d a b) 0x25)
    ∧ (vaSpace va = 0 → wbits va 48 12 = 0 → va.toNat + 8 ≤ 2 ^ 48 → va.toNat % 8 ≠ 0 →
        faults (.ldD h d a b) 0x23 ∧ faults (.stD h d a b) 0x23)
    ∧ (vaSpace va = 0 → wbits va 48 12 = 0 → va.toNat + 2 ≤ 2 ^ 48 → va.toNat % 2 ≠ 0 →
        faults (.ldH h d a b) 0x23 ∧ faults (.stH h d a b) 0x23)
    ∧ (vaSpace va = 0 → wbits va 48 12 = 0 → 2 ^ 48 < va.toNat + 8 →
        exec (.ldD h d a b) s = .next (apFault (apPops h s) 0x21 (some (w64 (2 ^ 48))))
        ∧ exec (.stD h d a b) s = .next (apFault (apPops h s) 0x21 (some (w64 (2 ^ 48)))))

end Sys2Proof.Claims

/-- Loads and stores enter their queues; accesses that fail their checks fault. -/
def Obligations.ApMemoryWords : Prop :=
  Claims.ApLoadsIssue ∧ Claims.ApStoresIssue ∧ Claims.ApAccessFaults

namespace Sys2Proof.Claims

/-- 06_ap_instr.md R138, R139 with 05_ap_model.md R107, R108: an `ldq` of 1 to 64 rows whose rows all pass and for which its queue has
room enters the read queue once for all its rows; one of no rows is done; an `stq` enters the write queue. -/
def ApQueueAccesses : Prop :=
  ∀ (h : Hdr) (f : BitVec 3) (a b : BitVec 5) (s : State),
    let sp : ApSpec := { cls := 3, mem := true, mainOnly := true }
    ApGoes h sp s →
    let va := xr s a
    let n := (xr s b).toNat
    let lqm := f.getLsbD 0
    let zm1 := f.getLsbD 1
    (n = 0 → ¬ (lqm = true ∧ zm1 = true) → WordRuns (.ldq h f a b) h sp s s.cur (s.cur.ctx.advance s.cur.apWords))
    ∧ (0 < n → n ≤ 64 → ¬ (lqm = true ∧ zm1 = true) → readRoom s →
        (∀ k < n, AccessPasses s (va + w64 (384 * k)) 384 384 64 { r := true }) → queueLoad s.cur lqm zm1 + n ≤ 64 →
        ∃ lat, ReadLatency s va lat
          ∧ WordRuns (.ldq h f a b) h sp s s.cur
              ((withRead s va (.ldq lqm zm1 (f.getLsbD 2)) none lat n).advance s.cur.apWords))
    ∧ (64 < n → ¬ (lqm = true ∧ zm1 = true) → exec (.ldq h f a b) s = .next (apFault (apPops h s) 0x02 none))
    ∧ (writeRoom s → AccessPasses s (va + xr s b) 384 384 64 { w := true } →
        WordRuns (.stq h a b) h sp s s.cur
          (({ s.cur.ctx with wq := s.cur.ctx.wq ++ [newWrite s (va + xr s b) .stq 0] } : ApCtx).advance s.cur.apWords))

/-- 05_ap_model.md R113 with 06_ap_instr.md R140: `popq` takes the oldest EQ entry that was pushed in an earlier cycle, with latency 2
from there; to a predicate goes bit 0. With no such entry it stalls. -/
def ApPopQueue : Prop :=
  ∀ (h : Hdr) (d : BitVec 5) (p : BitVec 3) (s : State),
    let sp : ApSpec := { cls := 3, mainOnly := true }
    ApGoes h sp s →
    (∀ t w rest, s.cur.q.eq = (t, w) :: rest → t < s.cur.cycle →
      let c := { s.cur with q := { s.cur.q with eq := rest } }
      WordRuns (.popq h d) h sp s c ((s.cur.ctx.gets (apTime s + 2) (xDst d) w).advance s.cur.apWords)
      ∧ WordRuns (.popqP h p) h sp s c
          ((s.cur.ctx.gets (apTime s + 2) (pDst p) (if w.getLsbD 0 then 1 else 0)).advance s.cur.apWords))
    ∧ ((s.cur.q.eq = [] ∨ ∃ t w rest, s.cur.q.eq = (t, w) :: rest ∧ s.cur.cycle ≤ t) →
        exec (.popq h d) s = .next (apStall 6 (apPops h s)) ∧ exec (.popqP h p) s = .next (apStall 6 (apPops h s)))

/-- 05_ap_model.md R106, R111 with 06_ap_instr.md R141, R142: `qmark` makes itself the latest marker of its tag; `qkill` sends a
discard of the rows after the latest marker of its tag, and without one does nothing; a `fence` waits in the context with its pushes. -/
def ApMarkersAndFences : Prop :=
  ∀ (h : Hdr) (g : BitVec 6) (k : BitVec 2) (sc : BitVec 3) (s : State),
    let x := s.cur.ctx
    (ApGoes h { cls := 3, mainOnly := true } s →
      (∃ m, WordRuns (.qmark h g) h { cls := 3, mainOnly := true } s s.cur (({ x with marks := m } : ApCtx).advance s.cur.apWords)
        ∧ m.find? (fun e => e.1 == g.toNat) = some (g.toNat, x.po)
        ∧ (∀ t, t ≠ g.toNat → m.find? (fun e => e.1 == t) = x.marks.find? fun e => e.1 == t)
        ∧ ∀ e, e ∈ m → e = (g.toNat, x.po) ∨ e ∈ x.marks)
      ∧ (∀ m, x.marks.find? (fun e => e.1 == g.toNat) = some m →
          Writes (.qkill h g) h { cls := 3, mainOnly := true } s 1 (some (.kill m.2)) 0)
      ∧ (x.marks.find? (fun e => e.1 == g.toNat) = none →
          WordRuns (.qkill h g) h { cls := 3, mainOnly := true } s s.cur (x.advance s.cur.apWords)))
    ∧ (ApGoes h { cls := 3, noPush := true } s → k ≠ 3 → sc.toNat < 5 →
        WordRuns (.fence h k sc) h { cls := 3, noPush := true } s s.cur
          (({ x with fences := x.fences ++ [⟨x.po, k.toNat, hdrPushes .ap h⟩] } : ApCtx).advance s.cur.apWords))

end Sys2Proof.Claims

/-- ldq, stq, popq, qmark, qkill and fence. -/
def Obligations.ApQueueWords : Prop :=
  Claims.ApQueueAccesses ∧ Claims.ApPopQueue ∧ Claims.ApMarkersAndFences

namespace Sys2Proof.Claims

/-- What a returning atomic enters into the two queues (06_ap_instr.md R143, R145, R148), or a reduction into the write queue. -/
def withAtomic (s : State) (va : Word) (op : AmoOp) (ret : Bool) (d : BitVec 5) (data expect : Word) (lat : Nat) : ApCtx :=
  let x := s.cur.ctx
  let pc := if x.ext = [] then x.pc else x.extAt
  let dst := if ret then xDst d else none
  let second := if ret ∧ (op = .incb ∨ op = .faddlim) ∧ d ≠ 0 then some (ApDst.x (d.toNat + 1)) else none
  { x with
    rq := if ret then x.rq ++ [{ po := x.po, pc := pc, va := va, kind := .amo, dst := dst, due := apTime s + lat,
                                 from_ := apTime s + 4, bp := x.pending }] else x.rq
    wq := x.wq ++ [{ po := x.po, pc := pc, va := va, kind := .amo op, data := data, expect := expect, dst := dst, dst2 := second,
                     due := apTime s + lat, ret := ret, from_ := apTime s + 4, bp := x.pending }] }

/-- A host page must allow the atomic (04_memory.md R89): `amo.add` and `red.add`, `amo.swap` and `amo.cas`. -/
def atomicNeed (op : AmoOp) (ret : Bool) : Need :=
  { r := true, w := true, atomic := some (op == .add || (ret && (op == .swap || op == .cas))) }

end Sys2Proof.Claims

/-- 06_ap_instr.md R143-R148: an atomic at x[A] with operand x[B] whose access passes (8 bytes, 16 for `faddlim`) enters the write
queue, a returning one the read queue too. -/
def Obligations.ApAtomicsIssue : Prop :=
  ∀ (h : Hdr) (d a b : BitVec 5) (s : State),
    let sp : ApSpec := { cls := 2, mem := true }
    ApGoes h sp s → writeRoom s →
    let va := xr s a
    let w (i : Instr) (op : AmoOp) (ret : Bool) (d : BitVec 5) (data : Word) : Prop :=
      let n := if op = .faddlim then 16 else 8
      AccessPasses s va n n n (atomicNeed op ret) → (ret = true → s.cur.sys.det = false ∧ readRoom s) →
        ∃ lat, ReadLatency s va lat
          ∧ WordRuns i h sp s s.cur ((withAtomic s va op ret d data (xr s d) lat).advance s.cur.apWords)
    let v := xr s b
    (w (.amoAdd h d a b) .add true d v ∧ w (.amoMin h d a b) .min true d v ∧ w (.amoMinu h d a b) .minu true d v
      ∧ w (.amoMax h d a b) .max true d v ∧ w (.amoMaxu h d a b) .maxu true d v ∧ w (.amoAnd h d a b) .and true d v
      ∧ w (.amoOr h d a b) .or true d v ∧ w (.amoXor h d a b) .xor true d v ∧ w (.amoSwap h d a b) .swap true d v
      ∧ w (.amoCas h d a b) .cas true d v ∧ w (.amoIncwrap h d a b) .incwrap true d v ∧ w (.amoDecpos h d a) .decpos true d 0
      ∧ (d.getLsbD 0 = false → w (.amoIncb h d a b) .incb true d v ∧ w (.amoFaddlim h d a b) .faddlim true d v))
    ∧ w (.redAdd h a b) .add false 0 v ∧ w (.redMin h a b) .min false 0 v ∧ w (.redMinu h a b) .minu false 0 v
    ∧ w (.redMax h a b) .max false 0 v ∧ w (.redMaxu h a b) .maxu false 0 v ∧ w (.redAnd h a b) .and false 0 v
    ∧ w (.redOr h a b) .or false 0 v ∧ w (.redXor h a b) .xor false 0 v ∧ w (.redSwap h a b) .swap false 0 v
    ∧ w (.redIncwrap h a b) .incwrap false 0 v ∧ w (.redDecpos h a) .decpos false 0 0
    ∧ w (.redIncb h a b) .incb false 0 v ∧ w (.redFaddlim h a b) .faddlim false 0 v

/-- 06_ap_instr.md R149: with MODE.DET = 1 every returning atomic traps with 0xE1 at issue, with its VA (R137), whatever D names (D even where R145
asks it), and makes no access; the `red.` forms run as they do without it. -/
def Obligations.DeterministicAtomics : Prop :=
  ∀ (h : Hdr) (d a b : BitVec 5) (s : State), ApGoes h { cls := 2, mem := true } s → s.cur.sys.det = true →
    let traps (i : Instr) : Prop := exec i s = .next (apFault (apPops h s) 0xE1 (some (xr s a)))
    let va := xr s a
    let runs (i : Instr) (op : AmoOp) (v : Word) : Prop :=
      let n := if op = .faddlim then 16 else 8
      writeRoom s → AccessPasses s va n n n (atomicNeed op false) → ∃ lat, ReadLatency s va lat
        ∧ WordRuns i h { cls := 2, mem := true } s s.cur ((withAtomic s va op false 0 v (xr s 0) lat).advance s.cur.apWords)
    let v := xr s b
    (traps (.amoAdd h d a b) ∧ traps (.amoMin h d a b) ∧ traps (.amoMinu h d a b) ∧ traps (.amoMax h d a b)
      ∧ traps (.amoMaxu h d a b) ∧ traps (.amoAnd h d a b) ∧ traps (.amoOr h d a b) ∧ traps (.amoXor h d a b)
      ∧ traps (.amoSwap h d a b) ∧ traps (.amoCas h d a b) ∧ traps (.amoIncwrap h d a b) ∧ traps (.amoDecpos h d a)
      ∧ (d.getLsbD 0 = false → traps (.amoIncb h d a b) ∧ traps (.amoFaddlim h d a b)))
    ∧ runs (.redAdd h a b) .add v ∧ runs (.redMin h a b) .min v ∧ runs (.redMinu h a b) .minu v ∧ runs (.redMax h a b) .max v
    ∧ runs (.redMaxu h a b) .maxu v ∧ runs (.redAnd h a b) .and v ∧ runs (.redOr h a b) .or v ∧ runs (.redXor h a b) .xor v
    ∧ runs (.redSwap h a b) .swap v ∧ runs (.redIncwrap h a b) .incwrap v ∧ runs (.redDecpos h a) .decpos 0
    ∧ runs (.redIncb h a b) .incb v ∧ runs (.redFaddlim h a b) .faddlim v

/-! ### Memory events of the access processor -/

namespace Sys2Proof.Claims

/-- A read meets no error (05_ap_model.md R109, R110). -/
def cleanRead (s : State) (k : Nat) (xl : List Xl) (va : Word) (size : Nat) : Prop :=
  injHits s k xl va size = false ∧ vaPoison s k xl va size = false

/-- The cycle count that the latencies of a core's main context, or of its handler (`sh`), run in (22_faults.md R354). -/
def timeOf (s : State) (k : Nat) (sh : Bool) : Nat := if sh then s.clock else (s.core k).cycle

/-- 06_ap_instr.md R135 with 04_memory.md R91, R93, R106: the load at the head of the read queue, which no `qmark` holds and whose
access passes, is performed: its value is the bytes at VA, little-endian and extended; it is on its way to its register. -/
def LoadPerformed : Prop :=
  ∀ (s : State) (k n : Nat) (signed : Bool) (e : RdE) (xl : List Xl), (s.core k).run = .running →
    let c := s.core k
    let sh := c.inHandler && !c.shadow.rq.isEmpty
    let x := c.ctxOf sh
    x.rq.head? = some e → e.from_ ≤ timeOf s k sh → c.freeze.late = none → e.kind = .ld n signed → 0 < n → n ≤ 8 →
    (∀ m ∈ x.marks, m.2 < e.po → ∀ w ∈ x.wq, m.2 ≤ w.po) → accCheck s k e.va n { r := true } = .ok xl → cleanRead s k xl e.va n →
    let bits := leNat (vaBytes s k xl e.va n)
    let v : Word := if signed then (BitVec.ofNat (8 * n) bits).signExtend 64 else BitVec.ofNat 64 bits
    ∃ t, exec (.readPerformed k .clean) s = .next t ∧ OnlyCore k s t
      ∧ t.core k = c.setCtxOf sh { x with
          rq := x.rq.drop 1
          fly := x.fly ++ [{ due := e.due, po := e.po, dst := e.dst.getD (.x 0), val := v, mem := true,
                             arrived := ownSpad s k e.va, va := e.va, rd := some e.kind }] }

/-- 06_ap_instr.md R136 with 04_memory.md R91, R93: the store at the head of the write queue, with no earlier read pending and its access
passing, is performed: the bytes at VA are the low n bytes of its data, little-endian; every other byte is as before; rows of a
scratchpad take tag 0. -/
def StorePerformed : Prop :=
  ∀ (s : State) (k n : Nat) (e : WrE) (xl : List Xl), (s.core k).run = .running → (s.core k).copy = none →
    let c := s.core k
    let sh := c.inHandler && !c.shadow.wq.isEmpty
    let x := c.ctxOf sh
    x.wq.head? = some e → e.from_ ≤ timeOf s k sh → c.freeze.late = none → e.kind = .st n → n ∈ [1, 2, 4, 8] → e.ret = false → e.va.toNat % n = 0 →
    (∀ r ∈ x.rq, e.po < r.po) → accCheck s k e.va n { w := true } = .ok xl →
    ∃ t, exec (.writePerformed k) s = .next t
      ∧ (∀ i < n, ∀ a g, byteLoc s k xl (e.va + w64 i) = some (a, g) → memByte t a = BitVec.ofNat 8 (e.data.toNat / 256 ^ i))
      ∧ (∀ a, ¬ namesByte s k xl e.va n a → memByte t a = memByte s a)
      ∧ (t.core k).ctxOf sh = { x with wq := x.wq.drop 1 } ∧ (t.core k).ctxOf (!sh) = c.ctxOf (!sh)
      ∧ (t.core k).sys = c.sys ∧ (t.core k).q = c.q ∧ (t.core k).cmds = c.cmds
      ∧ (∀ j, j ≠ k → tagsAside t s j)
      ∧ ∀ a g, byteLoc s k xl e.va = some (a, g) → isSpadKey a = true → tagAt t a = 0

/-- The value that each atomic writes, where it writes one (06_ap_instr.md R144, R146, R147): `v` the operand, `expect` what `cas`
expects, `lim` the word at VA + 8. -/
def atomicWrites (op : AmoOp) (old v expect lim : Word) : Option Word :=
  match op with
  | .add => some (old + v)
  | .min => some (if old.slt v then old else v)
  | .minu => some (if old.ult v then old else v)
  | .max => some (if old.slt v then v else old)
  | .maxu => some (if old.ult v then v else old)
  | .and => some (old &&& v)
  | .or => some (old ||| v)
  | .xor => some (old ^^^ v)
  | .swap => some v
  | .cas => if old = expect then some v else none
  | .incwrap => some (if v ≤ old then 0 else old + 1)
  | .incb => if old < v then some (old + 1) else none
  | .decpos => if 0 < old then some (old - 1) else none
  | .faddlim => if old.toNat + v.toNat ≤ lim.toNat then some (old + v) else none

/-- 06_ap_instr.md R144-R148: a `red.` form at the head of the write queue is performed: the word at VA becomes the operation's value
where it writes one, and no other byte changes; a returning form sends the old value, and the success bit, to its registers. -/
def AtomicPerformed : Prop :=
  ∀ (s : State) (k : Nat) (op : AmoOp) (e : WrE) (xl : List Xl), (s.core k).run = .running → (s.core k).copy = none →
    let c := s.core k
    let sh := c.inHandler && !c.shadow.wq.isEmpty
    let x := c.ctxOf sh
    let n := if op = .faddlim then 16 else 8
    let old := w64 (leNat (vaBytes s k xl e.va 8))
    let new := atomicWrites op old e.data e.expect (w64 (leNat (vaBytes s k xl (e.va + 8) 8)))
    let reply (d : ApDst) (v : Word) (rd : Option RdKind) : ApFly :=
      { due := e.due, po := e.po, dst := d, val := v, mem := true, arrived := ownSpad s k e.va, va := e.va, rd := rd }
    x.wq.head? = some e → e.from_ ≤ timeOf s k sh → c.freeze.late = none → e.kind = .amo op → e.va.toNat % n = 0 →
    (e.ret = false → ∀ r ∈ x.rq, e.po < r.po) →
    (e.ret = true → ∃ r rest, x.rq = r :: rest ∧ r.po = e.po ∧ ∀ q ∈ rest, e.po < q.po) →
    accCheck s k e.va n (atomicNeed op e.ret) = .ok xl → cleanRead s k xl e.va n →
    ∃ t, exec (.writePerformed k) s = .next t
      ∧ (∀ m, new = some m → ∀ i < 8, ∀ a g, byteLoc s k xl (e.va + w64 i) = some (a, g) →
          memByte t a = BitVec.ofNat 8 (m.toNat / 256 ^ i))
      ∧ (∀ a, (new = none ∨ ¬ namesByte s k xl e.va 8 a) → memByte t a = memByte s a)
      ∧ (e.ret = false → (t.core k).ctxOf sh = { x with wq := x.wq.drop 1 })
      ∧ (e.ret = true → (t.core k).ctxOf sh = { x with
          wq := x.wq.drop 1
          rq := x.rq.drop 1
          fly := x.fly ++ [reply (e.dst.getD (.x 0)) old (some .amo)] ++ (match e.dst2 with
            | some d => [reply d (if new.isSome then 1 else 0) none]
            | none => []) })

/-- 06_ap_instr.md R139 with 05_ap_model.md R112: the `stq` at the head of the write queue, with its row in SQ since an earlier cycle, writes the 384
bytes of the row at its address, with tag 0, and takes it from SQ; without one it waits. -/
def RowStored : Prop :=
  ∀ (s : State) (k : Nat) (e : WrE) (xl : List Xl), (s.core k).run = .running → (s.core k).copy = none → (s.core k).frozen = false →
    let c := s.core k
    let sh := c.inHandler && !c.shadow.wq.isEmpty
    let x := c.ctxOf sh
    x.wq.head? = some e → e.from_ ≤ timeOf s k sh → c.freeze.late = none → e.kind = .stq → e.ret = false → (∀ r ∈ x.rq, e.po < r.po) →
    accCheck s k e.va 384 { w := true } = .ok xl →
    ((∀ p ∈ c.q.sq.head?, c.cycle ≤ p.1) → exec (.writePerformed k) s = .next s)
    ∧ ∀ t0 row rest, c.q.sq = (t0, row) :: rest → t0 < c.cycle → ∃ t, exec (.writePerformed k) s = .next t
      ∧ (∀ i < 384, ∀ a g, byteLoc s k xl (e.va + w64 i) = some (a, g) →
          (∀ j, i < j → j < 384 → ∀ g', byteLoc s k xl (e.va + w64 j) ≠ some (a, g')) → memByte t a = BitVec.ofNat 8 (row.toNat / 256 ^ i))
      ∧ (∀ a, ¬ namesByte s k xl e.va 384 a → memByte t a = memByte s a)
      ∧ (t.core k).ctxOf sh = { x with wq := x.wq.drop 1 } ∧ (t.core k).q = { c.q with sq := rest } ∧ (t.core k).sys = c.sys
      ∧ ∀ i < 384, ∀ a g, byteLoc s k xl (e.va + w64 i) = some (a, g) → isSpadKey a = true → tagAt t a = 0

/-- 18_weir.md R291, R304-R306 with 06_ap_instr.md R148: a Weir word at the head of the write queue is performed at its cell. A reserve lowers the
cell to its tag, and a release empties a cell that holds its tag; at a cell of another loop neither writes, and the first such address is latched. A
test sends 1 where the cell holds its tag, else 0, and changes no byte; a cell of another loop faults with 0x80. -/
def CellPerformed : Prop :=
  ∀ (s : State) (k : Nat) (e : WrE) (xl : List Xl), (s.core k).run = .running → (s.core k).copy = none →
    let c := s.core k
    let sh := c.inHandler && !c.shadow.wq.isEmpty
    let x := c.ctxOf sh
    let tag := e.data
    let old := w64 (leNat (vaBytes s k xl e.va 8))
    let empty : Word := 0xFFFFFFFFFFFFFFFF
    let alien : Prop := old ≠ empty ∧ old.toNat / 2 ^ 48 ≠ tag.toNat / 2 ^ 48
    x.wq.head? = some e → e.from_ ≤ timeOf s k sh → c.freeze.late = none → e.va.toNat % 8 = 0 →
    accCheck s k e.va 8 { r := true, w := true, cell := true } = .ok xl → vaPoison s k xl e.va 8 = false →
    let left : ApCtx := { x with wq := x.wq.drop 1 }
    let done (new : Option Word) (alias_ : Option Word) : Prop := ∃ t, exec (.writePerformed k) s = .next t ∧ (t.core k).ctxOf sh = left
      ∧ (∀ v, new = some v → ∀ i < 8, ∀ a g, byteLoc s k xl (e.va + w64 i) = some (a, g) → memByte t a = BitVec.ofNat 8 (v.toNat / 256 ^ i))
      ∧ (∀ a, (new = none ∨ ¬ namesByte s k xl e.va 8 a) → memByte t a = memByte s a)
      ∧ (t.core k).wl = { c.wl with walias := alias_ } ∧ (t.core k).sys = c.sys ∧ (t.core k).q = c.q
    let first : Option Word := some (c.wl.walias.getD e.va)
    (e.ret = false → (∀ r ∈ x.rq, e.po < r.po) → e.kind = .rsv →
        (alien → done none first) ∧ (¬ alien → tag < old → done (some tag) c.wl.walias) ∧ (¬ alien → ¬ tag < old → done none c.wl.walias))
    ∧ (e.ret = false → (∀ r ∈ x.rq, e.po < r.po) → e.kind = .rels →
        (old = tag → done (some empty) c.wl.walias) ∧ (old ≠ tag → alien → done none first) ∧ (old ≠ tag → ¬ alien → done none c.wl.walias))
    ∧ (e.ret = true → (∃ r rest, x.rq = r :: rest ∧ r.po = e.po ∧ ∀ q ∈ rest, e.po < q.po) → e.kind = .test →
        (¬ alien → e.dst2 = none → ∃ t, exec (.writePerformed k) s = .next t ∧ (∀ a, memByte t a = memByte s a) ∧ OnlyCore k s t
          ∧ t.core k = c.setCtxOf sh { left with
              rq := x.rq.drop 1
              fly := x.fly ++ [{ due := e.due, po := e.po, dst := e.dst.getD (.x 0), val := if old = tag then 1 else 0, mem := true,
                                 arrived := ownSpad s k e.va, va := e.va, rd := some .test }] })
        ∧ (alien → exec (.writePerformed k) s = .next (accessFault (s.setCore k (c.setCtxOf sh left)) k false ⟨sh, e.po, e.pc, e.bp⟩ 0x80 e.va)))

/-- 04_memory.md R93 with 05_ap_model.md R106: the AP's own order. A write-queue event waits while a read before it has not been
performed; a read after a `qmark` waits while a write-queue event before the marker has not been. -/
def AccessOrder : Prop :=
  ∀ (s : State) (k : Nat), (s.core k).run = .running → (s.core k).freeze.late = none →
    let c := s.core k
    (∀ e r, (c.ctxOf (c.inHandler && !c.shadow.wq.isEmpty)).wq.head? = some e →
      r ∈ (c.ctxOf (c.inHandler && !c.shadow.wq.isEmpty)).rq → r.po < e.po → exec (.writePerformed k) s = .next s)
    ∧ (∀ e m w ecc, (c.ctxOf (c.inHandler && !c.shadow.rq.isEmpty)).rq.head? = some e →
        m ∈ (c.ctxOf (c.inHandler && !c.shadow.rq.isEmpty)).marks → w ∈ (c.ctxOf (c.inHandler && !c.shadow.rq.isEmpty)).wq →
        w.po < m.2 → m.2 < e.po → exec (.readPerformed k ecc) s = .next s)

end Sys2Proof.Claims

/-- A load, a store, a row of SQ, an atomic and a Weir word are performed: the bytes read and written, all others unchanged, and the order. -/
def Obligations.ApAccessesPerformed : Prop :=
  Claims.LoadPerformed ∧ Claims.StorePerformed ∧ Claims.RowStored ∧ Claims.AtomicPerformed ∧ Claims.CellPerformed ∧ Claims.AccessOrder

namespace Sys2Proof.Claims

/-- A result of a core's main context lands with everything it stands for (05_ap_model.md R104, R118, R128). -/
def landed (c : Core) (d : ApDst) (v : Word) (c' : Core) : Prop :=
  let x := c.main
  match d with
  | .x n => c' = if n = 0 then c else { c with main := { x with x := smSet 0 x.x n v } }
  | .p n => c' = if n = 0 then c else { c with main := { x with p := smSet false x.p n (v.getLsbD 0) } }
  | .b n => c' = { c with main := { x with b := smSet 0 x.b n v } }
  | .pf => ∃ p, c' = { c with main := { x with p := p } } ∧ (∀ k, 1 ≤ k → k ≤ 7 → smGet false p k = v.getLsbD k)
      ∧ ∀ k, k = 0 ∨ 7 < k → smGet false p k = smGet false x.p k
  | .sys n => c' = { c with sys := sysWrite c.sys n v }
  | .qring _ => c' = c
  | .sdKey rk cfg fr => c' = { c with sd := { rk := rk, cfg := cfg, fr := fr, keyed := true } }
  | .kill _ => c'.main.x = x.x ∧ c'.sys = c.sys ∧ c'.q.sq = c.q.sq ∧ c'.q.eq = c.q.eq ∧ c'.tok = c.tok ∧ c'.cmds = c.cmds

end Sys2Proof.Claims

namespace Sys2Proof.Claims

/-- Nothing but results of the main context can land at core k, and no reply is late in it. -/
def onlyMain (s : State) (k : Nat) : Prop :=
  (s.core k).shadow.fly = [] ∧ ownDue s k true = false ∧ ownDue s k false = false ∧ lateVa (s.core k) = none

end Sys2Proof.Claims

/-- 05_ap_model.md R104 with 06_ap_instr.md R118: a result that is due and has arrived is written at the step that lands results, and
leaves the list; one that is not due stays, and nothing else changes (where no read of the own scratchpad is due that has not been
performed: it would be performed first). The ring that a `pb.claim` of the own Quern sends is written to the Quern (20_quern.md R323). Of
two results that land together for one register, that of the later word stays (the model's choice, log entry 13). In a core cycle in which
a reply is late nothing lands (R105). A handler's results land by the clock, after it has ended too (22_faults.md R354). -/
def Obligations.ApResultsLand : Prop :=
  (∀ (s : State) (k : Nat) (f : ApFly), onlyMain s k → (s.core k).main.fly = [f] →
    let c := { s.core k with main := { (s.core k).main with fly := [] } }
    (f.due ≤ (s.core k).cycle → f.arrived = true → (∀ v, f.dst ≠ .qring v) →
      ∃ t, exec (.apResultLanding k) s = .next t ∧ OnlyCore k s t ∧ landed c f.dst f.val (t.core k))
    ∧ (∀ v, f.due ≤ (s.core k).cycle → f.arrived = true → f.dst = .qring v →
        ∃ t, exec (.apResultLanding k) s = .next t
          ∧ OnlyCore k (s.setQuern (clusterOf k) { s.quern (clusterOf k) with ring := v }) t ∧ t.core k = c)
    ∧ ((s.core k).cycle < f.due → ∃ t, exec (.apResultLanding k) s = .next t ∧ t.core k = s.core k ∧ OnlyCore k s t))
  ∧ (∀ (s : State) (k n : Nat) (f g : ApFly), onlyMain s k →
      ((s.core k).main.fly = [f, g] ∨ (s.core k).main.fly = [g, f]) → f.po < g.po → f.dst = .x n → g.dst = .x n → n ≠ 0 →
      f.due ≤ (s.core k).cycle → f.arrived = true → g.due ≤ (s.core k).cycle → g.arrived = true →
      ∃ t, exec (.apResultLanding k) s = .next t ∧ smGet 0 (t.core k).main.x n = g.val ∧ (t.core k).main.fly = [])
  ∧ (∀ (s : State) (k : Nat) (va : Word), (s.core k).shadow.fly = [] → ownDue s k true = false → ownDue s k false = false →
      lateVa (s.core k) = some va → ∃ t, exec (.apResultLanding k) s = .next t ∧ t.core k = s.core k ∧ OnlyCore k s t)
  ∧ ∀ (s : State) (k n : Nat) (f : ApFly), (s.core k).main.fly = [] → ownDue s k true = false → ownDue s k false = false →
      (s.core k).shadow.fly = [f] → f.dst = .x n → n ≠ 0 → f.due ≤ s.clock → f.arrived = true →
      ∃ t, exec (.apResultLanding k) s = .next t ∧ OnlyCore k s t
        ∧ t.core k = { s.core k with shadow := { (s.core k).shadow with fly := [], x := smSet 0 (s.core k).shadow.x n f.val } }

/-! ### Access processor: engine commands -/

namespace Sys2Proof.Claims

/-- A command that the word now issuing makes (01_machine.md R14): the next sequence number; its engine may take it four cycles later
(05_ap_model.md R117). -/
def newCommand (s : State) (eng : Eng) (ccw : Word) (op : CmdOp) (foot : List Foot) : Cmd :=
  { seq := s.cur.cmdSeq, eng := eng, ccw := ccw, op := op, po := s.cur.main.po, at_ := s.cur.cycle + 4, foot := foot }

/-- The current core with a command issued. -/
def withCommand (s : State) (m : Cmd) : Core := { s.cur with cmdSeq := s.cur.cmdSeq + 1, cmds := s.cur.cmds ++ [m] }

/-- An AP word whose whole effect is to issue a command. -/
def IssuesCmd (i : Instr) (h : Hdr) (sp : ApSpec) (s : State) (eng : Eng) (ccw : Word) (op : CmdOp) (foot : List Foot) : Prop :=
  WordRuns i h sp s (withCommand s (newCommand s eng ccw op foot)) (s.cur.ctx.advance s.cur.apWords)

/-- A command control word that 01_machine.md R13 accepts, of an engine that writes completion records. -/
def goodCcw (v : Word) : Prop := wbits v 32 32 = 0 ∧ wbits v 10 3 ≤ 4 ∧ wbits v 1 9 = 0

/-- Consecutive registers x[A], x[A + 1], …, as a command reads them. -/
def regGroup (s : State) (a : BitVec 5) (n : Nat) : List Word := tabulate (fun i => xr s (a + BitVec.ofNat 5 i)) n

/-- Commands of an engine that wait in its queue. -/
def waiting (s : State) (eng : Eng) : Nat := (s.cur.cmds.filter fun m => m.eng == eng && !m.started).length

/-- In deterministic mode no scratchpad byte of the command is shared with an unordered one (01_machine.md R17). -/
def noOverlap (s : State) (ccw : Word) (eng : Eng) (foot : List Foot) : Prop :=
  s.cur.sys.det = true → overlapVa s.cur ccw eng foot = none

/-- The bytes that a command carries for that comparison: none outside deterministic mode. -/
def carried (s : State) (foot : List Foot) : List Foot := if s.cur.sys.det then foot else []

/-- 11_mxe_instr.md R222-R228 and 08_vxe_instr.md R200: commands to the MXE and calls of the VXE take the next sequence number and wait
at their engine, which has room for eight. -/
def ApStreamCommands : Prop :=
  ∀ (h : Hdr) (d a b : BitVec 5) (s : State),
    let v := xr s a
    let mx (i : Instr) (sp : ApSpec) (op m : Nat) : Prop :=
      ApGoes h sp s → waiting s .mx < 8 → IssuesCmd i h sp s .mx 0 { op := op, m := m, regs := [v] } []
    let sp : ApSpec := { cls := 0, cmd := true }
    (d.toNat ≤ 6 → (d ≠ 6 → wbits v 3 3 = 0) → mx (.mxtab h d a) sp 0 d.toNat)
    ∧ (d.toNat ≤ 15 → wbits v 16 24 = 0 → wbits v 6 2 = 0 → wbits v 2 2 = 0 → mx (.mxfmt h d a) sp 1 d.toNat)
    ∧ (d.toNat ≤ 2 → (d = 1 → wbits v 30 34 = 0 ∧ (wbits v 24 4 = 0 → wbits v 0 24 = 0)) →
        mx (.mxpert h d a) { cls := 8, cmd := true } 2 d.toNat)
    ∧ (v.toNat ≤ 4095 → mx (.mxgo h a) sp 3 0)
    ∧ (v.toNat ≤ 4095 → s.cur.vx.calls.length < 8 → ApGoes h sp s →
        let call (seed : Bool) (i : Instr) : Prop :=
          let c := withCommand s (newCommand s .vx 0 { op := 0, regs := [v, xr s b] } [])
          WordRuns i h sp s
            { c with vx := { c.vx with calls := c.vx.calls ++ [⟨s.cur.cmdSeq, v.toNat, xr s b, seed⟩] } }
            (s.cur.ctx.advance s.cur.apWords)
        call false (.vxcall h a b) ∧ call true (.vxcallSeed h a b))

/-- 11_mxe_instr.md R229, 08_vxe_instr.md R200, 13_bte.md R253: the wait words go on once the core has no unretired command of the engine
or channel, and wait while it has one. -/
def ApWaitWords : Prop :=
  ∀ (h : Hdr) (c : BitVec 2) (s : State),
    let none_ (p : Eng → Bool) : Prop := ∀ m ∈ s.cur.cmds, p m.eng = false
    let bte (e : Eng) : Bool := match e with
      | .bte _ => true
      | _ => false
    let w (i : Instr) (sp : ApSpec) (p : Eng → Bool) : Prop := ApGoes h sp s →
      (none_ p → WordRuns i h sp s (released s s.cur) (s.cur.ctx.advance s.cur.apWords)) ∧ (¬ none_ p → exec i s = .next (standing h s))
    w (.mxwait h) { cls := 0 } (fun e => e == .mx) ∧ w (.vxwait h) { cls := 0 } (fun e => e == .vx)
    ∧ w (.btwait h c) { cls := 20, mainOnly := true } (fun e => e == .bte c.toNat)
    ∧ w (.btwaitAll h) { cls := 20, mainOnly := true } bte

end Sys2Proof.Claims

/-- Commands to the matrix and vector engines, and the wait words. -/
def Obligations.ApStreamAndWaitWords : Prop :=
  Claims.ApStreamCommands ∧ Claims.ApWaitWords

/-- 13_bte.md R251, R252: a `btcfg` whose descriptor lies in the own scratchpad at a multiple of 64 takes its address, waits for the earlier writes,
holds the stream for six cycles more, then latches the 192 bytes where every check passes; a `btgo` on a channel that has a descriptor starts a
command that carries it. -/
def Obligations.ApBlockTransferWords : Prop :=
  ∀ (h : Hdr) (c : BitVec 2) (a : BitVec 5) (s : State),
    let va := xr s a
    let cfg : ApSpec := { cls := 20, mainOnly := true, mem := true }
    let held (k : PendKind) : Prop :=
      exec (.btcfg h c a) s = .next (apStall 0 ((apPops h s).modCur fun e => { e with pend := some { kind := k, from_ := s.cur.cycle + 4 } }))
    (ApGoes h cfg s →
      (∀ off, s.cur.pend = none → ownOffset s va = some off → off % 64 = 0 → off + 192 ≤ 2 ^ 21 →
        held (.btcfg (if s.cur.main.wq = [] then some (s.cur.cycle + 6) else none) va))
      ∧ (∀ va0 r f, s.cur.pend = some { kind := .btcfg none va0, res := r, from_ := f } →
          (s.cur.main.wq = [] → held (.btcfg (some (s.cur.cycle + 6)) va0))
          ∧ (s.cur.main.wq ≠ [] → exec (.btcfg h c a) s = .next (apStall 0 (apPops h s))))
      ∧ ∀ off va0 u r f, s.cur.pend = some { kind := .btcfg (some u) va0, res := r, from_ := f } →
          (s.cur.cycle < u → exec (.btcfg h c a) s = .next (apStall 0 (apPops h s)))
          ∧ (u ≤ s.cur.cycle → ownOffset s va0 = some off → vaPoison s s.turn.1 [] (ownVa off) 192 = false →
              let d : BitVec 1536 := BitVec.ofNat 1536 (leNat (spadBytes s s.turn.1 off 192))
              btCheck d c.toNat = none →
              WordRuns (.btcfg h c a) h cfg s { s.cur with pend := none, bt := smPut s.cur.bt c.toNat d }
                (s.cur.ctx.advance s.cur.apWords)))
    ∧ ∀ d, smFind s.cur.bt c.toNat = some d →
        let sp : ApSpec := { cls := if btQnt d then 21 else 20, cmd := true }
        ApGoes h sp s → goodCcw va → (c = 3 → s.cur.sys.priv = true) →
        (3 ≤ btKind d → ∀ k ∈ btBlocks d c.toNat, blockLive s.cur (btKind d) k = false) →
        noOverlap s va (.bte c.toNat) (btFoot s s.turn.1 c.toNat d) → waiting s (.bte c.toNat) < 8 →
        IssuesCmd (.btgo h c a) h sp s (.bte c.toNat) va { op := 0, desc := d } (carried s (btFoot s s.turn.1 c.toNat d))

namespace Sys2Proof.Claims

/-- 16_seed.md R276, R277: `sd.seed` writes two draws of stream 7 of the run key; `sd.key` loads the log context once no seed command is
left and the window is a pair log. -/
def ApSeedContext : Prop :=
  ∀ (h : Hdr) (d a : BitVec 5) (s : State), ApGoes h { cls := 24 } s →
    let step : Lane := (xr s a).extractLsb' 0 32
    Writes (.sdSeed h d a) h { cls := 24 } s 8 (xDst d) (grt s.cur.sd.rk 0xFFFFFF 7 step ++ grt s.cur.sd.rk 0xFFFFFE 7 step)
    ∧ (a.toNat ≤ 29 → (∀ m ∈ s.cur.cmds, m.eng ≠ .seed) → wbits (xr s (a + 1)) 32 32 = 0 →
        ∀ w, winOf s s.turn.1 (wbits (xr s (a + 1)) 0 8) = some w → nbits w.ctl 1 3 = 7 → w.len = 33554432 →
        Writes (.sdKey h a) h { cls := 24 } s 1 (some (.sdKey (xr s a) (xr s (a + 1)) (xr s (a + 2)))) 0)

/-- 16_seed.md R281-R286: the seed commands, with a loaded log context, a good command control word, good fields, an aligned address and
room among sixteen, are issued with the registers that their card names. -/
def ApSeedCommands : Prop :=
  ∀ (h : Hdr) (a : BitVec 5) (s : State),
    let sp : ApSpec := { cls := 24, cmd := true }
    ApGoes h sp s → s.cur.sd.keyed = true → goodCcw (xr s a) → waiting s .seed < 16 →
    let va := xr s (a + 1)
    let n := xr s (a + 3)
    let w (i : Instr) (op regs align : Nat) (foot : List Foot) : Prop :=
      a.toNat + regs ≤ 32 → va.toNat % align = 0 → noOverlap s (xr s a) .seed foot →
        IssuesCmd i h sp s .seed (xr s a) { op := op, regs := regGroup s a regs } (carried s foot)
    let foot (len : Nat) (wr : Bool) : List Foot := footOf s s.turn.1 va len wr
    (wbits n 25 39 = 0 → wbits n 0 16 ≤ wbits s.cur.sd.cfg 8 16 → wbits n 16 8 ≤ wbits s.cur.sd.cfg 24 8 →
      w (.sdEmit h a) 1 4 32 (foot 32 true))
    ∧ w (.sdGap h a) 3 3 8 (foot 16 true) ∧ w (.sdApply h a) 2 3 64 (foot 64 true)
    ∧ (xr s (a + 2) ≠ 0 → (xr s (a + 2)).toNat ≤ 4096 → 1 ≤ wbits n 60 2 → wbits n 62 2 = 0 →
        (∀ i < wbits n 60 2, wbits n (20 * i) 20 < (membersOf s s.turn.1).length) → w (.sdFetch h a) 4 4 1 (foot 0 false))

/-- 20_quern.md R318, R323, R324 with 01_machine.md R394 and 05_ap_model.md R117: a claim of the cluster's free Quern holds the core for 96
cycles, and takes the Quern, empty, once the checker has let the word out; where another core has taken it by then, it faults. The owner's
claim sends the ring only, and retires, with its pushes, 24 cycles later; `pb.free` gives the Quern back once it has left the AP and the
owner's commands have retired. -/
def ApQuernOwnership : Prop :=
  ∀ (h : Hdr) (a : BitVec 5) (s : State), ApGoes h { cls := 23, sends := true } s →
    let sp : ApSpec := { cls := 23, noPush := true, sends := true }
    let pushes (n : Nat) (c : Core) : Core :=
      { c with pushLater := c.pushLater ++ (wordPushes h).map fun e => (c.cycle + n, Stream.ap, e.1, e.2) }
    let k := s.turn.1
    let q := s.quern (k / 32)
    let mine : Prop := q.owner = some k ∧ q.releasing = false
    let on := s.cur.ctx.advance s.cur.apWords
    let free := exec (.pbFree h) s
    let waits := Host.Outcome.next (apStall 0 (apPops h s))
    let lost := Host.Outcome.next (apFault (apPops h s) 0x90 none)
    (s.cur.pend = none →
      (q.owner = none → ringBad (xr s a).toNat = false → HoldsAt (.pbClaim h a) h s id (.claim (s.cur.cycle + 96) (xr s a)))
      ∧ (mine → ringBad (xr s a).toNat = false →
          WordRuns (.pbClaim h a) h sp s (pushes 24 s.cur) ((s.cur.ctx.gets (s.cur.cycle + 4) (some (.qring (xr s a))) 0).advance s.cur.apWords))
      ∧ (q.owner ≠ none → ¬ mine → exec (.pbClaim h a) s = lost)
      ∧ (mine → HoldsAt (.pbFree h) h s id .wait) ∧ (¬ mine → free = lost))
    ∧ (∀ u v r f, s.cur.pend = some { kind := .claim u v, res := r, from_ := f } →
        (s.cur.cycle < f → exec (.pbClaim h a) s = waits)
        ∧ (f ≤ s.cur.cycle → q.owner = none →
            exec (.pbClaim h a) s = .next (apStall 0 ((apPops h s).setQuern (k / 32) { owner := some k, ring := v })))
        ∧ (f ≤ s.cur.cycle → q.owner ≠ none → ¬ mine → exec (.pbClaim h a) s = lost)
        ∧ (f ≤ s.cur.cycle → mine → s.cur.cycle < u → exec (.pbClaim h a) s = waits)
        ∧ (f ≤ s.cur.cycle → mine → u ≤ s.cur.cycle → WordRuns (.pbClaim h a) h sp s (pushes 0 { s.cur with pend := none }) on))
    ∧ ∀ p, s.cur.pend = some p →
        let here : Prop := ∃ m ∈ s.cur.cmds, m.eng = .quern
        (s.cur.cycle < p.from_ ∨ here → free = waits)
        ∧ (p.from_ ≤ s.cur.cycle → ¬ here →
            free = .next ((wordDone h { cls := 23, sends := true } s { s.cur with pend := none } on).setQuern (k / 32) { q with owner := none }))

/-- 20_quern.md R320, R325-R329: the owner's Quern commands, with good registers and room among eight, are issued. -/
def ApQuernCommands : Prop :=
  ∀ (h : Hdr) (a : BitVec 5) (m : BitVec 1) (n : BitVec 2) (s : State),
    let sp : ApSpec := { cls := 23, cmd := true }
    ApGoes h sp s → (s.quern (s.turn.1 / 32)).owner = some s.turn.1 → (s.quern (s.turn.1 / 32)).releasing = false →
    goodCcw (xr s a) → waiting s .quern < 8 →
    let va := xr s (a + 1)
    let r := xr s (a + 2)
    let range : Prop := wbits r 30 34 = 0 ∧ wbits r 15 1 = 0 ∧ 0 < wbits r 0 15 ∧ wbits r 16 14 + wbits r 0 15 ≤ 16384
    let foot (v : Word) (len : Nat) (wr : Bool) : List Foot := footOf s s.turn.1 v len wr
    let w (i : Instr) (op mod regs : Nat) (f : List Foot) : Prop :=
      a.toNat + regs ≤ 32 → noOverlap s (xr s a) .quern f →
        IssuesCmd i h sp s .quern (xr s a) { op := op, m := mod, regs := regGroup s a regs } (carried s f)
    (range → va.toNat % 8 = 0 → w (.pbLoad h a m) 1 m.toNat 3 (foot va (wbits r 0 15 * 80) false))
    ∧ (range → w (.pbColour h a m) 2 m.toNat 3 (foot va (wbits r 0 15 * 1) false) ∧ w (.pbClamp h a) 3 0 3 (foot va (wbits r 0 15 * 1) false))
    ∧ (wbits r 19 13 = 0 → wbits r 32 32 ≠ 0 → wbits (xr s (a + 3)) 32 32 = 0 → ¬ (n.getLsbD 0 = true ∧ s.cur.sys.det = true) →
        w (.pbSweep h a n) 4 n.toNat 4 [])
    ∧ (va.toNat % 8 = 0 → w (.pbRead h a) 5 0 2 (foot va (1 * 2048) true))
    ∧ (va.toNat % 4 = 0 → r.toNat % 4 = 0 →
        w (.pbMom h a m) 6 m.toNat 3 (foot va (1 * 65536) true ++ if r = 0 then [] else foot r (1 * 1572864) true))

end Sys2Proof.Claims

/-- Seed words and Quern words of the AP. -/
def Obligations.ApSeedAndQuernWords : Prop :=
  Claims.ApSeedContext ∧ Claims.ApSeedCommands ∧ Claims.ApQuernOwnership ∧ Claims.ApQuernCommands

namespace Sys2Proof.Claims

/-- 14_link.md R261: transfers to or from a window that permits them, within it and to a member that is there, are issued. -/
def ApLinkTransfers : Prop :=
  ∀ (h : Hdr) (a : BitVec 5) (s : State) (w : Win),
    let sp : ApSpec := { cls := 25, cmd := true }
    let v := xr s (a + 3)
    let len := wbits v 32 24
    ApGoes h sp s → a.toNat ≤ 28 → wbits v 28 4 = 0 → wbits v 56 8 = 0 → goodCcw (xr s a) → waiting s .link < 32 →
    winOf s s.turn.1 (wbits v 20 8) = some w → (xr s (a + 2)).toNat + len ≤ w.len → wbits v 0 20 < (membersOf s s.turn.1).length →
    let go (i : Instr) (op : Nat) (wr : Bool) : Prop :=
      let f := footOf s s.turn.1 (xr s (a + 1)) len wr
      noOverlap s (xr s a) .link f →
        IssuesCmd i h sp s .link (xr s a) { op := op, regs := regGroup s a 4 } (carried s f)
    (nbits w.ctl 2 1 = 1 → go (.cxPut h a) 0 false) ∧ (nbits w.ctl 3 1 = 1 → go (.cxGet h a) 1 true)

/-- 14_link.md R262: `cx.wcnt` ends with 0 once the window's counter has reached x[A + 1], with 0x7A where a member is lost before that,
and waits meanwhile, with the window and the value that it read as it issued (06_ap_instr.md R118; the model's reading, log entry 65). -/
def ApWindowWait : Prop :=
  ∀ (h : Hdr) (d a : BitVec 5) (m : BitVec 2) (s : State), ApGoes h { cls := 25 } s → a.toNat ≤ 30 → m.toNat ≤ 1 →
    let ends (v : Word) : Prop := WordRuns (.cxWcnt h d a m) h { cls := 25 } s { s.cur with pend := none }
      ((s.cur.ctx.gets (apTime s + 1) (xDst d) v).advance s.cur.apWords)
    let goes (win : Nat) (want : Word) (waits : Prop) : Prop := ∀ w, winOf s s.turn.1 win = some w →
      let n := leNat (spadBytes s s.turn.1 (w.cnt + 8 * m.toNat) 8)
      (want.toNat ≤ n → ends 0) ∧ (n < want.toNat → lostOf s s.turn.1 ≠ [] → ends 0x7A)
      ∧ (n < want.toNat → lostOf s s.turn.1 = [] → waits)
    (s.cur.pend = none → wbits (xr s a) 8 56 = 0 →
      goes (wbits (xr s a) 0 8) (xr s (a + 1)) (exec (.cxWcnt h d a m) s = .next (apStall 0 ((apPops h s).modCur fun c =>
        { c with pend := some { kind := .wcnt (wbits (xr s a) 0 8) (xr s (a + 1)), from_ := s.cur.cycle } }))))
    ∧ ∀ win want r f, s.cur.pend = some { kind := .wcnt win want, res := r, from_ := f } →
        goes win want (exec (.cxWcnt h d a m) s = .next (apStall 0 (apPops h s)))

/-- 14_link.md R265, R268, R269: a reduction or gather is issued as the member's next collective of its attempt; `cx.abort` starts the next
attempt and returns it, and its notice is on its way four cycles later (05_ap_model.md R117). -/
def ApCollectives : Prop :=
  ∀ (h : Hdr) (d a : BitVec 5) (s : State),
    let sp : ApSpec := { cls := 25, cmd := true }
    let ccw := xr s a
    let issue (i : Instr) (op regs : Nat) (f : List Foot) : Prop :=
      noOverlap s ccw .link f →
        let m := { newCommand s .link ccw { op := op, regs := regGroup s a regs } (carried s f) with
                   att := s.cur.lk.att.toNat, k := s.cur.lk.k }
        WordRuns i h sp s { withCommand s m with lk := { s.cur.lk with k := s.cur.lk.k + 1 } } (s.cur.ctx.advance s.cur.apWords)
    let foot (i len : Nat) (wr : Bool) : List Foot := footOf s s.turn.1 (xr s (a + BitVec.ofNat 5 i)) len wr
    (ApGoes h sp s → goodCcw ccw → waiting s .link < 32 →
      (a.toNat ≤ 27 → redBad (xr s (a + 4)) = false → hasTable s s.turn.1 = true →
        let r := redShape (xr s (a + 4))
        ¬ (r.mode = 1 ∧ s.cur.sys.det = true) →
        (r.mode = 0 → redAligned (wbits (xr s (a + 3)) 0 32) (wbits (xr s (a + 3)) 32 32) r.nt = true) →
        issue (.cxAred h a) 4 5 (foot 1 (r.n * redWidth r) false ++ foot 2 (r.n * redWidth r) true))
      ∧ (a.toNat ≤ 28 → wbits (xr s (a + 2)) 10 54 = 0 → (xr s (a + 3)).toNat ≤ 65536 →
          ∀ w, winOf s s.turn.1 (wbits (xr s (a + 2)) 0 8) = some w → nbits w.ctl 2 1 = 1 → w.len % gathWidth (xr s (a + 2)) = 0 →
          issue (.cxAgath h a) 5 4 (foot 1 ((xr s (a + 3)).toNat * gathWidth (xr s (a + 2))) false)))
    ∧ (ApGoes h { cls := 25, sends := true } s →
        (∀ m ∈ s.cur.cmds, ¬ (m.eng = .link ∧ (m.op.op = 4 ∨ m.op.op = 5))) → (∀ p ∈ s.cur.pend, ∀ b k t, p.kind ≠ .bar b k t) →
        WordRuns (.cxAbort h d) h { cls := 25, sends := true } s
          { s.cur with lk := { att := s.cur.lk.att + 1, out := s.cur.cycle + 4, k := 0 } }
          ((s.cur.ctx.gets (apTime s + 1) (xDst d) ((s.cur.lk.att + 1).zeroExtend 64)).advance s.cur.apWords))

end Sys2Proof.Claims

/-- Puts, gets, counter waits, reductions, gathers and aborts. -/
def Obligations.ApLinkWords : Prop :=
  Claims.ApLinkTransfers ∧ Claims.ApWindowWait ∧ Claims.ApCollectives

/-! ### Access processor: words that wait for an answer -/

namespace Sys2Proof.Claims

/-- The word the AP is held at has the answer v. -/
def Answered (p : Option Pend) (v : Word) : Prop := ∃ kind f, p = some { kind := kind, res := some (.value v), from_ := f }

/-- A held command word with an answer goes on: its result, its sequence number; its retirement sets EV (06_ap_instr.md R155). -/
def AnsweredCmd (i : Instr) (h : Hdr) (sp : ApSpec) (s : State) (x : ApCtx) : Prop :=
  WordRuns i h sp s { released s s.cur with cmdSeq := s.cur.cmdSeq + 1, ev := true } (x.advance s.cur.apWords)

/-- 14_link.md R264, R265: a barrier word holds the AP from its issue as the member's next collective; with its answer, which goes to x[D], it
takes a sequence number and goes on. -/
def ApBarriers : Prop :=
  ∀ (h : Hdr) (d : BitVec 5) (s : State),
    let sp : ApSpec := { cls := 25, cmd := true, accepted := true }
    ApGoes h sp s →
    let asks (i : Instr) (sbar : Bool) : Prop := s.cur.pend = none →
      HoldsAt i h s (fun c => { c with lk := { c.lk with k := c.lk.k + 1 } }) (.bar sbar s.cur.lk.k s.cur.lk.att.toNat)
    let ends (i : Instr) : Prop := ∀ v, Answered s.cur.pend v →
      AnsweredCmd i h sp s (s.cur.ctx.gets (apTime s + 1) (xDst d) v)
    asks (.cxSbar h d) true ∧ asks (.cxBar h d) false ∧ ends (.cxSbar h d) ∧ ends (.cxBar h d)

/-- 18_weir.md R294-R302: the Weir barrier words, in the states that allow them, hold the AP; with its answer `wl.open` and `wl.round` write x[D],
and each goes on. -/
def ApWeirBarriers : Prop :=
  ∀ (h : Hdr) (d a : BitVec 5) (s : State),
    let sp : ApSpec := { cls := 22, cmd := true, accepted := true }
    ApGoes h sp s →
    let v := xr s a
    let n := (xr s (a + 1)).toNat
    let quiet : Prop := s.cur.pend = none
    let open_ : Prop := a.toNat ≤ 30 ∧ wbits v 28 36 = 0 ∧ wbits v 0 16 ≠ 0xFFFF ∧ 1 ≤ n ∧ n < 2 ^ 48
      ∧ ∀ k ∈ membersOf s s.turn.1, moduleOf k = moduleOf s.turn.1
    (quiet → open_ → s.cur.wl.wst = 0 → HoldsAt (.wlOpen h d a) h s id (.wlOpen (wbits v 0 16) (wbits v 16 12 + 1) n))
    ∧ (quiet → s.cur.wl.wst ∈ [1, 2] → HoldsAt (.wlRound h d) h s id .wlRound)
    ∧ (quiet → s.cur.wl.wst ∈ [1, 2, 3] → HoldsAt (.wlClose h) h s id .wlClose)
    ∧ (s.cur.wl.wst ∉ [1, 2, 3] → s.cur.pend = none → exec (.wlClose h) s =
        .next (apFault (apPops h s) 0x81 (some (match s.cur.wl.broken with
          | some r => w64 r
          | none => s.cur.wl.wst.zeroExtend 64))))
    ∧ ∀ w, Answered s.cur.pend w →
        let x := s.cur.ctx.gets (apTime s + 1) (xDst d) w
        (a.toNat ≤ 30 → AnsweredCmd (.wlOpen h d a) h sp s x)
        ∧ AnsweredCmd (.wlRound h d) h sp s x ∧ AnsweredCmd (.wlClose h) h sp s s.cur.ctx

/-- 18_weir.md R303-R307: `wl.slot` selects a slot and reads its index; `wl.rsv`, `wl.test` and `wl.rels` enter their access of the cell at
x[A] + x[B] with the tag of the selected slot; `wl.done` marks that slot. -/
def ApWeirWords : Prop :=
  ∀ (h : Hdr) (d a b : BitVec 5) (p : BitVec 3) (s : State),
    let wl := s.cur.wl
    let va := xr s a + xr s b
    let cell : Need := { r := true, w := true, cell := true }
    (ApGoes h { cls := 22 } s → wl.wst ∈ [1, 2] → (xr s a).toNat < wl.wn →
      WordRuns (.wlSlot h d a) h { cls := 22 } s { s.cur with wl := { wl with wslot := some (xr s a).toNat } }
        ((s.cur.ctx.gets (apTime s + 2) (xDst d) ((smGet 0 wl.widx (xr s a).toNat).zeroExtend 64)).advance s.cur.apWords))
    ∧ (ApGoes h { cls := 22 } s → wl.wst = 2 → ∀ k, wl.wslot = some k →
        WordRuns (.wlDone h) h { cls := 22 } s { s.cur with wl := { wl with wdone := wl.wdone ||| (1 <<< k) } }
          (s.cur.ctx.advance s.cur.apWords))
    ∧ (ApGoes h { cls := 22, mem := true } s → writeRoom s → AccessPasses s va 8 8 8 cell → ∀ k, wl.wslot = some k →
        let tag : Word := wl.wlid ++ smGet 0 wl.widx k
        let sp : ApSpec := { cls := 22, mem := true }
        let x := s.cur.ctx
        let pc := if x.ext = [] then x.pc else x.extAt
        let entry (kind : WrKind) (dst : Option ApDst) (ret : Bool) (lat : Nat) : WrE :=
          { po := x.po, pc := pc, va := va, kind := kind, data := tag, dst := dst, due := apTime s + lat, ret := ret,
            from_ := apTime s + 4, bp := x.pending }
        let test (i : Instr) (dst : Option ApDst) : Prop := wl.wst = 2 → readRoom s → ∃ lat, ReadLatency s va lat
          ∧ WordRuns i h sp s s.cur (({ x with
              rq := x.rq ++ [{ po := x.po, pc := pc, va := va, kind := .test, dst := dst, due := apTime s + lat,
                               from_ := apTime s + 4, bp := x.pending }]
              wq := x.wq ++ [entry .test dst true lat] } : ApCtx).advance s.cur.apWords)
        let plain (i : Instr) (kind : WrKind) : Prop := ∃ lat, ReadLatency s va lat
          ∧ WordRuns i h sp s s.cur (({ x with wq := x.wq ++ [entry kind none false lat] } : ApCtx).advance s.cur.apWords)
        (wl.wst = 1 → plain (.wlRsv h a b) .rsv) ∧ (wl.wst = 2 → plain (.wlRels h a b) .rels)
        ∧ test (.wlTest h d a b) (xDst d) ∧ test (.wlTestP h p a b) (pDst p))

end Sys2Proof.Claims

/-- Group barriers and the Weir words. -/
def Obligations.ApBarrierWords : Prop :=
  Claims.ApBarriers ∧ Claims.ApWeirBarriers ∧ Claims.ApWeirWords

namespace Sys2Proof.Claims

/-- 21_scheduler.md R350, R351, R395: `rg.next` and `rg.steal`, `rg.step` and `rg.yield` hold the AP, the latter two as the member's next region
barrier, and every one of them goes on with its answer. -/
def ApRegionWords : Prop :=
  ∀ (h : Hdr) (d a : BitVec 5) (s : State),
    let sp : ApSpec := { cls := 0, cmd := true, accepted := true }
    ApGoes h sp s →
    let rg := s.cur.rg
    let count (c : Core) : Core := { c with rg := { c.rg with k := c.rg.k + 1 } }
    let members := (membersOf s s.turn.1).length
    let victim : Prop := (xr s a).toNat < members ∧ (xr s a).toNat ≠ s.cur.rank
    (s.cur.pend = none → HoldsAt (.rgNext h d) h s id (.rgNext 0 none)
      ∧ (victim → HoldsAt (.rgSteal h d a) h s id (.rgNext 0 (some (xr s a).toNat)))
      ∧ (¬ victim → exec (.rgSteal h d a) s = .next (apFault (apPops h s) 0x02 none))
      ∧ (s.cur.wl.wst = 0 → HoldsAt (.rgStep h d) h s count (.rgStep rg.k))
      ∧ (s.cur.wl.wst ≠ 0 → exec (.rgStep h d) s = .next (apFault (apPops h s) 0x81 (some (s.cur.wl.wst.zeroExtend 64))))
      ∧ HoldsAt (.rgYield h) h s count (.rgYield rg.k))
    ∧ (∀ v, Answered s.cur.pend v →
        let x := s.cur.ctx.gets (apTime s + 1) (xDst d) v
        AnsweredCmd (.rgNext h d) h sp s x ∧ AnsweredCmd (.rgStep h d) h sp s x ∧ AnsweredCmd (.rgYield h) h sp s s.cur.ctx)
    ∧ ∀ n r f v, s.cur.pend = some { kind := .rgNext n (some r), res := some (.value v), from_ := f } → r < members → r ≠ s.cur.rank →
        AnsweredCmd (.rgSteal h d a) h sp s (s.cur.ctx.gets (apTime s + 1) (xDst d) v)

/-- 21_scheduler.md R348, R349 with 05_ap_model.md R117: `rg.exit` and `rg.spawn` are held with their operands until the checker lets them out.
`rg.exit` then waits for the core's commands and the stores that can be performed, notes the member's exit code and gives up its indices;
`rg.spawn` reads the control block, appends it as a region to the journal of its partition, and counts it in x[D]. -/
def ApSpawnAndExit : Prop :=
  ∀ (h : Hdr) (d a : BitVec 5) (s : State) (g : Region),
    let sp : ApSpec := { cls := 0, cmd := true, accepted := true }
    ApGoes h sp s → s.region? s.cur.rid = some g → s.cur.copy = none →
    let waits (i : Instr) : Prop := exec i s = .next (apStall 0 (apPops h s))
    (s.cur.pend = none → HoldsAt (.rgExit h a) h s id (.rgExit (xr s a)))
    ∧ (∀ w r f, s.cur.pend = some { kind := .rgExit w, res := r, from_ := f } →
        (s.cur.cycle < f ∨ s.cur.cmds ≠ [] → waits (.rgExit h a))
        ∧ (f ≤ s.cur.cycle → s.cur.cmds = [] → (∀ e, s.cur.main.wq.head? = some e → e.kind = .stq ∧ sqHead s.cur = none) →
            ∃ t, exec (.rgExit h a) s = .next t ∧ t.cur.rg = { s.cur.rg with exited := true, untaken := [] }
              ∧ t.region? s.cur.rid = some { g with user := g.user ++ [(s.cur.rank, w.toNat % 65536)] }
              ∧ (∀ b, memByte t b = memByte s b) ∧ t.cur.main.x = s.cur.main.x ∧ t.cur.sys = s.cur.sys ∧ t.cur.ev = true))
    ∧ (a.toNat ≤ 30 → ccwBad (xr s a) false = false → s.cur.pend = none →
        HoldsAt (.rgSpawn h d a) h s id (.rgSpawn (xr s a) (xr s (a + 1))))
    ∧ ∀ ccw va r f, a.toNat ≤ 30 → s.cur.pend = some { kind := .rgSpawn ccw va, res := r, from_ := f } → ccwBad ccw false = false →
        (s.cur.cycle < f ∨ spawnReady s.cur ccw = false → waits (.rgSpawn h d a))
        ∧ (f ≤ s.cur.cycle → spawnReady s.cur ccw = true → chanCount s (partOfCore s s.turn.1) (some (s.cur.rid, s.cur.rank)) < 4096 →
            ∀ s1 s2 xl yl, spawnAccess s s.turn.1 va 256 { r := true } = (s1, .ok xl) →
            let raw : BitVec 2048 := BitVec.ofNat 2048 (leNat (vaBytes s1 s.turn.1 xl va 256))
            spawnAccess s1 s.turn.1 (raw.extractLsb' 128 64) 32 { w := true } = (s2, .ok yl) →
            ∃ t n, exec (.rgSpawn h d a) s = .next t ∧ t.region? s.nextRid = some n ∧ t.nextRid = s.nextRid + 1
              ∧ n.part = partOfCore s s.turn.1 ∧ n.chan = some (s.cur.rid, s.cur.rank) ∧ n.raw = raw ∧ n.st = .journal
              ∧ (∀ r, r ≠ s.nextRid → t.region? r = s.region? r) ∧ (∀ b, memByte t b = memByte s b)
              ∧ t.cur = coreDone h sp s.cur
                  { s.cur with pend := none, cmdSeq := s.cur.cmdSeq + 1, ev := true
                               rg := { s.cur.rg with spawnCnt := s.cur.rg.spawnCnt + 1 } }
                  ((s.cur.ctx.gets (apTime s + 1) (xDst d) (w64 s.cur.rg.spawnCnt)).advance s.cur.apWords))

end Sys2Proof.Claims

/-- Region words: next, steal, step, yield, exit and spawn. -/
def Obligations.ApRegionControl : Prop :=
  Claims.ApRegionWords ∧ Claims.ApSpawnAndExit

namespace Sys2Proof.Claims

/-- 04_memory.md R86: a `sysw` to TLBI holds the stream until the invalidation it asks for has retired, and then goes on. -/
def ApTlbInvalidate : Prop :=
  ∀ (h : Hdr) (d : BitVec 5) (i : BitVec 11) (s : State),
    let sp : ApSpec := { cls := 0, extOk := true, sends := true }
    ApGoes h sp s → immediateBits s i = 0x40 →
    (heldAt s = none → (xr s d).toNat % 4 < 2 → (xr s d).toNat / 4 % 2 ^ 14 = 0 → HoldsAt (.sysw h d i) h s id (.tlbi (xr s d)))
    ∧ ∀ v, Answered (heldAt s) v →
        WordRuns (.sysw h d i) h sp s (released s s.cur) (s.cur.ctx.advance s.cur.apWords)

end Sys2Proof.Claims

/-- sysr, sysw and the TLB invalidation. -/
def Obligations.ApSystemRegisters : Prop :=
  Claims.ApSystemRead ∧ Claims.ApSystemWrite ∧ Claims.ApTlbInvalidate

/-! ### Access processor: exceptions, masks and guards -/

namespace Sys2Proof.Claims

/-- 06_ap_instr.md R150 with 22_faults.md R356: a `trap` outside the handler, where the partition has one, freezes the core and is delivered:
EPC is the address of the trap (or of its first `ext`), CAUSE 0x09, FADDR the code; a branch that is pending goes to BRPEND; the handler
starts eight clock cycles later. -/
def TrapDelivered : Prop :=
  ∀ (h : Hdr) (i : BitVec 6) (s : State), ApGoes h { cls := 0, extOk := true } s → s.cur.inHandler = false → s.cur.hnd = none →
    s.cur.hndQ = [] → wbits (s.part (partOfCore s s.turn.1)).pthl 0 12 ≠ 0 →
    let m := s.cur.main
    let epc := if m.ext = [] then m.pc else m.extAt
    ∃ t, exec (.trap h i) s = .next t ∧ OnlyCur s t
      ∧ t.cur.hnd = some { epc := epc, cause := 9, faddr := BitVec.ofNat 64 (immediateBits s i), cmd := none, apPo := none,
                           bp := m.br.map fun b => { b with left := b.left + m.ext.length }, start := s.clock + 8, running := false }
      ∧ t.cur.sys.epc = epc ∧ t.cur.sys.cause = 9 ∧ t.cur.sys.faddr = BitVec.ofNat 64 (immediateBits s i)
      ∧ t.cur.sys.bpV = m.br.isSome
      ∧ (∀ b, m.br = some b → t.cur.sys.bpTarget = b.target.setWidth 14 ∧ t.cur.sys.bpLeft = BitVec.ofNat 2 (b.left + m.ext.length))
      ∧ t.cur.sys.oum = s.cur.sys.oum ∧ t.cur.sys.ccm = s.cur.sys.ccm ∧ t.cur.sys.raw = s.cur.sys.raw ∧ t.cur.sys.det = s.cur.sys.det
      ∧ t.cur.main = { m with popped := true, stall := 0 } ∧ t.cur.shadow = s.cur.shadow ∧ t.cur.q = s.cur.q ∧ t.cur.cmds = s.cur.cmds

/-- 22_faults.md R356, R354: a delivered event starts the handler at word 0 of the shadow context once its eight cycles are over. -/
def HandlerStarts : Prop :=
  ∀ (s : State) (k : Nat) (d : Deliv), (s.core k).hnd = some d → d.running = false →
    (s.clock < d.start → exec (.handlerStart k) s = .next s)
    ∧ (d.start ≤ s.clock → ∃ t, exec (.handlerStart k) s = .next t ∧ OnlyCore k s t
        ∧ (t.core k).inHandler = true ∧ (t.core k).shadow.pc = 0 ∧ (t.core k).shadow.br = none
        ∧ (t.core k).shadow.x = (s.core k).shadow.x ∧ (t.core k).shadow.p = (s.core k).shadow.p
        ∧ (t.core k).main = (s.core k).main ∧ (t.core k).sys = (s.core k).sys)

/-- 22_faults.md R356: the next event of the core's queue is delivered once the delivery before it is over. For an engine's walk, EPC is where the
main context stands, and a branch pending there goes to BRPEND; for an access of the AP both are its word's. CAUSE and FADDR are the event's,
and the handler starts eight clock cycles later. -/
def NextEventDelivered : Prop :=
  ∀ (s : State) (k : Nat) (d : Deliv) (rest : List Deliv), (s.core k).hndQ = d :: rest →
    let m := (s.core k).main
    let epc := if d.cmd.isSome then (if m.ext = [] then m.pc else m.extAt) else d.epc
    let bp := if d.cmd.isSome then m.br.map (fun b => { b with left := b.left + m.ext.length }) else d.bp
    ((s.core k).hnd ≠ none → exec (.handlerDelivery k) s = .next s)
    ∧ ((s.core k).hnd = none → ∃ t, exec (.handlerDelivery k) s = .next t ∧ OnlyCore k s t ∧ (t.core k).hndQ = rest
        ∧ (t.core k).hnd = some { d with epc := epc, bp := bp, start := s.clock + 8 }
        ∧ (t.core k).sys.epc = epc ∧ (t.core k).sys.cause = d.cause ∧ (t.core k).sys.faddr = d.faddr ∧ (t.core k).sys.bpV = bp.isSome
        ∧ (∀ b, bp = some b → (t.core k).sys.bpTarget = b.target.setWidth 14 ∧ (t.core k).sys.bpLeft = BitVec.ofNat 2 b.left)
        ∧ (t.core k).main = m ∧ (t.core k).shadow = (s.core k).shadow ∧ (t.core k).cmds = (s.core k).cmds)

/-- 06_ap_instr.md R151 with 22_faults.md R358: `eret` in the handler, with its memory events performed, resumes the main context at EPC; a
pending branch transfers at once where no delay word is left, and otherwise after LEFT words; BRPEND.V is cleared. An access or an engine
access whose walk failed is walked again; after that of an AP access the main context is as it was, and a word that it was held at is
given up where EPC names another (the model's choice, log entry 52). -/
def ExceptionReturn : Prop :=
  ∀ (h : Hdr) (s : State) (d : Deliv), ApGoes h { cls := 0 } s → s.cur.inHandler = true → s.cur.hnd = some d →
    s.cur.shadow.br = none → s.cur.shadow.rq = [] → s.cur.shadow.wq = [] →
    let y := s.cur.sys
    ∃ t, exec (.eret h) s = .next t ∧ OnlyCur s t ∧ t.cur.hnd = none ∧ t.cur.sys = { y with bpV := false }
      ∧ (d.apPo ≠ none → t.cur.main = s.cur.main)
      ∧ (d.apPo = none → y.bpV = false → t.cur.main.pc = y.epc ∧ t.cur.main.br = none)
      ∧ (d.apPo = none → y.bpV = true → y.bpLeft = 0 → t.cur.main.pc = y.bpTarget ∧ t.cur.main.br = none ∧ t.cur.main.via = true)
      ∧ (d.apPo = none → y.bpV = true → y.bpLeft ≠ 0 → t.cur.main.pc = y.epc ∧ t.cur.main.br = some ⟨y.bpLeft.toNat, y.bpTarget.zeroExtend 64⟩)
      ∧ (d.apPo = none → y.epc ≠ s.cur.main.unitPc → t.cur.pend = none)
      ∧ t.cur.main.x = s.cur.main.x ∧ t.cur.main.p = s.cur.main.p ∧ t.cur.main.b = s.cur.main.b ∧ t.cur.main.loops = s.cur.main.loops
      ∧ t.cur.main.fly = s.cur.main.fly ∧ t.cur.main.rq = s.cur.main.rq ∧ t.cur.main.wq = s.cur.main.wq
      ∧ t.cur.cmds = s.cur.cmds.map fun m => if d.cmd = some m.seq then { m with walk := false } else m

end Sys2Proof.Claims

/-- Taking an exception, starting the handler, and the return. -/
def Obligations.ExceptionsTaken : Prop :=
  Claims.TrapDelivered ∧ Claims.HandlerStarts ∧ Claims.NextEventDelivered ∧ Claims.ExceptionReturn

namespace Sys2Proof.Claims

/-- 06_ap_instr.md R151, R131-R133 with 05_ap_model.md R114: outside the handler `eret` faults with 0x08; a `bxfer`, `lset`, `lbrk` or `eret` among
the delay words of a taken branch faults with 0x0A. That an `eret` that is both faults with 0x0A is the model's reading (log entry 17), and that an
`lset` there does so whatever its count and body is its choice (log entry 56). -/
def ReturnAndDelayFaults : Prop :=
  ∀ (h : Hdr) (n d : BitVec 2) (a l : BitVec 5) (i : BitVec 6) (s : State),
    let faults (j : Instr) (cause : Nat) : Prop := exec j s = .next (apFault (apPops h s) cause none)
    (ApGoes h { cls := 0 } s → s.cur.ctx.br = none → s.cur.inHandler = false → faults (.eret h) 0x08)
    ∧ (ApGoes h { cls := 0 } s → s.cur.ctx.br ≠ none → faults (.bxfer h n d l) 0x0A ∧ faults (.lbrk h n) 0x0A ∧ faults (.eret h) 0x0A)
    ∧ (ApGoes h { cls := 0, extOk := true } s → s.cur.ctx.br ≠ none → immediateBits s i ≠ 0 → faults (.lset h n a i) 0x0A)

/-- A word of every kind of AP card, by its capability class (02_encoding.md R37). -/
def classedWords (h : Hdr) (d a b : BitVec 5) (i : BitVec 6) : List (Instr × Nat) :=
  [(.nop h, 0), (.add h d a b, 0), (.mul h d a b, 1), (.divu h d a b, 1), (.addi h d a i, 0), (.ldD h d a b, 3), (.stD h d a b, 3),
   (.amoAdd h d a b, 2), (.redAdd h a b, 2), (.popq h d, 3), (.qmark h i, 3), (.mxgo h a, 0), (.vxcall h a b, 0), (.wlDone h, 22),
   (.pbFree h, 23), (.sdSeed h d a, 24), (.cxBar h d, 25), (.rgNext h d, 0), (.trap h i, 0), (.eret h, 0), (.wfe h, 0)]

/-- 02_encoding.md R26, R37, R39 with 01_machine.md R19: outside the handler a word with VS 2 or 3 faults with 0x03; one whose class the OUM does
not hold with 0x06, and one whose class the core's mask does not hold with 0x07, before any pop and whatever its guard. -/
def MasksChecked : Prop :=
  ∀ (h : Hdr) (d a b : BitVec 5) (i : BitVec 6) (s : State) (e : Instr × Nat), e ∈ classedWords h d a b i → s.cur.inHandler = false →
    s.cur.main.ext = [] →
    (2 ≤ h.vs.toNat → exec e.1 s = .next (apFault s 0x03 none))
    ∧ (h.vs.toNat < 2 → s.cur.sys.oum.getLsbD e.2 = false → exec e.1 s = .next (apFault s 0x06 none))
    ∧ (h.vs.toNat < 2 → s.cur.sys.oum.getLsbD e.2 = true → s.cur.sys.ccm.getLsbD e.2 = false → exec e.1 s = .next (apFault s 0x07 none))

/-- 22_faults.md R357: in the handler a word with tokens, a `btwait`, an `ldq`, a `popq`, a `wfe` and every engine command fault with 0x08. -/
def HandlerRestricted : Prop :=
  ∀ (h : Hdr) (d a b : BitVec 5) (f : BitVec 3) (c : BitVec 2) (s : State), s.cur.inHandler = true → s.cur.shadow.ext = [] → h.vs.toNat < 2 →
    let refused (i : Instr) : Prop := exec i s = .next (apFault s 0x08 none)
    (h.wp = true ∨ h.wn = true ∨ h.sp = true ∨ h.sn = true → refused (.add h d a b) ∧ refused (.ldD h d a b) ∧ refused (.stD h d a b))
    ∧ refused (.mxgo h a) ∧ refused (.vxcall h a b) ∧ refused (.rgNext h d) ∧ refused (.cxBar h d) ∧ refused (.btwait h c)
    ∧ refused (.popq h d) ∧ refused (.wfe h) ∧ (f.getLsbD 0 = false → refused (.ldq h f a b))

end Sys2Proof.Claims

/-- 02_encoding.md R25, R27 with 01_machine.md R14: a guarded-off word takes its pops, makes its pushes and moves the pc, and has no other
effect; a guarded-off engine command takes a sequence number besides, and of the region words `rg.spawn`, `rg.step` and `rg.yield` are
counted too (21_scheduler.md R348, R349, R395). -/
def Obligations.GuardedOffWords : Prop :=
  ∀ (h : Hdr) (d a b : BitVec 5) (s : State), h.vs.toNat < 2 → s.cur.inHandler = false → s.cur.main.ext = [] →
    (∀ k, s.cur.sys.oum.getLsbD k = true ∧ s.cur.sys.ccm.getLsbD k = true ∨ 26 ≤ k) → pr s h.g = false →
    s.cur.pend = none → (∀ e ∈ s.cur.pushWait, e.1 ≠ Stream.ap) → (s.cur.main.popped = true ∨ ∀ f < 6, tokSum (hdrPops .ap h) f ≤ s.cur.tokens f) →
    let off (i : Instr) (c : Core) : Prop := WordRuns i h { cls := 0 } s c (s.cur.main.advance 16384)
    (∀ i ∈ [Instr.add h d a b, .mul h d a b, .ldD h d a b, .stD h d a b, .amoAdd h d a b, .redAdd h a b, .popq h d, .wfe h, .eret h, .trap h 0],
      off i s.cur)
    ∧ (∀ i ∈ [Instr.mxgo h a, .vxcall h a b, .pbRead h 0, .sdGap h 0, .cxPut h 0, .cxBar h d, .wlClose h, .rgNext h d, .rgExit h a],
      off i { s.cur with cmdSeq := s.cur.cmdSeq + 1 })
    ∧ (∀ i ∈ [Instr.rgStep h d, .rgYield h],
      off i { s.cur with cmdSeq := s.cur.cmdSeq + 1, rg := { s.cur.rg with k := s.cur.rg.k + 1 } })
    ∧ off (.rgSpawn h d 0) { s.cur with cmdSeq := s.cur.cmdSeq + 1, rg := { s.cur.rg with spawnCnt := s.cur.rg.spawnCnt + 1 } }

namespace Sys2Proof.Claims

/-- 22_faults.md R352 with 21_scheduler.md R346: a precise fault writes CAUSE and FADDR, and for an AP word EPC and BRPEND, into the core's
system registers and stops the core; it is the fault of its region's run, unless a member of a lower rank, or the same, has faulted before it
in the cycle. -/
def FaultStopsCore : Prop :=
  ∀ (s : State) (k addr cause : Nat) (f : Word) (g : Region), (s.core k).run = .running →
    s.region? (s.core k).rid = some g → g.st = .running →
    let t := endKernel s k 0 addr cause f
    let e : RegionEnd := { status := 2, cause := cause, rank := (s.core k).rank, faddr := f }
    (t.core k).sys.cause = BitVec.ofNat 8 cause ∧ (t.core k).sys.faddr = f ∧ (t.core k).sys.epc = BitVec.ofNat 14 addr
    ∧ (t.core k).sys.bpV = (s.core k).main.br.isSome ∧ (t.core k).run ≠ .running
    ∧ ∃ g', t.region? (s.core k).rid = some g' ∧ g'.st = .running
        ∧ (g.fail = none → g'.fail = some e)
        ∧ ∀ o, g.fail = some o → g'.fail = some (if o.rank ≤ e.rank then o else e)

/-- 21_scheduler.md R346: as the cycle ends, a region whose run a fault has ended is ready to run again, with no member, exit code or statistics
of that run, where it is RESTART, the cause allows it and it has not run three times; otherwise it is done, with that fault. -/
def FaultEndsRun : Prop :=
  ∀ (s : State) (r : Nat) (g : Region) (e : RegionEnd), s.region? r = some g → g.st = .running → g.fail = some e →
    let again : Prop := nbits g.rcb.ctl 2 1 = 1 ∧ e.cause ∈ [0x07, 0x62, 0x63, 0x7A, 0xB1, 0xB2, 0xB3, 0xB5] ∧ g.runs < 3
    (again → ∃ g', (settleRegion s r).region? r = some g' ∧ g'.st = .ready ∧ g'.members = [] ∧ g'.user = [] ∧ g'.mstats = []
      ∧ g'.copies = [] ∧ g'.lost = [] ∧ g'.fail = none ∧ g'.fin = g.fin ∧ g'.runs = g.runs ∧ g'.raw = g.raw)
    ∧ (¬ again → ∃ g', (settleRegion s r).region? r = some g' ∧ g'.st = .done ∧ g'.fin = some e ∧ g'.fail = none ∧ g'.raw = g.raw)
    ∧ ∀ k, (s.core k).rid = r → (s.core k).run ≠ .idle → ((settleRegion s r).core k).run = .idle

end Sys2Proof.Claims

/-- A fault stops its core, and ends or restarts its region's run. -/
def Obligations.FaultEndsKernel : Prop :=
  Claims.FaultStopsCore ∧ Claims.FaultEndsRun

/-! ### Vector engine: arithmetic -/

namespace Sys2Proof.Claims

/-- The rounding control of element j of a format (03_numbers.md R60, R61): VRM.MODE, VSM.EN, VNM.FTZO, and in mode SR the draw of
stream 2 for its logical index (08_vxe_instr.md R177). -/
def elemRc (s : State) (half : Bool) (j : Nat) : RC := vrc s.cur (if half then halfIdx s.cur j else laneIdx s.cur j)

/-- The register that a rounded word reads besides its operands (03_numbers.md R61, 08_vxe_instr.md R177): v31, for the logical indices, in mode SR.
-/
def idxReg (s : State) : List (BitVec 5) := if vmode s.cur = 5 then [31] else []

/-- 08_vxe_instr.md R179, R180: in each of the three formats the sums, products and fused products, rounded once, with latency 4 (5 for
`vfma`, whose addend is the old vD); the exact minimum, maximum, magnitude and negation, with latency 4; and the
transcendental operations, with latency 10. -/
def VxFloatWords : Prop :=
  ∀ (h : Hdr) (d a b : BitVec 5) (s : State),
    let down := vmode s.cur == 2
    let format (f : Fmt) (cls : Nat) (add sub mul fma : Instr) (mn mx abs neg : Instr) (rcp rsq exp2 log2 : Instr) : Prop :=
      let v (l : List Nat) (k : Nat) : FV := f.val (l.getD k 0)
      let round (i : Instr) (lat : Nat) (srcs : List (BitVec 5)) (x : List Nat → FV) : Prop :=
        Readable s (idxReg s) (vmask s.cur) → FloatWord i h s f lat d srcs fun l j => rnd f (elemRc s (fmtHalf f) j) (x l)
      let exact (i : Instr) (srcs : List (BitVec 5)) (x : List Nat → Nat) : Prop :=
        FloatWord i h s f 4 d srcs fun l _ => writeExact f (vftzo s.cur) (x l)
      let pick (l : List Nat) (less first : Bool) : Nat :=
        if (v l 0).isNan || (v l 1).isNan then f.nanBits else if less || first then l.getD 0 0 else l.getD 1 0
      (VxGoes h cls 0 false s →
        round add 4 [a, b] (fun l => FV.add down (v l 0) (v l 1))
        ∧ round sub 4 [a, b] (fun l => FV.add down (v l 0) (v l 1).neg)
        ∧ round mul 4 [a, b] (fun l => FV.mul (v l 0) (v l 1))
        ∧ round fma 5 [a, b, d] (fun l => FV.add down (FV.mul (v l 0) (v l 1)) (v l 2))
        ∧ exact mn [a, b] (fun l => pick l (FV.lt (v l 0) (v l 1)) (!FV.lt (v l 1) (v l 0) && (v l 0).isNeg))
        ∧ exact mx [a, b] (fun l => pick l (FV.lt (v l 1) (v l 0)) (!FV.lt (v l 0) (v l 1) && !(v l 0).isNeg))
        ∧ exact abs [a] (fun l => l.getD 0 0 % f.signW)
        ∧ exact neg [a] (fun l => if l.getD 0 0 < f.signW then l.getD 0 0 + f.signW else l.getD 0 0 - f.signW))
      ∧ (VxGoes h 13 0 false s →
        round rcp 10 [a] (fun l => fvRcp (v l 0)) ∧ round rsq 10 [a] (fun l => fvRsq (v l 0))
        ∧ round exp2 10 [a] (fun l => fvExp2 (v l 0)) ∧ round log2 10 [a] (fun l => fvLog2 (v l 0)))
    format fp32 10 (.vaddF32 h d a b) (.vsubF32 h d a b) (.vmulF32 h d a b) (.vfmaF32 h d a b) (.vminF32 h d a b) (.vmaxF32 h d a b)
      (.vabsF32 h d a) (.vnegF32 h d a) (.vrcpF32 h d a) (.vrsqF32 h d a) (.vexp2F32 h d a) (.vlog2F32 h d a)
    ∧ format fp16 11 (.vaddF16 h d a b) (.vsubF16 h d a b) (.vmulF16 h d a b) (.vfmaF16 h d a b) (.vminF16 h d a b) (.vmaxF16 h d a b)
      (.vabsF16 h d a) (.vnegF16 h d a) (.vrcpF16 h d a) (.vrsqF16 h d a) (.vexp2F16 h d a) (.vlog2F16 h d a)
    ∧ format bf16 12 (.vaddBf16 h d a b) (.vsubBf16 h d a b) (.vmulBf16 h d a b) (.vfmaBf16 h d a b) (.vminBf16 h d a b)
      (.vmaxBf16 h d a b) (.vabsBf16 h d a) (.vnegBf16 h d a) (.vrcpBf16 h d a) (.vrsqBf16 h d a) (.vexp2Bf16 h d a) (.vlog2Bf16 h d a)

/-- 03_numbers.md R60, R64, R66 with 08_vxe_instr.md R179, R180: a NaN is rounded to the canonical NaN and counted; an infinity is kept
without saturation, and with it becomes the largest finite value and is counted; zeros keep their sign; and the values that the operations
take on infinities and zeros. -/
def SpecialValues : Prop :=
  ∀ (f : Fmt) (c : RC) (n m : Bool) (a b e : Nat) (x y : Int), f ∈ [fp32, fp16, bf16, e4m3, e5m2] →
    let sign := if n then f.signW else 0
    let fin (s : Bool) (k : Nat) (q : Int) : FV := .fin s k 1 q
    rnd f c .nan = ⟨f.nanBits, { nan := 1 }⟩
    ∧ (c.sat = true → rnd f c (.inf n) = ⟨sign + f.maxBits, { sat := 1 }⟩)
    ∧ (c.sat = false → f.tight = false → rnd f c (.inf n) = ⟨sign + f.infBits, {}⟩)
    ∧ rnd f c (fin n 0 x) = ⟨sign, {}⟩
    ∧ (f.val f.nanBits).isNan = true ∧ (f.tight = false → f.val f.infBits = .inf false)
    ∧ FV.add m (.inf n) (.inf (!n)) = .nan ∧ FV.add m (.inf n) (fin m a x) = .inf n
    ∧ (0 < a → FV.add m (fin n a x) (fin (!n) a x) = fin m 0 0)
    ∧ FV.mul (.inf n) (fin m 0 x) = .nan ∧ (0 < b → FV.mul (.inf n) (fin m b x) = .inf (n != m))
    ∧ FV.lt (fin true 0 x) (fin false 0 y) = false ∧ FV.eqv (fin true 0 x) (fin false 0 y) = true
    ∧ fvRcp (fin n 0 x) = .inf n ∧ fvRcp (.inf n) = fin n 0 0 ∧ fvRsq (fin n 0 x) = .inf n
    ∧ (0 < e → fvRsq (fin true e x) = .nan ∧ fvLog2 (fin true e x) = .nan) ∧ fvLog2 (fin n 0 x) = .inf true
    ∧ fvExp2 (.inf true) = fin false 0 0 ∧ fvExp2 (.inf false) = .inf false

end Sys2Proof.Claims

/-- Floating-point words of the vector engine, and special values. -/
def Obligations.VxFloat : Prop :=
  Claims.VxFloatWords ∧ Claims.SpecialValues

namespace Sys2Proof.Claims

/-- 08_vxe_instr.md R182, R184: the integer words, modulo 2^32 and with shifts by the low five bits, and the moves, write each unmasked lane
with latency 2; `vsel` chooses by the old vD. -/
def VxIntegerWords : Prop :=
  ∀ (h : Hdr) (d a b : BitVec 5) (q : BitVec 3) (i : BitVec 11) (s : State),
    let x (k : Nat) : Lane := rowLane (vreg s.cur a) k
    let y (k : Nat) : Lane := rowLane (vreg s.cur b) k
    let w (j : Instr) (v : Nat → Lane) : Prop := Readable s [a, b] (vmask s.cur) → LaneWord j h s 2 d v
    (VxGoes h 14 0 false s →
      w (.viadd h d a b) (fun k => x k + y k) ∧ w (.visub h d a b) (fun k => x k - y k) ∧ w (.vimul h d a b) (fun k => x k * y k)
      ∧ w (.vand h d a b) (fun k => x k &&& y k) ∧ w (.vor h d a b) (fun k => x k ||| y k) ∧ w (.vxor h d a b) (fun k => x k ^^^ y k)
      ∧ w (.vshl h d a b) (fun k => x k <<< ((y k).toNat % 32)) ∧ w (.vshr h d a b) (fun k => x k >>> ((y k).toNat % 32))
      ∧ w (.vsra h d a b) (fun k => (x k).sshiftRight ((y k).toNat % 32))
      ∧ w (.vimin h d a b) (fun k => if (x k).toInt ≤ (y k).toInt then x k else y k)
      ∧ w (.viminU h d a b) (fun k => if (x k).toNat ≤ (y k).toNat then x k else y k)
      ∧ w (.vimax h d a b) (fun k => if (x k).toInt ≤ (y k).toInt then y k else x k)
      ∧ w (.vimaxU h d a b) (fun k => if (x k).toNat ≤ (y k).toNat then y k else x k)
      ∧ (Readable s [d, a, b] (vmask s.cur) →
          LaneWord (.vsel h d a b) h s 2 d fun k => if rowLane (vreg s.cur d) k = 0 then y k else x k)
      ∧ (Readable s [a] (vmask s.cur) → LaneWord (.vmov h d a) h s 2 d x)
      ∧ LaneWord (.vmovQ h d q) h s 2 d (fun k => if (vq s.cur q).getLsbD k then 0xFFFFFFFF else 0))
    ∧ (VxGoes h 14 0 true s →
      let n := 11 + 16 * (vexts s.cur).length
      let im : Lane := ((BitVec.ofNat n (vimmU s.cur i)).signExtend 64).setWidth 32
      LaneWord (.vsplat h d i) h s 2 d (fun _ => im) ∧ LaneWord (.vidx h d i) h s 2 d (fun k => BitVec.ofNat 32 k + im))

/-- 08_vxe_instr.md R181, R183, R196: a compare writes its lane mask where the lane mask of the bundle permits, a half-width one the even and the
odd elements' masks; votes, functions of masks and of predicates write with latency 1; `vmsk` sets the lane mask of its bundle. -/
def VxCompareWords : Prop :=
  ∀ (h : Hdr) (cc q r u : BitVec 3) (p a3 b3 : BitVec 3) (a b : BitVec 5) (s : State),
    let c := s.cur
    let m := vmask c
    let cond (f : Fmt) (x y : Nat) : Bool :=
      let x := f.val (vin c f x).1
      let y := f.val (vin c f y).1
      let n := x.isNan || y.isNan
      [FV.eqv x y, !FV.eqv x y, FV.lt x y, !n && !FV.lt y x, FV.lt y x, !n && !FV.lt x y, n, !n].getD cc.toNat false
    let el (f : Fmt) (j : Nat) : Bool := cond f (rowElem (fmtHalf f) (vreg c a) j) (rowElem (fmtHalf f) (vreg c b) j)
    let half (f : Fmt) (i : Instr) (cls : Nat) : Prop := VxGoes h cls 0 false s → q.getLsbD 0 = false → ∃ lo hi cnt,
      VxLands i h s c 4 [.q q.toNat lo m, .q (q.toNat + 1) hi m] cnt
      ∧ ∀ k < 96, m.getLsbD k = true → lo.getLsbD k = el f (2 * k) ∧ hi.getLsbD k = el f (2 * k + 1)
    let ic (x y : Lane) : Bool :=
      [x == y, x != y, decide (x.toInt < y.toInt), decide (y.toInt ≤ x.toInt), decide (x.toNat < y.toNat), decide (y.toNat ≤ x.toNat)].getD
        cc.toNat false
    let g (x y : Bool) : Bool := [x && y, x || y, x != y, x && !y, !(x && y), !(x || y), x == y, x || !y].getD cc.toNat false
    (Readable s [a, b] m →
      (VxGoes h 10 0 false s → ∃ v cnt, VxLands (.vcmpF32 h cc q a b) h s c 4 [.q q.toNat v m] cnt
          ∧ ∀ k < 96, m.getLsbD k = true → v.getLsbD k = el fp32 k)
      ∧ half fp16 (.vcmpF16 h cc q a b) 11 ∧ half bf16 (.vcmpBf16 h cc q a b) 12
      ∧ (VxGoes h 14 0 false s → cc.toNat < 6 → ∃ v, VxLands (.vicmp h cc q a b) h s c 2 [.q q.toNat v m] {}
          ∧ ∀ k < 96, v.getLsbD k = ic (rowLane (vreg c a) k) (rowLane (vreg c b) k)))
    ∧ (VxGoes h 14 2 false s →
      VxLands (.vany h p r) h s c 1 [.p p.toNat (vq c r != 0)] {}
      ∧ VxLands (.vall h p r) h s c 1 [.p p.toNat (vq c r == BitVec.allOnes 96)] {}
      ∧ (∃ v, VxLands (.qlog h cc q r u) h s c 1 [.q q.toNat v (BitVec.allOnes 96)] {}
          ∧ ∀ k < 96, v.getLsbD k = g ((vq c r).getLsbD k) ((vq c u).getLsbD k))
      ∧ VxLands (.vxPlog h cc p a3 b3) h s c 1 [.p p.toNat (g (vp c a3) (vp c b3))] {}
      ∧ VxLands (.vmsk h r) h s { c with vc := { c.vc with mask := some (vq c r) } } 1 [.nothing] {})

/-- 08_vxe_instr.md R202, R203 with 16_seed.md R272: the value of a kind for the draw of an index in stream 4 + s of VSEED and the tensor id;
`vrand` draws by the counters of VRC, which the unmasked lanes advance as its result lands; `vrand.set` sets them. -/
def VxRandomWords : Prop :=
  ∀ (h : Hdr) (d a : BitVec 5) (k : BitVec 3) (sc : BitVec 2) (s : State), VxGoes h 18 0 false s →
    let c := s.cur
    let value (idx : Lane) : Lane :=
      let g := grt c.vx.vseed (c.vx.vtid.setWidth 24) (BitVec.ofNat 8 (4 + sc.toNat)) idx
      [g, g &&& 0xFFFF, g >>> 8, if g.getLsbD 31 then 0xFFFFFFFF else 1,
        BitVec.ofInt 32 ((popcount 8 (g.toNat / 2 ^ 24) : Int) - popcount 8 (g.toNat / 2 ^ 16 % 256)),
        BitVec.ofNat 32 (rne fp32 (.fin false (g.toNat / 256) 1 (-24)))].getD k.toNat 0
    (k.toNat < 6 → sc ≠ 3 →
      (Readable s [a] (vmask c) → LaneWord (.vgrt h d a k sc) h s 4 d fun i => value (rowLane (vreg c a) i))
      ∧ ∃ row, VxLands (.vrand h d k sc) h s c 4 [.v (vphys c d) row (halfMask (vmask c)), .vrcAdd (vmask c)] {}
          ∧ ∀ i < 96, (vmask c).getLsbD i = true → rowLane row i = value (rowLane c.vx.vrc i))
    ∧ (Readable s [a] (vmask c) → VxLands (.vrandSet h a) h s c 4 [.vrcSet (vreg c a) (vmask c)] {})

end Sys2Proof.Claims

/-- Integer, compare, mask and random words of the vector engine. -/
def Obligations.VxIntegerMaskRandom : Prop :=
  Claims.VxIntegerWords ∧ Claims.VxCompareWords ∧ Claims.VxRandomWords

/-! ### Vector engine: conversions -/

namespace Sys2Proof.Claims

/-- 08_vxe_instr.md R185-R187 with 03_numbers.md R60, R63: the sixteen conversions of `vcvt`, the rounded products of `vqnt` and `vdeq`, with
latency 3; a narrowing conversion writes the half-lanes of one half of vD, each governed by the mask bit of its source lane. A widening conversion is
exact, subnormals, infinities and saturation regardless (R54); its NaN is the canonical one, and is counted; it reads the source lanes of
the half-lanes that it takes (07_vxe_model.md R174). -/
def VxConvertWords : Prop :=
  ∀ (h : Hdr) (d a b : BitVec 5) (s : State), VxGoes h 15 0 false s →
    let c := s.cur
    let x := vreg c a
    let y := vreg c b
    let m := vmask c
    let code (n : Nat) (half : Bool) (g : Nat → Rnd) : Prop := ElemWord (.vcvt h d a (BitVec.ofNat 5 n)) h s c 3 half d g
    let lane (k : Nat) : Nat := (rowLane x k).toNat
    let hlane (j : Nat) : Nat := (rowHalf x j).toNat
    let rc (half : Bool) (j : Nat) : RC := elemRc s half j
    let from_ (f : Fmt) (v : Nat) (make : FV → Rnd) : Rnd :=
      let i := vin c f v
      let r := make (f.val i.1)
      ⟨r.bits, i.2.plus r.cnt⟩
    let narrow (n base : Nat) (f : Fmt) : Prop :=
      let g (k : Nat) : Rnd := from_ fp32 (lane k) (rnd f (rc false k))
      ∃ row mask, VxLands (.vcvt h d a (BitVec.ofNat 5 n)) h s c 3 [.v (vphys c d) row mask]
          (sumCnt (((List.range 96).filter (lit s false)).map g))
        ∧ (∀ j < 192, mask.getLsbD j = (decide (base ≤ j) && decide (j < base + 96) && m.getLsbD (j - base)))
        ∧ ∀ k < 96, m.getLsbD k = true → (rowHalf row (base + k)).toNat = (g k).bits % 65536
    let widen (n base : Nat) (f : Fmt) : Prop :=
      code n false fun k => from_ f (hlane (base + k)) fun v => if v.isNan then ⟨0x7FC00000, { nan := 1 }⟩ else ⟨rne fp32 v, {}⟩
    let product (i : Instr) (g : Nat → Rnd) : Prop := Readable s (a :: b :: idxReg s) m → ElemWord i h s c 3 false d g
    let scale (k : Nat) : Nat × Cnt := vin c fp32 (rowLane y k).toNat
    let wide (base : Nat) : Prop := vphys c a ∉ c.vx.poisoned
      ∧ ∀ k < 96, m.getLsbD k = true → (smGet 0 c.vx.badLanes (vphys c a)).getLsbD ((base + k) / 2) = false
    (wide 0 → widen 8 0 fp16 ∧ widen 10 0 bf16) ∧ (wide 96 → widen 9 96 fp16 ∧ widen 11 96 bf16)
    ∧ (Readable s (a :: idxReg s) m →
      code 0 false (fun k => from_ fp32 (lane k) (rndi 32 true (rc false k)))
      ∧ code 1 false (fun k => from_ fp32 (lane k) (rndi 32 false (rc false k)))
      ∧ code 2 false (fun k => rnd fp32 (rc false k) (FV.ofInt (rowLane x k).toInt))
      ∧ code 3 false (fun k => rnd fp32 (rc false k) (FV.ofInt (lane k)))
      ∧ narrow 4 0 fp16 ∧ narrow 5 96 fp16 ∧ narrow 6 0 bf16 ∧ narrow 7 96 bf16
      ∧ code 12 true (fun j => from_ fp16 (hlane j) (rnd bf16 (rc true j)))
      ∧ code 13 true (fun j => from_ bf16 (hlane j) (rnd fp16 (rc true j)))
      ∧ code 14 true (fun j => from_ fp16 (hlane j) (rndi 16 true (rc true j)))
      ∧ code 15 true (fun j => rnd fp16 (rc true j) (FV.ofInt (rowHalf x j).toInt)))
    ∧ (let q (signed : Bool) (k : Nat) : Rnd :=
         let i := vin c fp32 (lane k)
         let r := rndi 8 signed (rc false k) (FV.mul (fp32.val i.1) (fp32.val (scale k).1))
         ⟨if signed then ((BitVec.ofNat 8 r.bits).signExtend 32).toNat else r.bits, (i.2.plus (scale k).2).plus r.cnt⟩
       product (.vqntS8 h d a b) (q true) ∧ product (.vqntU8 h d a b) (q false))
    ∧ (let q (v : Nat → Int) (k : Nat) : Rnd :=
         let r := rnd fp32 (rc false k) (FV.mul (FV.ofInt (v k)) (fp32.val (scale k).1))
         ⟨r.bits, (scale k).2.plus r.cnt⟩
       product (.vdeq h d a b) (q fun k => (rowLane x k).toInt) ∧ product (.vdeqU h d a b) (q fun k => lane k))

/-- 03_numbers.md R63: a value that lies in the integer range is rounded to an integer of it by the mode; outside it, a saturating
conversion gives the nearest end of the range and counts it; NaN gives 0 and is counted. -/
def IntegerRounding : Prop :=
  ∀ (n : Nat) (signed neg : Bool) (c : RC) (m : Nat), 2 ≤ n → n ≤ 32 →
    let lo : Int := if signed then -(2 ^ (n - 1) : Int) else 0
    let hi : Int := if signed then 2 ^ (n - 1) - 1 else 2 ^ n - 1
    let v : Int := if neg then -(m : Int) else m
    (lo ≤ v → v ≤ hi → rndi n signed c (.fin neg m 1 0) = ⟨(BitVec.ofInt n v).toNat, {}⟩)
    ∧ (hi < v → c.sat = true → rndi n signed c (.fin neg m 1 0) = ⟨(BitVec.ofInt n hi).toNat, { sat := 1 }⟩)
    ∧ (v < lo → c.sat = true → rndi n signed c (.fin neg m 1 0) = ⟨(BitVec.ofInt n lo).toNat, { sat := 1 }⟩)
    ∧ rndi n signed c .nan = ⟨0, { nan := 1 }⟩
    -- half-way values in the five deterministic modes (R59)
    ∧ (2 * (m : Int) + 1 ≤ 2 * hi → neg = false →
        (c.mode = 0 → (rndi n signed c (.fin false (2 * m + 1) 2 0)).bits = if m % 2 = 0 then m else m + 1)
        ∧ (c.mode = 1 ∨ c.mode = 2 → (rndi n signed c (.fin false (2 * m + 1) 2 0)).bits = m)
        ∧ (c.mode = 3 ∨ c.mode = 4 → (rndi n signed c (.fin false (2 * m + 1) 2 0)).bits = m + 1))

/-- The magnitude of a finite FP32 value in units of 2^-149, the least of them; 0 for the others. -/
def fpMag : FV → Nat
  | .fin _ n _ e => n * 2 ^ (e + 149).toNat
  | _ => 0

/-- 08_vxe_instr.md R189: E of a BX8 block of 24 lanes is 0 where every lane is zero, 255 where every lane is NaN, else the smallest of 1 to 254
with M * 2^(133 - E) at most 127 for the largest finite magnitude M, or 254 where none is. A block of zeros and infinities takes 1 (the
model's choice, log entry 67). -/
def Bx8Exponent (v : Nat → FV) (e : Nat) : Prop :=
  let fits (e : Nat) : Prop := ∀ k < 24, fpMag (v k) ≤ 127 * 2 ^ (16 + e)
  if ∀ k < 24, (v k).isZero = true then e = 0
  else if ∀ k < 24, (v k).isNan = true then e = 255
  else 1 ≤ e ∧ e ≤ 254 ∧ (fits e ∨ e = 254) ∧ (e = 1 ∨ ¬ fits (e - 1))

/-- 08_vxe_instr.md R189: the mantissa byte of lane k of a block with exponent e: 0x80 for NaN, ±127 or 0x80 for an infinity, else the value
times 2^(133 - e), rounded and held at ±127. A block with E = 0 counts nothing. -/
def bx8Element (s : State) (k e : Nat) (v : FV) : Rnd :=
  if e = 0 then ⟨0, {}⟩
  else match v with
    | .nan => ⟨0x80, { nan := 1 }⟩
    | .inf neg => if vsat s.cur then ⟨if neg then 0x81 else 0x7F, { sat := 1 }⟩ else ⟨0x80, { nan := 1 }⟩
    | .fin neg _ _ _ =>
      let unit := 2 ^ (16 + e)
      let q := fpMag v / unit
      let up : Bool := roundUp (elemRc s false k) neg q (fpMag v % unit) unit
      let m := min 127 (if up then q + 1 else q)
      ⟨if neg && decide (0 < m) then 256 - m else m, if 127 < (if up then q + 1 else q) then { sat := 1 } else {}⟩

/-- 08_vxe_instr.md R188, R189 with 03_numbers.md R56, R57: `vpack` shifts vD down by a chunk and puts the packed lanes of vA at its top, whatever the
mask; `vunpk` writes every lane of vD from the chunk at the bottom of vA, and faults at an invalid ternary byte unless it is lenient. -/
def VxPackWords : Prop :=
  ∀ (h : Hdr) (d a : BitVec 5) (s : State), VxGoes h 15 0 false s →
    let c := s.cur
    let x := vreg c a
    let all : BitVec 96 := BitVec.allOnes 96
    let pack (i : Instr) (n : Nat) (ok : Nat → Cnt → Prop) : Prop := Readable s [a, d] all → ∃ chunk cnt,
      chunk < 2 ^ (8 * n) ∧ ok chunk cnt
      ∧ VxLands i h s c 3
          [.v (vphys c d) (BitVec.ofNat 3072 ((vreg c d).toNat / 2 ^ (8 * n) + chunk * 2 ^ (8 * (384 - n)))) (BitVec.allOnes 192)] cnt
    let int (signed : Bool) (w : Nat) (chunk : Nat) (_ : Cnt) : Prop := ∀ k < 96,
      let v : Int := (rowLane x k).toInt
      let lo : Int := if signed then -(2 ^ (w - 1)) else 0
      let hi : Int := if signed then 2 ^ (w - 1) - 1 else 2 ^ w - 1
      chunk / 2 ^ (w * k) % 2 ^ w = (BitVec.ofInt w (if vsat c = false then v else if v < lo then lo else if hi < v then hi else v)).toNat
    let digit (k : Nat) : Nat := if rowLane x k = 0 then 0 else if (rowLane x k).toInt < 0 then 2 else 1
    let t3 (chunk : Nat) (_ : Cnt) : Prop := ∀ b < 16, chunk / 2 ^ (8 * b) % 256
      = digit (5 * b) + 3 * digit (5 * b + 1) + 9 * digit (5 * b + 2) + 27 * digit (5 * b + 3) + 81 * digit (5 * b + 4)
    let fp8 (f : Fmt) (chunk : Nat) (_ : Cnt) : Prop := ∀ k < 96,
      chunk / 2 ^ (8 * k) % 256 = (rnd f (elemRc s false k) (fp32.val (vin c fp32 (rowLane x k).toNat).1)).bits % 256
    let v (k : Nat) : FV := fp32.val (vin c fp32 (rowLane x k).toNat).1
    let bx8 (chunk : Nat) (cnt : Cnt) : Prop := ∃ E : Nat → Nat,
      (∀ b < 4, chunk / 2 ^ (200 * b) % 256 = E b ∧ Bx8Exponent (fun k => v (24 * b + k)) (E b))
      ∧ (∀ k < 96, chunk / 2 ^ (200 * (k / 24) + 8 + 8 * (k % 24)) % 256 = (bx8Element s k (E (k / 24)) (v k)).bits)
      ∧ cnt = sumCnt ((List.range 96).map fun k =>
          let r := bx8Element s k (E (k / 24)) (v k)
          ⟨r.bits, if E (k / 24) = 0 then {} else (vin c fp32 (rowLane x k).toNat).2.plus r.cnt⟩)
    let unpack (i : Instr) (v : Nat → Nat) : Prop := Readable s [a] all → ∃ row cnt,
      VxLands i h s c 3 [.v (vphys c d) row (BitVec.allOnes 192)] cnt ∧ ∀ k < 96, (rowLane row k).toNat = v k
    let byte (k : Nat) : Nat := (rowByte x k).toNat
    let field (w k : Nat) : BitVec w := x.extractLsb' (w * k) w
    let badT3 : Prop := ∃ k < 16, 243 ≤ byte k
    let t3Lane (k : Nat) : Nat := if 80 ≤ k ∨ 243 ≤ byte (k / 5) then 0 else
      let g := byte (k / 5) / 3 ^ (k % 5) % 3
      if g = 2 then 0xFFFFFFFF else g
    (pack (.vpack h d a 0) 96 (int false 8) ∧ pack (.vpackS h d a 0) 96 (int true 8)
      ∧ pack (.vpack h d a 1) 48 (int false 4) ∧ pack (.vpackS h d a 1) 48 (int true 4)
      ∧ pack (.vpack h d a 2) 192 (int false 16) ∧ pack (.vpackS h d a 2) 192 (int true 16)
      ∧ pack (.vpack h d a 3) 16 t3
      ∧ (Readable s (idxReg s) all → pack (.vpack h d a 4) 100 bx8
          ∧ pack (.vpack h d a 5) 96 (fp8 e4m3) ∧ pack (.vpack h d a 6) 96 (fp8 e5m2)))
    ∧ (unpack (.vunpk h d a 0) (fun k => (field 8 k).toNat) ∧ unpack (.vunpkS h d a 0) (fun k => ((field 8 k).signExtend 32).toNat)
      ∧ unpack (.vunpk h d a 1) (fun k => (field 4 k).toNat) ∧ unpack (.vunpkS h d a 1) (fun k => ((field 4 k).signExtend 32).toNat)
      ∧ unpack (.vunpk h d a 2) (fun k => (field 16 k).toNat) ∧ unpack (.vunpkS h d a 2) (fun k => ((field 16 k).signExtend 32).toNat)
      ∧ (¬ badT3 → unpack (.vunpk h d a 3) t3Lane) ∧ unpack (.vunpkS h d a 3) t3Lane
      ∧ (∀ o < 16, 243 ≤ byte o → (∀ k < o, byte k < 243) → Readable s [a] all →
          exec (.vunpk h d a 3) s = .next (endKernel s s.turn.1 2 (vxUnit c) 0x40 (w64 o)))
      ∧ unpack (.vunpk h d a 4) (fun k =>
          let e := byte (25 * (k / 24))
          let m := byte (25 * (k / 24) + 1 + k % 24)
          if e = 0 then 0 else if e = 255 ∨ m = 0x80 then 0x7FC00000
          else rne fp32 (.fin (decide (128 ≤ m)) (BitVec.ofNat 8 m).toInt.natAbs 1 ((e : Int) - 133)) % 2 ^ 32)
      ∧ unpack (.vunpk h d a 5) (fun k => rne fp32 (e4m3.val (vin c e4m3 (byte k)).1) % 2 ^ 32)
      ∧ unpack (.vunpk h d a 6) (fun k => rne fp32 (e5m2.val (vin c e5m2 (byte k)).1) % 2 ^ 32))

end Sys2Proof.Claims

/-- Conversions, integer rounding, packing and unpacking. -/
def Obligations.VxConversions : Prop :=
  Claims.VxConvertWords ∧ Claims.IntegerRounding ∧ Claims.VxPackWords

/-! ### Vector engine: moves, reductions, tiles, queues -/

namespace Sys2Proof.Claims

/-- 08_vxe_instr.md R190, R194, 07_vxe_model.md R163: permutes read every lane of their sources; an index of no lane gives 0. `trow` sends vA to a
row of a tile, `tcol` reads a column of one, `tclr` clears one. -/
def VxPermuteAndTileWords : Prop :=
  ∀ (h : Hdr) (d a b : BitVec 5) (k : BitVec 6) (r : BitVec 7) (n : BitVec 2) (s : State),
    let c := s.cur
    let x := vreg c a
    let y := vreg c b
    let all : BitVec 96 := BitVec.allOnes 96
    (VxGoes h 14 1 false s → Readable s [a, b] all →
      LaneWord (.vperm h d a b) h s 3 d (fun i => if (rowLane y i).toNat % 128 < 96 then rowLane x ((rowLane y i).toNat % 128) else 0)
      ∧ ElemWord (.vpermH h d a b) h s c 3 true d
          (fun j => ⟨if (rowHalf y j).toNat % 256 < 192 then (rowHalf x ((rowHalf y j).toNat % 256)).toNat else 0, {}⟩)
      ∧ LaneWord (.vbcst h d a k) h s 3 d (fun _ => rowLane x k.toNat)
      ∧ LaneWord (.vrot h d a k) h s 3 d (fun i => rowLane x ((i + k.toNat) % 96)))
    ∧ (VxGoes h 16 1 false s →
      (r.toNat < 96 → Readable s [a] (vmask c) → VxLands (.trow h r n a) h s c 2 [.tile n.toNat r.toNat x (vmask c)] {})
      ∧ (r.toNat < 96 → 2048 + n.toNat ∉ c.vx.poisoned →
          LaneWord (.tcol h d r n) h s 2 d (fun i => rowLane (smGet 0 c.vx.tiles (96 * n.toNat + i)) r.toNat))
      ∧ VxLands (.tclr h n) h s c 2 [.tclr n.toNat] {})

/-- A lane's rank among those of a top-k or extremum (08_vxe_instr.md R192, R193): its bits, flushed where they are floats, its logical index. -/
def rankLanes (s : State) (isFloat : Bool) (x : Row) : List RLane :=
  ((List.range 96).filter (lit s false)).map fun i =>
    { bits := if isFloat then (vin s.cur fp32 (rowLane x i).toNat).1 else (rowLane x i).toNat, idx := (laneIdx s.cur i).toNat, lane := i }

/-- 03_numbers.md R68: element i of level l of PAIRSUM over n elements; an element without a partner passes up unchanged. -/
def pairAt (node : Nat → Nat → Nat) (x : Nat → Nat) (n : Nat) : Nat → Nat → Nat
  | 0, i => x i
  | l + 1, i =>
    if 2 * i + 1 < (n + 2 ^ l - 1) / 2 ^ l then node (pairAt node x n l (2 * i)) (pairAt node x n l (2 * i + 1))
    else pairAt node x n l (2 * i)

/-- 03_numbers.md R68 with 08_vxe_instr.md R191: a node of a float reduction of a core. A sum is rounded to nearest even without saturation, and a
subnormal one flushed under VNM.FTZO; a larger or smaller value is one of the two as it stands, and NaN where either is. -/
def floatNode (s : State) (f : Fmt) (op : Nat) (a b : Nat) : Rnd :=
  let x := f.val a
  let y := f.val b
  let pick (less first : Bool) : Nat := if x.isNan || y.isNan then f.nanBits else if less || first then a else b
  match op with
  | 0 => let r := rnd f { ftzo := vftzo s.cur } (FV.add false x y); ⟨r.bits, { ftz := r.cnt.ftz }⟩
  | 1 => ⟨pick (FV.lt y x) (!FV.lt x y && !x.isNeg), {}⟩
  | _ => ⟨pick (FV.lt x y) (!FV.lt y x && x.isNeg), {}⟩

/-- 03_numbers.md R68 with 08_vxe_instr.md R191: a float reduction of a row: what each element enters with (a masked one as the identity), the
tree over 96 lanes or 192 half-lanes, and the events: inputs flushed, sums flushed, and a NaN result. -/
def FloatReduction (s : State) (f : Fmt) (op : Nat) (x : Row) (bits : Nat) (cnt : Cnt) : Prop :=
  let n := if fmtHalf f then 192 else 96
  let input (j : Nat) : Nat × Cnt := vin s.cur f (rowElem (fmtHalf f) x j)
  let entry (j : Nat) : Nat :=
    if lit s (fmtHalf f) j then (input j).1
    else if op = 0 then f.signW else if op = 1 then f.signW + f.infBits else f.infBits
  let node (a b : Nat) : Rnd := floatNode s f op a b
  let at_ (l i : Nat) : Nat := pairAt (fun a b => (node a b).bits) entry n l i
  let top := at_ 8 0
  let nan : Bool := (f.val top).isNan
  let flushes : List Rnd := ((List.range n).filter (lit s (fmtHalf f))).map fun j => ⟨0, (input j).2⟩
  let nodes : List Rnd := (List.range 8).flatMap fun l =>
    (List.range ((n + 2 ^ l - 1) / 2 ^ l / 2)).map fun i => node (at_ l (2 * i)) (at_ l (2 * i + 1))
  bits = (if nan then f.nanBits else top) ∧ cnt = ((sumCnt flushes).plus (sumCnt nodes)).plus (if nan then { nan := 1 } else {})

/-- 08_vxe_instr.md R191-R193 with 03_numbers.md R68: the reductions of the unmasked lanes, with latency 8: sums and extrema, to lane 0 (half-lane 0
for the half-width sums); an extremum with its logical index, the lowest on a tie, to lanes 0 and 1, or the canonical NaN with the lowest
index of a NaN lane; the k + 1 first values to lanes 0 to k and
their indices to lanes 48 to 48 + k. -/
def VxReductionWords : Prop :=
  ∀ (h : Hdr) (d a k : BitVec 5) (s : State), VxGoes h 17 1 false s →
    let c := s.cur
    let x := vreg c a
    let on (i : Nat) : Prop := i < 96 ∧ (vmask c).getLsbD i = true
    let to_ (i : Instr) (lanes : Nat → Bool) (ok : Row → Cnt → Prop) : Prop := ∃ row mask cnt,
      VxLands i h s c 8 [.v (vphys c d) row mask] cnt ∧ (∀ j < 192, mask.getLsbD j = lanes j) ∧ ok row cnt
    let float (n : Nat) (f : Fmt) (op : Nat) : Prop := to_ (.vred h d a (BitVec.ofNat 3 n)) (fun j => decide (if fmtHalf f then j < 1 else j < 2))
      fun row cnt => ∃ bits, FloatReduction s f op x bits cnt ∧ rowElem (fmtHalf f) row 0 = bits % 2 ^ (if fmtHalf f then 16 else 32)
    let int (n : Nat) (ok : Lane → Prop) : Prop :=
      to_ (.vred h d a (BitVec.ofNat 3 n)) (fun j => decide (j < 2)) fun row cnt => ok (rowLane row 0) ∧ cnt = {}
    let extremum (n : Nat) (empty : Lane) (better : Lane → Lane → Prop) : Prop :=
      to_ (.vredx h d a (BitVec.ofNat 2 n)) (fun j => decide (j < 4)) fun row cnt => cnt = {}
        ∧ ((∀ i, ¬ on i) → rowLane row 0 = empty ∧ rowLane row 1 = 0xFFFFFFFF)
        ∧ ((∃ i, on i) → ∃ i, on i ∧ rowLane row 0 = rowLane x i ∧ rowLane row 1 = laneIdx c i
            ∧ ∀ j, on j → ¬ better (rowLane x j) (rowLane x i)
              ∧ (¬ better (rowLane x i) (rowLane x j) → (laneIdx c i).toNat ≤ (laneIdx c j).toNat))
    let v (i : Nat) : Nat := (vin c fp32 (rowLane x i).toNat).1
    let nan (i : Nat) : Prop := on i ∧ (fp32.val (v i)).isNan = true
    let flushed : Cnt := sumCnt (((List.range 96).filter (lit s false)).map fun i => ⟨0, (vin c fp32 (rowLane x i).toNat).2⟩)
    let floatExtremum (n : Nat) (empty : Lane) (better : FV → FV → Bool) : Prop :=
      let gt (i j : Nat) : Bool := better (fp32.val (v i)) (fp32.val (v j))
      let l (i : Nat) : Nat := (laneIdx c i).toNat
      to_ (.vredx h d a (BitVec.ofNat 2 n)) (fun j => decide (j < 4)) fun row cnt =>
        ((∀ i, ¬ on i) → rowLane row 0 = empty ∧ rowLane row 1 = 0xFFFFFFFF ∧ cnt = {})
        ∧ ((∃ i, nan i) → rowLane row 0 = 0x7FC00000 ∧ cnt = flushed.plus { nan := 1 }
            ∧ ∃ i, nan i ∧ rowLane row 1 = laneIdx c i ∧ ∀ j, nan j → l i ≤ l j)
        ∧ ((∃ i, on i) → (∀ i, ¬ nan i) → cnt = flushed
            ∧ ∃ i, on i ∧ (rowLane row 0).toNat = v i ∧ rowLane row 1 = laneIdx c i
                ∧ ∀ j, on j → gt j i = false ∧ (gt i j = false → l i < l j ∨ (l i = l j ∧ i ≤ j)))
    let top (smallest : Bool) (i : Instr) : Prop := to_ i (fun j => decide (j / 2 ≤ k.toNat ∨ (48 ≤ j / 2 ∧ j / 2 ≤ 48 + k.toNat)))
      fun row _ => ∀ n ≤ k.toNat,
        match (rank (floatLess smallest) (rankLanes s true x))[n]? with
        | some e => (rowLane row n).toNat = (if (fp32.val e.bits).isNan then 0x7FC00000 else e.bits % 2 ^ 32)
            ∧ (rowLane row (48 + n)).toNat = e.idx
        | none => rowLane row n = (if smallest then 0x7F800000 else 0xFF800000) ∧ rowLane row (48 + n) = 0xFFFFFFFF
    (Readable s [a] (vmask c) →
      float 0 fp32 0 ∧ float 1 fp32 1 ∧ float 2 fp32 2 ∧ float 3 fp16 0 ∧ float 4 bf16 0
      ∧ int 5 (fun r => r = ((List.range 96).filter (lit s false)).foldl (fun t i => t + rowLane x i) 0)
      ∧ int 6 (fun r => (∀ i, on i → (rowLane x i).toInt ≤ r.toInt) ∧ (r = 0x80000000 ∨ ∃ i, on i ∧ r = rowLane x i))
      ∧ int 7 (fun r => (∀ i, on i → r.toInt ≤ (rowLane x i).toInt) ∧ (r = 0x7FFFFFFF ∨ ∃ i, on i ∧ r = rowLane x i)))
    ∧ (Readable s [a, 31] (vmask c) →
      floatExtremum 0 0xFF800000 (fun p q => FV.lt q p) ∧ floatExtremum 1 0x7F800000 FV.lt
      ∧ extremum 2 0x80000000 (fun p q => q.toInt < p.toInt) ∧ extremum 3 0x7FFFFFFF (fun p q => p.toInt < q.toInt)
      ∧ top false (.vtopk h d a k) ∧ top true (.vtopkMin h d a k))

/-- 08_vxe_instr.md R195, R204, R205 with 07_vxe_model.md R173, R174: the words that pop a queue take its head and send it to vD, a row whose tag is
not the expected one faults, the pushes send a whole row or a word; `vshd` notes the check of the slot-0 word before it; `vstat` reads the counters
of the tensor id, and `vstat.clr` clears them. -/
def VxQueueWords : Prop :=
  ∀ (h : Hdr) (d a : BitVec 5) (sc : BitVec 4) (p : BitVec 3) (s : State),
    let c := s.cur
    let m := vmask c
    let loads (i : Instr) (q : Queues) (row : Row) (mask : BitVec 192) : Prop :=
      VxLands i h s { c with q := q } 2 [.v (vphys c d) row mask] {}
    let fault (cause : Nat) (f : Word) : State := endKernel s s.turn.1 2 (vxUnit c) cause f
    (∀ r rest, c.q.lqv = r :: rest →
      (VxGoes h 14 1 false s → r.decoded = false → r.poison = false →
        (c.sys.raw = true ∨ r.tag = sc → loads (.vpop h d sc) { c.q with lqv := rest } r.data (halfMask m))
        ∧ (c.sys.raw = false → r.tag ≠ sc → exec (.vpop h d sc) s = .next (fault 0x42 (w64 (16 * sc.toNat + r.tag.toNat)))))
      ∧ (VxGoes h 14 1 false s → r.decoded = true → exec (.vpop h d sc) s = .next (fault 0x02 0))
      ∧ (VxGoes h 19 1 false s → r.decoded = true → r.err = none → c.sys.raw = true ∨ r.tag = sc →
          loads (.vpopd h d sc) { c.q with lqv := rest } r.data (halfMask m)))
    ∧ (VxGoes h 14 1 false s →
      (∀ e rest, c.q.dq = e :: rest → ∃ lo hi row,
        loads (.vdq h d) { c.q with dq := rest } e.2 lo ∧ loads (.vdqHi h d) { c.q with dq := rest } row hi
        ∧ (∀ i < 48, rowLane row (48 + i) = rowLane e.2 i)
        ∧ ∀ j < 192, lo.getLsbD j = (m.getLsbD (j / 2) && decide (j < 96)) ∧ hi.getLsbD j = (m.getLsbD (j / 2) && decide (96 ≤ j)))
      ∧ (Readable s [a] (BitVec.allOnes 96) →
          VxLands (.vpush h a) h s c 1 [.sq (vreg c a)] {} ∧ VxLands (.vaq h a) h s c 1 [.aq (vreg c a)] {})
      ∧ (Readable s [a] 3 → VxLands (.veq h a) h s c 1 [.eq ((vreg c a).setWidth 64)] {})
      ∧ VxLands (.veqP h p) h s c 1 [.eq (if vp c p then 1 else 0)] {}
      ∧ (∀ e, c.vx.prod = some e → e.cycle + 1 = c.cycle →
          VxLands (.vshd h) h s { c with vx := { c.vx with checks := c.vx.checks ++ [{ prod := e, vpc := BitVec.ofNat 12 (vxUnit c) }] } }
            (e.due + 1 - c.cycle) [.nothing] {})
      ∧ (c.vx.prod = none → VxDone (.vshd h) h s c)
      ∧ (c.sys.det = false →
          let id := c.vx.vtid.toNat % 2 ^ 24
          let own := c.stats.slots.any fun e => e.1 == id
          let n := c.stats.get id
          let v (i : Nat) : Rnd := ⟨[n.sat, n.ftz, n.nan, n.len, if own then 1 else 0].getD i 0, {}⟩
          ElemWord (.vstat h d) h s c 2 false d v
          ∧ ∃ st, ElemWord (.vstatClr h d) h s { c with stats := { c.stats with slots := st } } 2 false d v
              ∧ ∀ e, e ∈ st ↔ (e.1 ≠ id ∧ e ∈ c.stats.slots) ∨ (e = (id, {}) ∧ own = true))
      ∧ (c.sys.det = true → exec (.vstat h d) s = .next (fault 0xE0 0) ∧ exec (.vstatClr h d) s = .next (fault 0xE0 0)))

end Sys2Proof.Claims

/-- Permutes, tiles, reductions, queues and the shadow check. -/
def Obligations.VxMovement : Prop :=
  Claims.VxPermuteAndTileWords ∧ Claims.VxReductionWords ∧ Claims.VxQueueWords

/-! ### Vector engine: control words and events -/

/-- 08_vxe_instr.md R197-R201, R206, 02_encoding.md R36: `vbprep` sends a target to vb[n]; a taken `vbxfer` transfers after d bundles, no earlier
than three cycles later; `vlset` sets a loop, and with COUNT 0 has its bundle go past it; `vret` stands until a call is taken; `vwin` sends a
configuration register its value; `vtrap` ends the kernel with 0x09; `vnop` does nothing; a `vext` keeps its bits for the same slot of the next
bundle. -/
def Obligations.VxControlWords : Prop :=
  ∀ (h : Hdr) (n : BitVec 1) (d ln : BitVec 2) (r : BitVec 5) (i : BitVec 11) (e : BitVec 16) (s : State),
    let c := s.cur
    let x := c.vx
    let at_ : Nat := x.vpc.toNat
    let v := vimmU c i
    let jumped (y : Vx) : Core := { c with vx := y, vc := { c.vc with jumped := true } }
    let set (count : Nat) : Vx :=
      { x with loops := smSet ⟨0, 0, 0⟩ x.loops ln.toNat ⟨BitVec.ofNat 32 count, BitVec.ofNat 14 (at_ + 1), BitVec.ofNat 14 (at_ + v % 64)⟩ }
    let loop (cc : BitVec 1) (count : Nat) : Prop :=
      (count ≠ 0 → VxDone (.vlset h cc ln i) h s { c with vx := set count })
      ∧ (count = 0 → VxDone (.vlset h cc ln i) h s { c with vx := set 0, vc := { c.vc with skip := some (at_ + v % 64 + 1) } })
    (VxGoes h 14 2 true s →
      VxLands (.vbprep h n i) h s c 1
        [.vb n.toNat (x.vpc.zeroExtend 64 + (BitVec.ofNat (11 + 16 * (vexts c).length) v).signExtend 64)] {}
      ∧ (v % 64 ≠ 0 → x.br = none → at_ + v % 64 ≤ 4095 → nestBad x.loops ln.toNat (at_ + 1) (at_ + v % 64) = false →
          (v / 64 ≤ 0xFFFFFFFF → loop 0 (v / 64)) ∧ (v / 64 = 0 → Readable s [0] 1 → loop 1 (rowLane (vreg c 0) 0).toNat))
      ∧ ((r.toNat, v) ∈ [(0, v % 64), (2, min v 5), (3, v % 2), (4, v % 4), (5, v % 2 ^ 24), (6, v % 2 ^ 32), (7, v % 2 ^ 32), (8, v % 64)]
            ∨ (r = 1 ∧ v < 2 ^ 15 ∧ v / 64 % 2 = 0) →
          VxLands (.vwin h r i) h s c 1 [.cfg r.toNat (w64 v)] {})
      ∧ exec (.vtrap h i) s = .next (endKernel s s.turn.1 2 (vxUnit c) 9 (w64 v)))
    ∧ (VxGoes h 14 2 false s → x.br = none →
      (let y := { x with hold := c.cycle + 3, brFrom := some x.vpc }
       VxDone (.vbxfer h n d) h s
         (jumped (if d = 0 then y.goto (smGet 0 x.vb n.toNat)
                  else ({ y with br := some ⟨d.toNat, smGet 0 x.vb n.toNat⟩ } : Vx).goto (x.vpc.zeroExtend 64 + 1))))
      ∧ VxDone (.vret h) h s { c with vc := { c.vc with atRet := true, jumped := true } })
    ∧ (VxGoes h 14 3 false s → VxDone (.vnop h) h s c)
    ∧ (VxGoes h 14 2 false s → x.br ≠ none →
        exec (.vbxfer h n d) s = .next (endKernel s s.turn.1 2 (vxUnit c) 0x0A 0)
        ∧ exec (.vret h) s = .next (endKernel s s.turn.1 2 (vxUnit c) 0x0A 0))
    ∧ (let old := smGet [] x.ext c.vc.slot
       old.length < 2 → x.extBad.contains c.vc.slot = false → c.sys.oum.getLsbD 14 = true → c.sys.ccm.getLsbD 14 = true →
       loopsAt x.loops at_ = [] ∨ (∃ b, x.br = some b ∧ 1 < b.left) →
       ∃ t, exec (.vext e) s = .next t ∧ OnlyCur s t ∧ smGet [] t.cur.vx.ext c.vc.slot = old ++ [e]
         ∧ (old = [] → smGet 0 t.cur.vx.extAt c.vc.slot = at_) ∧ (x.br = none → t.cur.vx.extBad = x.extBad)
         ∧ { t.cur with vx := x } = c ∧ t.cur.vx.vpc = x.vpc ∧ t.cur.vx.phys = x.phys)

namespace Sys2Proof.Claims

/-- 07_vxe_model.md R159-R165, R173, 08_vxe_instr.md R195, R201, R203: a result that is due lands: its destination takes its value in the half-lanes
or lanes of its mask and in no other, the queues take a row or word with the cycle in which it came, an EQ entry sets EV, and the events are
counted for its tensor id. -/
def VxResultsLand : Prop :=
  ∀ (s : State) (k : Nat) (f : VxFly) (d : VxDst), (s.core k).run = .running → (s.core k).frozen = false →
    (s.core k).vx.fly = [f] → f.dsts = [d] → f.due ≤ (s.core k).cycle →
    let c := s.core k
    let x := c.vx
    ∃ t, exec (.vxResultLanding k) s = .next t ∧ OnlyCore k s t ∧ (t.core k).vx.fly = []
      ∧ (t.core k).stats = c.stats.add f.tid f.cnt
      ∧ (t.core k).pushReq = c.pushReq ++ (f.pushes.filter fun e => e.2 != 0).map (fun e => (Stream.vx, e.1, e.2))
      ∧ (let c' := t.core k
         let y := c'.vx
         let half (old new val : Row) (m : Nat → Bool) : Prop := ∀ j < 192, rowHalf new j = if m j then rowHalf val j else rowHalf old j
         let regs : Prop := ∀ p, smGet 0 y.phys p = smGet 0 x.phys p
         match d with
         | .v p val m => half (smGet 0 x.phys p) (smGet 0 y.phys p) val m.getLsbD ∧ (∀ q, q ≠ p → smGet 0 y.phys q = smGet 0 x.phys q)
             ∧ y.tiles = x.tiles ∧ y.q = x.q ∧ y.p = x.p ∧ c'.q = c.q
         | .q n val m => regs ∧ y.p = x.p ∧ (n ≠ 0 →
               (∀ i < 96, (smGet 0 y.q n).getLsbD i = if m.getLsbD i then val.getLsbD i else (smGet 0 x.q n).getLsbD i)
               ∧ ∀ j, j ≠ n → smGet 0 y.q j = smGet 0 x.q j) ∧ (n = 0 → y.q = x.q)
         | .p n val => regs ∧ y.q = x.q ∧ (n ≠ 0 → smGet false y.p n = val ∧ ∀ j, j ≠ n → smGet false y.p j = smGet false x.p j)
             ∧ (n = 0 → y.p = x.p)
         | .vb n val => regs ∧ smGet 0 y.vb n = val ∧ ∀ j, j ≠ n → smGet 0 y.vb j = smGet 0 x.vb j
         | .tile t r val m => regs ∧ half (smGet 0 x.tiles (96 * t + r)) (smGet 0 y.tiles (96 * t + r)) val (fun j => m.getLsbD (j / 2))
             ∧ ∀ j, j ≠ 96 * t + r → smGet 0 y.tiles j = smGet 0 x.tiles j
         | .tclr t => regs ∧ ∀ j, smGet 0 y.tiles j = if j / 96 = t then 0 else smGet 0 x.tiles j
         | .cfg n v => regs ∧
             (n = 0 → y.vwb = (x.vwb &&& ~~~0x3F) ||| (v.setWidth 32 &&& 0x3F)) ∧ (n = 1 → y.vwb = v.setWidth 32)
             ∧ (n = 2 → y.vrm = v.setWidth 32) ∧ (n = 3 → y.vsm = v.setWidth 32) ∧ (n = 4 → y.vnm = v.setWidth 32)
             ∧ (n = 5 → y.vtid = v.setWidth 32) ∧ (n = 8 → y.zcfg = v.setWidth 32)
             ∧ (n = 6 → y.vseed.setWidth 32 = v.setWidth 32 ∧ y.vseed.extractLsb' 32 32 = x.vseed.extractLsb' 32 32)
             ∧ (n = 7 → y.vseed.extractLsb' 32 32 = v.setWidth 32 ∧ y.vseed.setWidth 32 = x.vseed.setWidth 32)
         | .vrcAdd m => regs ∧ ∀ i < 96, rowLane y.vrc i = if m.getLsbD i then rowLane x.vrc i + 1 else rowLane x.vrc i
         | .vrcSet val m => regs ∧ half x.vrc y.vrc val fun j => m.getLsbD (j / 2)
         | .sq v => regs ∧ c'.q = { c.q with sq := c.q.sq ++ [(c.cycle, v)] }
         | .aq v => regs ∧ c'.q = { c.q with aq := c.q.aq ++ [(c.cycle, v)] }
         | .eq v => regs ∧ c'.q = { c.q with eq := c.q.eq ++ [(c.cycle, v)] } ∧ c'.ev = true
         | .nothing => c' = { c with vx := { x with fly := [] }, stats := c'.stats, pushReq := c'.pushReq })

/-- 08_vxe_instr.md R199: at a `vret` whose earlier results have landed and that holds no push, the active call retires and the next one is taken:
VPC is its target, and its argument is in lanes 0 and 1 of v0, or in VSEED; without a call the stream waits. -/
def VxCallTaken : Prop :=
  ∀ (s : State) (k : Nat), (s.core k).run = .running → (s.core k).frozen = false → (s.core k).vc.atRet = true →
    let c := s.core k
    let x := c.vx
    (∀ f ∈ x.fly, c.vc.order ≤ f.order) → (∀ e ∈ c.pushWait, e.1 ≠ Stream.vx) → landedFit c = true → x.busy ≤ c.cycle →
    (∀ call rest, x.calls = call :: rest → x.active = none → (∀ m, c.cmd? call.seq = some m → m.at_ ≤ c.cycle) →
      ∃ t, exec (.vxeCallTake k) s = .next t ∧ OnlyCore k s t
        ∧ (t.core k).vc.atRet = false ∧ (t.core k).vx.calls = rest ∧ (t.core k).vx.active = some call.seq
        ∧ (t.core k).vx.vpc = BitVec.ofNat 12 call.target ∧ (t.core k).cmds = c.cmds
        ∧ (call.seed = true → (t.core k).vx.vseed = call.arg ∧ (t.core k).vx.phys = x.phys)
        ∧ (call.seed = false → (t.core k).vx.vseed = x.vseed
            ∧ (∀ p, p ≠ vphys c 0 → smGet 0 (t.core k).vx.phys p = smGet 0 x.phys p)
            ∧ ∀ i < 96, rowLane (smGet 0 (t.core k).vx.phys (vphys c 0)) i =
                if i = 0 then call.arg.setWidth 32 else if i = 1 then call.arg.extractLsb' 32 32 else rowLane (smGet 0 x.phys (vphys c 0)) i))
    ∧ (∀ m, x.calls = [] → x.active = some m.seq → c.cmd? m.seq = some m → m.eng = .vx → wbits m.ccw 13 1 = 0 →
        ∃ t, exec (.vxeCallTake k) s = .next t ∧ OnlyCore k s t ∧ (t.core k).vc.atRet = true ∧ (t.core k).vx.active = none
          ∧ (∀ e, e ∈ (t.core k).cmds ↔ e ∈ c.cmds ∧ e.seq ≠ m.seq) ∧ (t.core k).ev = true)

/-- 07_vxe_model.md R174: a due check that finds no lane wrong is made and forgotten; one that finds lanes wrong ends the kernel with 0xB3 and the
first of them, and makes the class of the word checked suspect (21_scheduler.md R341). R166-R171, 05_ap_model.md R108: the decoder takes a stored
block whose checksum is right; its 384 bytes, with the tag of its first row, are ready 13 cycles later, and a row that is ready goes to LQV, where
the entries that issued `ldq` words hold leave room (log entry 60). -/
def VxCheckAndDecode : Prop :=
  ∀ (s : State) (k : Nat), (s.core k).run = .running → (s.core k).frozen = false →
    let c := s.core k
    (∀ e rest bad, c.vx.checks = e :: rest → e.prod.due + 1 ≤ c.cycle →
      (bad &&& lanesOf e.prod.mask = 0 → ∃ t, exec (.shadowCheck k bad) s = .next t ∧ OnlyCore k s t ∧ (t.core k).vx.checks = rest
        ∧ (t.core k).vx.phys = c.vx.phys ∧ (t.core k).run = .running)
      ∧ (∀ l < 96, (bad &&& lanesOf e.prod.mask).getLsbD l = true → (∀ j < l, (bad &&& lanesOf e.prod.mask).getLsbD j = false) →
          ∃ u, exec (.shadowCheck k bad) s = .next (suspect (endKernel u k 2 e.vpc.toNat 0xB3 (w64 l)) k [e.prod.cls]) ∧ OnlyCore k s u))
    ∧ (∀ po tag payload b0 b1, c.q.zm = [⟨po, 2, [b0, b1], 0, 0, []⟩] → c.q.lanes = [] → b0.poison = false → b1.poison = false → b0.tag = tag →
        payload.length = 384 →
        rowBytes b0.data ++ rowBytes b1.data = leBytes 4 384 ++ leBytes 4 (crc32c payload).toNat ++ payload ++ leBytes 8 0xFF0000
          ++ (rowBytes b1.data).drop 16 →
        ∃ t, exec (.zm1BlockDecode k) s = .next t ∧ OnlyCore k s t
          ∧ (t.core k).q.zm = [⟨po, 2, [b0, b1], 768, 1,
              [{ k := 0, ready := c.cycle + 13, row := { data := rowOfList payload, tag := tag, decoded := true, po := some po } }]⟩]
          ∧ (t.core k).q.lqv = c.q.lqv)
    ∧ (∀ z b, c.q.zm = [z] → z.out = [b] → b.k < z.k → z.rows.length = z.total → 384 * z.total ≤ z.pos → b.ready ≤ c.cycle →
        c.q.lqv.length + reserved c false false < 64 →
        ∃ t, exec (.zm1BlockDecode k) s = .next t ∧ OnlyCore k s t ∧ (t.core k).q.zm = [] ∧ (t.core k).q.lqv = c.q.lqv ++ [b.row])

end Sys2Proof.Claims

/-- Vector results land; calls are taken; checks and block decoding. -/
def Obligations.VxResults : Prop :=
  Claims.VxResultsLand ∧ Claims.VxCallTaken ∧ Claims.VxCheckAndDecode

/-! ### Matrix engine -/

namespace Sys2Proof.Claims

/-- The sum over the six levels of the nest of index times stride (10_mxe_model.md R213). -/
def overLevels (x : Mx) (stride : Word → Int) : Int :=
  ((List.range 6).map fun l => (x.idx.getD l 0 : Int) * stride (smGet 0 x.nest l)).sum

/-- A usable format entry (11_mxe_instr.md R226). -/
def usable (e : Word) : Prop :=
  wbits e 15 1 = 1 ∧ wbits e 4 2 < 2 ∧ (if wbits e 0 2 < 2 then wbits e 8 2 < 3 else wbits e 8 2 = 0) ∧ (wbits e 14 1 = 1 → wbits e 0 2 = 2)

/-- 11_mxe_instr.md R230-R233, R228 with 10_mxe_model.md R213-R217: the words that finish at issue: `mx.nop`; `mx.mark`, which opens a replay
window; `mx.fsel`; `mx.ret`, which goes to the next point of the nest (the innermost level that has one more; those inside it start again) or ends
the routine. -/
def MxControlWords : Prop :=
  ∀ (h : Hdr) (l : BitVec 3) (b m : BitVec 4) (s : State), MxGoes h 9 s → (∀ j ∈ s.cur.mx.jobs, j.kind ≠ .swap) →
    let x := mxNoted s.cur.mx
    let next (x : Mx) : Mx := { x with mpc := s.cur.mx.mpc + 1 }
    let count (k : Nat) : Nat := max 1 (wbits (smGet 0 x.nest k) 48 16)
    let i (k : Nat) : Nat := x.idx.getD k 0
    MxDone (.mxNop h) h s (next x)
    ∧ MxDone (.mxMark h) h s (next { x with window := { opened := true, busy := x.window.busy } })
    ∧ (l.toNat < 6 → MxDone (.mxFsel h l b m) h s (next { x with level := l.toNat, base := b.toNat, mask := m.toNat }))
    ∧ ((∀ k < 6, count k ≤ i k + 1) →
        MxDone (.mxRet h) h s (next { x with ending := x.ending ++ x.routine.toList, routine := none }))
    ∧ (∀ k < 6, i k + 1 < count k → (∀ n, k < n → n < 6 → count n ≤ i n + 1) →
        ∃ idx, MxDone (.mxRet h) h s { x with idx := idx, mpc := x.start }
          ∧ ∀ n < 6, idx.getD n 0 = if n < k then i n else if n = k then i n + 1 else 0)

/-- 11_mxe_instr.md R231-R233 with 10_mxe_model.md R210-R219: the words that go on after issue wait for the units they share and start as jobs with
the effective tile, rows, format entry and bank of the point; `mx.ldw` takes the shadow bank, `mx.run` reads the active one. -/
def MxJobWords : Prop :=
  ∀ (h : Hdr) (f : BitVec 5) (n : BitVec 8) (k : BitVec 3) (e r b : BitVec 1) (s : State),
    let x := mxNoted s.cur.mx
    let tile := ((k.toNat + overLevels x fun w => (wbits w 0 3 : Int)) % 8).toNat
    let rb : Int := overLevels x fun w => ((w.extractLsb' 6 10 : BitVec 10)).toInt
    let k0 : Int := (wbits (smGet 0 x.nest 6) 32 32 : Int) + 384 * overLevels x fun w => ((w.extractLsb' 32 16 : BitVec 16)).toInt
    let n0 : Int := (wbits (smGet 0 x.nest 6) 0 32 : Int) + 48 * overLevels x fun w => ((w.extractLsb' 16 16 : BitVec 16)).toInt
    let none_ (p : Job → Prop) : Prop := ∀ j ∈ x.jobs, ¬ p j
    let drains (j : Job) : Prop := j.kind ∈ [JobKind.zero, .drain, .chk, .bias]
    let runsOn (j : Job) : Prop := j.kind = .run ∧ j.tile = tile
    let entry : Word := if f.getLsbD 4 then smGet 0 x.fmt ((x.base + (x.idx.getD x.level 0 &&& x.mask)) % 16) else smGet 0 x.fmt f.toNat
    let w := wbits entry 0 2
    let g := if w < 2 then 32 * 2 ^ wbits entry 8 2 else if w = 2 then 384 else 24
    let act := if x.act then 1 else 0
    let bank : Bank := smGet {} x.banks act
    let rows : Prop := 0 < n.toNat ∧ n.toNat ≤ 192 ∧ 0 ≤ rb ∧ rb + n.toNat ≤ 192
    let tid := wbits x.pert.ctl 0 24
    (MxGoes h 9 s →
      (none_ (fun j => j.kind ∈ [JobKind.ldw, .run, .swap]) →
        MxJob (.mxSwap h) h s { x with window := { x.window with swap := true } } { kind := .swap })
      ∧ (none_ (fun j => drains j ∨ runsOn j) →
          MxJob (.mxZero h k) h s { x with window := { x.window with zeroed := tile :: x.window.zeroed } } { kind := .zero, tile := tile }
          ∧ ((∀ i, 192 * tile ≤ i → i < 192 * tile + 192 → ∀ v, (i, v) ∈ x.residue → v = 0) →
              MxJob (.mxChk h k) h s x { kind := .chk, tile := tile })
          ∧ (rows → MxJob (.mxDrain h e r b n k) h s x
              { kind := .drain, tile := tile, rb := rb.toNat, n := n.toNat, bias := b == 1, relu := r == 1, clear := e == 1 }))
      ∧ (none_ drains → MxJob (.mxBias h) h s x { kind := .bias }))
    ∧ (f.toNat ≤ 16 → usable entry →
      (MxGoes h (if tid ≠ 0 then 8 else 4 + w) s → ¬ (w = 2 ∧ tid ≠ 0) → k0 % (if w < 2 then g else if w = 2 then 40 else 24) = 0 →
        0 ≤ k0 → 0 ≤ n0 → none_ (fun j => j.kind = .ldw ∨ j.kind = .swap ∨ (j.kind = .run ∧ j.bank = 1 - act)) →
        MxJob (.mxLdw h f) h s { x with banks := smPut x.banks (1 - act) { (smGet {} x.banks (1 - act) : Bank) with valid := false } }
          { kind := .ldw, entry := entry, k0 := k0.toNat, n0 := n0.toNat, bank := 1 - act, pert := x.pert })
      ∧ (MxGoes h (4 + w) s → (wbits entry 4 2 = 1 ↔ w = 3) → bank.valid = true → bank.fmt = w → bank.g = g → bank.poisoned = false →
        rows → smGet 0 x.klast tile ≤ bank.k0 →
        none_ (fun j => j.kind = .run ∨ j.kind = .swap ∨ ((j.kind = .zero ∨ j.kind = .drain) ∧ j.tile = tile)) →
        MxJob (.mxRun h f n k) h s x { kind := .run, tile := tile, rb := rb.toNat, n := n.toNat, entry := entry, bank := act }))

end Sys2Proof.Claims

/-- Words of the matrix engine: those that finish at issue and those that become jobs. -/
def Obligations.MxWords : Prop :=
  Claims.MxControlWords ∧ Claims.MxJobWords

namespace Sys2Proof.Claims

/-- A core whose MXE may make progress: its kernel runs, it is not frozen and no replay holds it (log entry 70). -/
def mxFree (c : Core) : Prop := c.run = .running ∧ c.frozen = false ∧ c.mx.window.busy ≤ c.cycle

/-- 10_mxe_model.md R210-R212, R217, R67: an unfinished word makes the progress of a cycle. A load pops one good row once its cycle has come, no
faster than the element rate asks (the cycles of the last rows are the model's reading, log entry 11), and waits for it while LQM is empty; with all
its rows it fills its bank; a run pops the activation row that is due and adds its products, group by group in FP32, to its row of accumulators, and
as it finishes, not before, notes KLAST (the model's reading, log entry 23), modulo 2^32 (log entry 68); `mx.swap`, `mx.zero`, `mx.chk` and
`mx.bias` have their effects after 1, 4, 2 cycles, and with their row. -/
def MxWordsProgress : Prop :=
  ∀ (s : State) (k : Nat) (j : Job), mxFree (s.core k) → (s.core k).mx.jobs = [j] → j.next ≤ (s.core k).cycle →
    let c := s.core k
    let x := c.mx
    let ends (j : Job) (c' : Core) : Prop :=
      exec (.mxWordFinish k) s = .next (s.setCore k (askPushes { c' with mx := { c'.mx with jobs := [] } } .mx j.pushes))
    let on (c' : Core) (j' : Job) : Prop :=
      exec (.mxWordFinish k) s = .next (s.setCore k { c' with mx := { c'.mx with jobs := [{ j' with next := c.cycle + 1 }] } })
    let effect (c' : Core) (old : Mx) (m : Mx) : Prop := c' = { c with mx := m } ∧ { m with acc := old.acc, residue := old.residue, klast := old.klast } = old
    (j.kind = .swap → (1 ≤ j.el → ends j { c with mx := { x with act := !x.act } }) ∧ (j.el < 1 → on c { j with el := j.el + 1 }))
    ∧ (j.kind = .chk → (2 ≤ j.el → ends j c) ∧ (j.el < 2 → on c { j with el := j.el + 1 }))
    ∧ (j.kind = .zero → (4 ≤ j.el → ∃ m, ends j { c with mx := m } ∧ effect { c with mx := m } x m
        ∧ (∀ i, smGet 0 m.acc i = if 9216 * j.tile ≤ i ∧ i < 9216 * j.tile + 9216 then 0 else smGet 0 x.acc i)
        ∧ (∀ i, smGet 0 m.residue i = if 192 * j.tile ≤ i ∧ i < 192 * j.tile + 192 then 0 else smGet 0 x.residue i)
        ∧ ∀ i, smGet 0 m.klast i = if i = j.tile then 0 else smGet 0 x.klast i) ∧ (j.el < 4 → on c { j with el := j.el + 1 }))
    ∧ (j.kind = .bias → ∀ r rest, c.q.lqm = r :: rest → c.sys.raw = true ∨ r.tag = 0 → r.poison = false →
        ∃ bias, ends j { c with q := { c.q with lqm := rest }, mx := { x with bias := bias } }
          ∧ ∀ i, smGet 0 bias i = if i < 48 then rowLane r.data i else 0)
    ∧ (j.kind = .run → j.j < j.n → (if wbits j.entry 0 2 = 0 ∨ wbits j.entry 0 2 = 3 then 2 else 1) * j.j ≤ j.el →
        j.j / (if wbits j.entry 0 2 = 3 then 24 else 96) < j.sides →
        ∀ t act rest, c.q.aq = (t, act) :: rest → t < c.cycle →
        let bank : Bank := smGet {} x.banks j.bank
        let row := 192 * j.tile + j.rb + j.j
        ∃ m, on { c with q := { c.q with aq := rest }, mx := { m with window := { x.window with rows := x.window.rows + 1 } } }
              { j with j := j.j + 1, el := j.el + 1 }
          ∧ effect { c with mx := m } x m ∧ m.klast = x.klast
          ∧ (∀ i, (∀ col < 48, i ≠ 48 * row + col) → smGet 0 m.acc i = smGet 0 x.acc i)
          ∧ (∀ i, i ≠ row → smGet 0 m.residue i = smGet 0 x.residue i)
          ∧ ∀ col < 48, (smGet 0 m.acc (48 * row + col)).toNat
              = (List.range (384 / bank.g)).foldl (fun a g => add32 a (groupProduct bank act j.side j.j col g)) (smGet 0 x.acc (48 * row + col)).toNat % 2 ^ 32)
    ∧ (j.kind = .run → j.n ≤ j.j → (if wbits j.entry 0 2 = 0 ∨ wbits j.entry 0 2 = 3 then 2 else 1) * j.n + 12 ≤ j.el →
        ∃ m, ends j { c with mx := { x with klast := m } } ∧ ∀ i, smGet 0 m i = if i = j.tile then (smGet {} x.banks j.bank).k0 % 2 ^ 32 else smGet 0 x.klast i)
    ∧ (j.kind = .ldw → (if wbits j.pert.ctl 0 24 = 0 then 144 else 288) ≤ j.el →
        codeRows (wbits j.entry 0 2) + sideRows (wbits j.entry 0 2) (32 * 2 ^ wbits j.entry 8 2) ≤ j.rows.length →
        ends j { c with mx := { x with banks := smPut x.banks j.bank (loadBank j) } })
    ∧ (j.kind = .ldw → j.rows.length < codeRows (wbits j.entry 0 2) + sideRows (wbits j.entry 0 2) (32 * 2 ^ wbits j.entry 8 2) →
        (j.el < rowDue j j.rows.length → on c { j with el := j.el + 1 })
        ∧ (rowDue j j.rows.length ≤ j.el → c.q.lqm = [] → on c j)
        ∧ (rowDue j j.rows.length ≤ j.el → ∀ r rest, c.q.lqm = r :: rest → c.sys.raw = true ∨ r.tag.toNat = wbits j.entry 10 4 → r.poison = false → wbits j.entry 0 2 = 0 ∨ wbits j.entry 0 2 = 3 →
        on { c with q := { c.q with lqm := rest } } { j with rows := j.rows ++ [r], el := j.el + 1 }))
    ∧ (∀ i < codeRows (wbits j.entry 0 2),
        rowDue j i ≤ i * ((if wbits j.pert.ctl 0 24 = 0 then 144 else 288) / codeRows (wbits j.entry 0 2))
        ∧ (i + 1 < codeRows (wbits j.entry 0 2) → rowDue j i < rowDue j (i + 1)))

/-- 10_mxe_model.md R67, R211, R212: the bank that an unperturbed load leaves holds the codes, scales and zero points of its rows at their places; a
product of a group is the exact integer sum times its scales, rounded once. -/
def MxBankAndProducts : Prop :=
  ∀ (j : Job) (act side : Row) (r col g : Nat), wbits j.pert.ctl 0 24 = 0 → col < 48 →
    let w := wbits j.entry 0 2
    let size := 32 * 2 ^ wbits j.entry 8 2
    let b := loadBank j
    let row (i : Nat) : Row := ((j.rows[i]?).map QRow.data).getD 0
    let sideByte (o : Nat) : Nat := (rowByte (row (codeRows w + o / 384)) (o % 384)).toNat
    b.valid = true ∧ b.fmt = w ∧ b.k0 = j.k0 ∧ b.n0 = j.n0
    ∧ (w = 0 → wbits j.entry 8 2 < 3 → b.g = size
        ∧ (∀ k < 384, rowByte (smGet 0 b.codes col) k = rowByte (row col) k)
        ∧ (g < 384 / size → (smGet 0 b.sc (48 * g + col)).toNat = sideByte (96 * g + 2 * col) + 256 * sideByte (96 * g + 2 * col + 1)
            ∧ (smGet 0 b.zp (48 * g + col)).toNat = sideByte (96 * (384 / size) + 48 * g + col)))
    ∧ (w = 1 → ∀ k < 384, (rowByte (smGet 0 b.codes col) k).toNat
        = (rowByte (row (col / 2)) (192 * (col % 2) + k / 2)).toNat / (if k % 2 = 0 then 1 else 16) % 16)
    ∧ (w < 2 → b.g = size →
        let a (k : Nat) : Int := (rowByte act k).toInt
        let q (k : Nat) : Int := ((rowByte (smGet 0 b.codes col) k).toNat : Int) - (smGet 0 b.zp (48 * g + col)).toNat
        let sum : Int := ((List.range size).map fun i => a (size * g + i) * q (size * g + i)).sum
        let scale := FV.mul (fp16.val (smGet 0 b.sc (48 * g + col)).toNat) (fp32.val (rowLane side (r % 96)).toNat)
        (∀ n m e f, scale = .fin n m e f →
          groupProduct b act side r col g = if sum = 0 then 0 else rne fp32 (FV.mul (FV.ofInt sum) scale)))

/-- 10_mxe_model.md R218, R220, R222, R228: a drain pushes its next row, biased and rectified as asked; a staged command is applied and retires, a
routine starts with the staged copies, and retires once its words have finished, whatever an earlier one still does; a replay within its window
holds the stream, another faults. -/
def MxUnitEvents : Prop :=
  ∀ (s : State) (k : Nat), (s.core k).run = .running → (s.core k).frozen = false →
    let c := s.core k
    let x := c.mx
    (mxFree c → ∀ j, x.jobs = [j] → j.kind = .drain → j.next ≤ c.cycle → c.q.dq.length < 32 →
      let row := 192 * j.tile + j.rb + j.j
      let y (col : Nat) : Nat :=
        let v := (smGet 0 x.acc (48 * row + col)).toNat
        if j.bias then add32 v (smGet 0 x.bias col).toNat else v
      let out (col : Nat) : Nat :=
        if j.relu = true ∧ (fp32.val (y col)).isNan = false ∧ FV.lt (.fin false 0 1 0) (fp32.val (y col)) = false then 0 else y col
      ∃ t d, exec (.mxDrainRow k) s = .next t ∧ (t.core k).q.dq = c.q.dq ++ [(c.cycle, d)]
        ∧ (∀ col < 96, (rowLane d col).toNat = if col < 48 then out col % 2 ^ 32 else 0)
        ∧ (∀ i, smGet 0 (t.core k).mx.acc i = if j.clear = true ∧ 48 * row ≤ i ∧ i < 48 * row + 48 then 0 else smGet 0 x.acc i)
        ∧ (t.core k).mx.jobs = (if j.n ≤ j.j + 1 then [] else [{ j with j := j.j + 1, next := c.cycle + 1 }])
        ∧ (∀ a, memByte t a = memByte s a) ∧ ∀ i, i ≠ k → t.core i = s.core i)
    ∧ (mxFree c → ∀ m, c.cmds.find? (fun e => e.eng == .mx && !e.started) = some m → m.eng = .mx → m.at_ ≤ c.cycle → wbits m.ccw 13 1 = 0 →
      let v := m.op.regs.headD 0
      let gone (y : Mx) : Prop := ∃ t, exec (.mxStagedWriteApply k) s = .next t ∧ OnlyCore k s t
        ∧ t.core k = { c with mx := y, ev := true, cmds := c.cmds.filter fun e => e.seq != m.seq }
      (m.op.op = 0 → gone { x with nestS := smSet 0 x.nestS m.op.m v }) ∧ (m.op.op = 1 → gone { x with fmtS := smSet 0 x.fmtS m.op.m v })
      ∧ (m.op.op = 2 → m.op.m < 3 → gone { x with pertS := if m.op.m = 0 then { x.pertS with key := v }
          else if m.op.m = 1 then { x.pertS with ctl := v } else { x.pertS with ext := v } })
      ∧ (m.op.op = 3 → x.routine = none → ∃ t, exec (.mxRoutineStart k) s = .next t ∧ OnlyCore k s t
          ∧ (t.core k).mx = { x with nest := x.nestS, fmt := x.fmtS, pert := x.pertS, mpc := v.toNat, start := v.toNat,
                                     idx := [0, 0, 0, 0, 0, 0], routine := some m.seq, popped := false }))
    ∧ (mxFree c → ∀ pre q rest m, x.ending = pre ++ q :: rest → (∀ e ∈ pre, ∃ j ∈ x.jobs, j.cmd = e) → (∀ j ∈ x.jobs, j.cmd ≠ q) →
      c.cmd? q = some m → m.eng = .mx → wbits m.ccw 13 1 = 0 →
      ∃ t, exec (.mxRoutineRetire k) s = .next t ∧ OnlyCore k s t
        ∧ t.core k = { c with mx := { x with ending := pre ++ rest }, ev := true, cmds := c.cmds.filter fun e => e.seq != m.seq })
    ∧ (∀ tile j, x.jobs = [j] → j.kind = .run ∨ j.kind = .drain → j.tile = tile →
      (x.window.opened = true → x.window.words ≤ 64 → x.window.rows ≤ 384 → x.window.swap = false → tile ∈ x.window.zeroed → x.window.busy ≤ c.cycle →
        ∃ t n, exec (.mxReplay k tile) s = .next t ∧ t.freeCtr = s.freeCtr + 1 ∧ (∀ a, memByte t a = memByte s a)
          ∧ t.core k = { c with mx := { x with window := { x.window with busy := c.cycle + 1 + n } } })
      ∧ (x.window.opened = false → ∃ f u, exec (.mxReplay k tile) s = .next (endKernel u k 1 j.mpc 0x63 f) ∧ ∀ i, u.core i = s.core i))

end Sys2Proof.Claims

/-- Matrix jobs progress; bank contents and products; staged commands and replay. -/
def Obligations.MxProgress : Prop :=
  Claims.MxWordsProgress ∧ Claims.MxBankAndProducts ∧ Claims.MxUnitEvents

/-! ### Memory events -/

namespace Sys2Proof.Claims

/-- 05_ap_model.md R107, R108, R109 with 06_ap_instr.md R138: the next row of the `ldq` at the head of the read queue is performed, with its
swizzle tag, and is on its way unless a `qkill` discards it; the last row takes the `ldq` out of the queue. -/
def rowPerforms (s : State) (k : Nat) (e : RdE) (lqm zm1 zero : Bool) (xl : List Xl) : Prop :=
  let c := s.core k
  let va := e.va + w64 (384 * e.k)
  c.run = .running → (c.inHandler = true → c.shadow.rq = []) → c.main.rq.head? = some e → e.from_ ≤ c.cycle → c.freeze.late = none →
  e.kind = .ldq lqm zm1 zero →
  (∀ m ∈ c.main.marks, m.2 < e.po → ∀ w ∈ c.main.wq, m.2 ≤ w.po) → rdCheck s k e = .ok xl → cleanRead s k xl va 384 →
  ∃ row : QRow, row.poison = false ∧ row.po = some e.po ∧ row.err = none ∧ row.decoded = false
    ∧ (∀ i < 384, row.data.extractLsb' (8 * i) 8 = vaByte s k xl (va + w64 i))
    ∧ (∀ a g, byteLoc s k xl va = some (a, g) → row.tag = tagAt s a)
    ∧ CoreBecomes (.readPerformed k .clean) s k { c with
        main := { c.main with rq := (if e.k + 1 < e.n then [{ e with k := e.k + 1 }] else []) ++ c.main.rq.drop 1 }
        q := { c.q with rowsIn := c.q.rowsIn ++ (if e.kill then [] else
          [{ lqm := lqm, zm1 := zm1, due := e.due, po := e.po, total := e.n, row := row }]) } }

/-- 05_ap_model.md R107, R109 and 06_ap_instr.md R138: rows of an `ldq` are performed, and the oldest row on its way to a queue, once due, enters
it: LQM; LQV, never waiting for room, behind every earlier stream of the decoder (log entry 60); or the decoder's stream of its `ldq`. -/
def QueueRows : Prop :=
  (∀ (s : State) (k : Nat) (e : RdE) (lqm zm1 zero : Bool) (xl : List Xl), rowPerforms s k e lqm zm1 zero xl)
  ∧ ∀ (s : State) (k : Nat) (r : RowIn) (lqm : Bool),
    let c := s.core k
    let q := { c.q with rowsIn := c.q.rowsIn.erase r }
    let enters (q : Queues) : Prop := CoreBecomes (.ldqRowEntry k lqm) s k { c with q := q }
    c.run = .running → c.frozen = false → c.q.rowsIn.find? (fun e => e.lqm == lqm) = some r →
    (c.cycle < r.due → Idle (.ldqRowEntry k lqm) s)
    ∧ (r.due ≤ c.cycle →
      (r.zm1 = false → lqm = true → enters { q with lqm := q.lqm ++ [r.row] })
      ∧ (r.zm1 = false → lqm = false → (∀ z ∈ q.zm, r.po ≤ z.po) → enters { q with lqv := q.lqv ++ [r.row] })
      ∧ (r.zm1 = false → lqm = false → (∃ z ∈ q.zm, z.po < r.po) → Idle (.ldqRowEntry k lqm) s)
      ∧ (r.zm1 = true → (∀ z ∈ q.zm, z.po ≠ r.po) → enters { q with
          zm := q.zm ++ [{ po := r.po, total := r.total, rows := [r.row], pos := 0, k := 0, out := [] }] })
      ∧ (r.zm1 = true → (∃ z ∈ q.zm, z.po = r.po) → enters { q with
          zm := q.zm.map fun z => if z.po = r.po then { z with rows := z.rows ++ [r.row] } else z }))

/-- Core c, whose freeze has come to be f: where nothing else holds it, it runs from clock cycle t on (22_faults.md R360). -/
def unfrozen (c : Core) (f : Freeze) (t : Nat) : Core :=
  { c with freeze := { f with ended := if f.late = none ∧ f.ecc = none ∧ c.hnd = none ∧ c.hndQ = [] then some t else f.ended } }

/-- 05_ap_model.md R104, R105: replies arrive in order; a core whose oldest due reply of a register destination is absent freezes, with that reply's
address, and the results of its cycle are written once no reply is absent. A core frozen for 2^20 consecutive clock cycles (22_faults.md R360), and
one whose streams have waited for tokens for 2^24 core cycles (R361), end their kernels, with 0x27 and 0xC4 in stream 3; FADDR of 0xC4 holds the six
token counts. -/
def RepliesAndWatchdogs : Prop :=
  ∀ (s : State) (k : Nat),
    let c := s.core k
    let absent (f : ApFly) : Bool := f.mem && !f.arrived && decide (f.due ≤ c.cycle)
    let late (e : RdE) : Prop := e.due ≤ c.cycle ∧ ∀ a b d, e.kind ≠ .ldq a b d
    let written (n : Nat) (f : ApFly) : Core := { c with main := { c.main with fly := [], x := smSet 0 c.main.x n f.val } }
    let ends (c : Core) : Core := unfrozen c { c.freeze with late := none } s.clock
    (∀ l f r, (c.inHandler = true → ∀ g ∈ c.shadow.fly, g.arrived = true) → c.main.fly = l ++ f :: r → f.arrived = false →
      (∀ g ∈ l, g.arrived = true) →
      (c.freeze.late = none → CoreBecomes (.readReplyArrival k) s k { c with main := { c.main with fly := l ++ { f with arrived := true } :: r } })
      ∧ (c.freeze.late ≠ none → l = [] → r = [] → f.due ≤ c.cycle → (∀ e ∈ c.main.rq, ¬ late e) → ∀ n, f.dst = .x n → n ≠ 0 →
          CoreBecomes (.readReplyArrival k) s k (ends (written n f))))
    ∧ (c.run = .running →
      (∀ f, c.main.fly.find? absent = some f →
        CoreBecomes (.lateReplyFreeze k) s k { c with freeze := { c.freeze with late := some f.va } })
      ∧ ((∀ e ∈ c.main.rq, ¬ late e) →
          (c.freeze.late = none → (∀ f ∈ c.main.fly, c.cycle < f.due) → CoreBecomes (.lateReplyFreeze k) s k c)
          ∧ (∀ f n, c.main.fly = [f] → f.due ≤ c.cycle → f.arrived = true → f.dst = .x n → n ≠ 0 →
              CoreBecomes (.lateReplyFreeze k) s k (if c.freeze.late = none then written n f else ends (written n f))))
      ∧ (c.frozen = true → 2 ^ 20 ≤ c.freeze.len → ∀ va, lateVa c = some va →
          exec (.lateReply k) s = .next (endKernel s k 3 0 0x27 va))
      ∧ (c.freeze.len < 2 ^ 20 → Idle (.lateReply k) s)
      ∧ (2 ^ 24 ≤ c.tokWait → ∃ v : Word, exec (.tokenDeadlock k) s = .next (endKernel s k 3 0 0xC4 v)
          ∧ wbits v 24 40 = 0 ∧ ∀ f < 6, wbits v (4 * f) 4 = c.tokens f % 16)
      ∧ (c.tokWait < 2 ^ 24 → Idle (.tokenDeadlock k) s))

/-- 22_faults.md R360, R367: a corrected error freezes its core for 16 clock cycles and is counted for its partition; the freeze ends with them. One
that an engine, a walk or the host meets in a share is counted for the share's partition (R368). 05_ap_model.md R110: the injection register takes a
value that `sysw` would accept. -/
def CorrectedErrors : Prop :=
  ∀ (s : State) (k : Nat) (v : Word),
    let c := s.core k
    (∃ t, exec (.eccCorrected (.core k)) s = .next t ∧ (∀ a, memByte t a = memByte s a)
      ∧ (∃ u, t.core k = { c with freeze := { c.freeze with ecc := some u } } ∧ s.clock + 16 ≤ u
          ∧ (u = s.clock + 16 ∨ c.freeze.ecc = some u) ∧ ∀ w, c.freeze.ecc = some w → w ≤ u)
      ∧ (∀ j, j ≠ k → t.core j = s.core j) ∧ (∀ p, p ≠ partOfCore s k → t.part p = s.part p)
      ∧ t.part (partOfCore s k) = { s.part (partOfCore s k) with
          evB0 := if (s.part (partOfCore s k)).evB0 = 0xFFFFFFFF then 0xFFFFFFFF else (s.part (partOfCore s k)).evB0 + 1 })
    ∧ (∀ pn, ∃ t, exec (.eccCorrected (.share pn)) s = .next t
      ∧ t.part pn = { s.part pn with evB0 := if (s.part pn).evB0 = 0xFFFFFFFF then 0xFFFFFFFF else (s.part pn).evB0 + 1 }
      ∧ (∀ p, p ≠ pn → t.part p = s.part p) ∧ { t with parts := s.parts } = s)
    ∧ (∀ u, c.freeze.ecc = some u →
        (u ≤ s.clock → CoreBecomes (.eccFreezeEnd k) s k (unfrozen c { c.freeze with ecc := none } s.clock))
        ∧ (s.clock < u → Idle (.eccFreezeEnd k) s))
    ∧ (v.toNat % 2 = 0 ∨ v.toNat / 2 % 4 < 2 → CoreBecomes (.eccinjArm k v) s k { c with
        sys := { c.sys with injArm := v.getLsbD 0, injKind := v.extractLsb' 1 2, injAddr := v.extractLsb' 3 61 } })

end Sys2Proof.Claims

/-- Rows enter their queues; replies arrive; freezes and watchdogs. -/
def Obligations.RowsAndReplies : Prop :=
  Claims.QueueRows ∧ Claims.RepliesAndWatchdogs ∧ Claims.CorrectedErrors

namespace Sys2Proof.Claims

/-- 04_memory.md R79-R81, 24_device.md R380: the stage-1 walk of a VA. With S1ROOT.EN = 0 every access faults. Otherwise the descriptor of each
level stands in its table at the index that the VA gives: a good leaf maps its page with the rights and the key that it holds, a good pointer
leads to the table of the next level, any other descriptor is invalid, and one that stage 2 does not map ends the walk there. -/
def StageOneWalk : Prop :=
  ∀ (s : State) (pn mod va : Nat), va < 2 ^ 48 →
    let p := s.part pn
    let w := walk s pn mod va
    let good (d : Nat) : Prop := d % 2 = 1 ∧ d / 2 ^ 5 % 8 = 0 ∧ d / 2 ^ 52 % 64 = 0
    let addr (d : Nat) : Nat := d / 2 ^ 8 % 2 ^ 44 * 256
    let maps (d size : Nat) : Prop := good d ∧ d / 2 % 2 = 1 ∧ addr d % size = 0
    let leads (d next : Nat) : Prop := good d ∧ d / 2 % 2 = 0 ∧ d / 2 ^ 2 % 8 = 0 ∧ d / 2 ^ 58 % 64 = 0 ∧ addr d % next = 0
    let page (d size : Nat) : Prop := w = .leaf
      { part := pn, va := va / size * size, size := size, gpa := addr d, r := d / 4 % 2 == 1, w := d / 8 % 2 == 1, a := d / 16 % 2 == 1
        key := d / 2 ^ 58 % 64 } (d / 2 ^ 58 % 64)
    let at_ (a : Nat) (go : Nat → Prop) : Prop :=
      (gpaNat s p mod a 8 = none → w = .stage2 false a) ∧ ∀ d, gpaNat s p mod a 8 = some d → go d
    (p.s1root.getLsbD 0 = false → w = .invalid)
    ∧ (p.s1root.getLsbD 0 = true → at_ (p.s1root.toNat / 2 ^ 21 % 2 ^ 31 * 2 ^ 21 + 8 * (va / 2 ^ 30)) fun d1 =>
      (maps d1 (2 ^ 30) → page d1 (2 ^ 30)) ∧ (¬ maps d1 (2 ^ 30) → ¬ leads d1 4096 → w = .invalid)
      ∧ (leads d1 4096 → at_ (addr d1 + 8 * (va / 2 ^ 21 % 512)) fun d2 =>
        (maps d2 (2 ^ 21) → page d2 (2 ^ 21)) ∧ (¬ maps d2 (2 ^ 21) → ¬ leads d2 256 → w = .invalid)
        ∧ (leads d2 256 → at_ (addr d2 + 8 * (va / 2 ^ 16 % 32)) fun d3 =>
          (maps d3 (2 ^ 16) → page d3 (2 ^ 16)) ∧ (¬ maps d3 (2 ^ 16) → w = .invalid))))

end Sys2Proof.Claims

/-- 04_memory.md R79-R86: a walk for the core's oldest access that needs one gives its die the page's translation, or ends in 0x21, which, but for
an access of the handler itself, goes to the handler where there is one; an invalidation removes from every die the partition's translations that
cover its page, or all of them, and answers the word that waits for it, not before the checker has let that out (05_ap_model.md R117). What the
walk reads is `StageOneWalk`. -/
def Obligations.TranslationsComeAndGo : Prop :=
  Claims.StageOneWalk ∧ ∀ (s : State) (k : Nat),
    let c := s.core k
    let pn := partOfCore s k
    (c.run = .running → ∀ w vpg va, walkWanted s k = some (w, vpg, va) →
      let at_ : Word := BitVec.ofNat 64 (max va.toNat (vpg * 65536))
      (∀ e g, walk s pn (k / 1024) (vpg * 65536) = .leaf e g →
        ∃ t, exec (.translationWalk k) s = .next t ∧ e ∈ smGet [] t.tlb (k / 256)
          ∧ (∀ d, d ≠ k / 256 → smGet [] t.tlb d = smGet [] s.tlb d) ∧ { t with tlb := s.tlb } = s)
      ∧ (walk s pn (k / 1024) (vpg * 65536) = .invalid →
        exec (.translationWalk k) s = .next (if w.sh then endKernelAt s k 3 w.pc.toNat 0x21 at_ w.bp
          else if wbits (s.part pn).pthl 0 12 = 0 then endKernelAt s k 0 w.pc.toNat 0x21 at_ w.bp
          else deliver s k w.pc 0x21 at_ none (some w.po) w.bp))
      ∧ (∀ p g, walk s pn (k / 1024) (vpg * 65536) = .stage2 p g →
        exec (.translationWalk k) s = .next (stage2Fail s k (if p then 0x22 else 0x21) g)))
    ∧ ∀ v f, c.held = some { kind := .tlbi v, from_ := f } →
        let page := v.toNat / 2 ^ 16 * 2 ^ 16
        let drops (i : Instr) (gone : TlbE → Prop) : Prop := ∃ t, exec i s = .next t
          ∧ (∀ d e, e ∈ smGet [] t.tlb d ↔ e ∈ smGet [] s.tlb d ∧ ¬ (e.part = pn ∧ gone e))
          ∧ t.core k = c.setHeld (some { kind := .tlbi v, res := some (.value 0) })
          ∧ (∀ j, j ≠ k → t.core j = s.core j) ∧ { t with tlb := s.tlb, cores := s.cores } = s
        let now := timeOf s k c.inHandler
        (now < f → Idle (.tlbiPage k) s ∧ Idle (.tlbiStage1 k) s)
        ∧ (f ≤ now → (v.toNat % 4 = 0 → drops (.tlbiPage k) fun e => e.va ≤ page ∧ page < e.va + e.size)
            ∧ (v.toNat % 4 = 1 → drops (.tlbiStage1 k) fun _ => True))

/-! ### Engine events -/

namespace Sys2Proof.Claims

/-- 13_bte.md R247, R248 with 01_machine.md R14: what retiring a command does. Its record, of 16 bytes, goes to the slot of its number in the
ring of its engine, unless NOREC suppresses that of a success; EV is set, and the number is free. With REL it waits (`ReleaseWaits`), but for one
that was stopped: the model's reading of R95, log entry 31. -/
def CommandsRetire : Prop :=
  ∀ (s : State) (k : Nat) (m : Cmd) (status cause bytes : Nat), m ∈ (s.core k).cmds →
    (status = 3 ∨ wbits m.ccw 13 1 = 0 ∨ earlierDone (s.core k) m = true) →
    (∀ ring chan, cmdRing s k m = some (ring, chan) → nbits ring 4 17 * 16 + 16 * 2 ^ nbits ring 24 4 ≤ 2 ^ 21) →
    let t := retireCmd s k m status cause bytes
    let quiet : Prop := status = 1 ∧ m.ccw.toNat % 2 = 1
    (t.core k).ev = true ∧ (∀ e, e ∈ (t.core k).cmds ↔ e ∈ (s.core k).cmds ∧ e.seq ≠ m.seq)
    ∧ (∀ j, j ≠ k → t.core j = s.core j)
    ∧ (quiet ∨ cmdRing s k m = none → ∀ a, memByte t a = memByte s a)
    ∧ (¬ quiet → ∀ ring chan, cmdRing s k m = some (ring, chan) →
        let at_ := k * 2 ^ 21 + nbits ring 4 17 * 16 + 16 * (m.seq % 2 ^ nbits ring 24 4)
        let field (o n : Nat) : Nat := leNat (tabulate (fun i => memByte t (at_ + o + i)) n)
        field 0 2 = m.seq % 2 ^ 16 ∧ field 2 1 = cause % 256 ∧ field 3 1 = status % 256 ∧ field 4 1 = chan % 256 ∧ field 5 3 = 0
        ∧ field 8 8 = bytes % 2 ^ 64 ∧ ∀ a, (a < at_ ∨ at_ + 16 ≤ a) → memByte t a = memByte s a)
    ∧ ∀ ch, m.eng = .bte ch → cmdRing s k m = some (wbits m.op.desc 320 64, ch)

/-- 04_memory.md R95 as the model reads it (log entry 31): a command with REL = 1 whose work has ended, unless it was stopped, stays unretired, its
record unwritten, while an earlier memory event of the AP has not been performed. -/
def ReleaseWaits : Prop :=
  ∀ (s : State) (k : Nat) (m : Cmd) (status cause bytes : Nat), m ∈ (s.core k).cmds → status ≠ 3 → wbits m.ccw 13 1 = 1 →
    ((∃ e ∈ (s.core k).main.rq, e.po < m.po) ∨ ∃ e ∈ (s.core k).main.wq, e.po < m.po) →
    let t := retireCmd s k m status cause bytes
    OnlyCore k s t ∧ (t.core k).ev = (s.core k).ev ∧ (t.core k).main = (s.core k).main
    ∧ (∃ e ∈ (t.core k).cmds, e.seq = m.seq ∧ e.ended = some (status, cause, bytes))
    ∧ (t.core k).cmds.map Cmd.seq = (s.core k).cmds.map Cmd.seq

/-- 01_machine.md R14 with 04_memory.md R95 and 05_ap_model.md R117: a command of an engine with a queue of its own starts once it may be
accepted, the commands that its control word names have retired (with ALL every earlier one), with ACQ every earlier access has been performed,
and, but for the link engine, no earlier command of its engine or channel is left. That REL does not hold the start is the model's reading (log
entry 31). -/
def CommandsStart : Prop :=
  ∀ (s : State) (k : Nat) (m : Cmd) (before after : List Cmd),
    let c := s.core k
    c.run = .running → c.cmds = before ++ m :: after → (∀ e ∈ before, e.seq ≠ m.seq) → (∀ e ∈ after, e.seq ≠ m.seq) → m.started = false →
    m.eng ≠ .mx → m.eng ≠ .vx →
    let gone (d : Nat) : Prop := d ≠ 0 → ∀ e ∈ c.cmds, e.seq + d ≠ m.seq
    let ready : Prop := m.at_ ≤ c.cycle ∧ gone (wbits m.ccw 24 8) ∧ gone (wbits m.ccw 16 8) ∧ (wbits m.ccw 15 1 = 1 → ∀ e ∈ c.cmds, m.seq ≤ e.seq)
      ∧ (wbits m.ccw 14 1 = 1 → (∀ e ∈ c.main.rq, m.po ≤ e.po) ∧ ∀ e ∈ c.main.wq, m.po ≤ e.po)
      ∧ (m.eng ≠ .link → ∀ e ∈ before, e.eng ≠ m.eng)
    (ready → CoreBecomes (.engineCommandStart k m.seq) s k { c with
      cmds := before ++ { m with started := true, due := s.clock + (if m.eng = .quern then 64 else 0) } :: after })
    ∧ (¬ ready → Idle (.engineCommandStart k m.seq) s)

end Sys2Proof.Claims

/-- Engine commands start in order and retire with a record. -/
def Obligations.CommandsStartAndRetire : Prop :=
  Claims.CommandsRetire ∧ Claims.ReleaseWaits ∧ Claims.CommandsStart

namespace Sys2Proof.Claims

/-- 13_bte.md R236, R239: the walk. Point p has the indices that p gives with level 5 fastest; its element j lies at the origin plus j plus the
indices times the strides, and outside the source where a limit says so. -/
def BlockTransferWalk : Prop :=
  ∀ (d : BitVec 1536) (i : Nat → Nat) (j : Nat), (∀ l < 6, i l < btCount d l) →
    let n := btCount d
    let p := ((((i 0 * n 1 + i 1) * n 2 + i 2) * n 3 + i 3) * n 4 + i 4) * n 5 + i 5
    let dot (f : Nat → Int) : Int := i 0 * f 0 + i 1 * f 1 + i 2 * f 2 + i 3 * f 3 + i 4 * f 4 + i 5 * f 5
    p < btPoints d ∧ (∀ l < 6, btIdx d p l = i l)
    ∧ btSe d p j = (btField d 0x20 4 : Int) + j + dot (btSstr d) ∧ btDe d p j = (btField d 0x24 4 : Int) + j + dot (btDstr d)
    ∧ (btOut d p j = true ↔ btField d 0x1C 4 ≤ j ∨ ∃ l < 6, btSlim d l ≠ 0 ∧ btSlim d l ≤ i l)

/-- A running command of a core's block transfer engine. -/
def btRuns (s : State) (k : Nat) (m : Cmd) : Prop :=
  (s.core k).run = .running ∧ (s.core k).cmd? m.seq = some m ∧ (∃ ch, m.eng = .bte ch) ∧ m.started = true ∧ m.walk = false ∧ m.ended = none

/-- 13_bte.md R239-R244, R247: a command moves its elements one unit at a time, in order. A unit for memory is read at its source address, or is zero
outside the source (on channel 3 nothing is written there), and is written at its destination address; bytes are counted; after the last the command
retires. A unit for an instruction memory goes there unless its block has become live by a loop (the PC does not count there: the model's reading, log
entry 58); a row for a queue enters it once it is complete. -/
def BlockTransferMoves : Prop :=
  ∀ (s : State) (k : Nat) (m : Cmd), btRuns s k m →
    let d := m.op.desc
    let ew := btEw d
    let ch := btChan m
    let p := m.pos / btLen d
    let j := m.pos % btLen d
    let n := max 1 (btUnitBits ew / 8)
    let past := { m with pos := m.pos + btUnit ew }
    let src := btVa d 0x00 (Int.fdiv (btBit ew (btSe d p j)) 8)
    let dst := btVa d 0x08 (Int.fdiv (btBit ew (btDe d p j)) 8)
    let whole (m : Cmd) : Prop := btTotal m.op.desc ≤ m.pos ∧ btNextRow m = none
    let ends (s : State) (m : Cmd) (t : State) : Prop :=
      (whole m → t = retireCmd (setCmd s k m) k m 1 0 m.bytes) ∧ (¬ whole m → t = setCmd s k m)
    (whole m → exec (.bteCommandRetire k m.seq ⟨0, 0⟩) s = .next (retireCmd (setCmd s k m) k m 1 0 m.bytes))
    ∧ (m.pos < btTotal d → btQnt d = false → btKind d = 0 → 1 ≤ ew → btNextRow m = none → (s.core k).copy = none →
        let moves (s1 : State) (bs : List Byte) : Prop := ∀ s2 yl, engAccess s1 k m dst n { w := true } m.bytes = .ok s2 yl →
          ∃ u t, exec (.bteCommandRetire k m.seq ⟨1, 0⟩) s = .next t ∧ Wrote k yl dst bs s2 u
            ∧ ends u { past with bytes := m.bytes + btBytes ew (btUnit ew) } t
        (btOut d p j = false → ∀ s1 xl, engAccess s k m src n { r := true } m.bytes = .ok s1 xl → vaPoison s1 k xl src n = false →
          moves s1 (vaBytes s1 k xl src n))
        ∧ (btOut d p j = true → ch ≠ 3 → moves s (List.replicate n 0))
        ∧ (btOut d p j = true → ch = 3 → ∃ t, exec (.bteCommandRetire k m.seq ⟨1, 0⟩) s = .next t ∧ ends s past t))
    ∧ (∀ r, btNextRow m = some r → (s.core k).frozen = false →
        let c := s.core k
        let lqm := btKind d == 2
        (if lqm then c.q.lqm.length else c.q.lqv.length) + reserved c lqm false < 64 →
        ∃ row : QRow, row.tag = btSwz d ∧ row.po = none ∧ row.poison = false ∧ row.err = none
          ∧ (smRising 0 m.part = true → ∀ i < 768, ∀ v, smFind m.part (768 * r + i) = some v → row.data.extractLsb' (4 * i) 4 = v)
          ∧ exec (.bteRowEntry k m.seq) s = .next (setCmd (s.setCore k { c with
              q := if lqm then { c.q with lqm := c.q.lqm ++ [row] } else { c.q with lqv := c.q.lqv ++ [row] } }) k
              { m with sub := [m.sub.getD 0 0, r + 1], bytes := m.bytes + 384, part := m.part.filter fun e => decide (768 * r + 768 ≤ e.1) }))
    ∧ (3 ≤ btKind d → m.pos < btTotal d → 1 ≤ ew → btOut d p j = false →
        ∀ s1 xl, engAccess s k m src n { r := true } m.bytes = .ok s1 xl → vaPoison s1 k xl src n = false →
        let bs := vaBytes s1 k xl src n
        let off : Int := (btField d 0x08 8 : Int) + Int.fdiv (btBit ew (btDe d p j)) 8
        let live (i : Nat) : Bool := blockRuns (s1.core k) (btKind d) ((off + i).toNat / (256 * btImWord (btKind d)))
        (0 ≤ off ∧ off + n ≤ btImSize (btKind d) → (∃ i < n, live i = true) →
          exec (.bteOverlayWrite k ⟨m.seq, 0⟩) s = .next (retireCmd s1 k m 2 0x72 m.bytes))
        ∧ (0 ≤ off ∧ off + n ≤ btImSize (btKind d) → (∀ i < n, live i = false) → ∃ t, exec (.bteOverlayWrite k ⟨m.seq, 0⟩) s = .next t
            ∧ (∀ a, memByte t a = memByte s1 a)
            ∧ let im (c : Core) : SMap Byte := if btKind d = 3 then c.apIm else if btKind d = 4 then c.mxIm else c.vxIm
              (∀ i < n, ∀ b, bs[i]? = some b → smGet 0 (im (t.core k)) (off.toNat + i) = b)
              ∧ (∀ a, (a < off.toNat ∨ off.toNat + n ≤ a) → smGet 0 (im (t.core k)) a = smGet 0 (im (s1.core k)) a)
              ∧ (t.core k).main = (s1.core k).main ∧ (t.core k).vx = (s1.core k).vx ∧ (t.core k).mx = (s1.core k).mx))

end Sys2Proof.Claims

namespace Sys2Proof.Claims

/-- 13_bte.md R246: the scale, the codes and the events of a group of 32 values x of a format: the scale is the largest finite magnitude over 127,
in FP16 to nearest even and held at its largest value; a value's code is 128 plus its quotient by the scale, to nearest even and held at ±127. -/
def QuantisedGroup (f : Fmt) (x : Nat → Nat) (scale : Nat) (code : Nat → Nat) (cnt : Cnt) : Prop :=
  let v (k : Nat) : FV := f.val (x k)
  ∃ A, (∀ k < 32, fpMag (v k) ≤ A) ∧ (A = 0 ∨ ∃ k < 32, fpMag (v k) = A) ∧
    let s := rnd fp16 { sat := true } (.fin false A 127 (-149))
    let unit := fpMag (fp16.val s.bits)
    let q (k : Nat) : Nat := fpMag (v k) / unit
    let up (k : Nat) : Prop := unit < 2 * (fpMag (v k) % unit) ∨ (2 * (fpMag (v k) % unit) = unit ∧ q k % 2 = 1)
    let n (k : Nat) : Nat := if up k then q k + 1 else q k
    let el (k : Nat) : Rnd := match v k with
      | .nan => ⟨128, { nan := 1 }⟩
      | .inf neg => ⟨if neg then 1 else 255, { sat := 1 }⟩
      | .fin neg m _ _ =>
        if unit = 0 then ⟨128, if m = 0 then {} else { ftz := 1 }⟩
        else ⟨if neg then 128 - min 127 (n k) else 128 + min 127 (n k), if 127 < n k then { sat := 1 } else {}⟩
    scale = s.bits ∧ (∀ k < 32, code k = (el k).bits) ∧ cnt = s.cnt.plus (sumCnt ((List.range 32).map el))

/-- 13_bte.md R245, R246: a command with QNT takes the next tile, here within the core's own scratchpad: each of its 32 rows and 32 columns is a
group. An element outside the source enters as +0. The codes of the rows go to the destination, those of the columns to QDST, transposed, the scales
to QRSC and QCSC; on channel 3 an element outside the source has no codes written. The events count under STID. -/
def QuantisedTile : Prop :=
  ∀ (s : State) (k : Nat) (m : Cmd), btRuns s k m →
    let d := m.op.desc
    let ch := btChan m
    let p := m.pos / 1024 * 32
    let f : Fmt := if btQsrc d = 0 then fp32 else if btQsrc d = 1 then fp16 else bf16
    let w : Nat := if btQsrc d = 0 then 4 else 2
    btQnt d = true → btKind d = 0 → btLen d = 32 → btCount d 5 = 32 → m.memo = [] → m.pos % 1024 = 0 → m.pos < btTotal d → btNextRow m = none →
    let own (va : Word) (n : Nat) : Prop := vaSpace va = 15 ∧ ∃ o, spadOf s k va = some (k, o) ∧ o + n ≤ 2 ^ 21
    let off (va : Word) : Nat := ((spadOf s k va).map Prod.snd).getD 0
    let src (r c : Nat) : Word := btVa d 0x00 (btSe d (p + r) c * (w : Int))
    let rowCode (r c : Nat) : Word := btVa d 0x08 (btDe d (p + r) c)
    let colCode (r c : Nat) : Word := btVa d 0xA0 (btDe d p 0 + (r : Int) + (c : Int) * btDstr d 5)
    let scaleVa (base i : Nat) : Word := btVa d base ((2 * (p + i) : Nat) : Int)
    let wr (i j : Nat) : Bool := !(ch == 3 && btOut d (p + i) j)
    let cells : List (Word × Nat) :=
      ((List.range 1024).filter fun i => wr (i / 32) (i % 32)).map (fun i => (rowCode (i / 32) (i % 32), 1))
      ++ ((List.range 1024).filter fun i => wr (i % 32) (i / 32)).map (fun i => (colCode (i % 32) (i / 32), 1))
      ++ (List.range 32).map (fun i => (scaleVa 0xA8 i, 2)) ++ (List.range 32).map (fun i => (scaleVa 0xB0 i, 2))
    let offs : List Nat := cells.flatMap fun e => (List.range e.2).map fun i => off e.1 + i
    (∀ r < 32, ∀ c < 32, btOut d (p + r) c = false → own (src r c) w ∧ vaPoison s k [] (src r c) w = false) →
    (∀ e ∈ cells, own e.1 e.2) → offs.Nodup →
    let x (r c : Nat) : Nat := if btOut d (p + r) c then 0 else leNat (spadBytes s k (off (src r c)) w)
    ∃ (rs cs : Nat → Nat × (Nat → Nat) × Cnt) (u : State),
      (∀ r < 32, QuantisedGroup f (fun c => x r c) (rs r).1 (rs r).2.1 (rs r).2.2)
      ∧ (∀ c < 32, QuantisedGroup f (fun r => x r c) (cs c).1 (cs c).2.1 (cs c).2.2)
      ∧ (∀ r < 32, ∀ c < 32, wr r c = true →
          memByte u (k * 2 ^ 21 + off (rowCode r c)) = BitVec.ofNat 8 ((rs r).2.1 c)
          ∧ memByte u (k * 2 ^ 21 + off (colCode r c)) = BitVec.ofNat 8 ((cs c).2.1 r))
      ∧ (∀ i < 32, ∀ j < 2, memByte u (k * 2 ^ 21 + off (scaleVa 0xA8 i) + j) = BitVec.ofNat 8 ((rs i).1 / 256 ^ j)
          ∧ memByte u (k * 2 ^ 21 + off (scaleVa 0xB0 i) + j) = BitVec.ofNat 8 ((cs i).1 / 256 ^ j))
      ∧ (∀ a, (∀ o ∈ offs, a ≠ k * 2 ^ 21 + o) → memByte u a = memByte s a)
      ∧ (u.core k).stats = (s.core k).stats.add (btStid d) (sumCnt ((List.range 32).map fun i => ⟨0, (rs i).2.2.plus (cs i).2.2⟩))
      ∧ let n := { m with pos := m.pos + 1024, bytes := m.bytes + offs.length }
        exec (.bteCommandRetire k m.seq ⟨1, 0⟩) s = .next
          (if btTotal d ≤ n.pos then retireCmd (setCmd u k n) k n 1 0 n.bytes else setCmd u k n)

end Sys2Proof.Claims

/-- The walk of a block transfer, its unit moves, and quantise-on-copy. -/
def Obligations.BlockTransfers : Prop :=
  Claims.BlockTransferWalk ∧ Claims.BlockTransferMoves ∧ Claims.QuantisedTile

namespace Sys2Proof.Claims

/-- A running command of a core's seed engine. -/
def seedRuns (s : State) (k : Nat) (m : Cmd) : Prop :=
  (s.core k).run = .running ∧ (s.core k).cmd? m.seq = some m ∧ m.eng = .seed ∧ m.started = true ∧ m.walk = false ∧ m.ended = none

/-- A core can access n bytes through translations that its die holds. -/
def Held (s : State) (k : Nat) (va : Word) (n : Nat) (need : Need) (xl : List Xl) : Prop := engCheck s k va n need = (s, .ok xl)

/-- The same command, whatever it has come to. -/
def sameCmd (m m' : Cmd) : Prop := m'.seq = m.seq ∧ m'.eng = m.eng ∧ m'.ccw = m.ccw ∧ m'.op = m.op ∧ m'.po = m.po

/-- The state with the frontier of core k's log at f. -/
def withFrontier (s : State) (k f : Nat) : State := s.setCore k { s.core k with sd := { (s.core k).sd with fr := w64 f } }

/-- 16_seed.md R278, R279, R282: the record that `sd.emit` writes is present for its SEQ, overwritten for a smaller one and absent for a larger;
VOID is set, with G zero, where the value is not finite or VOID is asked for. The command writes it at its VA, with the SEQ of its step, rank and
probe, and retires. R283: a gap whose end lies before the frontier, or more than 2^20 after it, retires with 0xA2. -/
def SeedEmits : Prop :=
  (∀ (rk : Word) (seq g rank probe step : Nat) (void : Bool) (q : Nat), seq < 2 ^ 64 → q < 2 ^ 64 →
    let r := recordOf rk seq g rank probe step void
    r.length = 32 ∧ (slotState r q = .present ↔ q = seq) ∧ (q < seq → slotState r q = .overwritten) ∧ (seq < q → slotState r q = .absent)
    ∧ leNat ((r.drop 8).take 8) = (seedOf rk (w64 seq)).toNat
    ∧ (leNat ((r.drop 0x17).take 1) = 3 ↔ void = true ∨ ∀ n a b e, fp32.val g ≠ .fin n a b e))
  ∧ ∀ (s : State) (k : Nat) (m : Cmd), seedRuns s k m →
    let sd := (s.core k).sd
    let v := cmdReg m 3
    let ranks := wbits sd.cfg 8 16 + 1
    let probes := wbits sd.cfg 24 8 + 1
    let step := wbits (cmdReg m 2) 32 32
    let seq := step * (ranks * probes) + wbits v 0 16 * probes + wbits v 16 8
    (m.op.op = 1 → (s.core k).copy = none → ∀ s1 xl, engAccess s k m (cmdReg m 1) 32 { w := true } m.bytes = .ok s1 xl →
      ∃ u, Wrote k xl (cmdReg m 1)
          (recordOf sd.rk seq (wbits (cmdReg m 2) 0 32) (wbits v 0 16) (wbits v 16 8) step (wbits v 24 1 == 1)) s1 u
        ∧ exec (.sdCommandRetire k m.seq) s = .next (retireCmd u k m 1 0 32))
    ∧ (m.op.op = 3 → (∃ w, logWin s k = some w) →
        let hi := (cmdReg m 2).toNat
        hi < sd.fr.toNat ∨ sd.fr.toNat + 2 ^ 20 < hi → exec (.sdCommandRetire k m.seq) s = .next (retireCmd s k m 2 0xA2 hi))

/-- 16_seed.md R283: a gap scan reads the slots from the frontier on: f is the first missing SEQ, and n the first present one after it, HI where there
is none. The report takes both, the frontier moves to f, and the command retires with 16 bytes. -/
def SeedGapFound : Prop :=
  ∀ (s : State) (k : Nat) (m : Cmd) (win : Win) (xl : Nat → List Xl) (yl : List Xl) (f n : Nat), seedRuns s k m → m.op.op = 3 →
    logWin s k = some win → (s.core k).copy = none → m.pos = 0 → m.memo = [] →
    let fr := (s.core k).sd.fr.toNat
    let hi := (cmdReg m 2).toNat
    let slot (q : Nat) : Word := slotVa win (s.core k).rank q
    let present (q : Nat) : Prop := slotState (vaBytes s k (xl q) (slot q) 32) q = .present
    (∀ q, fr ≤ q → q < hi → Held s k (slot q) 32 { r := true } (xl q) ∧ vaPoison s k (xl q) (slot q) 32 = false) →
    Held s k (cmdReg m 1) 16 { w := true } yl → hi ≤ fr + 2 ^ 20 → fr ≤ f → f ≤ hi → n ≤ hi →
    (∀ q, fr ≤ q → q < f → present q) → (f < hi → ¬ present f) → (n < hi → f < n ∧ present n) → (∀ q, f < q → q < n → ¬ present q) →
    ∃ u m', Wrote k yl (cmdReg m 1) (leBytes 8 f ++ leBytes 8 n) s u ∧ sameCmd m m'
      ∧ exec (.sdCommandRetire k m.seq) s = .next (retireCmd (withFrontier u k f) k m' 1 0 16)

/-- 16_seed.md R284: a fetch passes its SEQs in order. One that the own log holds is passed over; otherwise the record of the first named peer that is
not lost and holds it is placed in the own slot; where no peer holds it, the command ends with 0xA1 if some peer has found it corrupt, with 0xA0 if
none of them may still come to hold it, and else goes on. It retires with the count of records placed. -/
def SeedFetches : Prop :=
  ∀ (s : State) (k : Nat) (m : Cmd) (win : Win) (xl yl : List Xl) (j : Nat → Nat) (zl : Nat → List Xl), seedRuns s k m → m.op.op = 4 →
    logWin s k = some win → (s.core k).copy = none → m.memo = [] →
    let q := (cmdReg m 1).toNat + m.pos
    let run (s : State) := exec (.sdCommandRetire k m.seq) s
    let passes (u : State) (placed : Nat) : Prop := run s = run (setCmd u k { m with pos := m.pos + 1, bytes := m.bytes + placed })
    let v := cmdReg m 3
    let peers : List Nat := tabulate (fun i => wbits v (20 * i) 20) (wbits v 60 2)
    let own := slotVa win (s.core k).rank q
    let far (p : Nat) : List Byte := vaBytes s (j p) (zl p) (slotVa win p q) 32
    let asked (p : Nat) : Prop := p ∈ peers ∧ p ∉ lostOf s k
    ((cmdReg m 2).toNat ≤ m.pos → run s = .next (retireCmd s k m 1 0 m.bytes))
    ∧ (m.pos < (cmdReg m 2).toNat → Held s k own 32 { r := true } xl → vaPoison s k xl own 32 = false →
        (slotState (vaBytes s k xl own 32) q = .present → passes s 0)
        ∧ (slotState (vaBytes s k xl own 32) q ≠ .present →
            (∀ p, asked p → (membersOf s k)[p]? = some (j p) ∧ winAccess s (j p) win (slotVa win p q) 32 { r := true } = (s, .ok (zl p))
              ∧ vaPoison s (j p) (zl p) (slotVa win p q) 32 = false) →
            (∀ l p r, peers = l ++ p :: r → asked p → slotState (far p) q = .present →
              (∀ o ∈ l, asked o → slotState (far o) q ≠ .present) → Held s k own 32 { w := true } yl →
              ∃ u, Wrote k yl own (far p) s u ∧ passes u 1)
            ∧ ((∀ p, asked p → slotState (far p) q ≠ .present) →
                ((∃ p, asked p ∧ slotState (far p) q = .corrupt) → run s = .next (retireCmd s k m 2 0xA1 q))
                ∧ ((∀ p, asked p → slotState (far p) q = .overwritten) → run s = .next (retireCmd s k m 2 0xA0 q))
                ∧ ((∀ p, asked p → slotState (far p) q ≠ .corrupt) → (∃ p, asked p ∧ slotState (far p) q = .absent) → passes s 0))))

/-- A weight after an entry of the log (16_seed.md R286): eta, the multiplier and the scale sg, the element's number i. -/
def weightAfter (eta ctl : Nat) (sg : FV) (i w : Nat) (e : List Nat) : Nat :=
  match e with
  | seed :: g :: _ =>
    let c := rne fp32 (FV.mul (FV.mul (fp32.val eta) (fp32.val g)) (FV.mul (FV.ofInt (ctl / 2 ^ 24 % 16)) sg))
    let h := grt (w64 seed) (BitVec.ofNat 24 ctl) 0 (BitVec.ofNat 32 i)
    let z : Int := if ctl / 2 ^ 28 % 2 = 1 then (popcount 8 (h.toNat / 2 ^ 24) : Int) - popcount 8 (h.toNat / 2 ^ 16 % 256)
      else if h.getLsbD 31 then -1 else 1
    rne fp32 (FV.add false (fp32.val w) (FV.neg (fp32.val (rne fp32 (FV.mul (fp32.val c) (FV.ofInt z))))))
  | _ => w

/-- 16_seed.md R285, R286: a replay opens: its descriptor is checked, the lowest failing offset ends it with 0x02; the records from NEXT on, at most
256 and below s1, are read up to the first that is missing; a corrupt one ends it with 0xA1, with nothing written. -/
def SeedApplyOpens : Prop :=
  ∀ (s : State) (k : Nat) (m : Cmd) (win : Win) (xl : List Xl) (yl : Nat → List Xl) (e : Nat), seedRuns s k m → m.op.op = 2 → logWin s k = some win →
    m.memo = [] → m.sub = [] → Held s k (cmdReg m 1) 64 { r := true } xl → vaPoison s k xl (cmdReg m 1) 64 = false →
    let run (s : State) := exec (.sdCommandRetire k m.seq) s
    let bs := vaBytes s k xl (cmdReg m 1) 64
    let f (o n : Nat) : Nat := leNat ((bs.drop o).take n)
    let ctl := f 0x18 8
    let fails (o : Nat) : Prop :=
      (o = 0x00 ∧ f 0 8 % 4 ≠ 0) ∨ (o = 0x10 ∧ (f 0x10 4 = 0 ∨ 2 ^ 32 < f 0x10 4 * f 0x14 4)) ∨ (o = 0x14 ∧ f 0x14 4 = 0)
      ∨ (o = 0x18 ∧ (ctl / 2 ^ 31 ≠ 0 ∨ ctl / 2 ^ 29 % 4 = 3 ∨ ctl / 2 ^ 24 % 16 = 0 ∨ ctl % 2 ^ 24 = 0))
      ∨ (o = 0x24 ∧ f 0x24 4 ≠ 0) ∨ (o = 0x30 ∧ f 0x30 16 ≠ 0)
    let s0 := f 0x28 8
    let s1 := (cmdReg m 2).toNat
    let last := min s1 (s0 + 256)
    let slot (q : Nat) : Word := slotVa win (s.core k).rank q
    let record (q : Nat) : List Byte := vaBytes s k (yl q) (slot q) 32
    let entry (q : Nat) : List Nat :=
      if leNat ((record q).drop 0x17 |>.take 1) / 2 % 2 = 1 then []
      else [leNat ((record q).drop 8 |>.take 8), leNat ((record q).drop 0x10 |>.take 4)]
    (∀ o, fails o → (∀ p < o, ¬ fails p) → run s = .next (retireCmd s k m 2 0x02 o))
    ∧ ((∀ o, ¬ fails o) →
      (s1 < s0 → run s = .next (retireCmd s k m 2 0xA2 s1))
      ∧ (s0 ≤ e → e ≤ last →
        (∀ q, s0 ≤ q → q ≤ e → q < last → Held s k (slot q) 32 { r := true } (yl q) ∧ vaPoison s k (yl q) (slot q) 32 = false) →
        (∀ q, s0 ≤ q → q < e → slotState (record q) q = .present) →
        (e < last → slotState (record e) e = .corrupt → ∃ m', sameCmd m m' ∧ run s = .next (retireCmd s k m' 2 0xA1 e))
        ∧ (e = last ∨ (slotState (record e) e ≠ .corrupt ∧ slotState (record e) e ≠ .present) →
            run s = run (setCmd s k { m with
              memo := bs.map BitVec.toNat :: (List.range (e - s0)).map (fun i => entry (s0 + i)), sub := [1] }))))

/-- 16_seed.md R286: an opened replay, whose descriptor and entries stand in the command, takes the weights in order, each with every entry in turn
under its group's scale; then it writes NEXT, moves the frontier where that is lower, and retires with the count of entries. -/
def SeedApplyRuns : Prop :=
  ∀ (s : State) (k : Nat) (m : Cmd) (win : Win) (desc : List Nat) (es : List (List Nat)) (xl zl : List Xl) (sg : FV), seedRuns s k m → m.op.op = 2 →
    logWin s k = some win → m.memo = desc :: es → m.sub = [1] → (s.core k).copy = none →
    let run (s : State) := exec (.sdCommandRetire k m.seq) s
    let f (o n : Nat) : Nat := leNat (((desc.map (BitVec.ofNat 8)).drop o).take n)
    let ndim := f 0x14 4
    let ctl := f 0x18 8
    let i := m.pos
    let wVa := w64 (f 0 8 + 4 * i)
    let sVa := w64 (f 8 8 + 2 * (i / ndim / (32 * 2 ^ (ctl / 2 ^ 29 % 4)) * ndim + i % ndim))
    let total := f 0x10 4 * ndim
    let last := f 0x28 8 + es.length
    (i < total → Held s k wVa 4 { r := true, w := true } xl → vaPoison s k xl wVa 4 = false →
      (f 8 8 = 0 ∧ sg = .fin false 1 1 0) ∨ (f 8 8 ≠ 0 ∧ Held s k sVa 2 { r := true } zl ∧ vaPoison s k zl sVa 2 = false
        ∧ sg = fp16.val (leNat (vaBytes s k zl sVa 2))) →
      ∃ u, Wrote k xl wVa (leBytes 4 (es.foldl (weightAfter (f 0x20 4) ctl sg i) (leNat (vaBytes s k xl wVa 4)))) s u
        ∧ run s = run (setCmd u k { m with pos := i + 1, bytes := m.bytes + 4 }))
    ∧ (total ≤ i → Held s k (cmdReg m 1 + 0x28) 8 { w := true } xl →
      ∃ u, Wrote k xl (cmdReg m 1 + 0x28) (leBytes 8 last) (setCmd s k m) u
        ∧ run s = .next (retireCmd (withFrontier u k (max (s.core k).sd.fr.toNat last)) k m 1 0 es.length))

end Sys2Proof.Claims

/-- Records, gaps, fetches and replays of the seed engine. -/
def Obligations.SeedRecords : Prop :=
  Claims.SeedEmits ∧ Claims.SeedGapFound ∧ Claims.SeedFetches ∧ Claims.SeedApplyOpens ∧ Claims.SeedApplyRuns

/-! ### Link, Weir and Quern events -/

namespace Sys2Proof.Claims

/-- A running command of a core's link engine. -/
def linkRuns (s : State) (k : Nat) (m : Cmd) : Prop :=
  (s.core k).run = .running ∧ (s.core k).cmd? m.seq = some m ∧ m.eng = .link ∧ m.started = true ∧ m.walk = false ∧ m.done = none

end Sys2Proof.Claims

/-- 14_link.md R258, R260, R261: a put copies its bytes from the sender's address to the window of its target, a get the other way; when all of
them have moved, the target's RCV (of a put) and the own SND rise by one, each with its core's EV, and the command is done, and then retires. With
REL the counters wait for the earlier events of the AP (04_memory.md R95, log entry 31). A lost member's transfers to itself go on (R255). -/
def Obligations.LinkTransfersRun : Prop :=
  (∀ (s : State) (k : Nat) (m : Cmd) (j rank len : Nat) (w : Win) (put : Bool), linkRuns s k m → transferOf s k m = some (j, rank, w, len) →
    (rank ∈ lostOf s k → (s.core k).rank = rank) → (s.core k).copy = none → (s.core j).copy = none → m.op.op = (if put then 0 else 1) →
    let held (u : State) : Prop := wbits m.ccw 13 1 = 1 ∧ earlierDone (u.core k) m = false
    let counted (u : State) : State := bumpCounter (if put then bumpCounter u j w 0 1 else u) k w 1 1
    (∀ n, len ≤ m.pos → let i : Instr := if put then .linkPutDelivery k m.seq n else .linkGetComplete k m.seq n
      (held s → exec i s = .next (setCmd s k m)) ∧ (¬ held s → exec i s = .next (setCmd (counted s) k { m with done := some 0 })))
    ∧ ∀ n, 0 < n → m.pos < len →
    let b := min n (len - m.pos)
    let near := cmdReg m 1 + w64 m.pos
    let far := winVa w rank ((cmdReg m 2).toNat + m.pos)
    let past := { m with pos := m.pos + b, bytes := m.bytes + b }
    let i : Instr := if put then .linkPutDelivery k m.seq n else .linkGetComplete k m.seq n
    ∀ s1 s2 nx fx, engAccess s k m near b (if put then { r := true } else { w := true }) m.bytes = .ok s1 nx →
      farAccess s1 k m j w far b (if put then { w := true } else { r := true }) = .ok s2 fx →
      vaPoison s2 (if put then k else j) (if put then nx else fx) (if put then near else far) b = false →
      ∃ u, (if put then Wrote j fx far (vaBytes s2 k nx near b) s2 u else Wrote k nx near (vaBytes s2 j fx far b) s2 u)
        ∧ (m.pos + b < len ∨ held u → exec i s = .next (setCmd u k past))
        ∧ (len ≤ m.pos + b → ¬ held u → exec i s = .next (setCmd (counted u) k { past with done := some 0 })))
  ∧ (∀ (s : State) (k : Nat) (m : Cmd) (c : Nat), (s.core k).cmd? m.seq = some m → m.eng = .link → m.done = some c →
      (m.ended = none → exec (.linkCommandRetire k m.seq) s = .next (retireCmd s k m (if c = 0 then 1 else 2) c m.bytes))
      ∧ ∀ st ca n, m.ended = some (st, ca, n) → exec (.linkCommandRetire k m.seq) s = .next (retireCmd s k m st ca n))
  ∧ ∀ (s : State) (k snd n : Nat) (w : Win), w.cnt + 16 ≤ 2 ^ 21 → snd < 2 →
      let t := bumpCounter s k w snd n
      let word (s : State) (o : Nat) : Nat := leNat (spadBytes s k o 8)
      word t (w.cnt + 8 * snd) = (word s (w.cnt + 8 * snd) + n) % 2 ^ 64 ∧ word t (w.cnt + 8 * (1 - snd)) = word s (w.cnt + 8 * (1 - snd))
      ∧ (t.core k).ev = true ∧ ∀ a, (a < k * 2 ^ 21 + w.cnt ∨ k * 2 ^ 21 + w.cnt + 16 ≤ a) → memByte t a = memByte s a

namespace Sys2Proof.Claims

/-- A running region without copies whose members are all its own, each a core of its own. -/
def plainRegion (s : State) (r : Nat) (g : Region) : Prop :=
  s.region? r = some g ∧ g.st = .running ∧ g.copies = [] ∧ g.members ≠ [] ∧ g.members.Nodup
  ∧ ∀ j ∈ g.members, (s.core j).run = .running ∧ (s.core j).rid = r ∧ (s.core j).copy = none

/-- What a step that answers the words of some cores leaves alone: memory, and every core outside the list but for nothing. -/
def AnswersCores (s t : State) (cores : List Nat) (f : Nat → Core) : Prop :=
  (∀ a, memByte t a = memByte s a) ∧ (∀ j ∈ cores, t.core j = f j) ∧ (∀ j, j ∉ cores → t.core j = s.core j)
  ∧ { t with cores := s.cores } = s

/-- 14_link.md R255, R264, R265, R269, R270: a barrier that every member stands at, with its earlier events performed and, for `cx.sbar`, its puts
and gets retired, answers 0 to each; members that stand at the two kinds get 0x02; with a lost member each gets 0x7A. A notice of an attempt that
another member has reached, and that has left its AP (05_ap_model.md R117), ends an older one at a member: its number becomes the notice's, its
count of collectives 0, and a barrier it waits at answers 0x78. -/
def CollectivesEnd : Prop :=
  (∀ (s : State) (r : Nat) (g : Region) (n a : Nat) (sb : Nat → Bool) (f : Nat → Nat), plainRegion s r g →
    (∀ j ∈ g.members, (s.core j).pend = some { kind := .bar (sb j) n a, from_ := f j } ∧ f j ≤ (s.core j).cycle) →
    let arrived : Prop := ∀ j ∈ g.members, let c := s.core j
      c.main.rq = [] ∧ c.main.wq = [] ∧ (sb j = true → ∀ m ∈ c.cmds, ¬ (m.eng = .link ∧ (m.op.op = 0 ∨ m.op.op = 1)))
    let ends (v : Word) : Prop := ∃ t, exec (.barrierComplete r) s = .next t
      ∧ AnswersCores s t g.members fun j => { s.core j with pend := some { kind := .bar (sb j) n a, res := some (.value v), from_ := f j } }
    (lostIn g none = [] → arrived → (∀ i ∈ g.members, ∀ j ∈ g.members, sb i = sb j) → ends 0)
    ∧ (lostIn g none = [] → arrived → (∃ i ∈ g.members, ∃ j ∈ g.members, sb i ≠ sb j) → ends 2)
    ∧ (lostIn g none = [] → ¬ arrived → (∀ j ∈ g.members, ∀ m ∈ (s.core j).cmds, ¬ (m.eng = .link ∧ (m.op.op = 4 ∨ m.op.op = 5))) →
        Idle (.barrierComplete r) s)
    ∧ (lostIn g none ≠ [] → (∀ j ∈ g.members, (s.core j).cmds = []) → ends 0x7A))
  ∧ (∀ (s : State) (r rank : Nat) (g : Region), plainRegion s r g → (none, rank) ∉ g.lost → (∀ j ∈ g.members, (s.core j).cmds = [] ∧ (s.core j).pend = none) →
      RegionBecomes (.cxMemberLost r (none, rank)) s r { g with lost := g.lost ++ [(none, rank)] })
  ∧ (∀ (s : State) (k a : Nat), (∀ j ∈ membersOf s k, j ≠ k → (s.core j).lk.att = BitVec.ofNat 8 a ∧ (s.core j).cycle < (s.core j).lk.out) →
      Idle (.abortNotice k a) s)
  ∧ ∀ (s : State) (k a : Nat), (s.core k).run = .running → (∃ j ∈ membersOf s k, j ≠ k ∧ ((s.core j).lk.att - BitVec.ofNat 8 a).toNat ≤ 127
        ∧ ((s.core j).lk.att ≠ BitVec.ofNat 8 a ∨ (s.core j).lk.out ≤ (s.core j).cycle)) →
      let c := s.core k
      let d := (BitVec.ofNat 8 a - c.lk.att).toNat
      (∀ m ∈ c.cmds, ¬ (m.eng = .link ∧ (m.op.op = 4 ∨ m.op.op = 5) ∧ m.done = none)) →
      (1 ≤ d ∧ d ≤ 127 → (c.pend = none → CoreBecomes (.abortNotice k a) s k { c with lk := { att := BitVec.ofNat 8 a, k := 0 } })
        ∧ ∀ b n t f, c.pend = some { kind := .bar b n t, from_ := f } → CoreBecomes (.abortNotice k a) s k { c with
            lk := { att := BitVec.ofNat 8 a, k := 0 }, pend := some { kind := .bar b n t, res := some (.value 0x78), from_ := f } })
      ∧ (d = 0 ∨ 128 ≤ d → Idle (.abortNotice k a) s)

/-- 14_link.md R266, R267: the fixed tree. A reduction in MODE 0 of INT64 sums whose members hold one contributor each gives, in each element, the sum
of all of them modulo 2^64; whatever the type, one with two contributors combines the lower with the higher, and with one gives it, every NaN of a
float type as the canonical one (03_numbers.md R53). -/
def ReductionTree : Prop :=
  (∀ (v : Nat → List Nat) (nt n : Nat), 0 < nt → nt ≤ 2 ^ 32 → (∀ i < nt, (v i).length = n ∧ ∀ x ∈ v i, x < 2 ^ 64) →
    let res := redResult ⟨nt, n, 0, 3, 0⟩ ((List.range nt).map fun i => (i, 1, v i)) []
    res.length = n ∧ ∀ e < n, res.getD e 0 = ((List.range nt).map fun i => (v i).getD e 0).sum % 2 ^ 64)
  ∧ ∀ (a b : List Nat) (n ty op : Nat), op < 3 →
      let canon (e : Nat) : Nat := if ty ≠ 3 ∧ ((redFmt ty).val e).isNan then (redFmt ty).nanBits else e
      redResult ⟨2, n, op, ty, 0⟩ [(0, 1, a), (1, 1, b)] [] = (List.zipWith (redOp ⟨2, n, op, ty, 0⟩) a b).map canon
      ∧ redResult ⟨1, n, op, ty, 0⟩ [(0, 1, a)] [] = a.map canon

/-- 14_link.md R265, R266: a reduction that every member of a region has started, and whose parts match, can be read and can be written, writes its
result at each member's destination and is done there; of a region of one member, the bytes at its destination are those of the result. -/
def ReductionsComplete : Prop :=
  ∀ (s s1 : State) (r : Nat) (g : Region) (l : List (Nat × Coll)) (rest : List (List (Nat × Coll))) (p0 : Nat × Cmd × List Nat × List Xl)
    (ps : List (Nat × Cmd × List Nat × List Xl)) (order : List Nat), plainRegion s r g → lostIn g none = [] →
    (g.members.flatMap fun j => collNums (s.core j) 4).filterMap (fun e => allColl s g.members e.1 e.2) = l :: rest →
    collMismatch (l.map fun e => e.2) = none → (∀ e ∈ l, ∃ m, e.2 = .red m ∧ m.walk = false) → redParts l s l [] = .inr (s1, p0 :: ps) →
    let sh := redShape (cmdReg p0.2.1 4)
    let result := vecBytes (redWidth sh) (redResult sh ((p0 :: ps).map fun p => ((redRange p.2.1).1, (redRange p.2.1).2, p.2.2.1)) order)
    let ended (m : Cmd) : Cmd := { m with done := some 0, bytes := sh.n * redWidth sh }
    exec (.reductionComplete r order) s = .next ((p0 :: ps).foldl
      (fun s p => setCmd (vaStore s p.1 p.2.2.2 (cmdReg p.2.1 2) result) p.1 (ended p.2.1)) s1)
    ∧ (ps = [] → (s1.core p0.1).copy = none → ∃ u, exec (.reductionComplete r order) s = .next (setCmd u p0.1 (ended p0.2.1))
        ∧ Wrote p0.1 p0.2.2.2 (cmdReg p0.2.1 2) result s1 u)

end Sys2Proof.Claims

/-- The reduction tree and the completion of a reduction. -/
def Obligations.Reductions : Prop :=
  Claims.ReductionTree ∧ Claims.ReductionsComplete

namespace Sys2Proof.Claims

/-- 14_link.md R268, R270: an item of a matched gather goes to the slot that its first word names, modulo the window's slots, of the window at the
member it is placed at; that member's RCV rises, and the command is done when every item is at every member. At a member that holds a newer attempt
it is dropped. With REL items wait for the earlier events of the AP (04_memory.md R95, log entry 31). -/
def GathersPlace : Prop :=
  ∀ (s : State) (k rank j : Nat) (m : Cmd) (win : Win), linkRuns s k m → m.op.op = 5 → lostOf s k = [] →
    (m.pos = 0 → membersOf s k = [k] → (s.core k).pend = none → (s.core k).cmds = [m] →
      exec (.gatherItemPlace k m.seq rank) s = .next (setCmd s k { m with
        pos := 1, sub := [0], done := if (cmdReg m 3).toNat = 0 then some 0 else none }))
    ∧ (m.pos = 1 → wbits m.ccw 13 1 = 1 → earlierDone (s.core k) m = false → Idle (.gatherItemPlace k m.seq rank) s)
    ∧ (m.pos = 1 → wbits m.ccw 13 1 = 0 ∨ earlierDone (s.core k) m = true → (membersOf s k)[rank]? = some j → (s.core j).copy = none → winOf s k (wbits (cmdReg m 2) 0 8) = some win →
      let w := gathWidth (cmdReg m 2)
      let i := m.sub.getD rank 0
      let n := (cmdReg m 3).toNat
      let src := cmdReg m 1 + w64 (w * i)
      i < n → ∀ s1 xl, engCheck s k src w { r := true } = (s1, .ok xl) → vaPoison s1 k xl src w = false →
      let item := vaBytes s1 k xl src w
      let va := winVa win rank (leNat (item.take 8) % (win.len / w) * w)
      (128 ≤ (BitVec.ofNat 8 m.att - (s1.core j).lk.att).toNat → exec (.gatherItemPlace k m.seq rank) s = .next s1)
      ∧ ((s1.core j).lk.att = BitVec.ofNat 8 m.att → ∀ s2 yl, winAccess s1 j win va w { w := true } = (s2, .ok yl) →
      ∃ u, Wrote j yl va item s2 u
        ∧ let sub := m.sub.set rank (i + 1)
          exec (.gatherItemPlace k m.seq rank) s = .next (setCmd (bumpCounter u j win 0 1) k { m with
            sub := sub, bytes := w * sub.getD (s.core k).rank 0, done := if ∀ e ∈ sub, e = n then some 0 else none })))

end Sys2Proof.Claims

/-- Barriers complete or end; gather items are placed. -/
def Obligations.CollectivesComplete : Prop :=
  Claims.CollectivesEnd ∧ Claims.GathersPlace

/-- 18_weir.md R293, R294, R300-R302: the first window of a loop of N iterations is its lowest indices, as many as N, the window size and 256 slots
a core allow. A `wl.open`, a `wl.round` and a `wl.close` that every member stands at, its earlier accesses performed, complete for all of them: each
gets the indices of the window that are its rank modulo the members, and its count of them; a round's second half deals the indices that are not
done and fresh ones; a close frees the loop. That `wl.open` leaves WALIAS as it was is the model's reading (log entry 30). -/
def Obligations.WeirBarriersComplete : Prop :=
  (∀ n w c, 0 < c → formWindow n w c (w + 1) [] 0 [] = (List.range (min n (min w (256 * c))), min n (min w (256 * c))))
  ∧ ∀ (s : State) (r : Nat) (g : Region) (out : Nat → Nat), plainRegion s r g →
    let held (p : PendKind) : Prop := ∀ j ∈ g.members, let c := s.core j
      c.pend = some { kind := p, from_ := out j } ∧ out j ≤ c.cycle ∧ c.main.rq = [] ∧ c.main.wq = []
    let ends (loop : Option WLoop) (f : Nat → Core) : Prop := ∃ t, exec (.wlBarrierComplete r) s = .next t
      ∧ (∀ a, memByte t a = memByte s a) ∧ (∀ j ∈ g.members, t.core j = f j) ∧ (∀ j, j ∉ g.members → t.core j = s.core j)
      ∧ t.region? r = some { g with loop := loop } ∧ (∀ q, q ≠ r → t.region? q = s.region? q)
    let dealt (win : List Nat) (wst : BitVec 3) (lid : BitVec 16) (j : Nat) : Core → Prop := fun c' =>
      let mine := win.filter fun i => i % g.members.length == (s.core j).rank
      let wl := (s.core j).wl
      ∃ widx, c' = { s.core j with
          wl := { wl with wst := wst, wlid := lid, wn := mine.length, wslot := none, wdone := 0, widx := widx }
          pend := (s.core j).pend.map fun p => { p with res := some (.value (w64 (mine.length + if wst = 3 then 2 ^ 63 else 0))) } }
        ∧ ∀ i < mine.length, smGet 0 widx i = BitVec.ofNat 48 (mine.getD i 0)
    (∀ lid w n, held (.wlOpen lid w n) →
      let f := formWindow n w g.members.length (w + 1) [] 0 []
      ∃ t, exec (.wlBarrierComplete r) s = .next t ∧ (∀ a, memByte t a = memByte s a)
        ∧ (∀ j ∈ g.members, dealt f.1 1 (BitVec.ofNat 16 lid) j (t.core j)) ∧ (∀ j, j ∉ g.members → t.core j = s.core j)
        ∧ t.region? r = some { g with loop := some { lid := lid, n := n, w := w, window := f.1, e := f.2 } })
    ∧ (held .wlRound → (∃ l, g.loop = some l) → (∀ j ∈ g.members, (s.core j).wl.wst = 1) →
        ends g.loop fun j => { s.core j with
          wl := { (s.core j).wl with wst := 2, wslot := none }
          pend := some { kind := .wlRound, res := some (.value (w64 (s.core j).wl.wn)), from_ := out j } })
    ∧ (∀ l, held .wlRound → g.loop = some l → (∀ j ∈ g.members, (s.core j).wl.wst = 2 ∧ (s.core j).wl.walias = none) →
        let done (i : Nat) : Prop := ∃ j ∈ g.members, ∃ n, (l.window.filter fun q => q % g.members.length == (s.core j).rank)[n]? = some i
          ∧ (s.core j).wl.wdone.getLsbD n = true
        (∃ b rest, l.window = b :: rest ∧ done b) → ∃ left : List Nat, (∀ i, i ∈ left ↔ i ∈ l.window ∧ ¬ done i) ∧ left.Sublist l.window ∧
          let f := formWindow l.n l.w g.members.length (l.w + 1) [] l.e left
          ∃ t, exec (.wlBarrierComplete r) s = .next t ∧ (∀ a, memByte t a = memByte s a)
            ∧ (∀ j ∈ g.members, dealt f.1 (if f.1 = [] then 3 else 1) (BitVec.ofNat 16 l.lid) j (t.core j))
            ∧ (∀ j, j ∉ g.members → t.core j = s.core j) ∧ t.region? r = some { g with loop := some { l with window := f.1, e := f.2 } })
    ∧ (held .wlClose → ends none fun j => { s.core j with
        wl := { (s.core j).wl with wst := 0, wslot := none }, pend := some { kind := .wlClose, res := some (.value 0), from_ := out j } })

namespace Sys2Proof.Claims

/-- A running command of a cluster's Quern. -/
def quernRuns (s : State) (cl k : Nat) (m : Cmd) : Prop :=
  (s.quern cl).owner = some k ∧ (s.core k).cmds.find? (fun e => e.eng == .quern) = some m ∧ m.started = true ∧ m.walk = false ∧ m.aborted = false
  ∧ m.ended = none

/-- 20_quern.md R312-R318 with 01_machine.md R394: a colour phase takes 64 cycles, a sweep's commit 32. A phase updates together every p-bit of its
colour that is not clamped, from the states before it; a sweep of K phases ends with its moments where they are asked for, and the command with its
last sweep. A check of the colours clears the Quern for sweeps, or ends the command with 0x91 and the lowest p-bit at fault. A released Quern
becomes free. -/
def QuernSweeps : Prop :=
  (∀ (s : State) (cl k : Nat) (m : Cmd), quernRuns s cl k m →
    let q := s.quern cl
    let colours := wbits (cmdReg m 2) 16 3 + 1
    let c := m.sub.headD 0
    let after : Nat := m.due + if c + 1 < colours then 64 else 32
    (s.clock < m.due → Idle (.quernPhaseEnd cl) s ∧ Idle (.quernSweepEnd cl) s ∧ Idle (.quernColourCheck cl) s)
    ∧ (m.due ≤ s.clock → (m.op.op = 4 → m.done = none → q.checked = true → c < colours → m.op.m % 2 = 0 →
      let w := (wbits (cmdReg m 3) 0 32 + m.pos) % 2 ^ 32
      ∃ st, exec (.quernPhaseEnd cl) s = .next (setCmd (s.setQuern cl { q with st := st }) k { m with sub := [c + 1], due := after })
        ∧ ∀ i, smGet false st i =
            (if i < 16384 ∧ (smGet 0 q.col i).toNat = c ∧ smGet false q.cl i = false then
              decide (qnDraw (cmdReg m 1) w i < quernTab (qnIndex (wbits (cmdReg m 2) 0 16) (qnField q i)))
             else smGet false q.st i))
    ∧ (m.op.op = 4 → m.done = none → q.checked = true → c < colours → m.op.m % 2 = 1 → ∃ t q', exec (.quernPhaseEnd cl) s = .next t
        ∧ t = setCmd ({ s with freeCtr := s.freeCtr + 16384 }.setQuern cl q') k { m with sub := [c + 1], due := after }
        ∧ ∀ i, ¬ (i < 16384 ∧ (smGet 0 q.col i).toNat = c ∧ smGet false q.cl i = false) → smGet false q'.st i = smGet false q.st i)
    ∧ (m.op.op = 4 → m.done = none → colours ≤ c →
        exec (.quernSweepEnd cl) s = .next (setCmd (if m.op.m / 2 % 2 = 1 then s.setQuern cl (qnMoments q) else s) k { m with
          pos := m.pos + 1, bytes := m.pos + 1, sub := [0], due := m.due + 64, done := if wbits (cmdReg m 2) 32 32 ≤ m.pos + 1 then some 0 else none }))
    ∧ (m.op.op ≠ 4 → m.sub = [1] → m.done = none →
        let clash (i : Nat) : Prop := ∃ e, e ∈ q.nb ∧ e.1 / 24 = i ∧ smGet 0 q.col i = smGet 0 q.col e.2.1.toNat
        ((∀ i, ¬ clash i) → exec (.quernColourCheck cl) s = .next (setCmd (s.setQuern cl { q with checked := true }) k { m with done := some 0 }))
        ∧ (smRising 0 q.nb = true → ∀ i, clash i → (∀ j < i, ¬ clash j) → exec (.quernColourCheck cl) s =
            .next (setCmd (s.setQuern cl { q with checked := false }) k { m with done := some 0x91, bytes := i })))))
  ∧ (∀ (q : Quern), let u := qnMoments q
      u.st = q.st ∧ u.nb = q.nb ∧ u.mcnt.toNat = min (q.mcnt.toNat + 1) (2 ^ 32 - 1)
      ∧ ∀ i < 16384, (smGet 0 u.sum i).toInt = max (-(2 ^ 31)) (min (2 ^ 31 - 1) ((smGet 0 q.sum i).toInt + if smGet false q.st i then 1 else -1)))
  ∧ ∀ (s : State) (cl k : Nat), (s.quern cl).owner = some k → (s.quern cl).releasing = true → (∀ m ∈ (s.core k).cmds, m.eng ≠ .quern) →
      exec (.quernRelease cl) s = .next (s.setQuern cl { s.quern cl with owner := none, releasing := false })

/-- 20_quern.md R316, R325, R326: a load takes a record of 80 bytes for each p-bit of its range, and a colour a byte, once all are good: bias, colour,
edges, and the state, but that of a clamped p-bit, which is its clamp's value. The colour check follows where it is asked for; otherwise CHECKED is
cleared and the command retires. -/
def QuernLoads : Prop :=
  ∀ (s : State) (cl k : Nat) (m : Cmd), quernRuns s cl k m → m.done = none → (s.core k).run = .running → m.sub ≠ [1] →
    let q := s.quern cl
    let va := cmdReg m 1
    let first := wbits (cmdReg m 2) 16 14
    let n := wbits (cmdReg m 2) 0 15
    let run := exec (.quernCommandRetire ⟨cl, 0⟩) s
    ∀ (w : Nat) (s1 : State) (xl : List Xl), engAccess s k m va (n * w) { r := true } 0 = .ok s1 xl → vaPoison s1 k xl va (n * w) = false →
      let b (j o : Nat) : Nat := ((vaBytes s1 k xl va (n * w)).getD (w * j + o) 0).toNat
      let edge (j e : Nat) : Nat := b j (8 + 3 * e) + 256 * b j (9 + 3 * e)
      let takes (good : Nat → Prop) (ok : Quern → Prop) : Prop :=
        (∀ j < n, ¬ good j → (∀ i < j, good i) → run = .next (retireCmd s1 k m 2 0x02 j))
        ∧ ((∀ j < n, good j) → ∃ u : Quern, ok u ∧ u = { q with h := u.h, st := u.st, col := u.col, nb := u.nb }
            ∧ (m.op.m = 1 → run = .next (setCmd (s1.setQuern cl u) k { m with bytes := n, sub := [1], due := s1.clock + 1536 }))
            ∧ (m.op.m ≠ 1 → run = .next (retireCmd (s1.setQuern cl { u with checked := false }) k { m with bytes := n } 1 0 n)))
      (m.op.op = 1 → w = 80 → takes
        (fun j => b j 2 < 16 ∧ (∀ o < 5, b j (3 + o) = 0)
          ∧ ∀ e < 24, edge j e / 2 ^ 14 % 2 = 0 ∧ (edge j e / 2 ^ 15 = 0 → edge j e = 0 ∧ b j (10 + 3 * e) = 0))
        fun u =>
          (∀ j < n, (smGet 0 u.h (first + j)).toNat = b j 0 + 256 * b j 1 ∧ (smGet 0 u.col (first + j)).toNat = b j 2 % 8
            ∧ smGet false u.st (first + j) = (if smGet false q.cl (first + j) then smGet false q.cv (first + j) else b j 2 / 8 % 2 == 1)
            ∧ ∀ e < 24, smFind u.nb (24 * (first + j) + e) =
                if edge j e / 2 ^ 15 = 1 then some (BitVec.ofNat 14 (edge j e), BitVec.ofNat 8 (b j (10 + 3 * e))) else none)
          ∧ ∀ i, (i < first ∨ first + n ≤ i) → smGet 0 u.h i = smGet 0 q.h i ∧ smGet 0 u.col i = smGet 0 q.col i
              ∧ smGet false u.st i = smGet false q.st i ∧ ∀ e < 24, smFind u.nb (24 * i + e) = smFind q.nb (24 * i + e))
      ∧ (m.op.op = 2 → w = 1 → takes (fun j => b j 0 < 8) fun u => u.h = q.h ∧ u.st = q.st ∧ u.nb = q.nb
          ∧ (∀ j < n, (smGet 0 u.col (first + j)).toNat = b j 0) ∧ ∀ i, (i < first ∨ first + n ≤ i) → smGet 0 u.col i = smGet 0 q.col i)

/-- 20_quern.md R329: `pb.mom` writes every SUM, and where its second address is not zero every CORR, zero for an invalid edge, here into the own
scratchpad; with M = 1 all of them and MCNT are then zero. It retires with the sweeps that the moments hold. -/
def QuernMomentsGiven : Prop :=
  ∀ (s : State) (cl k : Nat) (m : Cmd) (o1 o2 : Nat), quernRuns s cl k m → m.done = none → (s.core k).run = .running → m.sub ≠ [1] → m.memo = [] →
    m.op.desc = 0 → m.op.op = 6 → vaSpace (cmdReg m 1) = 15 → spadOf s k (cmdReg m 1) = some (k, o1) → o1 + 65536 ≤ 2 ^ 21 →
    let q := s.quern cl
    let base := k * 2 ^ 21
    let word (u : State) (a : Nat) : Nat := leNat (tabulate (fun i => memByte u (a + i)) 4)
    let ends (bytes : Nat) (ok : State → Prop) : Prop := ∃ u, ok u
      ∧ u.quern cl = (if m.op.m = 1 then { q with sum := [], corr := [], mcnt := 0 } else q)
      ∧ exec (.quernCommandRetire ⟨cl, 0⟩) s = .next (retireCmd u k { m with bytes := m.bytes + bytes } 1 0 q.mcnt.toNat)
    (cmdReg m 2 = 0 → ends 65536 fun u => (∀ i < 16384, word u (base + o1 + 4 * i) = (smGet 0 q.sum i).toNat)
      ∧ ∀ a, (a < base + o1 ∨ base + o1 + 65536 ≤ a) → memByte u a = memByte s a)
    ∧ (cmdReg m 2 ≠ 0 → vaSpace (cmdReg m 2) = 15 → spadOf s k (cmdReg m 2) = some (k, o2) → o2 + 1572864 ≤ 2 ^ 21 →
        o1 + 65536 ≤ o2 ∨ o2 + 1572864 ≤ o1 → ends (65536 + 1572864) fun u =>
          (∀ i < 16384, word u (base + o1 + 4 * i) = (smGet 0 q.sum i).toNat)
          ∧ (∀ i < 16384, ∀ e < 24, word u (base + o2 + 96 * i + 4 * e)
              = if (smFind q.nb (24 * i + e)).isSome then (smGet 0 q.corr (24 * i + e)).toNat else 0)
          ∧ ∀ a, (a < base + o1 ∨ base + o1 + 65536 ≤ a) → (a < base + o2 ∨ base + o2 + 1572864 ≤ a) → memByte u a = memByte s a)

/-- 20_quern.md R319, R325-R328: a command that is done retires with its cause. A clamp takes a byte for each p-bit of its range, once all are good:
the p-bit is clamped and holds the value given. A read writes the state map. -/
def QuernCommands : Prop :=
  ∀ (s : State) (cl k : Nat) (m : Cmd), quernRuns s cl k m →
    let q := s.quern cl
    let va := cmdReg m 1
    let first := wbits (cmdReg m 2) 16 14
    let n := wbits (cmdReg m 2) 0 15
    (∀ c, m.done = some c → exec (.quernCommandRetire ⟨cl, 0⟩) s = .next (retireCmd s k m (if c = 0 then 1 else 2) c m.bytes))
    ∧ (m.done = none → (s.core k).run = .running → m.op.op = 4 → q.checked = false →
        exec (.quernCommandRetire ⟨cl, 0⟩) s = .next (retireCmd s k m 2 0x91 0))
    ∧ (m.done = none → (s.core k).run = .running → m.op.op = 3 → m.sub ≠ [1] → ∀ s1 xl, engAccess s k m va n { r := true } 0 = .ok s1 xl →
        vaPoison s1 k xl va n = false →
        let b (j : Nat) : Byte := (vaBytes s1 k xl va n).getD j 0
        (∀ j < n, 4 ≤ (b j).toNat → (∀ i < j, (b i).toNat < 4) → exec (.quernCommandRetire ⟨cl, 0⟩) s = .next (retireCmd s1 k m 2 0x02 j))
        ∧ ((∀ j < n, (b j).toNat < 4) → ∃ u : Quern, exec (.quernCommandRetire ⟨cl, 0⟩) s =
              .next (retireCmd (s1.setQuern cl u) k { m with bytes := n } 1 0 n)
            ∧ u.owner = q.owner ∧ u.nb = q.nb ∧ u.col = q.col ∧ u.checked = q.checked
            ∧ (∀ j < n, smGet false u.cl (first + j) = (b j).getLsbD 0 ∧ smGet false u.cv (first + j) = (b j).getLsbD 1
                ∧ smGet false u.st (first + j) = if (b j).getLsbD 0 then (b j).getLsbD 1 else smGet false q.st (first + j))
            ∧ ∀ i, (i < first ∨ first + n ≤ i) → smGet false u.st i = smGet false q.st i ∧ smGet false u.cl i = smGet false q.cl i))
    ∧ (m.done = none → (s.core k).run = .running → m.op.op = 5 → m.sub ≠ [1] → m.memo = [] → m.op.desc = 0 → vaSpace va = 15 →
        ∀ off, spadOf s k va = some (k, off) → off + 2048 ≤ 2 ^ 21 →
        ∃ u, exec (.quernCommandRetire ⟨cl, 0⟩) s = .next (retireCmd u k { m with bytes := m.bytes + 2048 } 1 0 2048)
          ∧ (∀ i < 16384, (memByte u (k * 2 ^ 21 + off + i / 8)).getLsbD (i % 8) = smGet false q.st i)
          ∧ ∀ a, (a < k * 2 ^ 21 + off ∨ k * 2 ^ 21 + off + 2048 ≤ a) → memByte u a = memByte s a)

end Sys2Proof.Claims

/-- The Quern's phases, sweeps, clamps, reads, loads, colours and moments. -/
def Obligations.QuernRuns : Prop :=
  Claims.QuernSweeps ∧ Claims.QuernCommands ∧ Claims.QuernLoads ∧ Claims.QuernMomentsGiven

/-! ### Regions -/

namespace Sys2Proof.Claims

/-- `t` is `s` with the bytes `bs` written from `va` upwards in a partition's translated space, through the translations `xl`. -/
def WroteXl (xl : List Xl) (va : Word) (bs : List Byte) (s t : State) : Prop :=
  (∀ (i : Nat) (b : Byte), bs[i]? = some b → ∀ a g, xlLoc xl (va + w64 i) = some (a, g) →
    (∀ j, i < j → j < bs.length → ∀ g', xlLoc xl (va + w64 j) ≠ some (a, g')) → memByte t a = b)
  ∧ ∀ a, (∀ i < bs.length, ∀ g, xlLoc xl (va + w64 i) ≠ some (a, g)) → memByte t a = memByte s a

/-- 21_scheduler.md R331, R332 with 04_memory.md R84: a submission to a virtual function that is up. A record that fails a check is Unsupported
Request, and a guest address that stage 2 refused is logged; with 4,096 regions of the channel unrecorded the answer is Retry; otherwise the region is
appended to the journal with the next number of the host's channel, which is written to its ACK word. -/
def SubmissionsAccepted : Prop :=
  ∀ (s : State) (vf : Nat) (rec : List Byte) (ide : Bool), vfUp s vf = true → ((s.part vf).tstate = .configUnlocked ∨ (s.part vf).tstate = .run ∧ ide = true) →
    let p := s.part vf
    let i : Instr := .submission vf rec ide
    let formed : Prop := rec.length = 64 ∧ leNat (rec.take 8) % 256 = 0 ∧ leNat ((rec.drop 8).take 8) % 8 = 0 ∧ ∀ b ∈ rec.drop 16, b = 0
    (∀ e, submissionRcb s vf rec = .error e →
      exec i s = .next { s with dev := { s.dev with s2log := s.dev.s2log ++ (e.bind LErr.gpa).toList, reply := .unsupported } })
    ∧ (¬ formed → submissionRcb s vf rec = .error none)
    ∧ (formed → ∀ x, partRead s vf (w64 (leNat (rec.take 8))) 256 = .error x → submissionRcb s vf rec = .error (some x))
    ∧ (formed → ∀ bs x, partRead s vf (w64 (leNat (rec.take 8))) 256 = .ok bs →
        partAcc s vf (w64 (leNat ((rec.drop 8).take 8))) 8 { w := true } = .error x → submissionRcb s vf rec = .error (some x))
    ∧ ∀ raw ack, submissionRcb s vf rec = .ok (raw, ack) →
      (4096 ≤ chanCount s vf none ∨ p.resetting = true → Answers i s .retry)
      ∧ (chanCount s vf none < 4096 → p.resetting = false → ∀ xl, partAcc s vf ack 8 { w := true } = .ok xl →
          ∃ t n, exec i s = .next t ∧ t.dev.reply = .success ∧ WroteXl xl ack (leBytes 8 p.nextSeq) s t
            ∧ t.region? s.nextRid = some n ∧ n.part = vf ∧ n.chan = none ∧ n.seq = p.nextSeq ∧ n.raw = raw ∧ n.st = .journal ∧ n.age = s.clock
            ∧ t.nextRid = s.nextRid + 1 ∧ (∀ q, q ≠ s.nextRid → t.region? q = s.region? q) ∧ t.part vf = { p with nextSeq := p.nextSeq + 1 }
            ∧ t.cores = s.cores)

/-- 21_scheduler.md R335-R337, R340: a region leaves the journal for the scoreboard of a die of its partition, while that has room, as the launch
checks leave it; the first that fails ends it with status 2, the cause and the offset (a guest address that stage 2 refused is logged), and so does
0xC1 where no set of cores could hold it. Among the first checks: the image's alignment, a submission's OVR, the privilege of its virtual function,
and a dual run that is not deterministic. R339: its time starts at TIMEB microseconds. That the event names the die, and the room that counts there,
is the model's choice (log entry 41); FADDR 0 for a misaligned KIMG whatever other field fails is its reading (log entry 42: of several failing
fields the lowest offset). -/
def LaunchChecks : Prop :=
  (∀ (s : State) (r die : Nat) (g : Region), s.region? r = some g → g.st = .journal → (s.part g.part).resetting = false →
    let i : Instr := .scoreboardEntry ⟨r, die⟩
    (1024 ≤ inScoreboard s g.part die ∨ (∀ cl ∈ (s.part g.part).clusters, cl / 8 ≠ die) → Idle i s)
    ∧ (inScoreboard s g.part die < 1024 → (∃ cl ∈ (s.part g.part).clusters, cl / 8 = die) →
      let on (n : Region) : Region := { n with die := die }
      (∀ n, launchChecks s g = .ok n → g.chan = none → couldPlace (s.setRegion r (on n)) n = true → RegionBecomes i s r (on n))
      ∧ (∀ n, launchChecks s g = .ok n → g.chan = none → couldPlace (s.setRegion r (on n)) n = false → ∃ f,
          exec i s = .next (finishRegion { s.setRegion r (on n) with freeCtr := s.freeCtr + 1 } r 2 0xC1 f))
      ∧ ∀ c fa gpa, launchChecks s g = .error ⟨c, fa, gpa⟩ → ∃ f, (∀ v, fa = some v → f = v)
          ∧ let t : State := { s with
              dev := { s.dev with s2log := s.dev.s2log ++ gpa.toList }, freeCtr := s.freeCtr + if fa.isNone then 1 else 0 }
            exec i s = .next (finishRegion (t.setRegion r { on g with rcb := effective g.raw (parentOf s g) }) r 2 c f)))
  ∧ ∀ (s : State) (g : Region), g.chan = none →
    let w := rcbRaw g.raw
    (w.kimg % 256 ≠ 0 → launchChecks s g = .error ⟨0x02, some 0, none⟩)
    ∧ (rcbWritten g.raw = .ok () → w.ovr ≠ 0 → launchChecks s g = .error ⟨0x02, some 0x44, none⟩)
    ∧ (rcbWritten g.raw = .ok () → w.ovr = 0 → placeCheck s g.part w = .ok () →
        (w.ctl / 2 ^ 15 % 2 = 1 → (s.part g.part).privOk = false → launchChecks s g = .error ⟨0x08, some 0x40, none⟩)
        ∧ (w.ctl / 2 ^ 15 % 2 = 0 → w.ctl / 2 % 2 = 1 → w.ctl % 2 = 0 → launchChecks s g = .error ⟨0x02, some 0x40, none⟩))
    ∧ ∀ n, launchChecks s g = .ok n → n.rcb = w ∧ n.part = g.part ∧ n.seq = g.seq ∧ (n.st = if n.strm = [] then .ready else .staging)
        ∧ n.bound = if w.timeb = 0 then g.unspent else some (w.timeb * Config.usTime)

end Sys2Proof.Claims

/-- Submissions are checked and journalled; launch checks. The die argument and its room (log entry 41) and the order of failing fields (log entry
42) are the model's. -/
def Obligations.SubmissionsAndLaunch : Prop :=
  Claims.SubmissionsAccepted ∧ Claims.LaunchChecks

/-- 21_scheduler.md R338: the next stream of a STAGING region, where its turn in the queue has come, is copied byte for byte, and the last makes the
region READY. R333: the record of a completed region, in the order of its channel, is written to CREC, and the region is gone. -/
def Obligations.StreamsAndRecords : Prop :=
  (∀ (s : State) (r src dst len : Nat) (g : Region) (a b : List Xl), s.region? r = some g → g.st = .staging → (s.part g.part).resetting = false →
    g.strm[g.streams]? = some (src, dst, len) → streamsAhead s r g < 16 → partAcc s g.part (w64 src) len { r := true } = .ok a →
    partAcc s g.part (w64 dst) len { w := true, dual := true } = .ok b → xlPoison s a (w64 src) len = false →
    ∃ u, WroteXl b (w64 dst) (xlBytes s a (w64 src) len) s u ∧ u.cores = s.cores ∧ u.regions = s.regions
      ∧ exec (.streamCopy r) s = .next (u.setRegion r { g with
          streams := g.streams + 1, st := if g.strm.length ≤ g.streams + 1 then .ready else .staging }))
  ∧ ∀ (s : State) (r : Nat) (g : Region) (e : RegionEnd) (xl : List Xl), s.region? r = some g → g.st = .done → g.fin = some e → inOrder s g = true →
    g.rcb.stats = 0 → g.chan = none → (s.part g.part).resetting = false →
    let crec := w64 (rcbField g.raw 0x10 8)
    partAcc s g.part crec 32 { w := true } = .ok xl →
    let exits := if e.status = 1 then g.user else g.user ++ g.copies.flatMap Copy.user
    let code := userCode exits
    ∃ t, exec (.regionCompletion r) s = .next t
      ∧ WroteXl xl crec (leBytes 8 g.seq ++ leBytes 1 e.cause ++ leBytes 1 e.status ++ leBytes 2 code ++ leBytes 4 e.rank ++ leBytes 8 e.faddr.toNat
          ++ leBytes 8 (rcbField g.raw 0x70 8)) s t
      ∧ t.region? r = some { g with st := .gone, mstats := [] } ∧ (∀ q, q ≠ r → t.region? q = s.region? q)
      ∧ t.part g.part = { s.part g.part with qtimer := 0 } ∧ t.cores = s.cores
      ∧ ((∀ p ∈ exits, p.2 = 0) → code = 0)
      ∧ ∀ p ∈ exits, p.2 ≠ 0 → (∀ q ∈ exits, q.2 ≠ 0 → q ≠ p → p.1 < q.1) → code = p.2

/-- 21_scheduler.md R342-R345 with 02_encoding.md R51: a READY region that has the turn takes the cores given, where the scheduler may choose them,
and its members start on them at once where every core is awake: rank by rank, at the image's entry points, with x1 and x2 and nothing else in the
registers, with the masks of the region and the memory of the image; without the turn nothing happens. A rectangle of which a unit proves
unreachable ends with 0x7A before any member starts. 24_device.md R391: what the core showed of an earlier stop goes, unless it was of a member of
this region. -/
def Obligations.RegionsIssue : Prop :=
  ∀ (s : State) (r : Nat) (g : Region) (cores : List Nat) (ld : LoadSet), s.region? r = some g →
    (∀ un, issueTurn s r g = false ∨ mayPlace s g cores = false → Idle (.regionIssue r ⟨cores, un⟩) s)
    ∧ (issueTurn s r g = true → mayPlace s g cores = true → 2 ≤ g.rcb.ctl / 2 ^ 8 % 4 → ∃ f,
        exec (.regionIssue r ⟨cores, true⟩) s = .next (finishRegion { s with freeCtr := s.freeCtr + 1 } r 2 0x7A f))
    ∧ (issueTurn s r g = true → mayPlace s g cores = true → g.rcb.dual = false → g.copies = [] → g.saved = [] → cores.Nodup →
      (∀ k ∈ cores, (s.core k).retNow s.clock = .awake) → (∀ e ∈ s.cores, ¬ (e.2.rid = r ∧ e.2.run = .starting)) →
      (∀ l : List Nat, (∀ k, k ∈ l ↔ k ∈ cores) → readLoad s g l = .ok ld) → g.wins = [] →
      let n := { g with st := .running, waited := 0, members := cores, runs := g.runs + 1, feat := (s.part g.part).feat }
      let data := (ld.img.drop (imgData ld.img).1).take (imgData ld.img).2
      imgSpad ld.img + data.length ≤ 2 ^ 21 →
      ∃ t, exec (.regionIssue r ⟨cores, false⟩) s = .next t ∧ t.region? r = some n ∧ (∀ q, q ≠ r → t.region? q = s.region? q)
        ∧ (∀ k, k ∉ cores → t.core k = s.core k)
        ∧ ∀ (i k : Nat), cores[i]? = some k →
          let c := t.core k
          c.run = .running ∧ c.rid = r ∧ c.rank = i ∧ c.copy = none ∧ c.main.pc = BitVec.ofNat 14 (imgEntry ld.img 0)
          ∧ (∀ x, smGet 0 c.main.x x = if x = 1 then w64 g.rcb.args else if x = 2 then w64 g.steps else 0)
          ∧ c.main.p = [] ∧ c.main.b = [] ∧ c.main.loops = [] ∧ c.main.fly = [] ∧ c.main.rq = [] ∧ c.main.wq = [] ∧ c.tok = [] ∧ c.cmds = []
          ∧ c.sys.oum = g.oum ∧ c.sys.ccm = (s.core k).sys.ccm ∧ c.sys.det = g.rcb.det ∧ c.sys.priv = g.rcb.priv ∧ c.sys.cause = 0
          ∧ c.mx.mpc = imgEntry ld.img 1 ∧ c.vx.vpc = BitVec.ofNat 12 (imgEntry ld.img 2) ∧ c.q = {} ∧ c.cycle = 0
          ∧ c.snapOf = (s.core k).snapOf.filter (fun e => e.1 == r)
          ∧ (∀ j b, data[j]? = some b → memByte t (k * 2 ^ 21 + imgSpad ld.img + j) = b)
          ∧ ∀ j < (imgSec ld.img 0).2, (imgSec ld.img 0).1 + j < ld.img.length →
              smGet 0 c.apIm j = ld.img.getD ((imgSec ld.img 0).1 + j) 0)

namespace Sys2Proof.Claims

/-- 21_scheduler.md R339, R349: a running region whose time is used up ends with 0xC2. Two finished copies of a dual run agree when they leave the
same 64 KiB pages and every byte of these is the same; then the pages of the first are written and the region completes; where they first differ it
runs a third copy, or completes with 0xC1 where no set of cores can hold that (R340). That the overlays are counted at the compare, and that the third
copy runs by way of READY, is the model's choice (log entry 33). -/
def BudgetsAndDualRuns : Prop :=
  ∀ (s : State) (r : Nat) (g : Region), s.region? r = some g → g.st = .running →
    (timeLeft g = some 0 → ∃ f, exec (.timebExpiry r) s = .next (finishRegion { s with freeCtr := s.freeCtr + 1 } r 2 0xC2 f))
    ∧ (timeLeft g ≠ some 0 → Idle (.timebExpiry r) s)
    ∧ ∀ a b, g.copies = [a, b] → g.rcb.ctl / 2 % 2 = 1 →
      let byte (c : Copy) (key : Nat) : Byte := (smGet (0, 0) c.overlay key).1
      let same : Prop := a.pages.map Prod.fst = b.pages.map Prod.fst ∧ ∀ key, byte a key = byte b key
      let size (c : Copy) : Nat := 65536 * c.pages.length
      ((a.finished = false ∨ b.finished = false) → Idle (.dualRunCompare r) s)
      ∧ (a.finished = true → b.finished = true → g.hbmUsed + size a + size b ≤ g.rcb.hbmb →
        (same → a.spawns = [] → (∀ p ∈ a.pages, smFind a.pages p.1 = some p.2) → ∃ u, exec (.dualRunCompare r) s =
            .next (finishRegion (u.setRegion r { g with user := a.user, mstats := a.mstats }) r 1 0 0)
          ∧ (∀ key, memByte u key = if (smFind a.pages (key / 65536)).isSome then byte a key else memByte s key)
          ∧ u.cores = s.cores ∧ u.regions = s.regions)
        ∧ (¬ same → g.fin = none →
          let n : Region := { g with st := .ready, waited := 0 }
          (couldPlace (s.setRegion r n) n = true → RegionBecomes (.dualRunCompare r) s r n)
          ∧ (couldPlace (s.setRegion r n) n = false → ∃ f,
              exec (.dualRunCompare r) s = .next (finishRegion { s.setRegion r n with freeCtr := s.freeCtr + 1 } r 2 0xC1 f))))
      ∧ (a.finished = true → b.finished = true → g.rcb.hbmb < g.hbmUsed + size a + size b → ∃ f,
          exec (.dualRunCompare r) s = .next (finishRegion { s with freeCtr := s.freeCtr + 1 } r 2 0xC2 f))

/-- 21_scheduler.md R343 with 22_faults.md R363, R365: a running region that a more urgent one may displace, with no write left to perform, is
suspended: its members' registers and scratchpads are saved by rank, with their accesses let out of the AP and their replies on schedule, and its
cores are idle and hold nothing of it but the snapshot, which shows them as they stood at the stop; where no set of cores can hold it any more it then
completes with 0xC1 (R340). That a second PREEMPTION event makes a saved region READY is the model's reading (log entry 45). -/
def RegionsSuspend : Prop :=
  ∀ (s : State) (r : Nat) (g : Region), s.region? r = some g →
    (g.st = .suspended → RegionBecomes (.preemption r) s r { g with st := .ready, waited := 0 })
    ∧ (g.st = .running → g.rcb.dual = false → (s.part g.part).resetting = false → (∀ p ∈ s.regions, ¬ (p.1 ≠ r ∧ p.2.part = g.part ∧ preemptedBy s r p.2 = true)) →
        Idle (.preemption r) s)
    ∧ (g.st = .running → g.fail = none → g.fin = none → g.rcb.dual = false → g.copies = [] → g.members.Nodup → (s.part g.part).resetting = false →
      (∃ p ∈ s.regions, p.1 ≠ r ∧ p.2.part = g.part ∧ preemptedBy s r p.2 = true) → (∀ k ∈ g.members, (s.core k).main.wq = [] ∧ (s.core k).shadow.wq = []) → s.Inv →
      let due (x : ApCtx) : ApCtx := { x with fly := x.fly.map fun f => { f with arrived := true } }
      ∃ t h, t.region? r = some h ∧ h.st = .suspended ∧ h.members = [] ∧ h.saved.length = g.members.length
        ∧ (couldPlace t h = true → exec (.preemption r) s = .next t)
        ∧ (couldPlace t h = false → ∃ f, exec (.preemption r) s = .next (finishRegion { t with freeCtr := t.freeCtr + 1 } r 2 0xC1 f))
        ∧ (∀ q, q ≠ r → t.region? q = s.region? q) ∧ (∀ k, k ∉ g.members → t.core k = s.core k)
        ∧ (∀ a, a / 2 ^ 21 ∉ g.members → memByte t a = memByte s a)
        ∧ ∀ (i k : Nat), g.members[i]? = some k → (t.core k).run = .idle ∧ (t.core k).main = {} ∧ (t.core k).snapOf = some (r, (s.core k).rank)
          ∧ (t.core k).snap = snapshot (s.core k) 0xC3 3 0
          ∧ (∃ c, h.saved[i]? = some c ∧ c.main = due (s.core k).main.letOut ∧ c.sys = (s.core k).sys ∧ c.tok = (s.core k).tok ∧ c.vx = (s.core k).vx
              ∧ c.mx = (s.core k).mx ∧ c.q = (s.core k).q)
          ∧ ∀ off < 2 ^ 21, smGet 0 h.savedMem (i * 2 ^ 21 + off) = memByte s (k * 2 ^ 21 + off) ∧ memByte t (k * 2 ^ 21 + off) = 0)

end Sys2Proof.Claims

/-- Budgets, dual runs and suspension. Where overlays are counted and how a third copy comes to run (log entry 33), and the event that makes a
suspended region READY (log entry 45), are the model's. -/
def Obligations.RunsEndOrPause : Prop :=
  Claims.BudgetsAndDualRuns ∧ Claims.RegionsSuspend

namespace Sys2Proof.Claims

/-- 21_scheduler.md R348, R350, R351, R395: the k-th `rg.yield` that every member stands at, with its accesses performed, completes with 0; the k-th
`rg.step`, with the commands retired too, counts a step, deals the pooled indices by rank and answers members * 2^32 + rank; members at both kinds
fault with 0x02; members at different counts wait. A member that asks for an index gets its lowest; with none, of whom every other has none, it is
answered with all ones; a member with indices is asked. -/
def RegionBarriers : Prop :=
  ∀ (s : State) (r : Nat) (g : Region) (out : Nat → Nat), plainRegion s r g → (∀ e ∈ s.cores, ¬ (e.2.rid = r ∧ e.2.run = .starting)) →
    let n := g.members.length
    let quiet (j : Nat) : Prop := let c := s.core j
      c.main.rq = [] ∧ c.main.wq = []
    let stands (j : Nat) (p : PendKind) : Prop := (s.core j).pend = some { kind := p, from_ := out j } ∧ out j ≤ (s.core j).cycle
    let i : Instr := .regionBarrierComplete r 0 []
    (∀ k, (∀ j ∈ g.members, quiet j ∧ stands j (.rgYield k)) → ∃ t, exec i s = .next t
      ∧ AnswersCores s t g.members fun j => { s.core j with pend := (s.core j).pend.map fun p => { p with res := some (.value 0) } })
    ∧ (∀ k, (∀ j ∈ g.members, quiet j ∧ (s.core j).cmds = [] ∧ stands j (.rgStep k)) → ∃ t, exec i s = .next t
      ∧ (∀ a, memByte t a = memByte s a) ∧ t.region? r = some { g with steps := g.steps + 1 } ∧ (∀ j, j ∉ g.members → t.core j = s.core j)
      ∧ ∀ (rank j : Nat), g.members[rank]? = some j → t.core j = { s.core j with
          rg := { (s.core j).rg with untaken := dealShare (poolRanges s g.members) rank n, req := [] }
          pend := (s.core j).pend.map fun p => { p with res := some (.value (w64 (n * 2 ^ 32 + rank))) } })
    ∧ (∀ (step : Nat → Bool) (k : Nat → Nat), (∀ j ∈ g.members, stands j (if step j then .rgStep (k j) else .rgYield (k j))) →
        ((∃ j ∈ g.members, ¬ quiet j ∨ step j = true ∧ (s.core j).cmds ≠ []) ∨ (∃ j ∈ g.members, ∃ l ∈ g.members, k j ≠ k l) → Idle i s)
        ∧ ∀ a rest d, g.members = a :: rest → rest.find? (fun j => step j != step a) = some d →
          (∀ j ∈ g.members, quiet j ∧ (s.core j).cmds = [] ∧ k j = k a) →
          ∃ t, exec i s = .next t ∧ AnswersCores s t g.members fun j => { s.core j with
            pend := (s.core j).pend.map fun p => { p with res := some (.fault 0x02 (w64 (s.core d).rank)) } })
    ∧ ∀ (j rank : Nat), g.members[rank]? = some j → (s.core j).rank = rank → stands j (.rgNext 0 none) →
      let gets (at_ : Nat) (v : Word) (rg : Rg) : Prop := ∃ t, exec (.rgNextAnswer j) s = .next t ∧ AnswersCores s t [j] fun _ => { s.core j with
        rg := rg, pend := some { kind := .rgNext at_ none, res := some (.value v), from_ := out j } }
      (∀ lo hi rest, (s.core j).rg.untaken = (lo, hi) :: rest → (s.core j).rg.req = [] →
        gets 0 (w64 lo) { (s.core j).rg with untaken := if lo + 1 < hi then (lo + 1, hi) :: rest else rest })
      ∧ ((s.core j).rg.untaken = [] → (∀ v ∈ g.members, v ≠ j → (s.core v).rg.untaken = [] ∧ (s.core v).rg.req = []) →
        gets (n - 1) 0xFFFFFFFFFFFFFFFF (s.core j).rg)
      ∧ (∀ v, g.members[(rank + 1) % n]? = some v → v ≠ j → (s.core j).rg.untaken = [] → (s.core v).rg.untaken ≠ [] →
          (∀ e ∈ (s.core v).rg.req, e.2 ≠ rank) →
          CoreBecomes (.rgNextAnswer j) s v { s.core v with rg := { (s.core v).rg with req := (s.core v).rg.req ++ [(s.clock, rank)] } })

/-- 21_scheduler.md R350: a member that takes an index of its own while another asks keeps the lower half of what is left, and the thief takes
the lowest index of the upper half, of ceil(n / 2); of several thieves the one is served that asked first, and in one cycle the lowest rank. -/
def VictimServes : Prop :=
  (∀ l : List (Nat × Nat), l ≠ [] → ∃ e, firstRequest l = some e ∧ e ∈ l ∧ ∀ f ∈ l, e.1 < f.1 ∨ e.1 = f.1 ∧ e.2 ≤ f.2)
  ∧ ∀ (s : State) (r j thief at_ lo hi f : Nat) (g : Region) (only : Option Nat) (e : Nat × Nat), plainRegion s r g → j ∈ g.members →
    g.members[e.2]? = some thief → thief ≠ j → (s.core j).asks = some (.rgNext 0 none) →
    (s.core thief).pend = some { kind := .rgNext at_ only, from_ := f } → (s.core thief).rg.untaken = [] →
    (s.core j).rg.untaken = [(lo, hi)] → lo + 1 < hi → firstRequest (s.core j).rg.req = some e →
    let m := (hi - (lo + 1)) / 2
    ∃ t, exec (.rgNextAnswer j) s = .next t ∧ (∀ k, k ≠ j → k ≠ thief → t.core k = s.core k) ∧ (∀ a, memByte t a = memByte s a)
      ∧ (t.core j).pend = (s.core j).pend.map (fun p => { p with res := some (.value (w64 lo)) })
      ∧ (t.core j).rg = { (s.core j).rg with untaken := if m = 0 then [] else [(lo + 1, lo + 1 + m)], req := (s.core j).rg.req.erase e }
      ∧ (t.core thief).pend = some { kind := .rgNext at_ only, from_ := f, res := some (.value (w64 (lo + 1 + m))) }
      ∧ (t.core thief).rg.untaken = if lo + 1 + m + 1 < hi then [(lo + 1 + m + 1, hi)] else []

/-- 21_scheduler.md R350, R351: the shares that a pool of indices is dealt in are disjoint and together the pool, rank r of c holding the positions
from floor(r N / c) to floor((r + 1) N / c). -/
def SharesDealt : Prop :=
  ∀ (lo hi r c : Nat), lo ≤ hi → r < c →
    let n := hi - lo
    let share := dealShare [(lo, hi)] r c
    (∀ i, (∃ e ∈ share, e.1 ≤ i ∧ i < e.2) ↔ lo + r * n / c ≤ i ∧ i < lo + (r + 1) * n / c)
    ∧ rangeCountOf share = (r + 1) * n / c - r * n / c
    ∧ ∀ i, lo ≤ i → i < hi → ∃ q < c, ∃ e ∈ dealShare [(lo, hi)] q c, e.1 ≤ i ∧ i < e.2

end Sys2Proof.Claims

/-- Region barriers and the shares of an index pool. -/
def Obligations.RegionBarriersAndShares : Prop :=
  Claims.RegionBarriers ∧ Claims.VictimServes ∧ Claims.SharesDealt

/-- 01_machine.md R20 with 21_scheduler.md R340, R341: the firmware fences a class on a core, which clears it in the core's mask; a core that runs a
region with that class ends its kernel with 0x07. A test of a suspect class on a free core clears it or fences it. 22_faults.md R369: a core idle
for 65,536 cycles goes into retention, which takes 2,048; one given to a region leaves it, with the errors found. -/
def Obligations.FencesTestsRetention : Prop :=
  ∀ (s : State) (k cls : Nat),
    let c := s.core k
    let calm : Prop := ∀ e ∈ s.regions, k / 32 ∈ launchClusters s e.2.part e.2.rcb → e.2.st ≠ .staging ∧ e.2.st ≠ .ready ∧ e.2.st ≠ .suspended
    let fenced (i : Instr) : Prop := ∃ t, exec i s = .next t ∧ (∀ j, j ≠ k → t.core j = s.core j)
      ∧ (t.core k).sys = { c.sys with ccm := c.sys.ccm &&& ~~~(BitVec.twoPow 48 cls) } ∧ (t.core k).run = c.run ∧ (t.core k).test = none
      ∧ (k, cls) ∈ t.dev.fences ∧ (k, cls) ∉ t.dev.suspect ∧ (∀ a, memByte t a = memByte s a)
    (cls < 26 → calm → c.run = .idle → c.test = none → fenced (.capabilityFence k cls))
    ∧ (26 ≤ cls → Idle (.capabilityFence k cls) s)
    ∧ (∀ g, cls < 26 → calm → c.run = .running → s.region? c.rid = some g → g.st = .running → g.fail = none → g.oum.getLsbD cls = true →
        ∃ t h f, exec (.capabilityFence k cls) s = .next t ∧ (t.core k).run ≠ .running ∧ t.region? c.rid = some h ∧ h.st = .running
          ∧ h.fail = some { status := 2, cause := 0x07, rank := c.rank, faddr := f })
    ∧ (coreFree s k = true → (k, cls) ∈ s.dev.suspect → CoreBecomes (.inFieldTestStart k cls) s k { c with test := some cls })
    ∧ (c.test = some cls → c.run = .idle → ∃ t, exec (.inFieldTest k true) s = .next t ∧ t.core k = { c with test := none, idle := s.clock }
        ∧ (∀ j, j ≠ k → t.core j = s.core j) ∧ (∀ e, e ∈ t.dev.suspect ↔ e ∈ s.dev.suspect ∧ e ≠ (k, cls)) ∧ t.dev.fences = s.dev.fences)
    ∧ (c.test = some cls → c.run = .idle → calm → fenced (.inFieldTest k false))
    ∧ (c.test = none → Idle (.inFieldTest k true) s)
    ∧ (c.ret = .awake → c.run = .idle → c.test = none → c.idle + 65536 ≤ s.clock →
        CoreBecomes (.retentionEntry k) s k { c with ret := .entering (s.clock + 2048) })
    ∧ (∀ u, c.ret = .entering u → u ≤ s.clock → CoreBecomes (.retentionEntry k) s k { c with ret := .retained })
    ∧ ∀ u bad, c.ret = .leaving u →
        (s.clock < u → Idle (.retentionExit k bad) s)
        ∧ (u ≤ s.clock → (∃ e ∈ s.cores, e.1 ≠ k ∧ e.2.rid = c.rid ∧ e.2.run = .starting ∧ (s.core e.1).ret ≠ .awake ∧ e.1 ∈ membersOf s e.1) → ∃ t,
            exec (.retentionExit k bad) s = .next t ∧ t.core k = { c with ret := .awake } ∧ (∀ j, j ≠ k → t.core j = s.core j)
            ∧ (∀ a, memByte t a = memByte s a) ∧ ∀ p, p ∈ t.poison ↔ p ∈ s.poison ∨ ∃ n ∈ bad, n < 2 ^ 18 ∧ p = k * 2 ^ 21 + 8 * n)

/-! ### The device -/

/-- 24_device.md R379-R383 with 22_faults.md R355, R362: a register of the page of a virtual function that is up takes a good value in
CONFIG_UNLOCKED, and in RUN from a TEE packet only; a bad value, or one written to a root or handler register while a region runs or is suspended,
is discarded and sets WREJ, reserved bits in every state; in CONFIG_LOCKED and ERROR, and at an offset the page does not serve, the answer is
Unsupported Request. A read answers the register's value in every state; a write-only one reads 0. That VFSTAT's reserved bits set no WREJ is the
model's choice (log entry 62). -/
def Obligations.PageRegisters : Prop :=
  ∀ (s : State) (vf : Nat) (v : Word) (ide : Bool), vfUp s vf = true →
    let p := s.part vf
    let hi (n : Nat) : Prop := v.toNat / 2 ^ n = 0
    let open_ : Prop := p.tstate = .configUnlocked ∨ p.tstate = .run ∧ ide = true
    let takes (i : Instr) (q : Part) : Prop := PartBecomes i s vf q .success
    let rejects (i : Instr) : Prop := takes i { p with wrej := true }
    let busy : Prop := ∃ e ∈ s.regions, e.2.part = vf ∧ (e.2.st = .running ∨ e.2.st = .suspended)
    (open_ →
      (v.getLsbD 4 = true → takes (.vfstatWrite vf v ide) { p with wrej := false }) ∧ (v.getLsbD 4 = false → Answers (.vfstatWrite vf v ide) s .success)
      ∧ (hi 32 → takes (.qwdWrite vf v ide) { p with qwd := v, qtimer := 0 }) ∧ (¬ hi 32 → rejects (.qwdWrite vf v ide))
      ∧ (¬ busy → v.toNat % 2 ^ 8 = 0 → takes (.pthbWrite vf v ide) { p with pthb := v })
      ∧ (¬ busy → hi 12 → takes (.pthlWrite vf v ide) { p with pthl := v })
      ∧ (¬ busy → hi 52 → v.toNat / 2 % 2 ^ 20 = 0 → ∃ t, exec (.s1rootWrite vf v ide) s = .next t ∧ t.part vf = { p with s1root := v }
          ∧ t.dev.reply = .success ∧ (∀ d e, e ∈ smGet [] t.tlb d ↔ e ∈ smGet [] s.tlb d ∧ e.part ≠ vf) ∧ t.mem = s.mem ∧ t.cores = s.cores)
      ∧ (busy ∨ v.toNat % 2 ^ 8 ≠ 0 → rejects (.pthbWrite vf v ide)) ∧ (busy ∨ ¬ hi 12 → rejects (.pthlWrite vf v ide))
      ∧ (busy ∨ ¬ hi 52 ∨ v.toNat / 2 % 2 ^ 20 ≠ 0 → rejects (.s1rootWrite vf v ide))
      ∧ (hi 3 → takes (.vfRegisterWrite vf 0x128 v ide) { p with intctl := v }) ∧ takes (.vfRegisterWrite vf 0x150 v ide) { p with dbgsel := v }
      ∧ ∀ n < 1022, takes (.vfRegisterWrite vf (0x2000 + 8 * n) v ide) { p with dbgbuf := smSet 0 p.dbgbuf n v })
    ∧ (p.tstate = .run → ide = false → ∀ i ∈ [Instr.vfstatWrite vf v ide, .qwdWrite vf v ide, .pthbWrite vf v ide, .pthlWrite vf v ide, .s1rootWrite vf v ide],
        PartBecomes i s vf { p with wrej := true } .unsupported)
    ∧ (p.tstate = .configLocked ∨ p.tstate = .error →
        let regs : List (Instr × Prop) := [(.vfstatWrite vf v ide, False), (.qwdWrite vf v ide, ¬ hi 32), (.pthbWrite vf v ide, v.toNat % 2 ^ 8 ≠ 0),
          (.pthlWrite vf v ide, ¬ hi 12), (.s1rootWrite vf v ide, ¬ hi 52 ∨ v.toNat / 2 % 2 ^ 20 ≠ 0)]
        ∀ e ∈ regs, (¬ e.2 → Answers e.1 s .unsupported) ∧ (e.2 → PartBecomes e.1 s vf { p with wrej := true } .unsupported))
    ∧ Answers (.vfPageBadAccess vf) s .unsupported ∧ (∀ off, 0x3FF0 ≤ off → Answers (.vfRegisterWrite vf off v ide) s .unsupported)
    ∧ let reads (off n : Nat) : Prop := Answers (.dbgdataRead ⟨vf, off⟩) s (.data [n])
      let bit (b : Bool) (n : Nat) : Nat := if b then n else 0
      let state : Nat := match p.tstate with | .configUnlocked => 0 | .configLocked => 1 | .run => 2 | .error => 3
      reads 0x100 (state + bit p.resetting 8 + bit p.wrej 16 + bit p.dbgOpen 32 + p.dcause.toNat * 256)
      ∧ reads 0x108 p.s1root.toNat ∧ reads 0x110 p.pthb.toNat ∧ reads 0x118 p.pthl.toNat ∧ reads 0x120 p.qwd.toNat ∧ reads 0x128 p.intctl.toNat
      ∧ reads 0x130 (p.ev29.toNat + p.evB0.toNat * 2 ^ 32) ∧ reads 0x138 p.assigns ∧ reads 0x140 0 ∧ reads 0x150 p.dbgsel.toNat
      ∧ (∀ n < 4, reads (0x160 + 8 * n) 0) ∧ (∀ n < 1022, reads (0x2000 + 8 * n) 0)
      ∧ ∀ off, 0x3FF0 ≤ off → Answers (.dbgdataRead ⟨vf, off⟩) s .unsupported

/-- 24_device.md R389-R391: the key's words are taken once, in RUN; an image that passes every check, its signature under that key among them, is
put in force with its features, any other is refused with 0xD1; the lock takes every debug feature from the partition's cores and regions. A
snapshot value of a stopped member of a host's region is read only with the debug interface open to that region. One acceptance for each of the
key's four words, and the Unsupported Request for DBGDATA where there is no selected state and the policy in force lacks DBGIF, are the model's
choice (log entry 47); so is the form of the signature (log entry 66). -/
def Obligations.DebugPolicy : Prop :=
  ∀ (s : State) (vf : Nat) (v : Word), vfUp s vf = true → (s.part vf).tstate = .run → smRising 0 s.parts = true →
    let p := s.part vf
    let quiet : Prop := wbits p.intctl 2 1 = 0
    let img := policyImage p
    let field (off n : Nat) : Nat := leNat ((img.drop off).take n)
    (∀ n < 4, (smFind p.dbgkey n = none → PartBecomes (.dbgkeyWrite vf n v true) s vf { p with dbgkey := smPut p.dbgkey n v } .success)
      ∧ ((smFind p.dbgkey n).isSome = true → PartBecomes (.dbgkeyWrite vf n v true) s vf { p with wrej := true } .success))
    ∧ (quiet → PartBecomes (.dbgcmdSubmit vf true) s vf (if policyOk p vf = true then { p with
        dbgOpen := true, feat := BitVec.ofNat 32 (leNat ((img.drop 4).take 4)), policy := img, dcause := 0 } else { p with dcause := 0xD1 }) .success)
    ∧ (policyOk p vf = true ↔ (∀ n < 4, (smFind p.dbgkey n).isSome = true) ∧ field 0x00 4 = 0x44474C50 ∧ field 0x04 4 < 4 ∧ field 0x08 8 = p.assigns
        ∧ field 0x10 32 = Config.leafCertHash.toNat ∧ field 0x30 4 = vf % 64 ∧ field 0x34 12 = 0
        ∧ slhValid (policyKey p) (img.take 0x40) ((img.drop 0x40).take 7856) = true)
    ∧ ((∃ n < 4, smFind p.dbgkey n = none) → policyOk p vf = false)
    ∧ (quiet → ∃ t, exec (.dbgcmdLock vf true) s = .next t ∧ t.part vf = { p with dbgOpen := false, feat := 0, policy := [], dcause := 0 }
        ∧ t.dev.reply = .success ∧ (∀ k, partOfCore s k = vf → (t.core k).sys.feat = 0) ∧ (∀ k, partOfCore s k ≠ vf → t.core k = s.core k)
        ∧ (∀ q g, s.region? q = some g → g.part = vf → ∃ h, t.region? q = some h ∧ h.feat = 0 ∧ h.st = g.st) ∧ t.mem = s.mem)
    ∧ (v ≠ 1 → v ≠ 2 → PartBecomes (.dbgcmdInvalid vf v true) s vf { p with wrej := true } .success)
    ∧ (p.feat.getLsbD 1 = false → (∀ e ∈ s.cores, e.2.snapOf = none ∨ e.2.run = .running) → Answers (.dbgdataRead ⟨vf, 0x158⟩) s .unsupported)
    ∧ ∀ k c r g, s.cores = [(k, c)] → c.run ≠ .running → c.snapOf = some (r, wbits p.dbgsel 12 20) → s.region? r = some g → g.part = vf →
        g.chan = none → g.seq % 2 ^ 32 = wbits p.dbgsel 32 32 →
        (g.feat.getLsbD 1 = false → Answers (.dbgdataRead ⟨vf, 0x158⟩) s .unsupported)
        ∧ (g.feat.getLsbD 1 = true → 0x100 ≤ wbits p.dbgsel 0 12 → wbits p.dbgsel 0 12 < 0x200 →
            Answers (.dbgdataRead ⟨vf, 0x158⟩) s (.data [(smGet 0 c.snap (wbits p.dbgsel 0 12)).toNat]))

/-- 24_device.md R383-R385: the security states. A lock of an idle partition scrubs it, with zeros under its new key, to which no other's key id
stays bound, and counts the assignment; a start runs it; a stop of one that is unlocked changes nothing; a request that its state does not allow is
refused and changes nothing; an integrity failure takes a running one to ERROR and resets it. The report carries the partition's parameters. The
report's numbers are the model's choice (log entry 48), and so is the success that answers a stop in CONFIG_UNLOCKED (log entry 71). -/
def Obligations.SecurityStates : Prop :=
  ∀ (s : State) (vf : Nat), vfUp s vf = true →
    let p := s.part vf
    (p.tstate = .configUnlocked → p.resetting = false → (∀ e ∈ s.regions, e.2.part = vf → e.2.st = .gone) →
      ∃ t, exec (.lockInterfaceRequest vf) s = .next t ∧ t.dev.reply = .success ∧ (t.part vf).tstate = .configLocked
        ∧ (t.part vf).assigns = p.assigns + 1 ∧ (t.part vf).keyGen = s.dev.keyCtr + 1 ∧ t.dev.keyCtr = s.dev.keyCtr + 1
        ∧ (t.part vf).s1root = 0 ∧ (t.part vf).pthb = 0 ∧ (t.part vf).pthl = 0 ∧ (t.part vf).shared = [] ∧ (t.part vf).dbgOpen = false
        ∧ (∀ a, inShare p.share a = true → memByte t a = 0 ∧ keyGenAt t a = some (s.dev.keyCtr + 1)) ∧ (∀ q e, e ∈ (t.part q).shared → e.2 ≠ vf)
        ∧ (∀ k off, k / 32 ∈ p.clusters → off < 2 ^ 21 → k * 2 ^ 21 + off < 2 ^ 60 → memByte t (k * 2 ^ 21 + off) = 0)
        ∧ (∀ a, inShare p.share a = false → 2 ^ 60 ≤ a → memByte t a = memByte s a)
        ∧ ∀ k, k / 32 ∈ p.clusters → (t.core k).main = {} ∧ (t.core k).sys.oum = 0 ∧ (t.core k).q = {})
    ∧ (p.tstate ≠ .configUnlocked → Answers (.lockInterfaceRequest vf) s .refused)
    ∧ (p.tstate = .configLocked → PartBecomes (.startInterfaceRequest vf) s vf { p with tstate := .run } .success)
    ∧ (p.tstate ≠ .configLocked → Answers (.startInterfaceRequest vf) s .refused)
    ∧ (p.tstate = .configUnlocked → Answers (.stopInterfaceRequest vf) s .success)
    ∧ (p.tstate ≠ .configUnlocked → exec (.stopInterfaceRequest vf) s = .next (replyWith (leaveAssigned s vf) .success))
    ∧ Answers (.getDeviceInterfaceReport vf) s (.data (partNumbers p))
    ∧ (p.tstate = .run → exec (.ideIntegrityFailure vf) s = .next (partReset (s.setPart vf { p with tstate := .error, afterReset := false }) vf false))
    ∧ (p.tstate ≠ .run → Idle (.ideIntegrityFailure vf) s)

/-- 22_faults.md R362, R370, R371: a reset of a partition whose members are all on its own cores gives its clusters back scrubbed, ends every run of
it, and leaves what lies outside. The watchdog brings one once its time is over while a region runs; a function-level reset does so in
CONFIG_UNLOCKED. How its microseconds are counted, 1,900 nominal cycles each and the slower the more the clock is lowered, is the model's choice (log
entry 26); that the records are written after the scrub, by events of their own, is its reading (log entry 46). -/
def Obligations.PartitionReset : Prop :=
  (∀ (s : State) (vf : Nat), (∀ e ∈ s.cores, ∀ g, s.region? e.2.rid = some g → e.2.run ≠ .idle → (g.part = vf ↔ partOfCore s e.1 = vf)) →
    (∀ e ∈ s.cores, e.2.run ≠ .idle → (s.region? e.2.rid).isSome = true) → smRising 0 s.regions = true →
    ∀ wd, let t := partReset s vf wd
      (∀ k, k / 32 ∈ (s.part vf).clusters → (t.core k).run = .idle ∧ (t.core k).main = {} ∧ (t.core k).cmds = [] ∧ (t.core k).tok = [])
      ∧ (∀ k off, k / 32 ∈ (s.part vf).clusters → off < 2 ^ 21 → k * 2 ^ 21 + off < 2 ^ 60 → memByte t (k * 2 ^ 21 + off) = 0)
      ∧ (∀ a, 2 ^ 60 ≤ a → memByte t a = memByte s a)
      ∧ (∀ q g, s.region? q = some g → g.part ≠ vf → t.region? q = some g)
      ∧ ∀ q g, s.region? q = some g → g.part = vf → g.st = .running → ∃ h, t.region? q = some h ∧ h.st = .done
          ∧ h.fin = some { status := 3, cause := if wd then 0xC0 else 0, rank := 0xFFFFFFFF, faddr := 0 })
  ∧ (∀ (s : State) (vf : Nat), let p := s.part vf
      (0 < wbits p.qwd 0 32 → wbits p.qwd 0 32 * Config.usTime ≤ p.qtimer → p.resetting = false → (∃ e ∈ s.regions, e.2.part = vf ∧ e.2.st = .running) →
        exec (.queueWatchdogExpiry vf) s = .next (partReset s vf true))
      ∧ (wbits p.qwd 0 32 = 0 ∨ p.qtimer < wbits p.qwd 0 32 * Config.usTime → Idle (.queueWatchdogExpiry vf) s))
  ∧ ∀ (s : State) (vf : Nat), (s.part vf).formed = true → (s.part vf).tstate = .configUnlocked →
      exec (.functionLevelReset vf) s = .next (partReset s vf false)

/-- 24_device.md R376, R377, R386-R388, R392, R393: each module boots with its fenced classes cleared, or stops at the stage whose signature fails;
a request that is not refused forms a partition with its parameters and a new key; a booted module's power cap and its link's keys are set within
their limits; the clock of a die that shows more power than the cap, or too hot a junction, falls by a step; lanes fail downwards; the policy's
block measures 32 zero bytes while it is locked; a shutdown ends every partition of a module that is too hot, and its keys. What a request is
refused for, of its clusters, share, shared keys, rectangle and mappings, and the cap of 15 clock steps, all taken back by a sample that shows
neither, are the model's choice (log entry 48); what a shutdown leaves, and that the module never boots again, is its reading (log entry 14). -/
def Obligations.FirmwareEvents : Prop :=
  ∀ (s : State) (m : Nat),
    let boot := smGet 0 s.dev.boot m
    let boots (n : Nat) : Device := { s.dev with boot := smSet 0 s.dev.boot m n }
    (boot = 0 → m ∉ s.dev.off → (∀ e ∈ s.dev.fences, e.1 / 1024 ≠ m) → exec (.powerOn ⟨m, none⟩ []) s = .next { s with dev := boots 1 })
    ∧ (∀ k < 3, boot = 0 → m ∉ s.dev.off →
        exec (.powerOn ⟨m, some k⟩ []) s = .next { s with dev := { boots (10 + k) with reply := .data [k] } })
    ∧ (boot ≠ 0 ∨ m ∈ s.dev.off → Idle (.powerOn ⟨m, none⟩ []) s)
    ∧ (∀ r, partRefused s r = true → Answers (.partitionRequest r) s .refused)
    ∧ (∀ r, partRefused s r = false → r.form = true → (s.part r.part).formed = false → ∃ t, exec (.partitionRequest r) s = .next t
        ∧ t.dev.reply = .success ∧ t.dev.keyCtr = s.dev.keyCtr + 1 ∧ t.mem = s.mem
        ∧ (∀ q, q ≠ r.part → t.part q = { s.part q with shared := (s.part q).shared.filter fun e => e.2 != r.part })
        ∧ let p := t.part r.part
          p.formed = true ∧ p.tenant = r.tenant ∧ p.clusters = r.clusters ∧ p.share = r.share ∧ p.weight = r.weight ∧ p.stage2 = r.stage2
          ∧ p.shared = r.shared ∧ p.rect = r.rect ∧ p.rectX = r.rectX ∧ p.privOk = r.privOk ∧ p.keyGen = s.dev.keyCtr + 1
          ∧ p.tstate = .configUnlocked ∧ p.s1root = 0)
    ∧ (∀ r, r.form = true →
        (∃ c ∈ r.clusters, c / 32 ≠ r.part / 64 ∨ ∃ e ∈ s.parts, e.1 ≠ r.part ∧ e.2.formed = true ∧ c ∈ e.2.clusters)
        ∨ (∃ e ∈ r.shared, ∀ o ∈ s.parts, ¬ (o.1 = e.2 ∧ o.2.formed = true ∧ o.2.tenant = r.tenant))
        ∨ (∃ e ∈ r.share, e.1 ≠ r.part / 64)
        ∨ (∃ e ∈ s.parts, e.1 ≠ r.part ∧ e.2.formed = true ∧ e.2.tenant ≠ r.tenant ∧ (e.1 ∈ r.rect ∨ r.part ∈ e.2.rect))
        ∨ (∃ m ∈ r.stage2, m.host = false ∧ ∃ g < hbmGranules, m.pa < (g + 1) * 2 ^ 30 ∧ g * 2 ^ 30 < m.pa + m.len
            ∧ inShare r.share (hbmKey m.mod (g * 2 ^ 30)) = false) → Answers (.partitionRequest r) s .refused)
    ∧ (∀ w, boot = 1 → 1200 ≤ w → w ≤ 2600 →
        exec (.powerCapSet ⟨m, w⟩) s = .next { s with dev := { s.dev with powerCap := smSet 2600 s.dev.powerCap m w, reply := .success } })
    ∧ (∀ w, boot ≠ 1 ∨ w < 1200 ∨ 2600 < w → Answers (.powerCapSet ⟨m, w⟩) s .refused)
    ∧ (∀ d (r : Reading) slow drift, ∃ t, exec (.monitorSample d r slow drift) s = .next t
        ∧ (smGet 2600 s.dev.powerCap (d / 4) < r.power ∨ 95 < r.junction → smGet 0 t.dev.clockDiv d = min 15 (smGet 0 s.dev.clockDiv d + 1))
        ∧ (r.power ≤ smGet 2600 s.dev.powerCap (d / 4) → r.junction ≤ 95 → smGet 0 t.dev.clockDiv d = 0) ∧ { t with dev := s.dev } = s
        ∧ (∀ e, e ≠ d → smGet 0 t.dev.clockDiv e = smGet 0 s.dev.clockDiv e) ∧ smGet false t.dev.stretch d = slow
        ∧ t.dev.retunes = s.dev.retunes + if drift then 1 else 0)
    ∧ (∀ n, (n = 8 ∨ n = 4) → n < smGet 16 s.dev.lanes m →
        exec (.laneFailure ⟨m, n⟩) s = .next { s with dev := { s.dev with lanes := smSet 16 s.dev.lanes m n } })
    ∧ (∀ n, smGet 16 s.dev.lanes m ≤ n → Idle (.laneFailure ⟨m, n⟩) s)
    ∧ (∀ n ≤ 32, boot = 1 → (m, n) ∉ s.dev.ide →
        exec (.ideKm ⟨m, n⟩) s = .next { s with dev := { s.dev with ide := s.dev.ide ++ [(m, n)], reply := .success } })
    ∧ (∀ n, boot ≠ 1 ∨ 32 < n → Answers (.ideKm ⟨m, n⟩) s .refused)
    ∧ (∀ n ≤ 32, boot = 1 → ∃ l, Answers (.getMeasurements (64 * m + n)) s (.data l) ∧ l.length = 7
        ∧ ((s.part (64 * m + n)).policy = [] → l[5]? = some 0x25295F0D1D592A90B333E26E85149708208E9F8E8BC18F6C77BD62F8AD7A6866))
    ∧ (s.dev.overheat = [] → Idle .thermalShutdown s)
    ∧ (s.dev.overheat = [m] → ∃ t, exec .thermalShutdown s = .next t ∧ t.dev.overheat = [] ∧ m ∈ t.dev.off ∧ (∀ e ∈ t.dev.ide, e.1 ≠ m)
        ∧ smGet 0 t.dev.boot m = 0 ∧ (∀ e ∈ t.parts, e.1 / 64 ≠ m)
        ∧ (∀ e ∈ t.regions, e.2.part / 64 ≠ m) ∧ (∀ e ∈ t.cores, e.1 / 1024 ≠ m)
        ∧ ((∀ e ∈ s.parts, e.1 / 64 ≠ m) → t.mem = s.mem ∧ t.parts = s.parts))

/-- 04_memory.md R82, R90: a host access to device memory that stage 2 permits reads or writes the bytes it names; an AtomicOp of 32 or 64 bits on a
page with A answers the old value and leaves the sum, the operand, or, where the comparison holds, the operand; one on a page without A, or of 128
bits with a comparison, is refused and counted, whatever stage 2 permits. That the host reads and writes under key generation 0 (log entry 12), and
the count whatever stage 2 permits (log entry 49), are the model's choice. -/
def Obligations.HostAccesses : Prop :=
  ∀ (s : State) (vf gpa : Nat), vfUp s vf = true →
    let p := s.part vf
    (∀ n keys, hostRange p gpa n false = some keys →
      Answers (.hostMemoryRequest vf gpa n none) s (.data (keys.map fun a => (memRead s a 0).toNat)))
    ∧ (∀ bs keys, hostRange p gpa bs.length true = some keys → keys.Nodup → ∃ t, exec (.hostMemoryRequest vf gpa bs.length (some bs)) s = .next t
        ∧ t.dev.reply = .success ∧ (∀ (i : Nat) a b, keys[i]? = some a → bs[i]? = some b → memByte t a = b)
        ∧ (∀ a, a ∉ keys → memByte t a = memByte s a) ∧ t.cores = s.cores)
    ∧ (∀ bs, hostRange p gpa bs.length true = none → Answers (.hostMemoryRequest vf gpa bs.length (some bs)) s .unsupported)
    ∧ ∀ m op size operand cmp, deviceMap p gpa = some m → op ≤ 2 → (size = 32 ∨ size = 64 ∨ size = 128 ∧ op = 2) →
      let i : Instr := .hostAtomic vf op size gpa operand cmp
      let keys := (List.range (size / 8)).map fun i => s2Key m (gpa + i)
      let old := leNat (keys.map fun a => memRead s a 0)
      let new := if op = 0 then old + operand else if op = 1 then operand else if old = cmp % 2 ^ size then operand else old
      (pageHasA s p m.mod gpa = false ∨ size = 128 → PartBecomes i s vf { p with ev29 := if p.ev29 = 0xFFFFFFFF then p.ev29 else p.ev29 + 1 } .unsupported)
      ∧ (pageHasA s p m.mod gpa = true → size ≠ 128 → m.wr = false → Answers i s .unsupported)
      ∧ (pageHasA s p m.mod gpa = true → size ≠ 128 → m.wr = true → gpa % (size / 8) = 0 → ∃ t, exec i s = .next t ∧ t.dev.reply = .data [old]
          ∧ (∀ (j : Nat) a, keys[j]? = some a → (op = 2 ∧ old ≠ cmp % 2 ^ size → memByte t a = memByte s a)
              ∧ (¬ (op = 2 ∧ old ≠ cmp % 2 ^ size) → memByte t a = BitVec.ofNat 8 (new / 256 ^ j)))
          ∧ ∀ a, a ∉ keys → memByte t a = memByte s a)

namespace Sys2Proof.Claims

/-- 02_encoding.md R22, R23, R26, R28: a word with a reserved opcode ends its kernel with 0x01, one whose fields its card forbids with 0x02, in each
stream and before any pop; VS of 2 or 3 is reported first, with 0x03. -/
def IllegalWords : Prop :=
  ∀ (w : BitVec 32) (s : State),
    let vs := w.toNat / 2 ^ 26 % 4
    let op := w.toNat / 2 ^ 16 % 128
    (2 ≤ vs → ∀ mk ∈ [Instr.illegalOpcode, Instr.illegalField], exec (mk .ap w) s = .next (apFault s 0x03 none)
      ∧ exec (mk .mx w) s = .next (mxFaultAt s s.turn.1 s.cur.mx.mpc 0x03 none) ∧ exec (mk .vx w) s = .next (vxFault s 0x03 (w64 s.cur.vc.slot)))
    ∧ (vs < 2 → exec (.illegalOpcode .ap w) s = .next (apFault s 0x01 none) ∧ exec (.illegalOpcode .mx w) s = .next (mxFaultAt s s.turn.1 s.cur.mx.mpc 0x01 none)
      ∧ exec (.illegalOpcode .vx w) s = .next (vxFault s 0x01 (w64 s.cur.vc.slot)))
    ∧ (vs < 2 → op ≠ 0x7F → s.cur.ctx.ext = [] → exec (.illegalField .ap w) s = .next (apFault s 0x02 none))
    ∧ (vs < 2 → exec (.illegalField .mx w) s = .next (mxFaultAt s s.turn.1 s.cur.mx.mpc 0x02 none))
    ∧ (vs < 2 → op = 0x7D → smGet [] s.cur.vx.ext s.cur.vc.slot = [] → s.cur.vc.slot = 2 →
        exec (.illegalField .vx w) s = .next (vxFault s 0x02 (w64 s.cur.vc.slot)))
    ∧ (s.cur.inHandler = false → apFault s 0x01 none
        = endKernel { s with freeCtr := s.freeCtr + 1 } s.turn.1 0 s.cur.main.unitPc.toNat 0x01 (Config.freeWord s.freeCtr))

end Sys2Proof.Claims

/-- Privilege and legality: masks, the handler's restrictions, delay words, illegal words. -/
def Obligations.WordsChecked : Prop :=
  Claims.ReturnAndDelayFaults ∧ Claims.MasksChecked ∧ Claims.HandlerRestricted ∧ Claims.IllegalWords

/-! ### Reset, decoding, steps and the invariant -/

/-- Reset: the clock stands at 0 (05_ap_model.md R102), no partition is formed, no region exists, nothing is cached, and memory lists nothing.
That unlisted bytes and the registers without a stated reset value read as zero is the model's choice (log entries 2 and 3). -/
def Obligations.ResetState : Prop :=
  let s := State.reset
  s.clock = 0 ∧ s.parts = [] ∧ s.regions = [] ∧ s.tlb = [] ∧ s.poison = [] ∧ s.agenda = [] ∧ s.dev.off = []
  ∧ (∀ m, smGet 0 s.dev.boot m = 0 ∧ smGet 16 s.dev.lanes m = 16 ∧ smGet 2600 s.dev.powerCap m = 2600)
  ∧ (∀ a, memByte s a = 0)
  ∧ (∀ d, (s.quern d).owner = none)
  ∧ ∀ k, let c := s.core k
      c.run = .idle ∧ c.cmds = [] ∧ c.hnd = none ∧ c.ev = false ∧ c.sys.oum = 0 ∧ c.sys.ccm = 0x3FFFFFF ∧ c.sys.det = false ∧ c.sys.epc = 0
      ∧ c.main.pc = 0 ∧ (∀ n, smGet 0 c.main.x n = 0 ∧ smGet false c.main.p n = false ∧ smGet 0 c.main.b n = 0)
      ∧ (∀ f, c.tokens f = 0) ∧ c.q.eq = [] ∧ c.vx.vpc = 0 ∧ (∀ n, smGet 0 c.vx.phys n = 0) ∧ c.mx.routine = none ∧ c.wl.wst = 0 ∧ c.sd.keyed = false

/-- 04_memory.md R91, R98: memory at reset is in the canonical form that the model keeps it in (the model's choice, log entry 2). -/
def Obligations.ResetInv : Prop := State.reset.Inv

/-- 02_encoding.md: words written out from the encodings decode to the instructions they stand for: fields, header, and the stream that
tells the same bits apart. -/
def Obligations.DecodeWords : Prop :=
  let h : Hdr := ⟨false, false, false, false, 0, 0⟩
  decodeAp 0x1001298E = .add { h with sn := true } 5 6 7 ∧ decodeAp 0x812018FF = .addi { h with wp := true, g := 2 } 3 3 63
  ∧ decodeAp 0x007F0024 = .ext 36 ∧ decodeAp 0x00422281 = .ldWu h 4 10 0 ∧ decodeAp 0x01BA6F80 = .bxfer { h with g := 3 } 1 2 31
  ∧ decodeAp 0x00500283 = .redAdd h 10 1 ∧ decodeAp 0x00740050 = .cxPut h 20 ∧ decodeAp 0x007A2800 = .sysr h 5 0
  ∧ decodeMx 0x84000000 = .mxNop { h with wp := true, vs := 1 }
  ∧ decodeVx 0x00021844 = .vmulF32 h 3 1 2 ∧ decodeVx 0x005028C6 = .trow h 70 1 3 ∧ decodeVx 0x001C510A = .vcmpF16 h 2 2 4 5
  ∧ decodeVx 0x80580800 = .vpop { h with wp := true } 1 0 ∧ decodeVx 0x007C0000 = .vnop h
  ∧ decodeAp 0x001B0000 = .illegalOpcode .ap 0x001B0000 ∧ decodeAp 0x00010001 = .illegalField .ap 0x00010001
  ∧ decodeMx 0x000B0000 = .illegalOpcode .mx 0x000B0000 ∧ decodeVx 0x007C0001 = .illegalField .vx 0x007C0001

/-- 02_encoding.md R22, R33, R37, R39, R40: for every instruction of a stream that is not a refused word, its encoding has a word, the stream's
decoder gives the instruction back from it with every operand, and no other word decodes to it. -/
def Obligations.DecodeEncode : Prop :=
  ∀ (i : Instr) (st : Stream), i.stream = some st → i.isIllegal = false →
    ∃ w, encode i = some w ∧ decodeStream st w = i ∧ ∀ v, decodeStream st v = i → v = w

/-- 02_encoding.md R28, R37, R39, R40: a reserved opcode, or a word whose fixed bits are not as its encoding says, decodes to a word that says so
and holds it whole; such a word is never well-formed. -/
def Obligations.RefusedWords : Prop :=
  ∀ (w : BitVec 32) (st : Stream), (decodeStream st w).isIllegal = true →
    (decodeStream st w = .illegalOpcode st w ∨ decodeStream st w = .illegalField st w) ∧ (decodeStream st w).wf = false

namespace Sys2Proof.Claims

/-- The bundle at VPC can be fetched, holds the words `is`, and none of them faults at decode. -/
def bundleStands (c : Core) (is : List Instr) : Prop :=
  c.vx.bad = none ∧ overlayTargets c 5 c.vx.vpc.toNat = false ∧ (Stream.vx, c.vx.vpc.toNat) ∉ c.imBad ∧ bundleAt c = is ∧ bundleFault c is = none

end Sys2Proof.Claims

/-- A step runs the decoded instruction (01_machine.md R5, 05_ap_model.md R115, 02_encoding.md R32, R33, R36). The turn of the AP, or of the MXE,
runs the word at its pc and passes the turn on, which the AP keeps after an `ext`, each of which has a cycle of its own before its unit issues; that
of the VXE takes the pops of the bundle at VPC and, where its queues are ready, runs its slots in order. A bundle with a `vext` and the one it
extends issue in one turn, with the pops of both, and no effect where the later one faults (the model's reading, log entry 16). An event that is
placed runs before the turn, which it leaves. Every state has a step. The order of turns within a cycle is the model's (log entry 5). -/
def Obligations.StepRuns : Prop :=
  (∀ (s : State) (i : Instr), s.agenda = [] → s.turn.2 = Phase.ap → apRuns s = true → s.cur.ctx.bad = none → apFetchWaits s = false →
    apImBad s.cur = false → decodeAp (apWordAt s.cur) = i →
    (extLeads s.cur = false → step s = andThen (exec i s) (apAfter s))
    ∧ (extLeads s.cur = true → step s = .next (passTurn (apStall 0 (s.modCtx fun x => { x with lead := x.lead + 1 })))))
  ∧ (∀ (s : State) (i : Instr), s.agenda = [] → s.turn.2 = Phase.mx → streamsRun s = true → s.cur.mx.routine.isSome = true →
      s.cur.mx.window.busy ≤ s.cur.cycle → s.cur.mx.mpc ≤ 4095 → overlayTargets s.cur 4 s.cur.mx.mpc = false →
      (Stream.mx, s.cur.mx.mpc) ∉ s.cur.imBad → decodeMx (imWord s.cur.mxIm s.cur.mx.mpc) = i → step s = andThen (exec i s) afterMx)
  ∧ (∀ (s : State) (is : List Instr), s.agenda = [] → s.turn.2 = Phase.vx → streamsRun s = true → s.cur.vc.atRet = false →
      s.cur.vx.busy ≤ s.cur.cycle → (s.cur.vx.br = none → s.cur.vx.hold ≤ s.cur.cycle) → Claims.bundleStands s.cur is →
      let go (pops : List (Nat × Nat)) : State := s.modCur fun c => unitPop c pops
      let after (base u : State) : State := if u.cur.run = .running then unitEnd s.cur.cycle u else sameFault base u
      let next (v : State) : State := unitNext (bundleRun is v)
      let joins (v : State) : Prop := (bundleRun is v).cur.run = .running ∧ (bundleRun is v).cur.vc.atRet = false
      (anyVext is = false →
        let pops := bundlePops s.cur is
        (∀ w, tokensWait s.cur pops = some w → step s = .next (passTurn (vxStall w s)))
        ∧ (tokensWait s.cur pops = none → queuesReady s.cur is = false → step s = .next (passTurn (vxStall 4 (go pops))))
        ∧ (tokensWait s.cur pops = none → queuesReady s.cur is = true →
            let u := bundleRun is (go pops)
            step s = .next (passTurn (if u.cur.run = .running then unitEnd s.cur.cycle u else u))))
      ∧ (anyVext is = true → joins s →
        (∀ js, Claims.bundleStands (next s).cur js → anyVext js = false →
          let pops := bundlePops s.cur is ++ bundlePops (next s).cur js
          let ready (v : State) : Prop := queuesReady v.cur is = true ∧ queuesReady (next v).cur js = true
          tokensWait s.cur pops = none → ready s → joins (go pops) → Claims.bundleStands (next (go pops)).cur js → ready (go pops) →
          step s = .next (passTurn (after (go pops) (bundleRun js (next (go pops))))))
        ∧ ∀ t f, (next s).cur.vx.bad = none → overlayTargets (next s).cur 5 (next s).cur.vx.vpc.toNat = false →
            (Stream.vx, (next s).cur.vx.vpc.toNat) ∉ (next s).cur.imBad → bundleFault (next s).cur (bundleAt (next s).cur) = some (t, f) →
            step s = .next (passTurn (vxFaultAt s s.turn.1 (vxUnit (next s).cur) f (w64 t)))))
  ∧ (∀ (base s u : State) (is : List Instr) (t : Nat) (ts : List Nat), exec (slotAt is t) (s.modCur fun c => c.atSlot t) = .next u →
      u.cur.run = .running → runSlots base is [] s = s ∧ runSlots base is (t :: ts) s = runSlots base is ts u)
  ∧ (∀ (s : State) (i : Instr) (rest : List Instr), s.agenda = i :: rest → step s = exec i { s with agenda := rest })
  ∧ ∀ (s : State), ∃ t, step s = .next t

/-- 04_memory.md R91, R98: a byte of memory has the value last written to it. Every step keeps the memory in canonical form: addresses strictly rise,
and no entry equals what an unlisted byte reads as (the model's choice, log entry 2), so that equal memories are equal data. -/
def Obligations.StepKeepsInv : Prop :=
  ∀ (s t : State), s.Inv → step s = .next t → t.Inv
end

