-- ==== Sys2Proof/Laws/Sparse.lean ====
section
/-!
SUPPORT. The laws of the sparse maps: what a read gives after a write, and that every write and every removal keeps the
canonical form.
-/

namespace Sys2Proof.Laws

open Sys2Proof.Machine

variable {α : Type}

/-! ### Reading after a write -/

@[simp] theorem smFind_put_same (m : SMap α) (k : Nat) (v : α) : smFind (smPut m k v) k = some v := by
  induction m with
  | nil => simp [smPut, smFind]
  | cons e m ih =>
    obtain ⟨j, w⟩ := e
    unfold smPut
    split
    · simp [smFind]
    · split
      · simp [smFind]
      · simp [smFind, *]

theorem smFind_put_ne (m : SMap α) {k j : Nat} (v : α) (h : j ≠ k) : smFind (smPut m k v) j = smFind m j := by
  induction m with
  | nil => simp [smPut, smFind, Ne.symm h]
  | cons e m ih =>
    obtain ⟨i, w⟩ := e
    unfold smPut
    split
    · simp [smFind, Ne.symm h]
    · split
      · next hi => subst hi; simp [smFind, Ne.symm h]
      · simp only [smFind, ih]

@[simp] theorem smGet_put_same (d : α) (m : SMap α) (k : Nat) (v : α) : smGet d (smPut m k v) k = v := by
  induction m with
  | nil => simp [smPut, smGet]
  | cons e m ih =>
    obtain ⟨j, w⟩ := e
    unfold smPut
    split
    · simp [smGet]
    · split
      · simp [smGet]
      · simp [smGet, *]

theorem smGet_put_ne (d : α) (m : SMap α) {k j : Nat} (v : α) (h : j ≠ k) : smGet d (smPut m k v) j = smGet d m j := by
  induction m with
  | nil => simp [smPut, smGet, Ne.symm h]
  | cons e m ih =>
    obtain ⟨i, w⟩ := e
    unfold smPut
    split
    · simp [smGet, Ne.symm h]
    · split
      · next hi => subst hi; simp [smGet, Ne.symm h]
      · simp only [smGet, ih]

@[simp] theorem smPut_put (m : SMap α) (k : Nat) (v w : α) : smPut (smPut m k v) k w = smPut m k w := by
  induction m with
  | nil => simp [smPut]
  | cons e m ih =>
    obtain ⟨j, u⟩ := e
    by_cases h : k < j
    · simp [smPut, h]
    · by_cases h' : j = k
      · subst h'; simp [smPut]
      · simp [smPut, h, h', ih]

theorem smGet_del_ne (d : α) (m : SMap α) {k j : Nat} (h : j ≠ k) : smGet d (smDel m k) j = smGet d m j := by
  induction m with
  | nil => rfl
  | cons e m ih =>
    obtain ⟨i, w⟩ := e
    unfold smDel
    split
    · next hi => subst hi; simp [smGet, Ne.symm h, ih]
    · simp only [smGet, ih]

/-! ### The canonical form -/

theorem rising_weaken {lo lo' : Nat} {m : SMap α} (h : smRising lo m = true) (hl : lo' ≤ lo) : smRising lo' m = true := by
  cases m with
  | nil => rfl
  | cons e m =>
    simp only [smRising, Bool.and_eq_true, decide_eq_true_eq] at h ⊢
    exact ⟨by omega, h.2⟩

theorem smGet_below (d : α) {lo k : Nat} {m : SMap α} (h : smRising lo m = true) (hk : k < lo) : smGet d m k = d := by
  induction m generalizing lo with
  | nil => rfl
  | cons e m ih =>
    obtain ⟨j, w⟩ := e
    simp only [smRising, Bool.and_eq_true, decide_eq_true_eq] at h
    have : j ≠ k := by omega
    simp only [smGet, this, if_false]
    exact ih h.2 (by omega)

theorem rising_put {lo k : Nat} {m : SMap α} (v : α) (h : smRising lo m = true) (hk : lo ≤ k) : smRising lo (smPut m k v) = true := by
  induction m generalizing lo with
  | nil => simp [smPut, smRising, hk]
  | cons e m ih =>
    obtain ⟨j, w⟩ := e
    simp only [smRising, Bool.and_eq_true, decide_eq_true_eq] at h
    unfold smPut
    split
    · simp only [smRising, Bool.and_eq_true, decide_eq_true_eq]
      exact ⟨hk, by omega, h.2⟩
    · split
      · next hi => subst hi; simp only [smRising, Bool.and_eq_true, decide_eq_true_eq]; exact ⟨h.1, h.2⟩
      · simp only [smRising, Bool.and_eq_true, decide_eq_true_eq]
        exact ⟨h.1, ih h.2 (by omega)⟩

theorem rising_del {lo k : Nat} {m : SMap α} (h : smRising lo m = true) : smRising lo (smDel m k) = true := by
  induction m generalizing lo with
  | nil => rfl
  | cons e m ih =>
    obtain ⟨j, w⟩ := e
    simp only [smRising, Bool.and_eq_true, decide_eq_true_eq] at h
    unfold smDel
    split
    · exact rising_weaken (ih h.2) (by omega)
    · simp only [smRising, Bool.and_eq_true, decide_eq_true_eq]
      exact ⟨h.1, ih h.2⟩

theorem rising_filter {lo : Nat} {m : SMap α} (p : Nat × α → Bool) (h : smRising lo m = true) :
    smRising lo (m.filter p) = true := by
  induction m generalizing lo with
  | nil => rfl
  | cons e m ih =>
    obtain ⟨j, w⟩ := e
    simp only [smRising, Bool.and_eq_true, decide_eq_true_eq] at h
    rw [List.filter_cons]
    split
    · simp only [smRising, Bool.and_eq_true, decide_eq_true_eq]
      exact ⟨h.1, ih h.2⟩
    · exact rising_weaken (ih h.2) (by omega)

@[simp] theorem smGet_del_same (d : α) (m : SMap α) (k : Nat) : smGet d (smDel m k) k = d := by
  induction m with
  | nil => rfl
  | cons e m ih =>
    obtain ⟨j, w⟩ := e
    unfold smDel
    split
    · exact ih
    · next hj => simpa only [smGet, hj, if_false] using ih

variable [DecidableEq α]

theorem noDefault_put {d : α} {m : SMap α} {k : Nat} {v : α} (h : smNoDefault d m = true) (hv : v ≠ d) :
    smNoDefault d (smPut m k v) = true := by
  induction m with
  | nil => simp [smPut, smNoDefault, hv]
  | cons e m ih =>
    obtain ⟨j, w⟩ := e
    simp only [smNoDefault, Bool.and_eq_true, decide_eq_true_eq] at h
    unfold smPut
    split
    · simp [smNoDefault, hv, h.1, h.2]
    · split
      · simp [smNoDefault, hv, h.2]
      · simp [smNoDefault, h.1, ih h.2]

theorem noDefault_del {d : α} {m : SMap α} {k : Nat} (h : smNoDefault d m = true) : smNoDefault d (smDel m k) = true := by
  induction m with
  | nil => rfl
  | cons e m ih =>
    obtain ⟨j, w⟩ := e
    simp only [smNoDefault, Bool.and_eq_true, decide_eq_true_eq] at h
    unfold smDel
    split
    · exact ih h.2
    · simp [smNoDefault, h.1, ih h.2]

theorem noDefault_filter {d : α} {m : SMap α} (p : Nat × α → Bool) (h : smNoDefault d m = true) :
    smNoDefault d (m.filter p) = true := by
  induction m with
  | nil => rfl
  | cons e m ih =>
    obtain ⟨j, w⟩ := e
    simp only [smNoDefault, Bool.and_eq_true, decide_eq_true_eq] at h
    rw [List.filter_cons]
    split
    · simp [smNoDefault, h.1, ih h.2]
    · exact ih h.2

/-- A write keeps the canonical form. -/
theorem wf_set {d : α} {m : SMap α} (k : Nat) (v : α) (h : smWf d m = true) : smWf d (smSet d m k v) = true := by
  simp only [smWf, Bool.and_eq_true] at h ⊢
  unfold smSet
  split
  · exact ⟨rising_del h.1, noDefault_del h.2⟩
  · next hv => exact ⟨rising_put v h.1 (Nat.zero_le k), noDefault_put h.2 hv⟩

/-- Removing entries keeps the canonical form. -/
theorem wf_filter {d : α} {m : SMap α} (p : Nat × α → Bool) (h : smWf d m = true) : smWf d (m.filter p) = true := by
  simp only [smWf, Bool.and_eq_true] at h ⊢
  exact ⟨rising_filter p h.1, noDefault_filter p h.2⟩

/-- Writes made one after another keep the canonical form. -/
theorem wf_setAll {d : α} (l : List (Nat × α)) {m : SMap α} (h : smWf d m = true) :
    smWf d (l.foldl (fun m e => smSet d m e.1 e.2) m) = true := by
  induction l generalizing m with
  | nil => exact h
  | cons e l ih => exact ih (wf_set e.1 e.2 h)

theorem smGet_set_ne (d : α) (m : SMap α) {k j : Nat} (v : α) (h : j ≠ k) : smGet d (smSet d m k v) j = smGet d m j := by
  unfold smSet
  split
  · exact smGet_del_ne d m h
  · exact smGet_put_ne d m v h

/-- A read after a write to the same place gives the value written. -/
@[simp] theorem smGet_set_same (d : α) (m : SMap α) (k : Nat) (v : α) : smGet d (smSet d m k v) k = v := by
  unfold smSet
  split
  · next hv => subst hv; exact smGet_del_same v m k
  · exact smGet_put_same d m k v

end Sys2Proof.Laws
end

