-- ==== Sys2Proof/Laws/State.lean ====
section
/-!
SUPPORT. What each update of the state does to each of its fields, and reading back the parts that are kept by number.
-/

namespace Sys2Proof.Laws

open Sys2Proof.Machine

/-! ### `setCore` -/

@[simp] theorem clock_setCore (s : State) (k : Nat) (c : Core) : (s.setCore k c).clock = s.clock := rfl
@[simp] theorem mem_setCore (s : State) (k : Nat) (c : Core) : (s.setCore k c).mem = s.mem := rfl
@[simp] theorem keyTag_setCore (s : State) (k : Nat) (c : Core) : (s.setCore k c).keyTag = s.keyTag := rfl
@[simp] theorem keyRange_setCore (s : State) (k : Nat) (c : Core) : (s.setCore k c).keyRange = s.keyRange := rfl
@[simp] theorem poison_setCore (s : State) (k : Nat) (c : Core) : (s.setCore k c).poison = s.poison := rfl
@[simp] theorem cores_setCore (s : State) (k : Nat) (c : Core) : (s.setCore k c).cores = smPut s.cores k c := rfl
@[simp] theorem querns_setCore (s : State) (k : Nat) (c : Core) : (s.setCore k c).querns = s.querns := rfl
@[simp] theorem tlb_setCore (s : State) (k : Nat) (c : Core) : (s.setCore k c).tlb = s.tlb := rfl
@[simp] theorem regions_setCore (s : State) (k : Nat) (c : Core) : (s.setCore k c).regions = s.regions := rfl
@[simp] theorem nextRid_setCore (s : State) (k : Nat) (c : Core) : (s.setCore k c).nextRid = s.nextRid := rfl
@[simp] theorem parts_setCore (s : State) (k : Nat) (c : Core) : (s.setCore k c).parts = s.parts := rfl
@[simp] theorem dev_setCore (s : State) (k : Nat) (c : Core) : (s.setCore k c).dev = s.dev := rfl
@[simp] theorem agenda_setCore (s : State) (k : Nat) (c : Core) : (s.setCore k c).agenda = s.agenda := rfl
@[simp] theorem turn_setCore (s : State) (k : Nat) (c : Core) : (s.setCore k c).turn = s.turn := rfl
@[simp] theorem eager_setCore (s : State) (k : Nat) (c : Core) : (s.setCore k c).eager = s.eager := rfl
@[simp] theorem freeCtr_setCore (s : State) (k : Nat) (c : Core) : (s.setCore k c).freeCtr = s.freeCtr := rfl

/-! ### `setRegion` -/

@[simp] theorem clock_setRegion (s : State) (r : Nat) (g : Region) : (s.setRegion r g).clock = s.clock := rfl
@[simp] theorem mem_setRegion (s : State) (r : Nat) (g : Region) : (s.setRegion r g).mem = s.mem := rfl
@[simp] theorem keyTag_setRegion (s : State) (r : Nat) (g : Region) : (s.setRegion r g).keyTag = s.keyTag := rfl
@[simp] theorem keyRange_setRegion (s : State) (r : Nat) (g : Region) : (s.setRegion r g).keyRange = s.keyRange := rfl
@[simp] theorem poison_setRegion (s : State) (r : Nat) (g : Region) : (s.setRegion r g).poison = s.poison := rfl
@[simp] theorem cores_setRegion (s : State) (r : Nat) (g : Region) : (s.setRegion r g).cores = s.cores := rfl
@[simp] theorem querns_setRegion (s : State) (r : Nat) (g : Region) : (s.setRegion r g).querns = s.querns := rfl
@[simp] theorem tlb_setRegion (s : State) (r : Nat) (g : Region) : (s.setRegion r g).tlb = s.tlb := rfl
@[simp] theorem regions_setRegion (s : State) (r : Nat) (g : Region) : (s.setRegion r g).regions = smPut s.regions r g := rfl
@[simp] theorem nextRid_setRegion (s : State) (r : Nat) (g : Region) : (s.setRegion r g).nextRid = s.nextRid := rfl
@[simp] theorem parts_setRegion (s : State) (r : Nat) (g : Region) : (s.setRegion r g).parts = s.parts := rfl
@[simp] theorem dev_setRegion (s : State) (r : Nat) (g : Region) : (s.setRegion r g).dev = s.dev := rfl
@[simp] theorem agenda_setRegion (s : State) (r : Nat) (g : Region) : (s.setRegion r g).agenda = s.agenda := rfl
@[simp] theorem turn_setRegion (s : State) (r : Nat) (g : Region) : (s.setRegion r g).turn = s.turn := rfl
@[simp] theorem eager_setRegion (s : State) (r : Nat) (g : Region) : (s.setRegion r g).eager = s.eager := rfl
@[simp] theorem freeCtr_setRegion (s : State) (r : Nat) (g : Region) : (s.setRegion r g).freeCtr = s.freeCtr := rfl

/-! ### `setPart` -/

@[simp] theorem clock_setPart (s : State) (p : Nat) (v : Part) : (s.setPart p v).clock = s.clock := rfl
@[simp] theorem mem_setPart (s : State) (p : Nat) (v : Part) : (s.setPart p v).mem = s.mem := rfl
@[simp] theorem keyTag_setPart (s : State) (p : Nat) (v : Part) : (s.setPart p v).keyTag = s.keyTag := rfl
@[simp] theorem keyRange_setPart (s : State) (p : Nat) (v : Part) : (s.setPart p v).keyRange = s.keyRange := rfl
@[simp] theorem poison_setPart (s : State) (p : Nat) (v : Part) : (s.setPart p v).poison = s.poison := rfl
@[simp] theorem cores_setPart (s : State) (p : Nat) (v : Part) : (s.setPart p v).cores = s.cores := rfl
@[simp] theorem querns_setPart (s : State) (p : Nat) (v : Part) : (s.setPart p v).querns = s.querns := rfl
@[simp] theorem tlb_setPart (s : State) (p : Nat) (v : Part) : (s.setPart p v).tlb = s.tlb := rfl
@[simp] theorem regions_setPart (s : State) (p : Nat) (v : Part) : (s.setPart p v).regions = s.regions := rfl
@[simp] theorem nextRid_setPart (s : State) (p : Nat) (v : Part) : (s.setPart p v).nextRid = s.nextRid := rfl
@[simp] theorem parts_setPart (s : State) (p : Nat) (v : Part) : (s.setPart p v).parts = smPut s.parts p v := rfl
@[simp] theorem dev_setPart (s : State) (p : Nat) (v : Part) : (s.setPart p v).dev = s.dev := rfl
@[simp] theorem agenda_setPart (s : State) (p : Nat) (v : Part) : (s.setPart p v).agenda = s.agenda := rfl
@[simp] theorem turn_setPart (s : State) (p : Nat) (v : Part) : (s.setPart p v).turn = s.turn := rfl
@[simp] theorem eager_setPart (s : State) (p : Nat) (v : Part) : (s.setPart p v).eager = s.eager := rfl
@[simp] theorem freeCtr_setPart (s : State) (p : Nat) (v : Part) : (s.setPart p v).freeCtr = s.freeCtr := rfl

/-! ### `setQuern` -/

@[simp] theorem clock_setQuern (s : State) (k : Nat) (q : Quern) : (s.setQuern k q).clock = s.clock := rfl
@[simp] theorem mem_setQuern (s : State) (k : Nat) (q : Quern) : (s.setQuern k q).mem = s.mem := rfl
@[simp] theorem keyTag_setQuern (s : State) (k : Nat) (q : Quern) : (s.setQuern k q).keyTag = s.keyTag := rfl
@[simp] theorem keyRange_setQuern (s : State) (k : Nat) (q : Quern) : (s.setQuern k q).keyRange = s.keyRange := rfl
@[simp] theorem poison_setQuern (s : State) (k : Nat) (q : Quern) : (s.setQuern k q).poison = s.poison := rfl
@[simp] theorem cores_setQuern (s : State) (k : Nat) (q : Quern) : (s.setQuern k q).cores = s.cores := rfl
@[simp] theorem querns_setQuern (s : State) (k : Nat) (q : Quern) : (s.setQuern k q).querns = smPut s.querns k q := rfl
@[simp] theorem tlb_setQuern (s : State) (k : Nat) (q : Quern) : (s.setQuern k q).tlb = s.tlb := rfl
@[simp] theorem regions_setQuern (s : State) (k : Nat) (q : Quern) : (s.setQuern k q).regions = s.regions := rfl
@[simp] theorem nextRid_setQuern (s : State) (k : Nat) (q : Quern) : (s.setQuern k q).nextRid = s.nextRid := rfl
@[simp] theorem parts_setQuern (s : State) (k : Nat) (q : Quern) : (s.setQuern k q).parts = s.parts := rfl
@[simp] theorem dev_setQuern (s : State) (k : Nat) (q : Quern) : (s.setQuern k q).dev = s.dev := rfl
@[simp] theorem agenda_setQuern (s : State) (k : Nat) (q : Quern) : (s.setQuern k q).agenda = s.agenda := rfl
@[simp] theorem turn_setQuern (s : State) (k : Nat) (q : Quern) : (s.setQuern k q).turn = s.turn := rfl
@[simp] theorem eager_setQuern (s : State) (k : Nat) (q : Quern) : (s.setQuern k q).eager = s.eager := rfl
@[simp] theorem freeCtr_setQuern (s : State) (k : Nat) (q : Quern) : (s.setQuern k q).freeCtr = s.freeCtr := rfl

/-! ### `setCur` -/

@[simp] theorem clock_setCur (s : State) (c : Core) : (s.setCur c).clock = s.clock := rfl
@[simp] theorem mem_setCur (s : State) (c : Core) : (s.setCur c).mem = s.mem := rfl
@[simp] theorem keyTag_setCur (s : State) (c : Core) : (s.setCur c).keyTag = s.keyTag := rfl
@[simp] theorem keyRange_setCur (s : State) (c : Core) : (s.setCur c).keyRange = s.keyRange := rfl
@[simp] theorem poison_setCur (s : State) (c : Core) : (s.setCur c).poison = s.poison := rfl
@[simp] theorem cores_setCur (s : State) (c : Core) : (s.setCur c).cores = smPut s.cores s.turn.1 c := rfl
@[simp] theorem querns_setCur (s : State) (c : Core) : (s.setCur c).querns = s.querns := rfl
@[simp] theorem tlb_setCur (s : State) (c : Core) : (s.setCur c).tlb = s.tlb := rfl
@[simp] theorem regions_setCur (s : State) (c : Core) : (s.setCur c).regions = s.regions := rfl
@[simp] theorem nextRid_setCur (s : State) (c : Core) : (s.setCur c).nextRid = s.nextRid := rfl
@[simp] theorem parts_setCur (s : State) (c : Core) : (s.setCur c).parts = s.parts := rfl
@[simp] theorem dev_setCur (s : State) (c : Core) : (s.setCur c).dev = s.dev := rfl
@[simp] theorem agenda_setCur (s : State) (c : Core) : (s.setCur c).agenda = s.agenda := rfl
@[simp] theorem turn_setCur (s : State) (c : Core) : (s.setCur c).turn = s.turn := rfl
@[simp] theorem eager_setCur (s : State) (c : Core) : (s.setCur c).eager = s.eager := rfl
@[simp] theorem freeCtr_setCur (s : State) (c : Core) : (s.setCur c).freeCtr = s.freeCtr := rfl

/-! ### `modCur` -/

@[simp] theorem clock_modCur (s : State) (f : Core → Core) : (s.modCur f).clock = s.clock := rfl
@[simp] theorem mem_modCur (s : State) (f : Core → Core) : (s.modCur f).mem = s.mem := rfl
@[simp] theorem keyTag_modCur (s : State) (f : Core → Core) : (s.modCur f).keyTag = s.keyTag := rfl
@[simp] theorem keyRange_modCur (s : State) (f : Core → Core) : (s.modCur f).keyRange = s.keyRange := rfl
@[simp] theorem poison_modCur (s : State) (f : Core → Core) : (s.modCur f).poison = s.poison := rfl
@[simp] theorem cores_modCur (s : State) (f : Core → Core) : (s.modCur f).cores = smPut s.cores s.turn.1 (f s.cur) := rfl
@[simp] theorem querns_modCur (s : State) (f : Core → Core) : (s.modCur f).querns = s.querns := rfl
@[simp] theorem tlb_modCur (s : State) (f : Core → Core) : (s.modCur f).tlb = s.tlb := rfl
@[simp] theorem regions_modCur (s : State) (f : Core → Core) : (s.modCur f).regions = s.regions := rfl
@[simp] theorem nextRid_modCur (s : State) (f : Core → Core) : (s.modCur f).nextRid = s.nextRid := rfl
@[simp] theorem parts_modCur (s : State) (f : Core → Core) : (s.modCur f).parts = s.parts := rfl
@[simp] theorem dev_modCur (s : State) (f : Core → Core) : (s.modCur f).dev = s.dev := rfl
@[simp] theorem agenda_modCur (s : State) (f : Core → Core) : (s.modCur f).agenda = s.agenda := rfl
@[simp] theorem turn_modCur (s : State) (f : Core → Core) : (s.modCur f).turn = s.turn := rfl
@[simp] theorem eager_modCur (s : State) (f : Core → Core) : (s.modCur f).eager = s.eager := rfl
@[simp] theorem freeCtr_modCur (s : State) (f : Core → Core) : (s.modCur f).freeCtr = s.freeCtr := rfl

/-! ### `modCtx` -/

@[simp] theorem clock_modCtx (s : State) (f : ApCtx → ApCtx) : (s.modCtx f).clock = s.clock := rfl
@[simp] theorem mem_modCtx (s : State) (f : ApCtx → ApCtx) : (s.modCtx f).mem = s.mem := rfl
@[simp] theorem keyTag_modCtx (s : State) (f : ApCtx → ApCtx) : (s.modCtx f).keyTag = s.keyTag := rfl
@[simp] theorem keyRange_modCtx (s : State) (f : ApCtx → ApCtx) : (s.modCtx f).keyRange = s.keyRange := rfl
@[simp] theorem poison_modCtx (s : State) (f : ApCtx → ApCtx) : (s.modCtx f).poison = s.poison := rfl
@[simp] theorem cores_modCtx (s : State) (f : ApCtx → ApCtx) : (s.modCtx f).cores = smPut s.cores s.turn.1 (s.cur.setCtx (f s.cur.ctx)) := rfl
@[simp] theorem querns_modCtx (s : State) (f : ApCtx → ApCtx) : (s.modCtx f).querns = s.querns := rfl
@[simp] theorem tlb_modCtx (s : State) (f : ApCtx → ApCtx) : (s.modCtx f).tlb = s.tlb := rfl
@[simp] theorem regions_modCtx (s : State) (f : ApCtx → ApCtx) : (s.modCtx f).regions = s.regions := rfl
@[simp] theorem nextRid_modCtx (s : State) (f : ApCtx → ApCtx) : (s.modCtx f).nextRid = s.nextRid := rfl
@[simp] theorem parts_modCtx (s : State) (f : ApCtx → ApCtx) : (s.modCtx f).parts = s.parts := rfl
@[simp] theorem dev_modCtx (s : State) (f : ApCtx → ApCtx) : (s.modCtx f).dev = s.dev := rfl
@[simp] theorem agenda_modCtx (s : State) (f : ApCtx → ApCtx) : (s.modCtx f).agenda = s.agenda := rfl
@[simp] theorem turn_modCtx (s : State) (f : ApCtx → ApCtx) : (s.modCtx f).turn = s.turn := rfl
@[simp] theorem eager_modCtx (s : State) (f : ApCtx → ApCtx) : (s.modCtx f).eager = s.eager := rfl
@[simp] theorem freeCtr_modCtx (s : State) (f : ApCtx → ApCtx) : (s.modCtx f).freeCtr = s.freeCtr := rfl

/-! ### `modVx` -/

@[simp] theorem clock_modVx (s : State) (f : Vx → Vx) : (s.modVx f).clock = s.clock := rfl
@[simp] theorem mem_modVx (s : State) (f : Vx → Vx) : (s.modVx f).mem = s.mem := rfl
@[simp] theorem keyTag_modVx (s : State) (f : Vx → Vx) : (s.modVx f).keyTag = s.keyTag := rfl
@[simp] theorem keyRange_modVx (s : State) (f : Vx → Vx) : (s.modVx f).keyRange = s.keyRange := rfl
@[simp] theorem poison_modVx (s : State) (f : Vx → Vx) : (s.modVx f).poison = s.poison := rfl
@[simp] theorem cores_modVx (s : State) (f : Vx → Vx) : (s.modVx f).cores = smPut s.cores s.turn.1 { s.cur with vx := f s.cur.vx } := rfl
@[simp] theorem querns_modVx (s : State) (f : Vx → Vx) : (s.modVx f).querns = s.querns := rfl
@[simp] theorem tlb_modVx (s : State) (f : Vx → Vx) : (s.modVx f).tlb = s.tlb := rfl
@[simp] theorem regions_modVx (s : State) (f : Vx → Vx) : (s.modVx f).regions = s.regions := rfl
@[simp] theorem nextRid_modVx (s : State) (f : Vx → Vx) : (s.modVx f).nextRid = s.nextRid := rfl
@[simp] theorem parts_modVx (s : State) (f : Vx → Vx) : (s.modVx f).parts = s.parts := rfl
@[simp] theorem dev_modVx (s : State) (f : Vx → Vx) : (s.modVx f).dev = s.dev := rfl
@[simp] theorem agenda_modVx (s : State) (f : Vx → Vx) : (s.modVx f).agenda = s.agenda := rfl
@[simp] theorem turn_modVx (s : State) (f : Vx → Vx) : (s.modVx f).turn = s.turn := rfl
@[simp] theorem eager_modVx (s : State) (f : Vx → Vx) : (s.modVx f).eager = s.eager := rfl
@[simp] theorem freeCtr_modVx (s : State) (f : Vx → Vx) : (s.modVx f).freeCtr = s.freeCtr := rfl

/-! ### `modMx` -/

@[simp] theorem clock_modMx (s : State) (f : Mx → Mx) : (s.modMx f).clock = s.clock := rfl
@[simp] theorem mem_modMx (s : State) (f : Mx → Mx) : (s.modMx f).mem = s.mem := rfl
@[simp] theorem keyTag_modMx (s : State) (f : Mx → Mx) : (s.modMx f).keyTag = s.keyTag := rfl
@[simp] theorem keyRange_modMx (s : State) (f : Mx → Mx) : (s.modMx f).keyRange = s.keyRange := rfl
@[simp] theorem poison_modMx (s : State) (f : Mx → Mx) : (s.modMx f).poison = s.poison := rfl
@[simp] theorem cores_modMx (s : State) (f : Mx → Mx) : (s.modMx f).cores = smPut s.cores s.turn.1 { s.cur with mx := f s.cur.mx } := rfl
@[simp] theorem querns_modMx (s : State) (f : Mx → Mx) : (s.modMx f).querns = s.querns := rfl
@[simp] theorem tlb_modMx (s : State) (f : Mx → Mx) : (s.modMx f).tlb = s.tlb := rfl
@[simp] theorem regions_modMx (s : State) (f : Mx → Mx) : (s.modMx f).regions = s.regions := rfl
@[simp] theorem nextRid_modMx (s : State) (f : Mx → Mx) : (s.modMx f).nextRid = s.nextRid := rfl
@[simp] theorem parts_modMx (s : State) (f : Mx → Mx) : (s.modMx f).parts = s.parts := rfl
@[simp] theorem dev_modMx (s : State) (f : Mx → Mx) : (s.modMx f).dev = s.dev := rfl
@[simp] theorem agenda_modMx (s : State) (f : Mx → Mx) : (s.modMx f).agenda = s.agenda := rfl
@[simp] theorem turn_modMx (s : State) (f : Mx → Mx) : (s.modMx f).turn = s.turn := rfl
@[simp] theorem eager_modMx (s : State) (f : Mx → Mx) : (s.modMx f).eager = s.eager := rfl
@[simp] theorem freeCtr_modMx (s : State) (f : Mx → Mx) : (s.modMx f).freeCtr = s.freeCtr := rfl

/-! ### `replyWith` -/

@[simp] theorem clock_replyWith (s : State) (r : Reply) : (replyWith s r).clock = s.clock := rfl
@[simp] theorem mem_replyWith (s : State) (r : Reply) : (replyWith s r).mem = s.mem := rfl
@[simp] theorem keyTag_replyWith (s : State) (r : Reply) : (replyWith s r).keyTag = s.keyTag := rfl
@[simp] theorem keyRange_replyWith (s : State) (r : Reply) : (replyWith s r).keyRange = s.keyRange := rfl
@[simp] theorem poison_replyWith (s : State) (r : Reply) : (replyWith s r).poison = s.poison := rfl
@[simp] theorem cores_replyWith (s : State) (r : Reply) : (replyWith s r).cores = s.cores := rfl
@[simp] theorem querns_replyWith (s : State) (r : Reply) : (replyWith s r).querns = s.querns := rfl
@[simp] theorem tlb_replyWith (s : State) (r : Reply) : (replyWith s r).tlb = s.tlb := rfl
@[simp] theorem regions_replyWith (s : State) (r : Reply) : (replyWith s r).regions = s.regions := rfl
@[simp] theorem nextRid_replyWith (s : State) (r : Reply) : (replyWith s r).nextRid = s.nextRid := rfl
@[simp] theorem parts_replyWith (s : State) (r : Reply) : (replyWith s r).parts = s.parts := rfl
@[simp] theorem dev_replyWith (s : State) (r : Reply) : (replyWith s r).dev = { s.dev with reply := r } := rfl
@[simp] theorem agenda_replyWith (s : State) (r : Reply) : (replyWith s r).agenda = s.agenda := rfl
@[simp] theorem turn_replyWith (s : State) (r : Reply) : (replyWith s r).turn = s.turn := rfl
@[simp] theorem eager_replyWith (s : State) (r : Reply) : (replyWith s r).eager = s.eager := rfl
@[simp] theorem freeCtr_replyWith (s : State) (r : Reply) : (replyWith s r).freeCtr = s.freeCtr := rfl

/-! ### Parts by number -/

@[simp] theorem core_setCore_same (s : State) (k : Nat) (c : Core) : (s.setCore k c).core k = c := by
  simp [State.core]
theorem core_setCore_ne (s : State) {k j : Nat} (c : Core) (h : j ≠ k) : (s.setCore k c).core j = s.core j := by
  simp [State.core, smGet_put_ne _ _ _ h]
@[simp] theorem setCore_setCore (s : State) (k : Nat) (c d : Core) : (s.setCore k c).setCore k d = s.setCore k d := by
  simp [State.setCore]
@[simp] theorem region_setRegion_same (s : State) (r : Nat) (g : Region) : (s.setRegion r g).region? r = some g := by
  simp [State.region?]
theorem region_setRegion_ne (s : State) {r q : Nat} (g : Region) (h : q ≠ r) : (s.setRegion r g).region? q = s.region? q := by
  simp [State.region?, smFind_put_ne _ _ h]
@[simp] theorem part_setPart_same (s : State) (p : Nat) (v : Part) : (s.setPart p v).part p = v := by
  simp [State.part]
theorem part_setPart_ne (s : State) {p q : Nat} (v : Part) (h : q ≠ p) : (s.setPart p v).part q = s.part q := by
  simp [State.part, smGet_put_ne _ _ _ h]
@[simp] theorem quern_setQuern_same (s : State) (k : Nat) (q : Quern) : (s.setQuern k q).quern k = q := by
  simp [State.quern]
theorem quern_setQuern_ne (s : State) {k j : Nat} (q : Quern) (h : j ≠ k) : (s.setQuern k q).quern j = s.quern j := by
  simp [State.quern, smGet_put_ne _ _ _ h]

@[simp] theorem core_setRegion (s : State) (r : Nat) (g : Region) (k : Nat) : (s.setRegion r g).core k = s.core k := rfl
@[simp] theorem core_setPart (s : State) (p : Nat) (v : Part) (k : Nat) : (s.setPart p v).core k = s.core k := rfl
@[simp] theorem core_setQuern (s : State) (j : Nat) (q : Quern) (k : Nat) : (s.setQuern j q).core k = s.core k := rfl
@[simp] theorem region_setCore (s : State) (k : Nat) (c : Core) (r : Nat) : (s.setCore k c).region? r = s.region? r := rfl
@[simp] theorem region_setPart (s : State) (p : Nat) (v : Part) (r : Nat) : (s.setPart p v).region? r = s.region? r := rfl
@[simp] theorem region_setQuern (s : State) (k : Nat) (q : Quern) (r : Nat) : (s.setQuern k q).region? r = s.region? r := rfl
@[simp] theorem part_setCore (s : State) (k : Nat) (c : Core) (p : Nat) : (s.setCore k c).part p = s.part p := rfl
@[simp] theorem part_setRegion (s : State) (r : Nat) (g : Region) (p : Nat) : (s.setRegion r g).part p = s.part p := rfl
@[simp] theorem part_setQuern (s : State) (k : Nat) (q : Quern) (p : Nat) : (s.setQuern k q).part p = s.part p := rfl
@[simp] theorem quern_setCore (s : State) (k : Nat) (c : Core) (j : Nat) : (s.setCore k c).quern j = s.quern j := rfl
@[simp] theorem quern_setRegion (s : State) (r : Nat) (g : Region) (j : Nat) : (s.setRegion r g).quern j = s.quern j := rfl
@[simp] theorem quern_setPart (s : State) (p : Nat) (v : Part) (j : Nat) : (s.setPart p v).quern j = s.quern j := rfl

/-! ### The current core -/

@[simp] theorem cur_setCur (s : State) (c : Core) : (s.setCur c).cur = c := by
  simp [State.cur, State.setCur]
@[simp] theorem cur_modCur (s : State) (f : Core → Core) : (s.modCur f).cur = f s.cur := by
  simp [State.modCur]
@[simp] theorem setCur_setCur (s : State) (c d : Core) : (s.setCur c).setCur d = s.setCur d := by
  simp [State.setCur]
@[simp] theorem setCur_modCur (s : State) (f : Core → Core) (d : Core) : (s.modCur f).setCur d = s.setCur d := by
  simp [State.modCur]
theorem modCur_modCur (s : State) (f g : Core → Core) : (s.modCur f).modCur g = s.modCur fun c => g (f c) := by
  simp [State.modCur]
theorem core_setCur_ne (s : State) {j : Nat} (c : Core) (h : j ≠ s.turn.1) : (s.setCur c).core j = s.core j :=
  core_setCore_ne s c h
theorem core_modCur_ne (s : State) {j : Nat} (f : Core → Core) (h : j ≠ s.turn.1) : (s.modCur f).core j = s.core j :=
  core_setCore_ne s _ h
@[simp] theorem cur_modVx (s : State) (f : Vx → Vx) : (s.modVx f).cur = { s.cur with vx := f s.cur.vx } := by
  simp [State.modVx]
@[simp] theorem cur_modMx (s : State) (f : Mx → Mx) : (s.modMx f).cur = { s.cur with mx := f s.cur.mx } := by
  simp [State.modMx]

/-! ### The running context -/

@[simp] theorem inHandler_setCtx (c : Core) (x : ApCtx) : (c.setCtx x).inHandler = c.inHandler := by
  unfold Core.setCtx; split <;> rfl
@[simp] theorem ctx_setCtx (c : Core) (x : ApCtx) : (c.setCtx x).ctx = x := by
  unfold Core.ctx
  rw [inHandler_setCtx]
  unfold Core.setCtx
  split <;> rfl
@[simp] theorem setCtx_setCtx (c : Core) (x y : ApCtx) : (c.setCtx x).setCtx y = c.setCtx y := by
  have h := inHandler_setCtx c x
  cases hc : c.inHandler <;> rw [hc] at h
  · show (if (c.setCtx x).inHandler then _ else { c.setCtx x with main := y }) = _
    rw [h]; simp [Core.setCtx, hc]
  · show (if (c.setCtx x).inHandler then { c.setCtx x with shadow := y } else _) = _
    rw [h]; simp [Core.setCtx, hc]
@[simp] theorem cur_modCtx (s : State) (f : ApCtx → ApCtx) : (s.modCtx f).cur = s.cur.setCtx (f s.cur.ctx) := by
  simp [State.modCtx]
theorem modCtx_modCtx (s : State) (f g : ApCtx → ApCtx) : (s.modCtx f).modCtx g = s.modCtx fun x => g (f x) := by
  simp [State.modCtx]

end Sys2Proof.Laws
end

