-- ==== Sys2Proof/Laws/Ap.lean ====
section
/-!
SUPPORT. What the shared frame of the AP's words does: a word that runs its own effect leaves the state `wordDone`.
-/

namespace Sys2Proof.Laws

open Sys2Proof.Machine

/-! ### States that differ in the current core only -/

/-- Writing the current core forgets how `t` came from `s`. -/
def OfCur (s t : State) : Prop := ∀ c, t.setCur c = s.setCur c

theorem OfCur.refl (s : State) : OfCur s s := fun _ => rfl
theorem OfCur.trans {s t u : State} (h : OfCur s t) (k : OfCur t u) : OfCur s u := fun c => (k c).trans (h c)
theorem ofCur_setCur (s : State) (c : Core) : OfCur s (s.setCur c) := fun d => setCur_setCur s c d
theorem ofCur_modCur (s : State) (f : Core → Core) : OfCur s (s.modCur f) := ofCur_setCur s _
theorem ofCur_modCtx (s : State) (f : ApCtx → ApCtx) : OfCur s (s.modCtx f) := ofCur_setCur s _
theorem ofCur_modVx (s : State) (f : Vx → Vx) : OfCur s (s.modVx f) := ofCur_setCur s _
theorem ofCur_modMx (s : State) (f : Mx → Mx) : OfCur s (s.modMx f) := ofCur_setCur s _
theorem ofCur_result (s : State) (lat : Nat) (d : ApDst) (v : Word) : OfCur s (result s lat d v) := ofCur_modCtx s _
theorem ofCur_setX (s : State) (lat : Nat) (d : BitVec 5) (v : Word) : OfCur s (setX s lat d v) := by
  unfold setX; split
  · exact .refl s
  · exact ofCur_result s _ _ _
theorem ofCur_setP (s : State) (lat : Nat) (d : BitVec 3) (v : Bool) : OfCur s (setP s lat d v) := by
  unfold setP; split
  · exact .refl s
  · exact ofCur_result s _ _ _

theorem OfCur.clock {s t : State} (h : OfCur s t) : t.clock = s.clock := by
  simpa using congrArg State.clock (h t.cur)
theorem OfCur.turn {s t : State} (h : OfCur s t) : t.turn = s.turn := by
  simpa [State.setCur] using congrArg State.turn (h t.cur)
theorem OfCur.modCur {s t : State} (h : OfCur s t) (f : Core → Core) : t.modCur f = s.setCur (f t.cur) := h _
theorem OfCur.modCtx {s t : State} (h : OfCur s t) (f : ApCtx → ApCtx) :
    t.modCtx f = s.setCur (t.cur.setCtx (f t.cur.ctx)) := h _

/-- Writing the current core leaves everything else. -/
theorem onlyCur_setCur (s : State) (c : Core) : OnlyCur s (s.setCur c) where
  bytes _ := rfl
  others _ h := core_setCur_ne s c h
  rest := rfl

/-! ### The pops -/

/-- The current core once the word's pops are taken. -/
def popCore (h : Hdr) (c : Core) : Core :=
  if c.ctx.popped then c else (takePops c (hdrPops .ap h)).setCtx { c.ctx with popped := true }

theorem inHandler_takePops (c : Core) (l : List (Nat × Nat)) : (takePops c l).inHandler = c.inHandler := rfl
theorem ctx_takePops (c : Core) (l : List (Nat × Nat)) : (takePops c l).ctx = c.ctx := rfl

theorem cur_apPops (h : Hdr) (s : State) : (apPops h s).cur = popCore h s.cur := by
  unfold apPops popCore
  split
  · rfl
  · simp [ctx_takePops]

theorem ofCur_apPops (h : Hdr) (s : State) : OfCur s (apPops h s) := by
  unfold apPops
  split
  · exact .refl s
  · exact (ofCur_modCur s _).trans (ofCur_modCtx _ _)

/-- A context but for the mark of its pops. -/
theorem ctx_popCore (h : Hdr) (c : Core) : (popCore h c).ctx = { c.ctx with popped := true } := by
  unfold popCore
  split
  · next hp => cases hc : c.ctx; simp_all
  · simp

theorem inHandler_popCore (h : Hdr) (c : Core) : (popCore h c).inHandler = c.inHandler := by
  unfold popCore; split <;> simp [inHandler_takePops]

@[simp] theorem xr_apPops (h : Hdr) (s : State) (n : BitVec 5) : xr (apPops h s) n = xr s n := by
  simp [xr, cur_apPops, ctx_popCore]
@[simp] theorem pr_apPops (h : Hdr) (s : State) (n : BitVec 3) : pr (apPops h s) n = pr s n := by
  simp [pr, cur_apPops, ctx_popCore]
@[simp] theorem br_apPops (h : Hdr) (s : State) (n : BitVec 2) : br (apPops h s) n = br s n := by
  simp [br, cur_apPops, ctx_popCore]
@[simp] theorem effAddr_apPops (h : Hdr) (s : State) (a b : BitVec 5) : effAddr (apPops h s) a b = effAddr s a b := by
  simp [effAddr]
@[simp] theorem extBits_apPops (h : Hdr) (s : State) : extBits (apPops h s) = extBits s := by
  simp [extBits, cur_apPops, ctx_popCore]
@[simp] theorem immU_apPops {n : Nat} (h : Hdr) (s : State) (i : BitVec n) : immU (apPops h s) i = immU s i := by
  simp [immU]
@[simp] theorem immW_apPops {n : Nat} (h : Hdr) (s : State) (i : BitVec n) : immW (apPops h s) i = immW s i := by
  simp [immW, immS, cur_apPops, ctx_popCore]
@[simp] theorem pfBits_apPops (h : Hdr) (s : State) : pfBits (apPops h s) = pfBits s := by
  simp [pfBits]

/-! ### A word runs -/

theorem apDecode_none {h : Hdr} {sp : ApSpec} {s : State} (g : ApGoes h sp s) : apDecodeFault h sp s.cur = none := by
  have h1 := g.vs
  have h2 := g.healthy
  unfold apDecodeFault
  rw [if_neg (by omega), if_neg (by rcases g.ext with e | ⟨e, e'⟩ <;> simp_all), if_neg (by simp [g.card])]
  cases hi : s.cur.inHandler
  · simp [g.owned hi, g.healthy]
  · obtain ⟨a1, a2, a3, a4, a5, a6, a7, a8⟩ := g.handler hi
    simp [a1, a2, a3, a4, a5, a6, a7, g.healthy]
    omega

theorem pushHeld_false {s : State} (g : ∀ e ∈ s.cur.pushWait, e.1 ≠ Stream.ap) : pushHeld s.cur .ap = false := by
  unfold pushHeld
  rw [List.any_eq_false]
  intro e he
  simpa using g e he

theorem popsReady_of {c : Core} {l : List (Nat × Nat)} (g : ∀ f < 6, tokSum l f ≤ c.tokens f) : popsReady c l = true := by
  simp [popsReady, g]

theorem apWait_none {h : Hdr} {sp : ApSpec} {s : State} (g : ApGoes h sp s) : apWait h sp true s.cur = none := by
  unfold apWait
  rw [if_neg (by rintro ⟨hi, hp⟩; simp [pushHeld_false (g.free hi)] at hp), if_neg, if_neg, if_neg]
  · rintro ⟨-, hc, hl⟩
    have := g.room hc
    omega
  · rintro ⟨-, hm, hf⟩
    exact hf (g.fences (by simpa using hm))
  · rintro ⟨hp, hr⟩
    rcases g.tokens with t | t
    · simp [hp] at t
    · simp [popsReady_of t] at hr

/-- A word whose effect is done: its pushes, its place in program order, and the pc (R22-R27). -/
theorem apWord_done {h : Hdr} {sp : ApSpec} {s : State} {body : State → Res} {off : State → State} {t : State}
    (g : ApGoes h sp s) (hb : body (apPops h s) = .done t) : apWord h sp body s off = apAdvance (apFinish h sp t) := by
  unfold apWord
  simp only [apDecode_none g, g.guard, Bool.true_or, apWait_none g]
  rw [if_neg (by simp), if_neg, hb]
  · simp only [Bool.and_eq_true, Bool.or_eq_true, not_and, Bool.not_eq_true, cur_apPops]
    intro hm
    have := g.copy (by simpa [or_assoc] using hm)
    unfold popCore
    split
    · exact this
    · unfold Core.setCtx; split <;> exact this

/-- The same for a word that has set the pc itself. -/
theorem apWord_jump {h : Hdr} {sp : ApSpec} {s : State} {body : State → Res} {off : State → State} {t : State}
    (g : ApGoes h sp s) (hb : body (apPops h s) = .jump t) : apWord h sp body s off = apFinish h sp t := by
  unfold apWord
  simp only [apDecode_none g, g.guard, Bool.true_or, apWait_none g]
  rw [if_neg (by simp), if_neg, hb]
  · simp only [Bool.and_eq_true, Bool.or_eq_true, not_and, Bool.not_eq_true, cur_apPops]
    intro hm
    have := g.copy (by simpa [or_assoc] using hm)
    unfold popCore
    split
    · exact this
    · unfold Core.setCtx; split <;> exact this

/-! ### The state it leaves -/

/-- Marks of a finished word: nothing taken, nothing extended, the next place in program order. -/
def issuedCtx (x : ApCtx) : ApCtx := { x with popped := false, lead := 0, ext := [], extBad := false, po := x.po + 1, stall := 0 }

theorem goto_issued (x : ApCtx) (lim : Nat) (w : Word) : (issuedCtx x).goto lim w = issuedCtx (x.goto lim w) := by
  unfold ApCtx.goto; split <;> rfl

/-- Moving the pc does not look at the marks. -/
theorem advance_issued (x : ApCtx) (lim : Nat) : (issuedCtx x).advance lim = issuedCtx (x.advance lim) := by
  have h1 : (issuedCtx x).br = x.br := rfl
  have h2 : (issuedCtx x).loops = x.loops := rfl
  have h3 : (issuedCtx x).pc = x.pc := rfl
  unfold ApCtx.advance
  rw [h1, h2, h3]
  cases hb : x.br with
  | none =>
    rcases hl : loopRun (loopsAt x.loops x.pc.toNat) x.loops with ⟨m, _ | st⟩
    · exact goto_issued { x with loops := m, br := none, via := false } _ _
    · exact goto_issued { x with loops := m, br := none, via := false } _ _
  | some b =>
    show (if b.left ≤ 1 then _ else _) = issuedCtx (if b.left ≤ 1 then _ else _)
    split
    · exact goto_issued { x with br := none, via := true } _ _
    · exact goto_issued { x with br := some { b with left := b.left - 1 }, via := false } _ _

/-- The core that the effect of a word starts from, once its pops are taken, is `c` with these tokens. -/
def poppedTok (h : Hdr) (old c : Core) : Core :=
  { c with tok := if old.ctx.popped then c.tok else (takePops c (hdrPops .ap h)).tok }

theorem setCtx_ctx (c : Core) : c.setCtx c.ctx = c := by
  unfold Core.setCtx Core.ctx; split <;> rfl

theorem popCore_eq (h : Hdr) (c : Core) :
    popCore h c = (poppedTok h c c).setCtx { c.ctx with popped := true } := by
  unfold popCore poppedTok
  split
  · next hp =>
    have : ({ c.ctx with popped := true } : ApCtx) = c.ctx := by cases hc : c.ctx; simp_all
    rw [this]
    exact (setCtx_ctx c).symm
  · rfl

theorem apFinish_eq {h : Hdr} {sp : ApSpec} {s t : State} {c : Core} {x : ApCtx} (o : OfCur s t)
    (hc : t.cur = (poppedTok h s.cur c).setCtx x) : apFinish h sp t = wordDone h sp s c x := by
  unfold apFinish wordDone
  rw [OfCur.modCtx o, OfCur.modCur (ofCur_setCur s _)]
  congr 1
  rw [cur_setCur, hc]
  simp only [ctx_setCtx, setCtx_setCtx]
  unfold coreDone poppedTok wordPushes
  cases hi : c.inHandler <;>
    (have hk : ∀ tk pr pl, ({ c with tok := tk, pushReq := pr, pushLater := pl } : Core).inHandler = c.inHandler := fun _ _ _ => rfl
     cases hn : sp.noPush <;> cases hcm : sp.cmd <;> cases ha : sp.accepted <;>
       simp [Core.setCtx, hk, hi, askPushes])

theorem inHandler_coreDone (h : Hdr) (sp : ApSpec) (old c : Core) (x : ApCtx) :
    (coreDone h sp old c x).inHandler = c.inHandler := by
  unfold coreDone; rw [inHandler_setCtx]; rfl

theorem apAdvance_wordDone (h : Hdr) (sp : ApSpec) (s : State) (c : Core) (x : ApCtx) :
    apAdvance (wordDone h sp s c x) = wordDone h sp s c (x.advance c.apWords) := by
  unfold apAdvance wordDone
  rw [OfCur.modCtx (ofCur_setCur s _), cur_setCur]
  have hw : (coreDone h sp s.cur c x).apWords = c.apWords := by
    unfold Core.apWords; rw [inHandler_coreDone]
  rw [hw]
  congr 1
  unfold coreDone
  rw [ctx_setCtx, setCtx_setCtx]
  exact congrArg _ (advance_issued x _)

/-- A word whose effect is `c` and `x`. -/
theorem wordRuns_done {i : Instr} {h : Hdr} {sp : ApSpec} {s : State} {body : State → Res} {off : State → State} {t : State}
    {c : Core} {x : ApCtx} (hi : exec i s = .next (apWord h sp body s off)) (g : ApGoes h sp s)
    (hb : body (apPops h s) = .done t) (o : OfCur (apPops h s) t)
    (hc : t.cur = (poppedTok h s.cur c).setCtx { x with popped := true }) :
    WordRuns i h sp s c (x.advance c.apWords) := by
  refine ⟨?_, onlyCur_setCur s _⟩
  rw [hi, apWord_done g hb, apFinish_eq ((ofCur_apPops h s).trans o) hc, apAdvance_wordDone]
  congr 1
  unfold wordDone coreDone
  congr 2
  show issuedCtx (({ x with popped := true } : ApCtx).advance _) = issuedCtx (x.advance _)
  rw [← advance_issued, ← advance_issued]
  rfl

/-- The same for a word that sets the pc itself. -/
theorem wordRuns_jump {i : Instr} {h : Hdr} {sp : ApSpec} {s : State} {body : State → Res} {off : State → State} {t : State}
    {c : Core} {x : ApCtx} (hi : exec i s = .next (apWord h sp body s off)) (g : ApGoes h sp s)
    (hb : body (apPops h s) = .jump t) (o : OfCur (apPops h s) t)
    (hc : t.cur = (poppedTok h s.cur c).setCtx { x with popped := true }) :
    WordRuns i h sp s c x := by
  refine ⟨?_, onlyCur_setCur s _⟩
  rw [hi, apWord_jump g hb, apFinish_eq ((ofCur_apPops h s).trans o) hc]
  rfl

/-! ### Words with one result -/

theorem apTime_ofCur {s t : State} (o : OfCur s t) (h : t.cur.inHandler = s.cur.inHandler) (hc : t.cur.cycle = s.cur.cycle) :
    apTime t = apTime s := by
  unfold apTime; rw [h, hc, o.clock]

theorem apTime_apPops (h : Hdr) (s : State) : apTime (apPops h s) = apTime s := by
  refine apTime_ofCur (ofCur_apPops h s) ?_ ?_
  · rw [cur_apPops, inHandler_popCore]
  · rw [cur_apPops]; unfold popCore; split
    · rfl
    · unfold Core.setCtx; split <;> rfl

theorem gets_popped (x : ApCtx) (due : Nat) (dst : Option ApDst) (v : Word) :
    ({ x with popped := true } : ApCtx).gets due dst v = { x.gets due dst v with popped := true } := by
  cases dst <;> rfl

theorem cur_result (s : State) (lat : Nat) (d : ApDst) (v : Word) :
    (result s lat d v).cur = s.cur.setCtx (s.cur.ctx.gets (apTime s + lat) (some d) v) := by
  unfold result; rw [cur_modCtx]; rfl

theorem cur_setX (s : State) (lat : Nat) (d : BitVec 5) (v : Word) :
    (setX s lat d v).cur = s.cur.setCtx (s.cur.ctx.gets (apTime s + lat) (xDst d) v) := by
  unfold setX xDst
  split
  · exact (setCtx_ctx _).symm
  · exact cur_result _ _ _ _

theorem cur_setP (s : State) (lat : Nat) (d : BitVec 3) (v : Bool) :
    (setP s lat d v).cur = s.cur.setCtx (s.cur.ctx.gets (apTime s + lat) (pDst d) (if v then 1 else 0)) := by
  unfold setP pDst
  split
  · exact (setCtx_ctx _).symm
  · exact cur_result _ _ _ _

/-- The pops, then one result. -/
theorem gets_apPops (h : Hdr) (s : State) (lat : Nat) (d : Option ApDst) (v : Word) :
    (apPops h s).cur.setCtx ((apPops h s).cur.ctx.gets (apTime (apPops h s) + lat) d v)
      = (poppedTok h s.cur s.cur).setCtx { s.cur.ctx.gets (apTime s + lat) d v with popped := true } := by
  rw [apTime_apPops, cur_apPops, ctx_popCore, gets_popped, popCore_eq, setCtx_setCtx]

theorem writes_apValue {i : Instr} {h : Hdr} {sp : ApSpec} {s : State} {lat : Nat} {d : BitVec 5} {f : State → Word} {v : Word}
    (hi : exec i s = .next (apValue h sp lat d f s)) (g : ApGoes h sp s) (hv : f (apPops h s) = v) :
    Writes i h sp s lat (xDst d) v := by
  subst hv
  exact wordRuns_done hi g rfl (ofCur_setX _ _ _ _) (by rw [cur_setX, gets_apPops])

theorem writes_apPred {i : Instr} {h : Hdr} {sp : ApSpec} {s : State} {d : BitVec 3} {f : State → Bool} {v : Bool}
    (hi : exec i s = .next (apPred h sp d f s)) (g : ApGoes h sp s) (hv : f (apPops h s) = v) :
    Writes i h sp s 1 (pDst d) (if v then 1 else 0) := by
  subst hv
  exact wordRuns_done hi g rfl (ofCur_setP _ _ _ _) (by rw [cur_setP, gets_apPops])

theorem writes_result {i : Instr} {h : Hdr} {sp : ApSpec} {s : State} {body : State → Res} {lat : Nat} {d : ApDst} {v : Word}
    (hi : exec i s = .next (apWord h sp body s)) (g : ApGoes h sp s)
    (hb : body (apPops h s) = .done (result (apPops h s) lat d v)) : Writes i h sp s lat (some d) v :=
  wordRuns_done hi g hb (ofCur_result _ _ _ _) (by rw [cur_result, gets_apPops])

end Sys2Proof.Laws
end

