-- ==== Sys2Proof/Laws/Bits.lean ====
section
/-!
SUPPORT. The bit helpers of the model in terms of bit vectors: signed readings, words from integers, fields.
-/

namespace Sys2Proof.Laws

open Sys2Proof.Machine

/-- The two's complement reading is that of a bit vector. -/
theorem sint_eq_toInt (n v : Nat) : sint n v = (BitVec.ofNat n v).toInt := by
  unfold sint
  rw [BitVec.toInt_eq_toNat_cond, BitVec.toNat_ofNat]
  rcases n with _ | n
  · simp [Nat.mod_one]
  · have h : 2 ^ (n + 1) = 2 * 2 ^ n := by rw [Nat.pow_succ]; omega
    rw [Nat.add_sub_cancel]
    split <;> split <;> first | rfl | omega

theorem ofNat_intBits (n : Nat) (i : Int) : BitVec.ofNat n (intBits n i) = BitVec.ofInt n i := by
  apply BitVec.eq_of_toNat_eq
  unfold intBits
  rw [BitVec.toNat_ofNat, BitVec.toNat_ofInt]
  apply Nat.mod_eq_of_lt
  have : 0 < (2 ^ n : Nat) := Nat.two_pow_pos n
  have := Int.emod_lt_of_pos i (b := ((2 ^ n : Nat) : Int)) (by omega)
  have := Int.emod_nonneg i (b := ((2 ^ n : Nat) : Int)) (by omega)
  omega

theorem wordOfInt_eq (i : Int) : wordOfInt i = BitVec.ofInt 64 i := ofNat_intBits 64 i

theorem laneOfInt_eq (i : Int) : laneOfInt i = BitVec.ofInt 32 i := ofNat_intBits 32 i

/-- Sign extension through an integer. -/
theorem wordOfInt_sint (n v : Nat) : wordOfInt (sint n v) = (BitVec.ofNat n v).signExtend 64 := by
  rw [wordOfInt_eq, sint_eq_toInt]
  rfl

theorem wbits_low {n : Nat} (w : BitVec n) (k : Nat) : wbits w 0 k = w.toNat % 2 ^ k := by
  simp [wbits, nbits]

/-! ### Bytes -/

theorem length_leBytes (n v : Nat) : (leBytes n v).length = n := by
  induction n generalizing v with
  | zero => rfl
  | succ n ih => simp [leBytes, ih]

theorem leNat_lt (l : List Byte) : leNat l < 256 ^ l.length := by
  induction l with
  | nil => simp [leNat]
  | cons b l ih =>
    have := b.isLt
    simp only [leNat, List.length_cons, Nat.pow_succ]
    omega

/-- The bytes of the number that bytes make. -/
theorem leBytes_leNat (l : List Byte) : leBytes l.length (leNat l) = l := by
  induction l with
  | nil => rfl
  | cons b l ih =>
    have hb := b.isLt
    have h : (b.toNat + 256 * leNat l) / 256 = leNat l := by omega
    simp only [List.length_cons, leBytes, leNat, h, ih, List.cons.injEq, and_true]
    exact BitVec.eq_of_toNat_eq (by simp; omega)

/-- The bytes of the row that bytes make. -/
theorem rowBytes_rowOfList (l : List Byte) (h : l.length = 384) : rowBytes (rowOfList l) = l := by
  have hl := leNat_lt l
  rw [h, show (256 : Nat) ^ 384 = 2 ^ 3072 by decide +kernel] at hl
  simp only [rowBytes, rowOfList, BitVec.toNat_ofNat, Nat.mod_eq_of_lt hl]
  rw [← h, leBytes_leNat]

end Sys2Proof.Laws
end

