-- ==== Sys2Proof/Laws/Memory.lean ====
section
/-!
SUPPORT. What the operations on memory do: reading back what was written, what a write leaves alone, and the canonical form, which every
operation keeps.
-/

namespace Sys2Proof.Laws

open Sys2Proof.Machine

/-! ### One byte -/

@[simp] theorem memByte_memWrite_same (s : State) (a g : Nat) (b : Byte) : memByte (memWrite s a g b) a = b :=
  smGet_set_same _ _ _ _

theorem memByte_memWrite_ne (s : State) {a j : Nat} (g : Nat) (b : Byte) (h : j ≠ a) : memByte (memWrite s a g b) j = memByte s j :=
  smGet_set_ne _ _ _ h

theorem inv_memWrite {s : State} (a g : Nat) (b : Byte) (h : s.Inv) : (memWrite s a g b).Inv := wf_set a b h

@[simp] theorem core_memWrite (s : State) (a g : Nat) (b : Byte) (k : Nat) : (memWrite s a g b).core k = s.core k := rfl
@[simp] theorem cores_memWrite (s : State) (a g : Nat) (b : Byte) : (memWrite s a g b).cores = s.cores := rfl
@[simp] theorem regions_memWrite (s : State) (a g : Nat) (b : Byte) : (memWrite s a g b).regions = s.regions := rfl
@[simp] theorem region_memWrite (s : State) (a g : Nat) (b : Byte) (r : Nat) : (memWrite s a g b).region? r = s.region? r := rfl
@[simp] theorem part_memWrite (s : State) (a g : Nat) (b : Byte) (p : Nat) : (memWrite s a g b).part p = s.part p := rfl
@[simp] theorem clock_memWrite (s : State) (a g : Nat) (b : Byte) : (memWrite s a g b).clock = s.clock := rfl
@[simp] theorem tlb_memWrite (s : State) (a g : Nat) (b : Byte) : (memWrite s a g b).tlb = s.tlb := rfl

/-! ### States that differ from `s` in what a write may touch -/

/-- `t` is `s` but for memory, key tags, errors of units and swizzle tags. -/
structure MemOnly (s t : State) : Prop where
  cores : ∀ j, tagsAside t s j
  rest : { t with mem := s.mem, keyTag := s.keyTag, poison := s.poison, cores := s.cores } = s

theorem MemOnly.refl (s : State) : MemOnly s s := ⟨fun _ => rfl, rfl⟩

theorem MemOnly.trans {s t u : State} (a : MemOnly s t) (b : MemOnly t u) : MemOnly s u where
  cores j := by
    have h1 := a.cores j
    have h2 := b.cores j
    unfold tagsAside at *
    rw [← h1, ← h2]
  rest := by
    have h1 := a.rest
    have h2 := b.rest
    rw [← h2] at h1
    exact h1

theorem memOnly_memWrite (s : State) (a g : Nat) (b : Byte) : MemOnly s (memWrite s a g b) := ⟨fun _ => rfl, rfl⟩

/-! ### Tags -/

@[simp] theorem mem_setTag (s : State) (a : Nat) (t : BitVec 4) : (setTag s a t).mem = s.mem := by
  unfold setTag; split <;> rfl
@[simp] theorem memByte_setTag (s : State) (a : Nat) (t : BitVec 4) (j : Nat) : memByte (setTag s a t) j = memByte s j := by
  simp [memByte]
theorem inv_setTag {s : State} (a : Nat) (t : BitVec 4) (h : s.Inv) : (setTag s a t).Inv := by
  unfold State.Inv at *; simpa using h

theorem memOnly_setTag (s : State) (a : Nat) (t : BitVec 4) : MemOnly s (setTag s a t) := by
  unfold setTag
  split
  · refine ⟨fun j => ?_, rfl⟩
    unfold tagsAside
    by_cases h : j = a / 2 ^ 21
    · subst h; simp
    · rw [core_setCore_ne _ _ h]
  · exact .refl s

theorem tagAt_setTag (s : State) (a : Nat) (t : BitVec 4) (h : isSpadKey a = true) : tagAt (setTag s a t) a = t := by
  simp [tagAt, setTag, h]

/-! ### Where a byte lies does not depend on what a write touches -/

theorem MemOnly.region {s t : State} (h : MemOnly s t) (r : Nat) : t.region? r = s.region? r := by
  have := congrArg (fun u : State => u.regions) h.rest
  simp only [State.region?] at *
  rw [show t.regions = s.regions from this]

theorem MemOnly.rid {s t : State} (h : MemOnly s t) (k : Nat) : (t.core k).rid = (s.core k).rid :=
  by rw [← show { t.core k with swz := (s.core k).swz } = s.core k from h.cores k]
theorem MemOnly.copy {s t : State} (h : MemOnly s t) (k : Nat) : (t.core k).copy = (s.core k).copy :=
  by rw [← show { t.core k with swz := (s.core k).swz } = s.core k from h.cores k]

theorem MemOnly.members {s t : State} (h : MemOnly s t) (k : Nat) : membersOf t k = membersOf s k := by
  simp only [membersOf, h.region, h.rid, h.copy]

theorem MemOnly.byteLoc {s t : State} (h : MemOnly s t) (k : Nat) (xl : List Xl) (va : Word) : byteLoc t k xl va = byteLoc s k xl va := by
  simp only [Machine.byteLoc, spadOf, spadCore, h.members]

/-! ### One byte at a VA -/

/-- What writing one byte at a VA does, outside a dual run. -/
theorem vaWrite_at {s : State} {k : Nat} {xl : List Xl} {tag : BitVec 4} {va : Word} {b : Byte} {a g : Nat}
    (hl : Machine.byteLoc s k xl va = some (a, g)) (hc : (s.core k).copy = none) :
    memByte (vaWrite s k xl tag va b) a = b ∧ (∀ j, j ≠ a → memByte (vaWrite s k xl tag va b) j = memByte s j)
      ∧ MemOnly s (vaWrite s k xl tag va b) := by
  unfold vaWrite
  simp only [hl]
  split
  · refine ⟨by simp, fun j h => by simp [memByte_memWrite_ne _ _ _ h], (memOnly_memWrite s a g b).trans (memOnly_setTag _ _ _)⟩
  · simp only [hc]
    exact ⟨by simp, fun j h => memByte_memWrite_ne _ _ _ h, memOnly_memWrite s a g b⟩

theorem vaWrite_nowhere {s : State} {k : Nat} {xl : List Xl} {tag : BitVec 4} {va : Word} {b : Byte}
    (hl : Machine.byteLoc s k xl va = none) : vaWrite s k xl tag va b = s := by
  unfold vaWrite
  rw [hl]

theorem memOnly_vaWrite {s : State} {k : Nat} {xl : List Xl} (tag : BitVec 4) (va : Word) (b : Byte) (hc : (s.core k).copy = none) :
    MemOnly s (vaWrite s k xl tag va b) := by
  cases hl : Machine.byteLoc s k xl va with
  | none => rw [vaWrite_nowhere hl]; exact .refl s
  | some p => exact (vaWrite_at (a := p.1) (g := p.2) hl hc).2.2

theorem inv_vaWrite {s : State} (k : Nat) (xl : List Xl) (tag : BitVec 4) (va : Word) (b : Byte) (h : s.Inv) :
    (vaWrite s k xl tag va b).Inv := by
  unfold vaWrite
  split
  · exact h
  · split
    · exact inv_setTag _ _ (inv_memWrite _ _ _ h)
    · split
      · exact h
      · exact inv_memWrite _ _ _ h

/-! ### Rows of bytes -/

theorem inv_storeTag (k : Nat) (xl : List Xl) (tag : BitVec 4) (bs : List Byte) {s : State} (va : Word) (h : s.Inv) :
    (storeTag s k xl tag va bs).Inv := by
  induction bs generalizing s va with
  | nil => exact h
  | cons b bs ih => exact ih _ (inv_vaWrite k xl tag va b h)

theorem vaStore_eq (k : Nat) (xl : List Xl) (bs : List Byte) (s : State) (va : Word) : vaStore s k xl va bs = storeTag s k xl 0 va bs := by
  induction bs generalizing s va with
  | nil => rfl
  | cons b bs ih => exact ih _ _

theorem inv_vaStore (k : Nat) (xl : List Xl) (bs : List Byte) {s : State} (va : Word) (h : s.Inv) : (vaStore s k xl va bs).Inv := by
  rw [vaStore_eq]; exact inv_storeTag k xl 0 bs va h

theorem w64_succ (va : Word) (i : Nat) : va + 1 + w64 i = va + w64 (i + 1) := by
  unfold w64
  apply BitVec.eq_of_toNat_eq
  simp [BitVec.toNat_add]
  omega

/-- What writing a row of bytes does, outside a dual run. -/
theorem wrote_storeTag (k : Nat) (xl : List Xl) (tag : BitVec 4) (bs : List Byte) {s : State} (va : Word) (hc : (s.core k).copy = none) :
    Wrote k xl va bs s (storeTag s k xl tag va bs) := by
  induction bs generalizing s va with
  | nil => exact ⟨fun i b h => by simp at h, fun _ _ => rfl, fun _ => rfl, rfl⟩
  | cons b bs ih =>
    have hm : MemOnly s (vaWrite s k xl tag va b) := memOnly_vaWrite tag va b hc
    have hw := ih (s := vaWrite s k xl tag va b) (va + 1) (by rw [hm.copy]; exact hc)
    have names (a i g : Nat) (hi : i < bs.length) (hl : Machine.byteLoc s k xl (va + w64 (i + 1)) = some (a, g)) :
        namesByte (vaWrite s k xl tag va b) k xl (va + 1) bs.length a :=
      ⟨i, hi, g, by rw [hm.byteLoc, w64_succ]; exact hl⟩
    have all : MemOnly s (storeTag (vaWrite s k xl tag va b) k xl tag (va + 1) bs) := hm.trans ⟨hw.cores, hw.rest⟩
    refine ⟨?_, ?_, all.cores, all.rest⟩
    · intro i c hc' a g hl hlast
      cases i with
      | zero =>
        simp only [List.getElem?_cons_zero, Option.some.injEq] at hc'
        subst hc'
        have hz : va + w64 0 = va := by simp [w64]
        rw [hz] at hl
        have hn : ¬ namesByte (vaWrite s k xl tag va b) k xl (va + 1) bs.length a := by
          rintro ⟨j, hj, g', hg⟩
          rw [hm.byteLoc, w64_succ] at hg
          exact hlast (j + 1) (by omega) (by simpa using hj) g' hg
        show memByte (storeTag (vaWrite s k xl tag va b) k xl tag (va + 1) bs) a = b
        rw [hw.apart a hn]
        exact (vaWrite_at hl hc).1
      | succ i =>
        simp only [List.getElem?_cons_succ] at hc'
        refine hw.bytes i c hc' a g (by rw [hm.byteLoc, w64_succ]; exact hl) ?_
        intro j hij hj g' hg
        rw [hm.byteLoc, w64_succ] at hg
        exact hlast (j + 1) (by omega) (by simpa using hj) g' hg
    · intro a ha
      have h1 : ¬ namesByte (vaWrite s k xl tag va b) k xl (va + 1) bs.length a := by
        rintro ⟨j, hj, g', hg⟩
        rw [hm.byteLoc, w64_succ] at hg
        exact ha ⟨j + 1, by simpa using hj, g', hg⟩
      show memByte (storeTag (vaWrite s k xl tag va b) k xl tag (va + 1) bs) a = memByte s a
      rw [hw.apart a h1]
      cases hl : Machine.byteLoc s k xl va with
      | none => rw [vaWrite_nowhere hl]
      | some p =>
        refine (vaWrite_at (a := p.1) (g := p.2) hl hc).2.1 a ?_
        rintro rfl
        exact ha ⟨0, by simp, p.2, by simpa [w64] using hl⟩

theorem wrote_vaStore (k : Nat) (xl : List Xl) (bs : List Byte) {s : State} (va : Word) (hc : (s.core k).copy = none) :
    Wrote k xl va bs s (vaStore s k xl va bs) := by
  rw [vaStore_eq]; exact wrote_storeTag k xl 0 bs va hc

/-! ### Scratchpads -/

theorem inv_spadStore (k : Nat) (bs : List Byte) {s : State} (off : Nat) (h : s.Inv) : (spadStore s k off bs).Inv := by
  induction bs generalizing s off with
  | nil => exact h
  | cons b bs ih => exact ih _ (inv_setTag _ _ (inv_memWrite _ _ _ h))

theorem inv_spadAdd {s : State} (k off n : Nat) (h : s.Inv) : (spadAdd s k off n).Inv := inv_spadStore k _ off h

/-- What writing a row of a core's own scratchpad does. -/
theorem spadStore_bytes (k : Nat) (bs : List Byte) (s : State) (off : Nat) :
    (∀ (i : Nat) (b : Byte), bs[i]? = some b → memByte (spadStore s k off bs) (spadKey k (off + i)) = b)
      ∧ (∀ a, (∀ i < bs.length, a ≠ spadKey k (off + i)) → memByte (spadStore s k off bs) a = memByte s a)
      ∧ MemOnly s (spadStore s k off bs) := by
  induction bs generalizing s off with
  | nil => exact ⟨fun i b h => by simp at h, fun _ _ => rfl, .refl s⟩
  | cons b bs ih =>
    obtain ⟨h1, h2, h3⟩ := ih (setTag (memWrite s (spadKey k off) 0 b) (spadKey k off) 0) (off + 1)
    refine ⟨?_, ?_, ((memOnly_memWrite s _ 0 b).trans (memOnly_setTag _ _ 0)).trans h3⟩
    · intro i c hc
      cases i with
      | zero =>
        simp only [List.getElem?_cons_zero, Option.some.injEq] at hc
        subst hc
        show memByte (spadStore (setTag (memWrite s (spadKey k off) 0 b) (spadKey k off) 0) k (off + 1) bs) (spadKey k off) = b
        rw [h2 _ (fun i _ => by simp only [spadKey]; omega)]
        simp
      | succ i =>
        simp only [List.getElem?_cons_succ] at hc
        have := h1 i c hc
        rw [show off + (i + 1) = off + 1 + i by omega]
        exact this
    · intro a ha
      show memByte (spadStore (setTag (memWrite s (spadKey k off) 0 b) (spadKey k off) 0) k (off + 1) bs) a = memByte s a
      rw [h2 a (fun i hi => by have := ha (i + 1) (by simpa using hi); rwa [show off + 1 + i = off + (i + 1) by omega])]
      have := ha 0 (by simp)
      simp [memByte_memWrite_ne _ _ _ (show a ≠ spadKey k off by simpa using this)]

/-! ### Translated space -/

theorem inv_xlStore (xl : List Xl) (bs : List Byte) {s : State} (va : Word) (h : s.Inv) : (xlStore s xl va bs).Inv := by
  induction bs generalizing s va with
  | nil => exact h
  | cons b bs ih =>
    unfold xlStore
    refine ih _ ?_
    split
    · exact inv_memWrite _ _ _ h
    · exact h

theorem inv_partWrite {s : State} (p : Nat) (va : Word) (bs : List Byte) (h : s.Inv) : (partWrite s p va bs).Inv := by
  unfold partWrite
  split
  · exact inv_xlStore _ _ _ h
  · unfold LErr.log; split <;> exact h

/-! ### What clears memory, and what puts it back -/

theorem inv_zeroShare {s : State} (p : Nat) (h : s.Inv) : (zeroShare s p).Inv := wf_filter _ h
theorem inv_scrubCores {s : State} (l : List Nat) (h : s.Inv) : (scrubCores s l).Inv := wf_filter _ h
theorem inv_restoreSpad {s : State} (k r : Nat) (g : Region) (h : s.Inv) : (restoreSpad s k r g).Inv := wf_setAll _ (wf_filter _ h)

/-- An operation over a list keeps what each of its steps keeps. -/
theorem inv_foldl {α : Type} (f : State → α → State) (hf : ∀ s a, s.Inv → (f s a).Inv) (l : List α) {s : State} (h : s.Inv) :
    (l.foldl f s).Inv := by
  induction l generalizing s with
  | nil => exact h
  | cons a l ih => exact ih (hf s a h)

/-- A state with the same memory. -/
theorem inv_of_mem {s t : State} (h : s.Inv) (e : t.mem = s.mem) : t.Inv := by unfold State.Inv at *; rwa [e]

theorem inv_suspendRegion (stop : State) {s : State} (rid : Nat) (g : Region) (y : Bool) (h : s.Inv) :
    (suspendRegion stop s rid g y).Inv := by
  unfold suspendRegion
  refine wf_filter _ ?_
  refine inv_foldl _ (fun s k hs => ?_) _ h
  dsimp only
  split <;> exact inv_of_mem hs rfl

end Sys2Proof.Laws
end

