-- ==== Sys2Proof/Laws/Words.lean ====
section
/-!
SUPPORT. A word made of a header, an opcode and operand bits gives back each of them (02_encoding.md R22).
-/

namespace Sys2Proof.Laws

/-- Bit i of a word. -/
theorem bit_packWord (h : Hdr) (op : BitVec 7) (lo : BitVec 16) (i : Nat) : (packWord h op lo).getLsbD i =
    if i < 16 then lo.getLsbD i else if i < 23 then op.getLsbD (i - 16) else (hdrBits h).getLsbD (i - 23) := by
  have h1 : (packWord h op lo).getLsbD i = (hdrBits h ++ op ++ lo).getLsbD i := rfl
  rw [h1, BitVec.getLsbD_append, BitVec.getLsbD_append]
  rcases Nat.lt_or_ge i 16 with a | a
  · simp [a]
  · rcases Nat.lt_or_ge i 23 with b | b
    · have e : i - 16 < 7 := by omega
      simp [Nat.not_lt.mpr a, b, e]
    · have e : ¬ i - 16 < 7 := by omega
      have e2 : i - 16 - 7 = i - 23 := by omega
      simp [Nat.not_lt.mpr a, Nat.not_lt.mpr b, e, e2]

/-- Bit i of the header bits. -/
theorem bit_hdrBits (h : Hdr) (i : Nat) : (hdrBits h).getLsbD i =
    if i < 3 then h.g.getLsbD i else if i < 5 then h.vs.getLsbD (i - 3)
    else if i = 5 then h.sn else if i = 6 then h.sp else if i = 7 then h.wn else if i = 8 then h.wp else false := by
  have h1 : (hdrBits h).getLsbD i = (BitVec.ofBool h.wp ++ BitVec.ofBool h.wn ++ BitVec.ofBool h.sp ++ BitVec.ofBool h.sn ++ h.vs ++ h.g).getLsbD i := rfl
  rw [h1, BitVec.getLsbD_append, BitVec.getLsbD_append, BitVec.getLsbD_append, BitVec.getLsbD_append, BitVec.getLsbD_append]
  rcases Nat.lt_or_ge i 9 with a | a
  · have : i = 0 ∨ i = 1 ∨ i = 2 ∨ i = 3 ∨ i = 4 ∨ i = 5 ∨ i = 6 ∨ i = 7 ∨ i = 8 := by omega
    rcases this with rfl | rfl | rfl | rfl | rfl | rfl | rfl | rfl | rfl <;> simp
  · rw [if_neg (by omega), if_neg (by omega), if_neg (by omega), if_neg (by omega), if_neg (by omega), if_neg (by omega)]
    rw [if_neg (by omega), if_neg (by omega), if_neg (by omega), if_neg (by omega), if_neg (by omega)]
    apply BitVec.getLsbD_of_ge; omega

/-- A word gives back its header. -/
theorem hdr_packWord (h : Hdr) (op : BitVec 7) (lo : BitVec 16) : hdrOfWord (packWord h op lo) = h := by
  obtain ⟨wp, wn, sp, sn, vs, g⟩ := h
  simp only [hdrOfWord, Hdr.mk.injEq, bit_packWord, bit_hdrBits, fld]
  refine ⟨by simp, by simp, by simp, by simp, ?_, ?_⟩
  · ext i hi
    have h2 : i = 0 ∨ i = 1 := by omega
    rw [BitVec.getElem_extractLsb', bit_packWord, bit_hdrBits]
    rcases h2 with rfl | rfl <;> simp
  · ext i hi
    have h2 : i = 0 ∨ i = 1 ∨ i = 2 := by omega
    rw [BitVec.getElem_extractLsb', bit_packWord, bit_hdrBits]
    rcases h2 with rfl | rfl | rfl <;> simp

/-- A word gives back its opcode. -/
theorem op_packWord (h : Hdr) (op : BitVec 7) (lo : BitVec 16) : fld (packWord h op lo) 16 7 = op := by
  ext i hi
  rw [BitVec.getElem_extractLsb', bit_packWord, if_neg (by omega), if_pos (by omega), show 16 + i - 16 = i by omega]
  exact BitVec.getLsbD_eq_getElem hi

/-- A field of the operand bits of a word. -/
theorem fld_packWord (h : Hdr) (op : BitVec 7) (lo : BitVec 16) (p n : Nat) (hp : p + n ≤ 16) :
    fld (packWord h op lo) p n = lo.extractLsb' p n := by
  ext i hi
  rw [BitVec.getElem_extractLsb', BitVec.getElem_extractLsb', bit_packWord, if_pos (by omega)]

end Sys2Proof.Laws
end

