-- ==== Sys2Proof/Laws/PerInstr.lean ====
section
/-!
SUPPORT. One family over the instructions: every word of a stream has an encoding, whose header is the instruction's own (02_encoding.md
R22, R37, R39, R40).
-/

namespace Sys2Proof.Laws.Encoded

/-- An instruction of a stream that is not a refused word has a word, with its header. -/
def Statement (i : Instr) : Prop :=
  ∀ st, i.stream = some st → i.isIllegal = false → ∃ w, encode i = some w ∧ ∀ h, i.hdr = some h → hdrOfWord w = h

/-- An instruction with a header and an encoding. -/
theorem ofWord {i : Instr} {h : Hdr} {op : BitVec 7} {lo : BitVec 16} (e : encode i = some (packWord h op lo)) (k : i.hdr = some h) :
    Statement i := fun _ _ _ => ⟨_, e, fun g hg => by
      rw [k] at hg; cases hg; exact hdr_packWord _ _ _⟩

/-- A step without an encoding. -/
theorem ofNone {i : Instr} (e : i.stream = none) : Statement i := fun _ h _ => by rw [e] at h; cases h

theorem submission (vf : Nat) (rec : List (BitVec 8)) (ide : Bool) : Statement (.submission vf rec ide) := ofNone rfl
theorem scoreboardEntry (place : RegionDie) : Statement (.scoreboardEntry place) := ofNone rfl
theorem streamCopy (rid : Nat) : Statement (.streamCopy rid) := ofNone rfl
theorem regionIssue (rid : Nat) (place : Placing) : Statement (.regionIssue rid place) := ofNone rfl
theorem preemption (rid : Nat) : Statement (.preemption rid) := ofNone rfl
theorem timebExpiry (rid : Nat) : Statement (.timebExpiry rid) := ofNone rfl
theorem regionCompletion (rid : Nat) : Statement (.regionCompletion rid) := ofNone rfl
theorem dualRunCompare (rid : Nat) : Statement (.dualRunCompare rid) := ofNone rfl
theorem capabilityFence (core cls : Nat) : Statement (.capabilityFence core cls) := ofNone rfl
theorem inFieldTest (core : Nat) (pass : Bool) : Statement (.inFieldTest core pass) := ofNone rfl
theorem queueWatchdogExpiry (part : Nat) : Statement (.queueWatchdogExpiry part) := ofNone rfl
theorem functionLevelReset (part : Nat) : Statement (.functionLevelReset part) := ofNone rfl
theorem tokenDeadlock (core : Nat) : Statement (.tokenDeadlock core) := ofNone rfl
theorem lateReply (core : Nat) : Statement (.lateReply core) := ofNone rfl
theorem lateReplyFreeze (core : Nat) : Statement (.lateReplyFreeze core) := ofNone rfl
theorem readReplyArrival (core : Nat) : Statement (.readReplyArrival core) := ofNone rfl
theorem readPerformed (core : Nat) (ecc : Ecc) : Statement (.readPerformed core ecc) := ofNone rfl
theorem writePerformed (core : Nat) : Statement (.writePerformed core) := ofNone rfl
theorem ldqRowEntry (core : Nat) (lqm : Bool) : Statement (.ldqRowEntry core lqm) := ofNone rfl
theorem translationWalk (core : Nat) : Statement (.translationWalk core) := ofNone rfl
theorem handlerDelivery (core : Nat) : Statement (.handlerDelivery core) := ofNone rfl
theorem handlerStart (core : Nat) : Statement (.handlerStart core) := ofNone rfl
theorem eccCorrected (at_ : EccSite) : Statement (.eccCorrected at_) := ofNone rfl
theorem eccFreezeEnd (core : Nat) : Statement (.eccFreezeEnd core) := ofNone rfl
theorem retentionEntry (core : Nat) : Statement (.retentionEntry core) := ofNone rfl
theorem retentionExit (core : Nat) (bad : List Nat) : Statement (.retentionExit core bad) := ofNone rfl
theorem engineCommandStart (core seq : Nat) : Statement (.engineCommandStart core seq) := ofNone rfl
theorem bteCommandRetire (core seq : Nat) (mv : BteMove) : Statement (.bteCommandRetire core seq mv) := ofNone rfl
theorem bteRowEntry (core seq : Nat) : Statement (.bteRowEntry core seq) := ofNone rfl
theorem bteOverlayWrite (core : Nat) (cmd : EarlyTurn) : Statement (.bteOverlayWrite core cmd) := ofNone rfl
theorem linkPutDelivery (core seq n : Nat) : Statement (.linkPutDelivery core seq n) := ofNone rfl
theorem linkGetComplete (core seq n : Nat) : Statement (.linkGetComplete core seq n) := ofNone rfl
theorem linkCommandRetire (core seq : Nat) : Statement (.linkCommandRetire core seq) := ofNone rfl
theorem barrierComplete (rid : Nat) : Statement (.barrierComplete rid) := ofNone rfl
theorem reductionComplete (rid : Nat) (order : List Nat) : Statement (.reductionComplete rid order) := ofNone rfl
theorem gatherItemPlace (core seq rank : Nat) : Statement (.gatherItemPlace core seq rank) := ofNone rfl
theorem abortNotice (core att : Nat) : Statement (.abortNotice core att) := ofNone rfl
theorem cxMemberLost (rid : Nat) (m : Option Nat × Nat) : Statement (.cxMemberLost rid m) := ofNone rfl
theorem sdCommandRetire (core seq : Nat) : Statement (.sdCommandRetire core seq) := ofNone rfl
theorem wlBarrierComplete (rid : Nat) : Statement (.wlBarrierComplete rid) := ofNone rfl
theorem regionBarrierComplete (rid : Nat) (withdraw : Nat) (add : List Nat) : Statement (.regionBarrierComplete rid withdraw add) := ofNone rfl
theorem rgNextAnswer (core : Nat) : Statement (.rgNextAnswer core) := ofNone rfl
theorem quernPhaseEnd (cluster : Nat) : Statement (.quernPhaseEnd cluster) := ofNone rfl
theorem quernSweepEnd (cluster : Nat) : Statement (.quernSweepEnd cluster) := ofNone rfl
theorem quernColourCheck (cluster : Nat) : Statement (.quernColourCheck cluster) := ofNone rfl
theorem quernCommandRetire (cluster : EarlyTurn) : Statement (.quernCommandRetire cluster) := ofNone rfl
theorem quernRelease (cluster : Nat) : Statement (.quernRelease cluster) := ofNone rfl
theorem mxStagedWriteApply (core : Nat) : Statement (.mxStagedWriteApply core) := ofNone rfl
theorem mxRoutineStart (core : Nat) : Statement (.mxRoutineStart core) := ofNone rfl
theorem mxRoutineRetire (core : Nat) : Statement (.mxRoutineRetire core) := ofNone rfl
theorem mxWordFinish (core : Nat) : Statement (.mxWordFinish core) := ofNone rfl
theorem mxDrainRow (core : Nat) : Statement (.mxDrainRow core) := ofNone rfl
theorem mxReplay (core tile : Nat) : Statement (.mxReplay core tile) := ofNone rfl
theorem zm1BlockDecode (core : Nat) : Statement (.zm1BlockDecode core) := ofNone rfl
theorem vxeCallTake (core : Nat) : Statement (.vxeCallTake core) := ofNone rfl
theorem apResultLanding (core : Nat) : Statement (.apResultLanding core) := ofNone rfl
theorem vxResultLanding (core : Nat) : Statement (.vxResultLanding core) := ofNone rfl
theorem shadowCheck (core : Nat) (badLanes : BitVec 96) : Statement (.shadowCheck core badLanes) := ofNone rfl
theorem hostAtomic (part op size gpa operand cmp : Nat) : Statement (.hostAtomic part op size gpa operand cmp) := ofNone rfl
theorem hostMemoryRequest (part gpa len : Nat) (wr : Option (List (BitVec 8))) : Statement (.hostMemoryRequest part gpa len wr) := ofNone rfl
theorem vfstatWrite (vf : Nat) (v : BitVec 64) (ideT : Bool) : Statement (.vfstatWrite vf v ideT) := ofNone rfl
theorem s1rootWrite (vf : Nat) (v : BitVec 64) (ideT : Bool) : Statement (.s1rootWrite vf v ideT) := ofNone rfl
theorem pthbWrite (vf : Nat) (v : BitVec 64) (ideT : Bool) : Statement (.pthbWrite vf v ideT) := ofNone rfl
theorem pthlWrite (vf : Nat) (v : BitVec 64) (ideT : Bool) : Statement (.pthlWrite vf v ideT) := ofNone rfl
theorem qwdWrite (vf : Nat) (v : BitVec 64) (ideT : Bool) : Statement (.qwdWrite vf v ideT) := ofNone rfl
theorem vfRegisterWrite (vf off : Nat) (v : BitVec 64) (ideT : Bool) : Statement (.vfRegisterWrite vf off v ideT) := ofNone rfl
theorem vfPageBadAccess (vf : Nat) : Statement (.vfPageBadAccess vf) := ofNone rfl
theorem dbgkeyWrite (vf idx : Nat) (v : BitVec 64) (ideT : Bool) : Statement (.dbgkeyWrite vf idx v ideT) := ofNone rfl
theorem dbgcmdSubmit (vf : Nat) (ideT : Bool) : Statement (.dbgcmdSubmit vf ideT) := ofNone rfl
theorem dbgcmdLock (vf : Nat) (ideT : Bool) : Statement (.dbgcmdLock vf ideT) := ofNone rfl
theorem dbgcmdInvalid (vf : Nat) (v : BitVec 64) (ideT : Bool) : Statement (.dbgcmdInvalid vf v ideT) := ofNone rfl
theorem dbgdataRead (reg : PageReg) : Statement (.dbgdataRead reg) := ofNone rfl
theorem lockInterfaceRequest (vf : Nat) : Statement (.lockInterfaceRequest vf) := ofNone rfl
theorem startInterfaceRequest (vf : Nat) : Statement (.startInterfaceRequest vf) := ofNone rfl
theorem stopInterfaceRequest (vf : Nat) : Statement (.stopInterfaceRequest vf) := ofNone rfl
theorem getDeviceInterfaceReport (vf : Nat) : Statement (.getDeviceInterfaceReport vf) := ofNone rfl
theorem ideIntegrityFailure (vf : Nat) : Statement (.ideIntegrityFailure vf) := ofNone rfl
theorem ideKm (stream : OfModule Nat) : Statement (.ideKm stream) := ofNone rfl
theorem getMeasurements (vf : Nat) : Statement (.getMeasurements vf) := ofNone rfl
theorem powerOn (badSig : OfModule (Option Nat)) (failed : List (Nat × Nat)) : Statement (.powerOn badSig failed) := ofNone rfl
theorem partitionRequest (req : PartReq) : Statement (.partitionRequest req) := ofNone rfl
theorem powerCapSet (watts : OfModule Nat) : Statement (.powerCapSet watts) := ofNone rfl
theorem monitorSample (die : Nat) (reading : Reading) (slow drift : Bool) : Statement (.monitorSample die reading slow drift) := ofNone rfl
theorem thermalShutdown : Statement .thermalShutdown := ofNone rfl
theorem laneFailure (lanes : OfModule Nat) : Statement (.laneFailure lanes) := ofNone rfl
theorem tlbiPage (core : Nat) : Statement (.tlbiPage core) := ofNone rfl
theorem tlbiStage1 (core : Nat) : Statement (.tlbiStage1 core) := ofNone rfl
theorem eccinjArm (core : Nat) (v : BitVec 64) : Statement (.eccinjArm core v) := ofNone rfl
theorem nop (h : Hdr) : Statement (.nop h) := ofWord rfl rfl
theorem add (h : Hdr) (d : BitVec 5) (a : BitVec 5) (b : BitVec 5) : Statement (.add h d a b) := ofWord rfl rfl
theorem sub (h : Hdr) (d : BitVec 5) (a : BitVec 5) (b : BitVec 5) : Statement (.sub h d a b) := ofWord rfl rfl
theorem and (h : Hdr) (d : BitVec 5) (a : BitVec 5) (b : BitVec 5) : Statement (.and h d a b) := ofWord rfl rfl
theorem or (h : Hdr) (d : BitVec 5) (a : BitVec 5) (b : BitVec 5) : Statement (.or h d a b) := ofWord rfl rfl
theorem xor (h : Hdr) (d : BitVec 5) (a : BitVec 5) (b : BitVec 5) : Statement (.xor h d a b) := ofWord rfl rfl
theorem andn (h : Hdr) (d : BitVec 5) (a : BitVec 5) (b : BitVec 5) : Statement (.andn h d a b) := ofWord rfl rfl
theorem shl (h : Hdr) (d : BitVec 5) (a : BitVec 5) (b : BitVec 5) : Statement (.shl h d a b) := ofWord rfl rfl
theorem shr (h : Hdr) (d : BitVec 5) (a : BitVec 5) (b : BitVec 5) : Statement (.shr h d a b) := ofWord rfl rfl
theorem sra (h : Hdr) (d : BitVec 5) (a : BitVec 5) (b : BitVec 5) : Statement (.sra h d a b) := ofWord rfl rfl
theorem rotl (h : Hdr) (d : BitVec 5) (a : BitVec 5) (b : BitVec 5) : Statement (.rotl h d a b) := ofWord rfl rfl
theorem min (h : Hdr) (d : BitVec 5) (a : BitVec 5) (b : BitVec 5) : Statement (.min h d a b) := ofWord rfl rfl
theorem max (h : Hdr) (d : BitVec 5) (a : BitVec 5) (b : BitVec 5) : Statement (.max h d a b) := ofWord rfl rfl
theorem minu (h : Hdr) (d : BitVec 5) (a : BitVec 5) (b : BitVec 5) : Statement (.minu h d a b) := ofWord rfl rfl
theorem maxu (h : Hdr) (d : BitVec 5) (a : BitVec 5) (b : BitVec 5) : Statement (.maxu h d a b) := ofWord rfl rfl
theorem mul (h : Hdr) (d : BitVec 5) (a : BitVec 5) (b : BitVec 5) : Statement (.mul h d a b) := ofWord rfl rfl
theorem mulh (h : Hdr) (d : BitVec 5) (a : BitVec 5) (b : BitVec 5) : Statement (.mulh h d a b) := ofWord rfl rfl
theorem mulhu (h : Hdr) (d : BitVec 5) (a : BitVec 5) (b : BitVec 5) : Statement (.mulhu h d a b) := ofWord rfl rfl
theorem divu (h : Hdr) (d : BitVec 5) (a : BitVec 5) (b : BitVec 5) : Statement (.divu h d a b) := ofWord rfl rfl
theorem remu (h : Hdr) (d : BitVec 5) (a : BitVec 5) (b : BitVec 5) : Statement (.remu h d a b) := ofWord rfl rfl
theorem clz (h : Hdr) (d : BitVec 5) (a : BitVec 5) : Statement (.clz h d a) := ofWord rfl rfl
theorem popc (h : Hdr) (d : BitVec 5) (a : BitVec 5) : Statement (.popc h d a) := ofWord rfl rfl
theorem lea (h : Hdr) (d : BitVec 5) (a : BitVec 5) (b : BitVec 5) : Statement (.lea h d a b) := ofWord rfl rfl
theorem leaD (h : Hdr) (d : BitVec 5) (a : BitVec 5) (b : BitVec 5) : Statement (.leaD h d a b) := ofWord rfl rfl
theorem sext (h : Hdr) (d : BitVec 5) (a : BitVec 5) (n : BitVec 6) : Statement (.sext h d a n) := ofWord rfl rfl
theorem zext (h : Hdr) (d : BitVec 5) (a : BitVec 5) (n : BitVec 6) : Statement (.zext h d a n) := ofWord rfl rfl
theorem bfx (h : Hdr) (d : BitVec 5) (a : BitVec 5) (b : BitVec 5) : Statement (.bfx h d a b) := ofWord rfl rfl
theorem bfxS (h : Hdr) (d : BitVec 5) (a : BitVec 5) (b : BitVec 5) : Statement (.bfxS h d a b) := ofWord rfl rfl
theorem bfi (h : Hdr) (d : BitVec 5) (a : BitVec 5) (b : BitVec 5) : Statement (.bfi h d a b) := ofWord rfl rfl
theorem addi (h : Hdr) (d : BitVec 5) (a : BitVec 5) (i : BitVec 6) : Statement (.addi h d a i) := ofWord rfl rfl
theorem andi (h : Hdr) (d : BitVec 5) (a : BitVec 5) (i : BitVec 6) : Statement (.andi h d a i) := ofWord rfl rfl
theorem ori (h : Hdr) (d : BitVec 5) (a : BitVec 5) (i : BitVec 6) : Statement (.ori h d a i) := ofWord rfl rfl
theorem xori (h : Hdr) (d : BitVec 5) (a : BitVec 5) (i : BitVec 6) : Statement (.xori h d a i) := ofWord rfl rfl
theorem shli (h : Hdr) (d : BitVec 5) (a : BitVec 5) (i : BitVec 6) : Statement (.shli h d a i) := ofWord rfl rfl
theorem shri (h : Hdr) (d : BitVec 5) (a : BitVec 5) (i : BitVec 6) : Statement (.shri h d a i) := ofWord rfl rfl
theorem srai (h : Hdr) (d : BitVec 5) (a : BitVec 5) (i : BitVec 6) : Statement (.srai h d a i) := ofWord rfl rfl
theorem movi (h : Hdr) (d : BitVec 5) (i : BitVec 11) : Statement (.movi h d i) := ofWord rfl rfl
theorem cmp (h : Hdr) (c : BitVec 3) (p : BitVec 3) (a : BitVec 5) (b : BitVec 5) : Statement (.cmp h c p a b) := ofWord rfl rfl
theorem cmpi (h : Hdr) (c : BitVec 2) (p : BitVec 3) (a : BitVec 5) (i : BitVec 6) : Statement (.cmpi h c p a i) := ofWord rfl rfl
theorem plog (h : Hdr) (c : BitVec 3) (p : BitVec 3) (a : BitVec 3) (b : BitVec 3) : Statement (.plog h c p a b) := ofWord rfl rfl
theorem pmovToX (h : Hdr) (d : BitVec 5) : Statement (.pmovToX h d) := ofWord rfl rfl
theorem pmovToPf (h : Hdr) (a : BitVec 5) : Statement (.pmovToPf h a) := ofWord rfl rfl
theorem bprep (h : Hdr) (n : BitVec 2) (i : BitVec 14) : Statement (.bprep h n i) := ofWord rfl rfl
theorem bset (h : Hdr) (n : BitVec 2) (a : BitVec 5) : Statement (.bset h n a) := ofWord rfl rfl
theorem bxfer (h : Hdr) (n : BitVec 2) (d : BitVec 2) (l : BitVec 5) : Statement (.bxfer h n d l) := ofWord rfl rfl
theorem lset (h : Hdr) (n : BitVec 2) (a : BitVec 5) (i : BitVec 6) : Statement (.lset h n a i) := ofWord rfl rfl
theorem lbrk (h : Hdr) (n : BitVec 2) : Statement (.lbrk h n) := ofWord rfl rfl
theorem ldB (h : Hdr) (d : BitVec 5) (a : BitVec 5) (b : BitVec 5) : Statement (.ldB h d a b) := ofWord rfl rfl
theorem ldBu (h : Hdr) (d : BitVec 5) (a : BitVec 5) (b : BitVec 5) : Statement (.ldBu h d a b) := ofWord rfl rfl
theorem ldH (h : Hdr) (d : BitVec 5) (a : BitVec 5) (b : BitVec 5) : Statement (.ldH h d a b) := ofWord rfl rfl
theorem ldHu (h : Hdr) (d : BitVec 5) (a : BitVec 5) (b : BitVec 5) : Statement (.ldHu h d a b) := ofWord rfl rfl
theorem ldW (h : Hdr) (d : BitVec 5) (a : BitVec 5) (b : BitVec 5) : Statement (.ldW h d a b) := ofWord rfl rfl
theorem ldWu (h : Hdr) (d : BitVec 5) (a : BitVec 5) (b : BitVec 5) : Statement (.ldWu h d a b) := ofWord rfl rfl
theorem ldD (h : Hdr) (d : BitVec 5) (a : BitVec 5) (b : BitVec 5) : Statement (.ldD h d a b) := ofWord rfl rfl
theorem stB (h : Hdr) (d : BitVec 5) (a : BitVec 5) (b : BitVec 5) : Statement (.stB h d a b) := ofWord rfl rfl
theorem stH (h : Hdr) (d : BitVec 5) (a : BitVec 5) (b : BitVec 5) : Statement (.stH h d a b) := ofWord rfl rfl
theorem stW (h : Hdr) (d : BitVec 5) (a : BitVec 5) (b : BitVec 5) : Statement (.stW h d a b) := ofWord rfl rfl
theorem stD (h : Hdr) (d : BitVec 5) (a : BitVec 5) (b : BitVec 5) : Statement (.stD h d a b) := ofWord rfl rfl
theorem ldq (h : Hdr) (f : BitVec 3) (a : BitVec 5) (b : BitVec 5) : Statement (.ldq h f a b) := ofWord rfl rfl
theorem stq (h : Hdr) (a : BitVec 5) (b : BitVec 5) : Statement (.stq h a b) := ofWord rfl rfl
theorem popq (h : Hdr) (d : BitVec 5) : Statement (.popq h d) := ofWord rfl rfl
theorem popqP (h : Hdr) (p : BitVec 3) : Statement (.popqP h p) := ofWord rfl rfl
theorem qmark (h : Hdr) (t : BitVec 6) : Statement (.qmark h t) := ofWord rfl rfl
theorem qkill (h : Hdr) (t : BitVec 6) : Statement (.qkill h t) := ofWord rfl rfl
theorem fence (h : Hdr) (k : BitVec 2) (sc : BitVec 3) : Statement (.fence h k sc) := ofWord rfl rfl
theorem amoAdd (h : Hdr) (d : BitVec 5) (a : BitVec 5) (b : BitVec 5) : Statement (.amoAdd h d a b) := ofWord rfl rfl
theorem redAdd (h : Hdr) (a : BitVec 5) (b : BitVec 5) : Statement (.redAdd h a b) := ofWord rfl rfl
theorem amoMin (h : Hdr) (d : BitVec 5) (a : BitVec 5) (b : BitVec 5) : Statement (.amoMin h d a b) := ofWord rfl rfl
theorem redMin (h : Hdr) (a : BitVec 5) (b : BitVec 5) : Statement (.redMin h a b) := ofWord rfl rfl
theorem amoMinu (h : Hdr) (d : BitVec 5) (a : BitVec 5) (b : BitVec 5) : Statement (.amoMinu h d a b) := ofWord rfl rfl
theorem redMinu (h : Hdr) (a : BitVec 5) (b : BitVec 5) : Statement (.redMinu h a b) := ofWord rfl rfl
theorem amoMax (h : Hdr) (d : BitVec 5) (a : BitVec 5) (b : BitVec 5) : Statement (.amoMax h d a b) := ofWord rfl rfl
theorem redMax (h : Hdr) (a : BitVec 5) (b : BitVec 5) : Statement (.redMax h a b) := ofWord rfl rfl
theorem amoMaxu (h : Hdr) (d : BitVec 5) (a : BitVec 5) (b : BitVec 5) : Statement (.amoMaxu h d a b) := ofWord rfl rfl
theorem redMaxu (h : Hdr) (a : BitVec 5) (b : BitVec 5) : Statement (.redMaxu h a b) := ofWord rfl rfl
theorem amoAnd (h : Hdr) (d : BitVec 5) (a : BitVec 5) (b : BitVec 5) : Statement (.amoAnd h d a b) := ofWord rfl rfl
theorem redAnd (h : Hdr) (a : BitVec 5) (b : BitVec 5) : Statement (.redAnd h a b) := ofWord rfl rfl
theorem amoOr (h : Hdr) (d : BitVec 5) (a : BitVec 5) (b : BitVec 5) : Statement (.amoOr h d a b) := ofWord rfl rfl
theorem redOr (h : Hdr) (a : BitVec 5) (b : BitVec 5) : Statement (.redOr h a b) := ofWord rfl rfl
theorem amoXor (h : Hdr) (d : BitVec 5) (a : BitVec 5) (b : BitVec 5) : Statement (.amoXor h d a b) := ofWord rfl rfl
theorem redXor (h : Hdr) (a : BitVec 5) (b : BitVec 5) : Statement (.redXor h a b) := ofWord rfl rfl
theorem amoSwap (h : Hdr) (d : BitVec 5) (a : BitVec 5) (b : BitVec 5) : Statement (.amoSwap h d a b) := ofWord rfl rfl
theorem redSwap (h : Hdr) (a : BitVec 5) (b : BitVec 5) : Statement (.redSwap h a b) := ofWord rfl rfl
theorem amoCas (h : Hdr) (d : BitVec 5) (a : BitVec 5) (b : BitVec 5) : Statement (.amoCas h d a b) := ofWord rfl rfl
theorem amoIncwrap (h : Hdr) (d : BitVec 5) (a : BitVec 5) (b : BitVec 5) : Statement (.amoIncwrap h d a b) := ofWord rfl rfl
theorem redIncwrap (h : Hdr) (a : BitVec 5) (b : BitVec 5) : Statement (.redIncwrap h a b) := ofWord rfl rfl
theorem amoIncb (h : Hdr) (d : BitVec 5) (a : BitVec 5) (b : BitVec 5) : Statement (.amoIncb h d a b) := ofWord rfl rfl
theorem redIncb (h : Hdr) (a : BitVec 5) (b : BitVec 5) : Statement (.redIncb h a b) := ofWord rfl rfl
theorem amoDecpos (h : Hdr) (d : BitVec 5) (a : BitVec 5) : Statement (.amoDecpos h d a) := ofWord rfl rfl
theorem redDecpos (h : Hdr) (a : BitVec 5) : Statement (.redDecpos h a) := ofWord rfl rfl
theorem amoFaddlim (h : Hdr) (d : BitVec 5) (a : BitVec 5) (b : BitVec 5) : Statement (.amoFaddlim h d a b) := ofWord rfl rfl
theorem redFaddlim (h : Hdr) (a : BitVec 5) (b : BitVec 5) : Statement (.redFaddlim h a b) := ofWord rfl rfl
theorem mxtab (h : Hdr) (d : BitVec 5) (a : BitVec 5) : Statement (.mxtab h d a) := ofWord rfl rfl
theorem mxfmt (h : Hdr) (d : BitVec 5) (a : BitVec 5) : Statement (.mxfmt h d a) := ofWord rfl rfl
theorem mxpert (h : Hdr) (d : BitVec 5) (a : BitVec 5) : Statement (.mxpert h d a) := ofWord rfl rfl
theorem mxgo (h : Hdr) (a : BitVec 5) : Statement (.mxgo h a) := ofWord rfl rfl
theorem mxwait (h : Hdr) : Statement (.mxwait h) := ofWord rfl rfl
theorem vxcall (h : Hdr) (a : BitVec 5) (b : BitVec 5) : Statement (.vxcall h a b) := ofWord rfl rfl
theorem vxcallSeed (h : Hdr) (a : BitVec 5) (b : BitVec 5) : Statement (.vxcallSeed h a b) := ofWord rfl rfl
theorem vxwait (h : Hdr) : Statement (.vxwait h) := ofWord rfl rfl
theorem btcfg (h : Hdr) (c : BitVec 2) (a : BitVec 5) : Statement (.btcfg h c a) := ofWord rfl rfl
theorem btgo (h : Hdr) (c : BitVec 2) (a : BitVec 5) : Statement (.btgo h c a) := ofWord rfl rfl
theorem btwait (h : Hdr) (c : BitVec 2) : Statement (.btwait h c) := ofWord rfl rfl
theorem btwaitAll (h : Hdr) : Statement (.btwaitAll h) := ofWord rfl rfl
theorem wlOpen (h : Hdr) (d : BitVec 5) (a : BitVec 5) : Statement (.wlOpen h d a) := ofWord rfl rfl
theorem wlSlot (h : Hdr) (d : BitVec 5) (a : BitVec 5) : Statement (.wlSlot h d a) := ofWord rfl rfl
theorem wlRsv (h : Hdr) (a : BitVec 5) (b : BitVec 5) : Statement (.wlRsv h a b) := ofWord rfl rfl
theorem wlTest (h : Hdr) (d : BitVec 5) (a : BitVec 5) (b : BitVec 5) : Statement (.wlTest h d a b) := ofWord rfl rfl
theorem wlTestP (h : Hdr) (p : BitVec 3) (a : BitVec 5) (b : BitVec 5) : Statement (.wlTestP h p a b) := ofWord rfl rfl
theorem wlRels (h : Hdr) (a : BitVec 5) (b : BitVec 5) : Statement (.wlRels h a b) := ofWord rfl rfl
theorem wlDone (h : Hdr) : Statement (.wlDone h) := ofWord rfl rfl
theorem wlRound (h : Hdr) (d : BitVec 5) : Statement (.wlRound h d) := ofWord rfl rfl
theorem wlClose (h : Hdr) : Statement (.wlClose h) := ofWord rfl rfl
theorem pbClaim (h : Hdr) (a : BitVec 5) : Statement (.pbClaim h a) := ofWord rfl rfl
theorem pbLoad (h : Hdr) (a : BitVec 5) (m : BitVec 1) : Statement (.pbLoad h a m) := ofWord rfl rfl
theorem pbColour (h : Hdr) (a : BitVec 5) (m : BitVec 1) : Statement (.pbColour h a m) := ofWord rfl rfl
theorem pbClamp (h : Hdr) (a : BitVec 5) : Statement (.pbClamp h a) := ofWord rfl rfl
theorem pbSweep (h : Hdr) (a : BitVec 5) (m : BitVec 2) : Statement (.pbSweep h a m) := ofWord rfl rfl
theorem pbRead (h : Hdr) (a : BitVec 5) : Statement (.pbRead h a) := ofWord rfl rfl
theorem pbMom (h : Hdr) (a : BitVec 5) (m : BitVec 1) : Statement (.pbMom h a m) := ofWord rfl rfl
theorem pbFree (h : Hdr) : Statement (.pbFree h) := ofWord rfl rfl
theorem sdSeed (h : Hdr) (d : BitVec 5) (a : BitVec 5) : Statement (.sdSeed h d a) := ofWord rfl rfl
theorem sdEmit (h : Hdr) (a : BitVec 5) : Statement (.sdEmit h a) := ofWord rfl rfl
theorem sdApply (h : Hdr) (a : BitVec 5) : Statement (.sdApply h a) := ofWord rfl rfl
theorem sdGap (h : Hdr) (a : BitVec 5) : Statement (.sdGap h a) := ofWord rfl rfl
theorem sdFetch (h : Hdr) (a : BitVec 5) : Statement (.sdFetch h a) := ofWord rfl rfl
theorem sdKey (h : Hdr) (a : BitVec 5) : Statement (.sdKey h a) := ofWord rfl rfl
theorem cxPut (h : Hdr) (a : BitVec 5) : Statement (.cxPut h a) := ofWord rfl rfl
theorem cxGet (h : Hdr) (a : BitVec 5) : Statement (.cxGet h a) := ofWord rfl rfl
theorem cxWcnt (h : Hdr) (d : BitVec 5) (a : BitVec 5) (m : BitVec 2) : Statement (.cxWcnt h d a m) := ofWord rfl rfl
theorem cxSbar (h : Hdr) (d : BitVec 5) : Statement (.cxSbar h d) := ofWord rfl rfl
theorem cxAred (h : Hdr) (a : BitVec 5) : Statement (.cxAred h a) := ofWord rfl rfl
theorem cxAgath (h : Hdr) (a : BitVec 5) : Statement (.cxAgath h a) := ofWord rfl rfl
theorem cxAbort (h : Hdr) (d : BitVec 5) : Statement (.cxAbort h d) := ofWord rfl rfl
theorem cxBar (h : Hdr) (d : BitVec 5) : Statement (.cxBar h d) := ofWord rfl rfl
theorem rgSpawn (h : Hdr) (d : BitVec 5) (a : BitVec 5) : Statement (.rgSpawn h d a) := ofWord rfl rfl
theorem rgNext (h : Hdr) (d : BitVec 5) : Statement (.rgNext h d) := ofWord rfl rfl
theorem rgSteal (h : Hdr) (d : BitVec 5) (a : BitVec 5) : Statement (.rgSteal h d a) := ofWord rfl rfl
theorem rgStep (h : Hdr) (d : BitVec 5) : Statement (.rgStep h d) := ofWord rfl rfl
theorem rgYield (h : Hdr) : Statement (.rgYield h) := ofWord rfl rfl
theorem rgExit (h : Hdr) (a : BitVec 5) : Statement (.rgExit h a) := ofWord rfl rfl
theorem trap (h : Hdr) (i : BitVec 6) : Statement (.trap h i) := ofWord rfl rfl
theorem eret (h : Hdr) : Statement (.eret h) := ofWord rfl rfl
theorem sysr (h : Hdr) (d : BitVec 5) (i : BitVec 11) : Statement (.sysr h d i) := ofWord rfl rfl
theorem sysw (h : Hdr) (d : BitVec 5) (i : BitVec 11) : Statement (.sysw h d i) := ofWord rfl rfl
theorem wfe (h : Hdr) : Statement (.wfe h) := ofWord rfl rfl
theorem ext (i : BitVec 16) : Statement (.ext i) := fun _ _ _ => ⟨_, rfl, fun _ h => by cases h⟩
theorem mxNop (h : Hdr) : Statement (.mxNop h) := ofWord rfl rfl
theorem mxLdw (h : Hdr) (f : BitVec 5) : Statement (.mxLdw h f) := ofWord rfl rfl
theorem mxSwap (h : Hdr) : Statement (.mxSwap h) := ofWord rfl rfl
theorem mxRun (h : Hdr) (f : BitVec 5) (n : BitVec 8) (k : BitVec 3) : Statement (.mxRun h f n k) := ofWord rfl rfl
theorem mxZero (h : Hdr) (k : BitVec 3) : Statement (.mxZero h k) := ofWord rfl rfl
theorem mxDrain (h : Hdr) (e : BitVec 1) (r : BitVec 1) (b : BitVec 1) (n : BitVec 8) (k : BitVec 3) : Statement (.mxDrain h e r b n k) := ofWord rfl rfl
theorem mxMark (h : Hdr) : Statement (.mxMark h) := ofWord rfl rfl
theorem mxChk (h : Hdr) (k : BitVec 3) : Statement (.mxChk h k) := ofWord rfl rfl
theorem mxBias (h : Hdr) : Statement (.mxBias h) := ofWord rfl rfl
theorem mxFsel (h : Hdr) (l : BitVec 3) (b : BitVec 4) (m : BitVec 4) : Statement (.mxFsel h l b m) := ofWord rfl rfl
theorem mxRet (h : Hdr) : Statement (.mxRet h) := ofWord rfl rfl
theorem vaddF32 (h : Hdr) (d : BitVec 5) (a : BitVec 5) (b : BitVec 5) : Statement (.vaddF32 h d a b) := ofWord rfl rfl
theorem vsubF32 (h : Hdr) (d : BitVec 5) (a : BitVec 5) (b : BitVec 5) : Statement (.vsubF32 h d a b) := ofWord rfl rfl
theorem vmulF32 (h : Hdr) (d : BitVec 5) (a : BitVec 5) (b : BitVec 5) : Statement (.vmulF32 h d a b) := ofWord rfl rfl
theorem vfmaF32 (h : Hdr) (d : BitVec 5) (a : BitVec 5) (b : BitVec 5) : Statement (.vfmaF32 h d a b) := ofWord rfl rfl
theorem vminF32 (h : Hdr) (d : BitVec 5) (a : BitVec 5) (b : BitVec 5) : Statement (.vminF32 h d a b) := ofWord rfl rfl
theorem vmaxF32 (h : Hdr) (d : BitVec 5) (a : BitVec 5) (b : BitVec 5) : Statement (.vmaxF32 h d a b) := ofWord rfl rfl
theorem vabsF32 (h : Hdr) (d : BitVec 5) (a : BitVec 5) : Statement (.vabsF32 h d a) := ofWord rfl rfl
theorem vnegF32 (h : Hdr) (d : BitVec 5) (a : BitVec 5) : Statement (.vnegF32 h d a) := ofWord rfl rfl
theorem vrcpF32 (h : Hdr) (d : BitVec 5) (a : BitVec 5) : Statement (.vrcpF32 h d a) := ofWord rfl rfl
theorem vrsqF32 (h : Hdr) (d : BitVec 5) (a : BitVec 5) : Statement (.vrsqF32 h d a) := ofWord rfl rfl
theorem vexp2F32 (h : Hdr) (d : BitVec 5) (a : BitVec 5) : Statement (.vexp2F32 h d a) := ofWord rfl rfl
theorem vlog2F32 (h : Hdr) (d : BitVec 5) (a : BitVec 5) : Statement (.vlog2F32 h d a) := ofWord rfl rfl
theorem vcmpF32 (h : Hdr) (c : BitVec 3) (q : BitVec 3) (a : BitVec 5) (b : BitVec 5) : Statement (.vcmpF32 h c q a b) := ofWord rfl rfl
theorem vaddF16 (h : Hdr) (d : BitVec 5) (a : BitVec 5) (b : BitVec 5) : Statement (.vaddF16 h d a b) := ofWord rfl rfl
theorem vsubF16 (h : Hdr) (d : BitVec 5) (a : BitVec 5) (b : BitVec 5) : Statement (.vsubF16 h d a b) := ofWord rfl rfl
theorem vmulF16 (h : Hdr) (d : BitVec 5) (a : BitVec 5) (b : BitVec 5) : Statement (.vmulF16 h d a b) := ofWord rfl rfl
theorem vfmaF16 (h : Hdr) (d : BitVec 5) (a : BitVec 5) (b : BitVec 5) : Statement (.vfmaF16 h d a b) := ofWord rfl rfl
theorem vminF16 (h : Hdr) (d : BitVec 5) (a : BitVec 5) (b : BitVec 5) : Statement (.vminF16 h d a b) := ofWord rfl rfl
theorem vmaxF16 (h : Hdr) (d : BitVec 5) (a : BitVec 5) (b : BitVec 5) : Statement (.vmaxF16 h d a b) := ofWord rfl rfl
theorem vabsF16 (h : Hdr) (d : BitVec 5) (a : BitVec 5) : Statement (.vabsF16 h d a) := ofWord rfl rfl
theorem vnegF16 (h : Hdr) (d : BitVec 5) (a : BitVec 5) : Statement (.vnegF16 h d a) := ofWord rfl rfl
theorem vrcpF16 (h : Hdr) (d : BitVec 5) (a : BitVec 5) : Statement (.vrcpF16 h d a) := ofWord rfl rfl
theorem vrsqF16 (h : Hdr) (d : BitVec 5) (a : BitVec 5) : Statement (.vrsqF16 h d a) := ofWord rfl rfl
theorem vexp2F16 (h : Hdr) (d : BitVec 5) (a : BitVec 5) : Statement (.vexp2F16 h d a) := ofWord rfl rfl
theorem vlog2F16 (h : Hdr) (d : BitVec 5) (a : BitVec 5) : Statement (.vlog2F16 h d a) := ofWord rfl rfl
theorem vcmpF16 (h : Hdr) (c : BitVec 3) (q : BitVec 3) (a : BitVec 5) (b : BitVec 5) : Statement (.vcmpF16 h c q a b) := ofWord rfl rfl
theorem vaddBf16 (h : Hdr) (d : BitVec 5) (a : BitVec 5) (b : BitVec 5) : Statement (.vaddBf16 h d a b) := ofWord rfl rfl
theorem vsubBf16 (h : Hdr) (d : BitVec 5) (a : BitVec 5) (b : BitVec 5) : Statement (.vsubBf16 h d a b) := ofWord rfl rfl
theorem vmulBf16 (h : Hdr) (d : BitVec 5) (a : BitVec 5) (b : BitVec 5) : Statement (.vmulBf16 h d a b) := ofWord rfl rfl
theorem vfmaBf16 (h : Hdr) (d : BitVec 5) (a : BitVec 5) (b : BitVec 5) : Statement (.vfmaBf16 h d a b) := ofWord rfl rfl
theorem vminBf16 (h : Hdr) (d : BitVec 5) (a : BitVec 5) (b : BitVec 5) : Statement (.vminBf16 h d a b) := ofWord rfl rfl
theorem vmaxBf16 (h : Hdr) (d : BitVec 5) (a : BitVec 5) (b : BitVec 5) : Statement (.vmaxBf16 h d a b) := ofWord rfl rfl
theorem vabsBf16 (h : Hdr) (d : BitVec 5) (a : BitVec 5) : Statement (.vabsBf16 h d a) := ofWord rfl rfl
theorem vnegBf16 (h : Hdr) (d : BitVec 5) (a : BitVec 5) : Statement (.vnegBf16 h d a) := ofWord rfl rfl
theorem vrcpBf16 (h : Hdr) (d : BitVec 5) (a : BitVec 5) : Statement (.vrcpBf16 h d a) := ofWord rfl rfl
theorem vrsqBf16 (h : Hdr) (d : BitVec 5) (a : BitVec 5) : Statement (.vrsqBf16 h d a) := ofWord rfl rfl
theorem vexp2Bf16 (h : Hdr) (d : BitVec 5) (a : BitVec 5) : Statement (.vexp2Bf16 h d a) := ofWord rfl rfl
theorem vlog2Bf16 (h : Hdr) (d : BitVec 5) (a : BitVec 5) : Statement (.vlog2Bf16 h d a) := ofWord rfl rfl
theorem vcmpBf16 (h : Hdr) (c : BitVec 3) (q : BitVec 3) (a : BitVec 5) (b : BitVec 5) : Statement (.vcmpBf16 h c q a b) := ofWord rfl rfl
theorem viadd (h : Hdr) (d : BitVec 5) (a : BitVec 5) (b : BitVec 5) : Statement (.viadd h d a b) := ofWord rfl rfl
theorem visub (h : Hdr) (d : BitVec 5) (a : BitVec 5) (b : BitVec 5) : Statement (.visub h d a b) := ofWord rfl rfl
theorem vimul (h : Hdr) (d : BitVec 5) (a : BitVec 5) (b : BitVec 5) : Statement (.vimul h d a b) := ofWord rfl rfl
theorem vand (h : Hdr) (d : BitVec 5) (a : BitVec 5) (b : BitVec 5) : Statement (.vand h d a b) := ofWord rfl rfl
theorem vor (h : Hdr) (d : BitVec 5) (a : BitVec 5) (b : BitVec 5) : Statement (.vor h d a b) := ofWord rfl rfl
theorem vxor (h : Hdr) (d : BitVec 5) (a : BitVec 5) (b : BitVec 5) : Statement (.vxor h d a b) := ofWord rfl rfl
theorem vshl (h : Hdr) (d : BitVec 5) (a : BitVec 5) (b : BitVec 5) : Statement (.vshl h d a b) := ofWord rfl rfl
theorem vshr (h : Hdr) (d : BitVec 5) (a : BitVec 5) (b : BitVec 5) : Statement (.vshr h d a b) := ofWord rfl rfl
theorem vsra (h : Hdr) (d : BitVec 5) (a : BitVec 5) (b : BitVec 5) : Statement (.vsra h d a b) := ofWord rfl rfl
theorem vimin (h : Hdr) (d : BitVec 5) (a : BitVec 5) (b : BitVec 5) : Statement (.vimin h d a b) := ofWord rfl rfl
theorem viminU (h : Hdr) (d : BitVec 5) (a : BitVec 5) (b : BitVec 5) : Statement (.viminU h d a b) := ofWord rfl rfl
theorem vimax (h : Hdr) (d : BitVec 5) (a : BitVec 5) (b : BitVec 5) : Statement (.vimax h d a b) := ofWord rfl rfl
theorem vimaxU (h : Hdr) (d : BitVec 5) (a : BitVec 5) (b : BitVec 5) : Statement (.vimaxU h d a b) := ofWord rfl rfl
theorem vicmp (h : Hdr) (c : BitVec 3) (q : BitVec 3) (a : BitVec 5) (b : BitVec 5) : Statement (.vicmp h c q a b) := ofWord rfl rfl
theorem vsel (h : Hdr) (d : BitVec 5) (a : BitVec 5) (b : BitVec 5) : Statement (.vsel h d a b) := ofWord rfl rfl
theorem vmov (h : Hdr) (d : BitVec 5) (a : BitVec 5) : Statement (.vmov h d a) := ofWord rfl rfl
theorem vmovQ (h : Hdr) (d : BitVec 5) (q : BitVec 3) : Statement (.vmovQ h d q) := ofWord rfl rfl
theorem vsplat (h : Hdr) (d : BitVec 5) (i : BitVec 11) : Statement (.vsplat h d i) := ofWord rfl rfl
theorem vidx (h : Hdr) (d : BitVec 5) (i : BitVec 11) : Statement (.vidx h d i) := ofWord rfl rfl
theorem vcvt (h : Hdr) (d : BitVec 5) (a : BitVec 5) (c : BitVec 5) : Statement (.vcvt h d a c) := ofWord rfl rfl
theorem vqntS8 (h : Hdr) (d : BitVec 5) (a : BitVec 5) (b : BitVec 5) : Statement (.vqntS8 h d a b) := ofWord rfl rfl
theorem vqntU8 (h : Hdr) (d : BitVec 5) (a : BitVec 5) (b : BitVec 5) : Statement (.vqntU8 h d a b) := ofWord rfl rfl
theorem vdeq (h : Hdr) (d : BitVec 5) (a : BitVec 5) (b : BitVec 5) : Statement (.vdeq h d a b) := ofWord rfl rfl
theorem vdeqU (h : Hdr) (d : BitVec 5) (a : BitVec 5) (b : BitVec 5) : Statement (.vdeqU h d a b) := ofWord rfl rfl
theorem vpack (h : Hdr) (d : BitVec 5) (a : BitVec 5) (f : BitVec 3) : Statement (.vpack h d a f) := ofWord rfl rfl
theorem vpackS (h : Hdr) (d : BitVec 5) (a : BitVec 5) (f : BitVec 3) : Statement (.vpackS h d a f) := ofWord rfl rfl
theorem vunpk (h : Hdr) (d : BitVec 5) (a : BitVec 5) (f : BitVec 3) : Statement (.vunpk h d a f) := ofWord rfl rfl
theorem vunpkS (h : Hdr) (d : BitVec 5) (a : BitVec 5) (f : BitVec 3) : Statement (.vunpkS h d a f) := ofWord rfl rfl
theorem vperm (h : Hdr) (d : BitVec 5) (a : BitVec 5) (b : BitVec 5) : Statement (.vperm h d a b) := ofWord rfl rfl
theorem vpermH (h : Hdr) (d : BitVec 5) (a : BitVec 5) (b : BitVec 5) : Statement (.vpermH h d a b) := ofWord rfl rfl
theorem vbcst (h : Hdr) (d : BitVec 5) (a : BitVec 5) (k : BitVec 6) : Statement (.vbcst h d a k) := ofWord rfl rfl
theorem vrot (h : Hdr) (d : BitVec 5) (a : BitVec 5) (k : BitVec 6) : Statement (.vrot h d a k) := ofWord rfl rfl
theorem vred (h : Hdr) (d : BitVec 5) (a : BitVec 5) (o : BitVec 3) : Statement (.vred h d a o) := ofWord rfl rfl
theorem vredx (h : Hdr) (d : BitVec 5) (a : BitVec 5) (o : BitVec 2) : Statement (.vredx h d a o) := ofWord rfl rfl
theorem vtopk (h : Hdr) (d : BitVec 5) (a : BitVec 5) (k : BitVec 5) : Statement (.vtopk h d a k) := ofWord rfl rfl
theorem vtopkMin (h : Hdr) (d : BitVec 5) (a : BitVec 5) (k : BitVec 5) : Statement (.vtopkMin h d a k) := ofWord rfl rfl
theorem trow (h : Hdr) (r : BitVec 7) (n : BitVec 2) (a : BitVec 5) : Statement (.trow h r n a) := ofWord rfl rfl
theorem tcol (h : Hdr) (d : BitVec 5) (c : BitVec 7) (n : BitVec 2) : Statement (.tcol h d c n) := ofWord rfl rfl
theorem tclr (h : Hdr) (n : BitVec 2) : Statement (.tclr h n) := ofWord rfl rfl
theorem vpop (h : Hdr) (d : BitVec 5) (sc : BitVec 4) : Statement (.vpop h d sc) := ofWord rfl rfl
theorem vpush (h : Hdr) (a : BitVec 5) : Statement (.vpush h a) := ofWord rfl rfl
theorem vpopd (h : Hdr) (d : BitVec 5) (sc : BitVec 4) : Statement (.vpopd h d sc) := ofWord rfl rfl
theorem veq (h : Hdr) (a : BitVec 5) : Statement (.veq h a) := ofWord rfl rfl
theorem veqP (h : Hdr) (p : BitVec 3) : Statement (.veqP h p) := ofWord rfl rfl
theorem vdq (h : Hdr) (d : BitVec 5) : Statement (.vdq h d) := ofWord rfl rfl
theorem vdqHi (h : Hdr) (d : BitVec 5) : Statement (.vdqHi h d) := ofWord rfl rfl
theorem vaq (h : Hdr) (a : BitVec 5) : Statement (.vaq h a) := ofWord rfl rfl
theorem vany (h : Hdr) (d : BitVec 3) (a : BitVec 3) : Statement (.vany h d a) := ofWord rfl rfl
theorem vall (h : Hdr) (d : BitVec 3) (a : BitVec 3) : Statement (.vall h d a) := ofWord rfl rfl
theorem qlog (h : Hdr) (c : BitVec 3) (d : BitVec 3) (a : BitVec 3) (b : BitVec 3) : Statement (.qlog h c d a b) := ofWord rfl rfl
theorem vmsk (h : Hdr) (a : BitVec 3) : Statement (.vmsk h a) := ofWord rfl rfl
theorem vxPlog (h : Hdr) (c : BitVec 3) (d : BitVec 3) (a : BitVec 3) (b : BitVec 3) : Statement (.vxPlog h c d a b) := ofWord rfl rfl
theorem vbprep (h : Hdr) (n : BitVec 1) (i : BitVec 11) : Statement (.vbprep h n i) := ofWord rfl rfl
theorem vbxfer (h : Hdr) (n : BitVec 1) (d : BitVec 2) : Statement (.vbxfer h n d) := ofWord rfl rfl
theorem vlset (h : Hdr) (c : BitVec 1) (n : BitVec 2) (i : BitVec 11) : Statement (.vlset h c n i) := ofWord rfl rfl
theorem vret (h : Hdr) : Statement (.vret h) := ofWord rfl rfl
theorem vwin (h : Hdr) (r : BitVec 5) (i : BitVec 11) : Statement (.vwin h r i) := ofWord rfl rfl
theorem vgrt (h : Hdr) (d : BitVec 5) (a : BitVec 5) (k : BitVec 3) (sc : BitVec 2) : Statement (.vgrt h d a k sc) := ofWord rfl rfl
theorem vrand (h : Hdr) (d : BitVec 5) (k : BitVec 3) (sc : BitVec 2) : Statement (.vrand h d k sc) := ofWord rfl rfl
theorem vrandSet (h : Hdr) (a : BitVec 5) : Statement (.vrandSet h a) := ofWord rfl rfl
theorem vshd (h : Hdr) : Statement (.vshd h) := ofWord rfl rfl
theorem vstat (h : Hdr) (d : BitVec 5) : Statement (.vstat h d) := ofWord rfl rfl
theorem vstatClr (h : Hdr) (d : BitVec 5) : Statement (.vstatClr h d) := ofWord rfl rfl
theorem vnop (h : Hdr) : Statement (.vnop h) := ofWord rfl rfl
theorem vtrap (h : Hdr) (i : BitVec 11) : Statement (.vtrap h i) := ofWord rfl rfl
theorem vext (i : BitVec 16) : Statement (.vext i) := fun _ _ _ => ⟨_, rfl, fun _ h => by cases h⟩
theorem illegalOpcode (st : Stream) (w : BitVec 32) : Statement (.illegalOpcode st w) := fun _ _ h => by cases h
theorem illegalField (st : Stream) (w : BitVec 32) : Statement (.illegalField st w) := fun _ _ h => by cases h
theorem inFieldTestStart (core cls : Nat) : Statement (.inFieldTestStart core cls) := ofNone rfl

end Sys2Proof.Laws.Encoded
end

