-- ==== Sys2Proof/Tests/Slice0.lean ====
section
/-!
SUPPORT. Words written out from the spec's encodings, ill-formed terms that the check refuses, single steps with results worked out from the
spec, and for every statement with hypotheses a state and operands that meet them, clause by clause (wit_<part>).
-/

namespace Sys2Proof.Tests

set_option Elab.async false

open Sys2Proof Sys2Proof.Machine Sys2Proof.Claims

/-! ### Small states -/

/-- A header without tokens, VS 0, guard p0. -/
def hd : Hdr := ⟨false, false, false, false, 0, 0⟩

/-- A running member of region 1, with every class. -/
def core0 : Core :=
  { run := .running, rid := 1, sys := { oum := 0x3FFFFFF }, main := { x := [(1, 5), (2, 7), (3, 0xFFFFFFFFFFFFFFFF)], p := [(1, true)] } }

/-- A region of one member on core 0. -/
def reg0 : Region := { part := 0, chan := none, seq := 1, age := 0, raw := 0, st := .running, members := [0], runs := 1 }

/-- A partition of one cluster. -/
def part0 : Part := { formed := true, clusters := [0] }

/-- The module with one partition, one region and one core, changed by `f`. -/
def st (f : Core → Core) : State :=
  { State.reset with cores := [(0, f core0)], regions := [(1, reg0)], parts := [(0, part0)], nextRid := 2, dev := { boot := [(0, 1)] } }

/-- The same, its main context changed by `f`. -/
def stX (f : ApCtx → ApCtx) : State := st fun c => { c with main := f c.main }

/-- The same, with registers. -/
def xs (l : List (Nat × Word)) (f : Core → Core := id) : State :=
  st fun c => f { c with cmdSeq := 7, main := { c.main with x := l, po := 3 } }

/-- The state as it is. -/
def s0 : State := st id

/-- What a step answers holds `p`. -/
def then_ (o : Out) (p : State → Bool) : Bool :=
  match o with
  | .next s => p s
  | _ => false

/-- A step answers the state `t`. -/
def goesTo (i : Instr) (s t : State) : Bool := then_ (exec i s) fun u => decide (u = t)

/-- A word's own effect takes place. -/
def goesB (h : Hdr) (sp : ApSpec) (s : State) : Bool :=
  decide (h.vs.toNat < 2) && decide (s.cur.ctx.ext = [] ∨ (sp.extOk = true ∧ s.cur.ctx.extBad = false)) && decide (sp.bad = false)
    && decide (s.cur.inHandler = false → s.cur.sys.oum.getLsbD sp.cls = true) && decide (s.cur.sys.ccm.getLsbD sp.cls = true)
    && decide (s.cur.inHandler = true →
      h.wp = false ∧ h.wn = false ∧ h.sp = false ∧ h.sn = false ∧ h.vs = 0 ∧ sp.cmd = false ∧ sp.mainOnly = false ∧ sp.cls < 4)
    && decide (pr s h.g = true) && decide (s.cur.inHandler = false → ∀ e ∈ s.cur.pushWait, e.1 ≠ Stream.ap)
    && (s.cur.ctx.popped || (List.range 6).all fun f => decide (tokSum (hdrPops .ap h) f ≤ s.cur.tokens f))
    && decide (sp.mem = true ∨ sp.cmd = true → s.cur.ctx.fences = []) && decide (sp.cmd = true → s.cur.cmds.length < 255)
    && decide (sp.mem = true ∨ sp.cmd = true ∨ sp.sends = true → s.cur.chkBad = false)

theorem goes {h : Hdr} {sp : ApSpec} {s : State} (e : goesB h sp s = true) : ApGoes h sp s := by
  simp only [goesB, Bool.and_eq_true, decide_eq_true_eq] at e
  obtain ⟨⟨⟨⟨⟨⟨⟨⟨⟨⟨⟨a, b⟩, c⟩, d⟩, f⟩, g⟩, i⟩, j⟩, k⟩, l⟩, m⟩, n⟩ := e
  simp only [Bool.or_eq_true, List.all_eq_true, List.mem_range, decide_eq_true_eq] at k
  exact ⟨a, b, c, d, f, g, i, j, k, l, m, n⟩

theorem goesTo_eq {i : Instr} {s t : State} (h : goesTo i s t = true) : exec i s = .next t := by
  unfold goesTo then_ at h; split at h <;> simp_all

theorem runs {i h sp s c x} (e : goesTo i s (wordDone h sp s c x) = true) : WordRuns i h sp s c x :=
  ⟨goesTo_eq e, Sys2Proof.Laws.onlyCur_setCur s _⟩

/-! ### Access processor: witnesses -/

theorem wit_ApIntegerWords : ApGoes hd { cls := 0 } s0 := goes (by decide +kernel)

theorem wit_InClass : hd.vs.toNat < 2 ∧ s0.cur.inHandler = false ∧ s0.cur.main.ext = []
    ∧ (st fun c => { c with sys := { c.sys with oum := 0x3FFFFFE } }).cur.sys.oum.getLsbD 0 = false
    ∧ s0.cur.sys.oum.getLsbD 0 = true ∧ (st fun c => { c with sys := { c.sys with ccm := 0x3FFFFFE } }).cur.sys.ccm.getLsbD 0 = false := by
  decide +kernel

theorem wit_ApMultiplyDivide : ApGoes hd { cls := 1 } s0 ∧ xr s0 2 ≠ 0 ∧ xr s0 4 = 0 :=
  ⟨goes (by decide +kernel), by decide +kernel⟩

theorem wit_ApBitWords : ApGoes hd { cls := 0 } s0 ∧ xr s0 4 = 0 ∧ xr s0 3 ≠ 0 :=
  ⟨goes (by decide +kernel), by decide +kernel⟩

/-- With an `ext` word, and a shift amount of 63. -/
theorem wit_ApImmediateWords : ApGoes hd { cls := 0, extOk := true } (stX fun x => { x with ext := [1] })
    ∧ immediateBits s0 (63 : BitVec 6) < 64 :=
  ⟨goes (by decide +kernel), by decide +kernel⟩

theorem wit_ApPredicateWords : ApGoes hd { cls := 0 } s0 := wit_ApIntegerWords

theorem wit_ApCompareImmediate : ApGoes hd { cls := 0, extOk := true } s0 := goes (by decide +kernel)

/-- Two loops that end at word 5, the inner with one pass left. -/
def lx : ApCtx := { pc := 5, loops := [(0, ⟨2, 2, 5⟩), (2, ⟨1, 4, 5⟩)] }

theorem wit_PcSequence : ({ lx with br := some ⟨2, 9⟩ } : ApCtx).br = some ⟨2, 9⟩ ∧ ({ lx with br := some ⟨1, 9⟩ } : ApCtx).br = some ⟨1, 9⟩
    ∧ (∀ k < 4, ¬ ((smGet ⟨0, 0, 0⟩ ({ lx with pc := 6 } : ApCtx).loops k).count ≠ 0 ∧ (smGet ⟨0, 0, 0⟩ lx.loops k).stop.toNat = 6))
    ∧ lx.br = none ∧ (smGet ⟨0, 0, 0⟩ lx.loops 0).stop.toNat = lx.pc.toNat ∧ 1 < (smGet ⟨0, 0, 0⟩ lx.loops 0).count.toNat
    ∧ (smGet ⟨0, 0, 0⟩ lx.loops 2).count = 1 ∧ (smGet ⟨0, 0, 0⟩ lx.loops 0).start < (smGet ⟨0, 0, 0⟩ lx.loops 2).start := by
  decide +kernel

/-- The inner loop ends and the outer goes back to its start. -/
theorem test_nested_loops : (lx.advance 16384).pc = 2 ∧ smGet ⟨0, 0, 0⟩ (lx.advance 16384).loops 0 = ⟨1, 2, 5⟩
    ∧ smGet ⟨0, 0, 0⟩ (lx.advance 16384).loops 2 = ⟨0, 4, 5⟩ := by decide +kernel

theorem wit_ApBranchWords : ApGoes hd { cls := 0, extOk := true } s0 ∧ ApGoes hd { cls := 0 } s0 ∧ s0.cur.ctx.br = none :=
  ⟨goes (by decide +kernel), goes (by decide +kernel), by decide +kernel⟩

/-- A target of the last word of the memory and one past it. -/
theorem wit_BadTarget : (16383 : Word).toNat < 16384 ∧ 16384 ≤ (16384 : Word).toNat := by decide

theorem wit_BadTargetFaultsAtFetch :
    let s := stX fun x => { x with bad := some 16384 }
    s.agenda = [] ∧ s.turn.2 = Phase.ap ∧ apRuns s = true ∧ s.cur.inHandler = false ∧ s.cur.main.bad = some 16384
      ∧ s.cur.main.br = none ∧ s.cur.cycle ≥ s.cur.main.hold := by decide +kernel

/-- A branch target whose word has an uncorrectable error. -/
theorem wit_BadTargetWord :
    let s := st fun c => { c with imBad := [(.ap, 9)], main := { c.main with pc := 9, via := true } }
    s.agenda = [] ∧ s.turn.2 = Phase.ap ∧ apRuns s = true ∧ s.cur.inHandler = false ∧ s.cur.main.bad = none ∧ s.cur.main.via = true
      ∧ apFetchWaits s = false ∧ (Stream.ap, s.cur.main.pc.toNat) ∈ s.cur.imBad := by decide +kernel

/-- END at the last word; COUNT of all ones, and 0; a set loop for `lbrk`. -/
theorem wit_ApLoopWords :
    let s := stX fun x => { x with x := [(3, 0xFFFFFFFF)], pc := 16320 }
    ApGoes hd { cls := 0, extOk := true } s ∧ s.cur.ctx.br = none ∧ immediateBits s (63 : BitVec 6) ≠ 0 ∧ (xr s 3).toNat ≤ 0xFFFFFFFF
      ∧ s.cur.ctx.pc.toNat + immediateBits s (63 : BitVec 6) ≤ 16383 ∧ nestBad s.cur.ctx.loops 1 16321 16383 = false
      ∧ xr s 3 ≠ 0 ∧ xr s 2 = 0 ∧ ApGoes hd { cls := 0 } s :=
  ⟨goes (by decide +kernel), by decide +kernel, by decide +kernel, by decide +kernel, by decide +kernel, by decide +kernel,
   by decide +kernel, by decide +kernel, goes (by decide +kernel)⟩

/-- The second of two `ext` words, in the last delay slot. -/
theorem wit_ApExtWord :
    let s := stX fun x => { x with br := some ⟨1, 5⟩, ext := [7] }
    s.cur.ctx.ext.length < 2 ∧ s.cur.ctx.extBad = false ∧ s.cur.sys.oum.getLsbD 0 = true ∧ s.cur.sys.ccm.getLsbD 0 = true
      ∧ ∀ k < 4, (smGet ⟨0, 0, 0⟩ s.cur.ctx.loops k).count = 0 := by decide +kernel

/-- A handler that runs, with the debug feature. -/
def inH (f : Core → Core := id) : State :=
  xs [(1, 1)] fun c => f { c with
    shadow := { c.shadow with x := [(1, 1)] }, sys := { c.sys with feat := 1 }
    hnd := some { epc := 7, cause := 9, faddr := 4, cmd := none, apPo := none, start := 0, running := true } }

theorem wit_ApSystemRead : ApGoes hd { cls := 0, extOk := true } s0 ∧ s0.cur.sys.det = false
    ∧ ApGoes hd { cls := 0, extOk := true } inH ∧ 0x100 ≤ immediateBits inH (0x102 : BitVec 11) ∧ inH.cur.inHandler = true
    ∧ inH.cur.sys.feat.getLsbD 0 = true :=
  ⟨goes (by decide +kernel), by decide +kernel, goes (by decide +kernel), by decide +kernel⟩

theorem wit_ApSystemWrite : ApGoes hd { cls := 0, extOk := true } s0 ∧ immediateBits s0 (0x18 : BitVec 11) = 0x18
    ∧ sysBad 0x18 (xr s0 3) = false ∧ sysBad 0 16 = true ∧ sysBad 5 0x80000 = true ∧ sysBad 0x20 5 = true ∧ sysBad 0x40 2 = true :=
  ⟨goes (by decide +kernel), by decide +kernel⟩

theorem wit_ApNopAndWait : ApGoes hd { cls := 0 } s0 ∧ ApGoes hd { cls := 0, mainOnly := true } s0 ∧ s0.cur.ev = false
    ∧ ApGoes hd { cls := 0, mainOnly := true } (st fun c => { c with ev := true }) :=
  ⟨goes (by decide +kernel), goes (by decide +kernel), by decide +kernel, goes (by decide +kernel)⟩

/-! Memory words -/

def memSp : ApSpec := { cls := 3, mem := true }

/-- x1 in the own scratchpad, x3 in the translated space, with nothing walked yet. -/
def sm : State := stX fun x => { x with x := [(1, ownVa 64), (2, 8), (3, 0x5000), (4, 1), (5, 0x1234567890ABCDEF)] }

theorem passes_spad : AccessPasses sm (xr sm 1 + xr sm 2) 8 8 8 { r := true } :=
  .inl ⟨by decide +kernel, 0, 72, by decide +kernel⟩

theorem passes_xl : AccessPasses sm (xr sm 3 + xr sm 2) 8 8 8 { w := true } := .inr ⟨by decide +kernel, by decide +kernel, by decide +kernel,
    by decide +kernel, by
  intro v hv r hr
  have : v = 0 := by rw [show granules (xr sm 3 + xr sm 2).toNat 8 = [0] by decide +kernel] at hv; simpa using hv
  subst this; exact .inl (hr.symm.trans (by decide +kernel))⟩

theorem wit_ApLoadsIssue : ApGoes hd memSp sm ∧ readRoom sm ∧ AccessPasses sm (xr sm 1 + xr sm 2) 8 8 8 { r := true } :=
  ⟨goes (by decide +kernel), by unfold readRoom; decide +kernel, passes_spad⟩

theorem wit_ApStoresIssue : ApGoes hd memSp sm ∧ writeRoom sm ∧ AccessPasses sm (xr sm 3 + xr sm 2) 8 8 8 { w := true } :=
  ⟨goes (by decide +kernel), by unfold writeRoom; decide +kernel, passes_xl⟩

/-- x1 is `v`. -/
def at1 (v : Word) : State := stX fun x => { x with x := [(1, v)] }

theorem wit_ApAccessFaults : ApGoes hd memSp (at1 0) ∧ readRoom (at1 0) ∧ writeRoom (at1 0)
    ∧ (vaSpace (xr (at1 0x1000000000000000) 1) ≠ 0 ∧ vaSpace (xr (at1 0x1000000000000000) 1) ≠ 15)
    ∧ (vaSpace (xr (at1 0x0001000000000000) 1) = 0 ∧ wbits (xr (at1 0x0001000000000000) 1) 48 12 ≠ 0)
    ∧ (vaSpace (xr (at1 0xF000000003000000) 1) = 15 ∧ spadOf (at1 0xF000000003000000) 0 (xr (at1 0xF000000003000000) 1) = none)
    ∧ (vaSpace (xr (at1 0x5004) 1) = 0 ∧ wbits (xr (at1 0x5004) 1) 48 12 = 0 ∧ (xr (at1 0x5004) 1).toNat % 8 ≠ 0
       ∧ (xr (at1 0x5004) 1).toNat + 8 ≤ 2 ^ 48)
    ∧ (vaSpace (xr (at1 0xFFFFFFFFFFF9) 1) = 0 ∧ wbits (xr (at1 0xFFFFFFFFFFF9) 1) 48 12 = 0 ∧ 2 ^ 48 < (xr (at1 0xFFFFFFFFFFF9) 1).toNat + 8)
    ∧ (xr (at1 0x5001) 1).toNat % 2 ≠ 0 :=
  ⟨goes (by decide +kernel), by unfold readRoom; decide +kernel, by unfold writeRoom; decide +kernel,
   by decide +kernel⟩

def qSp : ApSpec := { cls := 3, mem := true, mainOnly := true }
/-- Rows at x1 in the own scratchpad; counts 64 and 65. -/
def sq : State := stX fun x => { x with x := [(1, ownVa 384), (2, 64), (3, 65)] }

theorem wit_ApQueueAccesses : ApGoes hd qSp sq ∧ (xr sq 0).toNat = 0 ∧ (0 < (xr sq 2).toNat ∧ (xr sq 2).toNat ≤ 64) ∧ readRoom sq
    ∧ (∀ k < 64, AccessPasses sq (xr sq 1 + w64 (384 * k)) 384 384 64 { r := true }) ∧ queueLoad sq.cur true false + 64 ≤ 64
    ∧ 64 < (xr sq 3).toNat ∧ writeRoom sq ∧ AccessPasses sq (xr sq 1 + xr sq 0) 384 384 64 { w := true } := by
  refine ⟨goes (by decide +kernel), by decide +kernel, by decide +kernel, by unfold readRoom; decide +kernel, ?_, by decide +kernel,
    by decide +kernel, by unfold writeRoom; decide +kernel, .inl ⟨by decide +kernel, 0, 384, by decide +kernel⟩⟩
  intro k hk
  have : ∀ k < 64, vaSpace (xr sq 1 + w64 (384 * k)) = 15 ∧ spadOf sq sq.turn.1 (xr sq 1 + w64 (384 * k)) = some (0, 384 + 384 * k) := by
    decide +kernel
  exact .inl ⟨(this k hk).1, 0, 384 + 384 * k, (this k hk).2, by omega, by omega⟩

theorem wit_ApPopQueue :
    let s (t : Nat) := st fun c => { c with cycle := 3, q := { eq := [(t, 0xABC1), (2, 5)] } }
    ApGoes hd { cls := 3, mainOnly := true } (s 2) ∧ 2 < (s 2).cur.cycle ∧ (s 3).cur.cycle ≤ 3 ∧ s0.cur.q.eq = [] :=
  ⟨goes (by decide +kernel), by decide +kernel⟩

theorem wit_ApMarkersAndFences :
    let s := stX fun x => { x with marks := [(3, 1), (2, 0)], po := 7 }
    ApGoes hd { cls := 3, mainOnly := true } s ∧ s.cur.ctx.marks.find? (fun e => e.1 == 3) = some (3, 1)
      ∧ s.cur.ctx.marks.find? (fun e => e.1 == 4) = none ∧ ApGoes hd { cls := 3, noPush := true } s ∧ (2 : BitVec 2) ≠ 3 ∧ (4 : BitVec 3).toNat < 5 :=
  ⟨goes (by decide +kernel), by decide +kernel, by decide +kernel, goes (by decide +kernel), by decide +kernel⟩

theorem wit_ApAtomicsIssue : ApGoes hd { cls := 2, mem := true } sm ∧ writeRoom sm ∧ AccessPasses sm (xr sm 1) 8 8 8 (atomicNeed .add false)
    ∧ AccessPasses sm (xr sm 1) 16 16 16 (atomicNeed .faddlim true) ∧ sm.cur.sys.det = false ∧ readRoom sm ∧ (4 : BitVec 5).getLsbD 0 = false :=
  ⟨goes (by decide +kernel), by unfold writeRoom; decide +kernel, .inl ⟨by decide +kernel, 0, 64, by decide +kernel⟩,
   .inl ⟨by decide +kernel, 0, 64, by decide +kernel⟩, by decide +kernel, by unfold readRoom; decide +kernel, by decide⟩

theorem wit_DeterministicAtomics :
    let s := st fun c => { c with sys := { c.sys with det := true }, main := sm.cur.main }
    ApGoes hd { cls := 2, mem := true } s ∧ s.cur.sys.det = true ∧ writeRoom s ∧ AccessPasses s (xr s 1) 16 16 16 (atomicNeed .faddlim false)
      ∧ AccessPasses s (xr s 1) 8 8 8 (atomicNeed .add false) :=
  ⟨goes (by decide +kernel), by decide +kernel, by unfold writeRoom; decide +kernel,
   .inl ⟨by decide +kernel, 0, 64, by decide +kernel⟩, .inl ⟨by decide +kernel, 0, 64, by decide +kernel⟩⟩

/-! Memory events -/

/-- A signed half-word load that waits behind a marker. -/
def ld1 : RdE := { po := 3, pc := 0, va := ownVa 8, kind := .ld 2 true, dst := some (.x 5), due := 9, n := 1 }
def sLd : State := { (stX fun x => { x with rq := [ld1], marks := [(1, 2)], po := 4 }) with mem := [(8, 0x34), (9, 0x92)] }

theorem wit_LoadPerformed : (sLd.core 0).run = .running ∧ (sLd.core 0).inHandler = false ∧ (sLd.core 0).main.rq.head? = some ld1
    ∧ (sLd.core 0).main.wq = [] ∧ accCheck sLd 0 ld1.va 2 { r := true } = .ok [] ∧ cleanRead sLd 0 [] ld1.va 2 := by
  unfold cleanRead; decide +kernel

theorem test_load_extends : then_ (exec (.readPerformed 0 .clean) sLd) (fun t => decide ((t.core 0).main.fly.map ApFly.val = [0xFFFFFFFFFFFF9234])) = true := by
  decide +kernel

/-- A word store of the low half of its data over a tagged row. -/
def st1 : WrE := { po := 3, pc := 0, va := ownVa 16, kind := .st 4, data := 0x1122334455667788 }
def sSt : State := { (st fun c => { c with swz := [(0, 3)], main := { c.main with wq := [st1], po := 4 } }) with mem := [(16, 9), (20, 7)] }

theorem wit_StorePerformed : (sSt.core 0).run = .running ∧ (sSt.core 0).copy = none ∧ (sSt.core 0).main.wq.head? = some st1
    ∧ st1.va.toNat % 4 = 0 ∧ (sSt.core 0).main.rq = [] ∧ accCheck sSt 0 st1.va 4 { w := true } = .ok [] := by decide +kernel

theorem test_store_little_endian : then_ (exec (.writePerformed 0) sSt) (fun t =>
    decide (t.mem = [(16, 0x88), (17, 0x77), (18, 0x66), (19, 0x55), (20, 7)]) && decide ((t.core 0).swz = [])) = true := by decide +kernel

/-- An atomic on the word 9 with 12 above it. -/
def wa (op : AmoOp) (ret : Bool) (d e : Word) : WrE :=
  { po := 3, pc := 0, va := ownVa 16, kind := .amo op, data := d, expect := e, dst := if ret then some (.x 4) else none,
    dst2 := if ret && (op == .incb || op == .faddlim) then some (.x 5) else none, due := 9, ret := ret }
def ra : RdE := { po := 3, pc := 0, va := ownVa 16, kind := .amo, dst := some (.x 4), due := 9 }
def sA (op : AmoOp) (ret : Bool) (d e : Word) : State :=
  { (st fun c => { c with main := { c.main with wq := [wa op ret d e], rq := if ret then [ra] else [], po := 4 } }) with mem := [(16, 9), (24, 12)] }

theorem wit_AtomicPerformed :
    let s := sA .faddlim true 3 0
    (s.core 0).run = .running ∧ (s.core 0).copy = none ∧ (s.core 0).main.wq.head? = some (wa .faddlim true 3 0) ∧ (ownVa 16).toNat % 16 = 0
      ∧ (s.core 0).main.rq = [ra] ∧ ra.po = (wa .faddlim true 3 0).po ∧ accCheck s 0 (ownVa 16) 16 (atomicNeed .faddlim true) = .ok []
      ∧ (wa .faddlim true 3 0).from_ ≤ timeOf s 0 false ∧ (s.core 0).freeze.late = none ∧ injHits s 0 [] (ownVa 16) 16 = false ∧ vaPoison s 0 [] (ownVa 16) 16 = false
      ∧ (sA .add false 3 0).cur.main.rq = [] := by decide +kernel

/-- The word that an atomic leaves. -/
def amoLeaves (op : AmoOp) (d e v : Word) : Bool :=
  then_ (exec (.writePerformed 0) (sA op false d e)) fun t => decide (vaNat t 0 [] (ownVa 16) 8 = v.toNat)

theorem test_atomics : (amoLeaves .incwrap 9 0 0 && amoLeaves .incwrap 10 0 10 && amoLeaves .decpos 0 0 8 && amoLeaves .faddlim 3 0 12
    && amoLeaves .faddlim 4 0 9 && amoLeaves .incb 9 0 9 && amoLeaves .incb 10 0 10 && amoLeaves .cas 5 9 5 && amoLeaves .cas 5 8 9
    && amoLeaves .min 0xFFFFFFFFFFFFFFFE 0 0xFFFFFFFFFFFFFFFE && amoLeaves .minu 0xFFFFFFFFFFFFFFFE 0 9) = true := by decide +kernel

/-- A row store that waits, with no row, with one of this cycle, and with one of an earlier cycle. -/
theorem wit_RowStored :
    let e : WrE := { po := 3, pc := 0, va := ownVa 384, kind := .stq }
    ∀ l ∈ [([] : List (Nat × Row)), [(5, 7)], [(4, 7)]],
      let s := st fun c => { c with cycle := 5, q := { c.q with sq := l }, main := { c.main with wq := [e], po := 4 } }
      (s.core 0).run = .running ∧ (s.core 0).copy = none ∧ (s.core 0).frozen = false ∧ (s.core 0).main.wq.head? = some e
        ∧ e.from_ ≤ timeOf s 0 false ∧ (s.core 0).freeze.late = none ∧ (s.core 0).main.rq = [] ∧ accCheck s 0 e.va 384 { w := true } = .ok []
        ∧ ((∀ p ∈ l.head?, 5 ≤ p.1) ∨ l = [(4, 7)]) := by decide +kernel

/-- The cell at 16 with the word v, and a Weir word with the tag of iteration 5 of loop 9. -/
def cellS (kind : WrKind) (v : Nat) (ret : Bool) : State :=
  let w : WrE := { po := 3, pc := 0, va := ownVa 16, kind := kind, data := w64 (9 * 2 ^ 48 + 5), dst := some (.p 2), ret := ret }
  { (st fun c => { c with main := { c.main with wq := [w], rq := if ret then [{ po := 3, pc := 0, va := ownVa 16, kind := .test, dst := none, due := 9 }] else [] } }) with
    mem := ((List.range 8).map fun i => (16 + i, BitVec.ofNat 8 (v / 256 ^ i))).filter fun e => e.2 != 0 }

/-- An empty cell, a later iteration's, its own, an earlier one's and another loop's, at each word. -/
theorem wit_CellPerformed :
    ∀ k ∈ [WrKind.rsv, .test, .rels], ∀ e ∈ [(2 ^ 64 - 1, false, true), (9 * 2 ^ 48 + 6, false, true), (9 * 2 ^ 48 + 5, false, false),
        (9 * 2 ^ 48 + 4, false, false), (10 * 2 ^ 48 + 6, true, true)],
      let s := cellS k e.1 (k == .test)
      let old := w64 (leNat (vaBytes s 0 [] (ownVa 16) 8))
      (s.core 0).run = .running ∧ (s.core 0).copy = none ∧ (ownVa 16).toNat % 8 = 0 ∧ vaPoison s 0 [] (ownVa 16) 8 = false
        ∧ accCheck s 0 (ownVa 16) 8 { r := true, w := true, cell := true } = .ok [] ∧ ((s.core 0).main.wq.map fun w => decide (w.from_ ≤ timeOf s 0 false)) = [true]
        ∧ ((s.core 0).main.rq.map RdE.po) = (if k == .test then [3] else [])
        ∧ (old ≠ 0xFFFFFFFFFFFFFFFF ∧ old.toNat / 2 ^ 48 ≠ (w64 (9 * 2 ^ 48 + 5)).toNat / 2 ^ 48 ↔ e.2.1 = true) ∧ (w64 (9 * 2 ^ 48 + 5) < old ↔ e.2.2 = true) := by
  decide +kernel

theorem wit_AccessOrder :
    let s := stX fun x => { x with wq := [{ st1 with po := 1 }], rq := [{ ld1 with po := 0 }, ld1], marks := [(5, 2)], po := 4 }
    (s.core 0).run = .running ∧ (s.core 0).main.wq.head? = some { st1 with po := 1 } ∧ { ld1 with po := 0 } ∈ (s.core 0).main.rq
      ∧ (5, 2) ∈ (s.core 0).main.marks ∧ ({ st1 with po := 1 } : WrE) ∈ (s.core 0).main.wq ∧ 1 < 2 ∧ 2 < ld1.po := by decide +kernel

/-- Results on their way to x1. -/
def fl (l : List ApFly) : State := st fun c => { c with cycle := 5, main := { c.main with fly := l } }
def ap1 (d : ApDst) (v : Word) (due po : Nat) : ApFly := { due := due, po := po, dst := d, val := v }

/-- Due, a ring that is due, not due; two that are; a late reply; a result of the handler, due by the clock. -/
theorem wit_ApResultsLand :
    (∀ f ∈ [ap1 .pf 0xA5 5 1, ap1 (.qring 7) 0 5 1, ap1 .pf 0xA5 6 1], onlyMain (fl [f]) 0 ∧ ((fl [f]).core 0).main.fly = [f] ∧ f.arrived = true)
    ∧ (ap1 .pf 0xA5 5 1).due ≤ 5 ∧ ((fl []).core 0).cycle = 5 ∧ 5 < (ap1 .pf 0xA5 6 1).due
    ∧ (onlyMain (fl [ap1 (.x 1) 7 5 2, ap1 (.x 1) 8 4 1]) 0 ∧ (ap1 (.x 1) 8 4 1).po < (ap1 (.x 1) 7 5 2).po)
    ∧ (let s := fl [{ ap1 (.x 1) 7 5 2 with mem := true, arrived := false, va := 0x77 }]
       ownDue s 0 true = false ∧ ownDue s 0 false = false ∧ (s.core 0).shadow.fly = [] ∧ lateVa (s.core 0) = some 0x77)
    ∧ (let s := { (st fun c => { c with shadow := { c.shadow with fly := [ap1 (.x 3) 9 8 0] } }) with clock := 8 }
       (s.core 0).main.fly = [] ∧ ownDue s 0 true = false ∧ ownDue s 0 false = false ∧ (s.core 0).shadow.fly = [ap1 (.x 3) 9 8 0]
        ∧ (ap1 (.x 3) 9 8 0).due ≤ s.clock ∧ (ap1 (.x 3) 9 8 0).arrived = true) := by
  unfold onlyMain; decide +kernel

theorem test_predicates_land : then_ (exec (.apResultLanding 0) (fl [ap1 .pf 0xA5 5 1]))
    (fun t => [0, 1, 2, 3, 4, 5, 6, 7].map (smGet false (t.core 0).main.p ·) == [false, false, true, false, false, true, false, true]) = true := by
  decide +kernel

theorem test_later_word_stays : then_ (exec (.apResultLanding 0) (fl [ap1 (.x 1) 7 5 2, ap1 (.x 1) 8 4 1]))
    (fun t => decide (smGet 0 (t.core 0).main.x 1 = 7)) = true := by decide +kernel

/-! Engine commands -/

def cmdSp (c : Nat) : ApSpec := { cls := c, cmd := true }

/-- A command record that a word accepts: acquire, wait for the command before. -/
def ccw1 : Word := 0x1001

theorem wit_ApStreamCommands :
    let s (v : Word) := xs [(1, v)]
    ApGoes hd (cmdSp 0) (s 4095) ∧ waiting (s 4095) .mx < 8 ∧ wbits (xr (s 7) 1) 3 3 = 0
      ∧ (wbits (xr (s 0x8100) 1) 16 24 = 0 ∧ wbits (xr (s 0x8100) 1) 6 2 = 0 ∧ wbits (xr (s 0x8100) 1) 2 2 = 0)
      ∧ ApGoes hd (cmdSp 8) (s 0x1000003) ∧ (wbits (xr (s 0x1000003) 1) 30 34 = 0 ∧ wbits (xr (s 0x1000003) 1) 24 4 ≠ 0)
      ∧ (xr (s 4095) 1).toNat ≤ 4095 ∧ (s 4095).cur.vx.calls.length < 8 :=
  ⟨goes (by decide +kernel), by decide +kernel, by decide +kernel, by decide +kernel, goes (by decide +kernel), by decide +kernel⟩

/-- A core with one command of an engine. -/
def withCmd (e : Eng) : State := st fun c => { c with cmds := [{ seq := 2, eng := e, ccw := 0, op := { op := 0 }, po := 0, at_ := 0 }] }

theorem wit_ApWaitWords : ApGoes hd { cls := 0 } s0 ∧ ApGoes hd { cls := 20, mainOnly := true } s0 ∧ s0.cur.cmds = []
    ∧ ApGoes hd { cls := 0 } (withCmd .mx) ∧ (∃ m ∈ (withCmd .mx).cur.cmds, m.eng = .mx) ∧ (∃ m ∈ (withCmd .vx).cur.cmds, m.eng = .vx)
    ∧ ApGoes hd { cls := 20, mainOnly := true } (withCmd (.bte 3)) ∧ ∃ m ∈ (withCmd (.bte 3)).cur.cmds, m.eng = .bte 3 :=
  ⟨goes (by decide +kernel), goes (by decide +kernel), by decide +kernel, goes (by decide +kernel), by decide +kernel, by decide +kernel,
   goes (by decide +kernel), by decide +kernel⟩

/-- A copy of 16 bytes from the own scratchpad. -/
def descOf (kind dst : Nat) : Nat := (ownVa 0).toNat + dst * 2 ^ 64 + (1 + kind * 2 ^ 16) * 2 ^ 128 + 16 * 2 ^ 192 + 16 * 2 ^ 224
def desc0 : BitVec 1536 := BitVec.ofNat 1536 (descOf 0 (ownVa 4096).toNat)
def descBytes (n : Nat) : SMap Byte := ((List.range 192).map fun i => (128 + i, BitVec.ofNat 8 (n / 256 ^ i))).filter fun e => e.2 != 0
def bt1 : State := xs [(1, ownVa 128)]
def bt2 : State :=
  { (xs [(1, ownVa 128)] fun c => { c with cycle := 10, pend := some { kind := .btcfg (some 10) (ownVa 128), from_ := 4 } }) with mem := descBytes (descOf 0 (ownVa 4096).toNat) }
def bt3 (det : Bool) (ch : Nat) (d : BitVec 1536) : State :=
  xs [(1, ccw1)] fun c => { c with bt := [(ch, d)], sys := { c.sys with det := det, priv := true } }

theorem wit_ApBlockTransferWords : ApGoes hd { cls := 20, mainOnly := true } bt1 ∧ ownOffset bt1 (xr bt1 1) = some 128 ∧ bt1.cur.pend = none
    ∧ bt1.cur.main.wq = [] ∧ ApGoes hd { cls := 20, mainOnly := true } bt2 ∧ bt2.cur.pend = some { kind := .btcfg (some 10) (ownVa 128), from_ := 4 }
    ∧ vaPoison bt2 bt2.turn.1 [] (ownVa 128) 192 = false ∧ btCheck (BitVec.ofNat 1536 (leNat (spadBytes bt2 bt2.turn.1 128 192))) 1 = none
    ∧ smFind (bt3 true 3 desc0).cur.bt 3 = some desc0 ∧ ApGoes hd { cls := if btQnt desc0 then 21 else 20, cmd := true } (bt3 true 3 desc0)
    ∧ goodCcw (xr (bt3 true 3 desc0) 1) ∧ (bt3 true 3 desc0).cur.sys.priv = true ∧ btKind desc0 = 0
    ∧ noOverlap (bt3 true 3 desc0) ccw1 (.bte 3) (btFoot (bt3 true 3 desc0) 0 3 desc0) ∧ waiting (bt3 true 3 desc0) (.bte 3) < 8 :=
  ⟨goes (by decide +kernel), by decide +kernel, by decide +kernel, by decide +kernel, goes (by decide +kernel), by decide +kernel,
   by decide +kernel, by decide +kernel, by decide +kernel, goes (by decide +kernel), by unfold goodCcw; decide +kernel, by decide +kernel,
   by decide +kernel, fun _ => by decide +kernel, by decide +kernel⟩

/-- An instruction memory's block that is not live. -/
theorem wit_btgoOverlay :
    let d : BitVec 1536 := BitVec.ofNat 1536 (descOf 3 2048)
    3 ≤ btKind d ∧ ∀ k ∈ btBlocks d 2, blockLive (bt3 false 2 d).cur (btKind d) k = false := by decide +kernel

def winOf7 : Win := { ctl := 0xF, base := 0, len := 33554432, cnt := 0x100, mstride := 0 }
def withWin (w : Win) (s : State) : State := { s with regions := [(1, { reg0 with wins := [(5, w)], lring := some 0 })] }
def seedS (l : List (Nat × Word)) : State :=
  withWin winOf7 (xs l fun c => { c with sd := { rk := 0x1234567, cfg := 0x3000C00, fr := 0, keyed := true } })

theorem wit_ApSeedContext :
    let s := seedS [(1, 0xABC), (2, 5), (3, 9)]
    ApGoes hd { cls := 24 } s ∧ s.cur.cmds = [] ∧ wbits (xr s 2) 32 32 = 0 ∧ winOf s s.turn.1 (wbits (xr s 2) 0 8) = some winOf7
      ∧ nbits winOf7.ctl 1 3 = 7 ∧ winOf7.len = 33554432 :=
  ⟨goes (by decide +kernel), by decide +kernel⟩

/-- The largest counts that the configuration permits, 4096 records to one member. -/
theorem wit_ApSeedCommands :
    let s := seedS [(1, ccw1), (2, ownVa 4096), (3, 4096), (4, 0x1000000000000000)]
    let t := seedS [(1, ccw1), (2, ownVa 4096), (4, 0x3000C)]
    ApGoes hd (cmdSp 24) s ∧ s.cur.sd.keyed = true ∧ goodCcw (xr s 1) ∧ waiting s .seed < 16 ∧ (xr s 2).toNat % 64 = 0
      ∧ noOverlap s (xr s 1) .seed (footOf s s.turn.1 (xr s 2) 64 true)
      ∧ (wbits (xr t 4) 25 39 = 0 ∧ wbits (xr t 4) 0 16 ≤ wbits t.cur.sd.cfg 8 16 ∧ wbits (xr t 4) 16 8 ≤ wbits t.cur.sd.cfg 24 8)
      ∧ ((xr s 3) ≠ 0 ∧ (xr s 3).toNat ≤ 4096 ∧ 1 ≤ wbits (xr s 4) 60 2 ∧ wbits (xr s 4) 62 2 = 0
        ∧ ∀ i < 1, wbits (xr s 4) (20 * i) 20 < (membersOf s s.turn.1).length) :=
  ⟨goes (by decide +kernel), by decide +kernel, by unfold goodCcw; decide +kernel, by decide +kernel, by decide +kernel,
   fun h => absurd h (by decide +kernel), by decide +kernel⟩

/-- The cluster's Quern as `q`. -/
def quernS (q : Quern) (f : Core → Core := id) (l : List (Nat × Word) := [(1, 0x1000100)]) : State := { xs l f with querns := [(0, q)] }

/-- A free Quern, one's own, and another core's; held before the word leaves the AP, after it, and once the claim is over. -/
theorem wit_ApQuernOwnership :
    (∀ q ∈ [({} : Quern), { owner := some 0, ring := 5 }, { owner := some 1 }],
        ApGoes hd { cls := 23, sends := true } (quernS q) ∧ (quernS q).cur.pend = none ∧ ringBad (xr (quernS q) 1).toNat = false ∧ (quernS q).quern 0 = q)
    ∧ (∀ q ∈ [({} : Quern), { owner := some 0, ring := 5 }, { owner := some 1 }], ∀ n ∈ [3, 4, 96],
        let p : Pend := { kind := .claim 96 7, from_ := 4 }
        let s := quernS q fun c => { c with cycle := n, pend := some p }
        ApGoes hd { cls := 23, sends := true } s ∧ s.cur.pend = some p ∧ s.quern 0 = q ∧ s.cur.cycle = n)
    ∧ ∀ l ∈ [[], [{ (default : Cmd) with eng := .quern }]],
        let s := quernS { owner := some 0 } fun c => { c with cycle := 4, pend := some { kind := .wait, from_ := 4 }, cmds := l }
        ApGoes hd { cls := 23, sends := true } s ∧ s.cur.pend = some { kind := .wait, from_ := 4 } ∧ s.cur.cmds = l := by
  refine ⟨fun q hq => ⟨goes ?_, rfl, ?_, ?_⟩, fun q hq n hn => ⟨goes ?_, rfl, ?_, rfl⟩, fun l hl => ⟨goes ?_, rfl, rfl⟩⟩ <;>
    simp only [List.mem_cons, List.not_mem_nil, or_false] at *
  · rcases hq with rfl | rfl | rfl <;> decide +kernel
  · rcases hq with rfl | rfl | rfl <;> decide +kernel
  · rcases hq with rfl | rfl | rfl <;> rfl
  · rcases hq with rfl | rfl | rfl <;> rcases hn with rfl | rfl | rfl <;> decide +kernel
  · rcases hq with rfl | rfl | rfl <;> rfl
  · rcases hl with rfl | rfl <;> decide +kernel

/-- One spin at the last place; all of them from the first; a sweep outside deterministic mode. -/
theorem wit_ApQuernCommands :
    let s (r n : Word) := quernS { owner := some 0 } id [(1, ccw1), (2, ownVa 65536), (3, r), (4, n)]
    let range (r : Word) : Prop := wbits r 30 34 = 0 ∧ wbits r 15 1 = 0 ∧ 0 < wbits r 0 15 ∧ wbits r 16 14 + wbits r 0 15 ≤ 16384
    ApGoes hd (cmdSp 23) (s 0 0) ∧ ((s 0 0).quern 0).owner = some 0 ∧ ((s 0 0).quern 0).releasing = false ∧ goodCcw (xr (s 0 0) 1)
      ∧ waiting (s 0 0) .quern < 8 ∧ range (xr (s 0x3FFF0001 0) 3) ∧ range (xr (s 0x4000 0) 3) ∧ (xr (s 0 0) 2).toNat % 8 = 0
      ∧ (wbits (xr (s 0x10007FFFF 3) 3) 19 13 = 0 ∧ wbits (xr (s 0x10007FFFF 3) 3) 32 32 ≠ 0 ∧ wbits (xr (s 0x10007FFFF 3) 4) 32 32 = 0)
      ∧ (s 0 0).cur.sys.det = false ∧ (xr (s 4 0) 3).toNat % 4 = 0 :=
  ⟨goes (by decide +kernel), by decide +kernel, by decide +kernel, by unfold goodCcw; decide +kernel, by decide +kernel⟩

/-! Link words -/

/-- A window of 4096 bytes that permits puts and gets. -/
def winPg : Win := { ctl := 0xD, base := 0, len := 4096, cnt := 0x100, mstride := 0 }

/-- A transfer of 96 bytes that ends at the window's end, to member 0. -/
theorem wit_ApLinkTransfers :
    let s := withWin winPg (xs [(1, ccw1), (2, ownVa 0), (3, 4000), (4, 96 <<< 32 ||| 5 <<< 20)])
    let v := xr s 4
    ApGoes hd (cmdSp 25) s ∧ (1 : BitVec 5).toNat ≤ 28 ∧ wbits v 28 4 = 0 ∧ wbits v 56 8 = 0 ∧ goodCcw (xr s 1) ∧ waiting s .link < 32
      ∧ winOf s s.turn.1 (wbits v 20 8) = some winPg ∧ (xr s 3).toNat + wbits v 32 24 = winPg.len
      ∧ wbits v 0 20 < (membersOf s s.turn.1).length ∧ nbits winPg.ctl 2 1 = 1 ∧ nbits winPg.ctl 3 1 = 1 :=
  ⟨goes (by decide +kernel), by decide, by decide +kernel, by decide +kernel, by unfold goodCcw; decide +kernel, by decide +kernel⟩

def waitS (want : Word) (lost : List (Option Nat × Nat)) (f : Core → Core := id) : State :=
  { xs [(1, 5), (2, want)] f with regions := [(1, { reg0 with wins := [(5, winPg)], lost := lost })], mem := [(0x108, 3)] }

theorem wit_ApWindowWait : ApGoes hd { cls := 25 } (waitS 3 []) ∧ (1 : BitVec 2).toNat ≤ 1 ∧ wbits (xr (waitS 3 []) 1) 8 56 = 0
    ∧ winOf (waitS 3 []) 0 (wbits (xr (waitS 3 []) 1) 0 8) = some winPg
    ∧ (xr (waitS 3 []) 2).toNat ≤ leNat (spadBytes (waitS 3 []) 0 (winPg.cnt + 8) 8)
    ∧ leNat (spadBytes (waitS 4 [(none, 0)]) 0 (winPg.cnt + 8) 8) < (xr (waitS 4 [(none, 0)]) 2).toNat ∧ lostOf (waitS 4 [(none, 0)]) 0 ≠ [] ∧ lostOf (waitS 4 []) 0 = []
    ∧ (waitS 4 []).cur.pend = none :=
  ⟨goes (by decide +kernel), by decide +kernel⟩

/-- Held for a value that the counter, at 3, has reached, and for one that it has not. -/
theorem wit_windowHeld (want : Word) :
    let s := waitS 9 [] fun c => { c with pend := some { kind := .wcnt 5 want } }
    s.cur.pend = some { kind := .wcnt 5 want } ∧ winOf s 0 5 = some winPg ∧ lostOf s 0 = [] ∧ spadBytes s 0 (winPg.cnt + 8) 8 = spadBytes (waitS 3 []) 0 (winPg.cnt + 8) 8
      ∧ (3 : Word).toNat ≤ 3 ∧ 3 < (4 : Word).toNat := ⟨rfl, rfl, rfl, rfl, by decide, by decide⟩

theorem wit_ApCollectives :
    let s := withWin winPg (xs [(1, ccw1), (2, ownVa 0), (3, ownVa 8192), (4, 0x100000000), (5, 0x1000000001)])
    let t := withWin winPg (xs [(1, ccw1), (2, ownVa 0), (3, 5), (4, 65536)])
    ApGoes hd (cmdSp 25) s ∧ goodCcw (xr s 1) ∧ waiting s .link < 32 ∧ redBad (xr s 5) = false ∧ hasTable s s.turn.1 = true
      ∧ s.cur.sys.det = false ∧ redAligned (wbits (xr s 4) 0 32) (wbits (xr s 4) 32 32) (redShape (xr s 5)).nt = true
      ∧ noOverlap s (xr s 1) .link [] ∧ ApGoes hd (cmdSp 25) t ∧ wbits (xr t 3) 10 54 = 0 ∧ (xr t 4).toNat ≤ 65536
      ∧ winOf t t.turn.1 (wbits (xr t 3) 0 8) = some winPg ∧ winPg.len % gathWidth (xr t 3) = 0
      ∧ ApGoes hd { cls := 25, sends := true } t ∧ t.cur.cmds = [] ∧ t.cur.pend = none :=
  ⟨goes (by decide +kernel), by unfold goodCcw; decide +kernel, by decide +kernel, by decide +kernel, by decide +kernel, by decide +kernel,
   by decide +kernel, fun h => absurd h (by decide +kernel), goes (by decide +kernel), by decide +kernel, by decide +kernel, by decide +kernel,
   by decide +kernel, goes (by decide +kernel), by decide +kernel⟩

def heldSp (c : Nat) : ApSpec := { cls := c, cmd := true, accepted := true }
def answered (kind : PendKind) (v : Word) (f : Core → Core := id) : State :=
  xs [(1, 5), (2, 2)] fun c => f { c with pend := some { kind := kind, res := some (.value v) } }

theorem wit_ApBarriers : ApGoes hd (heldSp 25) s0 ∧ s0.cur.pend = none ∧ ApGoes hd (heldSp 25) (answered (.bar true 0 0) 2)
    ∧ (answered (.bar true 0 0) 2).cur.pend = some { kind := .bar true 0 0, res := some (.value 2) } :=
  ⟨goes (by decide +kernel), by decide +kernel, goes (by decide +kernel), by decide +kernel⟩

/-- Weir state `n`, of three slots with slot 1 selected. -/
def weirS (n : BitVec 3) (l : List (Nat × Word)) : State :=
  xs l fun c => { c with wl := { c.wl with wst := n, wn := 3, wlid := 9, widx := [(1, 0x44)], wslot := some 1 } }

theorem wit_ApWeirBarriers :
    let s := xs [(1, 0xFFF0007), (2, 1)]
    ApGoes hd (heldSp 22) s ∧ s.cur.main.rq = [] ∧ s.cur.main.wq = [] ∧ s.cur.pend = none ∧ wbits (xr s 1) 28 36 = 0
      ∧ wbits (xr s 1) 0 16 ≠ 0xFFFF ∧ (1 ≤ (xr s 2).toNat ∧ (xr s 2).toNat < 2 ^ 48)
      ∧ (∀ k ∈ membersOf s s.turn.1, moduleOf k = moduleOf s.turn.1) ∧ s.cur.wl.wst = 0
      ∧ ApGoes hd (heldSp 22) (weirS 1 []) ∧ (weirS 1 []).cur.wl.wst ∈ [1, 2] ∧ (weirS 3 []).cur.wl.wst ∈ [1, 2, 3] ∧ (weirS 3 []).cur.pend = none
      ∧ s.cur.wl.wst ∉ [1, 2, 3] ∧ (answered .wlRound 2).cur.pend = some { kind := .wlRound, res := some (.value 2) } :=
  ⟨goes (by decide +kernel), by decide +kernel, by decide +kernel, by decide +kernel, by decide +kernel, by decide +kernel, by decide +kernel,
   by decide +kernel, by decide +kernel, goes (by decide +kernel), by decide +kernel⟩

theorem wit_ApWeirWords :
    let s (n : BitVec 3) := weirS n [(1, ownVa 64), (2, 8), (3, 2)]
    ApGoes hd { cls := 22 } (s 1) ∧ (s 1).cur.wl.wst ∈ [1, 2] ∧ (xr (s 1) 3).toNat < (s 1).cur.wl.wn ∧ ApGoes hd { cls := 22 } (s 2)
      ∧ (s 2).cur.wl.wst = 2 ∧ (s 2).cur.wl.wslot = some 1 ∧ ApGoes hd { cls := 22, mem := true } (s 2) ∧ writeRoom (s 2) ∧ readRoom (s 2)
      ∧ AccessPasses (s 2) (xr (s 2) 1 + xr (s 2) 2) 8 8 8 { r := true, w := true, cell := true }
      ∧ ApGoes hd { cls := 22, mem := true } (s 1) ∧ AccessPasses (s 1) (xr (s 1) 1 + xr (s 1) 2) 8 8 8 { r := true, w := true, cell := true } :=
  ⟨goes (by decide +kernel), by decide +kernel, by decide +kernel, goes (by decide +kernel), by decide +kernel, by decide +kernel,
   goes (by decide +kernel), by unfold writeRoom; decide +kernel, by unfold readRoom; decide +kernel,
   .inl ⟨by decide +kernel, 0, 72, by decide +kernel⟩, goes (by decide +kernel),
   .inl ⟨by decide +kernel, 0, 72, by decide +kernel⟩⟩

/-! Region words -/

/-- Two members; core 0 has the indices `l`. -/
def rgS (l : List (Nat × Nat)) (f : Core → Core := id) : State :=
  let s := xs [(1, 1)] fun c => f { c with rg := { c.rg with untaken := l, k := 2 } }
  { s with regions := [(1, { reg0 with members := [0, 1] })], cores := s.cores ++ [(1, { core0 with rank := 1 })] }

theorem wit_ApRegionWords : ApGoes hd (heldSp 0) (rgS [(4, 5)]) ∧ (rgS [(4, 5)]).cur.pend = none ∧ (rgS [(4, 5)]).cur.rg.untaken = [(4, 5)]
    ∧ (rgS [(4, 5)]).cur.rg.req = [] ∧ ApGoes hd (heldSp 0) (rgS []) ∧ (rgS []).cur.pend = none ∧ (rgS []).cur.rg.untaken = []
    ∧ ((xr (rgS []) 1).toNat < (membersOf (rgS []) 0).length ∧ (xr (rgS []) 1).toNat ≠ (rgS []).cur.rank) ∧ (rgS []).cur.wl.wst = 0
    ∧ (rgS [] fun c => { c with pend := some { kind := .rgStep 0, res := some (.value 8) } }).cur.pend = some { kind := .rgStep 0, res := some (.value 8) } :=
  ⟨goes (by decide +kernel), by decide +kernel, by decide +kernel, by decide +kernel, goes (by decide +kernel), by decide +kernel⟩

/-- A control block at 0x400 of a page that is walked, its completion record at 0x20. -/
def spawnS : State :=
  { (xs [(1, 0x1000), (2, 0x400)]) with
    mem := [(2 ^ 60 + 0x410, 0x20)]
    parts := [(0, { part0 with stage2 := [⟨0, 0, 0x100000, 0, false, true, true⟩] })]
    tlb := [(0, [{ part := 0, va := 0, size := 65536, gpa := 0, r := true, w := true, a := true, key := 0 }])] }

/-- The translations that an access of a `rg.spawn` word gets. -/
def xlOf (r : State × AccRes) : List Xl := match r.2 with
  | .ok xl => xl
  | _ => []

theorem wit_ApSpawnAndExit : ApGoes hd (heldSp 0) spawnS ∧ spawnS.region? spawnS.cur.rid = some reg0 ∧ spawnS.cur.copy = none ∧ spawnS.cur.cmds = []
    ∧ spawnS.cur.main.wq = [] ∧ ccwBad (xr spawnS 1) false = false ∧ spawnReady spawnS.cur (xr spawnS 1) = true
    ∧ chanCount spawnS (partOfCore spawnS 0) (some (1, 0)) < 4096
    ∧ (let a := spawnAccess spawnS 0 (xr spawnS 2) 256 { r := true }
       let raw : BitVec 2048 := BitVec.ofNat 2048 (leNat (vaBytes a.1 0 (xlOf a) (xr spawnS 2) 256))
       let b := spawnAccess a.1 0 (raw.extractLsb' 128 64) 32 { w := true }
       a = (a.1, .ok (xlOf a)) ∧ b = (b.1, .ok (xlOf b)))
    ∧ ApGoes hd (heldSp 0) (withCmd .mx) ∧ (withCmd .mx).cur.cmds ≠ [] :=
  ⟨goes (by decide +kernel), by decide +kernel, by decide +kernel, by decide +kernel, by decide +kernel, by decide +kernel, by decide +kernel,
   by decide +kernel, by decide +kernel, goes (by decide +kernel), by decide +kernel⟩

theorem wit_ApTlbInvalidate :
    let s := xs [(1, 0x10001)]
    let t := xs [(1, 0x10001)] fun c => { c with pend := some { kind := .tlbi 1, res := some (.value 0) } }
    ApGoes hd { cls := 0, extOk := true, sends := true } s ∧ immediateBits s (0x40 : BitVec 11) = 0x40 ∧ (xr s 1).toNat % 4 < 2 ∧ (xr s 1).toNat / 4 % 2 ^ 14 = 0
      ∧ heldAt s = none ∧ ApGoes hd { cls := 0, extOk := true, sends := true } t ∧ heldAt t = some { kind := .tlbi 1, res := some (.value 0) } :=
  ⟨goes (by decide +kernel), by decide +kernel, by decide +kernel, by decide +kernel, by decide +kernel, goes (by decide +kernel), by decide +kernel⟩

/-! Exceptions -/

/-- The partition has a handler. -/
def hasHandler (s : State) : State := { s with parts := [(0, { part0 with pthl := 5 })] }

/-- A trap with an `ext` word and a branch pending. -/
def trapS : State := hasHandler (stX fun x => { x with br := some ⟨1, 77⟩, pc := 8, ext := [3], extAt := 7 })

theorem wit_TrapDelivered : ApGoes hd { cls := 0, extOk := true } trapS ∧ trapS.cur.inHandler = false ∧ trapS.cur.hnd = none ∧ trapS.cur.hndQ = []
    ∧ wbits (trapS.part (partOfCore trapS trapS.turn.1)).pthl 0 12 ≠ 0 :=
  ⟨goes (by decide +kernel), by decide +kernel⟩

/-- EPC is the `ext` word's address; the delay word and the `ext` word are left to run. -/
theorem test_trap : then_ (exec (.trap hd 5) trapS) (fun t =>
    decide (t.cur.sys.epc = 7 ∧ t.cur.sys.cause = 9 ∧ t.cur.sys.faddr = 3 * 64 + 5 ∧ t.cur.sys.bpV = true ∧ t.cur.sys.bpTarget = 77
      ∧ t.cur.sys.bpLeft = 2)) = true := by decide +kernel

def dl (start : Nat) : Deliv := { epc := 0, cause := 0x21, faddr := 6, cmd := some 4, apPo := none, start := start, running := false }

theorem wit_HandlerStarts :
    let s (n : Nat) := { (st fun c => { c with hnd := some (dl 8) }) with clock := n }
    ((s 8).core 0).hnd = some (dl 8) ∧ (dl 8).running = false ∧ (dl 8).start ≤ (s 8).clock ∧ (s 7).clock < (dl 8).start := by decide +kernel

theorem wit_NextEventDelivered :
    let s := st fun c => { c with hndQ := [dl 0, dl 0], main := { c.main with br := some ⟨1, 9⟩, pc := 6 } }
    (s.core 0).hndQ = [dl 0, dl 0] ∧ (s.core 0).hnd = none ∧ ((st fun c => { c with hndQ := [dl 0], hnd := some (dl 0) }).core 0).hnd ≠ none := by
  decide +kernel

theorem wit_ExceptionReturn : ApGoes hd { cls := 0 } inH ∧ inH.cur.inHandler = true ∧ inH.cur.hnd.isSome = true ∧ inH.cur.shadow.br = none
    ∧ inH.cur.shadow.rq = [] ∧ inH.cur.shadow.wq = [] ∧ (∀ d, inH.cur.hnd = some d → d.apPo = none) ∧ inH.cur.sys.bpV = false
    ∧ (inH fun c => { c with sys := { c.sys with bpV := true, bpLeft := 2 } }).cur.sys.bpLeft ≠ 0
    ∧ (inH fun c => { c with sys := { c.sys with bpV := true } }).cur.sys.bpLeft = 0
    ∧ ({ (default : Deliv) with apPo := some 3 } : Deliv).apPo ≠ none
    ∧ (inH fun c => { c with sys := { c.sys with epc := 9 } }).cur.sys.epc ≠ (inH fun c => { c with sys := { c.sys with epc := 9 } }).cur.main.unitPc :=
  ⟨goes (by decide +kernel), by decide +kernel, by decide +kernel, by decide +kernel, by decide +kernel, by decide +kernel,
   by intro d h; cases h; rfl, by decide +kernel⟩

/-- Two delay words are left after the return. -/
theorem test_eret : then_ (exec (.eret hd) (inH fun c => { c with sys := { c.sys with epc := 9, bpV := true, bpLeft := 2, bpTarget := 11 } }))
    (fun t => decide (t.cur.main.pc = 9 ∧ t.cur.main.br = some ⟨2, 11⟩ ∧ t.cur.sys.bpV = false ∧ t.cur.inHandler = false)) = true := by decide +kernel

theorem wit_ReturnAndDelayFaults :
    let s := stX fun x => { x with br := some ⟨1, 9⟩ }
    ApGoes hd { cls := 0 } s0 ∧ s0.cur.ctx.br = none ∧ s0.cur.inHandler = false ∧ ApGoes hd { cls := 0 } s ∧ s.cur.ctx.br ≠ none
      ∧ ApGoes hd { cls := 0, extOk := true } s ∧ immediateBits s (1 : BitVec 6) ≠ 0 :=
  ⟨goes (by decide +kernel), by decide +kernel, by decide +kernel, goes (by decide +kernel), by decide +kernel, goes (by decide +kernel), by decide +kernel⟩

theorem wit_MasksChecked :
    let s (o c : BitVec 48) := st fun k => { k with sys := { k.sys with oum := o, ccm := c } }
    (Instr.cxBar hd 1, 25) ∈ classedWords hd 1 2 3 4 ∧ s0.cur.inHandler = false ∧ s0.cur.main.ext = [] ∧ 2 ≤ ({ hd with vs := 2 } : Hdr).vs.toNat
      ∧ hd.vs.toNat < 2 ∧ (s 0x1FFFFFF 0x3FFFFFF).cur.sys.oum.getLsbD 25 = false ∧ (s 0x3FFFFFF 0x1FFFFFF).cur.sys.oum.getLsbD 25 = true
      ∧ (s 0x3FFFFFF 0x1FFFFFF).cur.sys.ccm.getLsbD 25 = false :=
  ⟨by simp [classedWords], by decide +kernel⟩

theorem wit_HandlerRestricted : inH.cur.inHandler = true ∧ inH.cur.shadow.ext = [] ∧ hd.vs.toNat < 2 ∧ ({ hd with sp := true } : Hdr).sp = true
    ∧ (6 : BitVec 3).getLsbD 0 = false := by decide +kernel

theorem wit_GuardedOffWords :
    let s := st fun c => { c with sys := { c.sys with oum := 0x3FFFFFF } }
    (∀ k, s.cur.sys.oum.getLsbD k = true ∧ s.cur.sys.ccm.getLsbD k = true ∨ 26 ≤ k) ∧ s.cur.inHandler = false ∧ s.cur.main.ext = [] ∧ pr s 2 = false
      ∧ s.cur.pend = none ∧ s.cur.pushWait = [] ∧ ∀ f : Nat, f < 6 → tokSum (hdrPops .ap { hd with g := 2, sp := true }) f ≤ s.cur.tokens f := by
  refine ⟨fun k => ?_, by decide +kernel⟩
  by_cases h : 26 ≤ k
  · exact .inr h
  · have : ∀ k < 26, (0x3FFFFFF : BitVec 48).getLsbD k = true := by decide
    exact .inl ⟨this k (by omega), this k (by omega)⟩

/-- A member's first fault, and one beside a fault that stands for its region. -/
theorem wit_FaultStopsCore : (s0.core 0).run = .running ∧ s0.region? (s0.core 0).rid = some reg0 ∧ reg0.st = .running ∧ reg0.fail = none
    ∧ ({ reg0 with fail := some { status := 2, cause := 9, rank := 1, faddr := 0 } } : Region).fail ≠ none := by decide +kernel

/-- A region that may run again, after its first run and after its third, and one with a cause that ends it. -/
theorem wit_FaultEndsRun :
    let g (n cause : Nat) : Region := { reg0 with runs := n, rcb := { reg0.rcb with ctl := 4 }, fail := some { status := 2, cause := cause, rank := 0, faddr := 0 } }
    (∀ n ∈ [1, 3], ∀ c ∈ [0x62, 9], ({ s0 with regions := [(1, g n c)] } : State).region? 1 = some (g n c) ∧ (g n c).st = .running)
    ∧ nbits (g 1 0x62).rcb.ctl 2 1 = 1 ∧ (g 1 0x62).runs < 3 ∧ ¬ (g 3 0x62).runs < 3 ∧ 9 ∉ [0x07, 0x62, 0x63, 0x7A, 0xB1, 0xB2, 0xB3, 0xB5]
    ∧ (s0.core 0).rid = 1 ∧ (s0.core 0).run ≠ .idle := by decide +kernel

/-- VS of 2 and of 1; a field of an AP word, of an MXE word and of a control word of the VXE. -/
theorem wit_IllegalWords : 2 ≤ (0x08000000 : BitVec 32).toNat / 2 ^ 26 % 4 ∧ (0x041B0000 : BitVec 32).toNat / 2 ^ 26 % 4 < 2
    ∧ (0x00010001 : BitVec 32).toNat / 2 ^ 16 % 128 ≠ 0x7F ∧ s0.cur.ctx.ext = [] ∧ (0x007D8000 : BitVec 32).toNat / 2 ^ 16 % 128 = 0x7D
    ∧ (st fun c => { c with vc := { c.vc with slot := 2 } }).cur.vc.slot = 2
    ∧ smGet [] (st fun c => { c with vc := { c.vc with slot := 2 } }).cur.vx.ext 2 = [] ∧ s0.cur.inHandler = false := by decide +kernel

/-! ### Vector engine: witnesses -/

/-- A row whose lanes repeat the values of `l`. -/
def mkRow (l : List Nat) : Row := BitVec.ofNat 3072 (((List.range 96).map fun k => l.getD (k % l.length) 0 * 2 ^ (32 * k)).sum)
def row1 : Row := mkRow [0x3F800000, 0xC0490FDB, 0, 0x80000000, 0x7F800000, 0x7FC00000, 0x00000001, 0x7F7FFFFF, 0x3C003C01, 0xFFFFFFFF, 5]
def row2 : Row := mkRow [0x40000000, 0x3F800000, 0x80000000, 0xFF800000, 0x33D6BF95, 0x4B000001, 0x7BFF0400]

/-- The VXE's turn: rows in v1 and v2, a lane mask that leaves lane 3 out, slot `n`. -/
def sv (n : Nat) (f : Core → Core := id) : State :=
  { (st fun c => f { c with
      vx := { c.vx with phys := [(1, row1), (2, row2)], q := [(2, 0xF0)], p := [(2, true)], vpc := 40 }
      vc := { c.vc with mask := some 0xFFFFFFFFFFFFFFFFFFFFFFF7, order := 4, slot := n }
      cycle := 3 }) with turn := (0, .vx) }

def vgoesB (h : Hdr) (cls slot : Nat) (imm : Bool) (s : State) : Bool :=
  decide (h.vs.toNat < 2) && decide (slot = 3 ∨ slot = s.cur.vc.slot)
    && decide (smGet [] s.cur.vx.ext s.cur.vc.slot = [] ∨ (imm = true ∧ s.cur.vx.extBad.contains s.cur.vc.slot = false))
    && decide (s.cur.sys.oum.getLsbD cls = true) && decide (s.cur.sys.ccm.getLsbD cls = true) && decide (vp s.cur h.g = true)

theorem vgoes {h : Hdr} {cls slot : Nat} {imm : Bool} {s : State} (e : vgoesB h cls slot imm s = true) : VxGoes h cls slot imm s := by
  simp only [vgoesB, Bool.and_eq_true, decide_eq_true_eq] at e
  obtain ⟨⟨⟨⟨⟨a, b⟩, c⟩, d⟩, f⟩, g⟩ := e
  exact ⟨a, b, c, d, f, g⟩

/-- No register of the small state is poisoned or has bad lanes. -/
theorem readable (n : Nat) (l : List (BitVec 5)) (m : BitVec 96) : Readable (sv n) l m := fun r _ =>
  ⟨by rw [show (sv n).cur.vx.poisoned = [] from rfl]; exact List.not_mem_nil,
   by rw [show (sv n).cur.vx.badLanes = [] from rfl]; exact BitVec.zero_and⟩

theorem wit_VxFloatWords : VxGoes hd 10 0 false (sv 0) ∧ VxGoes hd 11 0 false (sv 0) ∧ VxGoes hd 12 0 false (sv 0) ∧ VxGoes hd 13 0 false (sv 0)
    ∧ Readable (sv 0) [1, 2, 3] (vmask (sv 0).cur) :=
  ⟨vgoes (by decide +kernel), vgoes (by decide +kernel), vgoes (by decide +kernel), vgoes (by decide +kernel), readable 0 _ _⟩

theorem wit_SpecialValues : e4m3 ∈ [fp32, fp16, bf16, e4m3, e5m2] ∧ e4m3.tight = true ∧ fp32.tight = false ∧ (0 : Nat) < 1 := by decide +kernel

theorem wit_VxIntegerWords : VxGoes hd 14 0 false (sv 0) ∧ VxGoes hd 14 0 true (sv 0 fun c => { c with vx := { c.vx with ext := [(0, [0xABCD])] } })
    ∧ Readable (sv 0) [3, 1, 2] (vmask (sv 0).cur) :=
  ⟨vgoes (by decide +kernel), vgoes (by decide +kernel), readable 0 _ _⟩

theorem wit_VxCompareWords : VxGoes hd 10 0 false (sv 0) ∧ VxGoes hd 11 0 false (sv 0) ∧ VxGoes hd 12 0 false (sv 0) ∧ VxGoes hd 14 0 false (sv 0)
    ∧ Readable (sv 0) [1, 2] (vmask (sv 0).cur) ∧ (2 : BitVec 3).getLsbD 0 = false ∧ (5 : BitVec 3).toNat < 6 ∧ VxGoes hd 14 2 false (sv 2) :=
  ⟨vgoes (by decide +kernel), vgoes (by decide +kernel), vgoes (by decide +kernel), vgoes (by decide +kernel), readable 0 _ _, by decide, by decide,
   vgoes (by decide +kernel)⟩

theorem wit_VxRandomWords : VxGoes hd 18 0 false (sv 0) ∧ (5 : BitVec 3).toNat < 6 ∧ (2 : BitVec 2) ≠ 3 ∧ Readable (sv 0) [1] (vmask (sv 0).cur) :=
  ⟨vgoes (by decide +kernel), by decide, by decide, readable 0 _ _⟩

theorem wit_VxConvertWords : VxGoes hd 15 0 false (sv 0) ∧ Readable (sv 0) [1, 2] (vmask (sv 0).cur) ∧ vphys (sv 0).cur 1 ∉ (sv 0).cur.vx.poisoned
    ∧ ∀ base ∈ [0, 96], ∀ k < 96, (smGet 0 (sv 0).cur.vx.badLanes (vphys (sv 0).cur 1)).getLsbD ((base + k) / 2) = false :=
  ⟨vgoes (by decide +kernel), readable 0 _ _, by decide +kernel⟩

/-- The ends of the signed range of eight bits, and past each. -/
theorem wit_IntegerRounding : (2 ≤ 8 ∧ 8 ≤ 32) ∧ ((127 : Int) ≤ 2 ^ (8 - 1) - 1) ∧ (2 ^ (8 - 1) - 1 < (128 : Int)) ∧ (-(2 ^ (8 - 1) : Int) ≤ -128)
    ∧ ((-129 : Int) < -(2 ^ (8 - 1) : Int)) ∧ (2 * (126 : Int) + 1 ≤ 2 * (2 ^ (8 - 1) - 1)) ∧ ({ (default : RC) with sat := true }).sat = true := by decide

theorem wit_VxPackWords : VxGoes hd 15 0 false (sv 0) ∧ Readable (sv 0) [1, 3] (BitVec.allOnes 96) ∧ 243 ≤ (rowByte row2 15).toNat
    ∧ (∀ k < 15, (rowByte row2 k).toNat < 243) ∧ ∀ k < 16, (rowByte (0 : Row) k).toNat < 243 :=
  ⟨vgoes (by decide +kernel), readable 0 _ _, by decide +kernel⟩

/-- FADDR is the number of the first invalid byte. -/
theorem test_bad_ternary : goesTo (.vunpk hd 3 2 3) (sv 0) (endKernel (sv 0) 0 2 40 0x40 15) = true := by decide +kernel

theorem wit_VxPermuteAndTileWords : VxGoes hd 14 1 false (sv 1) ∧ Readable (sv 1) [1, 2] (BitVec.allOnes 96) ∧ VxGoes hd 16 1 false (sv 1)
    ∧ (95 : BitVec 7).toNat < 96 ∧ 2048 + (3 : BitVec 2).toNat ∉ (sv 1).cur.vx.poisoned :=
  ⟨vgoes (by decide +kernel), readable 1 _ _, vgoes (by decide +kernel), by decide +kernel⟩

/-- Lanes that are on, with a NaN among them and without; no lane on. -/
theorem wit_VxReductionWords : VxGoes hd 17 1 false (sv 1) ∧ Readable (sv 1) [1, 31] (vmask (sv 1).cur) ∧ (vmask (sv 1).cur).getLsbD 0 = true
    ∧ vmask (sv 1 fun c => { c with vc := { c.vc with mask := some 0 } }).cur = 0
    ∧ (fp32.val (vin (sv 1).cur fp32 (rowLane row1 5).toNat).1).isNan = true ∧ (vmask (sv 1).cur).getLsbD 5 = true
    ∧ ∀ k < 96, (fp32.val (vin (sv 1).cur fp32 (rowLane row2 k).toNat).1).isNan = false :=
  ⟨vgoes (by decide +kernel), readable 1 _ _, by decide +kernel⟩

def lqvS (r : QRow) : State := sv 1 fun c => { c with q := { c.q with lqv := [r], dq := [(0, row1)] } }

theorem wit_VxQueueWords :
    let p : Prod := { (default : Prod) with cycle := 2, due := 9 }
    VxGoes hd 14 1 false (lqvS {}) ∧ VxGoes hd 19 1 false (lqvS {}) ∧ (lqvS { tag := 5 }).cur.q.lqv = [{ tag := 5 }] ∧ (lqvS {}).cur.sys.raw = false
      ∧ (lqvS { decoded := true }).cur.q.lqv = [{ decoded := true }] ∧ (lqvS {}).cur.q.dq = [(0, row1)] ∧ Readable (sv 1) [1] (BitVec.allOnes 96)
      ∧ (sv 1 fun c => { c with vx := { c.vx with prod := some p } }).cur.vx.prod = some p ∧ p.cycle + 1 = (sv 1).cur.cycle
      ∧ (sv 1).cur.vx.prod = none ∧ (sv 1).cur.sys.det = false ∧ (sv 1 fun c => { c with sys := { c.sys with det := true } }).cur.sys.det = true :=
  ⟨vgoes (by decide +kernel), vgoes (by decide +kernel), by decide +kernel, by decide +kernel, by decide +kernel, by decide +kernel, readable 1 _ _,
   by decide +kernel⟩

/-- The expected and the found tag are in FADDR. -/
theorem test_wrong_tag : goesTo (.vpop hd 3 5) (lqvS { tag := 6 }) (endKernel (lqvS { tag := 6 }) 0 2 40 0x42 0x56) = true := by decide +kernel

/-- Loop ends: the last word (63 words on); counts from the register and from a `vext` word; a branch pending. -/
theorem wit_VxControlWords :
    let s := sv 2
    let j := sv 2 fun c => { c with vx := { c.vx with br := some ⟨1, 5⟩ } }
    let e := sv 2 fun c => { c with vx := { c.vx with ext := [(2, [0xABCD])] } }
    VxGoes hd 14 2 true s ∧ vimmU s.cur (63 : BitVec 11) % 64 ≠ 0 ∧ s.cur.vx.br = none ∧ 40 + 63 ≤ 4095 ∧ nestBad s.cur.vx.loops 3 41 103 = false
      ∧ vimmU s.cur (63 : BitVec 11) / 64 = 0 ∧ vimmU e.cur (63 : BitVec 11) / 64 ≤ 0xFFFFFFFF ∧ VxGoes hd 14 2 true e ∧ Readable (sv 2) [0] 1
      ∧ (2, vimmU s.cur (5 : BitVec 11)) = (2, min (vimmU s.cur (5 : BitVec 11)) 5)
      ∧ (vimmU e.cur (5 : BitVec 11) ≥ 2 ^ 15 ∧ vimmU s.cur (0x43F : BitVec 11) < 2 ^ 15 ∧ vimmU s.cur (0x43F : BitVec 11) / 64 % 2 = 0)
      ∧ VxGoes hd 14 2 false s ∧ VxGoes hd 14 3 false (sv 0) ∧ VxGoes hd 14 2 false j ∧ j.cur.vx.br ≠ none
      ∧ (smGet [] e.cur.vx.ext 2).length < 2 ∧ s.cur.vx.extBad.contains 2 = false ∧ s.cur.sys.oum.getLsbD 14 = true ∧ s.cur.sys.ccm.getLsbD 14 = true
      ∧ loopsAt s.cur.vx.loops 40 = [] :=
  ⟨vgoes (by decide +kernel), by decide +kernel, by decide +kernel, by decide, by decide +kernel, by decide +kernel, by decide +kernel,
   vgoes (by decide +kernel), readable 2 _ _, by decide +kernel, by decide +kernel, vgoes (by decide +kernel), vgoes (by decide +kernel),
   vgoes (by decide +kernel), by decide +kernel⟩

/-- A result due now. -/
def flyS (d : VxDst) : State := sv 0 fun c => { c with vx := { c.vx with fly := [{ due := 3, order := 2, dsts := [d] }] } }

theorem wit_VxResultsLand : ((flyS (.v 2 row1 1)).core 0).run = .running ∧ ((flyS (.v 2 row1 1)).core 0).frozen = false
    ∧ ((flyS (.v 2 row1 1)).core 0).vx.fly = [{ due := 3, order := 2, dsts := [.v 2 row1 1] }] ∧ 3 ≤ ((flyS (.v 2 row1 1)).core 0).cycle := by
  decide +kernel

/-- Only the half-lanes of the mask are written. -/
theorem test_half_lane_lands : then_ (exec (.vxResultLanding 0) (flyS (.v 2 row1 1)))
    (fun t => decide (rowLane (smGet 0 (t.core 0).vx.phys 2) 0 = 0x40000000 ∧ rowHalf (smGet 0 (t.core 0).vx.phys 2) 0 = 0)
      && decide (rowHalf (smGet 0 (t.core 0).vx.phys 2) 1 = 0x4000)) = true := by decide +kernel

def callS (calls : List Call) (active : Option Nat) (cmds : List Cmd) : State := sv 0 fun c => { c with
  cmds := cmds, vc := { c.vc with atRet := true, order := 3 }
  vx := { c.vx with calls := calls, active := active, fly := [{ due := 9, order := 3, dsts := [] }] } }
def call1 (sd : Bool) : Call := { (default : Call) with seq := 4, target := 55, arg := 0x1122334455667788, seed := sd }
def vxCmd (n : Nat) : Cmd := { (default : Cmd) with seq := n, eng := .vx, at_ := 3 }

theorem wit_VxCallTaken :
    let s (b : Bool) := callS [call1 b] none [vxCmd 4]
    let t := callS [] (some 4) [vxCmd 3, vxCmd 4]
    ((s true).core 0).run = .running ∧ ((s true).core 0).frozen = false ∧ ((s true).core 0).vc.atRet = true
      ∧ ((s true).core 0).vx.busy ≤ ((s true).core 0).cycle
      ∧ (∀ f ∈ ((s true).core 0).vx.fly, ((s true).core 0).vc.order ≤ f.order) ∧ ((s true).core 0).pushWait = []
      ∧ landedFit ((s true).core 0) = true ∧ ((s true).core 0).vx.active = none
      ∧ ((s true).core 0).cmd? 4 = some (vxCmd 4) ∧ (vxCmd 4).at_ ≤ ((s true).core 0).cycle ∧ ((s false).core 0).vx.calls = [call1 false]
      ∧ (t.core 0).vx.calls = [] ∧ (t.core 0).vx.active = some (vxCmd 4).seq ∧ (t.core 0).cmd? 4 = some (vxCmd 4)
      ∧ (vxCmd 4).eng = .vx ∧ wbits (vxCmd 4).ccw 13 1 = 0 ∧ landedFit (t.core 0) = true := by decide +kernel

def check1 : Check := { prod := { (default : Prod) with cycle := 0, due := 2, mask := BitVec.allOnes 192 }, vpc := 8 }
def checkS : State := sv 0 fun c => { c with vx := { c.vx with checks := [check1] } }

/-- Lane 95 alone is wrong. -/
theorem wit_ShadowCheck : (checkS.core 0).run = .running ∧ (checkS.core 0).frozen = false ∧ (checkS.core 0).vx.checks = [check1]
    ∧ check1.prod.due + 1 ≤ (checkS.core 0).cycle ∧ ((1 <<< 95 : BitVec 96) &&& lanesOf check1.prod.mask).getLsbD 95 = true
    ∧ ∀ j < 95, ((1 <<< 95 : BitVec 96) &&& lanesOf check1.prod.mask).getLsbD j = false := by decide +kernel

/-- A stream of one stored block of zeros and the end mark. -/
def payload0 : List Byte := List.replicate 384 0
def zmBytes : List Byte := leBytes 4 384 ++ leBytes 4 (crc32c payload0).toNat ++ payload0 ++ leBytes 8 0xFF0000 ++ List.replicate 368 0
def zmRow (n : Nat) : QRow := { data := rowOfList ((zmBytes.drop (384 * n)).take 384) }
def zmS (pos : Nat) (out : List ZBlock) (f : Core → Core := id) : State :=
  sv 0 fun c => f { c with q := { c.q with zm := [⟨4, 2, [zmRow 0, zmRow 1], pos, 0, out⟩] } }

theorem length_zmBytes : zmBytes.length = 768 := by
  simp only [zmBytes, payload0, List.length_append, Sys2Proof.Laws.length_leBytes, List.length_replicate]

theorem zmRow_bytes (n : Nat) (h : n < 2) : rowBytes (zmRow n).data = (zmBytes.drop (384 * n)).take 384 :=
  Sys2Proof.Laws.rowBytes_rowOfList _ (by rw [List.length_take, List.length_drop, length_zmBytes]; omega)

theorem wit_ZmBlock : ((zmS 0 []).core 0).run = .running ∧ ((zmS 0 []).core 0).q.lanes = [] ∧ (zmRow 0).poison = false ∧ (zmRow 0).tag = 0
    ∧ payload0.length = 384
    ∧ rowBytes (zmRow 0).data ++ rowBytes (zmRow 1).data = leBytes 4 384 ++ leBytes 4 (crc32c payload0).toNat ++ payload0 ++ leBytes 8 0xFF0000
          ++ (rowBytes (zmRow 1).data).drop 16 := by
  have hl := length_zmBytes
  have e1 : rowBytes (zmRow 1).data = zmBytes.drop 384 := by
    rw [zmRow_bytes 1 (by omega)]; exact List.take_of_length_le (by rw [List.length_drop]; omega)
  refine ⟨rfl, rfl, rfl, rfl, List.length_replicate, ?_⟩
  rw [zmRow_bytes 0 (by omega), e1, Nat.mul_zero, List.drop_zero, List.take_append_drop, List.drop_drop]
  have hp : (leBytes 4 384 ++ leBytes 4 (crc32c payload0).toNat ++ payload0 ++ leBytes 8 0xFF0000).length = 400 := by
    simp only [payload0, List.length_append, Sys2Proof.Laws.length_leBytes, List.length_replicate]
  conv_rhs => rw [show (zmBytes.drop (384 + 16)) = List.replicate 368 (0 : Byte) from List.drop_left' hp]
  rfl

theorem wit_ZmLeaves :
    let b : ZBlock := { (default : ZBlock) with k := 0, ready := 3 }
    let s := zmS 768 [b]
    (s.core 0).q.zm = [⟨4, 2, [zmRow 0, zmRow 1], 768, 0, [b]⟩] ∧ b.ready ≤ (s.core 0).cycle ∧ (s.core 0).q.lqv.length + reserved (s.core 0) false false < 64 :=
  ⟨rfl, by decide +kernel⟩

/-! ### Matrix engine: witnesses -/

/-- A level of the nest: COUNT, and the strides of k, n, rows and tile. -/
def level (n sk sn sr t : Nat) : Word := BitVec.ofNat 64 (n * 2 ^ 48 + sk * 2 ^ 32 + sn * 2 ^ 16 + sr * 2 ^ 6 + t)

/-- A routine at point (2, 2, 0, …) of a nest of 4 by 3 by 2, with five format entries. -/
def mxs (f : Mx → Mx := id) : State :=
  { (st fun c => { c with cycle := 5, mx := f { c.mx with
      mpc := 7, start := 3, level := 1, base := 2, mask := 3
      nest := [(0, level 4 0 1 2 1), (1, level 3 1 2 5 2), (2, level 2 0 0 0 0), (6, BitVec.ofNat 64 (384 * 2 ^ 32 + 480))]
      idx := [2, 2, 0, 0, 0, 0], routine := some 4
      fmt := [(0, 0x8100), (1, 0x8001), (2, 0x8002), (3, 0x8013), (4, 0x8210)] } }) with turn := (0, .mx) }

def mgoesB (h : Hdr) (cls : Nat) (s : State) : Bool :=
  decide (h.vs.toNat < 2) && decide (s.cur.sys.oum.getLsbD cls = true) && decide (s.cur.sys.ccm.getLsbD cls = true)
    && decide (mxPred s.cur.mx h.g.toNat = true) && decide (∀ e ∈ s.cur.pushWait, e.1 ≠ Stream.mx)
    && (s.cur.mx.popped || (List.range 6).all fun f => decide (tokSum (hdrPops .mx h) f ≤ s.cur.tokens f))

theorem mgoes {h : Hdr} {cls : Nat} {s : State} (e : mgoesB h cls s = true) : MxGoes h cls s := by
  simp only [mgoesB, Bool.and_eq_true, decide_eq_true_eq] at e
  obtain ⟨⟨⟨⟨⟨a, b⟩, c⟩, d⟩, f⟩, g⟩ := e
  simp only [Bool.or_eq_true, List.all_eq_true, List.mem_range, decide_eq_true_eq] at g
  exact ⟨a, b, c, d, f, g⟩

/-- The innermost level that has another point is level 2; at (3, 2, 1) none has. -/
theorem wit_MxControlWords : MxGoes hd 9 mxs ∧ mxs.cur.mx.jobs = [] ∧ (5 : BitVec 3).toNat < 6
    ∧ mxs.cur.mx.idx.getD 2 0 + 1 < max 1 (wbits (smGet 0 mxs.cur.mx.nest 2) 48 16)
    ∧ (∀ n < 6, 2 < n → max 1 (wbits (smGet 0 mxs.cur.mx.nest n) 48 16) ≤ mxs.cur.mx.idx.getD n 0 + 1)
    ∧ ∀ k < 6, max 1 (wbits (smGet 0 mxs.cur.mx.nest k) 48 16) ≤ ([3, 2, 1, 0, 0, 0] : List Nat).getD k 0 + 1 :=
  ⟨mgoes (by decide +kernel), by decide +kernel⟩

/-- With every row of a tile; with a bank of the entry's format and group. -/
theorem wit_MxJobWords :
    let s := mxs fun x => { x with nest := [(6, BitVec.ofNat 64 (384 * 2 ^ 32 + 480))], banks := [(0, { (default : Bank) with valid := true, fmt := 0, g := 64, k0 := 384 })] }
    MxGoes hd 9 s ∧ s.cur.mx.jobs = [] ∧ s.cur.mx.residue = [] ∧ (0 < (192 : BitVec 8).toNat ∧ (192 : BitVec 8).toNat ≤ 192)
      ∧ overLevels (mxNoted s.cur.mx) (fun w => ((w.extractLsb' 6 10 : BitVec 10)).toInt) = 0
      ∧ (0 : BitVec 5).toNat ≤ 16 ∧ usable (smGet 0 (mxNoted s.cur.mx).fmt 0) ∧ wbits (mxNoted s.cur.mx).pert.ctl 0 24 = 0 ∧ MxGoes hd 4 s
      ∧ (wbits (smGet 0 (mxNoted s.cur.mx).nest 6) 32 32 : Int) % 64 = 0
      ∧ (wbits (smGet 0 s.cur.mx.fmt 0) 4 2 = 0 ∧ wbits (smGet 0 s.cur.mx.fmt 0) 0 2 = 0 ∧ wbits (smGet 0 s.cur.mx.fmt 0) 8 2 = 1)
      ∧ ((smGet {} s.cur.mx.banks 0).valid = true ∧ (smGet {} s.cur.mx.banks 0).fmt = 0 ∧ (smGet {} s.cur.mx.banks 0).g = 64
        ∧ (smGet {} s.cur.mx.banks 0).poisoned = false) ∧ smGet 0 (mxNoted s.cur.mx).klast 0 ≤ (smGet {} s.cur.mx.banks 0).k0
      ∧ MxGoes hd 8 s ∧ MxGoes hd 5 s ∧ MxGoes hd 6 s ∧ MxGoes hd 7 s :=
  ⟨mgoes (by decide +kernel), by decide +kernel, by decide +kernel, by decide, by unfold overLevels; decide +kernel, by decide,
   by unfold usable; decide +kernel, by decide +kernel, mgoes (by decide +kernel), by decide +kernel, by decide +kernel, by decide +kernel,
   by decide +kernel, mgoes (by decide +kernel), mgoes (by decide +kernel), mgoes (by decide +kernel), mgoes (by decide +kernel)⟩

/-- One unfinished word, with rows in its queues. -/
def jobS (j : Job) (f : Core → Core := id) : State := sv 0 fun c => f { c with
  cycle := 50
  q := { c.q with lqm := [{ data := row1 }, { data := row2, tag := 1 }], aq := [(3, row1), (4, row2)] }
  mx := { c.mx with jobs := [j], banks := [(0, { (default : Bank) with valid := true, fmt := 0, g := 64, k0 := 384, codes := [(0, row1)], sc := [(0, 0x3C00)] })] } }

/-- Every kind of word, before its end and at it. -/
theorem wit_MxWordsProgress :
    let run (n el : Nat) : Job := { (default : Job) with kind := .run, tile := 2, n := 8, j := n, el := el, sides := 1, side := row1, entry := 0x8100 }
    let ldw (n el : Nat) : Job := { (default : Job) with kind := .ldw, entry := 0x8000, el := el, rows := List.replicate n default }
    mxFree ((jobS { (default : Job) with kind := .swap, el := 1 }).core 0) ∧ ((jobS { (default : Job) with kind := .zero, el := 4 }).core 0).cycle = 50
      ∧ ((jobS { (default : Job) with kind := .zero, el := 4 }).core 0).mx.jobs = [{ (default : Job) with kind := .zero, el := 4 }]
      ∧ (default : Job).next ≤ 50 ∧ ((jobS { (default : Job) with kind := .bias }).core 0).q.lqm = [{ data := row1 }, { data := row2, tag := 1 }]
      ∧ ((run 7 7).j < (run 7 7).n ∧ 2 * (run 7 14).j ≤ (run 7 14).el ∧ wbits (run 7 7).entry 0 2 = 0 ∧ (run 7 7).j / 96 < (run 7 7).sides)
      ∧ ((jobS (run 7 14)).core 0).q.aq = [(3, row1), (4, row2)] ∧ ((run 8 28).n ≤ (run 8 28).j ∧ 2 * (run 8 28).n + 12 ≤ (run 8 28).el)
      ∧ (wbits (ldw 60 144).pert.ctl 0 24 = 0 ∧ 144 ≤ (ldw 60 144).el ∧ codeRows 0 + sideRows 0 32 ≤ (ldw 60 144).rows.length)
      ∧ (ldw 0 0).rows.length < codeRows 0 + sideRows 0 32 ∧ rowDue (ldw 0 0) 0 ≤ (ldw 0 0).el ∧ (ldw 1 0).el < rowDue (ldw 1 0) 1 := by
  unfold mxFree; decide +kernel

/-- The last cycle of a swap makes the other bank active. -/
theorem test_swap : then_ (exec (.mxWordFinish 0) (jobS { (default : Job) with kind := .swap, el := 1 }))
    (fun t => (t.core 0).mx.act && decide ((t.core 0).mx.jobs = [])) = true := by decide +kernel

/-- One row of INT8 products against codes of zero point 0: 384 products of each group's bytes. -/
theorem wit_MxBankAndProducts : wbits ({ (default : Job) with entry := 0x8100 } : Job).pert.ctl 0 24 = 0 ∧ 47 < 48
    ∧ wbits (0x8200 : Word) 8 2 < 3 ∧ 5 < 384 / (32 * 2 ^ wbits (0x8100 : Word) 8 2) ∧ wbits (0x8101 : Word) 0 2 = 1
    ∧ FV.mul (fp16.val 0x3C00) (fp32.val 0x3F800000) ≠ .nan := by decide +kernel

def drainJ : Job := { (default : Job) with kind := .drain, tile := 1, n := 4, j := 3, relu := true, bias := true, clear := true }
def mxCmd (op m : Nat) (v : Word) : Cmd := { (default : Cmd) with seq := 8, eng := .mx, at_ := 3, op := { op := op, m := m, regs := [v] } }
def stagedS (op m : Nat) (v : Word) : State := sv 0 fun c => { c with cycle := 50, cmds := [mxCmd op m v] }
def replayS (o : Bool) : State := sv 0 fun c => { c with cycle := 50, mx := { c.mx with
  window := { (default : Window) with opened := o, words := 64, rows := 384, zeroed := [3] }
  jobs := [{ (default : Job) with kind := .run, tile := 3 }] } }

theorem wit_MxUnitEvents : mxFree ((jobS drainJ).core 0) ∧ ((jobS drainJ).core 0).mx.jobs = [drainJ] ∧ drainJ.next ≤ 50 ∧ ((jobS drainJ).core 0).q.dq.length < 32
    ∧ mxFree ((stagedS 2 1 7).core 0) ∧ ((stagedS 2 1 7).core 0).cmds.find? (fun e => e.eng == .mx && !e.started) = some (mxCmd 2 1 7)
    ∧ (mxCmd 2 1 7).at_ ≤ 50 ∧ ((stagedS 3 0 77).core 0).mx.routine = none
    ∧ (let s := sv 0 fun c => { c with cmds := [mxCmd 3 0 77], mx := { c.mx with ending := [8] } }
       mxFree (s.core 0) ∧ (s.core 0).mx.ending = [8] ∧ (s.core 0).mx.jobs = [] ∧ (s.core 0).cmd? 8 = some (mxCmd 3 0 77))
    ∧ ((replayS true).core 0).mx.jobs = [{ (default : Job) with kind := .run, tile := 3 }] ∧ ((replayS true).core 0).mx.window.busy ≤ 50
    ∧ 3 ∈ ((replayS true).core 0).mx.window.zeroed ∧ ((replayS false).core 0).mx.window.opened = false := by
  unfold mxFree; decide +kernel

/-! ### Memory events: witnesses -/

def ldqE (k n : Nat) : RdE := { po := 4, pc := 0, va := ownVa 0, kind := .ldq true false false, dst := none, due := 30, n := n, k := k }
def rowS (k : Nat) : State := st fun c => { c with swz := [(0, 5), (1, 6)], main := { c.main with rq := [ldqE k 2], marks := [(1, 2)] } }

/-- The first and the last row. -/
theorem wit_rowPerforms : ((rowS 0).core 0).run = .running ∧ ((rowS 0).core 0).inHandler = false ∧ ((rowS 1).core 0).main.rq.head? = some (ldqE 1 2)
    ∧ ((rowS 0).core 0).main.wq = [] ∧ rdCheck (rowS 0) 0 (ldqE 0 2) = .ok [] ∧ rdCheck (rowS 1) 0 (ldqE 1 2) = .ok []
    ∧ cleanRead (rowS 0) 0 [] (ownVa 0) 384 ∧ cleanRead (rowS 1) 0 [] (ownVa 384) 384 := by
  unfold cleanRead; decide +kernel

def rowIn (lqm zm1 : Bool) (due : Nat) : RowIn := { lqm := lqm, zm1 := zm1, due := due, po := 5, total := 2, row := { data := row2, tag := 3 } }
def inS (r : RowIn) (zm : List ZStream) : State := st fun c => { c with cycle := 10, q := { c.q with zm := zm, rowsIn := [r] } }
def zst (po : Nat) : ZStream := ⟨po, 2, [], 0, 0, []⟩

theorem wit_QueueRows : ((inS (rowIn true false 10) []).core 0).run = .running ∧ ((inS (rowIn true false 10) []).core 0).frozen = false
    ∧ ((inS (rowIn true false 10) []).core 0).q.rowsIn.find? (fun e => e.lqm == true) = some (rowIn true false 10)
    ∧ ((inS (rowIn true false 11) []).core 0).cycle < (rowIn true false 11).due ∧ (rowIn true false 10).due ≤ 10
    ∧ (∀ z ∈ [zst 5], (rowIn false false 10).po ≤ z.po) ∧ (∃ z ∈ [zst 4], z.po < (rowIn false false 10).po)
    ∧ (∀ z ∈ [zst 4], z.po ≠ (rowIn false true 10).po) ∧ (∃ z ∈ [zst 5], z.po = (rowIn false true 10).po) := by decide +kernel

def absent1 : ApFly := { due := 8, po := 3, dst := .x 4, val := 99, mem := true, arrived := false, va := 0x77 }
def replyS (f : ApFly) (late : Option Word) (len tw : Nat) : State := st fun c => { c with
  cycle := 10, tok := [(0, 3), (5, 8)], tokWait := tw, freeze := { late := late, len := len }, main := { c.main with fly := [f] } }

/-- The watchdogs at their times and one before. -/
theorem wit_RepliesAndWatchdogs : ((replyS absent1 none 0 0).core 0).inHandler = false ∧ ((replyS absent1 none 0 0).core 0).main.fly = [] ++ absent1 :: []
    ∧ absent1.arrived = false ∧ ((replyS absent1 none 0 0).core 0).freeze.late = none ∧ ((replyS absent1 (some 7) 0 0).core 0).freeze.late ≠ none
    ∧ absent1.due ≤ 10 ∧ absent1.dst = .x 4 ∧ ((replyS absent1 none 0 0).core 0).main.rq = []
    ∧ ((replyS absent1 none 0 0).core 0).main.fly.find? (fun f => f.mem && !f.arrived && decide (f.due ≤ 10)) = some absent1
    ∧ ((replyS absent1 (some 0x77) (2 ^ 20) 0).core 0).frozen = true ∧ lateVa ((replyS absent1 (some 0x77) (2 ^ 20) 0).core 0) = some 0x77
    ∧ ((replyS { absent1 with due := 11 } none 0 0).core 0).freeze.late = none ∧ ((replyS { absent1 with due := 11 } none 0 0).core 0).cycle < 11
    ∧ 2 ^ 20 - 1 < 2 ^ 20 ∧ 2 ^ 24 ≤ ((replyS absent1 none 0 (2 ^ 24)).core 0).tokWait ∧ ((replyS absent1 none 0 (2 ^ 24 - 1)).core 0).tokWait < 2 ^ 24 := by
  decide +kernel

/-- The one result, arrived and due, in a core that no reply holds and in one that one held. -/
theorem wit_repliesEnd (late : Option Word) :
    let s := replyS { absent1 with arrived := true } late 0 0
    (s.core 0).run = .running ∧ (s.core 0).main.rq = [] ∧ (s.core 0).main.fly = [{ absent1 with arrived := true }] ∧ (s.core 0).freeze.late = late
      ∧ absent1.due ≤ (s.core 0).cycle := ⟨rfl, rfl, rfl, rfl, show 8 ≤ 10 by decide⟩

/-- FADDR of 0xC4 holds the six counts. -/
theorem test_token_deadlock : goesTo (.tokenDeadlock 0) (replyS absent1 none 0 (2 ^ 24)) (endKernel (replyS absent1 none 0 (2 ^ 24)) 0 3 0 0xC4 0x800003) = true := by
  decide +kernel

theorem wit_CorrectedErrors :
    let s (u : Nat) := { (st fun c => { c with freeze := { c.freeze with ecc := some u } }) with clock := 100 }
    ((s 100).core 0).freeze.ecc = some 100 ∧ 100 ≤ (s 100).clock ∧ (s 101).clock < 101 ∧ ((3 : Word).toNat % 2 = 0 ∨ (3 : Word).toNat / 2 % 4 < 2) := by
  decide +kernel

/-- An access that needs a walk; the root register, the handler's page and the memory of the table. -/
def walkS (pthl root : Word) (m : List (Nat × Byte)) (s2 : List S2Map) : State :=
  { (stX fun x => { x with rq := [{ po := 4, pc := 9, va := 0x12340, kind := .ld 8 false, dst := none, due := 30 }] }) with
    mem := m, parts := [(0, { part0 with pthl := pthl, s1root := root, stage2 := s2 })] }
/-- What a walk gives: a leaf, an invalid entry, or a stage-2 failure. -/
def walkKind (s : State) : Nat := match walk s 0 0 0x10000 with
  | .leaf _ _ => 0
  | .invalid => 1
  | .stage2 _ _ => 2
def heldTlbi (v : Word) (out : Nat := 0) : State := st fun c => { c with pend := some { kind := .tlbi v, from_ := out } }

theorem wit_TranslationsComeAndGo :
    let low : List S2Map := [{ (default : S2Map) with gpa := 0, len := 2 ^ 30, pa := 0, mod := 0, host := false }]
    ((walkS 0 1 [(hbmKey 0 0, 7)] low).core 0).run = .running ∧ walkWanted (walkS 0 1 [(hbmKey 0 0, 7)] low) 0 = some (⟨false, 4, 9, none⟩, 1, 0x12340)
      ∧ walkKind (walkS 0 1 [(hbmKey 0 0, 7)] low) = 0 ∧ walkKind (walkS 0 1 [] low) = 1 ∧ walkKind (walkS 0 1 [] []) = 2
      ∧ wbits ((walkS 0 1 [] low).part 0).pthl 0 12 = 0 ∧ wbits ((walkS 5 1 [] low).part 0).pthl 0 12 ≠ 0
      ∧ (heldTlbi 0x10000).cur.held = some { kind := .tlbi 0x10000 } ∧ (0x10001 : Word).toNat % 4 = 1
      ∧ 0 ≤ timeOf (heldTlbi 0x10000) 0 false ∧ timeOf (heldTlbi 0x10000 4) 0 false < 4 := by decide +kernel

/-- A walk through three levels, each of which has a good descriptor for the address and an invalid one beside it; a table that stage 2 does not map; no root. -/
theorem wit_StageOneWalk :
    let low : List S2Map := [{ (default : S2Map) with gpa := 0, len := 2 ^ 30, pa := 0, mod := 0, host := false }]
    let s := walkS 0 1 [(hbmKey 0 0, 1), (hbmKey 0 1, 0x10), (hbmKey 0 0x1000, 1), (hbmKey 0 0x1001, 0x20), (hbmKey 0 0x2008, 7)] low
    let d (a : Nat) := gpaNat s (s.part 0) 0 a 8
    0x12340 < 2 ^ 48 ∧ (s.part 0).s1root.getLsbD 0 = true ∧ (s.part 0).s1root.toNat / 2 ^ 21 = 0 ∧ ((walkS 0 0 [] low).part 0).s1root.getLsbD 0 = false
      ∧ d (8 * (0x12340 / 2 ^ 30)) = some 0x1001 ∧ d (0x1000 + 8 * (0x12340 / 2 ^ 21 % 512)) = some 0x2001 ∧ d (0x2000 + 8 * (0x12340 / 2 ^ 16 % 32)) = some 7
      ∧ d 8 = some 0 ∧ d 0x1008 = some 0 ∧ d 0x2000 = some 0 ∧ d (2 ^ 30) = none
      ∧ (0x1001 % 2 = 1 ∧ 0x1001 / 2 ^ 8 * 256 % 4096 = 0 ∧ 0x2001 / 2 ^ 8 * 256 % 256 = 0 ∧ 7 / 2 % 2 = 1) ∧ walkKind s = 0 := by decide +kernel

/-! ### Engine events: witnesses -/

def retireC (ccw : Word) : Cmd := { (default : Cmd) with seq := 7, eng := .link, ccw := ccw }
def retireS (ccw : Word) (ring : Option Nat) : State :=
  { (st fun c => { c with cmds := [retireC ccw] }) with regions := [(1, { reg0 with lring := ring })] }

/-- A ring that ends at the scratchpad's end, a command without records, and none. -/
theorem wit_CommandsRetire : retireC 0 ∈ ((retireS 0 (some (0x1FFFF * 16 + 0 * 2 ^ 24))).core 0).cmds
    ∧ cmdRing (retireS 0 (some (0x1FFFF * 16))) 0 (retireC 0) = some (0x1FFFF * 16, 4)
    ∧ nbits (0x1FFFF * 16) 4 17 * 16 + 16 * 2 ^ nbits (0x1FFFF * 16) 24 4 ≤ 2 ^ 21 ∧ (retireC 1).ccw.toNat % 2 = 1
    ∧ cmdRing (retireS 0 none) 0 (retireC 0) = none := by decide +kernel

def startC (eng : Eng) (ccw : Word) : Cmd := { (default : Cmd) with seq := 7, eng := eng, ccw := ccw, at_ := 10, po := 4 }
def earlier (eng : Eng) : Cmd := { (default : Cmd) with seq := 6, eng := eng }
def startS (l : List Cmd) : State := st fun c => { c with cycle := 10, cmds := l }

/-- A command with REL behind an earlier read, and behind an earlier write. -/
theorem wit_ReleaseWaits :
    let m : Cmd := { vxCmd 4 with ccw := 0x2000, po := 5 }
    let s (r w : Bool) := st fun c => { c with cmds := [m], main := { c.main with
      rq := if r then [{ (default : RdE) with po := 4 }] else [], wq := if w then [{ (default : WrE) with po := 4 }] else [] } }
    m ∈ ((s true false).core 0).cmds ∧ wbits m.ccw 13 1 = 1 ∧ (∃ e ∈ ((s true false).core 0).main.rq, e.po < m.po)
    ∧ (∃ e ∈ ((s false true).core 0).main.wq, e.po < m.po) ∧ m ∈ ((s false true).core 0).cmds := by decide +kernel

/-- Ready beside a command of another channel; not ready where one names the command before. -/
theorem wit_CommandsStart : ((startS [earlier (.bte 1), startC (.bte 2) 0]).core 0).run = .running
    ∧ ((startS [earlier (.bte 1), startC (.bte 2) 0]).core 0).cmds = [earlier (.bte 1)] ++ startC (.bte 2) 0 :: []
    ∧ (earlier (.bte 1)).seq ≠ (startC (.bte 2) 0).seq ∧ (startC (.bte 2) 0).started = false ∧ (startC (.bte 2) 0).at_ ≤ 10
    ∧ wbits (startC (.bte 2) 0).ccw 24 8 = 0 ∧ wbits (startC (.bte 2) 0x1000000).ccw 24 8 = 1
    ∧ (earlier (.bte 1)).seq + 1 = (startC (.bte 2) 0x1000000).seq := by decide +kernel

/-- A descriptor from its fields. -/
def descF (l : List (Nat × Nat)) : BitVec 1536 := BitVec.ofNat 1536 ((l.map fun e => e.2 * 2 ^ (8 * e.1)).sum)

/-- The last indices of a nest of 2 by 1 by 3 by 1 by 1 by 4. -/
theorem wit_BlockTransferWalk : ∀ l < 6, ([1, 0, 2, 0, 0, 3] : List Nat).getD l 0 < btCount (descF [(0x40, 2), (0x60, 3), (0x90, 4)]) l := by
  decide +kernel

def btD (ew kind dst : Nat) : BitVec 1536 := descF [(0, (ownVa 0).toNat), (8, dst), (0x10, ew + kind * 65536), (0x18, 4), (0x1C, 3), (0x40, 2), (0x48, 10), (0x28, 0x1000)]
def btM (d : BitVec 1536) (ch pos : Nat) : Cmd :=
  { (default : Cmd) with seq := 7, eng := .bte ch, started := true, walk := false, pos := pos, op := { op := 0, desc := d } }
def btS (m : Cmd) (f : Core → Core := id) : State := st fun c => f { c with cmds := [m] }

def engOk (r : EngRes) : Bool := match r with
  | .ok _ _ => true
  | _ => false

/-- Element 2 is in the source and element 3 is not; the end; channels 3 and 2. -/
theorem wit_BlockTransferMoves :
    let m := btM (btD 3 0 (ownVa 0x400).toNat)
    let a := btVa (btD 3 0 (ownVa 0x400).toNat) 0x00 (Int.fdiv (btBit 3 (btSe (btD 3 0 (ownVa 0x400).toNat) 0 2)) 8)
    let b := btVa (btD 3 0 (ownVa 0x400).toNat) 0x08 (Int.fdiv (btBit 3 (btDe (btD 3 0 (ownVa 0x400).toNat) 0 2)) 8)
    btRuns (btS (m 2 2)) 0 (m 2 2) ∧ btTotal (m 2 2).op.desc = 8 ∧ btNextRow (m 2 8) = none ∧ btQnt (m 2 2).op.desc = false ∧ btKind (m 2 2).op.desc = 0
      ∧ btEw (m 2 2).op.desc = 3 ∧ btOut (m 2 2).op.desc 0 2 = false ∧ btOut (m 2 3).op.desc 0 3 = true
      ∧ ((btS (m 2 2)).core 0).copy = none
      ∧ engOk (engAccess (btS (m 2 2)) 0 (m 2 2) a (max 1 (btUnitBits 3 / 8)) { r := true } 0) = true
      ∧ vaPoison (btS (m 2 2)) 0 [] a (max 1 (btUnitBits 3 / 8)) = false
      ∧ engOk (engAccess (btS (m 2 2)) 0 { m 2 2 with pos := 2 + btUnit 3 } b (max 1 (btUnitBits 3 / 8)) { w := true } 0) = true
      ∧ btChan (m 3 3) = 3 :=
  ⟨⟨by decide +kernel, by decide +kernel, ⟨2, rfl⟩, rfl, rfl, rfl⟩, by decide +kernel⟩

def rowM : Cmd :=
  { btM (descF [(0x10, 1 + 2 * 65536), (0x18, 384), (0x1C, 384), (0x40, 2), (0x4C, 384), (0x28, 0x1000)]) 1 768 with part := (List.range 768).map (fun i => (i, BitVec.ofNat 4 i)), sub := [0, 0] }

/-- A complete row for LQM, and a queue with room. -/
theorem wit_BlockTransferRows : btNextRow rowM = some 0 ∧ ((btS rowM).core 0).frozen = false ∧ btKind rowM.op.desc = 2
    ∧ ((btS rowM).core 0).q.lqm.length + reserved ((btS rowM).core 0) true false < 64 ∧ smRising 0 rowM.part = true := by decide +kernel

/-- Words for AP memory: into block 4 with the AP in block 0, and in block 4. -/
theorem wit_BlockTransferOverlay :
    let m := btM (btD 3 3 4096) 1 0
    let live (pc : Nat) := blockLive ((btS m fun c => { c with main := { c.main with pc := BitVec.ofNat 14 pc } }).core 0) 3 (4096 / (256 * btImWord 3))
    3 ≤ btKind m.op.desc ∧ m.pos < btTotal m.op.desc ∧ btOut m.op.desc 0 0 = false ∧ (0 ≤ (4096 : Int) ∧ 4096 + 4 ≤ btImSize 3)
      ∧ live 0 = false ∧ live 1024 = true := by decide +kernel

/-- A tile of 32 by 32 FP32 elements at 0x10000, of which the last column lies outside the source: codes at 0 and 1024, scales at 2048 and 2112. -/
def tileD : BitVec 1536 :=
  descF [(0x00, (ownVa 0x10000).toNat), (0x08, (ownVa 0).toNat), (0x10, 1 + 2 ^ 27), (0x18, 32), (0x1C, 31), (0x28, 0x1000), (0x90, 32), (0x98, 32),
    (0x9C, 32), (0xA0, (ownVa 1024).toNat), (0xA8, (ownVa 2048).toNat), (0xB0, (ownVa 2112).toNat)]
def tileS : State := btS (btM tileD 1 0)

/-- A place of the own scratchpad. -/
def tileAt (va : Word) (o : Nat) : Bool := decide (vaSpace va = 15) && decide (spadOf tileS 0 va = some (0, o))

theorem wit_QuantisedTile :
    let d := tileD
    btRuns tileS 0 (btM d 1 0) ∧ btQnt d = true ∧ btKind d = 0 ∧ btQsrc d = 0 ∧ btLen d = 32 ∧ btCount d 5 = 32 ∧ 0 < btTotal d
      ∧ btNextRow (btM d 1 0) = none ∧ btChan (btM d 1 0) = 1 ∧ btOut d 0 30 = false ∧ btOut d 0 31 = true
      ∧ (∀ r < 32, ∀ c < 31, btOut d r c = false ∧ tileAt (btVa d 0x00 (btSe d r c * ((4 : Nat) : Int))) (0x10000 + 128 * r + 4 * c) = true
          ∧ vaPoison tileS 0 [] (btVa d 0x00 (btSe d r c * ((4 : Nat) : Int))) 4 = false)
      ∧ (∀ i < 32, ∀ j < 32, tileAt (btVa d 0x08 (btDe d i j)) (32 * i + j) = true
          ∧ tileAt (btVa d 0xA0 (btDe d 0 0 + (j : Int) + (i : Int) * btDstr d 5)) (1024 + 32 * i + j) = true)
      ∧ ∀ i < 32, tileAt (btVa d 0xA8 ((2 * (0 + i) : Nat) : Int)) (2048 + 2 * i) = true
          ∧ tileAt (btVa d 0xB0 ((2 * (0 + i) : Nat) : Int)) (2112 + 2 * i) = true :=
  ⟨⟨by decide +kernel, by decide +kernel, ⟨1, rfl⟩, rfl, rfl, rfl⟩, by decide +kernel, by decide +kernel, by decide +kernel, by decide +kernel, by decide +kernel, by decide +kernel,
   by decide +kernel, rfl, by decide +kernel, by decide +kernel, by decide +kernel, by decide +kernel, by decide +kernel⟩

/-- The numbers at the ends, and both kinds of value. -/
theorem wit_SeedRecords : (0 : Nat) < 2 ^ 64 ∧ 2 ^ 64 - 1 < 2 ^ 64 ∧ 0 < 2 ^ 64 - 1 ∧ fp32.val 0x7F800000 = .inf false ∧ fp32.val 0x7FC00000 = .nan := by
  decide +kernel

def seedM (op : Nat) (r2 r3 : Word) : Cmd :=
  { (default : Cmd) with seq := 7, eng := .seed, started := true, walk := false, op := { op := op, regs := [0, ownVa 0x100, r2, r3] } }
def seedR (m : Cmd) : State :=
  { (st fun c => { c with cmds := [m], sd := { c.sd with rk := 5, cfg := 0x2000300, fr := 1000 } }) with
    regions := [(1, { reg0 with wins := [(0, { (default : Win) with len := 2 ^ 20, cnt := 8, ctl := 1 })] })] }

/-- One below the frontier, and one more than 2^20 above it. -/
theorem wit_SeedCommandRuns :
    let m := seedM 1 0x3F800000 0
    let g (hi : Nat) := seedM 3 (w64 hi) 0
    ((seedR m).core 0).run = .running ∧ ((seedR m).core 0).cmd? m.seq = some m ∧ ((seedR m).core 0).copy = none
      ∧ engOk (engAccess (seedR m) 0 m (cmdReg m 1) 32 { w := true } m.bytes) = true ∧ (logWin (seedR (g 999)) 0).isSome = true
      ∧ (cmdReg (g 999) 2).toNat < ((seedR (g 999)).core 0).sd.fr.toNat ∧ (1000 : Nat) + 2 ^ 20 < (cmdReg (g (1000 + 2 ^ 20 + 1)) 2).toNat := by
  decide +kernel

/-- The translation of granule v by the one page that the die holds. -/
def xlP (v : Nat) : Xl := { vpg := v, base := hbmKey 0 (65536 * v), host := false, r := true, w := true, a := true, key := 0 }

def heldB (s : State) (k : Nat) (va : Word) (n : Nat) (need : Need) (v : Nat) : Bool :=
  decide (n ≠ 0) && decide (vaCheck s k va n 1 1 = none) && decide (vaSpace va = 0) && decide (granules va.toNat n = [v])
    && (tlbFind s (dieOf k) (partOfCore s k) (v * 65536)).isSome
    && decide (pageCheck s (dieOf k) (partOfCore s k) v { need with dual := (s.core k).copy.isSome } = .ok (xlP v))

/-- An access within a page that the die holds needs no walk. -/
theorem held_of {s : State} {k : Nat} {va : Word} {n : Nat} {need : Need} {v : Nat} (h : heldB s k va n need v = true) : Held s k va n need [xlP v] := by
  simp only [heldB, Bool.and_eq_true, decide_eq_true_eq, Option.isSome_iff_exists] at h
  obtain ⟨⟨⟨⟨⟨a, b⟩, c⟩, d⟩, t, e⟩, f⟩ := h
  unfold Held engCheck
  simp only [a, b, c, d, e, f, xlNow, if_true, if_false]

/-! Link events -/

/-- Two members, on cores 0 and 3. -/
def two (f : Nat → Core → Core) (g : Region → Region := id) : State :=
  { s0 with cores := [(0, f 0 core0), (3, f 3 { core0 with rank := 1 })], regions := [(1, g { reg0 with members := [0, 3], runs := 2 })] }

/-- Pair logs of 32 MiB a member, in the translated space; the bytes of records in them. -/
def logW : Win := { ctl := 0xF, base := 0, len := 33554432, cnt := 0x100, mstride := 33554432 }
def bytesAt (a : Nat) (bs : List Byte) : List (Nat × Byte) := (bs.zipIdx.map fun e => (a + e.2, e.1)).filter fun e => e.2 != 0
def slotAt_ (rank q : Nat) (bs : List Byte) : List (Nat × Byte) := bytesAt (hbmKey 0 (33554432 * rank + 32 * q)) bs
def rec1 (q : Nat) : List Byte := recordOf 5 q 0x3F800000 0 0 0 false

/-- A seed command of member 0, with the log's frontier at SEQ 1000 and one page that maps the first 1 GiB. -/
def logS (m : Cmd) (mem : List (Nat × Byte)) (lost : List (Option Nat × Nat) := []) : State :=
  { (two (fun k c => { c with cmds := if k = 0 then [m] else [], sd := { rk := 5, cfg := 5, fr := 1000, keyed := true } })
      fun g => { g with wins := [(5, logW)], lost := lost }) with
    parts := [(0, { part0 with stage2 := [{ (default : S2Map) with gpa := 0, len := 2 ^ 30, pa := 0, mod := 0, host := false, wr := true }] })]
    tlb := [(0, [{ part := 0, va := 0, size := 2 ^ 30, gpa := 0, r := true, w := true, a := true, key := 0 }])], mem := mem }

def sdM (op pos : Nat) (regs : List Word) (memo : List (List Nat) := []) (sub : List Nat := []) : Cmd :=
  { (default : Cmd) with seq := 7, eng := .seed, started := true, walk := false, pos := pos, memo := memo, sub := sub, op := { op := op, regs := regs } }

/-- A scan of no SEQ, one that finds the frontier missing, and one that finds a SEQ missing between two records. -/
theorem wit_SeedGapFound :
    ∀ e ∈ [(1000, ([] : List Nat), 1000, 1000), (1001, [], 1000, 1001), (1003, [1000, 1002], 1001, 1002)],
      let m := sdM 3 0 [0, ownVa 0x100, w64 e.1]
      let s := logS m (e.2.1.flatMap fun q => slotAt_ 0 q (rec1 q))
      ((s.core 0).run = .running ∧ (s.core 0).cmd? m.seq = some m) ∧ logWin s 0 = some logW ∧ (s.core 0).copy = none ∧ (s.core 0).sd.fr.toNat = 1000
        ∧ (cmdReg m 2).toNat = e.1 ∧ (e.1 ≤ 1000 + 2 ^ 20 ∧ 1000 ≤ e.2.2.1 ∧ e.2.2.1 ≤ e.1 ∧ e.2.2.2 ≤ e.1)
        ∧ (∀ i < e.1 - 1000, heldB s 0 (slotVa logW 0 (1000 + i)) 32 { r := true } 0 = true ∧ vaPoison s 0 [xlP 0] (slotVa logW 0 (1000 + i)) 32 = false
            ∧ (slotState (vaBytes s 0 [xlP 0] (slotVa logW 0 (1000 + i)) 32) (1000 + i) = .present ↔ 1000 + i ∈ e.2.1)) := by
  decide +kernel

theorem wit_seedHeld (s : State) (k : Nat) (n : Nat) (need : Need) (h : n ≠ 0) (c : vaCheck s k (ownVa 0x100) n 1 1 = none) :
    Held s k (ownVa 0x100) n need [] := by
  unfold Held engCheck
  rw [if_neg h, c]
  exact if_neg (by decide)

/-- A fetch of SEQ 1000 from member 1: of none; held already; found there; corrupt there, newer there, absent there; the peer lost. -/
theorem wit_SeedFetches :
    let bad : List Byte := (rec1 1000).take 31 ++ [0]
    ∀ e ∈ [(0, ([] : List Byte), ([] : List Byte), false, Slot.absent, Slot.absent), (1, rec1 1000, [], false, .present, .absent),
        (1, [], rec1 1000, false, .absent, .present), (1, [], bad, false, .absent, .corrupt), (1, [], rec1 2000, false, .absent, .overwritten),
        (1, [], [], true, .absent, .absent)],
      let m := sdM 4 0 [0, 1000, w64 e.1, w64 (1 + 2 ^ 60)]
      let s := logS m (slotAt_ 0 1000 e.2.1 ++ slotAt_ 1 1000 e.2.2.1) (if e.2.2.2.1 then [(none, 1)] else [])
      ((s.core 0).run = .running ∧ (s.core 0).cmd? m.seq = some m) ∧ logWin s 0 = some logW ∧ (s.core 0).copy = none
        ∧ tabulate (fun i => wbits (cmdReg m 3) (20 * i) 20) (wbits (cmdReg m 3) 60 2) = [1] ∧ (membersOf s 0)[1]? = some 3
        ∧ (1 ∈ lostOf s 0 ↔ e.2.2.2.1 = true) ∧ (cmdReg m 2).toNat = e.1
        ∧ heldB s 0 (slotVa logW 0 1000) 32 { r := true } 0 = true ∧ heldB s 0 (slotVa logW 0 1000) 32 { w := true } 0 = true
        ∧ heldB s 3 (slotVa logW 1 1000) 32 { r := true } 512 = true ∧ vaSpace (slotVa logW 1 1000) = 0
        ∧ vaPoison s 0 [xlP 0] (slotVa logW 0 1000) 32 = false ∧ vaPoison s 3 [xlP 512] (slotVa logW 1 1000) 32 = false
        ∧ slotState (vaBytes s 0 [xlP 0] (slotVa logW 0 1000) 32) 1000 = e.2.2.2.2.1
        ∧ slotState (vaBytes s 3 [xlP 512] (slotVa logW 1 1000) 32) 1000 = e.2.2.2.2.2 := by
  decide +kernel

/-- A replay descriptor: the weights' address, their count, ctl, and a field at 0x24 that must be zero. -/
def replayD (w n x : Nat) : List Byte :=
  leBytes 8 w ++ leBytes 8 0 ++ leBytes 4 n ++ leBytes 4 1 ++ leBytes 8 0x1000001 ++ leBytes 4 0x3F800000 ++ leBytes 4 x ++ leBytes 8 1000 ++ leBytes 16 0

/-- A descriptor with two bad fields; a range that ends before NEXT; no record; one record, then none; a corrupt one. -/
theorem wit_SeedApplyOpens :
    let bad : List Byte := (rec1 1000).take 31 ++ [0]
    ∀ e ∈ [(1001, replayD 3 0 9, ([] : List Byte), Slot.absent), (999, replayD 0 8 0, [], .absent), (1001, replayD 0 8 0, [], .absent),
        (1002, replayD 0 8 0, rec1 1000, .present), (1001, replayD 0 8 0, bad, .corrupt)],
      let m := sdM 2 0 [0, ownVa 0x100, w64 e.1]
      let s := logS m (bytesAt 0x100 e.2.1 ++ slotAt_ 0 1000 e.2.2.1)
      ((s.core 0).run = .running ∧ (s.core 0).cmd? m.seq = some m) ∧ logWin s 0 = some logW ∧ vaCheck s 0 (ownVa 0x100) 64 1 1 = none
        ∧ vaPoison s 0 [] (cmdReg m 1) 64 = false ∧ vaBytes s 0 [] (cmdReg m 1) 64 = e.2.1 ∧ leNat (((e.2.1).drop 0x28).take 8) = 1000
        ∧ (∀ q ∈ [1000, 1001], heldB s 0 (slotVa logW 0 q) 32 { r := true } 0 = true ∧ vaPoison s 0 [xlP 0] (slotVa logW 0 q) 32 = false)
        ∧ slotState (vaBytes s 0 [xlP 0] (slotVa logW 0 1000) 32) 1000 = e.2.2.2
        ∧ slotState (vaBytes s 0 [xlP 0] (slotVa logW 0 1001) 32) 1001 = .absent := by
  decide +kernel

/-- The last of eight weights, without scales and with FP16 ones beside them; and the end of the replay. -/
theorem wit_SeedApplyRuns :
    ∀ e ∈ [(7, 0), (7, 0x400), (8, 0)],
      let d := (leBytes 8 0 ++ leBytes 8 e.2 ++ (replayD 0 8 0).drop 16).map BitVec.toNat
      let m := sdM 2 e.1 [0, ownVa 0x100, 1001] [d, [77, 0x3F800000]] [1]
      let s := logS m []
      ((s.core 0).run = .running ∧ (s.core 0).cmd? m.seq = some m) ∧ logWin s 0 = some logW ∧ (s.core 0).copy = none ∧ m.memo = [d, [77, 0x3F800000]]
        ∧ m.sub = [1] ∧ leNat (((d.map (BitVec.ofNat 8)).drop 0x10).take 4) = 8 ∧ leNat (((d.map (BitVec.ofNat 8)).drop 0x14).take 4) = 1
        ∧ heldB s 0 28 4 { r := true, w := true } 0 = true ∧ vaPoison s 0 [xlP 0] 28 4 = false
        ∧ heldB s 0 0x400 2 { r := true } 0 = true ∧ vaPoison s 0 [xlP 0] 0x400 2 = false
        ∧ vaCheck s 0 (cmdReg m 1 + 0x28) 8 1 1 = none := by
  decide +kernel

def winT : Win := { base := 0x800, len := 0x100, mstride := 0, cnt := 0x7000, ctl := 0xD }
def linkM (op pos : Nat) : Cmd :=
  { (default : Cmd) with seq := 7, eng := .link, started := true, walk := false, pos := pos, bytes := pos,
                         op := { op := op, regs := [0, ownVa 0x20, 0x10, BitVec.ofNat 64 (1 + 40 * 2 ^ 32)] } }
def linkS (op pos : Nat) : State := two (fun k c => if k = 0 then { c with cmds := [linkM op pos] } else c) fun g => { g with wins := [(0, winT)] }

/-- A transfer of 40 bytes to member 1, all moved: without REL, and with it behind an earlier read; a lost member's transfer to itself. -/
theorem wit_transferEnds :
    (∀ op ∈ [0, 1], linkRuns (linkS op 40) 0 (linkM op 40) ∧ wbits (linkM op 40).ccw 13 1 = 0)
    ∧ (let m := { linkM 0 40 with ccw := 0x2000, po := 5 }
       let s := two (fun k c => if k = 0 then { c with cmds := [m], main := { c.main with rq := [default] } } else c) fun g => { g with wins := [(0, winT)] }
       linkRuns s 0 m ∧ transferOf s 0 m = some (3, 1, winT, 40) ∧ wbits m.ccw 13 1 = 1 ∧ earlierDone (s.core 0) m = false)
    ∧ (let m := { linkM 0 0 with op := { op := 0, regs := [0, ownVa 0x20, 0x10, BitVec.ofNat 64 (40 * 2 ^ 32)] } }
       let s := two (fun k c => if k = 0 then { c with cmds := [m] } else c) fun g => { g with wins := [(0, winT)], lost := [(none, 0)] }
       transferOf s 0 m = some (0, 0, winT, 40) ∧ 0 ∈ lostOf s 0 ∧ (s.core 0).rank = 0) := by
  unfold linkRuns; decide +kernel

/-- A transfer of 40 bytes to member 1: its first 39 bytes, and its last. -/
theorem wit_LinkTransfersRun : linkRuns (linkS 0 0) 0 (linkM 0 0) ∧ linkRuns (linkS 1 39) 0 (linkM 1 39)
    ∧ transferOf (linkS 0 0) 0 (linkM 0 0) = some (3, 1, winT, 40) ∧ transferOf (linkS 1 39) 0 (linkM 1 39) = some (3, 1, winT, 40)
    ∧ 1 ∉ lostOf (linkS 0 0) 0 ∧ ((linkS 0 0).core 0).copy = none ∧ ((linkS 0 0).core 3).copy = none ∧ (linkM 0 0).pos + min 39 (40 - 0) < 40
    ∧ 40 ≤ (linkM 1 39).pos + min 39 (40 - 39)
    ∧ engOk (engAccess (linkS 0 0) 0 (linkM 0 0) (cmdReg (linkM 0 0) 1) 39 { r := true } 0) = true
    ∧ engOk (farAccess (linkS 0 0) 0 (linkM 0 0) 3 winT (winVa winT 1 0x10) 39 { w := true }) = true
    ∧ vaPoison (linkS 0 0) 0 [] (cmdReg (linkM 0 0) 1) 39 = false
    ∧ ((withCmd .link).core 0).cmds.length = 1 ∧ (winT.cnt + 16 ≤ 2 ^ 21 ∧ 1 < 2) :=
  ⟨⟨by decide +kernel, by decide +kernel, rfl, rfl, rfl, rfl⟩, ⟨by decide +kernel, by decide +kernel, rfl, rfl, rfl, rfl⟩, by decide +kernel⟩

/-- A plain region of two members. -/
theorem plain_two (f : Nat → Core → Core) (g : Region → Region) (h0 : (f 0 core0).run = .running ∧ (f 0 core0).rid = 1 ∧ (f 0 core0).copy = none)
    (h3 : (f 3 { core0 with rank := 1 }).run = .running ∧ (f 3 { core0 with rank := 1 }).rid = 1 ∧ (f 3 { core0 with rank := 1 }).copy = none)
    (hg : (g { reg0 with members := [0, 3], runs := 2 }).st = .running ∧ (g { reg0 with members := [0, 3], runs := 2 }).copies = []
      ∧ (g { reg0 with members := [0, 3], runs := 2 }).members = [0, 3]) :
    plainRegion (two f g) 1 (g { reg0 with members := [0, 3], runs := 2 }) := by
  refine ⟨rfl, hg.1, hg.2.1, by rw [hg.2.2]; decide, by rw [hg.2.2]; decide, fun j hj => ?_⟩
  rw [hg.2.2] at hj
  simp only [List.mem_cons, List.not_mem_nil, or_false] at hj
  rcases hj with rfl | rfl
  · exact h0
  · exact h3

def barS (sb : Nat → Bool) (lost : List (Option Nat × Nat)) (rq : List RdE) : State :=
  two (fun k c => { c with pend := some { kind := .bar (sb k) 2 5 }, main := { c.main with rq := rq } }) fun g => { g with lost := lost }

/-- All at `cx.sbar`; one at each; one not arrived; a lost member; notices of attempts 1, 127, 128 and 0 later. -/
theorem wit_CollectivesEnd : plainRegion (barS (fun _ => true) [] []) 1 { reg0 with members := [0, 3], runs := 2, lost := [] }
    ∧ plainRegion (barS (fun k => k == 0) [(none, 1)] []) 1 { reg0 with members := [0, 3], runs := 2, lost := [(none, 1)] }
    ∧ lostIn { reg0 with lost := [(none, 1)] } none ≠ [] ∧ lostIn { reg0 with lost := [(some 0, 1)] } none = []
    ∧ ((barS (fun k => k == 0) [] []).core 3).pend = some { kind := .bar false 2 5 } ∧ ((barS (fun k => k == 0) [] []).core 0).pend = some { kind := .bar true 2 5 }
    ∧ ((barS (fun _ => true) [] []).core 0).cmds = [] ∧ ((barS (fun _ => true) [] []).core 3).main.wq = [] ∧ ((barS (fun _ => true) [] []).core 3).main.rq = []
    ∧ ((barS (fun _ => true) [] [ldqE 0 1]).core 0).main.rq ≠ []
    ∧ plainRegion (two fun _ c => c) 1 { reg0 with members := [0, 3], runs := 2 }
    ∧ (let s (a : Nat) := two fun k c => { c with lk := { att := BitVec.ofNat 8 (if k = 0 then 200 else 200 + a), k := 3 } }
       3 ∈ membersOf (s 127) 0 ∧ ((s 127).core 3).lk.att = BitVec.ofNat 8 (200 + 127) ∧ (BitVec.ofNat 8 (200 + 127) - ((s 127).core 0).lk.att).toNat = 127
        ∧ (BitVec.ofNat 8 (200 + 128) - ((s 128).core 0).lk.att).toNat = 128 ∧ (BitVec.ofNat 8 (200 + 1) - ((s 1).core 0).lk.att).toNat = 1
        ∧ ((s 0).core 3).lk.att = BitVec.ofNat 8 200 ∧ ((s 1).core 0).cmds = [] ∧ ((s 1).core 0).pend = none)
    ∧ (let s := two fun k c => if k = 3 then { c with lk := { att := 1, out := 4, k := 0 } } else c
       membersOf s 0 = [0, 3] ∧ (s.core 3).lk.att = BitVec.ofNat 8 1 ∧ (s.core 3).cycle < (s.core 3).lk.out) :=
  ⟨plain_two _ _ ⟨rfl, rfl, rfl⟩ ⟨rfl, rfl, rfl⟩ ⟨rfl, rfl, rfl⟩, plain_two _ _ ⟨rfl, rfl, rfl⟩ ⟨rfl, rfl, rfl⟩ ⟨rfl, rfl, rfl⟩, by decide +kernel,
   by decide +kernel, by decide +kernel, by decide +kernel, by decide +kernel, by decide +kernel, by decide +kernel, by decide +kernel,
   plain_two _ id ⟨rfl, rfl, rfl⟩ ⟨rfl, rfl, rfl⟩ ⟨rfl, rfl, rfl⟩, by decide +kernel⟩

/-- Three contributors of one element at the top of its range. -/
theorem wit_ReductionTree : 0 < 3 ∧ 3 ≤ 2 ^ 32 ∧ (∀ i < 3, ([2 ^ 64 - 1 - i] : List Nat).length = 1 ∧ ∀ x ∈ [2 ^ 64 - 1 - i], x < 2 ^ 64) ∧ 2 < 3 := by
  refine ⟨by decide, by decide, fun i _ => ⟨rfl, fun x hx => ?_⟩, by decide⟩
  simp only [List.mem_cons, List.not_mem_nil, or_false] at hx; omega

def redM (k : Nat) : Cmd :=
  { (default : Cmd) with seq := 7, eng := .link, started := true, walk := false, att := 0, k := 1,
                         op := { op := 4, regs := [0, ownVa 0x20, ownVa 0x400, BitVec.ofNat 64 (k + 2 ^ 32), BitVec.ofNat 64 (2 + 3 * 2 ^ 32 + 3 * 2 ^ 52)] } }
def redS : State := two fun k c => { c with cmds := [redM (if k = 0 then 0 else 1)] }

def partsOk (s : State) (l : List (Nat × Coll)) : Bool := match redParts l s l [] with
  | .inr (_, _ :: _) => true
  | _ => false

/-- Two members' parts of one reduction, in `allColl`'s form, match and can be read and written. -/
theorem wit_ReductionsComplete : plainRegion redS 1 { reg0 with members := [0, 3], runs := 2 }
    ∧ (([0, 3].flatMap fun j => collNums (redS.core j) 4).filterMap (fun e => allColl redS [0, 3] e.1 e.2)).head? = some [(0, .red (redM 0)), (3, .red (redM 1))]
    ∧ collMismatch [.red (redM 0), .red (redM 1)] = none ∧ (redM 0).walk = false ∧ partsOk redS [(0, .red (redM 0)), (3, .red (redM 1))] = true :=
  ⟨plain_two _ id ⟨rfl, rfl, rfl⟩ ⟨rfl, rfl, rfl⟩ ⟨rfl, rfl, rfl⟩, by decide +kernel⟩

def gathM (n pos : Nat) (sub : List Nat) : Cmd :=
  { (default : Cmd) with seq := 7, eng := .link, started := true, walk := false, pos := pos, sub := sub, att := 0, k := 1,
                         op := { op := 5, regs := [0, ownVa 0x20, BitVec.ofNat 64 (2 ^ 8), BitVec.ofNat 64 n] } }

def accOk (r : State × AccRes) : Bool := match r.2 with
  | .ok _ => true
  | _ => false

/-- A gather that matches, of no item and of three; its last item for member 1. -/
theorem wit_GathersPlace :
    let a := st fun c => { c with cmds := [gathM 0 0 []] }
    let m := gathM 3 1 [3, 2]
    let s := two (fun k c => if k = 0 then { c with cmds := [m] } else c) fun g => { g with wins := [(0, winT)] }
    let w := gathWidth (cmdReg m 2)
    linkRuns a 0 (gathM 0 0 []) ∧ lostOf a 0 = [] ∧ membersOf a 0 = [0] ∧ (a.core 0).pend = none ∧ (a.core 0).cmds = [gathM 0 0 []]
      ∧ linkRuns s 0 m ∧ lostOf s 0 = [] ∧ (membersOf s 0)[1]? = some 3 ∧ (s.core 3).copy = none ∧ winOf s 0 (wbits (cmdReg m 2) 0 8) = some winT ∧ m.sub.getD 1 0 < 3
      ∧ accOk (engCheck s 0 (cmdReg m 1 + w64 (w * 2)) w { r := true }) = true ∧ vaPoison s 0 [] (cmdReg m 1 + w64 (w * 2)) w = false
      ∧ accOk (winAccess s 3 winT (winVa winT 1 0) w { w := true }) = true
      ∧ (s.core 3).lk.att = BitVec.ofNat 8 m.att ∧ 128 ≤ (BitVec.ofNat 8 m.att - (1 : BitVec 8)).toNat :=
  ⟨⟨by decide +kernel, by decide +kernel, rfl, rfl, rfl, rfl⟩, by decide +kernel, by decide +kernel, by decide +kernel, by decide +kernel,
   ⟨by decide +kernel, by decide +kernel, rfl, rfl, rfl, rfl⟩, by decide +kernel⟩

/-- A matched gather with REL, behind an earlier read and with none. -/
theorem wit_gatherReleases : ∀ l ∈ [[(default : RdE)], []],
    let m := { gathM 3 1 [3, 2] with ccw := 0x2000, po := 5 }
    let s := st fun c => { c with cmds := [m], main := { c.main with rq := l } }
    linkRuns s 0 m ∧ m.op.op = 5 ∧ lostOf s 0 = [] ∧ m.pos = 1 ∧ wbits m.ccw 13 1 = 1 ∧ earlierDone (s.core 0) m = l.isEmpty := by
  unfold linkRuns; decide +kernel

/-! Weir and Quern events -/

def loop1 : WLoop := { lid := 9, n := 20, w := 8, window := [0, 1, 3], e := 9 }
def weirR (p : PendKind) (wst : BitVec 3) (l : Option WLoop) : State :=
  two (fun _ c => { c with pend := some { kind := p }, wl := { c.wl with wst := wst, wn := 2, wdone := 1 } }) fun g => { g with loop := l }

/-- Openings of 0 and of 1000 iterations; both halves of a round, with the lowest index done; a close. -/
theorem wit_WeirBarriersComplete :
    (∀ p wst l, plainRegion (weirR p wst l) 1 { reg0 with members := [0, 3], runs := 2, loop := l } ∧ ∀ j ∈ [0, 3], ((weirR p wst l).core j).pend = some { kind := p, from_ := 0 }
        ∧ 0 ≤ ((weirR p wst l).core j).cycle ∧ ((weirR p wst l).core j).main.rq = [] ∧ ((weirR p wst l).core j).main.wq = [])
    ∧ (∀ j ∈ [0, 3], ((weirR .wlRound 1 (some loop1)).core j).wl.wst = 1)
    ∧ (∀ j ∈ [0, 3], ((weirR .wlRound 2 (some loop1)).core j).wl.wst = 2 ∧ ((weirR .wlRound 2 (some loop1)).core j).wl.walias = none)
    ∧ (loop1.window.filter fun q => q % 2 == ((weirR .wlRound 2 (some loop1)).core 0).rank)[0]? = some 0
    ∧ ((weirR .wlRound 2 (some loop1)).core 0).wl.wdone.getLsbD 0 = true ∧ 0 < 2 := by
  refine ⟨fun p wst l => ⟨plain_two _ _ ⟨rfl, rfl, rfl⟩ ⟨rfl, rfl, rfl⟩ ⟨rfl, rfl, rfl⟩, fun j hj => ?_⟩, by decide +kernel⟩
  simp only [List.mem_cons, List.not_mem_nil, or_false] at hj
  rcases hj with rfl | rfl <;> exact ⟨rfl, Nat.zero_le _, rfl, rfl⟩

def quernM (op m pos : Nat) (sub : List Nat) (r : List Word) (dn : Option Nat := none) : Cmd :=
  { (default : Cmd) with seq := 7, eng := .quern, started := true, walk := false, aborted := false, done := dn, pos := pos, sub := sub,
                         op := { op := op, m := m, regs := r } }
def quernR (m : Cmd) (f : Quern → Quern := id) : State :=
  (st fun c => { c with cmds := [m] }).setQuern 0 (f { (default : Quern) with owner := some 0, checked := true, col := [(2, 1)] })

/-- A sweep's last colour and its end; a check that finds neighbours of one colour, and one that finds none; a release. -/
theorem wit_QuernSweeps :
    let m := quernM 4 2 0 [1] [0, 5, BitVec.ofNat 64 (0x3C00 + 1 * 65536 + 1 * 2 ^ 32), 77]
    let e := quernM 4 2 0 [2] [0, 5, BitVec.ofNat 64 (0x3C00 + 1 * 65536 + 1 * 2 ^ 32), 77]
    let k := quernM 2 0 0 [1] [0]
    let clash : Quern → Quern := fun q => { q with nb := [(24 * 2, (5, 0)), (24 * 5, (7, 0))] }
    quernRuns (quernR m) 0 0 m ∧ (m.sub.headD 0 < wbits (cmdReg m 2) 16 3 + 1 ∧ wbits (cmdReg m 2) 16 3 + 1 ≤ e.sub.headD 0)
      ∧ (m.due ≤ (quernR m).clock ∧ (quernR m).clock < ({ m with due := 64 } : Cmd).due)
      ∧ ((quernR m).quern 0).checked = true ∧ quernRuns (quernR e) 0 0 e ∧ quernRuns (quernR k clash) 0 0 k
      ∧ (24 * 5, (7, 0)) ∈ ((quernR k clash).quern 0).nb ∧ smGet 0 ((quernR k clash).quern 0).col 5 = smGet 0 ((quernR k clash).quern 0).col 7
      ∧ smRising 0 ((quernR k clash).quern 0).nb = true ∧ ((quernR k).quern 0).nb = []
      ∧ (let s := s0.setQuern 0 { (default : Quern) with owner := some 0, releasing := true }
         (s.quern 0).owner = some 0 ∧ (s.quern 0).releasing = true ∧ (s.core 0).cmds = []) :=
  ⟨⟨by decide +kernel, by decide +kernel, rfl, rfl, rfl, rfl⟩, by decide +kernel, by decide +kernel, by decide +kernel,
   ⟨by decide +kernel, by decide +kernel, rfl, rfl, rfl, rfl⟩, ⟨by decide +kernel, by decide +kernel, rfl, rfl, rfl, rfl⟩, by decide +kernel⟩

/-- A clamp of one p-bit at the last place, with a good byte and with a byte of 4; a read at the scratchpad's end. -/
theorem wit_QuernCommands :
    let m := quernM 3 0 0 [] [0, ownVa 0, BitVec.ofNat 64 (1 + 16383 * 65536)]
    let r := quernM 5 0 0 [] [0, ownVa (2 ^ 21 - 2048)]
    let s (b : Byte) := { quernR m with mem := [(0, b)] }
    quernRuns (s 3) 0 0 m ∧ (s 3).cur.run = .running ∧ wbits (cmdReg m 2) 16 14 = 16383 ∧ wbits (cmdReg m 2) 0 15 = 1
      ∧ engOk (engAccess (s 3) 0 m (cmdReg m 1) 1 { r := true } 0) = true ∧ vaPoison (s 3) 0 [] (cmdReg m 1) 1 = false
      ∧ (((vaBytes (s 3) 0 [] (cmdReg m 1) 1).getD 0 0).toNat < 4 ∧ 4 ≤ ((vaBytes (s 4) 0 [] (cmdReg m 1) 1).getD 0 0).toNat)
      ∧ quernRuns (quernR r) 0 0 r ∧ ((quernR r).core 0).copy = none ∧ vaSpace (cmdReg r 1) = 15
      ∧ spadOf (quernR r) 0 (cmdReg r 1) = some (0, 2 ^ 21 - 2048) ∧ r.memo = [] ∧ r.op.desc = 0 ∧ 2 ^ 21 - 2048 + 2048 ≤ 2 ^ 21
      ∧ (quernM 2 0 0 [1] [0] (some 0x91)).done = some 0x91 ∧ ((quernR (quernM 4 0 0 [] []) fun q => { q with checked := false }).quern 0).checked = false :=
  ⟨⟨by decide +kernel, by decide +kernel, rfl, rfl, rfl, rfl⟩, by decide +kernel, by decide +kernel, by decide +kernel, by decide +kernel, by decide +kernel,
   by decide +kernel, ⟨by decide +kernel, by decide +kernel, rfl, rfl, rfl, rfl⟩, by decide +kernel⟩

/-- Loads of the last p-bit, good and with a byte 2 of 16; colours, 7 and 8; with the check and without. -/
theorem wit_QuernLoads :
    ∀ e ∈ [(1, 80, 15, 1), (1, 80, 16, 0), (2, 1, 7, 1), (2, 1, 8, 0)],
      let m := quernM e.1 e.2.2.2 0 [] [0, ownVa 0, BitVec.ofNat 64 (1 + 16383 * 65536)]
      let s := { quernR m with mem := [((if e.1 = 1 then 2 else 0), BitVec.ofNat 8 e.2.2.1)] }
      quernRuns s 0 0 m ∧ m.done = none ∧ (s.core 0).run = .running ∧ m.sub ≠ [1] ∧ wbits (cmdReg m 2) 16 14 = 16383 ∧ wbits (cmdReg m 2) 0 15 = 1
        ∧ engOk (engAccess s 0 m (cmdReg m 1) e.2.1 { r := true } 0) = true ∧ vaPoison s 0 [] (cmdReg m 1) e.2.1 = false
        ∧ (vaBytes s 0 [] (cmdReg m 1) e.2.1).getD (if e.1 = 1 then 2 else 0) 0 = BitVec.ofNat 8 e.2.2.1 := by
  unfold quernRuns; decide +kernel

/-- Sums at the scratchpad's end, with correlations at its start and without. -/
theorem wit_QuernMomentsGiven :
    ∀ b ∈ [false, true], let a := if b then ownVa 0 else 0
      let m := quernM 6 1 0 [] [0, ownVa (2 ^ 21 - 65536), a]
      quernRuns (quernR m) 0 0 m ∧ m.done = none ∧ ((quernR m).core 0).run = .running ∧ m.memo = [] ∧ m.op.desc = 0 ∧ vaSpace (cmdReg m 1) = 15
        ∧ spadOf (quernR m) 0 (cmdReg m 1) = some (0, 2 ^ 21 - 65536) ∧ cmdReg m 2 = a ∧ spadOf (quernR m) 0 (ownVa 0) = some (0, 0)
        ∧ vaSpace (ownVa 0) = 15 ∧ 0 + 1572864 ≤ 2 ^ 21 - 65536 := by
  unfold quernRuns; decide +kernel

/-! ### Regions and the device: witnesses -/

/-- The mapping of the first 1 GiB of guest addresses to the partition's own memory. -/
def map1 : S2Map := { (default : S2Map) with gpa := 0, len := 2 ^ 30, pa := 0, mod := 0, host := false, wr := true }

/-- The partition of VF 1, with a root table at guest address 0 whose only entry maps the first 1 GiB, readable, writable, with A. -/
def part1 : Part := { formed := true, clusters := [0], stage2 := [map1], s1root := 1, privOk := false }

/-- The module with that partition, some regions and some cores; virtual address x is byte x of the memory. -/
def su (regs : SMap Region := []) (f : Part → Part := id) (cores : SMap Core := []) : State :=
  { State.reset with cores := cores, regions := regs, parts := [(1, f part1)], nextRid := 5, dev := { boot := [(0, 1)] }, mem := [(hbmKey 0 0, 0x1F)] }

def regA : Region := { part := 1, chan := none, seq := 1, age := 0, raw := 0 }

def isOkE {α β : Type} (e : Except α β) : Bool := match e with
  | .ok _ => true
  | .error _ => false

theorem okE {α β : Type} {e : Except α β} (h : isOkE e = true) : ∃ b, e = .ok b := by
  cases e <;> simp_all [isOkE]

def recAt (rcb ack : Nat) : List Byte := leBytes 8 rcb ++ leBytes 8 ack ++ List.replicate 48 0

def errS {α : Type} (e : Except (Option LErr) α) : Option LErr := match e with
  | .error x => x
  | .ok _ => none

/-- A good record in both states that take one, a short one, misaligned ones, one with a full channel, one in a reset; a control block, and an ACK
word, that stage 2 does not map. -/
theorem wit_SubmissionsAccepted :
    (vfUp (su) 1 = true ∧ ((su).part 1).tstate = .configUnlocked)
    ∧ (vfUp (su [] fun p => { p with tstate := .run }) 1 = true ∧ ((su [] fun p => { p with tstate := .run }).part 1).tstate = .run)
    ∧ submissionRcb su 1 (recAt 0x100 0x300) = .ok (0, 0x300)
    ∧ ((recAt 0x100 0x300).take 63).length ≠ 64 ∧ leNat ((recAt 0x80 0x300).take 8) % 256 ≠ 0 ∧ leNat (((recAt 0x100 0x304).drop 8).take 8) % 8 ≠ 0
    ∧ submissionRcb su 1 (recAt 0x80 0x300) = .error none
    ∧ (let none_ := su [] fun p => { p with stage2 := [] }
       submissionRcb none_ 1 (recAt 0x100 0x300) = .error (errS (submissionRcb none_ 1 (recAt 0x100 0x300))) ∧ isOkE (partRead none_ 1 0x100 256) = false)
    ∧ (isOkE (partRead su 1 0x100 256) = true ∧ isOkE (partAcc su 1 0x40000000 8 { w := true }) = false
       ∧ errS (submissionRcb su 1 (recAt 0x100 0x40000000)) ≠ none)
    ∧ (recAt 0x100 0x300).length = 64 ∧ (∀ b ∈ (recAt 0x100 0x300).drop 16, b = 0)
    ∧ chanCount su 1 none < 4096 ∧ (su.part 1).resetting = false ∧ isOkE (partAcc su 1 0x300 8 { w := true }) = true
    ∧ 4096 ≤ chanCount (su ((List.range 4096).map fun i => (i, regA))) 1 none
    ∧ submissionRcb (su ((List.range 4096).map fun i => (i, regA))) 1 (recAt 0x100 0x300) = .ok (0, 0x300)
    ∧ chanCount (su ((List.range 4095).map fun i => (i, regA))) 1 none < 4096
    ∧ submissionRcb (su [] fun p => { p with resetting := true }) 1 (recAt 0x100 0x300) = .ok (0, 0x300)
    ∧ vfUp (su [] fun p => { p with resetting := true }) 1 = true := by decide +kernel
/-- An RCB from its fields. -/
def rawF (l : List (Nat × Nat)) : BitVec 2048 := BitVec.ofNat 2048 ((l.map fun e => e.2 * 2 ^ (8 * e.1)).sum)

/-- The header of an image without sections or data, which needs class 0. -/
def imgHd (crc : Nat) : List Byte :=
  leBytes 4 0x4B4E4D47 ++ leBytes 2 1 ++ leBytes 2 0 ++ leBytes 8 1 ++ leBytes 4 0x100 ++ leBytes 4 0 ++ leBytes 4 0x100 ++ leBytes 4 0
    ++ leBytes 4 0x100 ++ leBytes 4 0 ++ List.replicate 12 0 ++ leBytes 4 0x100 ++ leBytes 8 0 ++ leBytes 4 crc ++ List.replicate 188 0

/-- The same module with that image at 0x400. -/
def si (regs : SMap Region) (f : Part → Part := id) (cores : SMap Core := []) (fused : List Nat := []) : State :=
  let l := imgHd (crc32c (imgHd 0)).toNat
  { su regs f cores with
    mem := (hbmKey 0 0, 0x1F) :: (((l.zipIdx.filter fun e => e.1 != 0).map fun e => (hbmKey 0 (0x400 + e.2), e.1)))
    dev := { boot := [(0, 1)], fused := fused } }

def regJ : Region := { regA with raw := rawF [(0x00, 0x400), (0x4C, 1), (0x50, 1)] }
/-- The launch checks accept a region, and what they leave of it could be placed, or not. -/
def launchTo (s : State) (g : Region) (place : Bool) : Bool := match launchChecks s g with
  | .ok n => couldPlace (s.setRegion 1 n) n == place
  | .error _ => false

set_option maxRecDepth 1000000 in
/-- A region that a core can hold, and one that none can, with every core of the cluster fused off; a full scoreboard; a bad one; and one RCB
for each check. -/
theorem wit_LaunchChecks :
    (si [(1, regJ)]).region? 1 = some regJ ∧ regJ.st = .journal ∧ ((si [(1, regJ)]).part 1).resetting = false
    ∧ inScoreboard (si [(1, regJ)]) 1 0 = 0
    ∧ inScoreboard (si ((1, regJ) :: (List.range 1023).map fun i => (i + 2, { regA with st := .ready }))) 1 0 = 1023
    ∧ inScoreboard (si ((1, regJ) :: (List.range 1024).map fun i => (i + 2, { regA with st := .ready }))) 1 0 = 1024
    ∧ (∃ cl ∈ ((si [(1, regJ)]).part 1).clusters, cl / 8 = 0) ∧ (∀ cl ∈ ((si [(1, regJ)]).part 1).clusters, cl / 8 ≠ 1)
    ∧ launchTo (si [(1, regJ)]) regJ true = true ∧ launchTo (si [(1, regJ)] id [] (List.range 24)) regJ false = true
    ∧ launchChecks (si [(1, { regJ with raw := 1 })]) { regJ with raw := 1 } = .error ⟨0x02, some 0, none⟩
    ∧ regJ.chan = none ∧ (rcbRaw (rawF [(0x00, 1)])).kimg % 256 ≠ 0
    ∧ (rcbWritten (rawF [(0x44, 1)]) = .ok () ∧ (rcbRaw (rawF [(0x44, 1)])).ovr ≠ 0)
    ∧ (∀ c ∈ [0x8000, 2], rcbWritten (rawF [(0x40, c), (0x4C, 1), (0x50, 192)]) = .ok () ∧ (rcbRaw (rawF [(0x40, c), (0x4C, 1), (0x50, 192)])).ovr = 0
        ∧ placeCheck (si []) 1 (rcbRaw (rawF [(0x40, c), (0x4C, 1), (0x50, 192)])) = .ok ())
    ∧ ((si []).part 1).privOk = false ∧ isOkE (launchChecks (si [(1, regJ)]) regJ) = true := by decide +kernel

def regC : Region := { regA with st := .staging, strm := [(0x100, 0x200, 64), (0x100, 0x240, 0x100)], streams := 1 }
def regE (user : List (Nat × Nat)) : Region :=
  { regA with st := .done, fin := some { status := 2, cause := 7, rank := 0xFFFFFFFF, faddr := 5 }, user := user, raw := rawF [(0x10, 0x60)] }

def accE (e : Except LErr (List Xl)) (p : List Xl → Bool) : Bool := match e with
  | .ok a => p a
  | .error _ => false

/-- The last stream of a region; a record, with codes and without. -/
theorem wit_StreamsAndRecords :
    (su [(1, regC)]).region? 1 = some regC ∧ regC.st = .staging ∧ ((su [(1, regC)]).part 1).resetting = false
    ∧ regC.strm[regC.streams]? = some (0x100, 0x240, 0x100) ∧ streamsAhead (su [(1, regC)]) 1 regC < 16
    ∧ accE (partAcc (su [(1, regC)]) 1 (w64 0x100) 0x100 { r := true }) (fun a => !xlPoison (su [(1, regC)]) a (w64 0x100) 0x100) = true
    ∧ accE (partAcc (su [(1, regC)]) 1 (w64 0x240) 0x100 { w := true, dual := true }) (fun _ => true) = true
    ∧ ∀ l ∈ [[(0, 0), (1, 0)], [(2, 9), (0, 0), (1, 8)]],
        (su [(1, regE l)]).region? 1 = some (regE l) ∧ (regE l).st = .done ∧ (regE l).fin = some { status := 2, cause := 7, rank := 0xFFFFFFFF, faddr := 5 }
        ∧ inOrder (su [(1, regE l)]) (regE l) = true ∧ (regE l).rcb.stats = 0 ∧ (regE l).chan = none ∧ ((su [(1, regE l)]).part 1).resetting = false
        ∧ accE (partAcc (su [(1, regE l)]) 1 (w64 (rcbField (regE l).raw 0x10 8)) 32 { w := true }) (fun _ => true) = true := by decide +kernel

/-- The lowest rank's code other than 0 has a witness of its own. -/
theorem wit_RecordCode : ((1, 8) : Nat × Nat) ∈ (regE [(2, 9), (0, 0), (1, 8)]).user
    ∧ ∀ q ∈ (regE [(2, 9), (0, 0), (1, 8)]).user, q.2 ≠ 0 → q ≠ (1, 8) → 1 < q.1 := by decide +kernel
theorem readLoad_zero (s : State) (g : Region) (l : List Nat) (h : ∀ k, k ∈ l ↔ k ∈ [0]) : readLoad s g l = readLoad s g [0] := by
  have e : (l.map (partOfCore s)).eraseDups = ([0].map (partOfCore s)).eraseDups := by
    cases l with
    | nil => simpa using (h 0).2 (by simp)
    | cons a l =>
      have ha : a = 0 := by simpa using (h a).1 (by simp)
      have hl : ∀ x ∈ l, x = 0 := fun x hx => by simpa using (h x).1 (by simp [hx])
      subst ha
      simp only [List.map_cons, List.map_nil, List.eraseDups_cons]
      congr 2
      rw [List.filter_eq_nil_iff.2, List.filter_nil]
      intro b hb
      obtain ⟨x, hx, rfl⟩ := List.mem_map.1 hb
      simp [hl x hx]
  unfold readLoad
  rw [e]

def regR : Region := { regJ with st := .ready, rcb := rcbRaw regJ.raw }

/-- A rectangle of one die, one core on it. -/
def regQ : Region := { regA with st := .ready, rcb := { (default : Rcb) with ctl := 0x200, place := 0x10101 } }

def loadFits (e : Except LErr LoadSet) : Bool := match e with
  | .ok ld => decide (imgSpad ld.img + ((ld.img.drop (imgData ld.img).1).take (imgData ld.img).2).length ≤ 2 ^ 21)
  | .error _ => false

set_option maxRecDepth 1000000 in
theorem wit_RegionsIssue_facts :
    let s := si [(1, regR)]
    s.region? 1 = some regR ∧ issueTurn s 1 regR = true ∧ mayPlace s regR [0] = true ∧ regR.rcb.dual = false ∧ regR.copies = [] ∧ regR.saved = []
    ∧ [0].Nodup ∧ (∀ k ∈ [0], (s.core k).retNow s.clock = .awake) ∧ (∀ e ∈ s.cores, ¬ (e.2.rid = 1 ∧ e.2.run = .starting)) ∧ regR.wins = []
    ∧ (issueTurn (si [(1, regJ)]) 1 regJ = false ∧ mayPlace s regR [24] = false)
    ∧ (issueTurn (si [(1, regQ)]) 1 regQ = true ∧ mayPlace (si [(1, regQ)]) regQ [0] = true ∧ 2 ≤ regQ.rcb.ctl / 2 ^ 8 % 4) := by decide +kernel

theorem loadFits_ok {e : Except LErr LoadSet} (h : loadFits e = true) :
    ∃ ld, e = .ok ld ∧ imgSpad ld.img + ((ld.img.drop (imgData ld.img).1).take (imgData ld.img).2).length ≤ 2 ^ 21 := by
  unfold loadFits at h
  split at h
  · exact ⟨_, rfl, of_decide_eq_true h⟩
  · simp at h

set_option maxRecDepth 1000000 in
theorem wit_RegionsIssue_load : loadFits (readLoad (si [(1, regR)]) regR [0]) = true := by decide +kernel

/-- A READY region that core 0 can hold, with the image that every list of its core reads; one still in the journal; a core that does not exist. -/
theorem wit_RegionsIssue : ∃ ld, (∀ l : List Nat, (∀ k, k ∈ l ↔ k ∈ [0]) → readLoad (si [(1, regR)]) regR l = .ok ld)
    ∧ imgSpad ld.img + ((ld.img.drop (imgData ld.img).1).take (imgData ld.img).2).length ≤ 2 ^ 21 := by
  obtain ⟨ld, e, h⟩ := loadFits_ok wit_RegionsIssue_load
  exact ⟨ld, fun l hl => (readLoad_zero _ _ l hl).trans e, h⟩
def regT (used : Nat) : Region := { reg0 with part := 1, bound := some 1900, timeUsed := used }
def regD (hbmb : Nat) (fin : Bool) (ov : Byte) : Region :=
  { reg0 with part := 1, members := [], rcb := { (default : Rcb) with ctl := 3, hbmb := hbmb }, hbmUsed := 7
              copies := [{ (default : Copy) with cores := [0], overlay := [(5, (1, 0))], pages := [(0, 0)], finished := fin },
                         { (default : Copy) with cores := [32], overlay := [(5, (ov, 0))], pages := [(0, 0)], finished := true }] }

/-- A budget just used up and one cycle short of it; copies that are the same, that differ, that are not finished, and two beyond the budget of
one page each by a byte. -/
theorem wit_BudgetsAndDualRuns :
    (∀ g ∈ [regT 1900, regT 1899, regD 131079 true 1, regD 131079 true 2, regD 131079 false 1, regD 131078 true 1],
        (su [(1, g)]).region? 1 = some g ∧ g.st = .running)
    ∧ (let s (fused : List Nat) := { su [(1, regD 131079 true 2)] with dev := { boot := [(0, 1)], fused := fused } }
       let g := regD 131079 true 2
       let n : Region := { g with st := .ready, waited := 0 }
       g.fin = none ∧ couldPlace ((s []).setRegion 1 n) n = true ∧ couldPlace ((s (List.range 24)).setRegion 1 n) n = false)
    ∧ timeLeft (regT 1900) = some 0 ∧ timeLeft (regT 1899) = some 1
    ∧ (regD 0 true 1).copies = [(regD 0 true 1).copies.getD 0 default, (regD 0 true 1).copies.getD 1 default]
    ∧ (∀ b f v, (regD b f v).rcb.ctl / 2 % 2 = 1)
    ∧ ((regD 131079 false 1).copies.getD 0 default).finished = false
    ∧ (let g := regD 131079 true 1
       let a := g.copies.getD 0 default
       let b := g.copies.getD 1 default
       a.finished = true ∧ b.finished = true ∧ g.hbmUsed + 65536 * a.pages.length + 65536 * b.pages.length ≤ g.rcb.hbmb
       ∧ (a.pages.map Prod.fst = b.pages.map Prod.fst ∧ ∀ key, (smGet (0, 0) a.overlay key).1 = (smGet (0, 0) b.overlay key).1)
       ∧ a.spawns = [] ∧ ∀ p ∈ a.pages, smFind a.pages p.1 = some p.2)
    ∧ (let g := regD 131079 true 2
       ¬ ∀ key, (smGet (0, 0) (g.copies.getD 0 default).overlay key).1 = (smGet (0, 0) (g.copies.getD 1 default).overlay key).1)
    ∧ (let g := regD 131078 true 1
       g.rcb.hbmb < g.hbmUsed + 65536 * (g.copies.getD 0 default).pages.length + 65536 * (g.copies.getD 1 default).pages.length) := by
  refine ⟨by decide +kernel, by decide +kernel, by decide +kernel, by decide +kernel, by decide +kernel, fun _ _ _ => by simp [regD], by decide +kernel,
    ⟨by decide +kernel, by decide +kernel, by decide +kernel, ⟨rfl, fun _ => rfl⟩, rfl, by decide +kernel⟩, fun h => ?_, by decide +kernel⟩
  have := h 5
  revert this; decide +kernel

def regV : Region := { reg0 with part := 1, rcb := { (default : Rcb) with ctl := 0x1008, minc := 1, maxc := 1 } }
def regU : Region := { regA with st := .ready, rcb := { (default : Rcb) with ctl := 0x2000, minc := 24, maxc := 24 } }
def sus (l : SMap Region) : State := { su l id [(0, core0)] with mem := [(5, 9), (hbmKey 0 0, 0x1F)] }

/-- A region of priority 1 beside one of 2 that wants every core of the cluster; none such; a suspended one. -/
theorem wit_RegionsSuspend :
    (su [(1, { regA with st := .suspended })]).region? 1 = some { regA with st := .suspended }
    ∧ (sus [(1, regV), (2, regU)]).region? 1 = some regV ∧ (sus [(1, regV)]).region? 1 = some regV ∧ regV.st = .running ∧ regV.rcb.dual = false
    ∧ (∀ p ∈ (sus [(1, regV)]).regions, ¬ (p.1 ≠ 1 ∧ p.2.part = regV.part ∧ preemptedBy (sus [(1, regV)]) 1 p.2 = true))
    ∧ regV.fail = none ∧ regV.fin = none ∧ regV.copies = [] ∧ regV.members.Nodup ∧ ((sus [(1, regV), (2, regU)]).part regV.part).resetting = false
    ∧ (∃ p ∈ (sus [(1, regV), (2, regU)]).regions, p.1 ≠ 1 ∧ p.2.part = regV.part ∧ preemptedBy (sus [(1, regV), (2, regU)]) 1 p.2 = true)
    ∧ (∀ k ∈ regV.members, ((sus [(1, regV), (2, regU)]).core k).main.wq = [] ∧ ((sus [(1, regV), (2, regU)]).core k).shadow.wq = []) ∧ (sus [(1, regV), (2, regU)]).Inv := by
  refine ⟨by decide +kernel, by decide +kernel, by decide +kernel, rfl, rfl, by decide +kernel, rfl, rfl, rfl, by decide +kernel, by decide +kernel, by decide +kernel,
    by decide +kernel, ?_⟩
  unfold State.Inv
  decide +kernel

def pendK (p : PendKind) (c : Core) : Core := { c with pend := some { kind := p } }

/-- Both members at a yield, at a step, with a read still to be answered, one at each; a thief whose other member has nothing, or two indices. -/
theorem wit_RegionBarriers :
    (∀ f : Nat → Core → Core, (∀ k c, (f k c).run = c.run ∧ (f k c).rid = c.rid ∧ (f k c).copy = c.copy) →
        plainRegion (two f) 1 { reg0 with members := [0, 3], runs := 2 })
    ∧ (∀ p ∈ [PendKind.rgYield 4, PendKind.rgStep 4], ∀ j ∈ [0, 3], ((two fun _ => pendK p).core j).main.rq = [] ∧ ((two fun _ => pendK p).core j).main.wq = []
        ∧ ((two fun _ => pendK p).core j).cmds = [] ∧ ((two fun _ => pendK p).core j).pend = some { kind := p })
    ∧ (let s := two fun k c => pendK (.rgYield 4) (if k = 3 then { c with main := { c.main with rq := [default] } } else c)
       (s.core 3).main.rq ≠ [] ∧ ∀ j ∈ [0, 3], (s.core j).pend = some { kind := .rgYield 4 })
    ∧ (∀ n ∈ [4, 5], let s := two fun k c => pendK (if k == 0 then .rgStep 4 else .rgYield n) c
       let step (j : Nat) : Bool := j == 0
       let k (j : Nat) : Nat := if j = 0 then 4 else n
       [3].find? (fun j => step j != step 0) = some 3
       ∧ ∀ j ∈ [0, 3], (s.core j).main.rq = [] ∧ (s.core j).main.wq = [] ∧ (s.core j).cmds = [] ∧ 0 ≤ (s.core j).cycle
          ∧ (s.core j).pend = some { kind := if step j then .rgStep (k j) else .rgYield (k j) })
    ∧ (let s := two fun k c => if k = 3 then { pendK (.rgNext 0 none) c with rg := { c.rg with untaken := [(7, 8), (9, 12)] } } else c
       ([0, 3] : List Nat)[1]? = some 3 ∧ (s.core 3).rank = 1 ∧ (s.core 3).pend = some { kind := .rgNext 0 none } ∧ (s.core 3).rg.req = []
       ∧ ∀ e ∈ s.cores, ¬ (e.2.rid = 1 ∧ e.2.run = .starting))
    ∧ (∀ l ∈ [([] : List (Nat × Nat)), [(7, 9)]],
        let s := two fun k c => if k = 3 then pendK (.rgNext 0 none) c else { c with rg := { c.rg with untaken := l } }
        ([0, 3] : List Nat)[1]? = some 3 ∧ (s.core 3).rank = 1 ∧ (s.core 3).pend = some { kind := .rgNext 0 none }
        ∧ (s.core 0).rg.untaken = l ∧ (s.core 0).rg.req = [] ∧ ([0, 3] : List Nat)[(1 + 1) % 2]? = some 0 ∧ (s.core 0).pend = none) := by
  refine ⟨fun f h => plain_two f id ?_ ?_ ⟨rfl, rfl, rfl⟩, by decide +kernel⟩
  · exact ⟨(h 0 core0).1, (h 0 core0).2.1, (h 0 core0).2.2⟩
  · exact ⟨(h 3 _).1, (h 3 _).2.1, (h 3 _).2.2⟩

/-- A member with two indices behind its own that the other asks for, and one of two requests. -/
theorem wit_VictimServes :
    let s := two fun k c => if k = 3 then pendK (.rgNext 1 none) c
      else { pendK (.rgNext 0 none) c with rg := { c.rg with untaken := [(7, 10)], req := [(5, 1), (4, 1)] } }
    plainRegion s 1 { reg0 with members := [0, 3], runs := 2 } ∧ ([0, 3] : List Nat)[1]? = some 3 ∧ (s.core 0).asks = some (.rgNext 0 none)
    ∧ (s.core 3).pend = some { kind := .rgNext 1 none, from_ := 0 } ∧ (s.core 3).rg.untaken = [] ∧ (s.core 0).rg.untaken = [(7, 10)] ∧ 7 + 1 < 10
    ∧ firstRequest (s.core 0).rg.req = some (4, 1) := by
  refine ⟨plain_two _ id ⟨rfl, rfl, rfl⟩ ⟨rfl, rfl, rfl⟩ ⟨rfl, rfl, rfl⟩, by decide +kernel⟩

/-- The last share of an empty pool and of one that the members do not divide. -/
theorem wit_SharesDealt : (5 ≤ 5 ∧ 2 < 3) ∧ (0 ≤ 7 ∧ 2 < 3) ∧ 0 ≤ 6 ∧ 6 < 7 := by decide

def fen (f : Core → Core) (oum : BitVec 48 := 0) (sus : List (Nat × Nat) := []) : State :=
  let c : Core := f { core0 with run := .idle }
  { su [(1, { reg0 with part := 1, oum := oum, members := [0, 1] })] id [(0, c), (1, { core0 with run := .starting, ret := .retained })] with
    dev := { boot := [(0, 1)], suspect := sus }, clock := 65536 }

/-- The last class on an idle core and on one whose region has it; the first number that is no class; tests; a core idle for just long enough, one whose
entry has ended, and one whose exit has and has not, beside another member that is not awake. -/
theorem wit_FencesTestsRetention :
    (∀ e ∈ (fen id).regions, 0 ∈ launchClusters (fen id) e.2.part e.2.rcb → e.2.st ≠ .staging ∧ e.2.st ≠ .ready ∧ e.2.st ≠ .suspended)
    ∧ ((fen id).core 0).run = .idle ∧ ((fen id).core 0).test = none ∧ 25 < 26 ∧ 26 ≤ 26
    ∧ (let s := fen (fun c => { c with run := .running }) 0x2000000
       (s.core 0).run = .running ∧ s.region? (s.core 0).rid = some { reg0 with part := 1, oum := 0x2000000, members := [0, 1] }
       ∧ (0x2000000 : BitVec 48).getLsbD 25 = true ∧ reg0.st = .running ∧ reg0.fail = none
       ∧ ∀ e ∈ s.regions, 0 ∈ launchClusters s e.2.part e.2.rcb → e.2.st ≠ .staging ∧ e.2.st ≠ .ready ∧ e.2.st ≠ .suspended)
    ∧ coreFree (fen id 0 [(0, 25)]) 0 = true ∧ (0, 25) ∈ (fen id 0 [(0, 25)]).dev.suspect
    ∧ (let s := fen (fun c => { c with test := some 25 }) 0 [(0, 25)]
       (s.core 0).test = some 25 ∧ (s.core 0).run = .idle
       ∧ ∀ e ∈ s.regions, 0 ∈ launchClusters s e.2.part e.2.rcb → e.2.st ≠ .staging ∧ e.2.st ≠ .ready ∧ e.2.st ≠ .suspended)
    ∧ (((fen id).core 0).ret = .awake ∧ ((fen id).core 0).idle + 65536 ≤ (fen id).clock)
    ∧ (((fen fun c => { c with ret := .entering 65536 }).core 0).ret = .entering 65536 ∧ 65536 ≤ (fen id).clock)
    ∧ (((fen fun c => { c with ret := .leaving 65537 }).core 0).ret = .leaving 65537 ∧ (fen id).clock < 65537)
    ∧ (((fen fun c => { c with ret := .leaving 65536 }).core 0).ret = .leaving 65536
       ∧ ∃ e ∈ (fen fun c => { c with ret := .leaving 65536 }).cores, e.1 ≠ 0 ∧ e.2.rid = ((fen fun c => { c with ret := .leaving 65536 }).core 0).rid
          ∧ e.2.run = .starting ∧ ((fen fun c => { c with ret := .leaving 65536 }).core e.1).ret ≠ .awake
          ∧ e.1 ∈ membersOf (fen fun c => { c with ret := .leaving 65536 }) e.1) := by decide +kernel
theorem leBytes_add (n m v : Nat) : leBytes (n + m) v = leBytes n v ++ leBytes m (v / 256 ^ n) := by
  induction n generalizing v with
  | zero => simp [leBytes]
  | succ n ih =>
    rw [show n + 1 + m = (n + m) + 1 by omega, leBytes, leBytes, ih, Nat.div_div_eq_div_mul, Nat.pow_succ, Nat.mul_comm 256]
    rfl

theorem leBytes_mod (n v : Nat) : leBytes n (v % 256 ^ n) = leBytes n v := by
  induction n generalizing v with
  | zero => rfl
  | succ n ih =>
    simp only [leBytes]
    rw [show 256 ^ (n + 1) = 256 * 256 ^ n by rw [Nat.pow_succ, Nat.mul_comm], Nat.mod_mul_right_div_self, ih]
    congr 1
    apply BitVec.eq_of_toNat_eq
    simp only [BitVec.toNat_ofNat]
    exact Nat.mod_mul_right_mod _ _ _

theorem leBytes_word (v : Nat) : leBytes 8 (BitVec.ofNat 64 v).toNat = leBytes 8 v := by
  rw [BitVec.toNat_ofNat, show 2 ^ 64 = 256 ^ 8 by decide, leBytes_mod]

/-- A partition in RUN whose buffer holds an image for VF 1 with every feature, and whose key is written. -/
def partG (h : BitVec 256) : Part :=
  { part1 with
    tstate := .run, assigns := 3
    dbgkey := [(0, 1), (1, 2), (2, 3), (3, 4)]
    dbgbuf := [(0, 0x344474C50), (1, 3), (2, BitVec.ofNat 64 h.toNat), (3, BitVec.ofNat 64 (h.toNat / 256 ^ 8)), (4, BitVec.ofNat 64 (h.toNat / 256 ^ 16)),
               (5, BitVec.ofNat 64 (h.toNat / 256 ^ 24)), (6, 1)] }

theorem leAt_left (a b : List Byte) (off n : Nat) (h : off + n ≤ a.length) : leAt (a ++ b) off n = leAt a off n := by
  unfold leAt
  rw [List.drop_append_of_le_length (by omega), List.take_append_of_le_length (by rw [List.length_drop]; omega)]

theorem leAt_right (a b : List Byte) (off n : Nat) : leAt (a ++ b) (a.length + off) n = leAt b off n := by
  unfold leAt
  rw [List.drop_append, List.drop_of_length_le (by omega), List.nil_append, Nat.add_sub_cancel_left]

/-- The fields before the hash, and those behind it. -/
def fields0 : List Byte := leBytes 8 0x344474C50 ++ leBytes 8 3
def fields1 : List Byte := leBytes 8 1 ++ leBytes 8 0

theorem image_head (h : BitVec 256) : ∃ rest, policyImage (partG h) = fields0 ++ (leBytes 32 h.toNat ++ (fields1 ++ rest)) := by
  have e : List.range 990 = List.range 8 ++ (List.range 982).map (8 + ·) := List.range_add (m := 982)
  have r : List.range 8 = [0, 1, 2, 3, 4, 5, 6, 7] := by decide
  refine ⟨((List.range 982).map (8 + ·)).flatMap fun i => leBytes 8 (smGet 0 (partG h).dbgbuf i).toNat, ?_⟩
  have d : leBytes 32 h.toNat = leBytes 8 h.toNat ++ (leBytes 8 (h.toNat / 256 ^ 8) ++ (leBytes 8 (h.toNat / 256 ^ 16) ++ leBytes 8 (h.toNat / 256 ^ 24))) := by
    rw [show 32 = 8 + (8 + (8 + 8)) from rfl, leBytes_add, leBytes_add, leBytes_add, Nat.div_div_eq_div_mul, Nat.div_div_eq_div_mul, ← Nat.pow_add,
      ← Nat.pow_add]
  have g (i : Nat) (w : Word) (h' : smGet 0 (partG h).dbgbuf i = w) : leBytes 8 (smGet 0 (partG h).dbgbuf i).toNat = leBytes 8 w.toNat := by rw [h']
  unfold policyImage
  rw [e, List.flatMap_append, r]
  simp only [List.flatMap_cons, List.flatMap_nil, List.append_nil]
  rw [d, g 0 0x344474C50 rfl, g 1 3 rfl, g 2 (BitVec.ofNat 64 h.toNat) rfl, g 3 (BitVec.ofNat 64 (h.toNat / 256 ^ 8)) rfl,
    g 4 (BitVec.ofNat 64 (h.toNat / 256 ^ 16)) rfl, g 5 (BitVec.ofNat 64 (h.toNat / 256 ^ 24)) rfl, g 6 1 rfl, g 7 0 rfl, leBytes_word, leBytes_word,
    leBytes_word, leBytes_word, show (0x344474C50 : Word).toNat = 0x344474C50 by decide, show (3 : Word).toNat = 3 by decide,
    show (1 : Word).toNat = 1 by decide, show (0 : Word).toNat = 0 by decide]
  simp only [List.append_assoc, fields0, fields1]

/-- Such an image is accepted exactly where its signature is valid, the hash being free (log entry 4). -/
theorem policyOk_signature :
    policyOk (partG Config.leafCertHash) 1 = slhValid (policyKey (partG Config.leafCertHash))
      ((policyImage (partG Config.leafCertHash)).take 0x40) (((policyImage (partG Config.leafCertHash)).drop 0x40).take 7856) := by
  obtain ⟨rest, e⟩ := image_head Config.leafCertHash
  have l : (leBytes 32 Config.leafCertHash.toNat).length = 32 := Sys2Proof.Laws.length_leBytes _ _
  have f0 : fields0.length = 16 := by decide
  have f1 : fields1.length = 16 := by decide
  have d : (policyImage (partG Config.leafCertHash)).drop 16 = leBytes 32 Config.leafCertHash.toNat ++ (fields1 ++ rest) := by
    rw [e, List.drop_append, f0, List.drop_of_length_le (by omega)]; simp
  have a0 : leAt (policyImage (partG Config.leafCertHash)) 0 4 = 0x44474C50 := by rw [e, leAt_left _ _ _ _ (by omega)]; decide
  have a1 : leAt (policyImage (partG Config.leafCertHash)) 4 4 = 3 := by rw [e, leAt_left _ _ _ _ (by omega)]; decide
  have a2 : leAt (policyImage (partG Config.leafCertHash)) 8 8 = 3 := by rw [e, leAt_left _ _ _ _ (by omega)]; decide
  have t : ((policyImage (partG Config.leafCertHash)).drop 16).take 32 = leBytes 32 Config.leafCertHash.toNat := by
    rw [d, List.take_append_of_le_length (by omega), List.take_of_length_le (by omega)]
  have u (off n : Nat) (h : off + n ≤ 16) : leAt (policyImage (partG Config.leafCertHash)) (48 + off) n = leAt fields1 off n := by
    rw [e, ← List.append_assoc, show 48 = (fields0 ++ leBytes 32 Config.leafCertHash.toNat).length by rw [List.length_append, l, f0], leAt_right,
      leAt_left _ _ _ _ (by omega)]
  have a3 : leAt (policyImage (partG Config.leafCertHash)) 0x30 4 = 1 := by rw [show 0x30 = 48 + 0 from rfl, u _ _ (by omega)]; decide
  have a4 : leAt (policyImage (partG Config.leafCertHash)) 0x34 12 = 0 := by rw [show 0x34 = 48 + 4 from rfl, u _ _ (by omega)]; decide
  have k : ((List.range 4).all fun i => (smFind (partG Config.leafCertHash).dbgkey i).isSome) = true := by simp [partG, smFind, List.range, List.range.loop]
  have n : (partG Config.leafCertHash).assigns = 3 := rfl
  unfold policyOk
  simp only [k, a0, a1, a2, a3, a4, t, n, beq_self_eq_true, Bool.and_true, Bool.true_and]
  generalize slhValid _ _ _ = v
  cases v <;> decide
def pg (t : TState) (f : Part → Part := id) (regs : SMap Region := []) : State := su regs fun p => f { p with tstate := t }

/-- Each state of the interface; both values of bit 4; the last value that fits each register and the first that does not; a region that runs and one
that is suspended. -/
theorem wit_PageRegisters :
    (∀ t ∈ [TState.configUnlocked, .run, .configLocked, .error], vfUp (pg t) 1 = true ∧ ((pg t).part 1).tstate = t)
    ∧ (16 : Word).getLsbD 4 = true ∧ (0xFFEF : Word).getLsbD 4 = false
    ∧ (0xFFFFFFFF : Word).toNat / 2 ^ 32 = 0 ∧ (0x100000000 : Word).toNat / 2 ^ 32 ≠ 0
    ∧ (0x100 : Word).toNat % 2 ^ 8 = 0 ∧ (0xFF : Word).toNat % 2 ^ 8 ≠ 0 ∧ (0xFFF : Word).toNat / 2 ^ 12 = 0 ∧ (0x1000 : Word).toNat / 2 ^ 12 ≠ 0
    ∧ ((0xFFFFFFFE00001 : Word).toNat / 2 ^ 52 = 0 ∧ (0xFFFFFFFE00001 : Word).toNat / 2 % 2 ^ 20 = 0) ∧ (0x10000000000000 : Word).toNat / 2 ^ 52 ≠ 0
    ∧ (2 : Word).toNat / 2 % 2 ^ 20 ≠ 0 ∧ (7 : Word).toNat / 2 ^ 3 = 0
    ∧ (¬ ∃ e ∈ (pg .run).regions, e.2.part = 1 ∧ (e.2.st = .running ∨ e.2.st = .suspended))
    ∧ ∀ r ∈ [RegionSt.running, .suspended], ∃ e ∈ (pg .run id [(1, { regA with st := r })]).regions, e.2.part = 1 ∧ (e.2.st = .running ∨ e.2.st = .suspended) := by
  decide +kernel

def snapS (feat : BitVec 32) (n : Nat) : State :=
  { pg .run (fun p => { p with feat := feat, dbgsel := BitVec.ofNat 64 (n + 3 * 2 ^ 12 + 1 * 2 ^ 32) }) [(1, { regA with st := .done, feat := feat })] with
    cores := [(0, { (default : Core) with snapOf := some (1, 3), snap := [(n, 77)] })] }

/-- An image whose signature alone decides, a key word that is missing, a quiet interface; the first and last numbers of a snapshot's values, with the
feature and without. -/
theorem wit_DebugPolicy :
    (let s := su [] fun _ => partG Config.leafCertHash
     vfUp s 1 = true ∧ (s.part 1).tstate = .run ∧ smRising 0 s.parts = true ∧ wbits (s.part 1).intctl 2 1 = 0
     ∧ policyOk (s.part 1) 1 = slhValid (policyKey (partG Config.leafCertHash)) ((policyImage (partG Config.leafCertHash)).take 0x40)
        (((policyImage (partG Config.leafCertHash)).drop 0x40).take 7856)
     ∧ (smFind (s.part 1).dbgkey 3).isSome = true)
    ∧ (vfUp (pg .run) 1 = true ∧ ((pg .run).part 1).tstate = .run ∧ smRising 0 (pg .run).parts = true ∧ wbits ((pg .run).part 1).intctl 2 1 = 0
       ∧ smFind ((pg .run).part 1).dbgkey 3 = none ∧ policyOk ((pg .run).part 1) 1 = false)
    ∧ ((0 : Word) ≠ 1 ∧ (0 : Word) ≠ 2)
    ∧ ((snapS 1 0x100).part 1).feat.getLsbD 1 = false ∧ (∀ e ∈ (pg .run).cores, e.2.snapOf = none ∨ e.2.run = .running)
    ∧ ({ regA with feat := 1 } : Region).feat.getLsbD 1 = false
    ∧ ∀ n ∈ [0x100, 0x1FF], let s := snapS 2 n
        vfUp s 1 = true ∧ (s.part 1).tstate = .run ∧ smRising 0 s.parts = true ∧ ({ regA with feat := 2 } : Region).feat.getLsbD 1 = true
        ∧ 0x100 ≤ wbits (s.part 1).dbgsel 0 12 ∧ wbits (s.part 1).dbgsel 0 12 < 0x200
        ∧ s.cores = [(0, { (default : Core) with snapOf := some (1, 3), snap := [(n, 77)] })]
        ∧ some (1, 3) = some (1, wbits (s.part 1).dbgsel 12 20) ∧ s.region? 1 = some { regA with st := .done, feat := 2 } ∧ (default : Core).run ≠ .running
        ∧ regA.part = 1 ∧ regA.chan = none ∧ regA.seq % 2 ^ 32 = wbits (s.part 1).dbgsel 32 32 := by
  have h : policyOk ((su [] fun _ => partG Config.leafCertHash).part 1) 1 = policyOk (partG Config.leafCertHash) 1 := rfl
  refine ⟨⟨rfl, rfl, rfl, by decide +kernel, h.trans policyOk_signature, rfl⟩, by decide +kernel⟩

/-- An idle partition, with a region that is gone; the states that each request refuses. -/
theorem wit_SecurityStates :
    (let s := pg .configUnlocked id [(1, { regA with st := .gone })]
     vfUp s 1 = true ∧ (s.part 1).tstate = .configUnlocked ∧ (s.part 1).resetting = false ∧ ∀ e ∈ s.regions, e.2.part = 1 → e.2.st = .gone)
    ∧ ∀ t ∈ [TState.run, .configLocked, .error], vfUp (pg t) 1 = true ∧ ((pg t).part 1).tstate = t := by decide +kernel

def rs (q t : Nat) : State := su [(1, { reg0 with part := 1 }), (2, { reg0 with part := 2 })] (fun p => { p with qwd := w64 q, qtimer := t }) [(0, core0)]

/-- A member on a core of its own partition, beside another partition's region; a watchdog of 5 microseconds at its end and just before it, and none. -/
theorem wit_PartitionReset :
    ((∀ e ∈ (rs 0 0).cores, ∀ g, (rs 0 0).region? e.2.rid = some g → e.2.run ≠ .idle → (g.part = 1 ↔ partOfCore (rs 0 0) e.1 = 1))
      ∧ (∀ e ∈ (rs 0 0).cores, e.2.run ≠ .idle → ((rs 0 0).region? e.2.rid).isSome = true) ∧ smRising 0 (rs 0 0).regions = true
      ∧ (rs 0 0).region? 2 = some { reg0 with part := 2 } ∧ (rs 0 0).region? 1 = some { reg0 with part := 1 })
    ∧ (let s := rs 5 (5 * Config.usTime)
       0 < wbits (s.part 1).qwd 0 32 ∧ wbits (s.part 1).qwd 0 32 * Config.usTime ≤ (s.part 1).qtimer
      ∧ (s.part 1).resetting = false ∧ ∃ e ∈ s.regions, e.2.part = 1 ∧ e.2.st = .running)
    ∧ ((rs 5 (5 * Config.usTime - 1)).part 1).qtimer < wbits ((rs 5 0).part 1).qwd 0 32 * Config.usTime ∧ wbits ((rs 0 0).part 1).qwd 0 32 = 0
    ∧ (pg .configUnlocked |>.part 1).formed = true ∧ (pg .configUnlocked |>.part 1).tstate = .configUnlocked := by
  refine ⟨⟨fun e he g h _ => ?_, by decide +kernel⟩, by decide +kernel⟩
  have e1 : e = (0, core0) := by simpa [rs, su] using he
  subst e1
  have e2 : some { reg0 with part := 1 } = some g := h
  cases e2
  exact ⟨fun _ => by decide +kernel, fun _ => rfl⟩

def reqF (cl : List Nat) (tenant := 0) (share := 32) : PartReq :=
  { part := 2080, form := true, clusters := cl, tenant := tenant, share := [(share, 527, 1)], weight := 255, rectX := 0, rect := [], shared := [(62, 1)], privOk := true
    stage2 := [{ (default : S2Map) with gpa := 2 ^ 40, len := 2 ^ 30, pa := 527 * 2 ^ 30, mod := share, host := false }] }
def boot1 (d : Device → Device := id) : State := { State.reset with dev := d { boot := [(0, 1), (32, 1)] }, parts := [(1, part1)] }

/-- A module before its boot, and one that runs; VF 32 of module 32 in a cluster of its own, and in one that VF 1 has; the limits of each setting. -/
theorem wit_FirmwareEvents :
    (smGet 0 State.reset.dev.boot 32 = 0 ∧ 32 ∉ State.reset.dev.off ∧ State.reset.dev.fences = []) ∧ 2 < 3 ∧ smGet 0 (boot1).dev.boot 32 ≠ 0
    ∧ partRefused boot1 (reqF [0]) = true ∧ (reqF [0]).form = true ∧ 0 ∈ (reqF [0]).clusters ∧ 0 / 32 ≠ 2080 / 64
    ∧ (∃ e ∈ (boot1).parts, e.1 ≠ (reqF [0]).part ∧ e.2.formed = true ∧ 0 ∈ e.2.clusters)
    ∧ (partRefused boot1 (reqF [1024]) = false ∧ ((boot1).part (reqF [1024]).part).formed = false)
    ∧ ((62, 1) ∈ (reqF [1024] 7).shared ∧ ∀ o ∈ (boot1).parts, ¬ (o.1 = 1 ∧ o.2.formed = true ∧ o.2.tenant = 7))
    ∧ ((0, 527, 1) ∈ (reqF [1024] 0 0).share ∧ 0 ≠ 2080 / 64)
    ∧ (1200 ≤ 1200 ∧ 1200 ≤ 2600 ∧ 2600 ≤ 2600) ∧ (1199 < 1200 ∧ 2600 < 2601)
    ∧ (∀ d : Device → Device, d = (fun d => { d with lanes := [(32, 8)] }) →
        4 < smGet 16 (boot1 d).dev.lanes 32 ∧ 8 < smGet 16 (boot1).dev.lanes 32 ∧ smGet 16 (boot1 d).dev.lanes 32 ≤ 8)
    ∧ (32 ≤ 32 ∧ (32, 32) ∉ (boot1).dev.ide) ∧ smGet 0 State.reset.dev.boot 32 ≠ 1 ∧ 32 < 33
    ∧ (boot1 fun d => { d with overheat := [32] }).dev.overheat = [32] ∧ (boot1).dev.overheat = []
    ∧ (∃ e ∈ (boot1).parts, e.1 ≠ 2080 ∧ e.2.formed = true ∧ e.2.tenant ≠ (reqF [1024] 7).tenant ∧ e.1 ∈ ({ reqF [1024] 7 with rect := [1] } : PartReq).rect)
    ∧ (∃ m ∈ (reqF [1024] 0 32).stage2, m.host = false ∧ m.pa < (527 + 1) * 2 ^ 30 ∧ 527 * 2 ^ 30 < m.pa + m.len
        ∧ inShare ({ reqF [1024] with share := [] } : PartReq).share (hbmKey m.mod (527 * 2 ^ 30)) = false)
    ∧ 527 < hbmGranules
    ∧ (smGet 2600 (boot1).dev.powerCap 0 < (⟨2601, 95⟩ : Reading).power ∧ 95 < (⟨2600, 96⟩ : Reading).junction
        ∧ (⟨2600, 95⟩ : Reading).power ≤ smGet 2600 (boot1).dev.powerCap 0)
    ∧ ((boot1).part (64 * 32 + 32)).policy = [] ∧ ∀ e ∈ (boot1).parts, e.1 / 64 ≠ 32 := by
  refine ⟨by decide +kernel, by decide, by decide +kernel, by decide +kernel, by decide, by decide, by decide, by decide +kernel, by decide +kernel,
    by decide +kernel, by decide +kernel, by decide, by decide, ?_, by decide +kernel⟩
  rintro _ rfl
  decide +kernel

/-- The example of FIPS 180-4 with the message of one block, "abc". -/
theorem test_sha256 : beNat (sha256 [0x61, 0x62, 0x63]) = 0xBA7816BF8F01CFEA414140DE5DAE2223B00361A396177A9CB410FF61F20015AD := by decide +kernel

def hs (p : Part → Part := id) : State := { su [] p with mem := [(hbmKey 0 0, 0x1F), (hbmKey 0 0x200, 5)] }

/-- The last bytes of the mapping; a byte past them, and a page that may only be read; a sum, a swap and a comparison that holds and one that does not,
with A and without. -/
theorem wit_HostAccesses :
    vfUp hs 1 = true ∧ (hostRange ((hs).part 1) (2 ^ 30 - 4) 4 false).isSome = true
    ∧ (∃ keys, hostRange ((hs).part 1) (2 ^ 30 - 4) ([1, 2, 3, 4] : List Byte).length true = some keys ∧ keys.Nodup)
    ∧ hostRange ((hs).part 1) (2 ^ 30 - 3) ([1, 2, 3, 4] : List Byte).length true = none
    ∧ hostRange ((hs fun p => { p with stage2 := [{ map1 with wr := false }] }).part 1) 0 ([1] : List Byte).length true = none
    ∧ (deviceMap ((hs).part 1) 0x200 = some map1 ∧ map1.wr = true ∧ 2 ≤ 2)
    ∧ ({ map1 with wr := false } : S2Map).wr = false ∧ pageHasA hs ((hs).part 1) map1.mod 0x200 = true ∧ 0x200 % (64 / 8) = 0 ∧ 0x200 % (32 / 8) = 0
    ∧ pageHasA (hs fun p => { p with s1root := 0 }) ((hs fun p => { p with s1root := 0 }).part 1) map1.mod 0x200 = false
    ∧ (let old := leNat (((List.range 8).map fun i => s2Key map1 (0x200 + i)).map fun a => memRead hs a 0)
       old = 5 % 2 ^ 64 ∧ old ≠ 6 % 2 ^ 64) := by
  refine ⟨by decide +kernel, by decide +kernel, ⟨_, rfl, by decide +kernel⟩, by decide +kernel⟩

/-! ### Decoding, steps and the invariant: witnesses -/

/-- A word of each stream with every field at its top; a word that no encoding has. -/
theorem wit_DecodeEncode : (Instr.add { hd with vs := 1, g := 7 } 31 31 31).stream = some .ap ∧ (Instr.add { hd with vs := 1, g := 7 } 31 31 31).isIllegal = false
    ∧ (Instr.mxNop hd).stream = some .mx ∧ (Instr.mxNop hd).isIllegal = false
    ∧ (Instr.vmulF32 hd 31 31 31).stream = some .vx ∧ (Instr.vmulF32 hd 31 31 31).isIllegal = false
    ∧ (decodeStream .ap 0x001B0000).isIllegal = true ∧ (decodeStream .ap 0x00010001).isIllegal = true := by decide +kernel

/-- A core with an AP word, an MXE word and a bundle. -/
def stepS (ph : Phase) (ag : List Instr := []) (f : Core → Core := id) : State :=
  { st (fun c => f { c with apIm := [(0, 0x8E), (1, 0x29), (2, 1), (3, 0x10)], mxIm := [(3, 0x84)], vxIm := [(2, 0x7C), (6, 0x7C), (10, 0x7C)]
                            mx := { c.mx with routine := some 0 } }) with turn := (0, ph), agenda := ag }

/-- The bundle at VPC can be fetched, and none of its words faults at decode. -/
noncomputable def stands (c : Core) : Bool :=
  c.vx.bad.isNone && !overlayTargets c 5 c.vx.vpc.toNat && decide ((Stream.vx, c.vx.vpc.toNat) ∉ c.imBad) && (bundleFault c (bundleAt c)).isNone

/-- A bundle with a `vext` and the one it extends, which stands, or faults at decode in slot 2. -/
theorem wit_unitRuns : ∀ b ∈ [(0x6A : Byte), 0x7C],
    let s := stepS .vx [] fun c => { c with vxIm := [(2, 0x7C), (6, 0x7C), (10, 0x7F), (14, 0x7C), (18, 0x7C), (20, 5), (22, b)] }
    let next (v : State) : State := unitNext (bundleRun (bundleAt s.cur) v)
    let joins (v : State) : Prop := (bundleRun (bundleAt s.cur) v).cur.run = .running ∧ (bundleRun (bundleAt s.cur) v).cur.vc.atRet = false
    let c := (next s).cur
    let pops := bundlePops s.cur (bundleAt s.cur) ++ bundlePops c (bundleAt c)
    let g := s.modCur fun c => unitPop c pops
    stands s.cur = true ∧ anyVext (bundleAt s.cur) = true ∧ joins s
      ∧ (b = 0x6A → stands c = true ∧ anyVext (bundleAt c) = false ∧ tokensWait s.cur pops = none ∧ queuesReady s.cur (bundleAt s.cur) = true
          ∧ queuesReady c (bundleAt c) = true ∧ joins g ∧ stands (next g).cur = true ∧ queuesReady g.cur (bundleAt s.cur) = true
          ∧ queuesReady (next g).cur (bundleAt c) = true)
      ∧ (b = 0x7C → c.vx.bad = none ∧ overlayTargets c 5 c.vx.vpc.toNat = false ∧ (Stream.vx, c.vx.vpc.toNat) ∉ c.imBad
          ∧ bundleFault c (bundleAt c) = some (2, 4)) := by decide +kernel

/-- Each phase's turn, the first of two words at the pc that are an `ext` and the word it extends, a bundle whose queues are ready, one that finds LQV
empty, a stream that waits for its pushes, and an agenda. -/
theorem wit_StepRuns :
    (let s := stepS .ap
     s.agenda = [] ∧ s.turn.2 = Phase.ap ∧ apRuns s = true ∧ s.cur.ctx.bad = none ∧ apFetchWaits s = false
     ∧ apImBad s.cur = false ∧ extLeads s.cur = false ∧ decodeAp (apWordAt s.cur) = .add { hd with sn := true } 5 6 7)
    ∧ (let s := stepS .ap [] fun c => { c with apIm := [(0, 36), (2, 0x7F), (4, 0x8E), (5, 0x29), (6, 1), (7, 0x10)] }
       apRuns s = true ∧ s.cur.ctx.bad = none ∧ apFetchWaits s = false ∧ apImBad s.cur = false ∧ extLeads s.cur = true
       ∧ decodeAp (apWordAt s.cur) = .ext 36)
    ∧ (let s := stepS .mx
       s.agenda = [] ∧ s.turn.2 = Phase.mx ∧ streamsRun s = true ∧ s.cur.mx.routine.isSome = true
       ∧ s.cur.mx.window.busy ≤ s.cur.cycle ∧ s.cur.mx.mpc ≤ 4095 ∧ overlayTargets s.cur 4 s.cur.mx.mpc = false
       ∧ (Stream.mx, s.cur.mx.mpc) ∉ s.cur.imBad ∧ decodeMx (imWord s.cur.mxIm s.cur.mx.mpc) = .mxNop { hd with wp := true, vs := 1 })
    ∧ (let s := stepS .vx
       s.agenda = [] ∧ s.turn.2 = Phase.vx ∧ streamsRun s = true ∧ s.cur.vc.atRet = false ∧ s.cur.vx.busy ≤ s.cur.cycle ∧ s.cur.vx.hold ≤ s.cur.cycle
       ∧ stands s.cur = true ∧ bundleAt s.cur = [.vnop hd, .vnop hd, .vnop hd] ∧ anyVext (bundleAt s.cur) = false
       ∧ tokensWait s.cur (bundlePops s.cur (bundleAt s.cur)) = none ∧ queuesReady s.cur (bundleAt s.cur) = true
       ∧ then_ (exec (slotAt [.vnop hd, .vnop hd, .vnop hd] 2) (s.modCur fun c => c.atSlot 2)) (fun u => u.cur.run == .running) = true)
    ∧ (let s := stepS .vx [] fun c => { c with vxIm := [(2, 0x7C), (5, 8), (6, 0x58), (10, 0x7C)] }
       stands s.cur = true ∧ bundleAt s.cur = [.vnop hd, .vpop hd 1 0, .vnop hd] ∧ tokensWait s.cur (bundlePops s.cur (bundleAt s.cur)) = none
       ∧ queuesReady s.cur (bundleAt s.cur) = false)
    ∧ tokensWait (stepS .vx [] fun c => { c with pushWait := [(.vx, 0, 1)] }).cur [] = some 2
    ∧ (stepS .ap [.powerOn ⟨0, none⟩ []]).agenda = .powerOn ⟨0, none⟩ [] :: [] := by decide +kernel

/-- A state in canonical form that a step leads on from. -/
theorem wit_StepKeepsInv : Memory.wf (stepS .ap).mem = true ∧ then_ (step (stepS .ap)) (fun t => Memory.wf t.mem) = true := by decide +kernel
/-! ### Words of the spec's encoding tables

The words of 02_encoding.md R37, 06_ap_instr.md, 08_vxe_instr.md, 09_vxe_program.md, 11_mxe_instr.md, 13_bte.md, 14_link.md, 16_seed.md, 18_weir.md and
20_quern.md, with the operands that the spec writes beside them. -/

theorem test_decode_alu : decodeAp 0x1001298E = .add { hd with sn := true } 5 6 7 ∧ decodeAp 0x812018FF = .addi { hd with wp := true, g := 2 } 3 3 63
    ∧ decodeAp 0x0017299E = .sext hd 5 6 15 ∧ decodeAp 0x001839FE = .zext hd 7 7 31 ∧ decodeAp 0x000F189A = .mul hd 3 2 13
    ∧ decodeAp 0x000120D8 = .add hd 4 3 12 ∧ decodeAp 0x00274B45 = .movi hd 9 837 ∧ decodeAp 0x007F0024 = .ext 0x24 ∧ decodeAp 0x0027C001 = .movi hd 24 1 := by
  decide +kernel

theorem test_decode_flow : decodeAp 0x0030990A = .cmp hd 4 3 4 5 ∧ decodeAp 0x003191CA = .cmpi hd 2 2 7 10 ∧ decodeAp 0x00326087 = .plog hd 3 4 2 3
    ∧ decodeAp 0x003B0144 = .lset hd 0 5 4 ∧ decodeAp 0x01BA6F80 = .bxfer { hd with g := 3 } 1 2 31 := by decide +kernel

theorem test_decode_memory : decodeAp 0x00422281 = .ldWu hd 4 10 0 ∧ decodeAp 0x00482A96 = .ldq hd 5 10 11 ∧ decodeAp 0x00482116 = .ldq hd 4 4 11
    ∧ decodeAp 0x0049025A = .stq hd 9 13 ∧ decodeAp 0x004A3800 = .popq hd 7 ∧ decodeAp 0x004A1001 = .popqP hd 2 ∧ decodeAp 0x004C0003 = .qkill hd 3
    ∧ decodeAp 0x00500283 = .redAdd hd 10 1 ∧ decodeAp 0x0059228A = .amoCas hd 4 10 5 ∧ decodeAp 0x005D3284 = .amoFaddlim hd 6 10 2 := by decide +kernel

theorem test_decode_system : decodeAp 0x00780015 = .trap hd 21 ∧ decodeAp 0x00790000 = .eret hd ∧ decodeAp 0x007C0000 = .wfe hd
    ∧ decodeAp 0x007A2800 = .sysr hd 5 0 ∧ decodeAp 0x007B3040 = .sysw hd 6 0x040 ∧ decodeAp 0x007A4000 = .sysr hd 8 0 := by decide +kernel

theorem test_decode_engines : decodeAp 0x00602940 = .mxtab hd 5 5 ∧ decodeAp 0x00610980 = .mxfmt hd 1 6 ∧ decodeAp 0x006209C0 = .mxpert hd 1 7
    ∧ decodeAp 0x00630000 = .mxgo hd 0 ∧ decodeAp 0x00640000 = .mxwait hd ∧ decodeAp 0x0065014C = .vxcall hd 5 6 ∧ decodeAp 0x00660000 = .vxwait hd
    ∧ decodeAp 0x00670500 = .btcfg hd 0 20 ∧ decodeAp 0x00671D40 = .btcfg hd 3 21 ∧ decodeAp 0x006801C0 = .btgo hd 0 7 ∧ decodeAp 0x00680A00 = .btgo hd 1 8
    ∧ decodeAp 0x00690800 = .btwait hd 1 ∧ decodeAp 0x00690001 = .btwaitAll hd := by decide +kernel

theorem test_decode_link : decodeAp 0x00740050 = .cxPut hd 20 ∧ decodeAp 0x00741050 = .cxGet hd 20 ∧ decodeAp 0x007422A8 = .cxWcnt hd 5 10 0
    ∧ decodeAp 0x007422A9 = .cxWcnt hd 5 10 1 ∧ decodeAp 0x00743300 = .cxSbar hd 6 ∧ decodeAp 0x00744050 = .cxAred hd 20 ∧ decodeAp 0x00745060 = .cxAgath hd 24
    ∧ decodeAp 0x00746380 = .cxAbort hd 7 ∧ decodeAp 0x00747300 = .cxBar hd 6 := by decide +kernel

theorem test_decode_weir : decodeAp 0x006A2D00 = .wlOpen hd 5 20 ∧ decodeAp 0x006B31C0 = .wlSlot hd 6 7 ∧ decodeAp 0x006C0296 = .wlRsv hd 10 11
    ∧ decodeAp 0x006D6296 = .wlTest hd 12 10 11 ∧ decodeAp 0x006D1297 = .wlTestP hd 2 10 11 ∧ decodeAp 0x006E0296 = .wlRels hd 10 11
    ∧ decodeAp 0x00702800 = .wlRound hd 5 ∧ decodeAp 0x00710000 = .wlClose hd := by decide +kernel

theorem test_decode_quern_seed : decodeAp 0x0072004C = .pbClaim hd 19 ∧ decodeAp 0x00721051 = .pbLoad hd 20 1 ∧ decodeAp 0x00722050 = .pbColour hd 20 0
    ∧ decodeAp 0x00723060 = .pbClamp hd 24 ∧ decodeAp 0x00724070 = .pbSweep hd 28 0 ∧ decodeAp 0x00724072 = .pbSweep hd 28 2 ∧ decodeAp 0x00725040 = .pbRead hd 16
    ∧ decodeAp 0x00726061 = .pbMom hd 24 1 ∧ decodeAp 0x00727000 = .pbFree hd ∧ decodeAp 0x007302A8 = .sdSeed hd 5 10 ∧ decodeAp 0x00731050 = .sdEmit hd 20
    ∧ decodeAp 0x00732060 = .sdApply hd 24 ∧ decodeAp 0x00733050 = .sdGap hd 20 ∧ decodeAp 0x00734060 = .sdFetch hd 24 ∧ decodeAp 0x00735040 = .sdKey hd 16 := by
  decide +kernel

theorem test_decode_mx : decodeMx 0x84000000 = .mxNop { hd with wp := true, vs := 1 } ∧ decodeMx 0x00010800 = .mxLdw hd 1 ∧ decodeMx 0x00018000 = .mxLdw hd 16
    ∧ decodeMx 0x00030410 = .mxRun hd 0 144 0 ∧ decodeMx 0x000302E0 = .mxRun hd 0 96 3 ∧ decodeMx 0x00040080 = .mxZero hd 2
    ∧ decodeMx 0x10051070 = .mxDrain { hd with sn := true } 0 1 0 48 1 ∧ decodeMx 0x000700C0 = .mxChk hd 3 ∧ decodeMx 0x00090801 = .mxFsel hd 1 0 1
    ∧ decodeMx 0x038A0000 = .mxRet { hd with g := 7 } := by decide +kernel

theorem test_decode_vx : decodeVx 0x00021844 = .vmulF32 hd 3 1 2 ∧ decodeVx 0x807C0000 = .vnop { hd with wp := true } ∧ decodeVx 0x001C510A = .vcmpF16 hd 2 2 4 5
    ∧ decodeVx 0x003E13E8 = .vsplat hd 2 1000 ∧ decodeVx 0x00402988 = .vcvt hd 5 6 4 ∧ decodeVx 0x00432886 = .vpack hd 5 2 3 ∧ decodeVx 0x004E4A04 = .vtopk hd 9 8 2
    ∧ decodeVx 0x005028C6 = .trow hd 70 1 3 ∧ decodeVx 0x80580800 = .vpop { hd with wp := true } 1 0 ∧ decodeVx 0x006A0D06 = .vlset hd 0 1 0x506
    ∧ decodeVx 0x006C284D = .vwin hd 5 77 ∧ decodeVx 0x007020DA = .vgrt hd 4 3 3 1 ∧ decodeVx 0x00102044 = .vaddF16 hd 4 1 2 ∧ decodeVx 0x005B0180 = .veq hd 6
    ∧ decodeVx 0x00233A12 = .vfmaBf16 hd 7 8 9 ∧ decodeVx 0x004C4A00 = .vred hd 9 8 0 ∧ decodeVx 0x00630040 = .vmsk hd 1 ∧ decodeVx 0x006B0000 = .vret hd := by
  decide +kernel

/-- A reserved opcode of each stream, and a word with a field that must be zero. -/
theorem test_decode_refused : decodeAp 0x001B0000 = .illegalOpcode .ap 0x001B0000 ∧ decodeAp 0x00010001 = .illegalField .ap 0x00010001
    ∧ decodeMx 0x000B0000 = .illegalOpcode .mx 0x000B0000 ∧ decodeVx 0x007C0001 = .illegalField .vx 0x007C0001 := by decide +kernel

/-- The table's words go to the stream that has them, and to the machine's next step. -/
theorem test_table_word : decodeTableWord 32 0x1001298E = some (.add { hd with sn := true } 5 6 7)
    ∧ then_ (step (State.reset.withFetchWord 32 0x1001298E)) (fun t => (t.core 0).main.pc == 1) = true := by decide +kernel

/-! ### Ill-formed terms -/

theorem test_wf_good : (Instr.add hd 1 2 3).wf = true ∧ (Instr.vcvt hd 1 2 15).wf = true ∧ (Instr.mxRun hd 16 192 7).wf = true
    ∧ (Instr.rgSpawn hd 0 30).wf = true ∧ (Instr.capabilityFence 23 25).wf = true ∧ (Instr.hostAtomic 1 2 128 0 0 0).wf = true := by decide +kernel

theorem test_wf_header : (Instr.add { hd with vs := 2 } 1 2 3).wf = false ∧ (Instr.mxNop { hd with vs := 3 }).wf = false ∧ (Instr.vnop { hd with vs := 2 }).wf = false := by
  decide +kernel

theorem test_wf_ap : (Instr.cmp hd 6 0 0 0).wf = false ∧ (Instr.ldq hd 3 0 0).wf = false ∧ (Instr.fence hd 3 0).wf = false ∧ (Instr.fence hd 0 5).wf = false
    ∧ (Instr.amoIncb hd 1 0 0).wf = false ∧ (Instr.amoFaddlim hd 3 0 0).wf = false ∧ (Instr.mxtab hd 7 0).wf = false ∧ (Instr.mxfmt hd 16 0).wf = false
    ∧ (Instr.mxpert hd 3 0).wf = false ∧ (Instr.cxWcnt hd 0 0 2).wf = false := by decide +kernel

/-- A register group that would pass x31. -/
theorem test_wf_groups : (Instr.wlOpen hd 0 31).wf = false ∧ (Instr.pbLoad hd 30 0).wf = false ∧ (Instr.pbColour hd 30 0).wf = false ∧ (Instr.pbClamp hd 30).wf = false
    ∧ (Instr.pbSweep hd 29 0).wf = false ∧ (Instr.pbRead hd 31).wf = false ∧ (Instr.pbMom hd 30 0).wf = false ∧ (Instr.sdEmit hd 29).wf = false
    ∧ (Instr.sdApply hd 30).wf = false ∧ (Instr.sdGap hd 30).wf = false ∧ (Instr.sdFetch hd 29).wf = false ∧ (Instr.sdKey hd 30).wf = false
    ∧ (Instr.cxPut hd 29).wf = false ∧ (Instr.cxGet hd 29).wf = false ∧ (Instr.cxWcnt hd 0 31 0).wf = false ∧ (Instr.cxAred hd 28).wf = false
    ∧ (Instr.cxAgath hd 29).wf = false ∧ (Instr.rgSpawn hd 0 31).wf = false := by decide +kernel

theorem test_wf_mx : (Instr.mxLdw hd 17).wf = false ∧ (Instr.mxRun hd 17 1 0).wf = false ∧ (Instr.mxRun hd 0 0 0).wf = false ∧ (Instr.mxRun hd 0 193 0).wf = false
    ∧ (Instr.mxDrain hd 0 0 0 0 0).wf = false ∧ (Instr.mxDrain hd 0 0 0 193 0).wf = false ∧ (Instr.mxFsel hd 6 0 0).wf = false := by decide +kernel

theorem test_wf_vx : (Instr.vcmpF16 hd 0 1 0 0).wf = false ∧ (Instr.vcmpBf16 hd 0 7 0 0).wf = false ∧ (Instr.vicmp hd 6 0 0 0).wf = false
    ∧ (Instr.vcvt hd 0 0 16).wf = false ∧ (Instr.vpack hd 0 0 7).wf = false ∧ (Instr.vpackS hd 0 0 3).wf = false ∧ (Instr.vunpk hd 0 0 7).wf = false
    ∧ (Instr.vunpkS hd 0 0 4).wf = false ∧ (Instr.trow hd 96 0 0).wf = false ∧ (Instr.tcol hd 0 96 0).wf = false ∧ (Instr.vgrt hd 0 0 6 0).wf = false
    ∧ (Instr.vgrt hd 0 0 0 3).wf = false ∧ (Instr.vrand hd 0 6 0).wf = false ∧ (Instr.vrand hd 0 0 3).wf = false := by decide +kernel

theorem test_wf_steps : (Instr.illegalOpcode .ap 0).wf = false ∧ (Instr.illegalField .vx 0).wf = false ∧ (Instr.capabilityFence 24 0).wf = false
    ∧ (Instr.capabilityFence 0 26).wf = false ∧ (Instr.inFieldTestStart 31 0).wf = false ∧ (Instr.inFieldTestStart 0 26).wf = false
    ∧ (Instr.inFieldTest 24 true).wf = false ∧ (Instr.regionIssue 1 ⟨[0, 24], false⟩).wf = false ∧ (Instr.hostAtomic 1 3 64 0 0 0).wf = false
    ∧ (Instr.hostAtomic 1 0 16 0 0 0).wf = false ∧ (Instr.hostMemoryRequest 1 0 2 (some [1])).wf = false
    ∧ (Instr.submission 1 (List.replicate 63 0) true).wf = false ∧ (Instr.dbgkeyWrite 1 4 0 true).wf = false := by decide +kernel

/-! One word for every row of the opcode table that has an encoding, put together from its fixed bits and fields (02_encoding.md R22, R28, R33). -/

theorem test_words_ap_0 : decodeAp 0x00000000 = .nop ⟨false, false, false, false, 0, 0⟩ ∧ decodeAp 0x808176D0 = .add ⟨true, false, false, false, 0, 1⟩ 14 27 8
    ∧ decodeAp 0x4502E276 = .sub ⟨false, true, false, false, 1, 2⟩ 28 9 27 ∧ decodeAp 0xC583572C = .and ⟨true, true, false, false, 1, 3⟩ 10 28 22
    ∧ decodeAp 0x2204EDF4 = .or ⟨false, false, true, false, 0, 4⟩ 29 23 26 ∧ decodeAp 0xA285C6E4 = .xor ⟨true, false, true, false, 0, 5⟩ 24 27 18
    ∧ decodeAp 0x6706E4C0 = .andn ⟨false, true, true, false, 1, 6⟩ 28 19 0 ∧ decodeAp 0xE407A05C = .shl ⟨true, true, true, false, 1, 0⟩ 20 1 14
    ∧ decodeAp 0x108813C2 = .shr ⟨false, false, false, true, 0, 1⟩ 2 15 1 ∧ decodeAp 0x910980B8 = .sra ⟨true, false, false, true, 0, 2⟩ 16 2 28
    ∧ decodeAp 0x558A1F40 = .rotl ⟨false, true, false, true, 1, 3⟩ 3 29 0 ∧ decodeAp 0xD60BF070 = .min ⟨true, true, false, true, 1, 4⟩ 30 1 24
    ∧ decodeAp 0x328C164C = .max ⟨false, false, true, true, 0, 5⟩ 2 25 6 ∧ decodeAp 0xB30DD1E8 = .minu ⟨true, false, true, true, 0, 6⟩ 26 7 20
    ∧ decodeAp 0x740E454E = .maxu ⟨false, true, true, true, 1, 0⟩ 8 21 7 ∧ decodeAp 0xF48FB204 = .mul ⟨true, true, true, true, 1, 1⟩ 22 8 2
    ∧ decodeAp 0x011048CC = .mulh ⟨false, false, false, false, 0, 2⟩ 9 3 6 ∧ decodeAp 0x819121FC = .mulhu ⟨true, false, false, false, 0, 3⟩ 4 7 30
    ∧ decodeAp 0x461247D8 = .divu ⟨false, true, false, false, 1, 4⟩ 8 31 12 ∧ decodeAp 0xC6930374 = .remu ⟨true, true, false, false, 1, 5⟩ 0 13 26
    ∧ decodeAp 0x231476C0 = .clz ⟨false, false, true, false, 0, 6⟩ 14 27 ∧ decodeAp 0xA015E380 = .popc ⟨true, false, true, false, 0, 0⟩ 28 14
    ∧ decodeAp 0x64967A58 = .lea ⟨false, true, true, false, 1, 1⟩ 15 9 12 ∧ decodeAp 0xE5165349 = .leaD ⟨true, true, true, false, 1, 2⟩ 10 13 4
    ∧ decodeAp 0x11977172 = .sext ⟨false, false, false, true, 0, 3⟩ 14 5 25 ∧ decodeAp 0x921834C0 = .zext ⟨true, false, false, true, 0, 4⟩ 6 19 0
    ∧ decodeAp 0x5699A066 = .bfx ⟨false, true, false, true, 1, 5⟩ 20 1 19 ∧ decodeAp 0xD719151D = .bfxS ⟨true, true, false, true, 1, 6⟩ 2 20 14
    ∧ decodeAp 0x301AABE4 = .bfi ⟨false, false, true, true, 0, 0⟩ 21 15 18 ∧ decodeAp 0xB0A084CA = .addi ⟨true, false, true, true, 0, 1⟩ 16 19 10
    ∧ decodeAp 0x7521A2F8 = .andi ⟨false, true, true, true, 1, 2⟩ 20 11 56 ∧ decodeAp 0xF5A26646 = .ori ⟨true, true, true, true, 1, 3⟩ 12 25 6 := by decide +kernel

theorem test_words_ap_1 : decodeAp 0x0223D1D9 = .xori ⟨false, false, false, false, 0, 4⟩ 26 7 25 ∧ decodeAp 0x82A44694 = .shli ⟨true, false, false, false, 0, 5⟩ 8 26 20
    ∧ decodeAp 0x4725DD78 = .shri ⟨false, true, false, false, 1, 6⟩ 27 21 56 ∧ decodeAp 0xC426B650 = .srai ⟨true, true, false, false, 1, 0⟩ 22 25 16
    ∧ decodeAp 0x20A7D5D1 = .movi ⟨false, false, true, false, 0, 1⟩ 26 1489 ∧ decodeAp 0xA130BB3C = .cmp ⟨true, false, true, false, 0, 2⟩ 4 7 12 30
    ∧ decodeAp 0x65B12FD9 = .cmpi ⟨false, true, true, false, 1, 3⟩ 0 5 31 25 ∧ decodeAp 0xE632808A = .plog ⟨true, true, true, false, 1, 4⟩ 4 0 2 5
    ∧ decodeAp 0x12B30800 = .pmovToX ⟨false, false, false, true, 0, 5⟩ 1 ∧ decodeAp 0x93330701 = .pmovToPf ⟨true, false, false, true, 0, 6⟩ 28
    ∧ decodeAp 0x543835D7 = .bprep ⟨false, true, false, true, 1, 0⟩ 0 13783 ∧ decodeAp 0xD4B90140 = .bset ⟨true, true, false, true, 1, 1⟩ 0 5
    ∧ decodeAp 0x313AB280 = .bxfer ⟨false, false, true, true, 0, 2⟩ 2 3 5 ∧ decodeAp 0xB1BB01A0 = .lset ⟨true, false, true, true, 0, 3⟩ 0 6 32
    ∧ decodeAp 0x763C1800 = .lbrk ⟨false, true, true, true, 1, 4⟩ 3 ∧ decodeAp 0xF6C01178 = .ldB ⟨true, true, true, true, 1, 5⟩ 2 5 28
    ∧ decodeAp 0x03403755 = .ldBu ⟨false, false, false, false, 0, 6⟩ 6 29 10 ∧ decodeAp 0x8041F2F0 = .ldH ⟨true, false, false, false, 0, 0⟩ 30 11 24
    ∧ decodeAp 0x44C16657 = .ldHu ⟨false, true, false, false, 1, 1⟩ 12 25 11 ∧ decodeAp 0xC542D30C = .ldW ⟨true, true, false, false, 1, 2⟩ 26 12 6
    ∧ decodeAp 0x21C269D5 = .ldWu ⟨false, false, true, false, 0, 3⟩ 13 7 10 ∧ decodeAp 0xA24342C4 = .ldD ⟨true, false, true, false, 0, 4⟩ 8 11 2
    ∧ decodeAp 0x66C460E0 = .stB ⟨false, true, true, false, 1, 5⟩ 12 3 16 ∧ decodeAp 0xE745247C = .stH ⟨true, true, true, false, 1, 6⟩ 4 17 30
    ∧ decodeAp 0x104697E2 = .stW ⟨false, false, false, true, 0, 0⟩ 18 31 17 ∧ decodeAp 0x90C70498 = .stD ⟨true, false, false, true, 0, 1⟩ 0 18 12
    ∧ decodeAp 0x55481B60 = .ldq ⟨false, true, false, true, 1, 2⟩ 3 13 16 ∧ decodeAp 0xD5C903A2 = .stq ⟨true, true, false, true, 1, 3⟩ 14 17
    ∧ decodeAp 0x324A9000 = .popq ⟨false, false, true, true, 0, 4⟩ 18 ∧ decodeAp 0xB2CA1001 = .popqP ⟨true, false, true, true, 0, 5⟩ 2
    ∧ decodeAp 0x774B0018 = .qmark ⟨false, true, true, true, 1, 6⟩ 24 ∧ decodeAp 0xF44C0026 = .qkill ⟨true, true, true, true, 1, 0⟩ 38 := by decide +kernel

theorem test_words_ap_2 : decodeAp 0x00CD5800 = .fence ⟨false, false, false, false, 0, 1⟩ 1 3 ∧ decodeAp 0x8150A5DC = .amoAdd ⟨true, false, false, false, 0, 2⟩ 20 23 14
    ∧ decodeAp 0x45D0061F = .redAdd ⟨false, true, false, false, 1, 3⟩ 24 15 ∧ decodeAp 0xC6518754 = .amoMin ⟨true, true, false, false, 1, 4⟩ 16 29 10
    ∧ decodeAp 0x22D10797 = .redMin ⟨false, false, true, false, 0, 5⟩ 30 11 ∧ decodeAp 0xA35267B0 = .amoMinu ⟨true, false, true, false, 0, 6⟩ 12 30 24
    ∧ decodeAp 0x645207F3 = .redMinu ⟨false, true, true, false, 1, 0⟩ 31 25 ∧ decodeAp 0xE4D3D768 = .amoMax ⟨true, true, true, false, 1, 1⟩ 26 29 20
    ∧ decodeAp 0x115307AB = .redMax ⟨false, false, false, true, 0, 2⟩ 30 21 ∧ decodeAp 0x91D4B0E0 = .amoMaxu ⟨true, false, false, true, 0, 3⟩ 22 3 16
    ∧ decodeAp 0x56540123 = .redMaxu ⟨false, true, false, true, 1, 4⟩ 4 17 ∧ decodeAp 0xD6D5913C = .amoAnd ⟨true, true, false, true, 1, 5⟩ 18 4 30
    ∧ decodeAp 0x3355017F = .redAnd ⟨false, false, true, true, 0, 6⟩ 5 31 ∧ decodeAp 0xB05600F4 = .amoOr ⟨true, false, true, true, 0, 0⟩ 0 3 26
    ∧ decodeAp 0x74D60137 = .redOr ⟨false, true, true, true, 1, 1⟩ 4 27 ∧ decodeAp 0xF557E26C = .amoXor ⟨true, true, true, true, 1, 2⟩ 28 9 22
    ∧ decodeAp 0x01D702AF = .redXor ⟨false, false, false, false, 0, 3⟩ 10 23
    ∧ decodeAp 0x8258C288 = .amoSwap ⟨true, false, false, false, 0, 4⟩ 24 10 4 ∧ decodeAp 0x46D802CB = .redSwap ⟨false, true, false, false, 1, 5⟩ 11 5
    ∧ decodeAp 0xC7593240 = .amoCas ⟨true, true, false, false, 1, 6⟩ 6 9 0
    ∧ decodeAp 0x205A505C = .amoIncwrap ⟨false, false, true, false, 0, 0⟩ 10 1 14
    ∧ decodeAp 0xA0DA009F = .redIncwrap ⟨true, false, true, false, 0, 1⟩ 2 15
    ∧ decodeAp 0x655B875E = .amoIncb ⟨false, true, true, false, 1, 2⟩ 16 29 15 ∧ decodeAp 0xE5DB07A1 = .redIncb ⟨true, true, true, false, 1, 3⟩ 30 16
    ∧ decodeAp 0x125C8AC0 = .amoDecpos ⟨false, false, false, true, 0, 4⟩ 17 11 ∧ decodeAp 0x92DC0301 = .redDecpos ⟨true, false, false, true, 0, 5⟩ 12
    ∧ decodeAp 0x575D81E8 = .amoFaddlim ⟨false, true, false, true, 1, 6⟩ 16 7 20
    ∧ decodeAp 0xD45D022B = .redFaddlim ⟨true, true, false, true, 1, 0⟩ 8 21 ∧ decodeAp 0x30E0B0C0 = .mxtab ⟨false, false, true, true, 0, 1⟩ 22 3
    ∧ decodeAp 0xB1612580 = .mxfmt ⟨true, false, true, true, 0, 2⟩ 4 22 ∧ decodeAp 0x75E2BC40 = .mxpert ⟨false, true, true, true, 1, 3⟩ 23 17
    ∧ decodeAp 0xF6630480 = .mxgo ⟨true, true, true, true, 1, 4⟩ 18 := by decide +kernel

theorem test_words_ap_3 : decodeAp 0x02E40000 = .mxwait ⟨false, false, false, false, 0, 5⟩ ∧ decodeAp 0x836503B6 = .vxcall ⟨true, false, false, false, 0, 6⟩ 14 27
    ∧ decodeAp 0x44650713 = .vxcallSeed ⟨false, true, false, false, 1, 0⟩ 28 9 ∧ decodeAp 0xC4E60000 = .vxwait ⟨true, true, false, false, 1, 1⟩
    ∧ decodeAp 0x21670DC0 = .btcfg ⟨false, false, true, false, 0, 2⟩ 1 23 ∧ decodeAp 0xA1E806C0 = .btgo ⟨true, false, true, false, 0, 3⟩ 0 27
    ∧ decodeAp 0x66690000 = .btwait ⟨false, true, true, false, 1, 4⟩ 0 ∧ decodeAp 0xE6E90001 = .btwaitAll ⟨true, true, true, false, 1, 5⟩
    ∧ decodeAp 0x136A13C0 = .wlOpen ⟨false, false, false, true, 0, 6⟩ 2 15 ∧ decodeAp 0x906B8080 = .wlSlot ⟨true, false, false, true, 0, 0⟩ 16 2
    ∧ decodeAp 0x54EC00FA = .wlRsv ⟨false, true, false, true, 1, 1⟩ 3 29 ∧ decodeAp 0xD56DF070 = .wlTest ⟨true, true, false, true, 1, 2⟩ 30 1 24
    ∧ decodeAp 0x31ED164D = .wlTestP ⟨false, false, true, true, 0, 3⟩ 2 25 6 ∧ decodeAp 0xB26E068E = .wlRels ⟨true, false, true, true, 0, 4⟩ 26 7
    ∧ decodeAp 0x76EF0000 = .wlDone ⟨false, true, true, true, 1, 5⟩ ∧ decodeAp 0xF770B000 = .wlRound ⟨true, true, true, true, 1, 6⟩ 22
    ∧ decodeAp 0x00710000 = .wlClose ⟨false, false, false, false, 0, 0⟩ ∧ decodeAp 0x80F20010 = .pbClaim ⟨true, false, false, false, 0, 1⟩ 4
    ∧ decodeAp 0x45721021 = .pbLoad ⟨false, true, false, false, 1, 2⟩ 8 1 ∧ decodeAp 0xC5F22001 = .pbColour ⟨true, true, false, false, 1, 3⟩ 0 1
    ∧ decodeAp 0x22723038 = .pbClamp ⟨false, false, true, false, 0, 4⟩ 14 ∧ decodeAp 0xA2F24072 = .pbSweep ⟨true, false, true, false, 0, 5⟩ 28 2
    ∧ decodeAp 0x6772503C = .pbRead ⟨false, true, true, false, 1, 6⟩ 15 ∧ decodeAp 0xE4726029 = .pbMom ⟨true, true, true, false, 1, 0⟩ 10 1
    ∧ decodeAp 0x10F27000 = .pbFree ⟨false, false, false, true, 0, 1⟩ ∧ decodeAp 0x9173034C = .sdSeed ⟨true, false, false, true, 0, 2⟩ 6 19
    ∧ decodeAp 0x55F31050 = .sdEmit ⟨false, true, false, true, 1, 3⟩ 20 ∧ decodeAp 0xD6732008 = .sdApply ⟨true, true, false, true, 1, 4⟩ 2
    ∧ decodeAp 0x32F33054 = .sdGap ⟨false, false, true, true, 0, 5⟩ 21 ∧ decodeAp 0xB3734040 = .sdFetch ⟨true, false, true, true, 0, 6⟩ 16
    ∧ decodeAp 0x74735050 = .sdKey ⟨false, true, true, true, 1, 0⟩ 20 ∧ decodeAp 0xF4F40030 = .cxPut ⟨true, true, true, true, 1, 1⟩ 12 := by decide +kernel

theorem test_words_ap_4 : decodeAp 0x01741068 = .cxGet ⟨false, false, false, false, 0, 2⟩ 26 ∧ decodeAp 0x81F42468 = .cxWcnt ⟨true, false, false, false, 0, 3⟩ 8 26 0
    ∧ decodeAp 0x46743D80 = .cxSbar ⟨false, true, false, false, 1, 4⟩ 27 ∧ decodeAp 0xC6F44058 = .cxAred ⟨true, true, false, false, 1, 5⟩ 22
    ∧ decodeAp 0x23745068 = .cxAgath ⟨false, false, true, false, 0, 6⟩ 26 ∧ decodeAp 0xA0746900 = .cxAbort ⟨true, false, true, false, 0, 0⟩ 18
    ∧ decodeAp 0x64F47000 = .cxBar ⟨false, true, true, false, 1, 1⟩ 0 ∧ decodeAp 0xE5750700 = .rgSpawn ⟨true, true, true, false, 1, 2⟩ 14 0
    ∧ decodeAp 0x11F51080 = .rgNext ⟨false, false, false, true, 0, 3⟩ 1 ∧ decodeAp 0x92752E7C = .rgSteal ⟨true, false, false, true, 0, 4⟩ 28 31
    ∧ decodeAp 0x56F53000 = .rgStep ⟨false, true, false, true, 1, 5⟩ 0 ∧ decodeAp 0xD7754000 = .rgYield ⟨true, true, false, true, 1, 6⟩
    ∧ decodeAp 0x30755018 = .rgExit ⟨false, false, true, true, 0, 0⟩ 6 ∧ decodeAp 0xB0F80034 = .trap ⟨true, false, true, true, 0, 1⟩ 52
    ∧ decodeAp 0x75790000 = .eret ⟨false, true, true, true, 1, 2⟩ ∧ decodeAp 0xF5FA1365 = .sysr ⟨true, true, true, true, 1, 3⟩ 2 869
    ∧ decodeAp 0x027B363D = .sysw ⟨false, false, false, false, 0, 4⟩ 6 1597 ∧ decodeAp 0x82FC0000 = .wfe ⟨true, false, false, false, 0, 5⟩
    ∧ decodeAp 0x007F6BEC = .ext 27628 := by decide +kernel

theorem test_words_mx_0 : decodeMx 0xC4000000 = .mxNop ⟨true, true, false, false, 1, 0⟩ ∧ decodeMx 0x20816800 = .mxLdw ⟨false, false, true, false, 0, 1⟩ 13
    ∧ decodeMx 0xA1020000 = .mxSwap ⟨true, false, true, false, 0, 2⟩ ∧ decodeMx 0x6583663D = .mxRun ⟨false, true, true, false, 1, 3⟩ 12 253 0
    ∧ decodeMx 0xE6040100 = .mxZero ⟨true, true, true, false, 1, 4⟩ 4 ∧ decodeMx 0x12851F85 = .mxDrain ⟨false, false, false, true, 0, 5⟩ 0 1 1 197 6
    ∧ decodeMx 0x93060000 = .mxMark ⟨true, false, false, true, 0, 6⟩ ∧ decodeMx 0x540700C0 = .mxChk ⟨false, true, false, true, 1, 0⟩ 3
    ∧ decodeMx 0xD4880000 = .mxBias ⟨true, true, false, true, 1, 1⟩ ∧ decodeMx 0x31091246 = .mxFsel ⟨false, false, true, true, 0, 2⟩ 2 9 6
    ∧ decodeMx 0xB18A0000 = .mxRet ⟨true, false, true, true, 0, 3⟩ := by decide +kernel

theorem test_words_vx_0 : decodeVx 0x7600C16E = .vaddF32 ⟨false, true, true, true, 1, 4⟩ 24 5 23 ∧ decodeVx 0xF6813624 = .vsubF32 ⟨true, true, true, true, 1, 5⟩ 6 24 18
    ∧ decodeVx 0x0302CCEC = .vmulF32 ⟨false, false, false, false, 0, 6⟩ 25 19 22
    ∧ decodeVx 0x8003A5DC = .vfmaF32 ⟨true, false, false, false, 0, 0⟩ 20 23 14
    ∧ decodeVx 0x4484C3F8 = .vminF32 ⟨false, true, false, false, 1, 1⟩ 24 15 28
    ∧ decodeVx 0xC5058754 = .vmaxF32 ⟨true, true, false, false, 1, 2⟩ 16 29 10
    ∧ decodeVx 0x2186F2C0 = .vabsF32 ⟨false, false, true, false, 0, 3⟩ 30 11 ∧ decodeVx 0xA2076780 = .vnegF32 ⟨true, false, true, false, 0, 4⟩ 12 30
    ∧ decodeVx 0x6688FE40 = .vrcpF32 ⟨false, true, true, false, 1, 5⟩ 31 25 ∧ decodeVx 0xE709D740 = .vrsqF32 ⟨true, true, true, false, 1, 6⟩ 26 29
    ∧ decodeVx 0x100AF540 = .vexp2F32 ⟨false, false, false, true, 0, 0⟩ 30 21 ∧ decodeVx 0x908BB0C0 = .vlog2F32 ⟨true, false, false, true, 0, 1⟩ 22 3
    ∧ decodeVx 0x550C08FA = .vcmpF32 ⟨false, true, false, true, 1, 2⟩ 0 1 3 29
    ∧ decodeVx 0xD590913C = .vaddF16 ⟨true, true, false, true, 1, 3⟩ 18 4 30 ∧ decodeVx 0x32112FC4 = .vsubF16 ⟨false, false, true, true, 0, 4⟩ 5 31 2
    ∧ decodeVx 0xB29200F4 = .vmulF16 ⟨true, false, true, true, 0, 5⟩ 0 3 26 ∧ decodeVx 0x771326D0 = .vfmaF16 ⟨false, true, true, true, 1, 6⟩ 4 27 8
    ∧ decodeVx 0xF414E26C = .vminF16 ⟨true, true, true, true, 1, 0⟩ 28 9 22
    ∧ decodeVx 0x009555D2 = .vmaxF16 ⟨false, false, false, false, 0, 1⟩ 10 23 9
    ∧ decodeVx 0x8116C280 = .vabsF16 ⟨true, false, false, false, 0, 2⟩ 24 10 ∧ decodeVx 0x45975940 = .vnegF16 ⟨false, true, false, false, 1, 3⟩ 11 5
    ∧ decodeVx 0xC6183240 = .vrcpF16 ⟨true, true, false, false, 1, 4⟩ 6 9 ∧ decodeVx 0x22995040 = .vrsqF16 ⟨false, false, true, false, 0, 5⟩ 10 1
    ∧ decodeVx 0xA31A13C0 = .vexp2F16 ⟨true, false, true, false, 0, 6⟩ 2 15 ∧ decodeVx 0x641B8740 = .vlog2F16 ⟨false, true, true, false, 1, 0⟩ 16 29
    ∧ decodeVx 0xE49C829A = .vcmpF16 ⟨true, true, true, false, 1, 1⟩ 4 0 10 13
    ∧ decodeVx 0x11208ADC = .vaddBf16 ⟨false, false, false, true, 0, 2⟩ 17 11 14
    ∧ decodeVx 0x91A163CC = .vsubBf16 ⟨true, false, false, true, 0, 3⟩ 12 15 6
    ∧ decodeVx 0x562281E8 = .vmulBf16 ⟨false, true, false, true, 1, 4⟩ 16 7 20
    ∧ decodeVx 0xD6A34544 = .vfmaBf16 ⟨true, true, false, true, 1, 5⟩ 8 21 2
    ∧ decodeVx 0x3324B0EA = .vminBf16 ⟨false, false, true, true, 0, 6⟩ 22 3 21
    ∧ decodeVx 0xB02525A0 = .vmaxBf16 ⟨true, false, true, true, 0, 0⟩ 4 22 16 := by decide +kernel

theorem test_words_vx_1 : decodeVx 0x74A6BC40 = .vabsBf16 ⟨false, true, true, true, 1, 1⟩ 23 17 ∧ decodeVx 0xF5279540 = .vnegBf16 ⟨true, true, true, true, 1, 2⟩ 18 21
    ∧ decodeVx 0x01A8B340 = .vrcpBf16 ⟨false, false, false, false, 0, 3⟩ 22 13
    ∧ decodeVx 0x822976C0 = .vrsqBf16 ⟨true, false, false, false, 0, 4⟩ 14 27
    ∧ decodeVx 0x46AAE240 = .vexp2Bf16 ⟨false, true, false, false, 1, 5⟩ 28 9
    ∧ decodeVx 0xC72B5700 = .vlog2Bf16 ⟨true, true, false, false, 1, 6⟩ 10 28
    ∧ decodeVx 0x202C7EA2 = .vcmpBf16 ⟨false, false, true, false, 0, 0⟩ 2 7 26 17
    ∧ decodeVx 0xA0B0C6E4 = .viadd ⟨true, false, true, false, 0, 1⟩ 24 27 18 ∧ decodeVx 0x6531E4C0 = .visub ⟨false, true, true, false, 1, 2⟩ 28 19 0
    ∧ decodeVx 0xE5B2A05C = .vimul ⟨true, true, true, false, 1, 3⟩ 20 1 14 ∧ decodeVx 0x123313C2 = .vand ⟨false, false, false, true, 0, 4⟩ 2 15 1
    ∧ decodeVx 0x92B480B8 = .vor ⟨true, false, false, true, 0, 5⟩ 16 2 28 ∧ decodeVx 0x57351F40 = .vxor ⟨false, true, false, true, 1, 6⟩ 3 29 0
    ∧ decodeVx 0xD436F070 = .vshl ⟨true, true, false, true, 1, 0⟩ 30 1 24 ∧ decodeVx 0x30B7164C = .vshr ⟨false, false, true, true, 0, 1⟩ 2 25 6
    ∧ decodeVx 0xB138D1E8 = .vsra ⟨true, false, true, true, 0, 2⟩ 26 7 20 ∧ decodeVx 0x75B9454E = .vimin ⟨false, true, true, true, 1, 3⟩ 8 21 7
    ∧ decodeVx 0xF639B205 = .viminU ⟨true, true, true, true, 1, 4⟩ 22 8 2 ∧ decodeVx 0x02BA48CC = .vimax ⟨false, false, false, false, 0, 5⟩ 9 3 6
    ∧ decodeVx 0x833A21FD = .vimaxU ⟨true, false, false, false, 0, 6⟩ 4 7 30
    ∧ decodeVx 0x443B3B33 = .vicmp ⟨false, true, false, false, 1, 0⟩ 1 7 12 25 ∧ decodeVx 0xC4BC0374 = .vsel ⟨true, true, false, false, 1, 1⟩ 0 13 26
    ∧ decodeVx 0x213D76C0 = .vmov ⟨false, false, true, false, 0, 2⟩ 14 27 ∧ decodeVx 0xA1BDE181 = .vmovQ ⟨true, false, true, false, 0, 3⟩ 28 6
    ∧ decodeVx 0x663E7F49 = .vsplat ⟨false, true, true, false, 1, 4⟩ 15 1865 ∧ decodeVx 0xE6BF53AD = .vidx ⟨true, true, true, false, 1, 5⟩ 10 941
    ∧ decodeVx 0x13407164 = .vcvt ⟨false, false, false, true, 0, 6⟩ 14 5 18 ∧ decodeVx 0x904134C0 = .vqntS8 ⟨true, false, false, true, 0, 0⟩ 6 19 0
    ∧ decodeVx 0x54C1A067 = .vqntU8 ⟨false, true, false, true, 1, 1⟩ 20 1 19 ∧ decodeVx 0xD542151C = .vdeq ⟨true, true, false, true, 1, 2⟩ 2 20 14
    ∧ decodeVx 0x31C2ABE5 = .vdeqU ⟨false, false, true, true, 0, 3⟩ 21 15 18 ∧ decodeVx 0xB24384C4 = .vpack ⟨true, false, true, true, 0, 4⟩ 16 19 2 := by decide +kernel

theorem test_words_vx_2 : decodeVx 0x76C3A2C1 = .vpackS ⟨false, true, true, true, 1, 5⟩ 20 11 0 ∧ decodeVx 0xF744664C = .vunpk ⟨true, true, true, true, 1, 6⟩ 12 25 6
    ∧ decodeVx 0x0044D1C3 = .vunpkS ⟨false, false, false, false, 0, 0⟩ 26 7 1 ∧ decodeVx 0x80C846A8 = .vperm ⟨true, false, false, false, 0, 1⟩ 8 26 20
    ∧ decodeVx 0x4548DD71 = .vpermH ⟨false, true, false, false, 1, 2⟩ 27 21 24 ∧ decodeVx 0xC5C9B650 = .vbcst ⟨true, true, false, false, 1, 3⟩ 22 25 8
    ∧ decodeVx 0x224AD47E = .vrot ⟨false, false, true, false, 0, 4⟩ 26 17 31 ∧ decodeVx 0xA2CC97C8 = .vred ⟨true, false, true, false, 0, 5⟩ 18 31 4
    ∧ decodeVx 0x674D0346 = .vredx ⟨false, true, true, false, 1, 6⟩ 0 13 3 ∧ decodeVx 0xE44E7034 = .vtopk ⟨true, true, true, false, 1, 0⟩ 14 0 26
    ∧ decodeVx 0x10CE0EFD = .vtopkMin ⟨false, false, false, true, 0, 1⟩ 1 27 30 ∧ decodeVx 0x91501D83 = .trow ⟨true, false, false, true, 0, 2⟩ 3 3 22
    ∧ decodeVx 0x55D10111 = .tcol ⟨false, true, false, true, 1, 3⟩ 0 81 0 ∧ decodeVx 0xD6520000 = .tclr ⟨true, true, false, true, 1, 4⟩ 0
    ∧ decodeVx 0x32D83006 = .vpop ⟨false, false, true, true, 0, 5⟩ 6 3 ∧ decodeVx 0xB3590500 = .vpush ⟨true, false, true, true, 0, 6⟩ 20
    ∧ decodeVx 0x745A3802 = .vpopd ⟨false, true, true, true, 1, 0⟩ 7 1 ∧ decodeVx 0xF4DB0080 = .veq ⟨true, true, true, true, 1, 1⟩ 2
    ∧ decodeVx 0x015B0181 = .veqP ⟨false, false, false, false, 0, 2⟩ 6 ∧ decodeVx 0x81DCF000 = .vdq ⟨true, false, false, false, 0, 3⟩ 30
    ∧ decodeVx 0x465C6001 = .vdqHi ⟨false, true, false, false, 1, 4⟩ 12 ∧ decodeVx 0xC6DD0680 = .vaq ⟨true, true, false, false, 1, 5⟩ 26
    ∧ decodeVx 0x236029C0 = .vany ⟨false, false, true, false, 0, 6⟩ 5 7 ∧ decodeVx 0xA06100C0 = .vall ⟨true, false, true, false, 0, 0⟩ 0 3
    ∧ decodeVx 0x64E2180B = .qlog ⟨false, true, true, false, 1, 1⟩ 1 3 0 5 ∧ decodeVx 0xE5630100 = .vmsk ⟨true, true, true, false, 1, 2⟩ 4
    ∧ decodeVx 0x11E4B846 = .vxPlog ⟨false, false, false, true, 0, 3⟩ 4 7 1 3 ∧ decodeVx 0x92680032 = .vbprep ⟨true, false, false, true, 0, 4⟩ 0 50
    ∧ decodeVx 0x56E90840 = .vbxfer ⟨false, true, false, true, 1, 5⟩ 1 1 ∧ decodeVx 0xD76A0EA8 = .vlset ⟨true, true, false, true, 1, 6⟩ 0 1 1704
    ∧ decodeVx 0x306B0000 = .vret ⟨false, false, true, true, 0, 0⟩ ∧ decodeVx 0xB0EC5457 = .vwin ⟨true, false, true, true, 0, 1⟩ 10 1111 := by decide +kernel

theorem test_words_vx_3 : decodeVx 0x7570C17A = .vgrt ⟨false, true, true, true, 1, 2⟩ 24 5 7 1 ∧ decodeVx 0xF5F13004 = .vrand ⟨true, true, true, true, 1, 3⟩ 6 0 2
    ∧ decodeVx 0x02710641 = .vrandSet ⟨false, false, false, false, 0, 4⟩ 25 ∧ decodeVx 0x82F40000 = .vshd ⟨true, false, false, false, 0, 5⟩
    ∧ decodeVx 0x4778C000 = .vstat ⟨false, true, false, false, 1, 6⟩ 24 ∧ decodeVx 0xC4788001 = .vstatClr ⟨true, true, false, false, 1, 0⟩ 16
    ∧ decodeVx 0x20FC0000 = .vnop ⟨false, false, true, false, 0, 1⟩ ∧ decodeVx 0xA17D05EC = .vtrap ⟨true, false, true, false, 0, 2⟩ 1516
    ∧ decodeVx 0x007F683F = .vext 26687 := by decide +kernel

end Sys2Proof.Tests
end

/-!
SUPPORT and the proof of `CommandsStartAndRetire`: what the record of a command leaves in its core's scratchpad, what a retirement changes besides,
and when a command may start.
-/

namespace Sys2Proof.Proofs

open Sys2Proof.Machine Sys2Proof.Laws

/-! ### Little-endian numbers -/

theorem leNat_leBytes (n v : Nat) : leNat (leBytes n v) = v % 256 ^ n := by
  induction n generalizing v with
  | zero => simp [leBytes, leNat, Nat.mod_one]
  | succ n ih =>
    rw [leBytes, leNat, ih, BitVec.toNat_ofNat, Nat.pow_succ' (m := 256), Nat.mod_mul]

theorem drop_leBytes (o n v : Nat) : (leBytes (o + n) v).drop o = leBytes n (v / 256 ^ o) := by
  induction o generalizing v with
  | zero => simp
  | succ o ih =>
    rw [Nat.add_right_comm, leBytes, List.drop_succ_cons, ih, Nat.div_div_eq_div_mul, Nat.pow_succ']

theorem take_leBytes (n m v : Nat) : (leBytes (n + m) v).take n = leBytes n v := by
  induction n generalizing v with
  | zero => simp [leBytes]
  | succ n ih => rw [Nat.add_right_comm, leBytes, leBytes, List.take_succ_cons, ih]

/-- The number in some of the bytes of a number. -/
theorem leNat_slice (o n m v : Nat) : leNat (((leBytes (o + (n + m)) v).drop o).take n) = v / 256 ^ o % 256 ^ n := by
  rw [drop_leBytes, take_leBytes, leNat_leBytes]

theorem tabulate_eq_take {α : Type} (f : Nat → α) (l : List α) (n : Nat) (h : ∀ i < n, l[i]? = some (f i)) : tabulate f n = l.take n := by
  induction n with
  | zero => rfl
  | succ n ih =>
    rw [tabulate, ih fun i hi => h i (by omega), List.take_add_one, h n (by omega)]
    rfl

/-! ### A row within a core's scratchpad -/

theorem core_setTag_ne (s : State) (a : Nat) (t : BitVec 4) {j : Nat} (h : j ≠ a / 2 ^ 21) : (setTag s a t).core j = s.core j := by
  unfold setTag
  split
  · exact core_setCore_ne _ _ h
  · rfl

/-- It leaves every other core as it is. -/
theorem core_spadStore_ne (k : Nat) (bs : List Byte) (s : State) (off : Nat) (hb : off + bs.length ≤ 2 ^ 21) {j : Nat} (h : j ≠ k) :
    (spadStore s k off bs).core j = s.core j := by
  induction bs generalizing s off with
  | nil => rfl
  | cons b bs ih =>
    rw [List.length_cons] at hb
    have hk : j ≠ spadKey k off / 2 ^ 21 := by unfold spadKey; omega
    unfold spadStore
    rw [ih _ (off + 1) (by omega), core_setTag_ne _ _ _ hk, core_memWrite]

/-- Its own core keeps its commands. -/
theorem cmds_spadStore (k : Nat) (bs : List Byte) (s : State) (off j : Nat) : ((spadStore s k off bs).core j).cmds = (s.core j).cmds := by
  have h : tagsAside (spadStore s k off bs) s j := (spadStore_bytes k bs s off).2.2.cores j
  unfold tagsAside at h
  rw [← h]

/-- The number in the bytes of a field of it. -/
theorem leNat_spadStore (k : Nat) (bs : List Byte) (s : State) (off o n : Nat) (h : o + n ≤ bs.length) :
    leNat (tabulate (fun i => memByte (spadStore s k off bs) (spadKey k off + o + i)) n) = leNat ((bs.drop o).take n) := by
  congr 1
  refine tabulate_eq_take _ _ _ fun i hi => ?_
  have hlt : o + i < bs.length := by omega
  have hw := (spadStore_bytes k bs s off).1 (o + i) bs[o + i] (List.getElem?_eq_getElem hlt)
  have hkey : spadKey k off + o + i = spadKey k (off + (o + i)) := by unfold spadKey; omega
  rw [List.getElem?_drop, List.getElem?_eq_getElem hlt, hkey, hw]

theorem memByte_spadStore_apart (k : Nat) (bs : List Byte) (s : State) (off : Nat) {a : Nat}
    (h : a < spadKey k off ∨ spadKey k off + bs.length ≤ a) : memByte (spadStore s k off bs) a = memByte s a := by
  refine (spadStore_bytes k bs s off).2.1 a fun i hi => ?_
  unfold spadKey at *
  omega

/-! ### Completion records (13_bte.md R247) -/

theorem length_recordBytes (seq cause status chan bytes : Nat) : (recordBytes seq cause status chan bytes).length = 16 := by
  simp [recordBytes, length_leBytes]

/-- The fields of the first eight bytes. -/
theorem leNat_record_head (seq cause status chan bytes : Nat) {o n m : Nat} (h : o + (n + m) = 8) :
    leNat (((recordBytes seq cause status chan bytes).drop o).take n)
      = (seq % 2 ^ 16 + cause % 256 * 2 ^ 16 + status % 256 * 2 ^ 24 + chan % 256 * 2 ^ 32) / 256 ^ o % 256 ^ n := by
  unfold recordBytes
  rw [List.drop_append_of_le_length (by rw [length_leBytes]; omega),
    List.take_append_of_le_length (by rw [List.length_drop, length_leBytes]; omega), ← h, leNat_slice]

/-- The last eight hold the count of bytes. -/
theorem leNat_record_bytes (seq cause status chan bytes : Nat) :
    leNat (((recordBytes seq cause status chan bytes).drop 8).take 8) = bytes % 2 ^ 64 := by
  unfold recordBytes
  rw [List.drop_left' (length_leBytes 8 _), List.take_of_length_le (by rw [length_leBytes]), leNat_leBytes,
    show 256 ^ 8 = 2 ^ 64 by decide]

/-- The slot of a number in a ring, as an offset in the scratchpad. -/
def recordSlot (ring seq : Nat) : Nat := nbits ring 4 17 * 16 + 16 * (seq % 2 ^ nbits ring 24 4)

/-- A ring that lies within the scratchpad holds each of its records. -/
theorem recordSlot_le {ring : Nat} (h : nbits ring 4 17 * 16 + 16 * 2 ^ nbits ring 24 4 ≤ 2 ^ 21) (seq : Nat) :
    recordSlot ring seq + 16 ≤ 2 ^ 21 := by
  have := Nat.mod_lt seq (Nat.two_pow_pos (nbits ring 24 4))
  unfold recordSlot
  omega

/-! ### The parts of a retirement -/

/-- The state once the record of a command is written, where it has one. -/
def recordOf (s : State) (k : Nat) (m : Cmd) (status cause bytes : Nat) : State :=
  match cmdRing s k m with
  | some (ring, chan) => if status = 1 ∧ wbits m.ccw 0 1 = 1 then s else writeRecord s k ring m.seq cause status chan bytes
  | none => s

/-- A number becomes free, and EV is set. -/
def freeSeq (s : State) (k seq : Nat) : State := setEv (s.setCore k { s.core k with cmds := (s.core k).cmds.filter fun e => e.seq != seq }) k

theorem recordCmd_eq (s : State) (k : Nat) (m : Cmd) (status cause bytes : Nat) :
    recordCmd s k m status cause bytes = freeSeq (recordOf s k m status cause bytes) k m.seq := rfl

/-- A command that REL does not hold, or that was stopped, retires. -/
theorem retireCmd_eq {s : State} {k : Nat} {m : Cmd} {status : Nat} (cause bytes : Nat)
    (h : status = 3 ∨ wbits m.ccw 13 1 = 0 ∨ earlierDone (s.core k) m = true) :
    retireCmd s k m status cause bytes = freeSeq (recordOf s k m status cause bytes) k m.seq := by
  unfold retireCmd
  rw [if_neg, recordCmd_eq]
  rintro ⟨hs, hr⟩
  simp only [releaseHeld, Bool.and_eq_true, beq_iff_eq, Bool.not_eq_true'] at hr
  rcases h with h | h | h
  · exact hs h
  · omega
  · simp [h] at hr

theorem memByte_setCore (s : State) (k : Nat) (c : Core) (a : Nat) : memByte (s.setCore k c) a = memByte s a := rfl

theorem memByte_freeSeq (s : State) (k seq a : Nat) : memByte (freeSeq s k seq) a = memByte s a := by
  unfold freeSeq setEv
  rw [memByte_setCore, memByte_setCore]

theorem core_freeSeq_ne (s : State) (k seq : Nat) {j : Nat} (h : j ≠ k) : (freeSeq s k seq).core j = s.core j := by
  unfold freeSeq setEv
  rw [core_setCore_ne _ _ h, core_setCore_ne _ _ h]

theorem core_freeSeq_same (s : State) (k seq : Nat) :
    (freeSeq s k seq).core k = { s.core k with cmds := (s.core k).cmds.filter fun e => e.seq != seq, ev := true } := by
  simp [freeSeq, setEv]

theorem cmds_setEv (s : State) (k : Nat) : ((setEv s k).core k).cmds = (s.core k).cmds := by
  rw [setEv, core_setCore_same]

theorem writeRecord_eq (s : State) (k ring seq cause status chan bytes : Nat) :
    writeRecord s k ring seq cause status chan bytes
      = setEv (spadStore s k (recordSlot ring seq) (recordBytes seq cause status chan bytes)) k := by
  unfold recordSlot
  rfl

theorem memByte_writeRecord (s : State) (k ring seq cause status chan bytes a : Nat) :
    memByte (writeRecord s k ring seq cause status chan bytes) a
      = memByte (spadStore s k (recordSlot ring seq) (recordBytes seq cause status chan bytes)) a := by
  rw [writeRecord_eq, setEv, memByte_setCore]

theorem core_writeRecord_ne (s : State) (k : Nat) {ring : Nat} (hb : nbits ring 4 17 * 16 + 16 * 2 ^ nbits ring 24 4 ≤ 2 ^ 21)
    (seq cause status chan bytes : Nat) {j : Nat} (h : j ≠ k) : (writeRecord s k ring seq cause status chan bytes).core j = s.core j := by
  have hl := recordSlot_le hb seq
  rw [← length_recordBytes seq cause status chan bytes] at hl
  rw [writeRecord_eq, setEv, core_setCore_ne _ _ h]
  exact core_spadStore_ne k _ s _ hl h

theorem cmds_writeRecord (s : State) (k ring seq cause status chan bytes : Nat) :
    ((writeRecord s k ring seq cause status chan bytes).core k).cmds = (s.core k).cmds := by
  rw [writeRecord_eq, cmds_setEv, cmds_spadStore]

/-- NOREC suppresses the record of a success. -/
def Quiet (m : Cmd) (status : Nat) : Prop := status = 1 ∧ m.ccw.toNat % 2 = 1

theorem quiet_iff (m : Cmd) (status : Nat) : (status = 1 ∧ wbits m.ccw 0 1 = 1) ↔ Quiet m status := by
  rw [wbits_low]
  rfl

theorem recordOf_none {s : State} {k : Nat} {m : Cmd} {status : Nat} (cause bytes : Nat) (h : Quiet m status ∨ cmdRing s k m = none) :
    recordOf s k m status cause bytes = s := by
  unfold recordOf
  split
  · next e =>
    rcases h with h | h
    · exact if_pos ((quiet_iff m status).mpr h)
    · rw [h] at e; cases e
  · rfl

theorem recordOf_some {s : State} {k : Nat} {m : Cmd} {status ring chan : Nat} (cause bytes : Nat) (hq : ¬ Quiet m status)
    (h : cmdRing s k m = some (ring, chan)) : recordOf s k m status cause bytes = writeRecord s k ring m.seq cause status chan bytes := by
  unfold recordOf
  rw [h]
  exact if_neg fun e => hq ((quiet_iff m status).mp e)

section
variable {s : State} {k : Nat} {m : Cmd} (status cause bytes : Nat)

theorem cmds_recordOf : ((recordOf s k m status cause bytes).core k).cmds = (s.core k).cmds := by
  unfold recordOf
  split
  · split
    · rfl
    · exact cmds_writeRecord _ _ _ _ _ _ _ _
  · rfl

theorem core_recordOf_ne
    (hb : ∀ ring chan, cmdRing s k m = some (ring, chan) → nbits ring 4 17 * 16 + 16 * 2 ^ nbits ring 24 4 ≤ 2 ^ 21)
    {j : Nat} (h : j ≠ k) : (recordOf s k m status cause bytes).core j = s.core j := by
  unfold recordOf
  split
  · next ring chan e =>
    split
    · rfl
    · exact core_writeRecord_ne s k (hb ring chan e) _ _ _ _ _ h
  · rfl

end


/-- What the record of a command leaves in memory. -/
theorem record_fields {s : State} {k : Nat} {m : Cmd} {status ring chan : Nat} (cause bytes : Nat) (hq : ¬ Quiet m status)
    (hr : cmdRing s k m = some (ring, chan)) {o n : Nat} (h : o + n ≤ 16) :
    leNat (tabulate (fun i => memByte (recordOf s k m status cause bytes) (spadKey k (recordSlot ring m.seq) + o + i)) n)
      = leNat (((recordBytes m.seq cause status chan bytes).drop o).take n) := by
  simp only [recordOf_some cause bytes hq hr, memByte_writeRecord]
  exact leNat_spadStore _ _ _ _ _ _ (by rw [length_recordBytes]; exact h)

theorem memByte_recordOf_apart {s : State} {k : Nat} {m : Cmd} {status ring chan : Nat} (cause bytes : Nat) (hq : ¬ Quiet m status)
    (hr : cmdRing s k m = some (ring, chan)) {a : Nat}
    (h : a < spadKey k (recordSlot ring m.seq) ∨ spadKey k (recordSlot ring m.seq) + 16 ≤ a) :
    memByte (recordOf s k m status cause bytes) a = memByte s a := by
  rw [recordOf_some cause bytes hq hr, memByte_writeRecord]
  exact memByte_spadStore_apart k _ s _ (by rw [length_recordBytes]; exact h)

/-- A command that retires. -/
theorem commandsRetire : Claims.CommandsRetire := by
  intro s k m status cause bytes _ hrel hb
  dsimp only
  rw [retireCmd_eq cause bytes hrel]
  refine ⟨by rw [core_freeSeq_same], fun e => ?_, fun j hj => ?_, fun h a => ?_, fun hq ring chan hr => ?_, fun ch he => ?_⟩
  · rw [core_freeSeq_same, cmds_recordOf]
    simp
  · rw [core_freeSeq_ne _ _ _ hj, core_recordOf_ne status cause bytes hb hj]
  · rw [memByte_freeSeq, recordOf_none cause bytes h]
  · simp only [memByte_freeSeq]
    have hat : k * 2 ^ 21 + nbits ring 4 17 * 16 + 16 * (m.seq % 2 ^ nbits ring 24 4) = spadKey k (recordSlot ring m.seq) := by
      rw [spadKey, recordSlot, Nat.add_assoc]
    rw [hat]
    have head (o n r : Nat) (h : o + (n + r) = 8) := (record_fields cause bytes hq hr (show o + n ≤ 16 by omega)).trans
      (leNat_record_head m.seq cause status chan bytes h)
    exact ⟨(head 0 2 6 rfl).trans (by omega), (head 2 1 5 rfl).trans (by omega), (head 3 1 4 rfl).trans (by omega),
      (head 4 1 3 rfl).trans (by omega), (head 5 3 0 rfl).trans (by omega),
      (record_fields cause bytes hq hr (by decide)).trans (leNat_record_bytes _ _ _ _ _),
      fun a ha => memByte_recordOf_apart cause bytes hq hr ha⟩
  · unfold cmdRing
    rw [he]

/-! ### Commands of a core -/

theorem onlyCore_setCore (s : State) (k : Nat) (c : Core) : OnlyCore k s (s.setCore k c) where
  bytes _ := rfl
  others _ h := core_setCore_ne s c h
  rest := rfl

theorem coreBecomes_of {i : Instr} {s : State} {k : Nat} {c : Core} (h : exec i s = .next (s.setCore k c)) : CoreBecomes i s k c :=
  ⟨h, onlyCore_setCore s k c⟩

theorem earlierDone_iff (c : Core) (m : Cmd) :
    earlierDone c m = true ↔ (∀ e ∈ c.main.rq, m.po ≤ e.po) ∧ ∀ e ∈ c.main.wq, m.po ≤ e.po := by
  simp [earlierDone]

/-- A bit of a control word is 0 or 1. -/
theorem wbits_one_eq_zero {n : Nat} (w : BitVec n) (lo : Nat) : wbits w lo 1 = 0 ↔ ¬ wbits w lo 1 = 1 := by
  have : wbits w lo 1 < 2 := Nat.mod_lt _ (by decide)
  omega

/-- Putting a command back keeps the numbers. -/
theorem seqs_putCmd (c : Core) (m : Cmd) : (c.putCmd m).cmds.map Cmd.seq = c.cmds.map Cmd.seq := by
  unfold Core.putCmd
  rw [List.map_map]
  refine List.map_congr_left fun e _ => ?_
  simp only [Function.comp]
  split
  · next h => exact h.symm
  · rfl

theorem mem_putCmd {c : Core} {m n : Cmd} (h : m ∈ c.cmds) (hn : n.seq = m.seq) : n ∈ (c.putCmd n).cmds :=
  List.mem_map.mpr ⟨m, h, if_pos hn.symm⟩

/-- A command that REL holds back. -/
theorem releaseWaits : Claims.ReleaseWaits := by
  intro s k m status cause bytes hm hs hrel hlate
  have hheld : releaseHeld (s.core k) m = true := by
    have hn : ¬ earlierDone (s.core k) m = true := by
      rw [earlierDone_iff]
      rintro ⟨hrq, hwq⟩
      rcases hlate with ⟨e, he, hpo⟩ | ⟨e, he, hpo⟩
      · exact absurd (hrq e he) (by omega)
      · exact absurd (hwq e he) (by omega)
    simp [releaseHeld, hrel, hn]
  dsimp only
  unfold retireCmd
  rw [if_pos ⟨hs, hheld⟩, core_setCore_same]
  exact ⟨onlyCore_setCore _ _ _, rfl, rfl, ⟨_, mem_putCmd hm rfl, rfl, rfl⟩, seqs_putCmd _ _⟩

/-! ### The start of a command (01_machine.md R14) -/

section
variable {c : Core} {m : Cmd} {before after : List Cmd} (hc : c.cmds = before ++ m :: after)
  (hb : ∀ e ∈ before, e.seq ≠ m.seq)
include hc hb

/-- The only command with a number is found by it. -/
theorem cmd?_split : c.cmd? m.seq = some m := by
  unfold Core.cmd?
  rw [hc, List.find?_append, List.find?_eq_none.mpr fun e he => by simpa using hb e he]
  simp

theorem putCmd_split (ha : ∀ e ∈ after, e.seq ≠ m.seq) {n : Cmd} (hn : n.seq = m.seq) :
    c.putCmd n = { c with cmds := before ++ n :: after } := by
  have keep (l : List Cmd) (hl : ∀ e ∈ l, e.seq ≠ m.seq) : l.map (fun e => if e.seq = n.seq then n else e) = l :=
    (List.map_congr_left fun e he => if_neg (hn ▸ hl e he)).trans (List.map_id l)
  unfold Core.putCmd
  rw [hc, List.map_append, List.map_cons, keep before hb, keep after ha, if_pos hn.symm]

/-- The commands before it are the earlier ones of its engine or channel. -/
theorem inTurn_split : inTurn c m = true ↔ (m.eng ≠ .link → ∀ e ∈ before, e.eng ≠ m.eng) := by
  have ht : c.cmds.takeWhile (fun x => x.seq != m.seq) = before := by
    rw [hc, List.takeWhile_append_of_pos fun e he => by simpa using hb e he]
    simp
  unfold inTurn
  rw [ht]
  cases m.eng <;> simp [List.isEmpty_iff, List.filter_eq_nil_iff]

end

theorem cmdAt_isEmpty (c : Core) (m : Cmd) (d : Nat) : (cmdAt c m d).isEmpty = true ↔ (d ≠ 0 → ∀ e ∈ c.cmds, e.seq + d ≠ m.seq) := by
  unfold cmdAt
  split
  · next h => simp [h]
  · next h => simp [h, List.isEmpty_iff, List.filter_eq_nil_iff]

theorem cmdReady_iff (c : Core) (m : Cmd) :
    cmdReady c m = true ↔ (wbits m.ccw 24 8 ≠ 0 → ∀ e ∈ c.cmds, e.seq + wbits m.ccw 24 8 ≠ m.seq)
      ∧ (wbits m.ccw 16 8 ≠ 0 → ∀ e ∈ c.cmds, e.seq + wbits m.ccw 16 8 ≠ m.seq)
      ∧ (wbits m.ccw 15 1 = 1 → ∀ e ∈ c.cmds, m.seq ≤ e.seq)
      ∧ (wbits m.ccw 14 1 = 1 → (∀ e ∈ c.main.rq, m.po ≤ e.po) ∧ ∀ e ∈ c.main.wq, m.po ≤ e.po) := by
  unfold cmdReady
  simp only [Bool.and_eq_true, Bool.or_eq_true, beq_iff_eq, cmdAt_isEmpty, wbits_one_eq_zero, earlierDone_iff, imp_iff_not_or,
    Bool.not_eq_true', List.any_eq_false, decide_eq_true_eq, Nat.not_lt, and_assoc]

/-- The engines with a queue of their own. -/
theorem execEngineCommandStart_eq {s : State} {k : Nat} {m : Cmd} (hm : (s.core k).cmd? m.seq = some m) (hrun : (s.core k).run = .running)
    (hs : m.started = false) (hmx : m.eng ≠ .mx) (hvx : m.eng ≠ .vx) :
    exec (.engineCommandStart k m.seq) s
      = .next (if m.at_ ≤ (s.core k).cycle ∧ cmdReady (s.core k) m = true ∧ inTurn (s.core k) m = true
          then setCmd s k { m with started := true, due := s.clock + firstTime m } else s) := by
  show execEngineCommandStart k m.seq s = _
  unfold execEngineCommandStart
  simp only [hm]
  cases he : m.eng with
  | mx => exact absurd he hmx
  | vx => exact absurd he hvx
  | _ => simp [Core.alive, hrun, hs, and_assoc]

theorem commandsStart : Claims.CommandsStart := by
  intro s k m before after c hrun hc hb ha hs hmx hvx gone ready
  have hready : ready ↔ m.at_ ≤ c.cycle ∧ cmdReady c m = true ∧ inTurn c m = true := by
    rw [cmdReady_iff, inTurn_split hc hb]
    simp only [ready, gone, and_assoc]
  have hexec := execEngineCommandStart_eq (cmd?_split hc hb) hrun hs hmx hvx
  refine ⟨fun h => coreBecomes_of ?_, fun h => ?_⟩
  · rw [hexec, if_pos (hready.mp h)]
    exact congrArg (fun d => Host.Outcome.next (s.setCore k d)) (putCmd_split hc hb ha rfl)
  · exact hexec.trans (by rw [if_neg fun g => h (hready.mpr g)])

/-- Settles O33: what a retirement does, what REL holds back, and when a command starts. -/
theorem commandsStartAndRetire : Obligations.CommandsStartAndRetire := ⟨commandsRetire, releaseWaits, commandsStart⟩

end Sys2Proof.Proofs

/-!
The refutation of `FencesTestsRetention`.
-/

namespace Sys2Proof.Proofs

open Sys2Proof.Machine Sys2Proof.Laws

/-! ### What a fence completes

`endUnplaceable` picks the regions that could have been placed on the fenced core by their entries in `State.regions`, and completes each by
its number, which names the first entry that has it. Where the numbers rise, the two agree, and a fence completes no region where none of
those it picks waits for cores (`endUnplaceable_of_rising`). Where a number is listed twice they differ; the obligation asks of the entries
only, and does not exclude that. -/

theorem le_of_mem_rising {α : Type} {lo : Nat} {m : SMap α} (h : smRising lo m = true) {e : Nat × α} (he : e ∈ m) : lo ≤ e.1 := by
  induction m generalizing lo with
  | nil => cases he
  | cons f m ih =>
    simp only [smRising, Bool.and_eq_true, decide_eq_true_eq] at h
    rcases List.mem_cons.mp he with rfl | he
    · exact h.1
    · have := ih h.2 he
      omega

/-- In a list whose numbers rise, an entry is found by its number. -/
theorem smFind_of_mem_rising {α : Type} {lo : Nat} {m : SMap α} (h : smRising lo m = true) {e : Nat × α} (he : e ∈ m) :
    smFind m e.1 = some e.2 := by
  induction m generalizing lo with
  | nil => cases he
  | cons f m ih =>
    simp only [smRising, Bool.and_eq_true, decide_eq_true_eq] at h
    rcases List.mem_cons.mp he with rfl | he
    · exact if_pos rfl
    · have hlt := le_of_mem_rising h.2 he
      exact (if_neg (by omega)).trans (ih h.2 he)

/-- The state of a region that waits for cores. -/
def WaitsForCores (g : Region) : Prop := g.st = .staging ∨ g.st = .ready ∨ g.st = .suspended

/-- A region that does not wait for cores is not completed for want of them. -/
theorem endUnplaced_of_not_waits {s : State} {r : Nat} {g : Region} (hg : s.region? r = some g) (h : ¬ WaitsForCores g) : endUnplaced s r = s := by
  unfold WaitsForCores at h
  unfold endUnplaced
  simp only [hg]
  rw [if_pos]
  simp only [Bool.or_eq_true, Bool.not_eq_true', Bool.or_eq_false_iff, beq_eq_false_iff_ne]
  tauto

theorem endUnplaceable_of_rising {s : State} {k : Nat} (hr : smRising 0 s.regions = true)
    (calm : ∀ e ∈ s.regions, clusterOf k ∈ launchClusters s e.2.part e.2.rcb → ¬ WaitsForCores e.2) : endUnplaceable s k = s := by
  unfold endUnplaceable
  have fixed (l : List (Nat × Region)) (h : ∀ e ∈ l, endUnplaced s e.1 = s) : l.foldl (fun s e => endUnplaced s e.1) s = s := by
    induction l with
    | nil => rfl
    | cons e l ih =>
      rw [List.foldl_cons, h e (List.mem_cons_self ..)]
      exact ih fun f hf => h f (List.mem_cons_of_mem _ hf)
  refine fixed _ fun e he => ?_
  obtain ⟨hmem, hnear⟩ := List.mem_filter.mp he
  exact endUnplaced_of_not_waits (smFind_of_mem_rising hr hmem) (calm e hmem (by simpa using hnear))

/-- A region that waits for cores of partition 5, which has none. -/
def unplacedRegion : Region := { part := 5, chan := none, seq := 1, age := 0, raw := 0, st := .ready }

/-- A region that runs, of partition 1, which holds cluster 0. -/
def nearRegion : Region := { part := 1, chan := none, seq := 2, age := 0, raw := 0, st := .running }

/-- Region 1 is listed twice, first as one that waits, then as one that runs; core 1 runs a member of it. -/
def listedTwice : State :=
  { State.reset with
    parts := [(1, { clusters := [0] })]
    regions := [(1, unplacedRegion), (1, nearRegion)]
    cores := [(1, { run := .running, rid := 1 })] }

/-- No entry of a region that could have been placed on core 0 waits. -/
theorem listedTwice_calm : ∀ e ∈ listedTwice.regions, 0 / 32 ∈ launchClusters listedTwice e.2.part e.2.rcb →
    e.2.st ≠ .staging ∧ e.2.st ≠ .ready ∧ e.2.st ≠ .suspended := by decide +kernel

/-- The fence completes the entry that waits, which takes core 1 from its region. -/
theorem run_fenceClass_listedTwice : ((fenceClass listedTwice 0 0).core 1).run = .idle := by decide +kernel

/-- Refutes O46: in the state `listedTwice`, the fence of class 0 on the idle core 0 changes core 1, which the clause on an idle core denies. The
statement wants the hypothesis that the numbers of the regions rise (`endUnplaceable_of_rising`). -/
theorem not_fencesTestsRetention : ¬ Obligations.FencesTestsRetention := by
  intro h
  obtain ⟨fenceIdle, -⟩ := h listedTwice 0 0
  obtain ⟨t, hnext, others, -⟩ := fenceIdle (by decide) listedTwice_calm rfl rfl
  have ht : fenceClass listedTwice 0 0 = t := Host.Outcome.next.inj hnext
  have stays : (t.core 1).run = .running := congrArg Core.run (others 1 (by decide))
  rw [← ht, run_fenceClass_listedTwice] at stays
  cases stays

end Sys2Proof.Proofs

/-!
SUPPORT and the proof of `StepRuns`: every instruction leads to a next state, which instruction a turn of each stream runs, and how the units of the
vector engine end.
-/

namespace Sys2Proof.Proofs

open Sys2Proof.Machine Sys2Proof.Laws

/-! ### Every instruction leads on -/

/-- The outcome is a next state. -/
def Leads (o : Out) : Prop := ∃ t, o = .next t

theorem leads_next (t : State) : Leads (.next t) := ⟨t, rfl⟩

theorem leads_ite {p : Prop} [Decidable p] {a b : Out} (ha : Leads a) (hb : Leads b) : Leads (if p then a else b) := by
  split
  · exact ha
  · exact hb

theorem leads_andThen {o : Out} (h : Leads o) (f : State → State) : Leads (andThen o f) := by
  obtain ⟨t, rfl⟩ := h
  exact leads_next (f t)

/-- Each offset of the page has a meaning, an unlisted one the answer that it is not served. -/
theorem leads_execVfRegisterWrite (vf off : Nat) (v : BitVec 64) (ide : Bool) (s : State) :
    Leads (execVfRegisterWrite vf off v ide s) := by
  unfold execVfRegisterWrite
  repeat' apply leads_ite
  all_goals exact ⟨_, rfl⟩

/-- The machine has no fault and refuses nothing: every instruction leads to a next state. -/
theorem leads_exec (i : Instr) (s : State) : Leads (exec i s) := by
  cases i with
  | vfRegisterWrite vf off v ide => exact leads_execVfRegisterWrite vf off v ide s
  | _ => exact ⟨_, rfl⟩

theorem leads_apIssue (s : State) : Leads (apIssue s) := by
  unfold apIssue
  dsimp only
  cases s.cur.ctx.bad with
  | some t => exact leads_ite (leads_next _) (leads_next _)
  | none => exact leads_ite (leads_next _) (leads_ite (leads_next _) (leads_ite (leads_next _) (leads_exec _ _)))

theorem leads_mxIssue (s : State) : Leads (mxIssue s) :=
  leads_ite (leads_next _) (leads_ite (leads_next _) (leads_ite (leads_next _)
    (leads_ite (leads_next _) (leads_ite (leads_next _) (leads_exec _ _)))))

theorem leads_turnStep (s : State) : Leads (turnStep s) := by
  unfold turnStep
  cases s.turn.2 with
  | ap => exact leads_ite (leads_andThen (leads_apIssue s) _) (leads_next _)
  | mx => exact leads_ite (leads_andThen (leads_mxIssue s) _) (leads_next _)
  | vx => exact leads_next _
  | tick => exact leads_next _

/-- Every state has a step. -/
theorem leads_step (s : State) : Leads (step s) := by
  unfold step
  cases s.agenda with
  | nil => exact leads_turnStep s
  | cons i rest => exact leads_exec i _

/-! ### A unit's pops -/

/-- A core with other tokens, its unit's pops taken or not. -/
def withPops (c : Core) (tok : SMap Nat) (popped : Bool) : Core := { c with tok := tok, vx := { c.vx with popped := popped } }

theorem unitPop_eq (c : Core) (pops : List (Nat × Nat)) : ∃ tok popped, unitPop c pops = withPops c tok popped := by
  unfold unitPop
  split
  · exact ⟨c.tok, c.vx.popped, rfl⟩
  · exact ⟨_, true, rfl⟩

section
variable (c : Core) (tok : SMap Nat) (popped : Bool)

theorem wordFault_withPops (is : List Instr) (t : Nat) : wordFault (withPops c tok popped) is t = wordFault c is t := rfl

theorem slotFault_withPops (n : Nat) (is : List Instr) (t : Nat) : slotFault n (withPops c tok popped) is t = slotFault n c is t := by
  induction n generalizing c is with
  | zero => exact wordFault_withPops c tok popped is t
  | succ n ih =>
    unfold slotFault
    rw [wordFault_withPops]
    cases wordFault c is t with
    | none => rfl
    | some f =>
      have h := ih { c with vx := { c.vx.extend t false 0 with vpc := c.vx.vpc + 1 } }
      dsimp only
      rw [← h]
      rfl

theorem bundleFault_withPops (is : List Instr) : bundleFault (withPops c tok popped) is = bundleFault c is := by
  simp only [bundleFault, slotFault_withPops]

theorem queuesReady_withPops (is : List Instr) : queuesReady (withPops c tok popped) is = queuesReady c is := rfl

end

/-- Taking its pops changes neither the fetch nor the decode of a bundle. -/
theorem bundleStands_unitPop {c : Core} {is : List Instr} (h : Claims.bundleStands c is) (pops : List (Nat × Nat)) :
    Claims.bundleStands (unitPop c pops) is := by
  obtain ⟨tok, popped, e⟩ := unitPop_eq c pops
  obtain ⟨hbad, hov, him, his, hf⟩ := h
  rw [e]
  exact ⟨hbad, hov, him, his, by rw [bundleFault_withPops]; exact hf⟩

/-- It changes nothing of whether the bundle's queues are ready. -/
theorem queuesReady_unitPop (c : Core) (is : List Instr) (pops : List (Nat × Nat)) : queuesReady (unitPop c pops) is = queuesReady c is := by
  obtain ⟨tok, popped, e⟩ := unitPop_eq c pops
  rw [e, queuesReady_withPops]

/-! ### Units -/

theorem curRuns_iff (s : State) : curRuns s = true ↔ s.cur.run = .running := by simp [curRuns]

/-- How the last bundle of a unit ends, once its slots have run to `u`. -/
def lastRes (first : Nat) (u : State) : UnitRes := if u.cur.run = .running then .done (unitEnd first u) else .trap u

/-- What a bundle with a `vext` that runs, from `s`, makes of the rest of its unit. -/
def joinRes (s : State) : UnitRes → UnitRes
  | .trap v => .trap (sameFault s v)
  | r => r

/-- A unit that would issue waits while a queue of one of its bundles is not ready. -/
def readyRes (ready : Bool) : UnitRes → UnitRes
  | .bad a f w => .bad a f w
  | .hold => .hold
  | r => if ready then r else .wait

theorem unitRun_last {s : State} {is : List Instr} (h : Claims.bundleStands s.cur is) (hv : anyVext is = false)
    (first n : Nat) (pops : List (Nat × Nat)) :
    unitRun first (n + 1) pops s
      = (pops ++ bundlePops s.cur is, readyRes (queuesReady s.cur is) (lastRes first (bundleRun is s))) := by
  obtain ⟨hbad, hov, him, his, hf⟩ := h
  subst his
  have him' : s.cur.imBad.contains (.vx, s.cur.vx.vpc.toNat) = false := by simpa using him
  unfold unitRun lastRes
  simp only [hbad, hov, him', hf, hv, Bool.false_eq_true, if_false, Bool.not_false, Bool.true_or, if_true, ← curRuns_iff]
  cases curRuns (bundleRun (bundleAt s.cur) s) <;> cases queuesReady s.cur (bundleAt s.cur) <;> rfl

/-- The unit goes on to the next bundle after the slots of `is` have run from `s`. -/
def Joins (is : List Instr) (s : State) : Prop := (bundleRun is s).cur.run = .running ∧ (bundleRun is s).cur.vc.atRet = false

theorem unitRun_joins {s : State} {is : List Instr} (h : Claims.bundleStands s.cur is) (hv : anyVext is = true)
    (hjoins : Joins is s)
    {first n : Nat} {pops pops' : List (Nat × Nat)} {r : UnitRes}
    (hrest : unitRun first n (pops ++ bundlePops s.cur is) (unitNext (bundleRun is s)) = (pops', r)) :
    unitRun first (n + 1) pops s = (pops', readyRes (queuesReady s.cur is) (joinRes s r)) := by
  obtain ⟨hbad, hov, him, his, hf⟩ := h
  subst his
  have him' : s.cur.imBad.contains (.vx, s.cur.vx.vpc.toNat) = false := by simpa using him
  obtain ⟨hrun, hret⟩ := hjoins
  have hrun' := (curRuns_iff _).mpr hrun
  unfold unitRun
  simp only [hbad, hov, him', hf, hv, hrun', hret, hrest, Bool.false_eq_true, if_false, Bool.not_true, Bool.or_self]
  cases r <;> cases queuesReady s.cur (bundleAt s.cur) <;> rfl

theorem unitRun_bad {s : State} {t f : Nat} (hbad : s.cur.vx.bad = none) (hov : overlayTargets s.cur 5 s.cur.vx.vpc.toNat = false)
    (him : (Stream.vx, s.cur.vx.vpc.toNat) ∉ s.cur.imBad) (hf : bundleFault s.cur (bundleAt s.cur) = some (t, f))
    (first n : Nat) (pops : List (Nat × Nat)) :
    unitRun first (n + 1) pops s = (pops ++ bundlePops s.cur (bundleAt s.cur), .bad (vxUnit s.cur) f (some (w64 t))) := by
  have him' : s.cur.imBad.contains (.vx, s.cur.vx.vpc.toNat) = false := by simpa using him
  unfold unitRun
  simp only [hbad, hov, him', hf, Bool.false_eq_true, if_false]

/-- The unit neither faults at decode nor meets an overlay. -/
def unitGoes : UnitRes → Prop
  | .bad _ _ _ => False
  | .hold => False
  | _ => True

theorem unitGoes_lastRes (ready : Bool) (first : Nat) (u : State) : unitGoes (readyRes ready (lastRes first u)) := by
  unfold lastRes
  split <;> cases ready <;> trivial

theorem unitGoes_joinRes {r : UnitRes} (h : unitGoes r) (ready : Bool) (s : State) : unitGoes (readyRes ready (joinRes s r)) := by
  cases r with
  | bad => exact h.elim
  | hold => exact h.elim
  | _ => cases ready <;> trivial

/-- The state in which a unit that goes leaves the turn; one with a queue that is not ready stalls. -/
def resState (s : State) : UnitRes → State
  | .done u => u
  | .trap u => u
  | _ => vxStall 4 s

theorem unitIssue_bad {s : State} {pops : List (Nat × Nat)} {a f : Nat} {w : Word}
    (h : unitRun s.cur.cycle 4096 [] s = (pops, .bad a f (some w))) : unitIssue s = vxFaultAt s s.turn.1 a f w := by
  unfold unitIssue
  simp only [h]
  rfl

theorem unitIssue_wait {s : State} {pops : List (Nat × Nat)} {r : UnitRes} (h : unitRun s.cur.cycle 4096 [] s = (pops, r)) (hr : unitGoes r)
    {w : Nat} (hw : tokensWait s.cur pops = some w) : unitIssue s = vxStall w s := by
  unfold unitIssue
  cases r with
  | bad => exact hr.elim
  | hold => exact hr.elim
  | _ => simp only [h, hw]

theorem unitIssue_go {s : State} {pops pops' : List (Nat × Nat)} {r r' : UnitRes}
    (h : unitRun s.cur.cycle 4096 [] s = (pops, r)) (hr : unitGoes r) (hw : tokensWait s.cur pops = none)
    (h' : unitRun s.cur.cycle 4096 [] (s.modCur fun c => unitPop c pops) = (pops', r')) :
    unitIssue s = resState (s.modCur fun c => unitPop c pops) r' := by
  unfold unitIssue
  cases r with
  | bad => exact hr.elim
  | hold => exact hr.elim
  | _ =>
    simp only [h, hw, h']
    cases r' <;> rfl

/-! ### Turns -/

theorem step_turn {s : State} (h : s.agenda = []) : step s = turnStep s := by
  unfold step
  rw [h]

theorem step_event {s : State} {i : Instr} {rest : List Instr} (h : s.agenda = i :: rest) : step s = exec i { s with agenda := rest } := by
  unfold step
  rw [h]

theorem step_ap {s : State} (ha : s.agenda = []) (ht : s.turn.2 = .ap) (hr : apRuns s = true) (hb : s.cur.ctx.bad = none)
    (hw : apFetchWaits s = false) (hi : apImBad s.cur = false) :
    step s = andThen (if extLeads s.cur then .next (apStall 0 (s.modCtx fun x => { x with lead := x.lead + 1 }))
      else exec (decodeAp (apWordAt s.cur)) s) (apAfter s) := by
  rw [step_turn ha]
  unfold turnStep apIssue
  simp only [ht, hr, hb, hw, hi, if_true, Bool.false_eq_true, if_false]

theorem step_mx {s : State} (ha : s.agenda = []) (ht : s.turn.2 = .mx) (hr : streamsRun s = true) (hm : s.cur.mx.routine.isSome = true)
    (hb : s.cur.mx.window.busy ≤ s.cur.cycle) (hp : s.cur.mx.mpc ≤ 4095) (ho : overlayTargets s.cur 4 s.cur.mx.mpc = false)
    (hi : (Stream.mx, s.cur.mx.mpc) ∉ s.cur.imBad) :
    step s = andThen (exec (decodeMx (imWord s.cur.mxIm s.cur.mx.mpc)) s) afterMx := by
  have hm' : s.cur.mx.routine.isNone = false := by simpa using hm
  have hi' : s.cur.imBad.contains (.mx, s.cur.mx.mpc) = false := by simpa using hi
  rw [step_turn ha]
  unfold turnStep mxIssue
  simp only [ht, hr, hm', ho, hi', if_true, Bool.false_eq_true, if_false, if_neg (Nat.not_lt.mpr hb), if_neg (Nat.not_lt.mpr hp)]

theorem step_vx {s : State} (ha : s.agenda = []) (ht : s.turn.2 = .vx) (hr : streamsRun s = true) (hc : s.cur.vc.atRet = false)
    (hb : s.cur.vx.busy ≤ s.cur.cycle) (hh : s.cur.vx.br = none → s.cur.vx.hold ≤ s.cur.cycle) (hx : s.cur.vx.bad = none) :
    step s = .next (passTurn (unitIssue s)) := by
  have hh' : ¬ (s.cur.vx.br.isNone = true ∧ s.cur.cycle < s.cur.vx.hold) := by
    rintro ⟨hn, hl⟩
    have := hh (Option.isNone_iff_eq_none.mp hn)
    omega
  rw [step_turn ha]
  unfold turnStep vxIssue
  simp only [ht, hr, hc, hx, hh', if_true, Bool.false_eq_true, if_false, if_neg (Nat.not_lt.mpr hb)]

/-- The AP's turn passes on after a word that adds no `ext` to those it has read. -/
theorem apAfter_lead (s : State) :
    apAfter s (apStall 0 (s.modCtx fun x => { x with lead := x.lead + 1 }))
      = passTurn (apStall 0 (s.modCtx fun x => { x with lead := x.lead + 1 })) := by
  have e : (apStall 0 (s.modCtx fun x => { x with lead := x.lead + 1 })).cur.ctx.ext = s.cur.ctx.ext := by simp [apStall]
  unfold apAfter
  rw [e, if_neg (Nat.lt_irrefl _)]

/-! ### The units of the VXE -/

theorem resState_last_wait (s : State) (first : Nat) (u : State) : resState s (readyRes false (lastRes first u)) = vxStall 4 s := by
  unfold lastRes
  split <;> rfl

theorem resState_last (s : State) (first : Nat) (u : State) :
    resState s (readyRes true (lastRes first u)) = if u.cur.run = .running then unitEnd first u else u := by
  unfold lastRes
  split <;> rfl

theorem resState_join_last (s' s : State) (first : Nat) (u : State) :
    resState s' (readyRes true (joinRes s (readyRes true (lastRes first u))))
      = if u.cur.run = .running then unitEnd first u else sameFault s u := by
  unfold lastRes
  split <;> rfl

/-- A bundle without a `vext`. -/
theorem unitIssue_single {s : State} {is : List Instr} (h : Claims.bundleStands s.cur is) (hv : anyVext is = false) :
    let go := s.modCur fun c => unitPop c (bundlePops s.cur is)
    (∀ w, tokensWait s.cur (bundlePops s.cur is) = some w → unitIssue s = vxStall w s)
    ∧ (tokensWait s.cur (bundlePops s.cur is) = none → queuesReady s.cur is = false → unitIssue s = vxStall 4 go)
    ∧ (tokensWait s.cur (bundlePops s.cur is) = none → queuesReady s.cur is = true →
        unitIssue s = if (bundleRun is go).cur.run = .running then unitEnd s.cur.cycle (bundleRun is go) else bundleRun is go) := by
  intro go
  have hgo : go.cur = unitPop s.cur (bundlePops s.cur is) := cur_modCur _ _
  have before := unitRun_last h hv s.cur.cycle 4095 []
  have after := unitRun_last (s := go) (by rw [hgo]; exact bundleStands_unitPop h _) hv s.cur.cycle 4095 []
  rw [hgo, queuesReady_unitPop] at after
  have hgoes := unitGoes_lastRes (queuesReady s.cur is) s.cur.cycle (bundleRun is s)
  refine ⟨fun w hw => unitIssue_wait before hgoes hw, fun hw hq => ?_, fun hw hq => ?_⟩
  · rw [hq] at after
    exact (unitIssue_go before hgoes hw after).trans (resState_last_wait _ _ _)
  · rw [hq] at after
    exact (unitIssue_go before hgoes hw after).trans (resState_last _ _ _)

/-- A bundle with a `vext` and the one it extends. -/
theorem unitIssue_pair {s : State} {is js : List Instr} (h : Claims.bundleStands s.cur is) (hv : anyVext is = true)
    (hjoins : Joins is s)
    (hj : Claims.bundleStands (unitNext (bundleRun is s)).cur js) (hjv : anyVext js = false)
    {go : State} (hgo : go = s.modCur fun c => unitPop c (bundlePops s.cur is ++ bundlePops (unitNext (bundleRun is s)).cur js))
    (hw : tokensWait s.cur (bundlePops s.cur is ++ bundlePops (unitNext (bundleRun is s)).cur js) = none)
    (hjoins' : Joins is go)
    (hj' : Claims.bundleStands (unitNext (bundleRun is go)).cur js)
    (hq : queuesReady go.cur is = true) (hq' : queuesReady (unitNext (bundleRun is go)).cur js = true) :
    let u := bundleRun js (unitNext (bundleRun is go))
    unitIssue s = if u.cur.run = .running then unitEnd s.cur.cycle u else sameFault go u := by
  intro u
  have hcur : go.cur = unitPop s.cur (bundlePops s.cur is ++ bundlePops (unitNext (bundleRun is s)).cur js) := by rw [hgo, cur_modCur]
  have before := unitRun_joins h hv hjoins (unitRun_last hj hjv s.cur.cycle 4094 ([] ++ bundlePops s.cur is))
  have after := unitRun_joins (s := go) (by rw [hcur]; exact bundleStands_unitPop h _) hv hjoins'
    (unitRun_last hj' hjv s.cur.cycle 4094 ([] ++ bundlePops go.cur is))
  rw [hq, hq', hgo] at after
  rw [unitIssue_go before (unitGoes_joinRes (unitGoes_lastRes _ _ _) _ _) hw after, ← hgo, resState_join_last]

/-- A bundle with a `vext` before one that faults at decode. -/
theorem unitIssue_pair_bad {s : State} {is : List Instr} (h : Claims.bundleStands s.cur is) (hv : anyVext is = true)
    (hjoins : Joins is s) {c : Core}
    (hc : (unitNext (bundleRun is s)).cur = c) {t f : Nat} (hbad : c.vx.bad = none) (hov : overlayTargets c 5 c.vx.vpc.toNat = false)
    (him : (Stream.vx, c.vx.vpc.toNat) ∉ c.imBad) (hf : bundleFault c (bundleAt c) = some (t, f)) :
    unitIssue s = vxFaultAt s s.turn.1 (vxUnit c) f (w64 t) := by
  subst hc
  exact unitIssue_bad (unitRun_joins h hv hjoins (unitRun_bad hbad hov him hf s.cur.cycle 4094 _))

/-- A slot that runs passes the state it leaves on to the slots after it. -/
theorem runSlots_cons {base s u : State} {is : List Instr} {t : Nat} (ts : List Nat)
    (h : exec (slotAt is t) (s.modCur fun c => c.atSlot t) = .next u) (hu : u.cur.run = .running) :
    runSlots base is (t :: ts) s = runSlots base is ts u := by
  have e : runSlot t (slotAt is t) s = u := by unfold runSlot; rw [h]
  simp only [runSlots, e, (curRuns_iff u).mpr hu, if_true]

/-- Settles O59: each turn is one lemma above (`step_ap`, `step_mx`, `step_vx` with the units), and every outcome is a next state. -/
theorem stepRuns : Obligations.StepRuns := by
  unfold Obligations.StepRuns
  refine ⟨?_, ?_, ?_, ?_, fun s i rest h => step_event h, leads_step⟩
  · rintro s i ha ht hr hb hw hi rfl
    have h := step_ap ha ht hr hb hw hi
    refine ⟨fun he => ?_, fun he => ?_⟩
    · rw [h, if_neg (by simp [he])]
    · rw [h, if_pos he]
      exact congrArg Host.Outcome.next (apAfter_lead s)
  · rintro s i ha ht hr hm hb hp ho hi rfl
    exact step_mx ha ht hr hm hb hp ho hi
  · intro s is ha ht hr hc hb hh hst go after next joins
    have hstep := step_vx ha ht hr hc hb hh hst.1
    rw [hstep]
    refine ⟨fun hv => ?_, fun hv hj => ⟨?_, ?_⟩⟩
    · obtain ⟨hwait, hstall, hgo⟩ := unitIssue_single hst hv
      refine ⟨fun w hw => by rw [hwait w hw], fun hw hq => by rw [hstall hw hq], fun hw hq => by rw [hgo hw hq]⟩
    · intro js hjs hjv pops ready hw _ hjoins hjs' hready
      rw [unitIssue_pair hst hv hj hjs hjv rfl hw hjoins hjs' hready.1 hready.2]
    · intro t f hbad hov him hf
      rw [unitIssue_pair_bad hst hv hj rfl hbad hov him hf]
  · intro base s u is t ts h hu
    exact ⟨rfl, runSlots_cons ts h hu⟩

end Sys2Proof.Proofs

/-!
SUPPORT. Words, encodings and decoders (02_encoding.md R22, R28, R33, R37, R39, R40): a word is its header, opcode and operand bits; the
decoder of a stream undoes the encoding, and a word it does not refuse is the encoding of what it gives.
-/

namespace Sys2Proof.Proofs
open Sys2Proof.Machine Sys2Proof.Laws

/-! ### Words and their fields -/

/-- The header bits of a word are its bits 31:23. -/
theorem hdrBits_hdrOfWord (w : BitVec 32) : hdrBits (hdrOfWord w) = fld w 23 9 := by
  ext i hi
  rw [BitVec.getElem_extractLsb', ← BitVec.getLsbD_eq_getElem, bit_hdrBits]
  have : i = 0 ∨ i = 1 ∨ i = 2 ∨ i = 3 ∨ i = 4 ∨ i = 5 ∨ i = 6 ∨ i = 7 ∨ i = 8 := by omega
  rcases this with rfl | rfl | rfl | rfl | rfl | rfl | rfl | rfl | rfl <;> simp [hdrOfWord, fld]

/-- Adjacent fields joined are one field. -/
theorem fld_append (w : BitVec 32) (p m n : Nat) : fld w (p + n) m ++ fld w p n = fld w p (m + n) :=
  BitVec.extractLsb'_append_extractLsb'_eq_extractLsb' rfl

/-- A word is its header, its opcode and its operand bits. -/
theorem packWord_fields (w : BitVec 32) : packWord (hdrOfWord w) (fld w 16 7) (fld w 0 16) = w := by
  unfold packWord
  rw [hdrBits_hdrOfWord]
  calc fld w 23 9 ++ fld w 16 7 ++ fld w 0 16 = fld w 16 16 ++ fld w 0 16 := congrArg (· ++ fld w 0 16) (fld_append w 16 9 7)
    _ = fld w 0 32 := fld_append w 0 16 16
    _ = w := BitVec.extractLsb'_eq_self

/-- Which word a header, an opcode and operand bits make. -/
theorem packWord_eq_iff {h : Hdr} {op : BitVec 7} {lo : BitVec 16} {w : BitVec 32} :
    packWord h op lo = w ↔ hdrOfWord w = h ∧ (fld w 16 7).toNat = op.toNat ∧ fld w 0 16 = lo := by
  constructor
  · rintro rfl
    exact ⟨hdr_packWord .., by rw [op_packWord], (fld_packWord _ _ _ _ _ (by omega)).trans BitVec.extractLsb'_eq_self⟩
  · rintro ⟨rfl, ho, rfl⟩
    rw [← BitVec.eq_of_toNat_eq ho, packWord_fields]

/-- The word of `ext` and `vext` as a header, an opcode and operand bits. -/
theorem ext_word (i : BitVec 16) : (0x007F : BitVec 16) ++ i = packWord ⟨false, false, false, false, 0, 0⟩ 0x7F i := rfl

/-- A field is two joined pieces when its high and low parts are the pieces. -/
theorem fld_eq_append {w : BitVec 32} {p m n : Nat} {x : BitVec m} {y : BitVec n} :
    fld w p (m + n) = x ++ y ↔ fld w (p + n) m = x ∧ fld w p n = y := by
  rw [← fld_append]
  constructor
  · intro h
    have hx := congrArg (BitVec.extractLsb' n m) h
    have hy := congrArg (BitVec.extractLsb' 0 n) h
    rw [BitVec.extractLsb'_append_eq_left, BitVec.extractLsb'_append_eq_left] at hx
    rw [BitVec.extractLsb'_append_eq_right, BitVec.extractLsb'_append_eq_right] at hy
    exact ⟨hx, hy⟩
  · rintro ⟨rfl, rfl⟩
    rfl

/-- `fld_eq_append` at the widths of the last piece of an operand encoding, so that `simp` can take operand bits apart piece by piece. -/
theorem fld_eq_pieces {w : BitVec 32} {p m : Nat} {x : BitVec m} :
    (∀ y : BitVec 1, fld w p (m + 1) = x ++ y ↔ fld w (p + 1) m = x ∧ fld w p 1 = y)
    ∧ (∀ y : BitVec 2, fld w p (m + 2) = x ++ y ↔ fld w (p + 2) m = x ∧ fld w p 2 = y)
    ∧ (∀ y : BitVec 3, fld w p (m + 3) = x ++ y ↔ fld w (p + 3) m = x ∧ fld w p 3 = y)
    ∧ (∀ y : BitVec 4, fld w p (m + 4) = x ++ y ↔ fld w (p + 4) m = x ∧ fld w p 4 = y)
    ∧ (∀ y : BitVec 5, fld w p (m + 5) = x ++ y ↔ fld w (p + 5) m = x ∧ fld w p 5 = y)
    ∧ (∀ y : BitVec 6, fld w p (m + 6) = x ++ y ↔ fld w (p + 6) m = x ∧ fld w p 6 = y)
    ∧ (∀ y : BitVec 7, fld w p (m + 7) = x ++ y ↔ fld w (p + 7) m = x ∧ fld w p 7 = y)
    ∧ (∀ y : BitVec 11, fld w p (m + 11) = x ++ y ↔ fld w (p + 11) m = x ∧ fld w p 11 = y)
    ∧ (∀ y : BitVec 14, fld w p (m + 14) = x ++ y ↔ fld w (p + 14) m = x ∧ fld w p 14 = y) := by
  refine ⟨?_, ?_, ?_, ?_, ?_, ?_, ?_, ?_, ?_⟩ <;> exact fun _ => fld_eq_append

/-- A field equals a constant when its high and low parts equal those of the constant. -/
theorem fld_eq_iff (m n : Nat) {w : BitVec 32} {p : Nat} {c : BitVec (m + n)} :
    fld w p (m + n) = c ↔ fld w (p + n) m = c.extractLsb' n m ∧ fld w p n = c.extractLsb' 0 n := by
  rw [← fld_eq_append, BitVec.extractLsb'_append_extractLsb']

/-- A field within the operand bits is a field of them. -/
theorem fld_of_operands {w : BitVec 32} {lo : BitVec 16} (hf : fld w 0 16 = lo) {p n : Nat} (h : p + n ≤ 16) :
    fld w p n = lo.extractLsb' p n := by
  rw [← packWord_eq_iff.mpr ⟨rfl, rfl, hf⟩, fld_packWord _ _ _ _ _ h]

/-- An operand that its encoding splits is its two parts joined. -/
theorem extract_join (a b : Nat) (x : BitVec (a + b)) : x.extractLsb' b a ++ x.extractLsb' 0 b = x :=
  BitVec.extractLsb'_append_extractLsb'

/-- The parts of two joined pieces are the pieces. -/
theorem extract_append (a b : Nat) (x : BitVec a) (y : BitVec b) : (x ++ y).extractLsb' b a = x ∧ (x ++ y).extractLsb' 0 b = y :=
  ⟨BitVec.extractLsb'_append_eq_left, BitVec.extractLsb'_append_eq_right⟩

/-! ### Decoding an encoding

An encoding fixes the opcode, which picks the row of the decoder, and the operand bits, which decide the row's tests and give the operands
back. -/

/-- The AP decoder gives an instruction of its stream back from its word. -/
theorem decodeAp_of_encode {i : Instr} {w : BitVec 32} (hs : i.stream = some .ap) (he : encode i = some w) :
    decodeAp w = i := by
  cases i
  all_goals cases hs
  case illegalOpcode | illegalField => cases he
  case ext i =>
    obtain ⟨hh, ho, hf⟩ := packWord_eq_iff.mp ((ext_word i).symm.trans (Option.some.inj he))
    unfold decodeAp
    rw [ho]
    change ite _ _ _ = _
    rw [if_pos (by rw [← hdrBits_hdrOfWord, hh]; rfl), hf]
  all_goals
    obtain ⟨rfl, ho, hf⟩ := packWord_eq_iff.mp (Option.some.inj he)
    unfold decodeAp
    rw [ho]
  case nop | mxwait | vxwait | btwaitAll | wlDone | wlClose | pbFree | rgYield | eret | wfe =>
    change ite _ _ _ = _
    simp [fld_of_operands hf]
  all_goals simp only [fld_eq_pieces, Nat.reduceAdd] at hf
  case sext | zext | addi | andi | ori | xori | shli | shri | srai | movi | cmp | cmpi | bprep | sysr | sysw =>
    conv_lhs => whnf
    simp only [hf, extract_join 1 5, extract_join 2 1]
  all_goals change ite _ _ _ = _
  case pmovToPf => simp [hf, fld_eq_iff 5 6]
  case sdSeed | cxWcnt | cxSbar | cxAbort | cxBar | rgSpawn | rgNext | rgSteal | rgStep => simp [hf, fld_eq_iff 4 5]
  case sdEmit | sdApply | sdGap | sdFetch | sdKey | cxPut | cxGet | cxAred | cxAgath | rgExit =>
    simp [fld_eq_iff 4 5] at hf
    simp [hf, fld_eq_iff 4 5, fld_eq_iff 9 7]
  all_goals simp only [hf, extract_join 2 1, if_true, if_false, BitVec.ofNat_eq_ofNat, BitVec.reduceEq, and_true, and_false, false_and]

/-- The VXE decoder gives an instruction of its stream back from its word. -/
theorem decodeVx_of_encode {i : Instr} {w : BitVec 32} (hs : i.stream = some .vx) (he : encode i = some w) :
    decodeVx w = i := by
  cases i
  all_goals cases hs
  case illegalOpcode | illegalField => cases he
  case vext i =>
    obtain ⟨hh, ho, hf⟩ := packWord_eq_iff.mp ((ext_word i).symm.trans (Option.some.inj he))
    unfold decodeVx
    rw [ho]
    change ite _ _ _ = _
    rw [if_pos (by rw [← hdrBits_hdrOfWord, hh]; rfl), hf]
  all_goals
    obtain ⟨rfl, ho, hf⟩ := packWord_eq_iff.mp (Option.some.inj he)
    unfold decodeVx
    rw [ho]
  case vret | vshd | vnop =>
    change ite _ _ _ = _
    simp [fld_of_operands hf]
  all_goals simp only [fld_eq_pieces, Nat.reduceAdd] at hf
  case vcmpF32 | vcmpF16 | vcmpBf16 | vicmp | vsplat | vidx | vbcst | vrot | vwin =>
    conv_lhs => whnf
    simp only [hf, extract_join 1 5, extract_join 2 1]
  all_goals change ite _ _ _ = _
  case vrandSet =>
    have h1 := (fld_eq_iff 5 1).mp hf.2
    simp [hf, h1]
  all_goals simp only [hf, extract_join 2 1, extract_join 1 6, if_true, if_false, BitVec.ofNat_eq_ofNat, BitVec.reduceEq, and_true, and_false]

/-- The MXE decoder gives an instruction of its stream back from its word. -/
theorem decodeMx_of_encode {i : Instr} {w : BitVec 32} (hs : i.stream = some .mx) (he : encode i = some w) :
    decodeMx w = i := by
  cases i
  all_goals cases hs
  case illegalOpcode | illegalField => cases he
  all_goals
    obtain ⟨rfl, ho, hf⟩ := packWord_eq_iff.mp (Option.some.inj he)
    unfold decodeMx
    rw [ho]
  case mxNop | mxSwap | mxMark | mxBias | mxRet =>
    change ite _ _ _ = _
    simp [fld_of_operands hf]
  all_goals simp only [fld_eq_pieces, Nat.reduceAdd] at hf
  case mxRun =>
    conv_lhs => whnf
    simp only [hf, extract_join 2 6]
  all_goals change ite _ _ _ = _
  all_goals simp only [hf, extract_join 2 6, if_true, BitVec.ofNat_eq_ofNat, and_true]

/-! ### What a decoder makes of a word -/

/-- What the decoder of stream `st` makes of the word `w`: an instruction whose word is `w`, or a refused word that holds `w` whole. -/
inductive Reads (st : Stream) (w : BitVec 32) : Instr → Prop
  | word {i : Instr} (op : BitVec 7) (lo : BitVec 16) (he : encode i = some (packWord (hdrOfWord w) op lo))
      (ho : (fld w 16 7).toNat = op.toNat) (hf : fld w 0 16 = lo) : Reads st w i
  | illegalOpcode : Reads st w (.illegalOpcode st w)
  | illegalField : Reads st w (.illegalField st w)

/-- A row of a decoder under a test of its fixed bits. -/
theorem Reads.ite {st : Stream} {w : BitVec 32} {c : Prop} [Decidable c] {t e : Instr} (ht : c → Reads st w t) (he : Reads st w e) :
    Reads st w (if c then t else e) := by
  split
  · exact ht ‹c›
  · exact he

/-- The row of `ext` and `vext`, which have no header. -/
theorem Reads.extWord {st : Stream} {w : BitVec 32} {i : Instr} (ho : (fld w 16 7).toNat = 0x7F) (hc : fld w 23 9 = 0)
    (he : encode i = some ((0x007F : BitVec 16) ++ fld w 0 16)) : Reads st w i := by
  refine .word 0x7F _ ?_ ho rfl
  rw [he, ext_word]
  unfold packWord
  rw [hdrBits_hdrOfWord, hc]
  rfl

/-- Every row of the AP decoder. -/
theorem decodeAp_reads (w : BitVec 32) : Reads .ap w (decodeAp w) := by
  unfold decodeAp
  split
  all_goals rename_i ho
  all_goals repeat' (refine Reads.ite (fun hc => ?_) ?_)
  all_goals try exact Reads.illegalField
  all_goals try exact Reads.illegalOpcode
  all_goals try exact Reads.extWord ho hc rfl
  all_goals
    refine Reads.word _ _ rfl ho ?_
    simp only [fld_eq_pieces, Nat.reduceAdd, extract_append 1 5, extract_append 2 1, and_self, *]

/-- Every row of the VXE decoder. -/
theorem decodeVx_reads (w : BitVec 32) : Reads .vx w (decodeVx w) := by
  unfold decodeVx
  split
  all_goals rename_i ho
  all_goals repeat' (refine Reads.ite (fun hc => ?_) ?_)
  all_goals try exact Reads.illegalField
  all_goals try exact Reads.illegalOpcode
  all_goals try exact Reads.extWord ho hc rfl
  all_goals
    refine Reads.word _ _ rfl ho ?_
    simp only [fld_eq_pieces, Nat.reduceAdd, extract_append 1 5, extract_append 2 1, extract_append 1 6, and_self, *]

/-- Every row of the MXE decoder. -/
theorem decodeMx_reads (w : BitVec 32) : Reads .mx w (decodeMx w) := by
  unfold decodeMx
  split
  all_goals rename_i ho
  all_goals repeat' (refine Reads.ite (fun hc => ?_) ?_)
  all_goals try exact Reads.illegalField
  all_goals try exact Reads.illegalOpcode
  all_goals
    refine Reads.word _ _ rfl ho ?_
    simp only [fld_eq_pieces, Nat.reduceAdd, extract_append 2 6, and_self, *]

/-- An instruction that a decoder gives and does not refuse has the word it was read from. -/
theorem Reads.encode_eq {st : Stream} {w : BitVec 32} {i : Instr} (h : Reads st w i) (hl : i.isIllegal = false) : encode i = some w := by
  cases h with
  | word op lo he ho hf => rw [he, packWord_eq_iff.mpr ⟨rfl, ho, hf⟩]
  | illegalOpcode => cases hl
  | illegalField => cases hl

/-- A refused word has no encoding. -/
theorem encode_of_isIllegal {i : Instr} (h : i.isIllegal = true) : encode i = none := by
  unfold Instr.isIllegal at h
  split at h
  · rfl
  · rfl
  · cases h

/-- A refused word is never well-formed. -/
theorem wf_of_isIllegal {i : Instr} (h : i.isIllegal = true) : i.wf = false := by
  unfold Instr.isIllegal at h
  split at h
  · rfl
  · rfl
  · cases h

/-- What a decoder refuses it refuses by name, and holds whole. -/
theorem Reads.refused {st : Stream} {w : BitVec 32} {i : Instr} (h : Reads st w i) (hi : i.isIllegal = true) :
    i = .illegalOpcode st w ∨ i = .illegalField st w := by
  cases h with
  | word op lo he ho hf => rw [encode_of_isIllegal hi] at he; cases he
  | illegalOpcode => exact .inl rfl
  | illegalField => exact .inr rfl

/-- The decoder of each stream, for every word. -/
theorem decodeStream_reads (st : Stream) (w : BitVec 32) : Reads st w (decodeStream st w) := by
  cases st
  case ap => exact decodeAp_reads w
  case mx => exact decodeMx_reads w
  case vx => exact decodeVx_reads w

/-- The decoder of each stream gives an instruction of the stream back from its word. -/
theorem decodeStream_of_encode {i : Instr} {st : Stream} {w : BitVec 32} (hs : i.stream = some st) (he : encode i = some w) :
    decodeStream st w = i := by
  cases st
  case ap => exact decodeAp_of_encode hs he
  case mx => exact decodeMx_of_encode hs he
  case vx => exact decodeVx_of_encode hs he

/-- Every instruction of a stream that is not a refused word has a word. -/
theorem exists_encode {i : Instr} {st : Stream} (hs : i.stream = some st) (hl : i.isIllegal = false) : ∃ w, encode i = some w := by
  cases i
  case illegalOpcode | illegalField => cases hl
  any_goals exact ⟨_, rfl⟩
  all_goals cases hs

/-! ### The obligations about words -/

/-- Settles O56: each word by evaluation of its stream's decoder. -/
theorem decodeWords : Obligations.DecodeWords := by
  unfold Obligations.DecodeWords
  refine ⟨rfl, rfl, rfl, rfl, rfl, rfl, rfl, rfl, rfl, rfl, rfl, rfl, rfl, rfl, rfl, rfl, rfl, rfl⟩

/-- Settles O57: the decoder undoes the encoding, and a word that decodes to an instruction is its encoding. -/
theorem decodeEncode : Obligations.DecodeEncode := by
  unfold Obligations.DecodeEncode
  intro i st hs hl
  obtain ⟨w, he⟩ := exists_encode hs hl
  refine ⟨w, he, decodeStream_of_encode hs he, fun v hv => ?_⟩
  have hr : Reads st v i := hv ▸ decodeStream_reads st v
  exact Option.some.inj ((hr.encode_eq hl).symm.trans he)

/-- Settles O58: a refused word is neither encoded nor well-formed, so the decoder named it. -/
theorem refusedWords : Obligations.RefusedWords := by
  unfold Obligations.RefusedWords
  exact fun w st hi => ⟨(decodeStream_reads st w).refused hi, wf_of_isIllegal hi⟩

end Sys2Proof.Proofs

/-!
SUPPORT. A guarded-off word (02_encoding.md R25, R27), and where the statement about illegal words fails.
-/

namespace Sys2Proof.Proofs
open Sys2Proof.Machine Sys2Proof.Laws

/-! ### A word whose guard does not hold -/

/-- A word with header `h` issues in the main context and is guarded off: it passes the checks at decode, it waits for nothing, and its guard does
not hold. -/
structure GuardedOff (h : Hdr) (s : State) : Prop where
  vs : h.vs.toNat < 2
  main : s.cur.inHandler = false
  ext : s.cur.main.ext = []
  masks : ∀ k, s.cur.sys.oum.getLsbD k = true ∧ s.cur.sys.ccm.getLsbD k = true ∨ 26 ≤ k
  guard : pr s h.g = false
  free : s.cur.pend = none
  pushes : ∀ e ∈ s.cur.pushWait, e.1 ≠ Stream.ap
  tokens : s.cur.main.popped = true ∨ ∀ f < 6, tokSum (hdrPops .ap h) f ≤ s.cur.tokens f

theorem ctx_of_main {c : Core} (hm : c.inHandler = false) : c.ctx = c.main := by
  unfold Core.ctx
  simp [hm]

theorem held_of_main {c : Core} (hm : c.inHandler = false) : c.held = c.pend := by
  unfold Core.held
  simp [hm]

section
variable {h : Hdr} {sp : ApSpec} {s : State}

theorem apDecode_off (g : GuardedOff h s) (hb : sp.bad = false) (hk : sp.cls < 26) : apDecodeFault h sp s.cur = none := by
  obtain ⟨ho, hc⟩ : s.cur.sys.oum.getLsbD sp.cls = true ∧ s.cur.sys.ccm.getLsbD sp.cls = true := (g.masks sp.cls).resolve_right (by omega)
  have hv := g.vs
  unfold apDecodeFault
  simp [ctx_of_main g.main, g.ext, hb, g.main, ho, hc]
  omega

theorem apWait_off (g : GuardedOff h s) : apWait h sp false s.cur = none := by
  unfold apWait
  rw [if_neg (by simp [pushHeld_false g.pushes]), if_neg, if_neg (by simp), if_neg (by simp)]
  rintro ⟨hp, hr⟩
  rw [ctx_of_main g.main] at hp
  rcases g.tokens with t | t
  · simp [hp] at t
  · simp [popsReady_of t] at hr

/-- Its body is not run (R25). -/
theorem apWord_off (g : GuardedOff h s) (hb : sp.bad = false) (hk : sp.cls < 26) (body : State → Res) (off : State → State) :
    apWord h sp body s off = apOff h sp (off (apPops h s)) := by
  have hon : (pr s h.g || s.cur.held.isSome) = false := by simp [g.guard, held_of_main g.main, g.free]
  unfold apWord
  simp only [apDecode_off g hb hk, hon, apWait_off g, Bool.not_false, if_true]

end

/-- The mark of its pops is used up as a word is finished. -/
theorem wordDone_popped (h : Hdr) (sp : ApSpec) (s : State) (c : Core) (x : ApCtx) (n : Nat) :
    wordDone h sp s c (({ x with popped := true } : ApCtx).advance n) = wordDone h sp s c (x.advance n) := by
  have hx : issuedCtx (({ x with popped := true } : ApCtx).advance n) = issuedCtx (x.advance n) := by
    rw [← advance_issued, ← advance_issued]
    rfl
  unfold wordDone coreDone
  exact congrArg (fun y => s.setCur (Core.setCtx _ y)) hx

/-- A guarded-off word runs: once its pops are taken, all that its kind still does is to change the core to `c`, which leaves the state `t`;
then it makes its pushes and moves the pc. -/
theorem wordRuns_off {i : Instr} {h : Hdr} {sp : ApSpec} {s t : State} {body : State → Res} {off : State → State} {c : Core}
    (g : GuardedOff h s) (hi : exec i s = .next (apWord h sp body s off)) (hb : sp.bad = false) (hk : sp.cls < 26)
    (ht : (if sp.cmd then takeSeq (off (apPops h s)) else off (apPops h s)) = t) (ho : OfCur (apPops h s) t)
    (hc : t.cur = (poppedTok h s.cur c).setCtx { s.cur.ctx with popped := true }) (hh : c.hnd = s.cur.hnd) :
    WordRuns i h { cls := 0 } s c (s.cur.main.advance 16384) := by
  refine ⟨?_, onlyCur_setCur s _⟩
  have hwords : c.apWords = 16384 := by
    have hm := g.main
    unfold Core.inHandler at hm
    unfold Core.apWords Core.inHandler
    rw [hh, hm]
    rfl
  rw [hi, apWord_off g hb hk]
  unfold apOff
  rw [ht, apFinish_eq ((ofCur_apPops h s).trans ho) hc, apAdvance_wordDone, wordDone_popped, hwords, ctx_of_main g.main]
  rfl

/-- Taking a sequence number and counting commute with the pops of a word. -/
theorem popCore_counted (h : Hdr) (c : Core) (r : Rg → Rg) :
    { popCore h c with cmdSeq := (popCore h c).cmdSeq + 1, rg := r (popCore h c).rg }
      = (poppedTok h c { c with cmdSeq := c.cmdSeq + 1, rg := r c.rg }).setCtx { c.ctx with popped := true } := by
  have hin (n : Nat) (g : Rg) : (poppedTok h c { c with cmdSeq := n, rg := g }).inHandler = c.inHandler := rfl
  rw [popCore_eq]
  unfold Core.setCtx
  rw [hin c.cmdSeq c.rg, hin (c.cmdSeq + 1) (r c.rg)]
  cases c.inHandler <;> rfl

section
variable {i : Instr} {h : Hdr} {sp : ApSpec} {s : State} {body : State → Res}

/-- A guarded-off word that is no engine command. -/
theorem wordRuns_off_plain (g : GuardedOff h s) (hi : exec i s = .next (apWord h sp body s)) (hb : sp.bad = false) (hk : sp.cls < 26)
    (hs : sp.cmd = false) : WordRuns i h { cls := 0 } s s.cur (s.cur.main.advance 16384) :=
  wordRuns_off g hi hb hk (if_neg (by simp [hs])) (.refl _) ((cur_apPops h s).trans (popCore_eq h s.cur)) rfl

/-- A guarded-off engine command. -/
theorem wordRuns_off_cmd (g : GuardedOff h s) (hi : exec i s = .next (apWord h sp body s)) (hb : sp.bad = false) (hk : sp.cls < 26)
    (hs : sp.cmd = true) : WordRuns i h { cls := 0 } s { s.cur with cmdSeq := s.cur.cmdSeq + 1 } (s.cur.main.advance 16384) :=
  wordRuns_off g hi hb hk (if_pos hs) (ofCur_modCur _ _)
    (by rw [id_eq, takeSeq, cur_modCur, cur_apPops]; exact popCore_counted h s.cur id) rfl

/-- A guarded-off region word that is counted by `r` besides. -/
theorem wordRuns_off_counted (g : GuardedOff h s) (r : Rg → Rg) (hi : exec i s = .next (apWord h sp body s fun t => modRg t r))
    (hb : sp.bad = false) (hk : sp.cls < 26) (hs : sp.cmd = true) :
    WordRuns i h { cls := 0 } s { s.cur with cmdSeq := s.cur.cmdSeq + 1, rg := r s.cur.rg } (s.cur.main.advance 16384) :=
  wordRuns_off g hi hb hk (if_pos hs) ((ofCur_modCur _ _).trans (ofCur_modCur _ _))
    (by rw [takeSeq, modRg, cur_modCur, cur_modCur, cur_apPops]; exact popCore_counted h s.cur r) rfl

end

/-- Settles O21: each word's meaning is one `apWord`, whose guard is off. -/
theorem guardedOffWords : Obligations.GuardedOffWords := by
  unfold Obligations.GuardedOffWords
  intro h d a b s hvs hmain hext hmasks hguard hfree hpush htok off
  have g : GuardedOff h s := ⟨hvs, hmain, hext, hmasks, hguard, hfree, hpush, htok⟩
  refine ⟨fun i hi => ?_, fun i hi => ?_, fun i hi => ?_, ?_⟩
  · simp only [List.mem_cons, List.not_mem_nil, or_false] at hi
    rcases hi with rfl | rfl | rfl | rfl | rfl | rfl | rfl | rfl | rfl | rfl
    all_goals exact wordRuns_off_plain g rfl rfl (of_decide_eq_true rfl) rfl
  · simp only [List.mem_cons, List.not_mem_nil, or_false] at hi
    rcases hi with rfl | rfl | rfl | rfl | rfl | rfl | rfl | rfl | rfl
    all_goals exact wordRuns_off_cmd g rfl rfl (of_decide_eq_true rfl) rfl
  · simp only [List.mem_cons, List.not_mem_nil, or_false] at hi
    rcases hi with rfl | rfl
    all_goals exact wordRuns_off_counted g (fun r => { r with k := r.k + 1 }) rfl rfl (of_decide_eq_true rfl) rfl
  · exact wordRuns_off_counted g (fun r => { r with spawnCnt := r.spawnCnt + 1 }) rfl rfl (of_decide_eq_true rfl) rfl

/-! ### Illegal words of a stalled stream -/

/-- A running core whose AP has stalled for tokens. -/
def stalledState : State := State.reset.setCur { run := .running, main := { stall := 1 } }

/-- Refutes O53: a fault of an AP word ends its stall before the kernel ends, so where the stream had stalled the state that `apFault` leaves is not
the one that `endKernel` alone leaves: its core shows stall cause 0, and not 1. -/
theorem not_wordsChecked : ¬ Obligations.WordsChecked := by
  unfold Obligations.WordsChecked
  rintro ⟨-, -, -, hill⟩
  obtain ⟨-, -, -, -, -, hfault⟩ := hill 0 stalledState
  have hstall := congrArg (fun t => t.cur.main.stall) (hfault rfl)
  exact absurd hstall (by decide)

end Sys2Proof.Proofs

/-!
SUPPORT for `StepKeepsInv`: the canonical form of memory is kept. Part 1: the updates of fields, an engine's translation, the retirement of
commands, the end of a run and exceptions. For each operation `f` on states, `inv_f` says that `f` keeps it.
-/

namespace Sys2Proof.Proofs

open Sys2Proof.Machine Sys2Proof.Laws

section
variable {s t : State} {k rid pn die cause status bytes : Nat} {m : Cmd}

/-! ### Updates of other fields -/

theorem inv_ite {p : Prop} [Decidable p] (hs : s.Inv) (ht : t.Inv) : (if p then s else t).Inv := by
  split
  · exact hs
  · exact ht

theorem inv_ite_fst {α : Type} {p : Prop} [Decidable p] {a b : State × α} (ha : a.1.Inv) (hb : b.1.Inv) : (if p then a else b).1.Inv := by
  split
  · exact ha
  · exact hb

theorem inv_setCore {c : Core} (h : s.Inv) : (s.setCore k c).Inv := h
theorem inv_setRegion {g : Region} (h : s.Inv) : (s.setRegion rid g).Inv := h
theorem inv_setPart {p : Part} (h : s.Inv) : (s.setPart pn p).Inv := h
theorem inv_setQuern {q : Quern} (h : s.Inv) : (s.setQuern k q).Inv := h
theorem inv_modCur {f : Core → Core} (h : s.Inv) : (s.modCur f).Inv := h
theorem inv_modCtx {f : ApCtx → ApCtx} (h : s.Inv) : (s.modCtx f).Inv := h
theorem inv_setEv (h : s.Inv) : (setEv s k).Inv := h

/-! ### An engine's translation -/

theorem inv_xlNow {va : Word} {n : Need} {pages : List Nat} (h : s.Inv) : (xlNow s k va n pages).1.Inv := by
  induction pages generalizing s with
  | nil => exact h
  | cons v rest ih =>
    unfold xlNow
    extract_lets die pn s1 r
    have h1 : s1.1.Inv := by
      dsimp only [s1]
      split
      · exact h
      · split <;> exact h
    clear_value s1 r
    cases r with
    | ok x =>
      have h2 := ih h1
      dsimp only
      split <;> simp_all only
    | _ => exact h1

theorem inv_engCheck {va : Word} {len : Nat} {n : Need} {r : State × AccRes} (h : s.Inv) (e : engCheck s k va len n = r) : r.1.Inv := by
  subst e
  unfold engCheck
  split
  · exact h
  · split
    · exact h
    · split
      · exact inv_xlNow h
      · exact h

/-! ### Commands -/

theorem inv_recordCmd (h : s.Inv) : (recordCmd s k m status cause bytes).Inv := by
  unfold recordCmd
  dsimp only
  refine inv_setEv (inv_setCore ?_)
  split
  · split
    · exact h
    · exact inv_setEv (inv_spadStore k _ _ h)
  · exact h

theorem inv_retireCmd (h : s.Inv) : (retireCmd s k m status cause bytes).Inv := by
  unfold retireCmd
  split
  · exact h
  · exact inv_recordCmd h

theorem inv_releaseCmd (h : s.Inv) : (releaseCmd s k m).Inv := by
  unfold releaseCmd
  split
  · exact inv_retireCmd h
  · exact h

theorem inv_abortCmds (h : s.Inv) : (abortCmds s k cause).Inv := by
  refine inv_foldl _ (fun t m ht => ?_) _ h
  split
  · exact ht
  · exact inv_retireCmd ht

theorem inv_attemptEnds {att : BitVec 8} (h : s.Inv) : (attemptEnds s k att).Inv := by
  unfold attemptEnds
  refine inv_setCore (inv_foldl _ (fun t m ht => ?_) _ h)
  split
  · exact inv_retireCmd ht
  · exact ht

theorem inv_noticeAtt {a : BitVec 8} (h : s.Inv) : (noticeAtt s k a).Inv := by
  unfold noticeAtt
  dsimp only
  split
  · exact inv_attemptEnds h
  · exact h

/-! ### The end of a run -/

theorem inv_keepStats (h : s.Inv) : (keepStats s k).Inv := by
  unfold keepStats
  dsimp only
  split
  · exact h
  · split <;> exact h

theorem inv_closeMember (h : s.Inv) : (closeMember s k).Inv := by
  unfold closeMember
  dsimp only
  refine inv_keepStats ?_
  split <;> exact h

theorem inv_stopMember {strm addr : Nat} (h : s.Inv) : (stopMember s k cause strm addr).Inv :=
  inv_setCore (inv_closeMember (inv_abortCmds h))

theorem inv_noteHeldFault (h : s.Inv) : (noteHeldFault s k).Inv := by
  unfold noteHeldFault
  dsimp only
  split <;> exact h

theorem inv_freeCores (h : s.Inv) : (freeCores s rid).Inv := h

/-- Every running member of a region stops. -/
theorem inv_stopMembers {l : List Nat} {strm addr : Nat} (h : s.Inv) :
    (l.foldl (fun s k => stopMember (noteHeldFault s k) k cause strm addr) s).Inv :=
  inv_foldl _ (fun _ _ ht => inv_stopMember (inv_noteHeldFault ht)) _ h

theorem inv_endOne {e : RegionEnd} (h : s.Inv) : (endOne s rid e).Inv := by
  have hf := inv_freeCores (rid := rid) (inv_stopMembers (l := runningOf s rid) (cause := e.cause) (strm := 3) (addr := 0) h)
  unfold endOne
  dsimp only
  split
  · exact inv_setRegion hf
  · exact hf

theorem inv_endRegion {e : RegionEnd} (h : s.Inv) : (endRegion s rid e).Inv := by
  unfold endRegion
  dsimp only
  split
  · exact inv_foldl _ (fun _ _ ht => inv_endOne ht) _ (inv_endOne h)
  · exact inv_endOne h

theorem inv_restartRegion (h : s.Inv) : (restartRegion s rid cause).Inv := by
  have hf := inv_freeCores (rid := rid) (inv_stopMembers (l := runningOf s rid) (cause := cause) (strm := 3) (addr := 0) h)
  unfold restartRegion
  dsimp only
  split
  · exact inv_setRegion hf
  · exact hf

theorem inv_failRegion {e : RegionEnd} (h : s.Inv) : (failRegion s rid e).Inv := by
  unfold failRegion
  split
  · exact h
  · split <;> exact h

theorem inv_settleRegion (h : s.Inv) : (settleRegion s rid).Inv := by
  unfold settleRegion
  split
  · exact h
  · split
    · exact h
    · split
      · exact h
      · split
        · exact inv_restartRegion h
        · exact inv_endRegion h

theorem inv_settleFaults (h : s.Inv) : (settleFaults s).Inv := inv_foldl _ (fun _ _ ht => inv_settleRegion ht) _ h

theorem inv_breakLoop (h : s.Inv) : (breakLoop s k).Inv := by
  unfold breakLoop
  split
  · exact h
  · exact inv_foldl _ (fun _ _ ht => inv_setCore ht) _ h

theorem inv_endKernelAt {strm addr : Nat} {faddr : Word} {bp : Option Br} (h : s.Inv) : (endKernelAt s k strm addr cause faddr bp).Inv :=
  inv_failRegion (inv_stopMember (inv_breakLoop (inv_setCore h)))

theorem inv_endKernel {strm addr : Nat} {faddr : Word} (h : s.Inv) : (endKernel s k strm addr cause faddr).Inv := inv_endKernelAt h

/-! ### Exceptions -/

theorem inv_deliver {epc : BitVec 14} {faddr : Word} {cmd apPo : Option Nat} {bp : Option Br} (h : s.Inv) :
    (deliver s k epc cause faddr cmd apPo bp).Inv := by
  unfold deliver
  dsimp only
  split
  · exact h
  · exact h

theorem inv_stage2Fail {gpa : Nat} (h : s.Inv) : (stage2Fail s k cause gpa).Inv := inv_failRegion h

theorem inv_faddrOf {f : Option Word} (h : s.Inv) : (faddrOf s f).1.Inv := by
  cases f <;> exact h

theorem inv_apFault {f : Option Word} (h : s.Inv) : (apFault s cause f).Inv := by
  have hf := inv_faddrOf (s := apStall 0 s) (f := f) h
  unfold apFault
  dsimp only
  split
  · exact inv_endKernel hf
  · split
    · exact inv_deliver hf
    · exact inv_endKernel hf

theorem inv_resumeMain (h : s.Inv) : (resumeMain s k).Inv := by
  unfold resumeMain
  dsimp only
  split <;> exact h

theorem inv_endCollective (h : s.Inv) : (declineEvent.endCollective s k m cause).Inv :=
  inv_foldl _ (fun _ _ ht => inv_foldl _ (fun _ _ hu => inv_retireCmd hu) _ ht) _ h

theorem inv_declineEvent (h : s.Inv) : (declineEvent s k).Inv := by
  unfold declineEvent
  dsimp only
  split
  · exact h
  · split
    · exact inv_endKernelAt (inv_setCore h)
    · split
      · split
        · exact inv_endCollective (inv_resumeMain h)
        · exact inv_retireCmd (inv_resumeMain h)
      · exact inv_resumeMain h
end

end Sys2Proof.Proofs

/-!
SUPPORT for `StepKeepsInv`: the canonical form of memory is kept. Part 2: the frame of an AP word, its pops, held words and branches.
-/

namespace Sys2Proof.Proofs

open Sys2Proof.Machine Sys2Proof.Laws

/-- The state that the effect of an AP word leaves; a word that faults leaves `s` to its fault. -/
def resLeft (s : State) : Res → State
  | .done t => t
  | .jump t => t
  | .leave t => t
  | .stall _ t => t
  | .trap _ _ => s

section
variable {s : State} {k lat n : Nat} {h : Hdr} {sp : ApSpec}

theorem inv_setX {d : BitVec 5} {v : Word} (hs : s.Inv) : (setX s lat d v).Inv := by
  unfold setX
  split <;> exact hs

theorem inv_setP {d : BitVec 3} {v : Bool} (hs : s.Inv) : (setP s lat d v).Inv := by
  unfold setP
  split <;> exact hs

theorem inv_apFinish (hs : s.Inv) : (apFinish h sp s).Inv := hs
theorem inv_apAdvance (hs : s.Inv) : (apAdvance s).Inv := hs
theorem inv_apStall (hs : s.Inv) : (apStall n s).Inv := hs
theorem inv_suspect {l : List Nat} (hs : s.Inv) : (suspect s k l).Inv := hs

theorem inv_apPops (hs : s.Inv) : (apPops h s).Inv := by
  unfold apPops
  split <;> exact hs

theorem inv_apOff (hs : s.Inv) : (apOff h sp s).Inv := by
  unfold apOff
  refine inv_apAdvance (inv_apFinish ?_)
  split <;> exact hs

/-- A word of the AP keeps what its own effect keeps, and, where its guard is off, what it counts all the same. -/
theorem inv_apWord_off {body : State → Res} {off : State → State} (hbody : ∀ t, t.Inv → (resLeft t (body t)).Inv)
    (hs : s.Inv) (hoff : ∀ t, t.Inv → (off t).Inv) : (apWord h sp body s off).Inv := by
  have hp := inv_apPops (h := h) hs
  have hb := hbody _ hp
  unfold apWord
  split
  · exact inv_apFault hs
  · dsimp only
    split
    · refine inv_apStall ?_
      split
      · exact hs
      · exact hp
    · split
      · exact inv_apOff (hoff _ hp)
      · split
        · exact inv_suspect (inv_apFault hp)
        · generalize body (apPops h s) = r at hb
          cases r with
          | done t => exact inv_apAdvance (inv_apFinish hb)
          | jump t => exact inv_apFinish hb
          | leave t => exact hb
          | stall w t => exact inv_apStall hb
          | trap c f => exact inv_apFault hp

theorem inv_apWord {body : State → Res} (hbody : ∀ t, t.Inv → (resLeft t (body t)).Inv) (hs : s.Inv) : (apWord h sp body s).Inv :=
  inv_apWord_off hbody hs fun _ ht => ht

theorem inv_apValue {d : BitVec 5} {f : State → Word} (hs : s.Inv) : (apValue h sp lat d f s).Inv :=
  inv_apWord (fun _ ht => inv_setX ht) hs

theorem inv_apPred {d : BitVec 3} {f : State → Bool} (hs : s.Inv) : (apPred h sp d f s).Inv :=
  inv_apWord (fun _ ht => inv_setP ht) hs

/-! ### Held words -/

theorem inv_unheld (hs : s.Inv) : (unheld s).Inv := hs

theorem inv_waitAt {q : PendKind} (hs : s.Inv) : (resLeft s (waitAt q s)).Inv := by
  unfold waitAt resLeft
  dsimp only
  split <;> exact hs

theorem inv_holdAt {t : State} {q : PendKind} (hs : s.Inv) : (resLeft t (holdAt q s)).Inv := hs

theorem inv_waitFor {b : Bool} (hs : s.Inv) : (resLeft s (waitFor b s)).Inv := by
  unfold waitFor
  split
  · exact inv_unheld hs
  · exact inv_waitAt hs

theorem inv_heldWord {ask : State → Res} {fin : Word → State → Res} (hask : ∀ t, t.Inv → (resLeft t (ask t)).Inv)
    (hfin : ∀ v t, t.Inv → (resLeft t (fin v t)).Inv) (hs : s.Inv) : (resLeft s (heldWord ask fin s)).Inv := by
  unfold heldWord
  split
  · exact hask _ hs
  · split
    · exact hs
    · next v _ => 
      have hf := hfin v _ (inv_modCur (f := fun c => c.setHeld none) hs)
      generalize fin v _ = r at hf ⊢
      cases r <;> exact hf
    · exact hs

/-! ### Control flow -/

theorem inv_takeBranch {b d : BitVec 2} {l : BitVec 5} (hs : s.Inv) : (takeBranch b d l s).Inv :=
  inv_modCtx (inv_modCur (inv_setX hs))

theorem inv_extWord {bad : Bool} {i : BitVec 16} (hs : s.Inv) : (extWord bad i s).Inv := by
  unfold extWord
  dsimp only
  split
  · exact inv_apFault hs
  · split
    · exact inv_apFault hs
    · exact inv_modCtx hs

theorem inv_handlerDone (hs : s.Inv) : (handlerDone s).Inv := hs

end

end Sys2Proof.Proofs

/-!
SUPPORT for `StepKeepsInv`: the canonical form of memory is kept. Part 3: control and memory words of the AP.
-/

namespace Sys2Proof.Proofs

open Sys2Proof.Machine Sys2Proof.Laws

/-- The next state, where an outcome has one, has its memory in canonical form. -/
def OutInv : Out → Prop
  | .next t => t.Inv
  | _ => True

theorem inv_next {t : State} (h : t.Inv) : OutInv (.next t) := h

section
variable {s t : State} {k n size : Nat} {h : Hdr} {d a b : BitVec 5}

/-! ### Words of the AP -/

theorem inv_execBxfer {q e : BitVec 2} (hs : s.Inv) : OutInv (execBxfer h q e a s) :=
  inv_next <| inv_apWord (fun t ht => by
    split
    · exact ht
    · exact inv_takeBranch ht) hs

theorem inv_execLset {q : BitVec 2} {i : BitVec 6} (hs : s.Inv) : OutInv (execLset h q a i s) :=
  inv_next <| inv_apWord (fun t ht => by
    dsimp only
    repeat' split
    all_goals exact ht) hs

theorem inv_execLbrk {q : BitVec 2} (hs : s.Inv) : OutInv (execLbrk h q s) :=
  inv_next <| inv_apWord (fun t ht => by split <;> exact ht) hs

theorem inv_execTrap {i : BitVec 6} (hs : s.Inv) : OutInv (execTrap h i s) :=
  inv_next <| inv_apWord (fun t ht => by
    split
    · exact ht
    · split
      · exact ht
      · exact inv_declineEvent (inv_handlerDone ht)) hs

theorem inv_execEret (hs : s.Inv) : OutInv (execEret h s) :=
  inv_next <| inv_apWord (fun t ht => by
    dsimp only
    split
    · exact ht
    · split
      · exact ht
      · split
        · exact ht
        · exact inv_resumeMain (inv_handlerDone ht)) hs

theorem inv_execSysr {i : BitVec 11} (hs : s.Inv) : OutInv (execSysr h d i s) :=
  inv_next <| inv_apWord (fun t ht => by
    dsimp only
    split
    · exact ht
    · split
      · exact ht
      · split
        · exact ht
        · exact inv_setX ht) hs

theorem inv_execSysw {i : BitVec 11} (hs : s.Inv) : OutInv (execSysw h d i s) :=
  inv_next <| inv_apWord (fun t ht => by
    dsimp only
    split
    · exact inv_heldWord (fun u hu => by split <;> exact hu) (fun _ _ hu => hu) ht
    · split <;> exact ht) hs

theorem inv_execWfe (hs : s.Inv) : OutInv (execWfe h s) :=
  inv_next <| inv_apWord (fun t ht => by
    split
    · exact ht
    · exact inv_waitAt ht) hs

/-! ### Memory words -/

theorem inv_apAccess {va : Word} {sa xa : Nat} {q : Need} {go : State → Res} (hgo : (resLeft s (go s)).Inv) (hs : s.Inv) :
    (resLeft s (apAccess s va size sa xa q go)).Inv := by
  unfold apAccess
  split
  · exact hs
  · split
    · exact hgo
    · exact hgo
    · exact hs
    · exact inv_stage2Fail hs

theorem inv_apLoad {sgn : Bool} (hs : s.Inv) : (apLoad h d a b size sgn s).Inv :=
  inv_apWord (fun t ht => by
    dsimp only
    split
    · exact ht
    · exact inv_apAccess ht ht) hs

theorem inv_apStore (hs : s.Inv) : (apStore h d a b size s).Inv :=
  inv_apWord (fun t ht => by
    dsimp only
    split
    · exact ht
    · exact inv_apAccess ht ht) hs

theorem inv_rowsAccess {va : Word} {go : State → Res} (hgo : (resLeft s (go s)).Inv) (hs : s.Inv) :
    (resLeft s (rowsAccess s va k n go)).Inv := by
  induction n generalizing k with
  | zero => exact hgo
  | succ n ih =>
    unfold rowsAccess
    split
    · exact hs
    · split
      · exact ih
      · exact hgo
      · exact hs
      · exact inv_stage2Fail hs

theorem inv_execLdq {f : BitVec 3} (hs : s.Inv) : OutInv (execLdq h f a b s) :=
  inv_next <| inv_apWord (fun t ht => by
    dsimp only
    split
    · exact ht
    · split
      · exact ht
      · refine inv_rowsAccess ?_ ht
        split
        · exact ht
        · split <;> exact ht) hs

theorem inv_execStq (hs : s.Inv) : OutInv (execStq h a b s) :=
  inv_next <| inv_apWord (fun t ht => by
    dsimp only
    split
    · exact ht
    · exact inv_apAccess ht ht) hs

theorem inv_apPopq {put : Word → State → State} (hput : ∀ w t, t.Inv → (put w t).Inv) (hs : s.Inv) : (apPopq h put s).Inv :=
  inv_apWord (fun t ht => by
    split
    · exact ht
    · exact hput _ _ (inv_modCur ht)) hs

theorem inv_execQkill {i : BitVec 6} (hs : s.Inv) : OutInv (execQkill h i s) :=
  inv_next <| inv_apWord (fun t ht => by split <;> exact ht) hs

theorem inv_apAmo {o : AmoOp} {ret : Bool} (hs : s.Inv) : (apAmo h o ret d a b s).Inv :=
  inv_apWord (fun t ht => by
    dsimp only
    split
    · exact ht
    · split
      · exact ht
      · split
        · exact ht
        · refine inv_apAccess ?_ ht
          split <;> exact ht) hs

/-! ### Engine commands -/

theorem inv_issueCmd {eng : Eng} {ccw : Word} {o : CmdOp} {foot : List Foot} (hs : s.Inv) : (issueCmd s eng ccw o foot).Inv := hs
theorem inv_retireHere (hs : s.Inv) : (retireHere s).Inv := hs

end

end Sys2Proof.Proofs

/-!
SUPPORT for `StepKeepsInv`: the canonical form of memory is kept. Part 4: the AP's words for the engines, loops, links and regions.
-/

namespace Sys2Proof.Proofs

open Sys2Proof.Machine Sys2Proof.Laws

section
variable {s t : State} {k pn n size op : Nat} {h : Hdr} {d a b : BitVec 5} {r : Res}

/-! ### Block transfer words -/

theorem inv_btcfgRead {off : Nat} {va : Word} (ht : t.Inv) (hs : s.Inv) : (resLeft t (btcfgRead n off va s)).Inv := by
  unfold btcfgRead
  dsimp only
  split
  · exact ht
  · split
    · exact ht
    · exact hs

theorem inv_execBtcfg {q : BitVec 2} (hs : s.Inv) : OutInv (execBtcfg h q a s) :=
  inv_next <| inv_apWord (fun t ht => by
    split
    · dsimp only
      split
      · exact ht
      · split
        · exact ht
        · split
          · exact ht
          · exact inv_holdAt ht
    · split
      · split
        · exact inv_holdAt ht
        · exact ht
      · split
        · exact ht
        · exact inv_btcfgRead ht (inv_modCur ht)
      · exact ht) hs

theorem inv_execBtgo {q : BitVec 2} (hs : s.Inv) : OutInv (execBtgo h q a s) :=
  inv_next <| inv_apWord (fun t ht => by
    dsimp only
    split
    · exact ht
    · split
      · exact ht
      · split
        · exact ht
        · split
          · exact ht
          · split
            · exact ht
            · split
              · exact ht
              · exact inv_issueCmd ht) hs

theorem inv_apBtwait {p : Eng → Bool} (hs : s.Inv) : (apBtwait h p s).Inv := inv_apWord (fun _ ht => inv_waitFor ht) hs

/-! ### Words of a speculative loop -/

theorem inv_wlState {l : List (BitVec 3)} {bar : Bool} (hr : (resLeft s r).Inv) (hs : s.Inv) : (resLeft s (wlState t l bar r)).Inv := by
  unfold wlState
  dsimp only
  split
  · exact hr
  · exact hs

theorem inv_wlBarrier {l : List (BitVec 3)} {check : State → Option (Nat × Option Word)} {q : State → PendKind} {fin : Word → State → State}
    (hfin : ∀ v t, t.Inv → (fin v t).Inv) (hs : s.Inv) : (resLeft s (wlBarrier l check q fin s)).Inv :=
  inv_heldWord (fun t ht => inv_wlState (by
    split
    · exact ht
    · exact inv_holdAt ht) ht) (fun v t ht => hfin v _ (inv_retireHere ht)) hs

theorem inv_execWlOpen (hs : s.Inv) : OutInv (execWlOpen h d a s) :=
  inv_next <| inv_apWord (fun _ ht => inv_wlBarrier (fun _ _ hu => inv_setX hu) ht) hs

theorem inv_execWlRound (hs : s.Inv) : OutInv (execWlRound h d s) :=
  inv_next <| inv_apWord (fun _ ht => inv_wlBarrier (fun _ _ hu => inv_setX hu) ht) hs

theorem inv_execWlClose (hs : s.Inv) : OutInv (execWlClose h s) :=
  inv_next <| inv_apWord (fun _ ht => inv_wlBarrier (fun _ _ hu => hu) ht) hs

theorem inv_execWlSlot (hs : s.Inv) : OutInv (execWlSlot h d a s) :=
  inv_next <| inv_apWord (fun t ht => inv_wlState (by
    dsimp only
    split
    · exact ht
    · exact inv_setX (inv_modCur ht)) ht) hs

theorem inv_withSlot {go : Nat → Res} (hgo : ∀ n, (resLeft s (go n)).Inv) (hs : s.Inv) : (resLeft s (withSlot s go)).Inv := by
  unfold withSlot
  split
  · exact hgo _
  · exact hs

theorem inv_wlCell {l : List (BitVec 3)} {kind : WrKind} {ret : Bool} {dst : Option ApDst} (hs : s.Inv) :
    (wlCell h l kind ret dst a b s).Inv :=
  inv_apWord (fun t ht => inv_wlState (inv_withSlot (fun _ => by
    dsimp only
    split
    · exact ht
    · split
      · exact ht
      · refine inv_apAccess ?_ ht
        split <;> exact ht) ht) ht) hs

theorem inv_execWlDone (hs : s.Inv) : OutInv (execWlDone h s) :=
  inv_next <| inv_apWord (fun _ ht => inv_wlState (inv_withSlot (fun _ => ht) ht) ht) hs

/-! ### Link words -/

theorem inv_issueLink {ccw : Word} {foot : List Foot} (hs : s.Inv) : (resLeft s (issueLink s op n a ccw foot)).Inv := by
  unfold issueLink
  split
  · exact hs
  · exact inv_issueCmd hs

theorem inv_linkOverlap {ccw : Word} {foot : List Foot} {go : List Foot → Res} (hgo : ∀ f, (resLeft s (go f)).Inv) (hs : s.Inv) :
    (resLeft s (linkOverlap s ccw foot go)).Inv := by
  unfold linkOverlap
  dsimp only
  split
  · exact hs
  · exact hgo _

theorem inv_apTransfer (hs : s.Inv) : (apTransfer h op a s).Inv :=
  inv_apWord (fun t ht => by
    dsimp only
    split
    · exact ht
    · split
      · exact ht
      · generalize (if op = cxPut then 2 else 3) = bit
        split
        · exact ht
        · split
          · exact ht
          · exact inv_linkOverlap (fun _ => inv_issueLink ht) ht) hs

theorem inv_wcntWait {q : BitVec 2} {win : Nat} {want : Word} (hs : s.Inv) : (resLeft s (wcntWait d q win want s)).Inv := by
  unfold wcntWait
  split
  · exact hs
  · split
    · exact inv_setX (inv_unheld hs)
    · split
      · exact inv_setX (inv_unheld hs)
      · exact inv_waitAt hs

theorem inv_execCxWcnt {q : BitVec 2} (hs : s.Inv) : OutInv (execCxWcnt h d a q s) :=
  inv_next <| inv_apWord (fun t ht => by
    split
    · exact inv_wcntWait ht
    · split
      · exact ht
      · exact inv_wcntWait ht) hs

theorem inv_apBarrier {sbar : Bool} (hs : s.Inv) : (apBarrier h sbar d s).Inv :=
  inv_apWord (fun _ ht => inv_heldWord (fun _ hu => inv_holdAt (inv_modCur hu)) (fun _ _ hu => inv_setX (inv_retireHere hu)) ht) hs

theorem inv_countCollective (hs : s.Inv) : (countCollective s).Inv := hs

theorem inv_asCollective (hr : (resLeft s r).Inv) : (resLeft s (asCollective r)).Inv := by
  cases r with
  | done t => exact inv_countCollective hr
  | _ => exact hr

theorem inv_execCxAred (hs : s.Inv) : OutInv (execCxAred h a s) :=
  inv_next <| inv_apWord (fun t ht => by
    dsimp only
    split
    · exact ht
    · split
      · exact ht
      · split
        · exact ht
        · split
          · exact ht
          · exact inv_linkOverlap (fun _ => inv_asCollective (inv_issueLink ht)) ht) hs

theorem inv_execCxAgath (hs : s.Inv) : OutInv (execCxAgath h a s) :=
  inv_next <| inv_apWord (fun t ht => by
    dsimp only
    split
    · exact ht
    · split
      · exact ht
      · split
        · exact ht
        · exact inv_linkOverlap (fun _ => inv_asCollective (inv_issueLink ht)) ht) hs

theorem inv_execCxAbort (hs : s.Inv) : OutInv (execCxAbort h d s) :=
  inv_next <| inv_apWord (fun _ ht => inv_setX (inv_modCur (inv_attemptEnds ht))) hs

/-! ### Commands of the other engines -/

theorem inv_mxCommand {cls m : Nat} {bad : Bool} {vb : Word → Bool} (hs : s.Inv) : (mxCommand h cls bad op m a vb s).Inv :=
  inv_apWord (fun t ht => by
    dsimp only
    split
    · exact ht
    · split
      · exact ht
      · exact inv_issueCmd ht) hs

theorem inv_execMxwait (hs : s.Inv) : OutInv (execMxwait h s) := inv_next <| inv_apWord (fun _ ht => inv_waitFor ht) hs

theorem inv_execSdKey (hs : s.Inv) : OutInv (execSdKey h a s) :=
  inv_next <| inv_apWord (fun t ht => by
    split
    · exact ht
    · dsimp only
      split
      · exact ht
      · split
        · exact ht
        · split <;> exact ht) hs

theorem inv_sdIssue {lim : Nat} {fb : State → Bool} {foot : State → Nat × Bool} (hs : s.Inv) : (sdIssue h op n lim a fb foot size s).Inv :=
  inv_apWord (fun t ht => by
    dsimp only
    split
    · exact ht
    · split
      · exact ht
      · split
        · exact ht
        · split
          · exact ht
          · split
            · exact ht
            · exact inv_issueCmd ht) hs

theorem inv_execPbClaim (hs : s.Inv) : OutInv (execPbClaim h a s) :=
  inv_next <| inv_apWord (fun t ht => by
    dsimp only
    split
    · split
      · exact ht
      · split
        · exact ht
        · split
          · exact ht
          · split <;> exact ht
    · split
      · exact ht
      · split
        · exact ht
        · split
          · exact ht
          · exact inv_holdAt ht) hs

theorem inv_execPbFree (hs : s.Inv) : OutInv (execPbFree h s) :=
  inv_next <| inv_apWord (fun t ht => by
    split
    · split
      · exact ht
      · exact inv_holdAt ht
    · split
      · exact ht
      · exact inv_unheld (inv_setQuern ht)) hs

theorem inv_qnIssue {q : QnSpec} (hs : s.Inv) : (qnIssue h q a s).Inv :=
  inv_apWord (fun t ht => by
    dsimp only
    repeat' split
    all_goals exact ht) hs

theorem inv_callWord {seed : Bool} (hs : s.Inv) : (callWord seed h a b s).Inv :=
  inv_apWord (fun t ht => by
    dsimp only
    split
    · exact ht
    · split
      · exact ht
      · exact inv_issueCmd ht) hs

theorem inv_execVxwait (hs : s.Inv) : OutInv (execVxwait h s) := inv_next <| inv_apWord (fun _ ht => inv_waitFor ht) hs

/-! ### Region words -/

theorem inv_acceptRegion {chan : Option (Nat × Nat)} {seq : Nat} {raw : BitVec 2048} (hs : s.Inv) : (acceptRegion s pn chan seq raw).Inv := hs

theorem inv_acceptedWord {q : PendKind} {body : State → Res} (hbody : ∀ t, t.Inv → (resLeft t (body t)).Inv) (hs : s.Inv) :
    (resLeft s (acceptedWord q body s)).Inv := by
  unfold acceptedWord
  split
  · exact inv_holdAt hs
  · split
    · exact hs
    · have hb := hbody _ (inv_modCur (f := fun c => c.setHeld none) hs)
      generalize body _ = r at hb
      cases r <;> exact hb

theorem inv_modRg {f : Rg → Rg} (hs : s.Inv) : (modRg s f).Inv := hs

theorem inv_spawnAccess {va : Word} {len : Nat} {q : Need} {r : State × AccRes} (hs : s.Inv) (e : spawnAccess s k va len q = r) :
    r.1.Inv := by
  subst e
  unfold spawnAccess
  split
  · exact hs
  · split
    · exact hs
    · split
      · exact hs
      · exact inv_xlNow hs

theorem inv_spawnStop {va : Word} {x : AccRes} (ht : t.Inv) (hs : s.Inv) : (resLeft s (spawnStop t va x)).Inv := by
  cases x with
  | ok _ => exact ht
  | miss v =>
    unfold spawnStop
    dsimp only
    split
    · exact inv_deliver ht
    · exact hs
  | fault c f => exact hs
  | stage2 c g => exact inv_stage2Fail ht

theorem inv_spawnChild {raw : BitVec 2048} (hs : s.Inv) : (spawnChild s raw).Inv := by
  unfold spawnChild
  dsimp only
  split
  · exact hs
  · exact inv_acceptRegion hs

theorem inv_spawnBody {ccw va : Word} (hs : s.Inv) : (resLeft s (spawnBody d ccw va s)).Inv := by
  unfold spawnBody
  dsimp only
  split
  · exact hs
  · split
    · exact hs
    · split
      · next e =>
        split
        · next f => exact inv_setX (inv_retireHere (inv_modRg (inv_spawnChild (inv_spawnAccess (inv_spawnAccess hs e) f))))
        · next f => exact inv_spawnStop (inv_spawnAccess (inv_spawnAccess hs e) f) hs
      · next e => exact inv_spawnStop (inv_spawnAccess hs e) hs

theorem inv_execRgSpawn (hs : s.Inv) : OutInv (execRgSpawn h d a s) :=
  inv_next <| inv_apWord_off (fun t ht => by
    dsimp only
    split
    · exact ht
    · exact inv_acceptedWord (fun _ hu => inv_spawnBody hu) ht) hs (fun _ ht => inv_modRg ht)

theorem inv_nextBody {only : Option Nat} (hs : s.Inv) : (resLeft s (nextBody d only s)).Inv :=
  inv_heldWord (fun _ ht => inv_holdAt ht) (fun _ _ ht => inv_setX (inv_retireHere ht)) hs

theorem inv_execRgNext (hs : s.Inv) : OutInv (execRgNext h d s) := inv_next <| inv_apWord (fun _ ht => inv_nextBody ht) hs

theorem inv_execRgSteal (hs : s.Inv) : OutInv (execRgSteal h d a s) :=
  inv_next <| inv_apWord (fun t ht => by
    dsimp only
    split
    · exact ht
    · exact inv_nextBody ht) hs

theorem inv_countBarrier (hs : s.Inv) : (countBarrier s).Inv := hs

theorem inv_execRgStep (hs : s.Inv) : OutInv (execRgStep h d s) :=
  inv_next <| inv_apWord_off (fun _ ht => inv_heldWord (fun u hu => by
    split
    · exact hu
    · exact inv_holdAt (inv_countBarrier hu)) (fun _ _ hu => inv_setX (inv_retireHere hu)) ht) hs (fun _ ht => inv_countBarrier ht)

theorem inv_execRgYield (hs : s.Inv) : OutInv (execRgYield h s) :=
  inv_next <| inv_apWord_off (fun _ ht => inv_heldWord (fun _ hu => inv_holdAt (inv_countBarrier hu)) (fun _ _ hu => inv_retireHere hu) ht) hs
    (fun _ ht => inv_countBarrier ht)

theorem inv_noteExit {code : Nat} (hs : s.Inv) : (noteExit s k code).Inv := by
  unfold noteExit
  dsimp only
  split
  · exact hs
  · split <;> exact hs

theorem inv_exitBody {v : Word} (hs : s.Inv) : (resLeft s (exitBody v s)).Inv := by
  unfold exitBody
  split
  · exact hs
  · exact inv_noteExit (inv_modRg (inv_retireHere hs))

theorem inv_execRgExit (hs : s.Inv) : OutInv (execRgExit h a s) :=
  inv_next <| inv_apWord (fun _ ht => inv_acceptedWord (fun _ hu => inv_exitBody hu) ht) hs

end

end Sys2Proof.Proofs

/-!
SUPPORT for `StepKeepsInv`: the canonical form of memory is kept. Part 5: the frames of the VXE's and the MXE's words, and illegal words.
-/

namespace Sys2Proof.Proofs

open Sys2Proof.Machine Sys2Proof.Laws

/-- The state that the effect of a slot of the VXE leaves. -/
def vxLeft : VxRes → State
  | .land t _ _ _ => t
  | .now t => t
  | .ret t => t
  | .trap t _ _ => t

/-- The state that the effect of a word of the MXE leaves; a word that faults leaves `s` to its fault. -/
def mxLeft (s : State) : MxRes → State
  | .done t => t
  | .job t _ => t
  | .ret t => t
  | .trap _ _ => s

section
variable {s t : State} {k cause lat : Nat} {h : Hdr} {d a b : BitVec 5} {r : Res}

/-! ### Words of the VXE -/

theorem inv_modVx {f : Vx → Vx} (hs : s.Inv) : (s.modVx f).Inv := hs
theorem inv_vxFaultAt {addr : Nat} {f : Word} (hs : s.Inv) : (vxFaultAt s k addr cause f).Inv := inv_endKernel hs
theorem inv_vxFault {f : Word} (hs : s.Inv) : (vxFault s cause f).Inv := inv_vxFaultAt hs

/-- A slot of the VXE keeps what its own effect keeps. -/
theorem inv_vxWord {sp : VxSpec} {body : State → VxRes} (hbody : (vxLeft (body s)).Inv) (hs : s.Inv) : (vxWord h sp body s).Inv := by
  unfold vxWord
  dsimp only
  split
  · exact inv_vxFault hs
  · split
    · exact hs
    · generalize body s = r at hbody
      cases r with
      | land t lat dsts cnt => exact inv_modVx hbody
      | now t => exact inv_modCur hbody
      | ret t => exact inv_modCur (inv_modCur hbody)
      | trap t f x => exact inv_vxFault hbody

theorem inv_vxReads {srcs : List (BitVec 5)} {m : BitVec 96} {body : State → VxRes} (hbody : (vxLeft (body s)).Inv) (hs : s.Inv) :
    (vxLeft (vxReads srcs m body s)).Inv := by
  unfold vxReads
  split
  · exact hs
  · exact hbody

/-- A slot that reads registers and leaves the state to a result that lands later. -/
theorem inv_vxWord_reads {sp : VxSpec} {srcs : State → List (BitVec 5)} {m : State → BitVec 96} {body : State → State → VxRes}
    (hbody : vxLeft (body s s) = s) (hs : s.Inv) : (vxWord h sp (fun t => vxReads (srcs t) (m t) (body t) t) s).Inv :=
  inv_vxWord (inv_vxReads (by rw [hbody]; exact hs) hs) hs

theorem inv_fpWord {f : Fmt} {cls : Nat} {srcs : List (BitVec 5)} {rounds : Bool} {g : Core → Nat → List Nat → Rnd} (hs : s.Inv) :
    (fpWord h f cls lat d srcs rounds g s).Inv := inv_vxWord_reads rfl hs

theorem inv_fpRoundWord {f : Fmt} {cls : Nat} {srcs : List (BitVec 5)} {o : Bool → List FV → FV} (hs : s.Inv) :
    (fpRoundWord h f cls lat d srcs o s).Inv := inv_fpWord hs

theorem inv_fpExactWord {f : Fmt} {srcs : List (BitVec 5)} {o : List Nat → Nat} (hs : s.Inv) : (fpExactWord h f d srcs o s).Inv :=
  inv_fpWord hs

theorem inv_vcmpWord {f : Fmt} {cc q : BitVec 3} (hs : s.Inv) : (vcmpWord h f cc q a b s).Inv := inv_vxWord_reads rfl hs

theorem inv_intWord {o : Lane → Lane → Lane} (hs : s.Inv) : (intWord h d a b o s).Inv := inv_vxWord_reads rfl hs

theorem inv_qntWord {signed : Bool} (hs : s.Inv) : (qntWord signed h d a b s).Inv := inv_vxWord_reads rfl hs

theorem inv_deqWord {signed : Bool} (hs : s.Inv) : (deqWord signed h d a b s).Inv := inv_vxWord_reads rfl hs

theorem inv_vpackWord {signed : Bool} {f : BitVec 3} (hs : s.Inv) : (vpackWord signed h d a f s).Inv := inv_vxWord_reads rfl hs

theorem inv_topkWord {smallest : Bool} (hs : s.Inv) : (topkWord smallest h d a b s).Inv := inv_vxWord_reads rfl hs

theorem inv_unpkWord {x1 : Bool} {f : BitVec 3} (hs : s.Inv) : (unpkWord x1 h d a f s).Inv :=
  inv_vxWord (inv_vxReads (by split <;> exact hs) hs) hs

theorem vxLeft_cvtBody : vxLeft (cvtBody d a b s) = s := by
  unfold cvtBody
  dsimp only
  split <;> rfl

theorem inv_execVcvt (hs : s.Inv) : OutInv (execVcvt h d a b s) :=
  inv_next <| inv_vxWord_reads vxLeft_cvtBody hs

theorem inv_execVred {o : BitVec 3} (hs : s.Inv) : OutInv (execVred h d a o s) :=
  inv_next <| inv_vxWord (inv_vxReads (by dsimp only; split <;> exact hs) hs) hs

theorem inv_execTcol {cc : BitVec 7} {q : BitVec 2} (hs : s.Inv) : OutInv (execTcol h d cc q s) :=
  inv_next <| inv_vxWord (by dsimp only; split <;> exact hs) hs

theorem inv_execVpop {sc : BitVec 4} (hs : s.Inv) : OutInv (execVpop h d sc s) :=
  inv_next <| inv_vxWord (by
    repeat' split
    all_goals exact hs) hs

theorem inv_execVpopd {sc : BitVec 4} (hs : s.Inv) : OutInv (execVpopd h d sc s) :=
  inv_next <| inv_vxWord (by
    repeat' split
    all_goals exact hs) hs

theorem inv_dqWord {hi : Bool} (hs : s.Inv) : (dqWord hi h d s).Inv := inv_vxWord (by dsimp only; split <;> exact hs) hs

theorem inv_execVshd (hs : s.Inv) : OutInv (execVshd h s) :=
  inv_next <| inv_vxWord (by
    dsimp only
    split
    · split <;> exact hs
    · exact hs) hs

theorem inv_statWord {clr : Bool} (hs : s.Inv) : (statWord clr h d s).Inv := by
  refine inv_vxWord ?_ hs
  dsimp only
  split
  · exact hs
  · cases clr <;> exact hs

theorem inv_takeVBranch {q : BitVec 1} {e : BitVec 2} (hs : s.Inv) : (takeVBranch q e s).Inv := hs

theorem inv_execVbxfer {q : BitVec 1} {e : BitVec 2} (hs : s.Inv) : OutInv (execVbxfer h q e s) :=
  inv_next <| inv_vxWord (by
    split
    · exact hs
    · exact inv_takeVBranch hs) hs

/-- The effect of `vlset` past its reads. -/
theorem inv_execVlset {cc : BitVec 1} {q : BitVec 2} {i : BitVec 11} (hs : s.Inv) : OutInv (execVlset h cc q i s) := by
  refine inv_next <| inv_vxWord ?_ hs
  extract_lets c v first last count body
  have hb : (vxLeft (body s)).Inv := by
    dsimp only [body]
    repeat' split
    all_goals exact hs
  split
  · exact inv_vxReads hb hs
  · exact hb

theorem inv_execVret (hs : s.Inv) : OutInv (execVret h s) := inv_next <| inv_vxWord (by split <;> exact hs) hs

theorem inv_vextWord {bad : Bool} {i : BitVec 16} (hs : s.Inv) : (vextWord bad i s).Inv := by
  unfold vextWord
  dsimp only
  split
  · exact inv_vxFault hs
  · split
    · split <;> exact inv_vxFault hs
    · exact inv_modVx hs

/-! ### Words of the MXE -/

theorem inv_modMx {f : Mx → Mx} (hs : s.Inv) : (s.modMx f).Inv := hs

theorem inv_mxFaultAt {mpc : Nat} {f : Option Word} (hs : s.Inv) : (mxFaultAt s k mpc cause f).Inv := by
  unfold mxFaultAt
  refine inv_endKernel (inv_faddrOf ?_)
  split <;> exact hs

/-- A word of the MXE keeps what its own effect keeps. -/
theorem inv_mxWord {bad : Bool} {cls : Mx → Nat} {free : Mx → Bool} {body : State → MxRes} (hbody : ∀ t, t.Inv → (mxLeft t (body t)).Inv)
    (hs : s.Inv) : (mxWord h bad cls free body s).Inv := by
  unfold mxWord
  extract_lets c k stall u on past push note
  have hu : u.Inv := by
    dsimp only [u]
    split <;> exact hs
  have hb := hbody (note u) (inv_modMx hu)
  clear_value u
  split
  · exact inv_mxFaultAt hs
  · split
    · exact inv_modMx hs
    · split
      · exact inv_modMx hs
      · split
        · exact inv_modCur (inv_modMx hu)
        · split
          · exact inv_modMx hu
          · generalize body (note u) = r at hb
            cases r with
            | done t => exact inv_modCur (inv_modMx hb)
            | job t j => exact inv_modMx (inv_modMx hb)
            | ret t => exact inv_modCur (inv_modMx hb)
            | trap f x => exact inv_mxFaultAt hu

theorem inv_execMxRet (hs : s.Inv) : OutInv (execMxRet h s) := inv_next <| inv_mxWord (fun t ht => by split <;> exact ht) hs

theorem inv_execMxChk {q : BitVec 3} (hs : s.Inv) : OutInv (execMxChk h q s) := inv_next <| inv_mxWord (fun t ht => by split <;> exact ht) hs

theorem inv_execMxDrain {e x y : BitVec 1} {l : BitVec 8} {q : BitVec 3} (hs : s.Inv) : OutInv (execMxDrain h e x y l q s) :=
  inv_next <| inv_mxWord (fun t ht => by split <;> exact ht) hs

theorem inv_execMxLdw (hs : s.Inv) : OutInv (execMxLdw h a s) :=
  inv_next <| inv_mxWord (fun t ht => by
    extract_lets x e k0 n0 unit b
    clear_value unit
    repeat' split
    all_goals exact ht) hs

theorem inv_execMxRun {l : BitVec 8} {q : BitVec 3} (hs : s.Inv) : OutInv (execMxRun h a l q s) :=
  inv_next <| inv_mxWord (fun t ht => by
    dsimp only
    repeat' split
    all_goals exact ht) hs

/-! ### Illegal words -/

theorem inv_execIllegalOpcode {st : Stream} {w : BitVec 32} (hs : s.Inv) : OutInv (execIllegalOpcode st w s) := by
  cases st with
  | ap => exact inv_next (inv_apFault hs)
  | mx => exact inv_next (inv_mxFaultAt hs)
  | vx => exact inv_next (inv_vxFault hs)

theorem inv_execIllegalField {st : Stream} {w : BitVec 32} (hs : s.Inv) : OutInv (execIllegalField st w s) := by
  refine inv_next ?_
  cases st with
  | ap =>
    dsimp only
    split
    · exact inv_extWord hs
    · exact inv_apFault hs
  | mx => exact inv_mxFaultAt hs
  | vx =>
    dsimp only
    split
    · exact inv_vextWord hs
    · exact inv_vxFault hs

end

end Sys2Proof.Proofs

/-!
SUPPORT for `StepKeepsInv`: the canonical form of memory is kept. Part 6: memory events: reads, writes, walks, landings, and the handler's events.
-/

namespace Sys2Proof.Proofs

open Sys2Proof.Machine Sys2Proof.Laws

section
variable {s t : State} {k pn cause n size : Nat} {va : Word} {sh : Bool} {xl : List Xl}

/-! ### Memory events -/

theorem inv_accessFault {walk : Bool} {w : At} (h : s.Inv) : (accessFault s k walk w cause va).Inv := by
  unfold accessFault
  split
  · exact inv_endKernelAt h
  · split
    · exact inv_deliver h
    · exact inv_endKernelAt h

theorem inv_eccLog (h : s.Inv) : (eccLog s pn).Inv := h

theorem inv_eccEvent {key : Option Nat} (h : s.Inv) : (eccEvent s k key).Inv := inv_eccLog (inv_setCore h)

theorem inv_readEcc {ecc : Ecc} {r : State × Ecc} (h : s.Inv) (e : readEcc s k xl va size ecc = r) : r.1.Inv := by
  subst e
  unfold readEcc
  extract_lets c hit sys u
  have hu : u.Inv := by
    dsimp only [u]
    split <;> exact h
  clear_value u
  split
  · exact hu
  · split <;> exact hu

theorem inv_performLd {e : RdE} {sgn : Bool} {ecc : Ecc} (h : s.Inv) : (performLd s k sh e size sgn xl ecc).Inv := by
  unfold performLd
  dsimp only
  have hr : (readEcc s k xl e.va size ecc).1.Inv := inv_readEcc h rfl
  split
  · exact inv_accessFault hr
  · split
    · exact inv_eccEvent (inv_setCore hr)
    · exact inv_setCore hr

theorem inv_performRow {e : RdE} {lqm zm1 zero : Bool} {ecc : Ecc} (h : s.Inv) : (performRow s k e lqm zm1 zero xl ecc).Inv := by
  unfold performRow
  dsimp only
  have hr : (readEcc s k xl (e.va + w64 (384 * e.k)) 384 ecc).1.Inv := inv_readEcc h rfl
  exact inv_ite (inv_eccEvent (inv_setCore hr)) (inv_setCore hr)

theorem inv_readNext {ecc : Ecc} (h : s.Inv) : (readNext s k sh ecc).Inv := by
  unfold readNext
  dsimp only
  split
  · exact h
  · split
    · exact h
    · split
      · exact h
      · exact inv_accessFault h
      · exact inv_stage2Fail h
      · split
        · exact inv_performLd h
        · exact inv_performRow h
        · exact h
        · exact h

theorem inv_touchSpad (h : s.Inv) : (touchSpad s k xl va).Inv := by
  unfold touchSpad
  split
  · split
    · dsimp only
      split
      · exact inv_setTag _ _ h
      · exact inv_setEv (inv_setTag _ _ h)
    · exact h
  · exact h

theorem inv_returnValue {e : WrE} {v : Word} {ok : Bool} (h : s.Inv) : (returnValue s k sh e v ok).Inv := h

theorem inv_performAmo {e : WrE} {op : AmoOp} (h : s.Inv) : (performAmo s k sh e op xl).Inv := by
  have hr : (readEcc s k xl e.va (amoSize op) .clean).1.Inv := inv_readEcc h rfl
  unfold performAmo
  dsimp -zeta only
  refine inv_ite (inv_accessFault hr) ?_
  · extract_lets -lift old lim new u v w
    clear_value old lim new
    have hu : u.Inv := by
      dsimp only [u]
      split
      · exact inv_vaStore _ _ _ _ hr
      · exact hr
    have hw : w.Inv := by
      dsimp only [w]
      split
      · exact inv_returnValue (inv_touchSpad hu)
      · exact inv_touchSpad hu
    split
    · exact inv_eccEvent hw
    · exact hw

theorem inv_latchAlias (h : s.Inv) : (latchAlias s k va).Inv := by
  unfold latchAlias
  dsimp only
  split <;> exact h

theorem inv_readCell {e : WrE} {go : Word → State} (hgo : ∀ v, (go v).Inv) (h : s.Inv) : (readCell s k sh e xl go).Inv := by
  unfold readCell
  split
  · exact inv_accessFault h
  · exact hgo _

theorem inv_writeCell {e : WrE} {v : Word} (h : s.Inv) : (writeCell s k e xl v).Inv := inv_touchSpad (inv_vaStore _ _ _ _ h)

theorem inv_performRsv {e : WrE} (h : s.Inv) : (performRsv s k sh e xl).Inv :=
  inv_readCell (fun v => by
    split
    · exact inv_latchAlias h
    · split
      · exact inv_writeCell h
      · exact h) h

theorem inv_performRels {e : WrE} (h : s.Inv) : (performRels s k sh e xl).Inv :=
  inv_readCell (fun v => by
    split
    · exact inv_writeCell h
    · split
      · exact inv_latchAlias h
      · exact h) h

theorem inv_performTest {e : WrE} (h : s.Inv) : (performTest s k sh e xl).Inv :=
  inv_readCell (fun v => by
    split
    · exact inv_accessFault h
    · exact inv_returnValue h) h

theorem inv_dropWr (h : s.Inv) : (dropWr s k sh).Inv := h

theorem inv_writeNext (h : s.Inv) : (writeNext s k sh).Inv := by
  unfold writeNext
  dsimp only
  split
  · exact h
  · split
    · exact h
    · split
      · exact h
      · exact inv_accessFault h
      · exact inv_stage2Fail h
      · split
        · exact inv_dropWr (inv_vaStore _ _ _ _ h)
        · split
          · exact h
          · exact inv_setCore (inv_dropWr (inv_vaStore _ _ _ _ h))
        · exact inv_performAmo (inv_dropWr h)
        · exact inv_performRsv (inv_dropWr h)
        · exact inv_performRels (inv_dropWr h)
        · exact inv_performTest (inv_dropWr h)

theorem inv_walkNext (h : s.Inv) : (walkNext s k).Inv := by
  unfold walkNext
  split
  · exact h
  · split
    · exact h
    · split
      · exact h
      · exact inv_accessFault h
      · exact inv_stage2Fail h

theorem inv_serveOwn (h : s.Inv) : (serveOwn k sh n s).Inv := by
  induction n generalizing s with
  | zero => exact h
  | succ n ih =>
    unfold serveOwn
    split
    · exact ih (inv_writeNext (inv_readNext (inv_walkNext h)))
    · exact h

theorem inv_ringLands (h : s.Inv) : (ringLands s k n).Inv := by
  refine inv_foldl _ (fun t f ht => ?_) _ h
  split
  · split <;> exact ht
  · exact ht

theorem inv_landMain (h : s.Inv) : (landMain s k).Inv := inv_setCore (inv_ringLands h)

theorem inv_landNow (h : s.Inv) : (landNow s k sh).Inv := by
  unfold landNow
  dsimp only
  split
  · exact inv_setCore (inv_serveOwn h)
  · split
    · exact inv_serveOwn h
    · exact inv_landMain (inv_serveOwn h)

theorem inv_lateEnds (h : s.Inv) : (lateEnds s k).Inv := by
  unfold lateEnds
  dsimp only
  split
  · exact h
  · split
    · exact h
    · exact inv_landMain (inv_setCore h)

theorem inv_execLateReplyFreeze (h : s.Inv) : OutInv (execLateReplyFreeze k s) := by
  refine inv_next ?_
  split
  · exact h
  · split
    · exact h
    · split
      · exact inv_landMain h
      · exact inv_lateEnds h

theorem inv_execLateReply (h : s.Inv) : OutInv (execLateReply k s) := by
  refine inv_next ?_
  split
  · exact inv_endKernel h
  · exact h

theorem inv_execLdqRowEntry {lqm : Bool} (h : s.Inv) : OutInv (execLdqRowEntry k lqm s) := by
  refine inv_next ?_
  dsimp only
  split
  · exact h
  · repeat' split
    all_goals exact h

theorem inv_enterHandler {d : Deliv} (h : s.Inv) : (deliver.enterHandler s k d).Inv := h

theorem inv_execHandlerDelivery (h : s.Inv) : OutInv (execHandlerDelivery k s) := by
  refine inv_next ?_
  split
  · exact h
  · split
    · exact h
    · exact inv_enterHandler (inv_setCore h)

theorem inv_execHandlerStart (h : s.Inv) : OutInv (execHandlerStart k s) := by
  refine inv_next ?_
  split
  · exact h
  · split <;> exact h

theorem inv_execEccCorrected {at_ : EccSite} (h : s.Inv) : OutInv (execEccCorrected at_ s) := by
  cases at_ with
  | share pn => exact inv_next (inv_eccLog h)
  | core k => exact inv_next (inv_eccEvent h)

theorem inv_execEccFreezeEnd (h : s.Inv) : OutInv (execEccFreezeEnd k s) := by
  refine inv_next ?_
  split
  · split <;> exact h
  · exact h

theorem inv_execTokenDeadlock (h : s.Inv) : OutInv (execTokenDeadlock k s) := by
  refine inv_next ?_
  split
  · exact inv_endKernel h
  · exact h

theorem inv_execTlbiPage (h : s.Inv) : OutInv (execTlbiPage k s) := by
  refine inv_next ?_
  split
  · split <;> exact h
  · exact h

theorem inv_execTlbiStage1 (h : s.Inv) : OutInv (execTlbiStage1 k s) := by
  refine inv_next ?_
  split
  · split <;> exact h
  · exact h

theorem inv_execEccinjArm {v : BitVec 64} (h : s.Inv) : OutInv (execEccinjArm k v s) := by
  refine inv_next ?_
  split <;> exact h

end

end Sys2Proof.Proofs

/-!
SUPPORT for `StepKeepsInv`: the canonical form of memory is kept. Part 7: the start of an engine command and block transfers.
-/

namespace Sys2Proof.Proofs

open Sys2Proof.Machine Sys2Proof.Laws

/-- The state that an engine's access leaves. -/
def engLeft : EngRes → State
  | .ok t _ => t
  | .stop t => t

/-- The state that a step of a block transfer leaves. -/
def btLeft : BtRes → State
  | .go t _ => t
  | .stop t => t

/-- The state of a step of an engine that has stopped, or goes on with what it has found. -/
def stepLeft {α : Type} : Sum State (State × α) → State
  | .inl t => t
  | .inr p => p.1

section
variable {s t : State} {k j cause n p bytes seq early p0 ch : Nat} {va : Word} {m : Cmd}

/-! ### What the engines share -/

theorem inv_engFault (h : s.Inv) : (engFault s k m cause bytes).Inv := inv_retireCmd h

theorem inv_engWalkFault (h : s.Inv) : (engWalkFault s k m va bytes).Inv := by
  unfold engWalkFault
  dsimp only
  split
  · exact inv_deliver (inv_setCore h)
  · exact inv_engFault h

theorem inv_setCmd (h : s.Inv) : (setCmd s k m).Inv := h

theorem inv_engAccess {len : Nat} {d : Need} {r : EngRes} (h : s.Inv) (e : engAccess s k m va len d bytes = r) : (engLeft r).Inv := by
  subst e
  unfold engAccess
  split
  · next e => exact inv_engCheck h e
  · next e => exact inv_engWalkFault (inv_engCheck h e)
  · next e => exact inv_engFault (inv_engCheck h e)
  · next e => exact inv_stage2Fail (inv_setCmd (inv_engCheck h e))

theorem inv_orRelease {go : Cmd → State} (hgo : ∀ m, (go m).Inv) (h : s.Inv) : (orRelease s k seq go).Inv := by
  unfold orRelease
  split
  · split
    · exact inv_releaseCmd h
    · exact hgo _
  · exact h

theorem inv_execEngineCommandStart (h : s.Inv) : OutInv (execEngineCommandStart k seq s) := by
  refine inv_next ?_
  split
  · exact h
  · exact inv_ite (inv_setCmd h) h

/-! ### Block transfers -/

theorem inv_btRead {se : Int} (h : s.Inv) : (stepLeft (btRead s k m early se)).Inv := by
  unfold btRead
  dsimp only
  split
  · next e => exact inv_engAccess h e
  · next e =>
    split
    · exact inv_engFault (inv_engAccess h e)
    · exact inv_engAccess h e

theorem inv_btWriteMem {de : Int} {bs : List Byte} (h : s.Inv) : (btLeft (btWriteMem s k m de bs)).Inv := by
  unfold btWriteMem
  dsimp only
  split
  · next e => exact inv_engAccess h e
  · next e => exact inv_storeTag _ _ _ _ _ (inv_engAccess h e)

theorem inv_past {r : BtRes} (h : (btLeft r).Inv) : (btLeft (r.past n)).Inv := by
  cases r <;> exact h

theorem inv_btStep (h : s.Inv) : (btLeft (btStep s k ch m early)).Inv := by
  unfold btStep
  extract_lets d ew p j put
  have hput {t : State} {bs : List Byte} (ht : t.Inv) : (btLeft (put t bs)).Inv := by
    refine inv_past ?_
    split
    · exact inv_btWriteMem ht
    · exact ht
  split
  · split
    · exact h
    · exact hput h
  · have hr := inv_btRead (k := k) (m := m) (early := early) (se := btSe d p j) h
    generalize btRead s k m early (btSe d p j) = r at hr
    cases r with
    | inl t => exact hr
    | inr r => exact hput hr

theorem inv_qntRead {acc : List FV} (h : s.Inv) : (stepLeft (qntRead s k m early p0 n acc)).Inv := by
  induction n generalizing s acc with
  | zero => exact h
  | succ n ih =>
    unfold qntRead
    dsimp only
    split
    · exact ih h
    · split
      · next e => exact inv_engAccess h e
      · next e =>
        split
        · exact inv_engFault (inv_engAccess h e)
        · exact ih (inv_engAccess h e)

theorem inv_btWrites {cnt : List Nat} {ws : List (List Nat)} (h : s.Inv) : (btLeft (btWrites s k cnt m ws)).Inv := by
  induction ws generalizing s m with
  | nil => exact h
  | cons w ws ih =>
    unfold btWrites
    dsimp only
    split
    · next e => exact inv_engAccess h e
    · next e => exact ih (inv_storeTag _ _ _ _ _ (inv_engAccess h e))

theorem inv_qntPut {cnt : List Nat} {ws : List (List Nat)} (h : s.Inv) : (btLeft (qntPut s k m cnt ws)).Inv := by
  have hw := inv_past (n := 1024) (inv_btWrites (k := k) (m := m) (cnt := cnt) (ws := ws) h)
  unfold qntPut
  dsimp only
  generalize BtRes.past 1024 (btWrites s k cnt m ws) = r at hw
  cases r with
  | stop t => exact hw
  | go t m => exact inv_setCore hw

theorem inv_qntTile (h : s.Inv) : (btLeft (qntTile s k ch m early)).Inv := by
  unfold qntTile
  split
  · exact inv_qntPut h
  · extract_lets d t p0
    have hr := inv_qntRead (k := k) (m := m) (early := early) (p0 := p0) (n := 1024) (acc := []) h
    generalize qntRead s k m early p0 1024 [] = r at hr
    cases r with
    | inl t => exact hr
    | inr r => exact inv_qntPut hr

theorem inv_btMove (h : s.Inv) : (btLeft (btMove s k m early n)).Inv := by
  induction n generalizing s m early with
  | zero => exact h
  | succ n ih =>
    unfold btMove
    split
    · exact h
    · have hr : (btLeft (if btQnt m.op.desc then qntTile s k (btChan m) m early else btStep s k (btChan m) m early)).Inv := by
        split
        · exact inv_qntTile h
        · exact inv_btStep h
      generalize (if btQnt m.op.desc then _ else _ : BtRes) = r at hr
      cases r with
      | stop t => exact hr
      | go t m => exact ih hr

theorem inv_btGoOn (h : s.Inv) : (btGoOn s k m n early).Inv := by
  have hm := inv_btMove (k := k) (m := m) (early := early) (n := n) h
  unfold btGoOn
  generalize btMove s k m early n = r at hm
  cases r with
  | stop t => exact hm
  | go t m =>
    dsimp only
    split
    · exact inv_retireCmd (inv_setCmd hm)
    · exact inv_setCmd hm

theorem inv_execBteCommandRetire {mv : BteMove} (h : s.Inv) : OutInv (execBteCommandRetire k seq mv s) := by
  refine inv_next ?_
  split
  · exact inv_orRelease (fun _ => h) h
  · exact inv_btGoOn h

theorem inv_execBteRowEntry (h : s.Inv) : OutInv (execBteRowEntry k seq s) := by
  refine inv_next ?_
  split
  · exact h
  · split
    · exact h
    · exact inv_ite h (inv_setCmd (inv_setCore h))

theorem inv_execBteOverlayWrite {cmd : EarlyTurn} (h : s.Inv) : OutInv (execBteOverlayWrite k cmd s) := by
  refine inv_next ?_
  split
  · exact h
  · next m _ =>
    extract_lets d kind ew p j off src
    split
    · exact h
    · have hr : (stepLeft src).Inv := by
        dsimp only [src]
        split
        · exact h
        · exact inv_btRead h
      generalize src = r at hr
      cases r with
      | inl t => exact hr
      | inr r => exact inv_ite (inv_engFault hr) (inv_setCmd (inv_setCore hr))

end

end Sys2Proof.Proofs

/-!
SUPPORT for `StepKeepsInv`: the canonical form of memory is kept. Part 8: answers to held words, barriers, link transfers and collectives.
-/

namespace Sys2Proof.Proofs

open Sys2Proof.Machine Sys2Proof.Laws

section
variable {s t : State} {k j rid cause n seq rank : Nat} {va : Word} {m : Cmd} {w : Win} {put : Bool}
variable {grp : List Nat} {copy : Option Nat} {l : List (Nat × Coll)}

/-! ### Answers and barriers -/

theorem inv_answer {r : PendRes} (h : s.Inv) : (answer s k r).Inv := by
  unfold answer
  dsimp only
  split <;> exact h

theorem inv_answerAll {r : PendRes} (h : s.Inv) : (answerAll s grp r).Inv := inv_foldl _ (fun _ _ ht => inv_answer ht) _ h

theorem inv_setLoop {o : Option WLoop} (h : s.Inv) : (setLoop s rid copy o).Inv := by
  unfold setLoop
  split
  · exact h
  · split <;> exact h

theorem inv_dealWindow {window : List Nat} {wst : BitVec 3} {lid : BitVec 16} (h : s.Inv) : (dealWindow s grp window wst lid).Inv :=
  inv_foldl _ (fun _ _ ht => inv_answer (inv_setCore ht)) _ h

theorem inv_breakAll (h : s.Inv) : (breakAll s grp).Inv := inv_foldl _ (fun _ _ ht => inv_setCore ht) _ h

theorem inv_openBarrier {asks : List (Nat × PendKind)} (h : s.Inv) : (openBarrier s rid copy grp asks).Inv := by
  unfold openBarrier
  split
  · exact inv_answerAll h
  · exact inv_dealWindow (inv_setLoop h)
  · exact h

theorem inv_roundBarrier {lp : WLoop} (h : s.Inv) : (roundBarrier s rid copy grp lp).Inv := by
  unfold roundBarrier
  dsimp only
  split
  · exact inv_foldl _ (fun _ _ ht => inv_answer (inv_setCore ht)) _ h
  · split
    · exact inv_answerAll (inv_breakAll h)
    · split
      · exact inv_foldl _ (fun _ _ ht => inv_answer ht) _ (inv_breakAll h)
      · exact inv_dealWindow (inv_setLoop h)

theorem inv_execWlBarrierComplete (h : s.Inv) : OutInv (execWlBarrierComplete rid s) := by
  refine inv_next ?_
  split
  · exact h
  · refine inv_foldl _ (fun t grp ht => ?_) _ h
    split
    · exact ht
    · split
      · exact ht
      · split
        · exact inv_answerAll (inv_breakAll ht)
        · split
          · exact inv_openBarrier ht
          · split
            · exact inv_roundBarrier ht
            · exact ht
          · exact inv_foldl _ (fun _ _ hu => inv_answer (inv_setCore hu)) _ (inv_setLoop ht)
          · exact ht

/-! ### Transfers -/

theorem inv_winAccess {len : Nat} {d : Need} {r : State × AccRes} (h : s.Inv) (e : winAccess s k w va len d = r) : r.1.Inv := by
  subst e
  unfold winAccess
  split
  · exact h
  · exact inv_engCheck h rfl

theorem inv_bumpCounter {snd : Nat} (h : s.Inv) : (bumpCounter s k w snd n).Inv := inv_setEv (inv_spadAdd _ _ _ h)

theorem inv_farAccess {len : Nat} {d : Need} {r : EngRes} (h : s.Inv) (e : farAccess s k m j w va len d = r) : (engLeft r).Inv := by
  subst e
  unfold farAccess
  split
  · next e => exact inv_winAccess h e
  · next e => exact inv_ite (inv_engWalkFault (inv_winAccess h e)) (inv_engFault (inv_winAccess h e))
  · next e => exact inv_engFault (inv_winAccess h e)
  · next e => exact inv_stage2Fail (inv_setCmd (inv_winAccess h e))

theorem inv_moveBytes {r : State × Option Cmd} (h : s.Inv) (e : moveBytes s k m put j rank w n = r) : r.1.Inv := by
  subst e
  unfold moveBytes
  dsimp only
  split
  · exact h
  · split
    · next e => exact inv_engAccess h e
    · next e =>
      split
      · next f => exact inv_farAccess (inv_engAccess h e) f
      · next f =>
        have hf := inv_farAccess (inv_engAccess h e) f
        exact inv_ite_fst (inv_engFault hf) (inv_ite (inv_vaStore _ _ _ _ hf) (inv_vaStore _ _ _ _ hf))

theorem inv_transferStep (h : s.Inv) : (transferStep s k m put n).Inv := by
  unfold transferStep
  split
  · exact inv_engFault h
  · split
    · exact inv_engFault h
    · split
      · next e => exact inv_moveBytes h e
      · next e =>
        have hm := inv_moveBytes h e
        split
        · exact inv_setCmd hm
        · exact inv_setCmd (inv_bumpCounter (inv_ite (inv_bumpCounter hm) hm))

theorem inv_execLinkPutDelivery (h : s.Inv) : OutInv (execLinkPutDelivery k seq n s) := by
  refine inv_next ?_
  split
  · exact inv_transferStep h
  · exact h

theorem inv_execLinkGetComplete (h : s.Inv) : OutInv (execLinkGetComplete k seq n s) := by
  refine inv_next ?_
  split
  · exact inv_transferStep h
  · exact h

theorem inv_execLinkCommandRetire (h : s.Inv) : OutInv (execLinkCommandRetire k seq s) := by
  refine inv_next <| inv_orRelease (fun m => ?_) h
  split
  · exact inv_ite (inv_retireCmd h) h
  · exact h

theorem inv_execAbortNotice {att : Nat} (h : s.Inv) : OutInv (execAbortNotice k att s) :=
  inv_next <| inv_ite (inv_noticeAtt h) h

/-! ### Collectives -/

theorem inv_collEnd (h : s.Inv) : (collEnd s l cause).Inv := by
  refine inv_foldl _ (fun t e ht => ?_) _ h
  split
  · exact inv_answer ht
  · exact inv_setCmd ht
  · exact inv_setCmd ht

theorem inv_lostEnd (h : s.Inv) : (lostEnd s grp).Inv := by
  refine inv_foldl _ (fun t j ht => ?_) _ h
  have hu : ((t.core j).cmds.foldl (fun s m =>
      if m.eng = .link ∧ (m.op.op = cxAred ∨ m.op.op = cxAgath) ∧ m.done.isNone then setCmd s j { m with done := some 0x7A } else s) t).Inv :=
    inv_foldl _ (fun _ _ hv => inv_ite (inv_setCmd hv) hv) _ ht
  dsimp only
  split
  · split
    · exact inv_ite (inv_answer hu) hu
    · exact hu
  · exact hu

theorem inv_execBarrierComplete (h : s.Inv) : OutInv (execBarrierComplete rid s) := by
  refine inv_next ?_
  split
  · exact h
  · refine inv_foldl _ (fun t grp ht => ?_) _ h
    refine inv_ite (inv_lostEnd ht) ?_
    dsimp only
    split
    · exact ht
    · split
      · exact ht
      · exact inv_collEnd ht

theorem inv_redPart {r : State × PartRes} (h : s.Inv) (e : redPart s j m = r) : r.1.Inv := by
  subst e
  unfold redPart
  dsimp only
  split
  · next e => exact inv_engCheck h e
  · next e => exact inv_engCheck h e
  · next e => exact inv_engCheck h e
  · next e =>
    have hc := inv_engCheck h e
    split
    · exact hc
    · split
      · next f => exact inv_engCheck hc f
      · next f => exact inv_engCheck hc f
      · next f => exact inv_engCheck hc f
      · next f => exact inv_engCheck hc f

theorem inv_redParts {all l : List (Nat × Coll)} {acc : List (Nat × Cmd × List Nat × List Xl)} (h : s.Inv) :
    (stepLeft (redParts all s l acc)).Inv := by
  induction l generalizing s acc with
  | nil => exact h
  | cons e l ih =>
    obtain ⟨j, c⟩ := e
    cases c with
    | red m =>
      unfold redParts
      split
      · next e => exact ih (inv_redPart h e)
      · next e => exact inv_collEnd (inv_redPart h e)
      · next e => exact inv_engWalkFault (inv_redPart h e)
      · next e => exact inv_stage2Fail (inv_redPart h e)
    | _ => exact ih h

theorem inv_redFinish {order : List Nat} (h : s.Inv) : (redFinish s l order).Inv := by
  have hr := inv_redParts (all := l) (l := l) (acc := []) h
  unfold redFinish
  generalize redParts l s l [] = r at hr
  cases r with
  | inl t => exact hr
  | inr r =>
    obtain ⟨t, parts⟩ := r
    dsimp only
    split
    · exact hr
    · exact inv_foldl _ (fun _ _ ht => inv_setCmd (inv_vaStore _ _ _ _ ht)) _ hr

theorem inv_execReductionComplete {order : List Nat} (h : s.Inv) : OutInv (execReductionComplete rid order s) := by
  refine inv_next ?_
  split
  · exact h
  · refine inv_foldl _ (fun t grp ht => ?_) _ h
    refine inv_ite (inv_lostEnd ht) ?_
    dsimp only
    split
    · exact ht
    · split
      · exact inv_collEnd ht
      · exact inv_ite ht (inv_redFinish ht)

theorem inv_gathMatch (h : s.Inv) : (gathMatch s k m).Inv := by
  unfold gathMatch
  split
  · exact h
  · split
    · exact inv_collEnd h
    · refine inv_foldl _ (fun t e ht => ?_) _ h
      split
      · exact inv_setCmd ht
      · exact ht

theorem inv_gathFault (h : s.Inv) : (gathFault s k m cause).Inv :=
  inv_foldl _ (fun _ _ ht => inv_foldl _ (fun _ _ hu => inv_ite (inv_setCmd hu) hu) _ ht) _ h

theorem inv_gathArrives (h : s.Inv) : (gathArrives s j m).1.Inv := inv_noticeAtt h

end

end Sys2Proof.Proofs

/-!
SUPPORT for `StepKeepsInv`: the canonical form of memory is kept. Part 9: gathers, the MXE's events, and the start of a pair log command.
-/

namespace Sys2Proof.Proofs

open Sys2Proof.Machine Sys2Proof.Laws

/-- The state that one cycle of a job of the MXE leaves; a job that faults leaves `s` to its fault. -/
def jobLeft (s : State) : JobRes → State
  | .go t _ => t
  | .fin t => t
  | .trap _ _ => s

/-- The state that a search of the peers leaves. -/
def peerLeft : PeerRes → State
  | .stop t => t
  | .found t _ => t
  | .none t _ _ => t

section
variable {s t : State} {k j rid n q bytes seq rank : Nat} {va : Word} {m : Cmd} {win : Win}

/-! ### Gathers -/

theorem inv_gathPlace (h : s.Inv) : (gathPlace s k m rank).Inv := by
  unfold gathPlace
  dsimp only
  split
  · refine inv_ite h ?_
    split
    · next e => exact inv_gathFault (inv_engCheck h e)
    · next e => exact inv_ite (inv_engWalkFault (inv_engCheck h e)) (inv_gathFault (inv_engCheck h e))
    · next e => exact inv_stage2Fail (inv_setCmd (inv_engCheck h e))
    · next e =>
      have ha (j : Nat) := inv_gathArrives (j := j) (m := m) (inv_engCheck h e)
      refine inv_ite (inv_gathFault (ha _)) (inv_ite (ha _) ?_)
      split
      · next f => exact inv_gathFault (inv_winAccess (ha _) f)
      · next f => exact inv_ite (inv_engWalkFault (inv_winAccess (ha _) f)) (inv_gathFault (inv_winAccess (ha _) f))
      · next f => exact inv_stage2Fail (inv_setCmd (inv_winAccess (ha _) f))
      · next f => exact inv_setCmd (inv_bumpCounter (inv_vaStore _ _ _ _ (inv_winAccess (ha _) f)))
  · exact h

theorem inv_execGatherItemPlace (h : s.Inv) : OutInv (execGatherItemPlace k seq rank s) := by
  refine inv_next ?_
  split
  · exact h
  · exact inv_ite (inv_setCmd h) (inv_ite (inv_gathMatch h) (inv_gathPlace h))

theorem inv_execCxMemberLost {x : Option Nat × Nat} (h : s.Inv) : OutInv (execCxMemberLost rid x s) := by
  refine inv_next ?_
  split
  · exact h
  · refine inv_ite h (inv_foldl _ (fun t grp ht => ?_) _ (inv_setRegion h))
    exact inv_foldl _ (fun _ _ hu => inv_foldl _ (fun _ _ hv => inv_ite (inv_retireCmd hv) hv) _ hu) _ (inv_lostEnd ht)

/-! ### The MXE -/

theorem inv_modMxOf {f : Mx → Mx} (h : s.Inv) : (modMxOf s k f).Inv := h

theorem inv_ldwCycle {j : Job} (h : s.Inv) : (jobLeft s (ldwCycle s k j)).Inv := by
  unfold ldwCycle
  dsimp only
  repeat' split
  all_goals exact h

theorem inv_runCycle {j : Job} (h : s.Inv) : (jobLeft s (runCycle s k j)).Inv := by
  unfold runCycle
  dsimp only
  repeat' split
  all_goals exact h

theorem inv_biasCycle {j : Job} (h : s.Inv) : (jobLeft s (biasCycle s k j)).Inv := by
  unfold biasCycle
  dsimp only
  repeat' split
  all_goals exact h

theorem inv_jobCycle {j : Job} (h : s.Inv) : (jobLeft s (jobCycle s k j)).Inv := by
  unfold jobCycle
  dsimp only
  split
  · exact inv_ldwCycle h
  · exact inv_runCycle h
  · split <;> exact h
  · split <;> exact h
  · split <;> exact h
  · exact inv_biasCycle h
  · exact h

theorem inv_jobsCycle {js : List Job} (h : s.Inv) : (jobsCycle k js s).Inv := by
  induction js generalizing s with
  | nil => exact h
  | cons j js ih =>
    unfold jobsCycle
    dsimp only
    split
    · exact ih h
    · have hj := inv_jobCycle (k := k) (j := j) h
      generalize jobCycle s k j = r at hj
      cases r with
      | go t i => exact ih (inv_modMxOf hj)
      | fin t => exact ih (inv_setCore (inv_modMxOf hj))
      | trap f a => exact inv_mxFaultAt h

theorem inv_execMxWordFinish (h : s.Inv) : OutInv (execMxWordFinish k s) := inv_next <| inv_ite (inv_jobsCycle h) h

theorem inv_execMxDrainRow (h : s.Inv) : OutInv (execMxDrainRow k s) := by
  refine inv_next ?_
  split
  · exact h
  · exact inv_ite h (inv_setCore h)

theorem inv_execMxStagedWriteApply (h : s.Inv) : OutInv (execMxStagedWriteApply k s) := by
  refine inv_next ?_
  split
  · exact h
  · exact inv_ite h (inv_retireCmd (inv_setCore h))

theorem inv_execMxRoutineStart (h : s.Inv) : OutInv (execMxRoutineStart k s) := by
  refine inv_next ?_
  split
  · exact h
  · exact inv_ite h (inv_setCmd (inv_setCore h))

theorem inv_execMxRoutineRetire (h : s.Inv) : OutInv (execMxRoutineRetire k s) := by
  refine inv_next ?_
  split
  · exact h
  · refine inv_ite h ?_
    dsimp only
    split
    · exact inv_retireCmd (inv_setCore h)
    · exact inv_setCore h

theorem inv_execMxReplay (h : s.Inv) : OutInv (execMxReplay k n s) := by
  refine inv_next ?_
  split
  · exact h
  · exact inv_ite h (inv_ite h (inv_mxFaultAt h))

/-! ### The pair log -/

theorem inv_ownSlot {r : Sum State (State × List Byte)} (h : s.Inv) (e : ownSlot s k m win q = r) : (stepLeft r).Inv := by
  subst e
  unfold ownSlot
  dsimp only
  split
  · next e => exact inv_engAccess h e
  · next e =>
    split
    · exact inv_engFault (inv_engAccess h e)
    · exact inv_engAccess h e

theorem inv_sdDone (h : s.Inv) : (sdDone s k m bytes).Inv := inv_retireCmd h

theorem inv_sdWrite {bs : List Byte} {r : EngRes} (h : s.Inv) (e : sdWrite s k m va bs = r) : (engLeft r).Inv := by
  subst e
  unfold sdWrite
  split
  · next e => exact inv_engAccess h e
  · next e => exact inv_vaStore _ _ _ _ (inv_engAccess h e)

theorem inv_runEmit (h : s.Inv) : (runEmit s k m).Inv := by
  unfold runEmit
  dsimp only
  split
  · next e => exact inv_sdWrite h e
  · next e => exact inv_sdDone (inv_sdWrite h e)

theorem inv_gapScan {hi : Nat} {r : Sum State (State × Cmd × Nat × Nat)} (h : s.Inv) (e : gapScan k win hi n q s m = r) : (stepLeft r).Inv := by
  subst e
  induction n generalizing s m q with
  | zero => exact h
  | succ n ih =>
    unfold gapScan
    split
    · next e => exact inv_ownSlot h e
    · next e =>
      have ho := inv_ownSlot h e
      dsimp only
      split
      · exact ih ho
      · exact ih ho
      · exact ho
      · exact ih ho

theorem inv_setFrontier (h : s.Inv) : (setFrontier s k n).Inv := h

theorem inv_runGap (h : s.Inv) : (runGap s k m win).Inv := by
  unfold runGap
  dsimp only
  refine inv_ite (inv_retireCmd h) ?_
  split
  · next e => exact inv_gapScan h e
  · next e =>
    have hg := inv_gapScan h e
    split
    · next f => exact inv_sdWrite hg f
    · next f => exact inv_sdDone (inv_setFrontier (inv_sdWrite hg f))

theorem inv_askPeers {ps : List Nat} {lost bad : Bool} {r : PeerRes} (h : s.Inv) (e : askPeers s k m win q ps lost bad = r) :
    (peerLeft r).Inv := by
  subst e
  induction ps generalizing s lost bad with
  | nil => exact h
  | cons p ps ih =>
    unfold askPeers
    split
    · exact ih h
    · split
      · exact ih h
      · dsimp only
        split
        · next e => exact inv_farAccess h e
        · next e =>
          have hf := inv_farAccess h e
          split
          · exact inv_engFault hf
          · split
            · exact hf
            · exact ih hf
            · exact ih hf
            · exact ih hf

end

end Sys2Proof.Proofs

/-!
SUPPORT for `StepKeepsInv`: the canonical form of memory is kept. Part 10: the rest of the pair log, Quern units, submission, launch and issue.
-/

namespace Sys2Proof.Proofs

open Sys2Proof.Machine Sys2Proof.Laws

section
variable {s t : State} {k rid pn cause n q seq rank early cl : Nat} {m : Cmd} {win : Win}

theorem inv_fetchOne {peers : List Nat} {r : Sum State (State × Cmd)} (h : s.Inv) (e : fetchOne s k m win peers q = r) : (stepLeft r).Inv := by
  subst e
  unfold fetchOne
  extract_lets past place
  have hplace {t : State} {bs : List Byte} (ht : t.Inv) : (stepLeft (place t bs)).Inv := by
    dsimp only [place]
    split
    · next e => exact inv_sdWrite ht e
    · next e => exact inv_sdWrite ht e
  split
  · exact hplace h
  · split
    · next e => exact inv_ownSlot h e
    · next e =>
      have ho := inv_ownSlot h e
      split
      · exact ho
      · split
        · next f => exact inv_askPeers ho f
        · next f =>
          have hp := inv_askPeers ho f
          split
          · exact inv_retireCmd hp
          · split
            · exact inv_retireCmd hp
            · exact hp
        · next f => exact hplace (inv_askPeers ho f)

theorem inv_fetchLoop {peers : List Nat} (h : s.Inv) : (fetchLoop k win peers n q s m).Inv := by
  induction n generalizing s m q with
  | zero => exact inv_sdDone h
  | succ n ih =>
    unfold fetchLoop
    split
    · next e => exact inv_fetchOne h e
    · next e => exact ih (inv_setCmd (inv_fetchOne h e))

theorem inv_runFetch (h : s.Inv) : (runFetch s k m win).Inv := inv_fetchLoop h

theorem inv_readEntries {r : Sum State (State × Cmd)} (h : s.Inv) (e : readEntries k win n q s m = r) : (stepLeft r).Inv := by
  subst e
  induction n generalizing s m q with
  | zero => exact h
  | succ n ih =>
    unfold readEntries
    split
    · next e => exact inv_ownSlot h e
    · next e =>
      have ho := inv_ownSlot h e
      split
      · exact inv_retireCmd ho
      · exact ih ho
      · exact ho

theorem inv_applyLoop {d : Replay} {es : List Entry} {r : Sum State (State × Cmd)} (h : s.Inv) (e : applyLoop k d es n s m = r) :
    (stepLeft r).Inv := by
  subst e
  induction n generalizing s m with
  | zero => exact h
  | succ n ih =>
    unfold applyLoop
    extract_lets i g sva scale
    have hscale : (stepLeft scale).Inv := by
      dsimp only [scale]
      split
      · exact h
      · split
        · next e => exact inv_engAccess h e
        · next e =>
          split
          · exact inv_engFault (inv_engAccess h e)
          · exact inv_engAccess h e
    generalize scale = r at hscale
    cases r with
    | inl t => exact hscale
    | inr r =>
      dsimp only
      split
      · next e => exact inv_engAccess hscale e
      · next e =>
        split
        · exact inv_engFault (inv_engAccess hscale e)
        · exact ih (inv_setCmd (inv_vaStore _ _ _ _ (inv_engAccess hscale e)))

theorem inv_applyOpen (h : s.Inv) : (stepLeft (applyOpen s k m)).Inv := by
  unfold applyOpen
  dsimp only
  split
  · next e => exact inv_engAccess h e
  · next e =>
    have ha := inv_engAccess h e
    split
    · exact inv_engFault ha
    · split
      · exact inv_retireCmd ha
      · split
        · exact inv_retireCmd ha
        · exact ha

theorem inv_applyRead (h : s.Inv) : (stepLeft (applyRead s k m win)).Inv := by
  unfold applyRead
  dsimp only
  split
  · next e => exact inv_readEntries h e
  · next e =>
    have hr := inv_readEntries h e
    exact hr

theorem inv_applyWrite (h : s.Inv) : (applyWrite s k m).Inv := by
  unfold applyWrite
  dsimp only
  split
  · next e => exact inv_applyLoop (inv_setCmd h) e
  · next e =>
    have ha := inv_applyLoop (inv_setCmd h) e
    split
    · next f => exact inv_sdWrite ha f
    · next f => exact inv_sdDone (inv_setFrontier (inv_sdWrite ha f))

theorem inv_orStop {r : Sum State (State × Cmd)} {go : State → Cmd → State} (hr : (stepLeft r).Inv) (hgo : ∀ t m, t.Inv → (go t m).Inv) :
    (orStop r go).Inv := by
  cases r with
  | inl t => exact hr
  | inr r => exact hgo _ _ hr

theorem inv_runApply (h : s.Inv) : (runApply s k m win).Inv := by
  refine inv_orStop ?_ fun t m ht => inv_orStop ?_ fun _ _ hu => inv_applyWrite hu
  · split
    · exact inv_applyOpen h
    · exact h
  · split
    · exact inv_applyRead ht
    · exact ht

theorem inv_execSdCommandRetire (h : s.Inv) : OutInv (execSdCommandRetire k seq s) := by
  refine inv_next <| inv_orRelease (fun m => inv_ite (inv_ite (inv_runEmit h) ?_) h) h
  split
  · exact inv_engFault h
  · exact inv_ite (inv_runGap h) (inv_ite (inv_runFetch h) (inv_runApply h))

/-! ### Quern units -/

theorem inv_execQuernPhaseEnd (h : s.Inv) : OutInv (execQuernPhaseEnd cl s) := by
  refine inv_next ?_
  split
  · exact h
  · refine inv_ite h (inv_ite (inv_retireCmd h) (inv_ite h (inv_setCmd (inv_setQuern ?_))))
    exact inv_ite h h

theorem inv_execQuernSweepEnd (h : s.Inv) : OutInv (execQuernSweepEnd cl s) := by
  refine inv_next ?_
  split
  · exact h
  · exact inv_ite h (inv_setCmd (inv_ite (inv_setQuern h) h))

theorem inv_execQuernColourCheck (h : s.Inv) : OutInv (execQuernColourCheck cl s) := by
  refine inv_next ?_
  split
  · exact h
  · refine inv_ite h ?_
    split <;> exact h

theorem inv_runTake (h : s.Inv) : (runTake s cl k m early).Inv := by
  unfold runTake
  dsimp only
  split
  · next e => exact inv_engAccess h e
  · next e =>
    have ha := inv_engAccess h e
    refine inv_ite (inv_engFault ha) ?_
    split
    · exact inv_retireCmd ha
    · exact inv_ite (inv_retireCmd (inv_setQuern ha)) (inv_ite (inv_setCmd (inv_setQuern ha)) (inv_retireCmd (inv_setQuern ha)))

theorem inv_runGive (h : s.Inv) : (runGive s cl k m).Inv := by
  unfold runGive
  extract_lets q write words writes
  have hw := inv_btWrites (k := k) (m := m) (cnt := []) (ws := writes) h
  generalize btWrites s k [] m writes = r at hw
  cases r with
  | stop t => exact hw
  | go t m => exact inv_ite (inv_retireCmd hw) (inv_retireCmd (inv_ite (inv_setQuern hw) hw))

theorem inv_execQuernCommandRetire {c : EarlyTurn} (h : s.Inv) : OutInv (execQuernCommandRetire c s) := by
  refine inv_next ?_
  split
  · exact h
  · refine inv_ite h (inv_ite (inv_releaseCmd h) ?_)
    split
    · exact inv_retireCmd h
    · refine inv_ite h (inv_ite (inv_ite (inv_retireCmd h) h) (inv_ite h ?_))
      exact inv_ite (inv_runGive h) (inv_runTake h)

theorem inv_execQuernRelease (h : s.Inv) : OutInv (execQuernRelease cl s) := by
  refine inv_next ?_
  split
  · exact inv_ite (inv_setQuern h) h
  · exact h

/-! ### Submission, launch and issue -/

theorem inv_log {e : LErr} (h : s.Inv) : (e.log s).Inv := by
  unfold LErr.log
  split <;> exact h

theorem inv_finishRegion {status : Nat} {f : Word} (h : s.Inv) : (finishRegion s rid status cause f).Inv := inv_endRegion h

theorem inv_replyWith {r : Reply} (h : s.Inv) : (replyWith s r).Inv := h

theorem inv_execSubmission {vf : Nat} {l : List (BitVec 8)} {ide : Bool} (h : s.Inv) : OutInv (execSubmission vf l ide s) := by
  refine inv_next (inv_ite (inv_replyWith h) ?_)
  split
  · refine inv_replyWith ?_
    split
    · exact inv_log h
    · exact h
  · exact inv_ite (inv_replyWith h) (inv_replyWith (inv_partWrite _ _ _ (inv_acceptRegion (inv_setPart h))))

theorem inv_chargeRegion (h : s.Inv) : (chargeRegion s rid n).Inv := by
  unfold chargeRegion
  split <;> exact h

theorem inv_execScoreboardEntry {place : RegionDie} (h : s.Inv) : OutInv (execScoreboardEntry place s) := by
  refine inv_next ?_
  dsimp only
  split
  · exact h
  · refine inv_ite h ?_
    split
    · exact inv_finishRegion (inv_setRegion (inv_faddrOf (inv_log h)))
    · next g _ _ n _ =>
      have hc : (match g.chan with
          | some c => chargeRegion (s.setRegion place.rid { n with die := place.die }) c.1 n.charge
          | none => s.setRegion place.rid { n with die := place.die }).Inv := by
        split
        · exact inv_chargeRegion (inv_setRegion h)
        · exact inv_setRegion h
      exact inv_ite hc (inv_finishRegion (inv_faddrOf hc))

theorem inv_copyStream {src dst len : Nat} (h : s.Inv) (e : copyStream s pn src dst len = .ok t) : t.Inv := by
  unfold copyStream at e
  simp only [bind, Except.bind, pure, Except.pure, throw, throwThe, MonadExceptOf.throw] at e
  repeat' split at e
  all_goals cases e
  all_goals exact inv_xlStore _ _ _ h

theorem inv_execStreamCopy (h : s.Inv) : OutInv (execStreamCopy rid s) := by
  refine inv_next ?_
  split
  · exact h
  · split
    · exact h
    · refine inv_ite h ?_
      split
      · exact inv_finishRegion (inv_faddrOf (inv_log h))
      · next e => exact inv_setRegion (inv_copyStream h e)

theorem inv_zeroCounters {wins : SMap Win} (h : s.Inv) : (zeroCounters s k wins).Inv :=
  inv_foldl _ (fun _ _ ht => inv_ite (inv_spadStore _ _ _ ht) ht) _ h

theorem inv_startMember {g : Region} {ld : LoadSet} {count : Nat} {copy : Option Nat} {range : List (Nat × Nat)} (h : s.Inv) :
    (startMember s k rid g ld rank count copy range).Inv :=
  inv_zeroCounters (inv_spadStore _ _ _ (inv_setCore h))

theorem inv_restoreQuern {g : Region} (h : s.Inv) : (restoreQuern s k n g).Inv := by
  unfold restoreQuern
  split <;> exact h

theorem inv_resumeRegion {g : Region} {cores : List Nat} (h : s.Inv) : (resumeRegion s rid g cores).Inv := by
  unfold resumeRegion
  extract_lets t
  have ht : t.Inv := inv_foldl _ (fun _ _ hu => inv_setCore (inv_restoreSpad _ _ _ hu)) _ h
  split
  · exact inv_setRegion ht
  · exact ht

theorem inv_giveCore {share : Option Nat × List Nat} (h : s.Inv) : (giveCore s rid share k).Inv := h

theorem inv_startRegion (h : s.Inv) : (startRegion s rid).Inv := by
  unfold startRegion
  split
  · exact h
  · refine inv_ite h ?_
    split
    · exact inv_resumeRegion h
    · split
      · exact inv_finishRegion (inv_faddrOf (inv_log h))
      · exact inv_foldl _ (fun _ _ ht => inv_startMember ht) _ h

theorem inv_execRegionIssue {place : Placing} (h : s.Inv) : OutInv (execRegionIssue rid place s) := by
  refine inv_next ?_
  dsimp only
  split
  · exact h
  · refine inv_ite h (inv_ite (inv_finishRegion (inv_faddrOf h)) (inv_startRegion ?_))
    refine inv_foldl _ (fun _ _ ht => inv_restoreQuern ht) _ ?_
    exact inv_foldl _ (fun _ _ ht => inv_foldl _ (fun _ _ hu => inv_giveCore hu) _ ht) _ (inv_setRegion h)

theorem inv_execRetentionEntry (h : s.Inv) : OutInv (execRetentionEntry k s) := by
  refine inv_next ?_
  split
  · exact inv_ite (inv_setCore h) h
  · exact inv_ite (inv_setCore h) h
  · exact h

theorem inv_execRetentionExit {bad : List Nat} (h : s.Inv) : OutInv (execRetentionExit k bad s) := by
  refine inv_next ?_
  split
  · exact inv_ite h (inv_startRegion h)
  · exact h

end

end Sys2Proof.Proofs

/-!
SUPPORT for `StepKeepsInv`: the canonical form of memory is kept. Part 11: region words' events, completion, dual runs, pre-emption, fences and
tests.
-/

namespace Sys2Proof.Proofs

open Sys2Proof.Machine Sys2Proof.Laws

section
variable {s : State} {k rid pn n vf : Nat} {grp add : List Nat} {copy : Option Nat} {g : Region}

/-! ### Region words' events -/

theorem inv_grantTo {l : List (Nat × Nat)} (h : s.Inv) : (grantTo s k l).Inv := by
  unfold grantTo
  split
  · exact h
  · exact inv_answer (inv_setCore h)

theorem inv_refuseThief (h : s.Inv) : (refuseThief s k).Inv := by
  unfold refuseThief
  dsimp only
  split <;> exact h

theorem inv_serveRequest (h : s.Inv) : (serveRequest s k).Inv := by
  unfold serveRequest
  dsimp only
  split
  · exact h
  · exact inv_ite (inv_refuseThief (inv_setCore h)) (inv_grantTo (inv_setCore h))

theorem inv_askVictims (h : s.Inv) : (askVictims n k s).Inv := by
  induction n generalizing s with
  | zero => exact h
  | succ n ih =>
    unfold askVictims
    dsimp only
    split
    · split
      · exact inv_answer h
      · exact inv_ite (ih (inv_refuseThief (inv_setCore h))) (inv_ite h (inv_setCore h))
    · exact h

theorem inv_nextAnswer {only : Option Nat} (h : s.Inv) : (nextAnswer s k only).Inv := by
  unfold nextAnswer
  dsimp only
  split
  · exact inv_serveRequest (inv_answer (inv_setCore h))
  · exact inv_answer h
  · exact inv_askVictims h

theorem inv_execRgNextAnswer (h : s.Inv) : OutInv (execRgNextAnswer k s) := by
  refine inv_next ?_
  split
  · exact inv_nextAnswer h
  · exact h

theorem inv_redeal {pool : List (Nat × Nat)} (h : s.Inv) : (redeal s pool grp).Inv :=
  inv_foldl _ (fun _ _ ht => inv_answer (inv_setCore ht)) _ h

theorem inv_withdrawMember (h : s.Inv) : (withdrawMember s k).Inv := inv_setCore (inv_closeMember h)

theorem inv_addMembers {pool : List (Nat × Nat)} (h : s.Inv) : (addMembers s rid g pool grp add).Inv := by
  unfold addMembers
  refine inv_ite h ?_
  split
  · exact inv_finishRegion (inv_faddrOf (inv_log h))
  · exact inv_redeal (inv_foldl _ (fun _ _ ht => inv_setCore (inv_startMember ht)) _ (inv_setRegion h))

theorem inv_stepBarrier (h : s.Inv) : (stepBarrier s rid copy grp n add).Inv := by
  unfold stepBarrier
  split
  · exact h
  · refine inv_ite (inv_ite (inv_redeal h) h) (inv_ite (inv_addMembers h) (inv_ite (inv_redeal (inv_setRegion h)) (inv_ite ?_ ?_)))
    · refine inv_ite h ?_
      have hw (l : List Nat) : (l.foldl withdrawMember s).Inv := inv_foldl _ (fun _ _ ht => inv_withdrawMember ht) _ h
      dsimp only
      split
      · exact inv_redeal (inv_setRegion (hw _))
      · exact hw _
    · exact inv_ite h (inv_addMembers (inv_foldl _ (fun _ _ ht => inv_giveCore ht) _ h))

theorem inv_groupBarrier (h : s.Inv) : (groupBarrier s rid copy grp n add).Inv := by
  unfold groupBarrier
  split
  · exact h
  · split
    · exact inv_answerAll h
    · exact inv_stepBarrier h
    · exact inv_answerAll h

theorem inv_execRegionBarrierComplete (h : s.Inv) : OutInv (execRegionBarrierComplete rid n add s) := by
  refine inv_next ?_
  split
  · exact h
  · exact inv_ite h (inv_foldl _ (fun _ _ ht => inv_groupBarrier ht) _ h)

theorem inv_groupDone (h : s.Inv) : (groupDone s k).Inv := by
  unfold groupDone
  refine inv_ite ?_ h
  dsimp only
  split
  · exact h
  · exact inv_finishRegion h

theorem inv_exitMembers (h : s.Inv) : (exitMembers s).Inv :=
  inv_foldl _ (fun _ _ ht => inv_groupDone ht) _ (inv_foldl _ (fun _ _ ht => inv_closeMember ht) _ h)

/-! ### Completion -/

theorem inv_endUnplaced (h : s.Inv) : (endUnplaced s rid).Inv := by
  unfold endUnplaced
  split
  · exact inv_ite h (inv_finishRegion h)
  · exact h

theorem inv_mergeStats {status : Nat} (h : s.Inv) : (mergeStats s g status).Inv := by
  unfold mergeStats
  refine inv_ite h ?_
  split
  · exact inv_partWrite _ _ _ h
  · exact inv_log h

theorem inv_raiseMsix {vec : Nat} (h : s.Inv) : (raiseMsix s vf vec).Inv := h

theorem inv_hostRecord (h : s.Inv) : (hostRecord s pn).Inv := inv_ite (inv_raiseMsix (inv_setPart h)) (inv_setPart h)

theorem inv_newKey (h : s.Inv) : (newKey s pn).Inv := h

theorem inv_replaceKey (h : s.Inv) : (replaceKey s pn).Inv := h

theorem inv_resetFinish (h : s.Inv) : (resetFinish s pn).Inv := by
  have hu (p : Part) : (if wbits (s.part pn).intctl 0 1 = 1 then raiseMsix (s.setPart pn p) pn 0 else s.setPart pn p).Inv :=
    inv_ite (inv_raiseMsix (inv_setPart h)) (inv_setPart h)
  exact inv_ite h (inv_ite (inv_setPart (inv_replaceKey (hu _))) (hu _))

theorem inv_execRegionCompletion (h : s.Inv) : OutInv (execRegionCompletion rid s) := by
  refine inv_next ?_
  split
  · exact h
  · split
    · exact h
    · next g _ _ e _ =>
      refine inv_ite h (inv_resetFinish (inv_setRegion ?_))
      have hw : (partWrite (mergeStats s g e.status) g.part (w64 (rcbField g.raw 0x10 8)) (regionRecord g e)).Inv :=
        inv_partWrite _ _ _ (inv_mergeStats h)
      split
      · split
        · exact inv_setRegion hw
        · exact hw
      · exact inv_hostRecord hw

theorem inv_execTimebExpiry (h : s.Inv) : OutInv (execTimebExpiry rid s) := by
  refine inv_next ?_
  split
  · exact h
  · exact inv_ite (inv_finishRegion h) h

/-! ### Dual runs -/

theorem inv_commitPage {c : Copy} {p : Nat × Nat} (h : s.Inv) : (commitPage c s p).Inv := inv_foldl _ (fun _ _ ht => inv_memWrite _ _ _ ht) _ h

theorem inv_commitCopy {c : Copy} (h : s.Inv) : (commitCopy s rid g c).Inv :=
  inv_finishRegion (inv_foldl _ (fun _ _ ht => inv_acceptRegion ht) _ (inv_setRegion (inv_foldl _ (fun _ _ ht => inv_commitPage ht) _ h)))

theorem inv_compareCopies (h : s.Inv) : (compareCopies s rid g).Inv := by
  unfold compareCopies
  split
  · exact inv_ite (inv_commitCopy h) (inv_endUnplaced (inv_setRegion h))
  · refine inv_ite (inv_commitCopy h) (inv_ite (inv_commitCopy h) ?_)
    have hs : ((g.copies.flatMap Copy.cores).foldl (fun s k => suspect s k (oumClasses g.oum)) s).Inv :=
      inv_foldl _ (fun _ _ ht => inv_suspect ht) _ h
    exact inv_finishRegion hs
  · exact h

theorem inv_execDualRunCompare (h : s.Inv) : OutInv (execDualRunCompare rid s) := by
  refine inv_next ?_
  split
  · exact h
  · exact inv_ite h (inv_ite (inv_finishRegion h) (inv_compareCopies h))

/-! ### Pre-emption -/

theorem inv_drainCtx {sh : Bool} (h : s.Inv) : (drainCtx k sh n s).Inv := by
  induction n generalizing s with
  | zero => exact h
  | succ n ih => exact inv_ite h (ih (inv_writeNext (inv_readNext (inv_walkNext h))))

theorem inv_walkValid (h : s.Inv) : (drainWrites.walkValid k s).Inv := by
  unfold drainWrites.walkValid
  split
  · split <;> exact h
  · exact h

theorem inv_drainHeld (h : s.Inv) : (drainWrites.drainHeld k n s).Inv := by
  induction n generalizing s with
  | zero => exact h
  | succ n ih => exact inv_ite h (ih (inv_writeNext (inv_readNext (inv_walkValid h))))

theorem inv_drainWrites (h : s.Inv) : (drainWrites s k).Inv :=
  inv_setCore (inv_ite (inv_drainCtx (inv_drainCtx (inv_setCore h))) (inv_drainHeld (inv_setCore (inv_drainCtx (inv_setCore h)))))

theorem inv_execPreemption (h : s.Inv) : OutInv (execPreemption rid s) := by
  refine inv_next ?_
  split
  · exact h
  · refine inv_ite (inv_setRegion h) (inv_ite h ?_)
    have ht (l : List Nat) : (l.foldl drainWrites s).Inv := inv_foldl _ (fun _ _ ht => inv_drainWrites ht) _ h
    dsimp only
    split
    · exact inv_ite (inv_endUnplaced (inv_suspendRegion _ _ _ _ (ht _))) (ht _)
    · exact ht _

/-! ### Fences and tests -/

theorem inv_endUnplaceable (h : s.Inv) : (endUnplaceable s k).Inv := inv_foldl _ (fun _ _ ht => inv_endUnplaced ht) _ h

theorem inv_settleCycle (h : s.Inv) : (settleCycle s).Inv := inv_foldl _ (fun _ _ ht => inv_endUnplaced ht) _ (inv_settleFaults h)

theorem inv_fenceClass (h : s.Inv) : (fenceClass s k n).Inv := by
  unfold fenceClass
  exact inv_endUnplaceable (inv_ite (inv_ite (inv_endKernel h) (inv_failRegion h)) h)

theorem inv_execCapabilityFence (h : s.Inv) : OutInv (execCapabilityFence k n s) := inv_next <| inv_ite (inv_fenceClass h) h

theorem inv_execInFieldTestStart (h : s.Inv) : OutInv (execInFieldTestStart k n s) := inv_next <| inv_ite (inv_setCore h) h

theorem inv_execInFieldTest {pass : Bool} (h : s.Inv) : OutInv (execInFieldTest k pass s) := by
  refine inv_next ?_
  split
  · exact h
  · exact inv_ite h (inv_fenceClass (inv_setCore h))

end

end Sys2Proof.Proofs

/-!
SUPPORT for `StepKeepsInv`: the canonical form of memory is kept. Part 12: partition reset, a function's registers and interface, firmware, the
host, and the last events of a core.
-/

namespace Sys2Proof.Proofs

open Sys2Proof.Machine Sys2Proof.Laws

section
variable {s t : State} {k pn vf mod : Nat} {wd ide : Bool}

/-! ### Partition reset -/

theorem inv_dropStops {l : List Nat} (h : s.Inv) : (dropStops s l).Inv := h

theorem inv_stopElsewhere (h : s.Inv) : (stopElsewhere s pn wd).Inv := inv_foldl _ (fun _ _ ht => inv_setCore (inv_stopMember ht)) _ h

theorem inv_loseMembers (h : s.Inv) : (loseMembers s pn).Inv := by
  refine inv_foldl _ (fun t e ht => ?_) _ h
  split
  · exact ht
  · refine inv_ite ht (inv_foldl _ (fun _ _ hu => inv_noticeAtt hu) _ ?_)
    exact inv_execCxMemberLost ht

theorem inv_partReset (h : s.Inv) : (partReset s pn wd).Inv := by
  have hl := inv_loseMembers (pn := pn) (inv_stopElsewhere (pn := pn) (wd := wd) h)
  exact inv_resetFinish (inv_scrubCores _ hl)

theorem inv_execQueueWatchdogExpiry (h : s.Inv) : OutInv (execQueueWatchdogExpiry pn s) := inv_next <| inv_ite h (inv_partReset h)

theorem inv_leaveAssigned (h : s.Inv) : (leaveAssigned s pn).Inv :=
  inv_ite (inv_setPart (inv_replaceKey h)) (inv_ite (inv_setPart h) (inv_partReset (inv_setPart h)))

theorem inv_execFunctionLevelReset (h : s.Inv) : OutInv (execFunctionLevelReset pn s) :=
  inv_next <| inv_ite h (inv_ite (inv_partReset h) (inv_leaveAssigned h))

/-! ### The register page of a function -/

theorem inv_setWrej (h : s.Inv) : (setWrej s vf).Inv := h

theorem inv_pageWrite {reserved : Bool} {f : State → State} (hf : (f s).Inv) (h : s.Inv) : (pageWrite s vf ide reserved f).Inv := by
  have hw : (if reserved then setWrej s vf else s).Inv := inv_ite (inv_setWrej h) h
  have hdone : (if reserved then (if reserved then setWrej s vf else s) else f s).Inv := inv_ite hw hf
  unfold pageWrite
  refine inv_ite (inv_replyWith h) ?_
  dsimp only
  split
  · exact inv_replyWith hdone
  · exact inv_ite (inv_replyWith hdone) (inv_replyWith (inv_setWrej h))
  · exact inv_replyWith hw
  · exact inv_replyWith hw

theorem inv_launchRegWrite {reserved : Bool} {f : State → State} (hf : (f s).Inv) (h : s.Inv) : (launchRegWrite s vf ide reserved f).Inv :=
  inv_pageWrite (inv_ite (inv_setWrej h) hf) h

theorem inv_dropTlb (h : s.Inv) : (dropTlb s pn).Inv := h

variable {v : BitVec 64}

theorem inv_execVfstatWrite (h : s.Inv) : OutInv (execVfstatWrite vf v ide s) := inv_next <| inv_pageWrite (inv_ite (inv_setPart h) h) h

theorem inv_execS1rootWrite (h : s.Inv) : OutInv (execS1rootWrite vf v ide s) := inv_next <| inv_launchRegWrite (inv_dropTlb (inv_setPart h)) h

theorem inv_execPthbWrite (h : s.Inv) : OutInv (execPthbWrite vf v ide s) := inv_next <| inv_launchRegWrite (inv_setPart h) h

theorem inv_execPthlWrite (h : s.Inv) : OutInv (execPthlWrite vf v ide s) := inv_next <| inv_launchRegWrite (inv_setPart h) h

theorem inv_execQwdWrite (h : s.Inv) : OutInv (execQwdWrite vf v ide s) := inv_next <| inv_pageWrite (inv_setPart h) h

theorem inv_execDbgkeyWrite {idx : Nat} (h : s.Inv) : OutInv (execDbgkeyWrite vf idx v ide s) :=
  inv_next <| inv_ite (inv_replyWith h) (inv_pageWrite (inv_ite (inv_setWrej h) (inv_setPart h)) h)

theorem inv_dbgResult {c : Byte} (h : s.Inv) : (dbgResult s vf c).Inv := inv_ite (inv_raiseMsix (inv_setPart h)) (inv_setPart h)

theorem inv_submitPolicy (h : s.Inv) : (submitPolicy s vf).Inv := inv_ite (inv_dbgResult (inv_setPart h)) (inv_dbgResult h)

theorem inv_lockPolicy (h : s.Inv) : (lockPolicy s vf).Inv := h

theorem inv_execDbgcmdSubmit (h : s.Inv) : OutInv (execDbgcmdSubmit vf ide s) := inv_next <| inv_pageWrite (inv_submitPolicy h) h

theorem inv_execDbgcmdLock (h : s.Inv) : OutInv (execDbgcmdLock vf ide s) := inv_next <| inv_pageWrite (inv_dbgResult (inv_lockPolicy h)) h

theorem inv_execDbgcmdInvalid (h : s.Inv) : OutInv (execDbgcmdInvalid vf v ide s) :=
  inv_next <| inv_pageWrite (inv_ite (inv_submitPolicy h) (inv_ite (inv_dbgResult (inv_lockPolicy h)) (inv_setWrej h))) h

theorem outInv_ite {p : Prop} [Decidable p] {x y : Out} (hx : OutInv x) (hy : OutInv y) : OutInv (if p then x else y) := by
  split
  · exact hx
  · exact hy

theorem inv_execVfRegisterWrite {off : Nat} (h : s.Inv) : OutInv (execVfRegisterWrite vf off v ide s) := by
  unfold execVfRegisterWrite
  refine outInv_ite (inv_execVfstatWrite h) (outInv_ite (inv_execS1rootWrite h) (outInv_ite (inv_execPthbWrite h) (outInv_ite
    (inv_execPthlWrite h) (outInv_ite (inv_execQwdWrite h) (outInv_ite ?intctl (outInv_ite ?readOnly (outInv_ite
    (inv_execDbgcmdInvalid h) (outInv_ite ?dbgsel (outInv_ite (inv_execDbgkeyWrite h) (outInv_ite ?dbgbuf ?unlisted))))))))))
  case intctl => exact inv_next (inv_pageWrite (inv_setPart h) h)
  case readOnly => exact inv_next (inv_pageWrite h h)
  case dbgsel => exact inv_next (inv_pageWrite (inv_setPart h) h)
  case dbgbuf => exact inv_next (inv_pageWrite (inv_setPart h) h)
  case unlisted => exact inv_next (inv_replyWith h)

theorem inv_dbgdata (h : s.Inv) : (dbgdata s vf).Inv := by
  unfold dbgdata
  dsimp only
  split
  · exact inv_ite (inv_replyWith h) (inv_ite (inv_replyWith h) (inv_replyWith (inv_setWrej h)))
  · exact inv_ite (inv_replyWith (inv_setWrej h)) (inv_replyWith h)

theorem inv_execDbgdataRead {reg : PageReg} (h : s.Inv) : OutInv (execDbgdataRead reg s) := by
  refine inv_next (inv_ite (inv_replyWith h) (inv_ite (inv_dbgdata h) ?_))
  split <;> exact inv_replyWith h

/-! ### The interface of a function -/

theorem inv_execLockInterfaceRequest (h : s.Inv) : OutInv (execLockInterfaceRequest vf s) :=
  inv_next <| inv_ite (inv_replyWith h)
    (inv_replyWith (inv_lockPolicy (inv_setPart (inv_dropTlb (inv_zeroShare _ (inv_newKey (inv_dropStops (inv_scrubCores _ h))))))))

theorem inv_execStartInterfaceRequest (h : s.Inv) : OutInv (execStartInterfaceRequest vf s) :=
  inv_next <| inv_ite (inv_replyWith (inv_setPart h)) (inv_replyWith h)

theorem inv_execStopInterfaceRequest (h : s.Inv) : OutInv (execStopInterfaceRequest vf s) :=
  inv_next <| inv_ite (inv_replyWith h) (inv_ite (inv_replyWith h) (inv_replyWith (inv_leaveAssigned h)))

theorem inv_execGetDeviceInterfaceReport (h : s.Inv) : OutInv (execGetDeviceInterfaceReport vf s) :=
  inv_next <| inv_ite (inv_replyWith h) (inv_replyWith h)

theorem inv_execIdeIntegrityFailure (h : s.Inv) : OutInv (execIdeIntegrityFailure vf s) :=
  inv_next <| inv_ite (inv_partReset (inv_setPart h)) h

theorem inv_execIdeKm {stream : OfModule Nat} (h : s.Inv) : OutInv (execIdeKm stream s) := inv_next <| inv_ite (inv_replyWith h) (inv_replyWith h)

theorem inv_execGetMeasurements (h : s.Inv) : OutInv (execGetMeasurements vf s) := inv_next <| inv_ite (inv_replyWith h) (inv_replyWith h)

/-! ### Firmware -/

theorem inv_bootCores {l : List (Nat × Nat)} (h : s.Inv) : (bootCores s mod l).Inv :=
  inv_foldl _ (fun _ _ ht => inv_ite (inv_suspect ht) ht) _ (inv_foldl _ (fun _ _ ht => inv_setCore ht) _ h)

theorem inv_execPowerOn {x : OfModule (Option Nat)} {l : List (Nat × Nat)} (h : s.Inv) : OutInv (execPowerOn x l s) := by
  have hb := inv_bootCores (mod := x.mod) (l := l) h
  refine inv_next (inv_ite h ?_)
  split
  · exact hb
  · next k _ =>
    have hk : (if 3 ≤ k then bootCores s x.mod l else s).Inv := inv_ite hb h
    exact inv_replyWith hk

theorem inv_execPartitionRequest {req : PartReq} (h : s.Inv) : OutInv (execPartitionRequest req s) := by
  refine inv_next (inv_ite (inv_replyWith h) (inv_ite ?_ ?_))
  · exact inv_ite (inv_replyWith (inv_dropTlb (inv_setPart h))) (inv_replyWith (inv_newKey (inv_setPart h)))
  · exact inv_replyWith (inv_setPart (inv_dropTlb (inv_dropStops (inv_scrubCores _ (inv_newKey h)))))

theorem inv_execPowerCapSet {x : OfModule Nat} (h : s.Inv) : OutInv (execPowerCapSet x s) := inv_next <| inv_ite (inv_replyWith h) (inv_replyWith h)

theorem inv_execMonitorSample {r : Reading} {slow drift : Bool} (h : s.Inv) : OutInv (execMonitorSample k r slow drift s) := inv_next h

theorem inv_execLaneFailure {x : OfModule Nat} (h : s.Inv) : OutInv (execLaneFailure x s) := inv_next <| inv_ite h h

theorem inv_shutModule (h : s.Inv) : (shutModule s mod).Inv := by
  have hl (l : List Nat) : (l.foldl (fun s pn => newKey (loseMembers (stopElsewhere s pn false) pn) pn) s).Inv :=
    inv_foldl _ (fun _ _ ht => inv_newKey (inv_loseMembers (inv_stopElsewhere ht))) _ h
  exact hl _

theorem inv_execThermalShutdown (h : s.Inv) : OutInv (execThermalShutdown s) := by
  have hs : (s.dev.overheat.foldl shutModule s).Inv := inv_foldl _ (fun _ _ ht => inv_shutModule ht) _ h
  exact inv_next hs

/-! ### The host -/

/-- Bytes written one after another. -/
theorem inv_memWrites {l : List (Nat × Byte)} (h : s.Inv) : (l.foldl (fun s e => memWrite s e.1 0 e.2) s).Inv :=
  inv_foldl _ (fun _ _ ht => inv_memWrite _ _ _ ht) _ h

theorem inv_execHostMemoryRequest {gpa len : Nat} {wr : Option (List (BitVec 8))} (h : s.Inv) : OutInv (execHostMemoryRequest pn gpa len wr s) := by
  refine inv_next (inv_ite (inv_replyWith h) ?_)
  split
  · split <;> exact inv_replyWith h
  · split
    · exact inv_replyWith (inv_memWrites h)
    · exact inv_replyWith h

theorem inv_countReject (h : s.Inv) : (countReject s pn).Inv := h

theorem inv_execHostAtomic {op size gpa operand cmp : Nat} (h : s.Inv) : OutInv (execHostAtomic pn op size gpa operand cmp s) := by
  refine inv_next (inv_ite (inv_replyWith h) ?_)
  split
  · exact inv_replyWith h
  · refine inv_ite (inv_replyWith (inv_countReject h)) (inv_ite (inv_replyWith h) (inv_ite (inv_replyWith h) ?_))
    exact inv_replyWith (inv_ite h (inv_memWrites h))

/-! ### Remaining events of a core -/

theorem inv_execVxResultLanding (h : s.Inv) : OutInv (execVxResultLanding k s) := inv_next <| inv_ite (inv_setCore h) h

theorem inv_execShadowCheck {l : BitVec 96} (h : s.Inv) : OutInv (execShadowCheck k l s) := by
  refine inv_next ?_
  split
  · exact h
  · exact inv_ite h (inv_ite (inv_setCore h) (inv_suspect (inv_vxFaultAt (inv_setCore h))))

theorem inv_execZm1BlockDecode (h : s.Inv) : OutInv (execZm1BlockDecode k s) := inv_next <| inv_ite (inv_setCore h) h

theorem inv_execVxeCallTake (h : s.Inv) : OutInv (execVxeCallTake k s) := by
  refine inv_next (inv_ite h (inv_ite (inv_setCore h) ?_))
  extract_lets vx t u d
  have hu : u.Inv := by
    dsimp only [u]
    split
    · exact inv_retireCmd (inv_setCore h)
    · exact inv_setCore h
  clear_value u
  split
  · exact inv_setCore hu
  · exact inv_ite (inv_setCore hu) (inv_setCore hu)

end

end Sys2Proof.Proofs

/-!
SUPPORT for `StepKeepsInv`: the canonical form of memory is kept. Part 13: every instruction keeps it.
-/

namespace Sys2Proof.Proofs

open Sys2Proof.Machine Sys2Proof.Laws

/-- Every instruction keeps the memory in canonical form. -/
theorem inv_exec {s : State} (i : Instr) (hs : s.Inv) : OutInv (exec i s) := by
  cases i with
  | submission => exact inv_execSubmission hs
  | scoreboardEntry => exact inv_execScoreboardEntry hs
  | streamCopy => exact inv_execStreamCopy hs
  | regionIssue => exact inv_execRegionIssue hs
  | preemption => exact inv_execPreemption hs
  | timebExpiry => exact inv_execTimebExpiry hs
  | regionCompletion => exact inv_execRegionCompletion hs
  | dualRunCompare => exact inv_execDualRunCompare hs
  | capabilityFence => exact inv_execCapabilityFence hs
  | inFieldTest => exact inv_execInFieldTest hs
  | queueWatchdogExpiry => exact inv_execQueueWatchdogExpiry hs
  | functionLevelReset => exact inv_execFunctionLevelReset hs
  | tokenDeadlock => exact inv_execTokenDeadlock hs
  | lateReply => exact inv_execLateReply hs
  | lateReplyFreeze => exact inv_execLateReplyFreeze hs
  | readReplyArrival => exact inv_next (inv_lateEnds (inv_setCore hs))
  | readPerformed => exact inv_next (inv_lateEnds (inv_readNext hs))
  | writePerformed => exact inv_next (inv_lateEnds (inv_writeNext hs))
  | ldqRowEntry => exact inv_execLdqRowEntry hs
  | translationWalk => exact inv_next (inv_walkNext hs)
  | handlerDelivery => exact inv_execHandlerDelivery hs
  | handlerStart => exact inv_execHandlerStart hs
  | eccCorrected => exact inv_execEccCorrected hs
  | eccFreezeEnd => exact inv_execEccFreezeEnd hs
  | retentionEntry => exact inv_execRetentionEntry hs
  | retentionExit => exact inv_execRetentionExit hs
  | engineCommandStart => exact inv_execEngineCommandStart hs
  | bteCommandRetire => exact inv_execBteCommandRetire hs
  | bteRowEntry => exact inv_execBteRowEntry hs
  | bteOverlayWrite => exact inv_execBteOverlayWrite hs
  | linkPutDelivery => exact inv_execLinkPutDelivery hs
  | linkGetComplete => exact inv_execLinkGetComplete hs
  | linkCommandRetire => exact inv_execLinkCommandRetire hs
  | barrierComplete => exact inv_execBarrierComplete hs
  | reductionComplete => exact inv_execReductionComplete hs
  | gatherItemPlace => exact inv_execGatherItemPlace hs
  | abortNotice => exact inv_execAbortNotice hs
  | cxMemberLost => exact inv_execCxMemberLost hs
  | sdCommandRetire => exact inv_execSdCommandRetire hs
  | wlBarrierComplete => exact inv_execWlBarrierComplete hs
  | regionBarrierComplete => exact inv_execRegionBarrierComplete hs
  | rgNextAnswer => exact inv_execRgNextAnswer hs
  | quernPhaseEnd => exact inv_execQuernPhaseEnd hs
  | quernSweepEnd => exact inv_execQuernSweepEnd hs
  | quernColourCheck => exact inv_execQuernColourCheck hs
  | quernCommandRetire => exact inv_execQuernCommandRetire hs
  | quernRelease => exact inv_execQuernRelease hs
  | mxStagedWriteApply => exact inv_execMxStagedWriteApply hs
  | mxRoutineStart => exact inv_execMxRoutineStart hs
  | mxRoutineRetire => exact inv_execMxRoutineRetire hs
  | mxWordFinish => exact inv_execMxWordFinish hs
  | mxDrainRow => exact inv_execMxDrainRow hs
  | mxReplay => exact inv_execMxReplay hs
  | zm1BlockDecode => exact inv_execZm1BlockDecode hs
  | vxeCallTake => exact inv_execVxeCallTake hs
  | apResultLanding => exact inv_next (inv_landNow (inv_landNow hs))
  | vxResultLanding => exact inv_execVxResultLanding hs
  | shadowCheck => exact inv_execShadowCheck hs
  | hostAtomic => exact inv_execHostAtomic hs
  | hostMemoryRequest => exact inv_execHostMemoryRequest hs
  | vfstatWrite => exact inv_execVfstatWrite hs
  | s1rootWrite => exact inv_execS1rootWrite hs
  | pthbWrite => exact inv_execPthbWrite hs
  | pthlWrite => exact inv_execPthlWrite hs
  | qwdWrite => exact inv_execQwdWrite hs
  | vfRegisterWrite => exact inv_execVfRegisterWrite hs
  | vfPageBadAccess => exact inv_next (inv_replyWith hs)
  | dbgkeyWrite => exact inv_execDbgkeyWrite hs
  | dbgcmdSubmit => exact inv_execDbgcmdSubmit hs
  | dbgcmdLock => exact inv_execDbgcmdLock hs
  | dbgcmdInvalid => exact inv_execDbgcmdInvalid hs
  | dbgdataRead => exact inv_execDbgdataRead hs
  | lockInterfaceRequest => exact inv_execLockInterfaceRequest hs
  | startInterfaceRequest => exact inv_execStartInterfaceRequest hs
  | stopInterfaceRequest => exact inv_execStopInterfaceRequest hs
  | getDeviceInterfaceReport => exact inv_execGetDeviceInterfaceReport hs
  | ideIntegrityFailure => exact inv_execIdeIntegrityFailure hs
  | ideKm => exact inv_execIdeKm hs
  | getMeasurements => exact inv_execGetMeasurements hs
  | powerOn => exact inv_execPowerOn hs
  | partitionRequest => exact inv_execPartitionRequest hs
  | powerCapSet => exact inv_execPowerCapSet hs
  | monitorSample => exact inv_execMonitorSample hs
  | thermalShutdown => exact inv_execThermalShutdown hs
  | laneFailure => exact inv_execLaneFailure hs
  | tlbiPage => exact inv_execTlbiPage hs
  | tlbiStage1 => exact inv_execTlbiStage1 hs
  | eccinjArm => exact inv_execEccinjArm hs
  | nop | pmovToPf | bprep | bset | qmark | fence => exact inv_next (inv_apWord (fun _ ht => ht) hs)
  | add | sub | and | or | xor | andn | shl | shr | sra | rotl | min | max | minu | maxu | mul | mulh | mulhu | divu | remu | clz
  | popc | lea | leaD | sext | zext | bfx | bfxS | bfi | addi | andi | ori | xori | shli | shri | srai | movi | pmovToX | sdSeed =>
    exact inv_next (inv_apValue hs)
  | cmp | cmpi | plog => exact inv_next (inv_apPred hs)
  | bxfer => exact inv_execBxfer hs
  | lset => exact inv_execLset hs
  | lbrk => exact inv_execLbrk hs
  | ldB | ldBu | ldH | ldHu | ldW | ldWu | ldD => exact inv_next (inv_apLoad hs)
  | stB | stH | stW | stD => exact inv_next (inv_apStore hs)
  | ldq => exact inv_execLdq hs
  | stq => exact inv_execStq hs
  | popq => exact inv_next (inv_apPopq (fun _ _ ht => inv_setX ht) hs)
  | popqP => exact inv_next (inv_apPopq (fun _ _ ht => inv_setP ht) hs)
  | qkill => exact inv_execQkill hs
  | amoAdd | redAdd | amoMin | redMin | amoMinu | redMinu | amoMax | redMax | amoMaxu | redMaxu | amoAnd | redAnd | amoOr | redOr
  | amoXor | redXor | amoSwap | redSwap | amoCas | amoIncwrap | redIncwrap | amoIncb | redIncb | amoDecpos | redDecpos
  | amoFaddlim | redFaddlim => exact inv_next (inv_apAmo hs)
  | mxtab | mxfmt | mxpert | mxgo => exact inv_next (inv_mxCommand hs)
  | mxwait => exact inv_execMxwait hs
  | vxcall | vxcallSeed => exact inv_next (inv_callWord hs)
  | vxwait => exact inv_execVxwait hs
  | btcfg => exact inv_execBtcfg hs
  | btgo => exact inv_execBtgo hs
  | btwait | btwaitAll => exact inv_next (inv_apBtwait hs)
  | wlOpen => exact inv_execWlOpen hs
  | wlSlot => exact inv_execWlSlot hs
  | wlRsv | wlTest | wlTestP | wlRels => exact inv_next (inv_wlCell hs)
  | wlDone => exact inv_execWlDone hs
  | wlRound => exact inv_execWlRound hs
  | wlClose => exact inv_execWlClose hs
  | pbClaim => exact inv_execPbClaim hs
  | pbLoad | pbColour | pbClamp | pbSweep | pbRead | pbMom => exact inv_next (inv_qnIssue hs)
  | pbFree => exact inv_execPbFree hs
  | sdEmit | sdApply | sdGap | sdFetch => exact inv_next (inv_sdIssue hs)
  | sdKey => exact inv_execSdKey hs
  | cxPut | cxGet => exact inv_next (inv_apTransfer hs)
  | cxWcnt => exact inv_execCxWcnt hs
  | cxSbar | cxBar => exact inv_next (inv_apBarrier hs)
  | cxAred => exact inv_execCxAred hs
  | cxAgath => exact inv_execCxAgath hs
  | cxAbort => exact inv_execCxAbort hs
  | rgSpawn => exact inv_execRgSpawn hs
  | rgNext => exact inv_execRgNext hs
  | rgSteal => exact inv_execRgSteal hs
  | rgStep => exact inv_execRgStep hs
  | rgYield => exact inv_execRgYield hs
  | rgExit => exact inv_execRgExit hs
  | trap => exact inv_execTrap hs
  | eret => exact inv_execEret hs
  | sysr => exact inv_execSysr hs
  | sysw => exact inv_execSysw hs
  | wfe => exact inv_execWfe hs
  | ext => exact inv_next (inv_extWord hs)
  | mxNop | mxSwap | mxZero | mxMark | mxBias | mxFsel => exact inv_next (inv_mxWord (fun _ ht => ht) hs)
  | mxLdw => exact inv_execMxLdw hs
  | mxRun => exact inv_execMxRun hs
  | mxDrain => exact inv_execMxDrain hs
  | mxChk => exact inv_execMxChk hs
  | mxRet => exact inv_execMxRet hs
  | vaddF32 | vsubF32 | vmulF32 | vfmaF32 | vrcpF32 | vrsqF32 | vexp2F32 | vlog2F32 | vaddF16 | vsubF16 | vmulF16 | vfmaF16
  | vrcpF16 | vrsqF16 | vexp2F16 | vlog2F16 | vaddBf16 | vsubBf16 | vmulBf16 | vfmaBf16 | vrcpBf16 | vrsqBf16 | vexp2Bf16
  | vlog2Bf16 => exact inv_next (inv_fpRoundWord hs)
  | vminF32 | vmaxF32 | vabsF32 | vnegF32 | vminF16 | vmaxF16 | vabsF16 | vnegF16 | vminBf16 | vmaxBf16 | vabsBf16 | vnegBf16 =>
    exact inv_next (inv_fpExactWord hs)
  | vcmpF32 | vcmpF16 | vcmpBf16 => exact inv_next (inv_vcmpWord hs)
  | viadd | visub | vimul | vand | vor | vxor | vshl | vshr | vsra | vimin | viminU | vimax | vimaxU => exact inv_next (inv_intWord hs)
  | vicmp | vsel | vmov | vperm | vpermH | vbcst | vrot | vredx | trow | vpush | veq | vaq | vgrt | vrandSet =>
    exact inv_next (inv_vxWord_reads rfl hs)
  | vmovQ | vsplat | vidx | tclr | veqP | vany | vall | qlog | vmsk | vxPlog | vbprep | vwin | vrand | vnop | vtrap =>
    exact inv_next (inv_vxWord hs hs)
  | vcvt => exact inv_execVcvt hs
  | vqntS8 | vqntU8 => exact inv_next (inv_qntWord hs)
  | vdeq | vdeqU => exact inv_next (inv_deqWord hs)
  | vpack | vpackS => exact inv_next (inv_vpackWord hs)
  | vunpk | vunpkS => exact inv_next (inv_unpkWord hs)
  | vred => exact inv_execVred hs
  | vtopk | vtopkMin => exact inv_next (inv_topkWord hs)
  | tcol => exact inv_execTcol hs
  | vpop => exact inv_execVpop hs
  | vpopd => exact inv_execVpopd hs
  | vdq | vdqHi => exact inv_next (inv_dqWord hs)
  | vbxfer => exact inv_execVbxfer hs
  | vlset => exact inv_execVlset hs
  | vret => exact inv_execVret hs
  | vshd => exact inv_execVshd hs
  | vstat | vstatClr => exact inv_next (inv_statWord hs)
  | vext => exact inv_next (inv_vextWord hs)
  | illegalOpcode => exact inv_execIllegalOpcode hs
  | illegalField => exact inv_execIllegalField hs
  | inFieldTestStart => exact inv_execInFieldTestStart hs

end Sys2Proof.Proofs

/-!
SUPPORT and the proofs of `StepKeepsInv` and `ResetInv`: the canonical form of memory is kept. Part 14: bundles, units, turns and the end of a
cycle.
-/

namespace Sys2Proof.Proofs

open Sys2Proof.Machine Sys2Proof.Laws

/-- The state that a unit of the VXE leaves, where it issues or faults. -/
def unitLeft (s : State) : UnitRes → State
  | .done t => t
  | .trap t => t
  | _ => s

section
variable {s t base : State} {is : List Instr}

/-! ### Bundles and units of the VXE -/

theorem inv_runSlot {i : Instr} {n : Nat} (h : s.Inv) : (runSlot n i s).Inv := by
  have he : OutInv (exec i (s.modCur fun c => c.atSlot n)) := inv_exec i (inv_modCur h)
  unfold runSlot
  generalize exec i _ = o at he
  cases o with
  | next u => exact he
  | fault r => exact h
  | refused r => exact h

theorem inv_runSlots {ts : List Nat} (hbase : base.Inv) (h : s.Inv) : (runSlots base is ts s).Inv := by
  induction ts generalizing s with
  | nil => exact h
  | cons t ts ih => exact inv_ite (ih (inv_runSlot h)) (inv_runSlot hbase)

theorem inv_bundleEnd {prod : Option Prod} (hbase : base.Inv) (h : s.Inv) : (bundleEnd base is prod s).Inv := by
  unfold bundleEnd
  refine inv_ite (inv_modVx h) ?_
  split
  · exact inv_vxFault hbase
  · exact inv_modVx (inv_modVx h)

theorem inv_bundleFinish (hbase : base.Inv) (h : s.Inv) : (bundleRun.finish is base s).Inv := inv_ite (inv_bundleEnd hbase h) h

theorem inv_bundleRun (h : s.Inv) : (bundleRun is s).Inv := by
  unfold bundleRun
  dsimp only
  split
  · exact inv_bundleFinish (inv_modCur (inv_modCur h)) (inv_runSlots (inv_modCur (inv_modCur h)) (inv_runSlot (inv_modCur h)))
  · exact inv_bundleFinish (inv_modCur h) (inv_runSlots (inv_modCur h) (inv_modCur h))

theorem inv_unitNext (h : s.Inv) : (unitNext s).Inv := inv_modCur h

theorem inv_unitEnd {first : Nat} (h : s.Inv) : (unitEnd first s).Inv := inv_modCur h

theorem inv_sameFault (h : s.Inv) : (sameFault s t).Inv := inv_vxFaultAt h

theorem inv_unitLeft {r : UnitRes} (hr : (unitLeft t r).Inv) (h : s.Inv) : (unitLeft s r).Inv := by
  cases r with
  | done u => exact hr
  | trap u => exact hr
  | _ => exact h

theorem inv_unitRun {first n : Nat} {pops : List (Nat × Nat)} (h : s.Inv) : (unitLeft s (unitRun first n pops s).2).Inv := by
  induction n generalizing s pops with
  | zero => exact h
  | succ n ih =>
    unfold unitRun
    extract_lets c is pops u r
    have hu : u.Inv := inv_bundleRun h
    have hr : (unitLeft s r.2).Inv := by
      dsimp only [r]
      split
      · exact hu
      · split
        · exact inv_unitEnd hu
        · have hrest := ih (pops := pops) (inv_unitNext hu)
          split
          · exact inv_sameFault h
          · exact inv_unitLeft hrest h
    clear_value r is pops
    split
    · exact h
    · split
      · exact h
      · split
        · exact h
        · split
          · exact h
          · split
            · exact hr
            · exact hr
            · split
              · exact hr
              · exact h

theorem inv_vxStall {w : Nat} (h : s.Inv) : (vxStall w s).Inv := inv_modVx h

theorem inv_unitIssue (h : s.Inv) : (unitIssue s).Inv := by
  unfold unitIssue
  dsimp only
  split
  · exact inv_vxFaultAt (inv_faddrOf h)
  · exact inv_vxStall h
  · split
    · exact inv_vxStall h
    · next pops _ _ _ _ _ _ =>
      have hpop : (s.modCur fun c => unitPop c pops).Inv := inv_modCur h
      have hrun := inv_unitRun (first := s.cur.cycle) (n := 4096) (pops := []) hpop
      generalize (unitRun _ _ _ _).2 = r at hrun
      cases r with
      | done u => exact hrun
      | trap u => exact hrun
      | _ => exact inv_vxStall hpop

theorem inv_vxIssue (h : s.Inv) : (vxIssue s).Inv := by
  unfold vxIssue
  refine inv_ite (inv_vxStall h) (inv_ite (inv_vxStall h) ?_)
  split
  · exact inv_vxFaultAt h
  · exact inv_unitIssue h

/-! ### Turns -/

theorem inv_apIssue (h : s.Inv) : OutInv (apIssue s) := by
  unfold apIssue
  dsimp only
  split
  · exact outInv_ite (inv_next (inv_apStall h)) (inv_next (inv_endKernel h))
  · exact outInv_ite (inv_next (inv_apStall h)) (outInv_ite (inv_next (inv_apFault h))
      (outInv_ite (inv_next (inv_apStall (inv_modCtx h))) (inv_exec _ h)))

theorem inv_mxIssue (h : s.Inv) : OutInv (mxIssue s) :=
  outInv_ite (inv_next (inv_modMx h)) (outInv_ite (inv_next (inv_modMx h)) (outInv_ite (inv_next (inv_mxFaultAt h))
    (outInv_ite (inv_next (inv_modMx h)) (outInv_ite (inv_next (inv_mxFaultAt h)) (inv_exec _ h)))))

theorem inv_passTurn (h : s.Inv) : (passTurn s).Inv := h

theorem inv_afterMx (h : s.Inv) : (afterMx s).Inv := h

theorem inv_apAfter (h : t.Inv) : (apAfter s t).Inv := inv_ite h (inv_passTurn h)

theorem inv_tickAll (h : s.Inv) : (tickAll s).Inv := h

theorem inv_endCycle (h : s.Inv) : (endCycle s).Inv := inv_tickAll (inv_exitMembers (inv_settleCycle h))

theorem inv_andThen {o : Out} {f : State → State} (ho : OutInv o) (hf : ∀ t, t.Inv → (f t).Inv) : OutInv (andThen o f) := by
  cases o with
  | next t => exact hf t ho
  | fault r => exact trivial
  | refused r => exact trivial

theorem inv_tried {run : State → Out} (hrun : ∀ t, t.Inv → OutInv (run t)) (h : s.Inv) : (tried s run).Inv := by
  have ht := hrun (s.modCur fun c => { c with freeze := {}, hnd := none, hndQ := [] }) (inv_modCur h)
  unfold tried
  generalize run _ = o at ht
  cases o with
  | next t => exact inv_ite h ht
  | fault r => exact h
  | refused r => exact h

theorem inv_mxWhole (h : s.Inv) : OutInv (mxWhole s) := by
  have hi := inv_mxIssue h
  unfold mxWhole
  generalize mxIssue s = o at hi
  cases o with
  | next t => exact inv_execMxWordFinish hi
  | fault r => exact trivial
  | refused r => exact trivial

theorem inv_turnStep (h : s.Inv) : OutInv (turnStep s) := by
  unfold turnStep
  split
  · exact outInv_ite (inv_andThen (inv_apIssue h) fun _ ht => inv_apAfter ht)
      (inv_next (inv_passTurn (inv_ite (inv_tried (fun _ ht => inv_apIssue ht) h) h)))
  · exact outInv_ite (inv_andThen (inv_mxIssue h) fun _ ht => inv_afterMx ht)
      (inv_next (inv_afterMx (inv_ite (inv_tried (fun _ ht => inv_mxWhole ht) h) h)))
  · exact inv_next (inv_passTurn (inv_ite h (inv_ite (inv_vxIssue h)
      (inv_ite (inv_tried (fun _ ht => inv_next (inv_vxIssue ht)) h) h))))
  · exact inv_next (inv_passTurn (inv_endCycle h))

theorem inv_setAgenda {l : List Instr} (h : s.Inv) : ({ s with agenda := l }).Inv := h

theorem inv_step (h : s.Inv) : OutInv (step s) := by
  unfold step
  split
  · exact inv_exec _ (inv_setAgenda h)
  · exact inv_turnStep h

end

/-- Settles O60: the events, the words of all streams and the end of a cycle change the memory only by `smSet` and by filters, which keep its
form. -/
theorem stepKeepsInv : Obligations.StepKeepsInv := by
  unfold Obligations.StepKeepsInv
  intro s t hs e
  have h : OutInv (step s) := inv_step hs
  rw [e] at h
  exact h

/-- Settles O55: no byte of memory is listed at reset. -/
theorem resetInv : Obligations.ResetInv := by
  unfold Obligations.ResetInv
  exact rfl

end Sys2Proof.Proofs

/-!
SUPPORT and the proof of `HostAccesses`: the bytes that a host write or an AtomicOp leaves (04_memory.md R82, R90).
-/

namespace Sys2Proof.Proofs

open Sys2Proof.Machine Sys2Proof.Laws

/-! ### Bytes written one after another -/

/-- Bytes of device memory as the host writes them: each under key generation 0. -/
def hostPut (s : State) (l : List (Nat × Byte)) : State := l.foldl (fun s e => memWrite s e.1 0 e.2) s

section
variable {s : State} {l : List (Nat × Byte)} {keys : List Nat} {bs : List Byte} {a : Nat}

theorem cores_hostPut (s : State) (l : List (Nat × Byte)) : (hostPut s l).cores = s.cores := by
  induction l generalizing s with
  | nil => rfl
  | cons e l ih => exact ih _

theorem memByte_hostPut_apart (h : ∀ e ∈ l, e.1 ≠ a) : memByte (hostPut s l) a = memByte s a := by
  induction l generalizing s with
  | nil => rfl
  | cons e l ih =>
    have hrest : memByte (hostPut (memWrite s e.1 0 e.2) l) a = memByte (memWrite s e.1 0 e.2) a :=
      ih fun f hf => h f (List.mem_cons_of_mem _ hf)
    exact hrest.trans (memByte_memWrite_ne s 0 e.2 (h e List.mem_cons_self).symm)

theorem memByte_hostPut_zip_apart (h : a ∉ keys) : memByte (hostPut s (keys.zip bs)) a = memByte s a := by
  refine memByte_hostPut_apart fun e he => ?_
  rintro rfl
  exact h (List.of_mem_zip he).1

theorem memByte_hostPut_zip (h : keys.Nodup) {i : Nat} {b : Byte} (ha : keys[i]? = some a) (hb : bs[i]? = some b) :
    memByte (hostPut s (keys.zip bs)) a = b := by
  induction keys generalizing s bs i with
  | nil => simp at ha
  | cons k keys ih =>
    obtain ⟨hk, hkeys⟩ := List.nodup_cons.mp h
    cases bs with
    | nil => simp at hb
    | cons c bs =>
      cases i with
      | zero =>
        obtain rfl : k = a := by simpa using ha
        obtain rfl : c = b := by simpa using hb
        exact (memByte_hostPut_zip_apart hk).trans (memByte_memWrite_same _ _ _ _)
      | succ i => exact ih hkeys (by simpa using ha) (by simpa using hb)

end

theorem getElem?_leBytes {n j : Nat} (v : Nat) (h : j < n) : (leBytes n v)[j]? = some (BitVec.ofNat 8 (v / 256 ^ j)) := by
  induction n generalizing v j with
  | zero => omega
  | succ n ih =>
    cases j with
    | zero => simp [leBytes]
    | succ j =>
      have hj := ih (v / 256) (show j < n by omega)
      rw [Nat.div_div_eq_div_mul, ← Nat.pow_succ'] at hj
      simpa [leBytes] using hj

/-! ### The bytes of a mapping -/

theorem deviceMap_some {p : Part} {gpa : Nat} {m : S2Map} (h : deviceMap p gpa = some m) : m.host = false ∧ m.gpa ≤ gpa := by
  have hm := List.find?_some h
  simp only [Bool.and_eq_true, Bool.not_eq_true', decide_eq_true_eq] at hm
  exact ⟨hm.1.1, hm.1.2⟩

/-- Different guest addresses of one mapping lie in different bytes of memory. -/
theorem s2Key_injective {m : S2Map} {gpa : Nat} (hhost : m.host = false) (hgpa : m.gpa ≤ gpa) {i j : Nat}
    (h : s2Key m (gpa + i) = s2Key m (gpa + j)) : i = j := by
  simp only [s2Key, hhost, Bool.false_eq_true, if_false, hbmKey] at h
  omega

theorem nodup_s2Keys {m : S2Map} {gpa : Nat} (hhost : m.host = false) (hgpa : m.gpa ≤ gpa) (n : Nat) :
    ((List.range n).map fun i => s2Key m (gpa + i)).Nodup :=
  List.nodup_range.map fun _ _ h => s2Key_injective hhost hgpa h

/-! ### What the two requests do -/

section
variable {s : State} {vf gpa : Nat}

theorem exec_hostRead {n : Nat} {keys : List Nat} (hup : vfUp s vf = true) (h : hostRange (s.part vf) gpa n false = some keys) :
    exec (.hostMemoryRequest vf gpa n none) s = .next (replyWith s (.data (keys.map fun a => (memRead s a 0).toNat))) := by
  show execHostMemoryRequest vf gpa n none s = _
  simp only [execHostMemoryRequest, hup, Bool.not_true, Bool.false_eq_true, if_false, h]

theorem exec_hostWrite {bs : List Byte} {keys : List Nat} (hup : vfUp s vf = true) (h : hostRange (s.part vf) gpa bs.length true = some keys) :
    exec (.hostMemoryRequest vf gpa bs.length (some bs)) s = .next (replyWith (hostPut s (keys.zip bs)) .success) := by
  show execHostMemoryRequest vf gpa bs.length (some bs) s = _
  simp only [execHostMemoryRequest, hup, Bool.not_true, Bool.false_eq_true, if_false, h, hostPut]

theorem exec_hostWrite_unmapped {bs : List Byte} (hup : vfUp s vf = true) (h : hostRange (s.part vf) gpa bs.length true = none) :
    exec (.hostMemoryRequest vf gpa bs.length (some bs)) s = .next (replyWith s .unsupported) := by
  show execHostMemoryRequest vf gpa bs.length (some bs) s = _
  simp only [execHostMemoryRequest, hup, Bool.not_true, Bool.false_eq_true, if_false, h]

variable {m : S2Map} {op size operand cmp : Nat}

theorem exec_hostAtomic_rejected (hup : vfUp s vf = true) (hm : deviceMap (s.part vf) gpa = some m) (hop : op ≤ 2)
    (h : op = 2 ∧ size = 128 ∨ pageHasA s (s.part vf) m.mod gpa = false) :
    exec (.hostAtomic vf op size gpa operand cmp) s = .next (replyWith (countReject s vf) .unsupported) := by
  show execHostAtomic vf op size gpa operand cmp s = _
  simp only [execHostAtomic, hup, hm]
  rw [if_neg (by simpa using hop), if_pos (by simpa using h)]

theorem exec_hostAtomic_readOnly (hup : vfUp s vf = true) (hm : deviceMap (s.part vf) gpa = some m) (hop : op ≤ 2)
    (hA : pageHasA s (s.part vf) m.mod gpa = true) (hsize : size ≠ 128) (hwr : m.wr = false) :
    exec (.hostAtomic vf op size gpa operand cmp) s = .next (replyWith s .unsupported) := by
  show execHostAtomic vf op size gpa operand cmp s = _
  simp only [execHostAtomic, hup, hm]
  rw [if_neg (by simpa using hop), if_neg (by simp [hA, hsize]), if_pos (by simp [hwr])]

/-- The old value at an AtomicOp's address. -/
def atomicOld (s : State) (m : S2Map) (gpa size : Nat) : Nat :=
  leNat (((List.range (size / 8)).map fun i => s2Key m (gpa + i)).map fun a => memRead s a 0)

/-- The value that an AtomicOp leaves where it found `old`. -/
def atomicNew (op size operand cmp old : Nat) : Nat :=
  if op = 0 then old + operand else if op = 1 then operand else if old = cmp % 2 ^ size then operand else old

/-- The memory after an AtomicOp: a comparison that fails writes nothing. -/
def atomicPut (s : State) (m : S2Map) (op size gpa operand cmp : Nat) : State :=
  if op = 2 ∧ atomicOld s m gpa size ≠ cmp % 2 ^ size then s
  else hostPut s (((List.range (size / 8)).map fun i => s2Key m (gpa + i)).zip
    (leBytes (size / 8) (atomicNew op size operand cmp (atomicOld s m gpa size))))

theorem exec_hostAtomic (hup : vfUp s vf = true) (hm : deviceMap (s.part vf) gpa = some m) (hop : op ≤ 2)
    (hA : pageHasA s (s.part vf) m.mod gpa = true) (hsize : size = 32 ∨ size = 64) (hwr : m.wr = true) (hal : gpa % (size / 8) = 0) :
    exec (.hostAtomic vf op size gpa operand cmp) s
      = .next (replyWith (atomicPut s m op size gpa operand cmp) (.data [atomicOld s m gpa size])) := by
  have h128 : size ≠ 128 := by omega
  have hbad : ¬ ((size ≠ 32 ∧ size ≠ 64) ∨ gpa % (size / 8) ≠ 0) := by omega
  show execHostAtomic vf op size gpa operand cmp s = _
  simp only [execHostAtomic, hup, hm]
  rw [if_neg (by simpa using hop), if_neg (by simp [hA, h128]), if_neg (by simp [hwr]), if_neg hbad]
  rfl

theorem memByte_atomicPut_apart {a : Nat} (h : a ∉ (List.range (size / 8)).map fun i => s2Key m (gpa + i)) :
    memByte (atomicPut s m op size gpa operand cmp) a = memByte s a := by
  unfold atomicPut
  split
  · rfl
  · exact memByte_hostPut_zip_apart h

theorem memByte_atomicPut {j a : Nat} (hhost : m.host = false) (hgpa : m.gpa ≤ gpa)
    (ha : ((List.range (size / 8)).map fun i => s2Key m (gpa + i))[j]? = some a)
    (h : ¬ (op = 2 ∧ atomicOld s m gpa size ≠ cmp % 2 ^ size)) :
    memByte (atomicPut s m op size gpa operand cmp) a
      = BitVec.ofNat 8 (atomicNew op size operand cmp (atomicOld s m gpa size) / 256 ^ j) := by
  have hj : j < size / 8 := by
    obtain ⟨hlt, -⟩ := List.getElem?_eq_some_iff.mp ha
    simpa using hlt
  rw [atomicPut, if_neg h]
  exact memByte_hostPut_zip (nodup_s2Keys hhost hgpa _) ha (getElem?_leBytes _ hj)

theorem atomicPut_fails (h : op = 2 ∧ atomicOld s m gpa size ≠ cmp % 2 ^ size) : atomicPut s m op size gpa operand cmp = s := if_pos h

end

theorem memByte_replyWith (s : State) (r : Reply) (a : Nat) : memByte (replyWith s r) a = memByte s a := rfl

/-- Settles O52: what a host write leaves is read off the list of bytes that it writes; an AtomicOp writes the bytes of one mapping, which lie
apart. -/
theorem hostAccesses : Obligations.HostAccesses := by
  unfold Obligations.HostAccesses
  intro s vf gpa hup p
  refine ⟨fun n keys h => exec_hostRead hup h, fun bs keys h hnd => ?write, fun bs h => exec_hostWrite_unmapped hup h, ?atomic⟩
  case write =>
    refine ⟨_, exec_hostWrite hup h, rfl, ?_, ?_, cores_hostPut s _⟩
    · intro i a b ha hb
      exact memByte_hostPut_zip hnd ha hb
    · intro a ha
      exact memByte_hostPut_zip_apart ha
  case atomic =>
    intro m op size operand cmp hm hop hsize i keys old new
    obtain ⟨hhost, hgpa⟩ := deviceMap_some hm
    refine ⟨fun h => ⟨exec_hostAtomic_rejected hup hm hop ?_, fun q hq => part_setPart_ne s _ hq, rfl⟩,
      fun hA h128 hwr => exec_hostAtomic_readOnly hup hm hop hA h128 hwr, fun hA h128 hwr hal => ?_⟩
    · rcases h with hA | h128
      · exact .inr hA
      · exact .inl ⟨by omega, h128⟩
    · refine ⟨_, exec_hostAtomic hup hm hop hA (by omega) hwr hal, rfl, fun j a ha => ⟨fun hf => ?_, fun hf => ?_⟩, fun a ha => ?_⟩
      · rw [memByte_replyWith, atomicPut_fails hf]
      · exact memByte_atomicPut hhost hgpa ha hf
      · exact memByte_atomicPut_apart ha

end Sys2Proof.Proofs

/-!
SUPPORT and the proof of `TranslationsComeAndGo`: the levels of the stage-1 walk, what a walk brings and what an invalidation removes (04_memory.md
R79-R86).
-/

namespace Sys2Proof.Proofs

open Sys2Proof.Machine Sys2Proof.Laws

theorem nbits_eq_div_mod (v lo len : Nat) : nbits v lo len = v / 2 ^ lo % 2 ^ len := by
  rw [nbits, Nat.shiftRight_eq_div_pow]

theorem wbits_eq_div_mod {n : Nat} (w : BitVec n) (lo len : Nat) : wbits w lo len = w.toNat / 2 ^ lo % 2 ^ len :=
  nbits_eq_div_mod _ _ _

/-! ### Descriptors of stage 1 -/

/-- Bit 0 of a descriptor is set and its reserved bits are zero. -/
def descGood (d : Nat) : Prop := d % 2 = 1 ∧ d / 2 ^ 5 % 8 = 0 ∧ d / 2 ^ 52 % 64 = 0

/-- The address in a descriptor. -/
def descAddr (d : Nat) : Nat := d / 2 ^ 8 % 2 ^ 44 * 256

/-- A descriptor is a leaf for a page of `size` bytes. -/
def descMaps (d size : Nat) : Prop := descGood d ∧ d / 2 % 2 = 1 ∧ descAddr d % size = 0

/-- A descriptor leads to a table that is aligned to `next` bytes. -/
def descLeads (d next : Nat) : Prop :=
  descGood d ∧ d / 2 % 2 = 0 ∧ d / 2 ^ 2 % 8 = 0 ∧ d / 2 ^ 58 % 64 = 0 ∧ descAddr d % next = 0

/-- The translation in a leaf. -/
def descPage (pn va d size : Nat) : TlbE :=
  { part := pn, va := va / size * size, size := size, gpa := descAddr d, r := d / 4 % 2 == 1, w := d / 8 % 2 == 1, a := d / 16 % 2 == 1
    key := d / 2 ^ 58 % 64 }

/-! ### One level of the walk; `l` levels are below it -/

/-- The index of a VA in the table. -/
def walkIdx (va l : Nat) : Nat := if l = 2 then va / 2 ^ 30 % 2 ^ 18 else if l = 1 then va / 2 ^ 21 % 2 ^ 9 else va / 2 ^ 16 % 2 ^ 5

/-- The size of the page of a leaf. -/
def walkSize (l : Nat) : Nat := if l = 2 then 2 ^ 30 else if l = 1 then 2 ^ 21 else 2 ^ 16

/-- The alignment of the table that a pointer leads to. -/
def walkAlign (l : Nat) : Nat := if l = 2 then 4096 else 256

section
variable {s : State} {pn mod va l tab d : Nat} {p : Part}

theorem walkFrom_unmapped (h : gpaNat s p mod (tab + 8 * walkIdx va l) 8 = none) :
    walkFrom s pn p mod va (l + 1) tab = .stage2 false (tab + 8 * walkIdx va l) := by
  unfold walkIdx at h ⊢
  simp only [walkFrom, nbits_eq_div_mod]
  rw [h]

theorem walkFrom_mapped (h : gpaNat s p mod (tab + 8 * walkIdx va l) 8 = some d) :
    walkFrom s pn p mod va (l + 1) tab
      = if d % 2 = 0 ∨ d / 2 ^ 52 % 64 ≠ 0 ∨ d / 2 ^ 5 % 8 ≠ 0 then .invalid
        else if d / 2 % 2 = 1 then
          if descAddr d % walkSize l ≠ 0 then .invalid else .leaf (descPage pn va d (walkSize l)) (d / 2 ^ 58 % 64)
        else if l = 0 ∨ d / 2 ^ 58 % 64 ≠ 0 ∨ d / 2 ^ 2 % 8 ≠ 0 ∨ descAddr d % walkAlign l ≠ 0 then .invalid
        else walkFrom s pn p mod va l (descAddr d) := by
  unfold walkIdx at h
  simp only [walkFrom, nbits_eq_div_mod]
  rw [h]
  simp only [Nat.pow_zero, Nat.div_one, Nat.pow_one]
  rfl

theorem walkFrom_leaf (h : gpaNat s p mod (tab + 8 * walkIdx va l) 8 = some d) (hd : descMaps d (walkSize l)) :
    walkFrom s pn p mod va (l + 1) tab = .leaf (descPage pn va d (walkSize l)) (d / 2 ^ 58 % 64) := by
  obtain ⟨⟨hv, h5, h52⟩, hleaf, hal⟩ := hd
  rw [walkFrom_mapped h, if_neg (by omega), if_pos hleaf, if_neg (not_not.mpr hal)]

theorem walkFrom_pointer (h : gpaNat s p mod (tab + 8 * walkIdx va (l + 1)) 8 = some d) (hd : descLeads d (walkAlign (l + 1))) :
    walkFrom s pn p mod va (l + 2) tab = walkFrom s pn p mod va (l + 1) (descAddr d) := by
  obtain ⟨⟨hv, h5, h52⟩, hptr, hright, hkey, hal⟩ := hd
  rw [walkFrom_mapped h, if_neg (by omega), if_neg (by omega), if_neg (by omega)]

theorem walkFrom_invalid (h : gpaNat s p mod (tab + 8 * walkIdx va l) 8 = some d) (hm : ¬ descMaps d (walkSize l))
    (hl : l = 0 ∨ ¬ descLeads d (walkAlign l)) : walkFrom s pn p mod va (l + 1) tab = .invalid := by
  unfold descMaps descGood at hm
  unfold descLeads descGood at hl
  rw [walkFrom_mapped h]
  split
  · rfl
  · split
    · rw [if_pos (by omega)]
    · rw [if_pos (by omega)]

end

/-! ### The whole walk -/

section
variable {s : State} {pn mod va : Nat}

theorem wbits_bit_zero {n : Nat} (v : BitVec n) : wbits v 0 1 = 0 ↔ v.getLsbD 0 = false := by
  rw [wbits_low, BitVec.getLsbD, Nat.testBit_zero, decide_eq_false_iff_not]
  omega

theorem walk_disabled (h : (s.part pn).s1root.getLsbD 0 = false) : walk s pn mod va = .invalid :=
  if_pos ((wbits_bit_zero _).mpr h)

theorem walk_enabled (h : (s.part pn).s1root.getLsbD 0 = true) :
    walk s pn mod va = walkFrom s pn (s.part pn) mod va 3 ((s.part pn).s1root.toNat / 2 ^ 21 % 2 ^ 31 * 2 ^ 21) := by
  have hen : ¬ wbits (s.part pn).s1root 0 1 = 0 := by rw [wbits_bit_zero, h]; exact Bool.noConfusion
  rw [walk, if_neg hen, wbits_eq_div_mod]

/-- The index into the first table: a VA of 48 bits has no bits above it. -/
theorem walkIdx_root (h : va < 2 ^ 48) : walkIdx va 2 = va / 2 ^ 30 :=
  Nat.mod_eq_of_lt (show va / 2 ^ 30 < 2 ^ 18 by omega)

theorem stageOneWalk : Claims.StageOneWalk := by
  unfold Claims.StageOneWalk
  intro s pn mod va hva p w good addr maps leads page at_
  refine ⟨walk_disabled, fun hen => ?_⟩
  have hw : w = walkFrom s pn p mod va 3 (p.s1root.toNat / 2 ^ 21 % 2 ^ 31 * 2 ^ 21) := walk_enabled hen
  clear_value w
  rw [← walkIdx_root hva]
  refine ⟨fun h => hw.trans (walkFrom_unmapped h), fun d1 h1 => ⟨fun hm => hw.trans (walkFrom_leaf h1 hm),
    fun hm hl => hw.trans (walkFrom_invalid h1 hm (.inr hl)), fun hl => ?_⟩⟩
  replace hw := hw.trans (walkFrom_pointer h1 hl)
  refine ⟨fun h => hw.trans (walkFrom_unmapped h), fun d2 h2 => ⟨fun hm => hw.trans (walkFrom_leaf h2 hm),
    fun hm hl => hw.trans (walkFrom_invalid h2 hm (.inr hl)), fun hl => ?_⟩⟩
  replace hw := hw.trans (walkFrom_pointer h2 hl)
  exact ⟨fun h => hw.trans (walkFrom_unmapped h), fun d3 h3 => ⟨fun hm => hw.trans (walkFrom_leaf h3 hm),
    fun hm => hw.trans (walkFrom_invalid h3 hm (.inl rfl))⟩⟩

end

/-! ### What a walk brings -/

section
variable {s : State} {k : Nat} {w : At} {vpg : Nat} {va : Word}

theorem exec_walk_leaf (hrun : (s.core k).run = .running) (hw : walkWanted s k = some (w, vpg, va)) {e : TlbE} {g : Nat}
    (h : walk s (partOfCore s k) (moduleOf k) (vpg * 65536) = .leaf e g) :
    exec (.translationWalk k) s = .next (tlbFill s (dieOf k) e) := by
  show Host.Outcome.next (walkNext s k) = _
  simp [walkNext, Core.alive, hrun, hw, h]

theorem exec_walk_invalid (hrun : (s.core k).run = .running) (hw : walkWanted s k = some (w, vpg, va))
    (h : walk s (partOfCore s k) (moduleOf k) (vpg * 65536) = .invalid) :
    exec (.translationWalk k) s = .next (accessFault s k true w 0x21 (BitVec.ofNat 64 (max va.toNat (vpg * 65536)))) := by
  show Host.Outcome.next (walkNext s k) = _
  simp [walkNext, Core.alive, hrun, hw, h]

theorem exec_walk_stage2 (hrun : (s.core k).run = .running) (hw : walkWanted s k = some (w, vpg, va)) {perm : Bool} {gpa : Nat}
    (h : walk s (partOfCore s k) (moduleOf k) (vpg * 65536) = .stage2 perm gpa) :
    exec (.translationWalk k) s = .next (stage2Fail s k (if perm then 0x22 else 0x21) gpa) := by
  show Host.Outcome.next (walkNext s k) = _
  simp [walkNext, Core.alive, hrun, hw, h]

theorem mem_tlbFill (s : State) (d : Nat) (e : TlbE) : e ∈ smGet [] (tlbFill s d e).tlb d := by
  have hle : (smGet [] s.tlb d).length + 1 - 512 ≤ (smGet [] s.tlb d).length := by omega
  show e ∈ smGet [] (smPut s.tlb d _) d
  rw [smGet_put_same, List.drop_append_of_le_length hle]
  exact List.mem_append_right _ List.mem_cons_self

theorem tlbFill_others (s : State) {d j : Nat} (e : TlbE) (h : j ≠ d) : smGet [] (tlbFill s d e).tlb j = smGet [] s.tlb j :=
  smGet_put_ne _ _ _ h

theorem hasHandler_eq_false : hasHandler s k = false ↔ wbits (s.part (partOfCore s k)).pthl 0 12 = 0 := by
  simp [hasHandler]

theorem accessFault_walk {cause : Nat} : accessFault s k true w cause va
    = if w.sh then endKernelAt s k 3 w.pc.toNat cause va w.bp
      else if wbits (s.part (partOfCore s k)).pthl 0 12 = 0 then endKernelAt s k 0 w.pc.toNat cause va w.bp
      else deliver s k w.pc cause va none (some w.po) w.bp := by
  unfold accessFault
  rw [Bool.true_and]
  by_cases hz : wbits (s.part (partOfCore s k)).pthl 0 12 = 0
  · rw [if_pos hz, hasHandler_eq_false.mpr hz]
    rfl
  · rw [if_neg hz, Bool.not_eq_false _ |>.mp (hasHandler_eq_false.not.mpr hz)]
    rfl

end

/-! ### What an invalidation removes -/

theorem smGet_map {α β : Type} (f : α → β) (d : α) (m : SMap α) (k : Nat) :
    smGet (f d) (m.map fun e => (e.1, f e.2)) k = f (smGet d m k) := by
  induction m with
  | nil => rfl
  | cons e m ih =>
    simp only [List.map_cons, smGet]
    split
    · rfl
    · exact ih

theorem mem_tlbDrop (s : State) (pn : Nat) (f : TlbE → Bool) (d : Nat) (e : TlbE) :
    e ∈ smGet [] (tlbDrop s pn f).tlb d ↔ e ∈ smGet [] s.tlb d ∧ ¬ (e.part = pn ∧ f e = true) := by
  have hmap : smGet [] (tlbDrop s pn f).tlb d = (smGet [] s.tlb d).filter fun t => !(t.part == pn && f t) :=
    smGet_map (fun l : List TlbE => l.filter fun t : TlbE => !(t.part == pn && f t)) [] s.tlb d
  rw [hmap, List.mem_filter]
  simp [imp_iff_not_or]

/-- The state after the invalidation that core `k` waits for. -/
def tlbAnswered (s : State) (k : Nat) (v : Word) (gone : TlbE → Bool) : State :=
  (tlbDrop s (partOfCore s k) gone).setCore k ((s.core k).setHeld (some { kind := .tlbi v, res := some (.value 0) }))

section
variable {s : State} {k f : Nat} {v : Word}

theorem tlbiWait_early {now : Nat} (h : (s.core k).held = some { kind := .tlbi v, from_ := f }) (hf : now < f) :
    tlbiWait (s.core k) now = none := by
  simp only [tlbiWait, h]
  rw [if_pos (.inr hf)]

theorem tlbiWait_due {now : Nat} (h : (s.core k).held = some { kind := .tlbi v, from_ := f }) (hf : f ≤ now) :
    tlbiWait (s.core k) now = some v := by
  simp only [tlbiWait, h]
  rw [if_neg (by simpa using hf)]

theorem exec_tlbi_idle (h : tlbiWait (s.core k) (ctxTime s k (s.core k).inHandler) = none) :
    Idle (.tlbiPage k) s ∧ Idle (.tlbiStage1 k) s := by
  constructor
  · show execTlbiPage k s = _
    rw [execTlbiPage, h]
  · show execTlbiStage1 k s = _
    rw [execTlbiStage1, h]

theorem exec_tlbiPage (h : tlbiWait (s.core k) (ctxTime s k (s.core k).inHandler) = some v) (hv : v.toNat % 4 = 0) :
    exec (.tlbiPage k) s = .next (tlbAnswered s k v fun e =>
      decide (e.va ≤ v.toNat / 2 ^ 16 * 2 ^ 16) && decide (v.toNat / 2 ^ 16 * 2 ^ 16 < e.va + e.size)) := by
  have hpage : wbits v 16 48 = v.toNat / 2 ^ 16 := by
    rw [wbits_eq_div_mod]
    exact Nat.mod_eq_of_lt (by omega)
  show execTlbiPage k s = _
  rw [execTlbiPage, h]
  dsimp only
  rw [if_pos ((wbits_low v 2).trans hv), hpage]
  rfl

theorem exec_tlbiStage1 (h : tlbiWait (s.core k) (ctxTime s k (s.core k).inHandler) = some v) (hv : v.toNat % 4 = 1) :
    exec (.tlbiStage1 k) s = .next (tlbAnswered s k v fun _ => true) := by
  show execTlbiStage1 k s = _
  rw [execTlbiStage1, h]
  dsimp only
  rw [if_pos ((wbits_low v 2).trans hv)]
  rfl

end

/-- Settles O32: the walk is taken apart level by level; a fill keeps the entry it appends, and an invalidation filters the entries of every die. -/
theorem translationsComeAndGo : Obligations.TranslationsComeAndGo := by
  unfold Obligations.TranslationsComeAndGo
  refine ⟨stageOneWalk, fun s k => ?_⟩
  intro c pn
  refine ⟨fun hrun w vpg va hw => ?walks, fun v f hheld => ?invalidations⟩
  case walks =>
    intro at_
    refine ⟨fun e g hleaf => ⟨_, exec_walk_leaf hrun hw hleaf, mem_tlbFill s _ e, fun d hd => tlbFill_others s e hd, rfl⟩,
      fun hinv => ?_, fun p g hs2 => exec_walk_stage2 hrun hw hs2⟩
    exact (exec_walk_invalid hrun hw hinv).trans (congrArg _ accessFault_walk)
  case invalidations =>
    intro page drops now
    have answered (i : Instr) (gone : TlbE → Bool) (hi : exec i s = .next (tlbAnswered s k v gone)) : drops i (gone · = true) :=
      ⟨_, hi, mem_tlbDrop s pn gone, core_setCore_same _ _ _, fun j hj => core_setCore_ne _ _ hj, rfl⟩
    refine ⟨fun hf => exec_tlbi_idle (tlbiWait_early hheld hf), fun hf => ⟨fun hv => ?_, fun hv => ?_⟩⟩
    · have hd := answered _ _ (exec_tlbiPage (tlbiWait_due hheld hf) hv)
      simpa only [Bool.and_eq_true, decide_eq_true_eq] using hd
    · have hd := answered _ _ (exec_tlbiStage1 (tlbiWait_due hheld hf) hv)
      simpa only using hd

end Sys2Proof.Proofs

/-!
SUPPORT and the proof of `ResetState`: what the machine right after reset reads as.
-/

namespace Sys2Proof.Proofs

open Sys2Proof.Machine Sys2Proof.Laws

theorem memByte_reset (a : Nat) : memByte State.reset a = 0 := rfl

theorem core_reset (k : Nat) : State.reset.core k = {} := rfl

theorem quern_reset (d : Nat) : State.reset.quern d = {} := rfl

/-- Settles O54: every map of the reset state is empty, so that each of its parts reads as its default. -/
theorem resetState : Obligations.ResetState := by
  unfold Obligations.ResetState
  refine ⟨rfl, rfl, rfl, rfl, rfl, rfl, rfl, fun _ => ⟨rfl, rfl, rfl⟩, memByte_reset, fun d => ?_, fun k => ?_⟩
  · rw [quern_reset]
  · rw [core_reset]
    exact ⟨rfl, rfl, rfl, rfl, rfl, rfl, rfl, rfl, rfl, fun _ => ⟨rfl, rfl, rfl⟩, fun _ => rfl, rfl, rfl, fun _ => rfl, rfl, rfl, rfl⟩

end Sys2Proof.Proofs

/-!
SUPPORT and the proof of `ApResultsLand`: which results land and in which order, and that what lands in the main context leaves the reads of the
handler as they were (05_ap_model.md R104, R105, 22_faults.md R354).
-/

namespace Sys2Proof.Proofs

open Sys2Proof.Machine Sys2Proof.Laws

/-! ### A context of a core -/

theorem ctxOf_setCtxOf (c : Core) (sh : Bool) (x : ApCtx) : (c.setCtxOf sh x).ctxOf sh = x := by
  cases sh <;> rfl

theorem setCtxOf_ctxOf (c : Core) (sh : Bool) : c.setCtxOf sh (c.ctxOf sh) = c := by
  cases sh <;> rfl

theorem setCtxOf_setCtxOf (c : Core) (sh : Bool) (x y : ApCtx) : (c.setCtxOf sh x).setCtxOf sh y = c.setCtxOf sh y := by
  cases sh <;> rfl

/-! ### One result -/

/-- Writing at each number of a list. -/
theorem smGet_foldl_set {α : Type} [DecidableEq α] (d : α) (g : Nat → α) (l : List Nat) (m : SMap α) (k : Nat) :
    smGet d (l.foldl (fun m n => smSet d m n (g n)) m) k = if k ∈ l then g k else smGet d m k := by
  induction l generalizing m with
  | nil => rfl
  | cons n l ih =>
    rw [List.foldl_cons, ih]
    by_cases hl : k ∈ l
    · rw [if_pos hl, if_pos (List.mem_cons_of_mem n hl)]
    · rw [if_neg hl]
      by_cases hn : k = n
      · subst hn
        rw [smGet_set_same, if_pos List.mem_cons_self]
      · rw [smGet_set_ne d m _ hn, if_neg fun h => (List.mem_cons.mp h).elim hn hl]

/-- The predicates that can be written. -/
theorem mem_predNumbers (k : Nat) : k ∈ [1, 2, 3, 4, 5, 6, 7] ↔ 1 ≤ k ∧ k ≤ 7 := by
  simp only [List.mem_cons, List.not_mem_nil, or_false]
  omega

theorem landed_landOne (c : Core) (f : ApFly) : Claims.landed c f.dst f.val (landOne false c f) := by
  unfold landOne
  cases f.dst with
  | pf =>
    refine ⟨_, rfl, fun k hk hk' => ?_, fun k hk => ?_⟩
    · rw [smGet_foldl_set false fun n => f.val.getLsbD n]
      exact if_pos ((mem_predNumbers k).mpr ⟨hk, hk'⟩)
    · rw [smGet_foldl_set false fun n => f.val.getLsbD n]
      exact if_neg fun h => by have := (mem_predNumbers k).mp h; omega
  | kill po => exact ⟨rfl, rfl, rfl, rfl, rfl, rfl⟩
  | x n => rfl
  | p n => rfl
  | b n => rfl
  | sys n => rfl
  | qring v => rfl
  | sdKey rk cfg fr => rfl

/-- Core `c` with `v` in x[n] of a context, and no result of it on its way. -/
def withX (c : Core) (sh : Bool) (n : Nat) (v : Word) : Core :=
  c.setCtxOf sh { c.ctxOf sh with fly := [], x := smSet 0 (c.ctxOf sh).x n v }

theorem landOne_x {c : Core} {sh : Bool} {f : ApFly} {n : Nat} (hd : f.dst = .x n) (hn : n ≠ 0) :
    landOne sh c f = c.setCtxOf sh { c.ctxOf sh with x := smSet 0 (c.ctxOf sh).x n f.val } := by
  unfold landOne
  rw [hd]
  exact if_neg hn

/-- What the reads of the handler depend on, in a core. -/
def SameReads (c d : Core) : Prop := d.shadow = c.shadow ∧ d.rid = c.rid ∧ d.copy = c.copy

theorem sameReads_landOne (c : Core) (f : ApFly) : SameReads c (landOne false c f) := by
  unfold landOne
  cases f.dst with
  | x n => dsimp only; split <;> exact ⟨rfl, rfl, rfl⟩
  | p n => dsimp only; split <;> exact ⟨rfl, rfl, rfl⟩
  | b n => exact ⟨rfl, rfl, rfl⟩
  | pf => exact ⟨rfl, rfl, rfl⟩
  | sys n => exact ⟨rfl, rfl, rfl⟩
  | qring v => exact ⟨rfl, rfl, rfl⟩
  | kill po => exact ⟨rfl, rfl, rfl⟩
  | sdKey rk cfg fr => exact ⟨rfl, rfl, rfl⟩

theorem sameReads_foldl (l : List ApFly) (c : Core) : SameReads c (l.foldl (landOne false) c) := by
  induction l generalizing c with
  | nil => exact ⟨rfl, rfl, rfl⟩
  | cons f l ih =>
    obtain ⟨hs, hr, hc⟩ := sameReads_landOne c f
    obtain ⟨hs', hr', hc'⟩ := ih (landOne false c f)
    exact ⟨hs'.trans hs, hr'.trans hr, hc'.trans hc⟩

theorem sameReads_landCtx (now : Nat) (c : Core) : SameReads c (landCtx false now c) := sameReads_foldl _ _

/-! ### The results of a context -/

section
variable {c : Core} {sh : Bool} {now : Nat} {f g : ApFly}

/-- No result is due. -/
theorem landCtx_of_early (h : ∀ f ∈ (c.ctxOf sh).fly, now < f.due) : landCtx sh now c = c := by
  unfold landCtx
  dsimp only
  have hready : (c.ctxOf sh).fly.filter (fun f => decide (f.due ≤ now) && f.arrived) = [] :=
    List.filter_eq_nil_iff.mpr fun f hf => by simp [h f hf]
  have hrest : (c.ctxOf sh).fly.filter (fun f => !(decide (f.due ≤ now) && f.arrived)) = (c.ctxOf sh).fly :=
    List.filter_eq_self.mpr fun f hf => by simp [h f hf]
  rw [hready, hrest]
  exact setCtxOf_ctxOf c sh

theorem landCtx_of_nil (h : (c.ctxOf sh).fly = []) : landCtx sh now c = c :=
  landCtx_of_early fun f hf => by rw [h] at hf; cases hf

/-- Every result is due and has arrived: they land in program order, and none is left. -/
theorem landCtx_of_all_ready (h : ∀ f ∈ (c.ctxOf sh).fly, f.due ≤ now ∧ f.arrived = true) :
    landCtx sh now c = (flyOrder (c.ctxOf sh).fly).foldl (landOne sh) (c.setCtxOf sh { c.ctxOf sh with fly := [] }) := by
  unfold landCtx
  dsimp only
  have hready : (c.ctxOf sh).fly.filter (fun f => decide (f.due ≤ now) && f.arrived) = (c.ctxOf sh).fly :=
    List.filter_eq_self.mpr fun f hf => by simp [h f hf]
  have hrest : (c.ctxOf sh).fly.filter (fun f => !(decide (f.due ≤ now) && f.arrived)) = [] :=
    List.filter_eq_nil_iff.mpr fun f hf => by simp [h f hf]
  rw [hready, hrest]

theorem landCtx_single (hf : (c.ctxOf sh).fly = [f]) (hdue : f.due ≤ now) (harr : f.arrived = true) :
    landCtx sh now c = landOne sh (c.setCtxOf sh { c.ctxOf sh with fly := [] }) f := by
  rw [landCtx_of_all_ready (by rw [hf]; simp [hdue, harr]), hf]
  rfl

theorem landCtx_single_x {n : Nat} (hf : (c.ctxOf sh).fly = [f]) (hdue : f.due ≤ now) (harr : f.arrived = true) (hd : f.dst = .x n) (hn : n ≠ 0) :
    landCtx sh now c = withX c sh n f.val := by
  rw [landCtx_single hf hdue harr, landOne_x hd hn, ctxOf_setCtxOf, setCtxOf_setCtxOf]
  rfl

/-- Two results in either order of the list are put in that of their words. -/
theorem flyOrder_pair {l : List ApFly} (hl : l = [f, g] ∨ l = [g, f]) (hpo : f.po < g.po) : flyOrder l = [f, g] := by
  rcases hl with rfl | rfl
  · show (if g.po < f.po then _ else _) = _
    exact if_neg (by omega)
  · exact if_pos hpo

/-- Of two results for one register, that of the later word stays. -/
theorem landCtx_pair_x {n : Nat} (hl : (c.ctxOf sh).fly = [f, g] ∨ (c.ctxOf sh).fly = [g, f]) (hpo : f.po < g.po)
    (hf : f.due ≤ now ∧ f.arrived = true) (hg : g.due ≤ now ∧ g.arrived = true) (hdf : f.dst = .x n) (hdg : g.dst = .x n) (hn : n ≠ 0) :
    landCtx sh now c = withX (withX c sh n f.val) sh n g.val := by
  have hall : ∀ e ∈ (c.ctxOf sh).fly, e.due ≤ now ∧ e.arrived = true := by
    rcases hl with h | h <;> rw [h] <;> simp [hf, hg]
  rw [landCtx_of_all_ready hall, flyOrder_pair hl hpo, List.foldl_cons, List.foldl_cons, List.foldl_nil, landOne_x hdf hn, landOne_x hdg hn]
  cases sh <;> rfl

end

/-! ### The ring of the core's Quern -/

/-- One result's part in `ringLands`. -/
def ringLand (k now : Nat) (s : State) (f : ApFly) : State :=
  match f.dst with
  | .qring v => if f.due ≤ now then s.setQuern (clusterOf k) { s.quern (clusterOf k) with ring := v } else s
  | _ => s

section
variable {s : State} {k now : Nat} {f : ApFly}

theorem ringLands_eq_foldl (s : State) (k now : Nat) : ringLands s k now = (s.core k).main.fly.foldl (ringLand k now) s := rfl

theorem ringLand_ring {v : Word} (hd : f.dst = .qring v) (h : f.due ≤ now) :
    ringLand k now s f = s.setQuern (clusterOf k) { s.quern (clusterOf k) with ring := v } := by
  unfold ringLand
  rw [hd]
  exact if_pos h

/-- Only a ring that is due has a part in it. -/
theorem ringLand_other (h : now < f.due ∨ ∀ v, f.dst ≠ .qring v) : ringLand k now s f = s := by
  unfold ringLand
  split
  · next v hd =>
    rcases h with h | h
    · exact if_neg (by omega)
    · exact absurd hd (h v)
  · rfl

theorem ringLands_single (hf : (s.core k).main.fly = [f]) : ringLands s k now = ringLand k now s f := by
  rw [ringLands_eq_foldl, hf]
  rfl

theorem ringLands_of_nil (hf : (s.core k).main.fly = []) : ringLands s k now = s := by
  rw [ringLands_eq_foldl, hf]
  rfl

/-- Where no result is a ring that is due, nothing is sent to the Quern. -/
theorem ringLands_of_no_ring (h : ∀ f ∈ (s.core k).main.fly, now < f.due ∨ ∀ v, f.dst ≠ .qring v) : ringLands s k now = s := by
  rw [ringLands_eq_foldl]
  generalize (s.core k).main.fly = l at h
  induction l with
  | nil => rfl
  | cons f l ih =>
    rw [List.foldl_cons, ringLand_other (h f List.mem_cons_self)]
    exact ih fun g hg => h g (List.mem_cons_of_mem f hg)

/-- Nothing but the Querns changes. -/
theorem exists_querns_ringLands (s : State) (k now : Nat) : ∃ q, ringLands s k now = { s with querns := q } := by
  rw [ringLands_eq_foldl]
  generalize (s.core k).main.fly = l
  induction l generalizing s with
  | nil => exact ⟨s.querns, rfl⟩
  | cons f l ih =>
    obtain ⟨q, hq⟩ : ∃ q, ringLand k now s f = { s with querns := q } := by
      unfold ringLand
      split
      · split
        · exact ⟨_, rfl⟩
        · exact ⟨s.querns, rfl⟩
      · exact ⟨s.querns, rfl⟩
    obtain ⟨q', hq'⟩ := ih (ringLand k now s f)
    rw [List.foldl_cons, hq', hq]
    exact ⟨q', rfl⟩

end

/-! ### The step that lands results -/

section
variable {s : State} {k : Nat}

theorem serveOwn_of_not_ownDue {sh : Bool} (h : ownDue s k sh = false) (n : Nat) : serveOwn k sh n s = s := by
  cases n with
  | zero => rfl
  | succ n =>
    rw [serveOwn, h]
    rfl

theorem landNow_handler (h : ownDue s k true = false) : landNow s k true = s.setCore k (landCtx true s.clock (s.core k)) := by
  rw [landNow, serveOwn_of_not_ownDue h]
  rfl

theorem landNow_main (h : ownDue s k false = false) (hl : lateVa (s.core k) = none) : landNow s k false = landMain s k := by
  rw [landNow, serveOwn_of_not_ownDue h, hl]
  rfl

theorem landNow_late {va : Word} (h : ownDue s k false = false) (hl : lateVa (s.core k) = some va) : landNow s k false = s := by
  rw [landNow, serveOwn_of_not_ownDue h, hl]
  rfl

/-- The main context's results as they land: the rings first, then what they write. -/
theorem landMain_eq (s : State) (k : Nat) :
    landMain s k = (ringLands s k (s.core k).cycle).setCore k (landCtx false (s.core k).cycle (s.core k)) := by
  obtain ⟨q, hq⟩ := exists_querns_ringLands s k (s.core k).cycle
  unfold landMain
  dsimp only
  rw [hq]
  rfl

/-- The handler's reads are where they were when the main context's results have landed. -/
theorem ownDue_landMain (s : State) (k : Nat) : ownDue (landMain s k) k true = ownDue s k true := by
  obtain ⟨q, hq⟩ := exists_querns_ringLands s k (s.core k).cycle
  obtain ⟨hsh, hrid, hcopy⟩ := sameReads_landCtx (s.core k).cycle (s.core k)
  have hmem : membersOf (landMain s k) k = membersOf s k := by
    rw [landMain_eq, hq]
    simp only [membersOf, core_setCore_same, hrid, hcopy]
    rfl
  have hown (va : Word) : ownSpad (landMain s k) k va = ownSpad s k va := by
    simp only [ownSpad, spadOf, spadCore, hmem]
  have hclock : (landMain s k).clock = s.clock := by
    rw [landMain_eq, hq]
    rfl
  have hctx : ((landMain s k).core k).ctxOf true = (s.core k).ctxOf true := by
    rw [landMain_eq, core_setCore_same]
    exact hsh
  simp only [ownDue, hctx, hown, ctxTime, hclock, if_true]

/-- No reply is late: the results of the main context land, then those of the handler. -/
theorem exec_landing (hsh : ownDue s k true = false) (hm : ownDue s k false = false) (hl : lateVa (s.core k) = none) :
    exec (.apResultLanding k) s = .next ((ringLands s k (s.core k).cycle).setCore k
      (landCtx true s.clock (landCtx false (s.core k).cycle (s.core k)))) := by
  show Host.Outcome.next (landNow (landNow s k false) k true) = _
  rw [landNow_main hm hl, landNow_handler ((ownDue_landMain s k).trans hsh), landMain_eq, core_setCore_same, setCore_setCore]
  obtain ⟨q, hq⟩ := exists_querns_ringLands s k (s.core k).cycle
  rw [hq]
  rfl

/-- A reply is late: those of the handler only. -/
theorem exec_landing_late {va : Word} (hsh : ownDue s k true = false) (hm : ownDue s k false = false) (hl : lateVa (s.core k) = some va) :
    exec (.apResultLanding k) s = .next (s.setCore k (landCtx true s.clock (s.core k))) := by
  show Host.Outcome.next (landNow (landNow s k false) k true) = _
  rw [landNow_late hm hl, landNow_handler hsh]

/-- Only results of the main context can land. -/
theorem exec_landing_onlyMain (h : Claims.onlyMain s k) :
    exec (.apResultLanding k) s = .next ((ringLands s k (s.core k).cycle).setCore k (landCtx false (s.core k).cycle (s.core k))) := by
  obtain ⟨hfly, hsh, hm, hl⟩ := h
  obtain ⟨hshadow, -, -⟩ := sameReads_landCtx (s.core k).cycle (s.core k)
  rw [exec_landing hsh hm hl, landCtx_of_nil (c := landCtx false _ _)]
  show (landCtx false _ _).shadow.fly = []
  rw [hshadow, hfly]

end

/-- Settles O12: with no read of the own scratchpad due, the step lands the results of the main context and then those of the handler; what lands in
the one leaves the reads of the other as they were. -/
theorem apResultsLand : Obligations.ApResultsLand := by
  unfold Obligations.ApResultsLand
  refine ⟨fun s k f hm hf => ?single, fun s k n f g hm hl hpo hdf hdg hn hf hfa hg hga => ?pair,
    fun s k va hsf hsh hown hl => ?late, fun s k n f hmf hsh hown hf hd hn hdue harr => ?handler⟩
  case single =>
    refine ⟨fun hdue harr hring => ?_, fun v hdue harr hd => ?_, fun hearly => ?_⟩
    · rw [exec_landing_onlyMain hm, ringLands_single hf, ringLand_other (.inr hring), landCtx_single (sh := false) hf hdue harr]
      refine ⟨_, rfl, onlyCore_setCore s k _, ?_⟩
      rw [core_setCore_same]
      exact landed_landOne _ f
    · rw [exec_landing_onlyMain hm, ringLands_single hf, ringLand_ring hd hdue, landCtx_single (sh := false) hf hdue harr]
      refine ⟨_, rfl, onlyCore_setCore _ k _, ?_⟩
      rw [core_setCore_same, landOne, hd]
      rfl
    · have hall : ∀ g ∈ ((s.core k).ctxOf false).fly, (s.core k).cycle < g.due := by
        rw [show ((s.core k).ctxOf false).fly = [f] from hf]
        exact List.forall_mem_singleton.mpr hearly
      rw [exec_landing_onlyMain hm, ringLands_single hf, ringLand_other (.inl hearly), landCtx_of_early hall]
      exact ⟨_, rfl, core_setCore_same _ _ _, onlyCore_setCore s k _⟩
  case pair =>
    refine ⟨_, exec_landing_onlyMain hm, ?_⟩
    rw [core_setCore_same, landCtx_pair_x (sh := false) hl hpo ⟨hf, hfa⟩ ⟨hg, hga⟩ hdf hdg hn]
    exact ⟨smGet_set_same _ _ _ _, rfl⟩
  case late =>
    refine ⟨_, exec_landing_late hsh hown hl, ?_, onlyCore_setCore s k _⟩
    rw [core_setCore_same, landCtx_of_nil (sh := true) hsf]
  case handler =>
    refine ⟨s.setCore k (withX (s.core k) true n f.val), ?_, onlyCore_setCore s k _, core_setCore_same _ _ _⟩
    have hland : landCtx true s.clock (s.core k) = withX (s.core k) true n f.val := landCtx_single_x hf hdue harr hd hn
    cases hl : lateVa (s.core k) with
    | none => rw [exec_landing hsh hown hl, ringLands_of_nil hmf, landCtx_of_nil (sh := false) hmf, hland]
    | some va => rw [exec_landing_late hsh hown hl, hland]

end Sys2Proof.Proofs

/-!
SUPPORT for `RowsAndReplies`: rows of an `ldq` are performed and enter their queues (05_ap_model.md R107-R109, 06_ap_instr.md R138).
-/

namespace Sys2Proof.Proofs

open Sys2Proof.Machine Sys2Proof.Laws

/-! ### Bytes of a row -/

theorem getElem?_rowBytes (r : Row) {i : Nat} (h : i < 384) : (rowBytes r)[i]? = some (rowByte r i) := by
  rw [rowBytes, getElem?_leBytes _ h]
  congr 1
  apply BitVec.eq_of_toNat_eq
  rw [rowByte, BitVec.extractLsb'_toNat, BitVec.toNat_ofNat, Nat.shiftRight_eq_div_pow, Nat.pow_mul]

theorem rowByte_rowOfList {l : List Byte} (h : l.length = 384) {i : Nat} (hi : i < 384) {b : Byte} (hb : l[i]? = some b) :
    rowByte (rowOfList l) i = b := by
  have hrow := getElem?_rowBytes (rowOfList l) hi
  rw [rowBytes_rowOfList l h, hb] at hrow
  exact (Option.some.inj hrow).symm

theorem length_vaBytes (s : State) (k : Nat) (xl : List Xl) (va : Word) (n : Nat) : (vaBytes s k xl va n).length = n := by
  rw [vaBytes, List.length_map, List.length_range]

theorem getElem?_vaBytes (s : State) (k : Nat) (xl : List Xl) (va : Word) {n i : Nat} (h : i < n) :
    (vaBytes s k xl va n)[i]? = some (vaByte s k xl (va + w64 i)) := by
  rw [vaBytes, List.getElem?_map, List.getElem?_range h]
  rfl

/-! ### A row is performed -/

/-- The row that a read without an error brings for the next row of `e`. -/
def rowRead (s : State) (k : Nat) (e : RdE) (xl : List Xl) : QRow :=
  let va := e.va + w64 (384 * e.k)
  { data := rowOfList (vaBytes s k xl va 384), tag := ((byteLoc s k xl va).map fun p => tagAt s p.1).getD 0, po := some e.po }

/-- Core `c` once that row is on its way. -/
def rowSent (c : Core) (e : RdE) (lqm zm1 : Bool) (row : QRow) : Core :=
  { c with
    main := { c.main with rq := (if e.k + 1 < e.n then [{ e with k := e.k + 1 }] else []) ++ c.main.rq.drop 1 }
    q := { c.q with rowsIn := c.q.rowsIn ++ (if e.kill then [] else
      [{ lqm := lqm, zm1 := zm1, due := e.due, po := e.po, total := e.n, row := row }]) } }

theorem ite_cons_eq_append {α : Type} (p : Prop) [Decidable p] (a : α) (l : List α) :
    (if p then a :: l else l) = (if p then [a] else []) ++ l := by
  split <;> rfl

theorem ite_append_eq {α : Type} (p : Prop) [Decidable p] (l m : List α) : (if p then l else l ++ m) = l ++ if p then [] else m := by
  split
  · exact (List.append_nil l).symm
  · rfl

section
variable {s : State} {k : Nat} {e : RdE} {xl : List Xl} {lqm zm1 zero : Bool}

theorem readEcc_clean {va : Word} {size : Nat} (h : Claims.cleanRead s k xl va size) : readEcc s k xl va size .clean = (s, .clean) := by
  obtain ⟨hinj, hpoison⟩ := h
  simp [readEcc, hinj, hpoison]

theorem performRow_clean (h : Claims.cleanRead s k xl (e.va + w64 (384 * e.k)) 384) :
    performRow s k e lqm zm1 zero xl .clean = s.setCore k (rowSent (s.core k) e lqm zm1 (rowRead s k e xl)) := by
  unfold performRow rowSent rowRead
  dsimp only
  rw [readEcc_clean h]
  dsimp only
  rw [ite_cons_eq_append, ite_append_eq]
  cases byteLoc s k xl (e.va + w64 (384 * e.k)) <;> rfl

theorem markHolds_eq_false {x : ApCtx} {po : Nat} (h : ∀ m ∈ x.marks, m.2 < po → ∀ w ∈ x.wq, m.2 ≤ w.po) : markHolds x po = false := by
  simpa [markHolds] using h

/-- A read of the main context is served where the handler has none. -/
theorem servesShadow_eq_false {c : Core} {b : Bool} (h : c.inHandler = true → b = false) : servesShadow c b = false := by
  unfold servesShadow
  cases hc : c.inHandler with
  | false => rfl
  | true => rw [h hc]; rfl

theorem readNext_ldq (hrun : (s.core k).run = .running) (hhead : (s.core k).main.rq.head? = some e)
    (hfrom : e.from_ ≤ (s.core k).cycle) (hkind : e.kind = .ldq lqm zm1 zero) (hmark : markHolds (s.core k).main e.po = false)
    (hcheck : rdCheck s k e = .ok xl) (ecc : Ecc) : readNext s k false ecc = performRow s k e lqm zm1 zero xl ecc := by
  obtain ⟨rest, hrq⟩ : ∃ rest, (s.core k).main.rq = e :: rest := by
    cases hq : (s.core k).main.rq with
    | nil => rw [hq] at hhead; cases hhead
    | cons f rest => rw [hq] at hhead; exact ⟨rest, by rw [Option.some.inj hhead]⟩
  have hgo : (!(s.core k).alive || decide (ctxTime s k false < e.from_) || markHolds ((s.core k).ctxOf false) e.po) = false := by
    have hnot : ¬ ctxTime s k false < e.from_ := Nat.not_lt.mpr hfrom
    simp [Core.alive, hrun, hnot, Core.ctxOf, hmark]
  unfold readNext
  dsimp only
  rw [show ((s.core k).ctxOf false).rq = e :: rest from hrq]
  dsimp only
  rw [hgo, hcheck, if_neg (by decide)]
  dsimp only
  rw [hkind]

theorem lateEnds_of_not_late (h : (s.core k).freeze.late = none) : lateEnds s k = s := by
  unfold lateEnds
  dsimp only
  rw [h]
  rfl

end

theorem rowPerforms (s : State) (k : Nat) (e : RdE) (lqm zm1 zero : Bool) (xl : List Xl) : Claims.rowPerforms s k e lqm zm1 zero xl := by
  intro hrun hsh hhead hfrom hlate hkind hmarks hcheck hclean
  refine ⟨rowRead s k e xl, rfl, rfl, rfl, rfl, fun i hi => ?bytes, fun a g hloc => ?tag, coreBecomes_of ?next⟩
  case bytes => exact rowByte_rowOfList (length_vaBytes _ _ _ _ _) hi (getElem?_vaBytes s k xl _ hi)
  case tag =>
    show ((byteLoc s k xl (e.va + w64 (384 * e.k))).map fun p => tagAt s p.1).getD 0 = _
    rw [hloc]
    rfl
  case next =>
    have hserves : servesShadow (s.core k) (!(s.core k).shadow.rq.isEmpty) = false := servesShadow_eq_false fun h => by rw [hsh h]; rfl
    show Host.Outcome.next (lateEnds (readNext s k (servesShadow (s.core k) (!(s.core k).shadow.rq.isEmpty)) .clean) k) = _
    rw [hserves, readNext_ldq hrun hhead hfrom hkind (markHolds_eq_false hmarks) hcheck, performRow_clean hclean, lateEnds_of_not_late]
    · rfl
    · rw [core_setCore_same]
      exact hlate

/-! ### A row enters its queue -/

section
variable {s : State} {k : Nat} {lqm : Bool} {r : RowIn}

/-- The oldest row on its way to a queue is not due. -/
theorem exec_rowEntry_early (hfind : (s.core k).q.rowsIn.find? (fun e => e.lqm == lqm) = some r) (h : (s.core k).cycle < r.due) :
    Idle (.ldqRowEntry k lqm) s := by
  show execLdqRowEntry k lqm s = _
  simp only [execLdqRowEntry, hfind]
  rw [if_pos (by simp [h])]

/-- The queues `q` once row `r` has entered them; none where it waits behind an earlier stream of the decoder. -/
def rowEnters (q : Queues) (r : RowIn) (lqm : Bool) : Option Queues :=
  let rest := { q with rowsIn := q.rowsIn.erase r }
  if r.zm1 then
    some { rest with zm := if q.zm.any (fun z => z.po == r.po) then q.zm.map fun z => if z.po = r.po then { z with rows := z.rows ++ [r.row] } else z
                           else q.zm ++ [{ po := r.po, total := r.total, rows := [r.row], pos := 0, k := 0, out := [] }] }
  else if lqm then some { rest with lqm := q.lqm ++ [r.row] }
  else if q.zm.any fun z => decide (z.po < r.po) then none
  else some { rest with lqv := q.lqv ++ [r.row] }

/-- The oldest row on its way to a queue is due. -/
theorem exec_rowEntry_due (hrun : (s.core k).run = .running) (hfroz : (s.core k).frozen = false)
    (hfind : (s.core k).q.rowsIn.find? (fun e => e.lqm == lqm) = some r) (h : r.due ≤ (s.core k).cycle) :
    exec (.ldqRowEntry k lqm) s = .next (((rowEnters (s.core k).q r lqm).map fun q => s.setCore k { s.core k with q := q }).getD s) := by
  show execLdqRowEntry k lqm s = _
  have hgo : ¬ (!(s.core k).alive || (s.core k).frozen || decide ((s.core k).cycle < r.due)) = true := by
    simp [Core.alive, hrun, hfroz, h]
  simp only [execLdqRowEntry, hfind, rowEnters]
  rw [if_neg hgo]
  split
  · rfl
  · split
    · rfl
    · split <;> rfl

end

theorem queueRows : Claims.QueueRows := by
  refine ⟨rowPerforms, fun s k r lqm => ?_⟩
  intro c q enters hrun hfroz hfind
  have hdue (h : r.due ≤ c.cycle) (q' : Queues) (hq : rowEnters c.q r lqm = some q') : enters q' :=
    coreBecomes_of (by rw [exec_rowEntry_due hrun hfroz hfind h, hq]; rfl)
  refine ⟨exec_rowEntry_early hfind, fun h => ⟨fun hz hl => hdue h _ ?lqm, fun hz hl hzm => hdue h _ ?lqv, fun hz hl hzm => ?waits,
    fun hz hzm => hdue h _ ?new, fun hz hzm => hdue h _ ?known⟩⟩
  case lqm => simp only [rowEnters, hz, hl]; rfl
  case lqv =>
    have hany : (c.q.zm.any fun z => decide (z.po < r.po)) = false := by simpa using hzm
    simp only [rowEnters, hz, hl, hany]
    rfl
  case waits =>
    have hany : (c.q.zm.any fun z => decide (z.po < r.po)) = true := by simpa using hzm
    have hq : rowEnters c.q r lqm = none := by simp only [rowEnters, hz, hl, hany]; rfl
    rw [Idle, exec_rowEntry_due hrun hfroz hfind h, hq]
    rfl
  case new =>
    have hany : (c.q.zm.any fun z => z.po == r.po) = false := by simpa using hzm
    simp only [rowEnters, hz, hany]
    rfl
  case known =>
    have hany : (c.q.zm.any fun z => z.po == r.po) = true := by simpa using hzm
    simp only [rowEnters, hz, hany]
    rfl

end Sys2Proof.Proofs

/-!
SUPPORT and the proof of `RowsAndReplies`: late replies and the freeze they begin, the watchdogs, and corrected errors (05_ap_model.md R104, R105, R110,
22_faults.md R360, R361, R367, R368).
-/

namespace Sys2Proof.Proofs

open Sys2Proof.Machine Sys2Proof.Laws

/-! ### Late replies -/

/-- A reply on its way is due by `now` and absent. -/
def replyAbsent (now : Nat) (f : ApFly) : Bool := f.mem && !f.arrived && decide (f.due ≤ now)

/-- A read that has not been performed is late by `now`. -/
def readLate (now : Nat) (e : RdE) : Prop := e.due ≤ now ∧ ∀ a b d, e.kind ≠ .ldq a b d

theorem single_iff (e : RdE) : e.single = true ↔ ∀ a b d, e.kind ≠ .ldq a b d := by
  unfold RdE.single
  cases e.kind <;> simp

section
variable {c : Core} {f : ApFly}

theorem lateVa_absent (h : c.main.fly.find? (replyAbsent c.cycle) = some f) : lateVa c = some f.va := by
  show lateIn c.main c.cycle = _
  unfold replyAbsent at h
  rw [lateIn, h]

theorem lateVa_eq_none (hfly : ∀ f ∈ c.main.fly, replyAbsent c.cycle f = false) (hrq : ∀ e ∈ c.main.rq, ¬ readLate c.cycle e) :
    lateVa c = none := by
  have hf : c.main.fly.find? (replyAbsent c.cycle) = none := List.find?_eq_none.mpr fun f hf => by rw [hfly f hf]; decide
  have he : c.main.rq.find? (fun e => decide (e.due ≤ c.cycle) && e.single) = none :=
    List.find?_eq_none.mpr fun e he => by
      rw [Bool.and_eq_true, decide_eq_true_eq, single_iff]
      exact hrq e he
  show lateIn c.main c.cycle = _
  unfold replyAbsent at hf
  rw [lateIn, hf]
  dsimp only
  rw [he]
  rfl

theorem replyAbsent_of_early {now : Nat} (h : now < f.due) : replyAbsent now f = false := by simp [replyAbsent, h]

theorem replyAbsent_of_arrived {now : Nat} (h : f.arrived = true) : replyAbsent now f = false := by simp [replyAbsent, h]

theorem lateVa_single_arrived (hf : c.main.fly = [f]) (harr : f.arrived = true) (hrq : ∀ e ∈ c.main.rq, ¬ readLate c.cycle e) :
    lateVa c = none :=
  lateVa_eq_none (by rw [hf]; exact List.forall_mem_singleton.mpr (replyAbsent_of_arrived harr)) hrq

theorem firstArrives_first {l r : List ApFly} (hf : f.arrived = false) (hl : ∀ g ∈ l, g.arrived = true) :
    firstArrives (l ++ f :: r) = l ++ { f with arrived := true } :: r := by
  induction l with
  | nil =>
    rw [List.nil_append, firstArrives, hf]
    rfl
  | cons g l ih =>
    rw [List.cons_append, firstArrives, if_pos (hl g List.mem_cons_self), ih fun e he => hl e (List.mem_cons_of_mem g he)]
    rfl

end

/-! ### The end of a freeze -/

/-- The end of a freeze, in the terms of the statement. -/
theorem thaw_eq_unfrozen (c : Core) (f : Freeze) (t : Nat) : ({ c with freeze := f } : Core).thaw t = Claims.unfrozen c f t := by
  have hiff : ({ c with freeze := f } : Core).thawed = true ↔ f.late = none ∧ f.ecc = none ∧ c.hnd = none ∧ c.hndQ = [] := by
    simp [Core.thawed, and_assoc]
  unfold Core.thaw Claims.unfrozen
  by_cases h : f.late = none ∧ f.ecc = none ∧ c.hnd = none ∧ c.hndQ = []
  · rw [if_pos (hiff.mpr h), if_pos h]
  · rw [if_neg (fun e => h (hiff.mp e)), if_neg h]

/-- Core `c` without the freeze of a late reply. -/
def withoutLate (c : Core) (t : Nat) : Core := Claims.unfrozen c { c.freeze with late := none } t

section
variable {s : State} {k n : Nat} {f : ApFly}

theorem landMain_of_early (h : ∀ f ∈ (s.core k).main.fly, (s.core k).cycle < f.due) : landMain s k = s.setCore k (s.core k) := by
  rw [landMain_eq, ringLands_of_no_ring fun f hf => .inl (h f hf), landCtx_of_early (sh := false) h]

theorem landMain_single_x (hf : (s.core k).main.fly = [f]) (hdue : f.due ≤ (s.core k).cycle) (harr : f.arrived = true) (hd : f.dst = .x n)
    (hn : n ≠ 0) : landMain s k = s.setCore k (withX (s.core k) false n f.val) := by
  rw [landMain_eq, ringLands_single hf, ringLand_other (.inr fun v h => by rw [hd] at h; cases h),
    landCtx_single_x (sh := false) hf hdue harr hd hn]

theorem lateEnds_of_none (hlate : (s.core k).freeze.late ≠ none) (h : lateVa (s.core k) = none) :
    lateEnds s k = landMain (s.setCore k (withoutLate (s.core k) s.clock)) k := by
  have hn : ¬ (s.core k).freeze.late.isNone = true := by simpa using hlate
  unfold lateEnds
  dsimp only
  rw [if_neg hn, h, thaw_eq_unfrozen]
  rfl

/-- The freeze ends, and the one result of the cycle is written. -/
theorem lateEnds_single_x (hlate : (s.core k).freeze.late ≠ none) (hrq : ∀ e ∈ (s.core k).main.rq, ¬ readLate (s.core k).cycle e)
    (hf : (s.core k).main.fly = [f]) (hdue : f.due ≤ (s.core k).cycle) (harr : f.arrived = true) (hd : f.dst = .x n) (hn : n ≠ 0) :
    lateEnds s k = s.setCore k (withoutLate (withX (s.core k) false n f.val) s.clock) := by
  have hl : lateVa (s.core k) = none := lateVa_single_arrived hf harr hrq
  have hc := core_setCore_same s k (withoutLate (s.core k) s.clock)
  rw [lateEnds_of_none hlate hl, landMain_single_x (by rw [hc]; exact hf) (by rw [hc]; exact hdue) harr hd hn, hc, setCore_setCore]
  rfl

/-- The oldest reply of the main context arrives. -/
theorem exec_replyArrival {l r : List ApFly} (hsh : (s.core k).inHandler = true → ∀ g ∈ (s.core k).shadow.fly, g.arrived = true)
    (hf : (s.core k).main.fly = l ++ f :: r) (harr : f.arrived = false) (hl : ∀ g ∈ l, g.arrived = true) :
    exec (.readReplyArrival k) s = .next (lateEnds (s.setCore k { s.core k with
      main := { (s.core k).main with fly := l ++ { f with arrived := true } :: r } }) k) := by
  have hserves : servesShadow (s.core k) ((s.core k).shadow.fly.any fun f => !f.arrived) = false :=
    servesShadow_eq_false fun h => by simpa using hsh h
  show execReadReplyArrival k s = _
  unfold execReadReplyArrival
  dsimp only
  rw [hserves, ← firstArrives_first harr hl, ← hf]
  rfl

/-- A reply that was late arrives last, and its register takes it. -/
theorem exec_replyArrival_late (hsh : (s.core k).inHandler = true → ∀ g ∈ (s.core k).shadow.fly, g.arrived = true)
    (hf : (s.core k).main.fly = [f]) (harr : f.arrived = false) (hlate : (s.core k).freeze.late ≠ none)
    (hrq : ∀ e ∈ (s.core k).main.rq, ¬ readLate (s.core k).cycle e) (hdue : f.due ≤ (s.core k).cycle) (hd : f.dst = .x n) (hn : n ≠ 0) :
    exec (.readReplyArrival k) s = .next (s.setCore k (withoutLate (withX (s.core k) false n f.val) s.clock)) := by
  rw [exec_replyArrival (l := []) hsh hf harr (fun g hg => by cases hg), lateEnds_single_x (f := { f with arrived := true }) (n := n)]
  · rw [core_setCore_same, setCore_setCore]
    rfl
  · rw [core_setCore_same]; exact hlate
  · rw [core_setCore_same]; exact hrq
  · rw [core_setCore_same]; rfl
  · rw [core_setCore_same]; exact hdue
  · rfl
  · exact hd
  · exact hn

/-- The core of a running kernel freezes with the address of the reply that is late. -/
theorem exec_lateReplyFreeze_late {va : Word} (hrun : (s.core k).run = .running) (h : lateVa (s.core k) = some va) :
    exec (.lateReplyFreeze k) s = .next (s.setCore k { s.core k with freeze := { (s.core k).freeze with late := some va } }) := by
  have halive : ¬ (!(s.core k).alive) = true := by simp [Core.alive, hrun]
  show execLateReplyFreeze k s = _
  unfold execLateReplyFreeze
  dsimp only
  rw [if_neg halive, h]

theorem exec_lateReplyFreeze_none (hrun : (s.core k).run = .running) (h : lateVa (s.core k) = none) :
    exec (.lateReplyFreeze k) s = .next (if (s.core k).freeze.late = none then landMain s k else lateEnds s k) := by
  have halive : ¬ (!(s.core k).alive) = true := by simp [Core.alive, hrun]
  show execLateReplyFreeze k s = _
  unfold execLateReplyFreeze
  dsimp only
  rw [if_neg halive, h]
  simp only [Option.isNone_iff_eq_none]

end

/-! ### Token counts in a word -/

theorem chunks_lt (w : Nat) (g : Nat → Nat) (n : Nat) : chunks w g n < 2 ^ (w * n) := by
  induction n with
  | zero => simp [chunks]
  | succ n ih =>
    have hlt : g n % 2 ^ w + 1 ≤ 2 ^ w := Nat.mod_lt _ (Nat.two_pow_pos w)
    have hmul := Nat.mul_le_mul_right (2 ^ (w * n)) hlt
    have hsucc : 2 ^ (w * (n + 1)) = 2 ^ w * 2 ^ (w * n) := by rw [Nat.mul_succ, Nat.pow_add, Nat.mul_comm]
    rw [chunks, Nat.shiftLeft_eq, hsucc]
    rw [Nat.add_mul] at hmul
    omega

/-- Each chunk can be read back. -/
theorem nbits_chunks (w : Nat) (g : Nat → Nat) {n i : Nat} (h : i < n) : nbits (chunks w g n) (w * i) w = g i % 2 ^ w := by
  induction n with
  | zero => omega
  | succ n ih =>
    rw [nbits_eq_div_mod, chunks, Nat.shiftLeft_eq]
    by_cases hi : i = n
    · subst hi
      rw [Nat.add_mul_div_right _ _ (Nat.two_pow_pos _), Nat.div_eq_of_lt (chunks_lt w g i), Nat.zero_add, Nat.mod_mod]
    · have hin : i < n := by omega
      obtain ⟨m, rfl⟩ : ∃ m, n = i + (m + 1) := ⟨n - i - 1, by omega⟩
      have hsplit : 2 ^ (w * (i + (m + 1))) = 2 ^ w * 2 ^ (w * m) * 2 ^ (w * i) := by
        rw [← Nat.pow_add, ← Nat.pow_add]
        congr 1
        ring
      rw [← ih hin, nbits_eq_div_mod, hsplit, ← Nat.mul_assoc, Nat.add_mul_div_right _ _ (Nat.two_pow_pos _),
        Nat.mul_left_comm, Nat.add_mul_mod_self_left]

/-- The six token counts of a core, four bits each. -/
def tokenWord (c : Core) : Word := w64 (chunks 4 (fun f => c.tokens f) 6)

theorem toNat_tokenWord (c : Core) : (tokenWord c).toNat = chunks 4 (fun f => c.tokens f) 6 := by
  have h := chunks_lt 4 (fun f => c.tokens f) 6
  rw [tokenWord, w64, BitVec.toNat_ofNat]
  exact Nat.mod_eq_of_lt (by omega)

theorem tokenWord_high (c : Core) : wbits (tokenWord c) 24 40 = 0 := by
  have h := chunks_lt 4 (fun f => c.tokens f) 6
  rw [wbits_eq_div_mod, toNat_tokenWord, Nat.div_eq_of_lt (by omega), Nat.zero_mod]

theorem tokenWord_count (c : Core) {f : Nat} (h : f < 6) : wbits (tokenWord c) (4 * f) 4 = c.tokens f % 16 := by
  rw [wbits, toNat_tokenWord]
  exact nbits_chunks 4 (fun f => c.tokens f) h

/-! ### The watchdogs -/

section
variable {s : State} {k : Nat}

theorem alive_of_running {c : Core} (h : c.run = .running) : c.alive = true := by rw [Core.alive, h]; rfl

/-- 22_faults.md R360: the core has been frozen for 2^20 clock cycles, for a reply of its main context. -/
theorem exec_lateReply {va : Word} (hrun : (s.core k).run = .running) (hfroz : (s.core k).frozen = true) (hlen : 2 ^ 20 ≤ (s.core k).freeze.len)
    (hva : lateVa (s.core k) = some va) : exec (.lateReply k) s = .next (endKernel s k 3 0 0x27 va) := by
  show execLateReply k s = _
  simp only [execLateReply, alive_of_running hrun, hfroz, hva, Option.some_or]
  exact congrArg _ (if_pos (by simpa using hlen))

theorem exec_lateReply_early (hlen : (s.core k).freeze.len < 2 ^ 20) : Idle (.lateReply k) s := by
  show execLateReply k s = _
  have hnot : ¬ ((s.core k).alive && (s.core k).frozen && decide (2 ^ 20 ≤ (s.core k).freeze.len)) = true := by
    simp only [Bool.and_eq_true, decide_eq_true_eq]
    omega
  simp only [execLateReply]
  rw [if_neg hnot]

/-- 22_faults.md R361: the core's streams have waited for tokens for 2^24 core cycles. -/
theorem exec_tokenDeadlock (hrun : (s.core k).run = .running) (h : 2 ^ 24 ≤ (s.core k).tokWait) :
    exec (.tokenDeadlock k) s = .next (endKernel s k 3 0 0xC4 (tokenWord (s.core k))) := by
  show execTokenDeadlock k s = _
  simp only [execTokenDeadlock, alive_of_running hrun]
  exact congrArg _ (if_pos (by simpa using h))

theorem exec_tokenDeadlock_early (h : (s.core k).tokWait < 2 ^ 24) : Idle (.tokenDeadlock k) s := by
  show execTokenDeadlock k s = _
  have hnot : ¬ ((s.core k).alive && decide (2 ^ 24 ≤ (s.core k).tokWait)) = true := by
    simp only [Bool.and_eq_true, decide_eq_true_eq]
    omega
  simp only [execTokenDeadlock]
  rw [if_neg hnot]

end

theorem repliesAndWatchdogs : Claims.RepliesAndWatchdogs := by
  intro s k c absent late written ends
  refine ⟨fun l f r hsh hf harr hl => ⟨fun hlate => ?arrives, fun hlate hnil hnil' hdue hrq n hd hn => ?arrivesLate⟩,
    fun hrun => ⟨fun f hf => ?freezes, fun hrq => ⟨fun hlate hearly => ?nothing, fun f n hf hdue harr hd hn => ?written⟩,
      fun hfroz hlen va hva => exec_lateReply hrun hfroz hlen hva, exec_lateReply_early,
      fun h => ⟨_, exec_tokenDeadlock hrun h, tokenWord_high _, fun f hf => tokenWord_count _ hf⟩, exec_tokenDeadlock_early⟩⟩
  case arrives =>
    refine coreBecomes_of ((exec_replyArrival hsh hf harr hl).trans ?_)
    rw [lateEnds_of_not_late]
    rw [core_setCore_same]
    exact hlate
  case arrivesLate =>
    subst hnil hnil'
    exact coreBecomes_of (exec_replyArrival_late hsh hf harr hlate hrq hdue hd hn)
  case freezes => exact coreBecomes_of (exec_lateReplyFreeze_late hrun (lateVa_absent hf))
  case nothing =>
    have hl : lateVa (s.core k) = none := lateVa_eq_none (fun f hf => replyAbsent_of_early (hearly f hf)) hrq
    refine coreBecomes_of ((exec_lateReplyFreeze_none hrun hl).trans ?_)
    rw [if_pos hlate, landMain_of_early hearly]
  case written =>
    have hl : lateVa (s.core k) = none := lateVa_single_arrived hf harr hrq
    refine coreBecomes_of ((exec_lateReplyFreeze_none hrun hl).trans ?_)
    by_cases hlate : (s.core k).freeze.late = none
    · rw [if_pos hlate, if_pos hlate, landMain_single_x hf hdue harr hd hn]
      rfl
    · rw [if_neg hlate, if_neg hlate, lateEnds_single_x hlate hrq hf hdue harr hd hn]
      rfl

/-! ### Corrected errors -/

/-- A partition with one more correctable event, in a count of 32 bits that stays at its end. -/
def eccCounted (p : Part) : Part := { p with evB0 := if p.evB0 = 0xFFFFFFFF then 0xFFFFFFFF else p.evB0 + 1 }

/-- The clock cycle in which the freeze of a corrected error ends: where one holds the core already, the later of the two. -/
def eccUntil (c : Core) (clock : Nat) : Nat := (c.freeze.ecc.map fun u => max u (clock + 16)).getD (clock + 16)

section
variable {s : State} {k : Nat}

theorem eccLog_eq (s : State) (pn : Nat) : eccLog s pn = s.setPart pn (eccCounted (s.part pn)) := by
  unfold eccLog eccCounted
  dsimp only
  split
  · next h => rw [h]
  · rfl

/-- A corrected error of a partition's share is counted for it. -/
theorem exec_eccCorrected_share (s : State) (pn : Nat) :
    exec (.eccCorrected (.share pn)) s = .next (s.setPart pn (eccCounted (s.part pn))) := by
  rw [← eccLog_eq]
  rfl

/-- Core `c` frozen for a corrected error. -/
def eccFrozen (c : Core) (clock : Nat) : Core := { c with freeze := { c.freeze with ecc := some (eccUntil c clock) } }

/-- One of a core freezes the core, and is counted for its partition. -/
theorem exec_eccCorrected_core (s : State) (k : Nat) : exec (.eccCorrected (.core k)) s
    = .next ((s.setCore k (eccFrozen (s.core k) s.clock)).setPart (partOfCore s k) (eccCounted (s.part (partOfCore s k)))) := by
  show Host.Outcome.next (eccEvent s k none) = _
  unfold eccEvent eccFrozen eccUntil
  dsimp only
  rw [eccLog_eq]
  cases (s.core k).freeze.ecc <;> rfl

theorem eccUntil_ge (c : Core) (clock : Nat) : clock + 16 ≤ eccUntil c clock := by
  unfold eccUntil
  cases c.freeze.ecc with
  | none => exact Nat.le_refl _
  | some u => exact Nat.le_max_right _ _

theorem eccUntil_cases (c : Core) (clock : Nat) : eccUntil c clock = clock + 16 ∨ c.freeze.ecc = some (eccUntil c clock) := by
  unfold eccUntil
  cases c.freeze.ecc with
  | none => exact .inl rfl
  | some u =>
    rcases Nat.le_total u (clock + 16) with h | h
    · exact .inl (Nat.max_eq_right h)
    · exact .inr (congrArg some (Nat.max_eq_left h).symm)

theorem le_eccUntil {c : Core} {w : Nat} (h : c.freeze.ecc = some w) (clock : Nat) : w ≤ eccUntil c clock := by
  rw [eccUntil, h]
  exact Nat.le_max_left _ _

theorem exec_eccFreezeEnd_due {u : Nat} (h : (s.core k).freeze.ecc = some u) (hu : u ≤ s.clock) : exec (.eccFreezeEnd k) s
    = .next (s.setCore k (Claims.unfrozen (s.core k) { (s.core k).freeze with ecc := none } s.clock)) := by
  show execEccFreezeEnd k s = _
  simp only [execEccFreezeEnd, h, thaw_eq_unfrozen]
  rw [if_pos hu]

theorem exec_eccFreezeEnd_early {u : Nat} (h : (s.core k).freeze.ecc = some u) (hu : s.clock < u) : Idle (.eccFreezeEnd k) s := by
  show execEccFreezeEnd k s = _
  simp only [execEccFreezeEnd, h]
  rw [if_neg (by omega)]

end

/-! ### The injection register (05_ap_model.md R110) -/

theorem ofNat_wbits {n : Nat} (v : BitVec n) (lo len : Nat) : BitVec.ofNat len (wbits v lo len) = v.extractLsb' lo len := by
  apply BitVec.eq_of_toNat_eq
  rw [BitVec.extractLsb'_toNat, BitVec.toNat_ofNat, wbits, nbits, Nat.mod_mod]

theorem wbits_one_beq {n : Nat} (v : BitVec n) (lo : Nat) : (wbits v lo 1 == 1) = v.getLsbD lo := by
  rw [wbits, nbits, BitVec.getLsbD, Nat.testBit, Nat.one_and_eq_mod_two]
  rcases Nat.mod_two_eq_zero_or_one (v.toNat >>> lo) with h | h <;> simp [h]

theorem exec_eccinjArm (s : State) (k : Nat) {v : Word} (h : v.toNat % 2 = 0 ∨ v.toNat / 2 % 4 < 2) :
    exec (.eccinjArm k v) s = .next (s.setCore k { s.core k with sys := { (s.core k).sys with
      injArm := v.getLsbD 0, injKind := v.extractLsb' 1 2, injAddr := v.extractLsb' 3 61 } }) := by
  have hok : ¬ sysBad 0x020 v = true := by
    simp only [sysBad, wbits_eq_div_mod, Bool.and_eq_true, beq_iff_eq, decide_eq_true_eq]
    omega
  show execEccinjArm k v s = _
  simp only [execEccinjArm, sysWrite, ofNat_wbits, wbits_one_beq]
  rw [if_neg hok]

theorem correctedErrors : Claims.CorrectedErrors := by
  intro s k v c
  refine ⟨⟨_, exec_eccCorrected_core s k, fun _ => rfl, ⟨eccUntil c s.clock, ?frozen, eccUntil_ge _ _, eccUntil_cases _ _,
      fun w hw => le_eccUntil hw _⟩, fun j hj => core_setCore_ne s _ hj, fun p hp => part_setPart_ne _ _ hp, part_setPart_same _ _ _⟩,
    fun pn => ⟨_, exec_eccCorrected_share s pn, part_setPart_same _ _ _, fun p hp => part_setPart_ne _ _ hp, rfl⟩,
    fun u hu => ⟨fun h => coreBecomes_of (exec_eccFreezeEnd_due hu h), exec_eccFreezeEnd_early hu⟩,
    fun h => coreBecomes_of (exec_eccinjArm s k h)⟩
  case frozen =>
    rw [core_setPart, core_setCore_same]
    rfl

/-- Settles O31: each step's effect on its core, put together: rows that are performed and enter their queues, replies that arrive and end a freeze, the
two watchdogs, and errors that are corrected. -/
theorem rowsAndReplies : Obligations.RowsAndReplies := ⟨queueRows, repliesAndWatchdogs, correctedErrors⟩

end Sys2Proof.Proofs

/-!
SUPPORT and the proofs of `ApIntegerWords` and `ApMultiplyDivide`: the encodings and classes of the register-register words, and the values that they
write (06_ap_instr.md R120, R121).
-/

namespace Sys2Proof.Proofs

open Sys2Proof.Machine Sys2Proof.Laws

/-! ### Words of the R form -/

/-- A word whose row of the decoder tests its lowest bit, X, is of the R form with X = 0. -/
theorem rForm_of_row {op : BitVec 7} {mk : Hdr → BitVec 5 → BitVec 5 → BitVec 5 → Instr}
    (hrow : ∀ w, (fld w 16 7).toNat = op.toNat → decodeAp w =
      if fld w 0 1 = 0 then mk (hdrOfWord w) (fld w 11 5) (fld w 6 5) (fld w 1 5) else .illegalField .ap w) : Claims.RForm op mk := by
  have fields (h : Hdr) (d a b : BitVec 5) (x : BitVec 1) : decodeAp (packWord h op (d ++ a ++ b ++ x)) =
      if x = 0 then mk h d a b else .illegalField .ap (packWord h op (d ++ a ++ b ++ x)) := by
    obtain ⟨hh, ho, hf⟩ := packWord_eq_iff.mp (rfl : packWord h op (d ++ a ++ b ++ x) = _)
    simp only [fld_eq_pieces, Nat.reduceAdd] at hf
    obtain ⟨⟨⟨hd, ha⟩, hb⟩, hx⟩ := hf
    rw [hrow _ ho, hh, hd, ha, hb, hx]
  exact fun h d a b => ⟨(fields h d a b 0).trans (if_pos rfl), (fields h d a b 1).trans (if_neg (by decide))⟩

/-- An AP word of class `cls` whose card forbids nothing checks its class in the two masks. -/
theorem inClass_of_apWord {cls : Nat} {mk : Hdr → BitVec 5 → BitVec 5 → BitVec 5 → Instr}
    (hexec : ∀ h d a b s, ∃ body, exec (mk h d a b) s = .next (apWord h { cls := cls } body s)) : Claims.InClass cls mk := by
  intro h d a b s hvs hmain hext
  obtain ⟨body, hb⟩ := hexec h d a b s
  have hctx : s.cur.ctx.ext = [] := by rw [ctx_of_main hmain]; exact hext
  have hvs' : ¬ 2 ≤ h.vs.toNat := by omega
  have hfault (c : Nat) (hc : apDecodeFault h { cls := cls } s.cur = some c) : exec (mk h d a b) s = .next (apFault s c none) := by
    rw [hb, apWord, hc]
  exact ⟨fun ho => hfault _ (by simp [apDecodeFault, hvs', hctx, hmain, ho]),
    fun ho hcm => hfault _ (by simp [apDecodeFault, hvs', hctx, hmain, ho, hcm])⟩

/-! ### The values -/

/-- A shift amount is the low six bits of its register. -/
theorem shiftAmount_eq (v : Word) : wbits v 0 6 = v.toNat % 64 := wbits_low v 6

theorem mulHi_eq (a b : Word) : mulHi a b = BitVec.ofInt 64 (a.toInt * b.toInt / 2 ^ 64) := by
  rw [mulHi, wordOfInt_eq, Int.fdiv_eq_ediv_of_nonneg _ (by decide)]

/-- Settles O1: each word's row of the decoder, its class, and its value, which `writes_apValue` sends to its register. -/
theorem apIntegerWords : Obligations.ApIntegerWords := by
  unfold Obligations.ApIntegerWords
  refine ⟨?forms, fun mk hmk => ?classes, fun h d a b s g => ?values⟩
  case forms =>
    refine ⟨?_, ?_, ?_, ?_, ?_, ?_, ?_, ?_, ?_, ?_, ?_, ?_, ?_, ?_⟩
    all_goals exact rForm_of_row fun w hw => by unfold decodeAp; rw [hw]; rfl
  case classes =>
    simp only [List.mem_cons, List.not_mem_nil, or_false] at hmk
    rcases hmk with rfl | rfl | rfl | rfl | rfl | rfl | rfl | rfl | rfl | rfl | rfl | rfl | rfl | rfl
    all_goals exact inClass_of_apWord fun _ _ _ _ _ => ⟨_, rfl⟩
  case values =>
    refine ⟨?_, ?_, ?_, ?_, ?_, ?_, ?_, ?_, ?_, ?_, ?_, ?_, ?_, ?_⟩
    all_goals exact writes_apValue rfl g (by simp only [xr_apPops, shiftAmount_eq, minS, maxS, minU, maxU])

/-- Settles O2: as O1, with the latencies of the products and of the division, and the two cases of the divisor. -/
theorem apMultiplyDivide : Obligations.ApMultiplyDivide := by
  unfold Obligations.ApMultiplyDivide
  refine ⟨?forms, fun mk hmk => ?classes, fun h d a b s g => ?values⟩
  case forms =>
    refine ⟨?_, ?_, ?_, ?_, ?_⟩
    all_goals exact rForm_of_row fun w hw => by unfold decodeAp; rw [hw]; rfl
  case classes =>
    simp only [List.mem_cons, List.not_mem_nil, or_false] at hmk
    rcases hmk with rfl | rfl | rfl | rfl | rfl
    all_goals exact inClass_of_apWord fun _ _ _ _ _ => ⟨_, rfl⟩
  case values =>
    refine ⟨writes_apValue rfl g (by simp only [xr_apPops]), writes_apValue rfl g (by simp only [xr_apPops, mulHi_eq]),
      writes_apValue rfl g (by simp only [xr_apPops, mulHiU, w64]), fun hb => ⟨?_, ?_⟩, fun hb => ⟨?_, ?_⟩⟩
    · exact writes_apValue rfl g (by simp only [xr_apPops, divU, if_neg hb, w64])
    · exact writes_apValue rfl g (by simp only [xr_apPops, remU, if_neg hb, w64])
    · exact writes_apValue rfl g (by simp only [xr_apPops, divU, if_pos hb]; rfl)
    · exact writes_apValue rfl g (by simp only [xr_apPops, remU, if_pos hb])

end Sys2Proof.Proofs

/-!
SUPPORT and the proofs of `ApBitAndImmediateWords` and `ApPredicates`: bit counts, extensions and fields of a register, assembled immediates, compares,
and the predicate file as a number (02_encoding.md R29, R30, 06_ap_instr.md R122-R128).
-/

namespace Sys2Proof.Proofs

open Sys2Proof.Machine Sys2Proof.Laws

/-! ### Cards that may forbid a word's fields -/

section
variable {i : Instr} {h : Hdr} {sp : ApSpec} {s : State} {card : Bool}

/-- A card that does not forbid the word's fields changes nothing of it. -/
theorem spec_of_card (g : ApGoes h sp s) (hcard : card = false) : ({ sp with bad := card } : ApSpec) = sp := by
  have hbad := g.card
  cases sp
  simp_all

theorem writes_apValue_card {lat : Nat} {d : BitVec 5} {f : State → Word} {v : Word}
    (hi : exec i s = .next (apValue h { sp with bad := card } lat d f s)) (g : ApGoes h sp s) (hcard : card = false)
    (hv : f (apPops h s) = v) : Writes i h sp s lat (xDst d) v :=
  writes_apValue (by rw [hi, spec_of_card g hcard]) g hv

end

/-! ### Counts of bits -/

theorem popcount_eq_countP (n v : Nat) : popcount n v = (List.range n).countP fun k => v.testBit k := by
  induction n generalizing v with
  | zero => rfl
  | succ n ih =>
    have hbit (k : Nat) : v.testBit (k + 1) = (v / 2).testBit k := Nat.testBit_succ v k
    rw [popcount, ih, List.range_succ_eq_map, List.countP_cons, List.countP_map, Nat.add_comm]
    congr 1
    · simp only [Function.comp_def, Nat.succ_eq_add_one, hbit]
    · rw [Nat.testBit_zero]
      rcases Nat.mod_two_eq_zero_or_one v with h | h <;> simp [h]

/-- The leading zeros of a word, by the place of its highest bit. -/
theorem clz_spec (v : Word) : clzNat 64 v.toNat ≤ 64 ∧ (v = 0 → clzNat 64 v.toNat = 64)
    ∧ (v ≠ 0 → 2 ^ (63 - clzNat 64 v.toNat) ≤ v.toNat ∧ v.toNat < 2 ^ (64 - clzNat 64 v.toNat)) := by
  by_cases hv : v = 0
  · subst hv
    decide
  · have hn : v.toNat ≠ 0 := fun e => hv (BitVec.eq_of_toNat_eq e)
    have hlog : Nat.log2 v.toNat < 64 := (Nat.log2_lt hn).mpr v.isLt
    have hclz : clzNat 64 v.toNat = 63 - Nat.log2 v.toNat := by rw [clzNat, if_neg hn]
    rw [hclz, show 63 - (63 - Nat.log2 v.toNat) = Nat.log2 v.toNat by omega,
      show 64 - (63 - Nat.log2 v.toNat) = Nat.log2 v.toNat + 1 by omega]
    exact ⟨by omega, fun e => absurd e hv, fun _ => ⟨Nat.log2_self_le hn, Nat.lt_log2_self⟩⟩

/-! ### Extensions and bit fields -/

theorem sextN_eq (v : Word) (n : Nat) : sextN v n = (v.setWidth n).signExtend 64 := by
  rw [sextN, wordOfInt_sint, BitVec.ofNat_toNat]

theorem zextN_eq (v : Word) (n : Nat) : zextN v n = (v.setWidth n).zeroExtend 64 := by
  apply BitVec.eq_of_toNat_eq
  simp [zextN, w64]

theorem bfPos_eq (v : Word) : bfPos v = v.toNat % 64 := wbits_low v 6

theorem bfLen_eq (v : Word) : bfLen v = v.toNat / 256 % 64 + 1 := by
  rw [bfLen, wbits_eq_div_mod]
  rfl

/-- A field of at most 64 bits, sign-extended, is the one that `bfxS` extracts. -/
theorem sextN_bfField (x v : Word) : sextN (w64 (bfField x v)) (bfLen v) = (BitVec.ofNat (bfLen v) (bfField x v)).signExtend 64 := by
  have hlen : bfLen v ≤ 64 := by rw [bfLen_eq]; omega
  rw [sextN_eq, w64, BitVec.setWidth_ofNat_of_le hlen]

/-- The bits of a word that `bfi` has given a field. -/
theorem getLsbD_bfInsert (d x v : Word) {k : Nat} (hk : k < 64) : (bfInsert d x v).getLsbD k =
    if bfPos v ≤ k ∧ k < bfPos v + bfLen v then x.getLsbD (k - bfPos v) else d.getLsbD k := by
  have hmask : (w64 ((2 ^ bfLen v - 1) * 2 ^ bfPos v)).getLsbD k = decide (bfPos v ≤ k ∧ k < bfPos v + bfLen v) := by
    rw [w64, BitVec.getLsbD_ofNat, Nat.testBit_mul_two_pow, Nat.testBit_two_pow_sub_one, Bool.eq_iff_iff]
    simp only [hk, decide_true, Bool.true_and, Bool.and_eq_true, decide_eq_true_eq]
    omega
  unfold bfInsert
  simp only [BitVec.getLsbD_or, BitVec.getLsbD_and, BitVec.getLsbD_not, BitVec.getLsbD_shiftLeft, hk, hmask]
  split
  · next hin => simp [hin, Nat.not_lt.mpr hin.1]
  · next hout => simp [hout]

theorem apBitWords : Claims.ApBitWords := by
  intro h d a b n s g w pos len field
  have hpos : bfPos (xr s b) = pos := bfPos_eq _
  have hlen : bfLen (xr s b) = len := bfLen_eq _
  have hfield : bfField (xr s a) (xr s b) = field := by rw [bfField, hpos, hlen]
  obtain ⟨hclz, hclz0, hclz1⟩ := clz_spec (xr s a)
  refine ⟨⟨_, writes_apValue rfl g (by simp only [xr_apPops, w64]), hclz, hclz0, hclz1⟩,
    writes_apValue rfl g ?popc, writes_apValue rfl g ?lea, writes_apValue rfl g ?leaD, writes_apValue rfl g ?sext,
    writes_apValue rfl g ?zext, writes_apValue rfl g ?bfx, writes_apValue rfl g ?bfxS, ⟨_, writes_apValue rfl g rfl, fun k hk => ?bfi⟩⟩
  case popc => simp only [xr_apPops, w64, popcount_eq_countP]; rfl
  case lea | leaD => simp only [xr_apPops]
  case sext => simp only [xr_apPops, sextN_eq]
  case zext => simp only [xr_apPops, zextN_eq]
  case bfx => simp only [xr_apPops, hfield, w64]
  case bfxS => rw [xr_apPops, xr_apPops, sextN_bfField, hfield, hlen]
  case bfi => simp only [xr_apPops, getLsbD_bfInsert _ _ _ hk, hpos, hlen]

/-! ### Assembled immediates -/

/-- The sign of an assembled immediate is its top assembled bit (02_encoding.md R30). -/
theorem immW_eq {n : Nat} (s : State) (i : BitVec n) :
    immW s i = (BitVec.ofNat (n + 16 * s.cur.ctx.ext.length) (Claims.immediateBits s i)).signExtend 64 :=
  wordOfInt_sint _ _

theorem immU_eq {n : Nat} (s : State) (i : BitVec n) : immU s i = Claims.immediateBits s i := rfl

theorem apImmediateWords : Claims.ApImmediateWords := by
  intro h d a i j s g w e im n
  have him : immW s i = im := immW_eq s i
  refine ⟨writes_apValue rfl g ?_, writes_apValue rfl g ?_, writes_apValue rfl g ?_, writes_apValue rfl g ?_,
    fun hn => ⟨?shl, ?shr, ?sra⟩, writes_apValue rfl g ?movi⟩
  case shl | shr | sra =>
    have hcard : decide (63 < immU s i) = false := decide_eq_false (by rw [immU_eq]; omega)
    exact writes_apValue_card rfl g hcard (by rw [xr_apPops, immU_apPops, immU_eq])
  case movi => rw [immW_apPops, immW_eq]
  all_goals simp only [xr_apPops, immW_apPops, him]

/-- Settles O3: the bit words by the meaning of each helper as a bit vector, the immediate words by that of the assembled immediate. -/
theorem apBitAndImmediateWords : Obligations.ApBitAndImmediateWords := ⟨apBitWords, apImmediateWords⟩

/-! ### The predicate file as a number -/

theorem pfBits_lt (s : State) : pfBits s < 256 := chunks_lt 1 _ 8

/-- Bit k of it is p[k]. -/
theorem getLsbD_pfBits (s : State) (k : BitVec 3) : (w64 (pfBits s)).getLsbD k.toNat = pr s k := by
  have hlt : (w64 (pfBits s)).toNat = pfBits s := Nat.mod_eq_of_lt (Nat.lt_trans (pfBits_lt s) (by decide))
  have hbit := nbits_chunks 1 (fun k => if pr s (BitVec.ofNat 3 k) then 1 else 0) (n := 8) k.isLt
  rw [Nat.one_mul] at hbit
  rw [← wbits_one_beq, wbits, hlt, pfBits, hbit]
  cases hp : pr s k <;> simp [hp]

theorem apPredicateWords : Claims.ApPredicateWords := by
  intro h d a b p q r s g w x y f
  refine ⟨writes_apPred rfl g ?_, writes_apPred rfl g ?_, writes_apPred rfl g ?_, writes_apPred rfl g ?_, writes_apPred rfl g ?_,
    writes_apPred rfl g ?_, writes_apPred rfl g ?_, writes_apPred rfl g ?_, writes_apPred rfl g ?_, writes_apPred rfl g ?_,
    writes_apPred rfl g ?_, writes_apPred rfl g ?_, writes_apPred rfl g ?equal, writes_apPred rfl g ?_, ⟨_, writes_apValue rfl g rfl, ?file⟩,
    writes_result rfl g ?toFile⟩
  case equal =>
    rw [pr_apPops, pr_apPops]
    cases pr s q <;> cases pr s r <;> rfl
  case file =>
    rw [pfBits_apPops]
    exact ⟨Nat.lt_of_le_of_lt (Nat.mod_le _ _) (pfBits_lt s), getLsbD_pfBits s⟩
  case toFile => rw [xr_apPops]
  all_goals simp only [xr_apPops, pr_apPops]; rfl

theorem apCompareImmediate : Claims.ApCompareImmediate := by
  intro h p a i s g w x im
  have him : immW s i = im := immW_eq s i
  refine ⟨writes_apPred rfl g ?_, writes_apPred rfl g ?_, writes_apPred rfl g ?_, writes_apPred rfl g ?_⟩
  all_goals simp only [xr_apPops, immW_apPops, him]; rfl

/-- Settles O4: each condition and function of two predicates by its code; the predicate file is read bit by bit. -/
theorem apPredicates : Obligations.ApPredicates := ⟨apPredicateWords, apCompareImmediate⟩

end Sys2Proof.Proofs

/-!
SUPPORT. Words that change their context and, besides, parts of their core that no context holds: what the pops of a word have to do with it.
-/

namespace Sys2Proof.Proofs

open Sys2Proof.Machine Sys2Proof.Laws

/-! ### Changes of a core aside from its contexts -/

/-- A change of a core that neither looks at its two contexts and its tokens nor changes them, the handler's delivery or the cycle count. -/
structure Aside (f : Core → Core) : Prop where
  apart : ∀ c m sh tok, f { c with main := m, shadow := sh, tok := tok } = { f c with main := m, shadow := sh, tok := tok }
  hnd : ∀ c, (f c).hnd = c.hnd
  cycle : ∀ c, (f c).cycle = c.cycle

section
variable {f : Core → Core} (hf : Aside f)
include hf

theorem Aside.main (c : Core) : (f c).main = c.main := by
  have happart := congrArg Core.main (hf.apart c c.main c.shadow c.tok)
  exact happart
theorem Aside.shadow (c : Core) : (f c).shadow = c.shadow := by
  have happart := congrArg Core.shadow (hf.apart c c.main c.shadow c.tok)
  exact happart
theorem Aside.tok (c : Core) : (f c).tok = c.tok := by
  have happart := congrArg Core.tok (hf.apart c c.main c.shadow c.tok)
  exact happart

theorem Aside.inHandler (c : Core) : (f c).inHandler = c.inHandler := by
  unfold Core.inHandler
  rw [hf.hnd]

theorem Aside.apWords (c : Core) : (f c).apWords = c.apWords := by
  unfold Core.apWords
  rw [hf.inHandler]

theorem Aside.setCtx (c : Core) (x : ApCtx) : f (c.setCtx x) = (f c).setCtx x := by
  unfold Core.setCtx
  rw [hf.inHandler]
  split
  · refine (hf.apart c c.main x c.tok).trans ?_
    rw [← hf.main c, ← hf.tok c]
  · refine (hf.apart c x c.shadow c.tok).trans ?_
    rw [← hf.shadow c, ← hf.tok c]

theorem Aside.poppedTok (h : Hdr) (old c : Core) : f (poppedTok h old c) = Laws.poppedTok h old (f c) := by
  refine (hf.apart c c.main c.shadow _).trans ?_
  unfold Laws.poppedTok takePops
  rw [← hf.main c, ← hf.shadow c, hf.tok c]

/-- It commutes with the pops of a word. -/
theorem Aside.popCore (h : Hdr) (c : Core) : f (popCore h c) = (Laws.poppedTok h c (f c)).setCtx { c.ctx with popped := true } := by
  rw [popCore_eq, hf.setCtx, hf.poppedTok]

end

/-! ### Marks of the pops -/

theorem goto_popped (x : ApCtx) (lim : Nat) (t : Word) :
    ({ x with popped := true } : ApCtx).goto lim t = { x.goto lim t with popped := true } := by
  unfold ApCtx.goto
  split <;> rfl

theorem apTime_modCur {f : Core → Core} (hf : Aside f) (s : State) : apTime (s.modCur f) = apTime s :=
  apTime_ofCur (ofCur_modCur s f) (by rw [cur_modCur, hf.inHandler]) (by rw [cur_modCur, hf.cycle])

theorem apTime_modCtx (s : State) (f : ApCtx → ApCtx) : apTime (s.modCtx f) = apTime s := by
  refine apTime_ofCur (ofCur_modCtx s f) (by rw [cur_modCtx, inHandler_setCtx]) ?_
  rw [cur_modCtx]
  unfold Core.setCtx
  split <;> rfl

/-! ### The words -/

section
variable {i : Instr} {h : Hdr} {sp : ApSpec} {s : State} {body : State → Res} {off : State → State} {card : Bool}
  {f : Core → Core} {k : ApCtx → ApCtx} {y : ApCtx}

/-- A word whose card does not forbid its fields. -/
theorem exec_of_card (hi : exec i s = .next (apWord h { sp with bad := card } body s off)) (g : ApGoes h sp s) (hcard : card = false) :
    exec i s = .next (apWord h sp body s off) := by
  rw [hi, spec_of_card g hcard]

theorem cur_apPops_modCtx (hy : k { s.cur.ctx with popped := true } = { y with popped := true }) :
    ((apPops h s).modCtx k).cur = (poppedTok h s.cur s.cur).setCtx { y with popped := true } := by
  rw [cur_modCtx, cur_apPops, ctx_popCore, popCore_eq, setCtx_setCtx, hy]

/-- A word that changes its context by `k`, which leaves `y` of it. -/
theorem wordRuns_modCtx (hi : exec i s = .next (apWord h sp body s off)) (g : ApGoes h sp s)
    (hb : body (apPops h s) = .done ((apPops h s).modCtx k)) (hy : k { s.cur.ctx with popped := true } = { y with popped := true }) :
    WordRuns i h sp s s.cur (y.advance s.cur.apWords) :=
  wordRuns_done hi g hb (ofCur_modCtx _ _) (cur_apPops_modCtx hy)

/-- The same for a word that sets the pc itself. -/
theorem wordRuns_jump_modCtx (hi : exec i s = .next (apWord h sp body s off)) (g : ApGoes h sp s)
    (hb : body (apPops h s) = .jump ((apPops h s).modCtx k)) (hy : k { s.cur.ctx with popped := true } = { y with popped := true }) :
    WordRuns i h sp s s.cur y :=
  wordRuns_jump hi g hb (ofCur_modCtx _ _) (cur_apPops_modCtx hy)

/-- A word that does nothing of its own. -/
theorem wordRuns_plain (hi : exec i s = .next (apWord h sp body s off)) (g : ApGoes h sp s) (hb : body (apPops h s) = .done (apPops h s)) :
    WordRuns i h sp s s.cur (s.cur.ctx.advance s.cur.apWords) :=
  wordRuns_done hi g hb (.refl _) ((cur_apPops h s).trans (popCore_eq h s.cur))

/-- A word that changes its core aside from the contexts. -/
theorem wordRuns_modCur (hf : Aside f) (hi : exec i s = .next (apWord h sp body s off)) (g : ApGoes h sp s)
    (hb : body (apPops h s) = .done ((apPops h s).modCur f)) : WordRuns i h sp s (f s.cur) (s.cur.ctx.advance s.cur.apWords) := by
  rw [← hf.apWords s.cur]
  exact wordRuns_done hi g hb (ofCur_modCur _ _) (by rw [cur_modCur, cur_apPops, hf.popCore])

/-- Such a change, then one result. -/
theorem gets_modCur (hf : Aside f) (lat : Nat) (d : Option ApDst) (v : Word) :
    ((apPops h s).modCur f).cur.setCtx (((apPops h s).modCur f).cur.ctx.gets (apTime ((apPops h s).modCur f) + lat) d v)
      = (poppedTok h s.cur (f s.cur)).setCtx { s.cur.ctx.gets (apTime s + lat) d v with popped := true } := by
  rw [apTime_modCur hf, apTime_apPops, cur_modCur, cur_apPops, hf.popCore, ctx_setCtx, setCtx_setCtx, gets_popped]

/-- The checker's copy of what a word sends is right. -/
theorem chkBad_apPops (g : ApGoes h sp s) : ((sp.mem || sp.cmd || sp.sends) && (apPops h s).cur.chkBad) = false := by
  cases hs : sp.mem || sp.cmd || sp.sends with
  | false => rfl
  | true =>
    have hbad := g.copy (by simpa [or_assoc] using hs)
    rw [cur_apPops]
    unfold popCore Core.setCtx
    split
    · exact hbad
    · split <;> exact hbad

/-- What is left once the effect of a word has ended; `s` is the state with its pops taken. -/
def wordEnds (h : Hdr) (sp : ApSpec) (s : State) : Res → State
  | .done t => apAdvance (apFinish h sp t)
  | .jump t => apFinish h sp t
  | .leave t => t
  | .stall w t => apStall w t
  | .trap c f => apFault s c f

theorem apWord_goes (g : ApGoes h sp s) : apWord h sp body s off = wordEnds h sp (apPops h s) (body (apPops h s)) := by
  unfold apWord
  simp only [apDecode_none g, g.guard, Bool.true_or, apWait_none g]
  rw [if_neg (by decide), if_neg (by rw [chkBad_apPops g]; decide)]
  rfl

theorem exec_of_body {r : Res} (hi : exec i s = .next (apWord h sp body s off)) (g : ApGoes h sp s) (hb : body (apPops h s) = r) :
    exec i s = .next (wordEnds h sp (apPops h s) r) := by
  rw [hi, apWord_goes g, hb]

end

end Sys2Proof.Proofs

/-!
SUPPORT and the proof of `ApBranches`: which loops are examined at a word and in which order, where the pc goes, and what a branch word and the fetch of
a bad target do (05_ap_model.md R114-R116, 06_ap_instr.md R129-R131).
-/

namespace Sys2Proof.Proofs

open Sys2Proof.Machine Sys2Proof.Laws

/-! ### The loops that end at a word -/

/-- Loop register `k` of `m`. -/
def loopAt (m : SMap Loop) (k : Nat) : Loop := smGet ⟨0, 0, 0⟩ m k

/-- Loop `k` of `m` is active and ends at `pc`. -/
def EndsAt (m : SMap Loop) (pc k : Nat) : Prop := (loopAt m k).count ≠ 0 ∧ (loopAt m k).stop.toNat = pc

theorem loopInsert_perm (m : SMap Loop) (n : Nat) (l : List Nat) : (loopInsert m n l).Perm (n :: l) := by
  induction l with
  | nil => exact .refl _
  | cons k ks ih =>
    unfold loopInsert
    split
    · exact .refl _
    · exact (ih.cons k).trans (.swap n k ks)

/-- `l` lists loops by their START, the larger first. -/
def Innermost (m : SMap Loop) (l : List Nat) : Prop := l.Pairwise fun i j => (loopAt m j).start ≤ (loopAt m i).start

theorem innermost_loopInsert {m : SMap Loop} {l : List Nat} (n : Nat) (h : Innermost m l) : Innermost m (loopInsert m n l) := by
  induction l with
  | nil => exact List.pairwise_singleton _ _
  | cons k ks ih =>
    obtain ⟨hk, hks⟩ := List.pairwise_cons.mp h
    unfold loopInsert
    split
    · next hlt =>
      have hlt' : (loopAt m k).start < (loopAt m n).start := hlt
      refine List.pairwise_cons.mpr ⟨fun j hj => ?_, h⟩
      rcases List.mem_cons.mp hj with rfl | hj
      · exact BitVec.le_of_lt hlt'
      · exact BitVec.le_trans (hk j hj) (BitVec.le_of_lt hlt')
    · next hge =>
      have hge' : (loopAt m n).start ≤ (loopAt m k).start := BitVec.not_lt.mp hge
      refine List.pairwise_cons.mpr ⟨fun j hj => ?_, ih hks⟩
      rcases List.mem_cons.mp ((loopInsert_perm m n ks).mem_iff.mp hj) with rfl | hj
      · exact hge'
      · exact hk j hj

/-- One step of the collection of the loops that end at `pc`. -/
def collectLoop (m : SMap Loop) (pc : Nat) (l : List Nat) (n : Nat) : List Nat :=
  if (loopAt m n).count ≠ 0 ∧ (loopAt m n).stop.toNat = pc then loopInsert m n l else l

theorem loopsAt_eq_foldl (m : SMap Loop) (pc : Nat) : loopsAt m pc = [0, 1, 2, 3].foldl (collectLoop m pc) [] := rfl

theorem collected {m : SMap Loop} {pc : Nat} (ns : List Nat) {l : List Nat} (h : Innermost m l) :
    Innermost m (ns.foldl (collectLoop m pc) l) ∧ ∀ k, k ∈ ns.foldl (collectLoop m pc) l ↔ k ∈ l ∨ (k ∈ ns ∧ EndsAt m pc k) := by
  induction ns generalizing l with
  | nil => exact ⟨h, fun k => by simp⟩
  | cons n ns ih =>
    have hstep : Innermost m (collectLoop m pc l n) ∧ ∀ k, k ∈ collectLoop m pc l n ↔ k ∈ l ∨ (k = n ∧ EndsAt m pc k) := by
      unfold collectLoop
      split
      · next he =>
        refine ⟨innermost_loopInsert n h, fun k => ?_⟩
        rw [(loopInsert_perm m n l).mem_iff, List.mem_cons, or_comm]
        exact or_congr_right ⟨fun hk => ⟨hk, hk ▸ he⟩, fun hk => hk.1⟩
      · next he => exact ⟨h, fun k => ⟨.inl, fun hk => hk.resolve_right fun hn => he (hn.1 ▸ hn.2)⟩⟩
    obtain ⟨hsorted, hmem⟩ := ih hstep.1
    refine ⟨hsorted, fun k => ?_⟩
    rw [List.foldl_cons, hmem, hstep.2, List.mem_cons]
    tauto

theorem innermost_loopsAt (m : SMap Loop) (pc : Nat) : Innermost m (loopsAt m pc) :=
  (collected (m := m) (pc := pc) [0, 1, 2, 3] List.Pairwise.nil).1

theorem mem_loopsAt (m : SMap Loop) (pc k : Nat) : k ∈ loopsAt m pc ↔ k < 4 ∧ EndsAt m pc k := by
  rw [loopsAt_eq_foldl, (collected (m := m) (pc := pc) [0, 1, 2, 3] List.Pairwise.nil).2]
  have h4 : k ∈ [0, 1, 2, 3] ↔ k < 4 := by
    simp only [List.mem_cons, List.not_mem_nil, or_false]
    omega
  rw [h4]
  simp

theorem loopsAt_eq_nil {m : SMap Loop} {pc : Nat} (h : ∀ k < 4, ¬ EndsAt m pc k) : loopsAt m pc = [] :=
  List.eq_nil_iff_forall_not_mem.mpr fun k hk => h k ((mem_loopsAt m pc k).mp hk).1 ((mem_loopsAt m pc k).mp hk).2

/-! ### The examination -/

/-- A loop in its last pass, or ended. -/
def LastPass (m : SMap Loop) (k : Nat) : Prop := ¬ 1 < (loopAt m k).count.toNat

/-- The loops of a list end. -/
def endLoops (l : List Nat) (m : SMap Loop) : SMap Loop := l.foldl (fun m n => smPut m n { loopAt m n with count := 0 }) m

theorem loopAt_put_same (m : SMap Loop) (k : Nat) (e : Loop) : loopAt (smPut m k e) k = e := smGet_put_same _ _ _ _

theorem loopAt_put_ne (m : SMap Loop) {k j : Nat} (e : Loop) (h : j ≠ k) : loopAt (smPut m k e) j = loopAt m j := smGet_put_ne _ _ _ h

theorem loopAt_endLoops (l : List Nat) (m : SMap Loop) (k : Nat) :
    loopAt (endLoops l m) k = if k ∈ l then { loopAt m k with count := 0 } else loopAt m k := by
  induction l generalizing m with
  | nil => rfl
  | cons n l ih =>
    show loopAt (endLoops l (smPut m n { loopAt m n with count := 0 })) k = _
    rw [ih]
    by_cases hn : k = n
    · subst hn
      simp [loopAt_put_same]
    · simp [loopAt_put_ne _ _ hn, hn]

/-- Loops in their last pass end, and the examination goes on behind them. -/
theorem loopRun_append (l r : List Nat) (m : SMap Loop) (h : ∀ k ∈ l, LastPass m k) : loopRun (l ++ r) m = loopRun r (endLoops l m) := by
  induction l generalizing m with
  | nil => rfl
  | cons n l ih =>
    have hrun : loopRun (n :: l ++ r) m = loopRun (l ++ r) (smPut m n { loopAt m n with count := 0 }) := if_neg (h n List.mem_cons_self)
    rw [hrun, ih]
    · rfl
    · intro k hk
      unfold LastPass
      by_cases hn : k = n
      · subst hn
        rw [loopAt_put_same]
        exact Nat.not_lt.mpr (Nat.zero_le 1)
      · rw [loopAt_put_ne _ _ hn]
        exact h k (List.mem_cons_of_mem n hk)

/-- Every loop that ends here is in its last pass. -/
theorem loopRun_of_last {l : List Nat} {m : SMap Loop} (h : ∀ k ∈ l, LastPass m k) : loopRun l m = (endLoops l m, none) := by
  have hrun := loopRun_append l [] m h
  rw [List.append_nil] at hrun
  exact hrun

/-- The first loop that has passes left goes back. -/
theorem loopRun_back {l r : List Nat} {m : SMap Loop} {n : Nat} (h : ∀ k ∈ l, LastPass m k) (hl : n ∉ l) (hn : 1 < (loopAt m n).count.toNat) :
    loopRun (l ++ n :: r) m
      = (smPut (endLoops l m) n { loopAt m n with count := (loopAt m n).count - 1 }, some (loopAt m n).start) := by
  have hsame : smGet ⟨0, 0, 0⟩ (endLoops l m) n = loopAt m n := (loopAt_endLoops l m n).trans (if_neg hl)
  rw [loopRun_append l _ m h]
  unfold loopRun
  rw [hsame]
  exact if_pos hn

/-! ### The pc after a word (R114-R116) -/

section
variable {x : ApCtx} {lim : Nat} {m : SMap Loop} {b : Br}

theorem advance_delay (hb : x.br = some b) (hl : 1 < b.left) :
    x.advance lim = ({ x with br := some ⟨b.left - 1, b.target⟩, via := false } : ApCtx).goto lim (w64 (x.pc.toNat + 1)) := by
  unfold ApCtx.advance
  rw [hb]
  exact if_neg (by omega)

theorem advance_transfer (hb : x.br = some b) (hl : b.left ≤ 1) :
    x.advance lim = ({ x with br := none, via := true } : ApCtx).goto lim b.target := by
  unfold ApCtx.advance
  rw [hb]
  exact if_pos hl

theorem advance_on (hb : x.br = none) (hr : loopRun (loopsAt x.loops x.pc.toNat) x.loops = (m, none)) :
    x.advance lim = ({ x with loops := m, via := false } : ApCtx).goto lim (w64 (x.pc.toNat + 1)) := by
  unfold ApCtx.advance
  rw [hb, hr]

theorem advance_back {st : BitVec 14} (hb : x.br = none) (hr : loopRun (loopsAt x.loops x.pc.toNat) x.loops = (m, some st)) :
    x.advance lim = ({ x with loops := m, via := false } : ApCtx).goto lim (st.zeroExtend 64) := by
  unfold ApCtx.advance
  rw [hb, hr]

theorem loopRun_nil (h : loopsAt x.loops x.pc.toNat = []) : loopRun (loopsAt x.loops x.pc.toNat) x.loops = (x.loops, none) := by
  rw [h]
  rfl

end

theorem lastPass_of_one {m : SMap Loop} {k : Nat} (h : (loopAt m k).count = 1) : LastPass m k := by
  unfold LastPass
  rw [h]
  decide

theorem pcSequence : Claims.PcSequence := by
  intro x lim loop here next
  have hmem (k : Nat) : k ∈ loopsAt x.loops x.pc.toNat ↔ here k := mem_loopsAt _ _ k
  refine ⟨fun b hb hl => advance_delay hb hl, fun b hb hl => advance_transfer hb hl, fun hb hnone => ?noLoop, fun hb hone => ?allEnd,
    fun n hb hn hcount hother => ?goesBack⟩
  case noLoop =>
    have hnil : loopsAt x.loops x.pc.toNat = [] := List.eq_nil_iff_forall_not_mem.mpr fun k hk => hnone k ((hmem k).mp hk)
    exact advance_on hb (loopRun_nil hnil)
  case allEnd =>
    have hlast : ∀ k ∈ loopsAt x.loops x.pc.toNat, LastPass x.loops k := fun k hk => lastPass_of_one (hone k ((hmem k).mp hk))
    refine ⟨_, advance_on hb (loopRun_of_last hlast), fun k => ⟨fun hk => ?_, fun hk => ?_⟩⟩
    · exact (loopAt_endLoops _ _ k).trans (if_pos ((hmem k).mpr hk))
    · exact (loopAt_endLoops _ _ k).trans (if_neg fun h => hk ((hmem k).mp h))
  case goesBack =>
    obtain ⟨inner, outer, hlist, hnot⟩ := List.eq_append_cons_of_mem ((hmem n).mpr hn)
    have hsorted : Innermost x.loops (inner ++ n :: outer) := hlist ▸ innermost_loopsAt x.loops x.pc.toNat
    obtain ⟨-, hright, hacross⟩ := List.pairwise_append.mp hsorted
    have hle : ∀ k ∈ inner, (loop n).start ≤ (loop k).start := fun k hk => hacross k hk n List.mem_cons_self
    have hge : ∀ k ∈ outer, (loop k).start ≤ (loop n).start := (List.pairwise_cons.mp hright).1
    have hhere : ∀ k ∈ inner, here k ∧ k ≠ n := fun k hk =>
      ⟨(hmem k).mp (hlist ▸ List.mem_append_left _ hk), fun e => hnot (e ▸ hk)⟩
    have hlt : ∀ k ∈ inner, (loop n).start < (loop k).start := fun k hk => by
      obtain ⟨hk', hne⟩ := hhere k hk
      exact BitVec.lt_of_le_ne (hle k hk) fun e => (hother k hk' hne).1 e.symm
    have hinner (k : Nat) (hk : k ≠ n) : k ∈ inner ↔ here k ∧ (loop n).start < (loop k).start := by
      refine ⟨fun h => ⟨(hhere k h).1, hlt k h⟩, fun h => ?_⟩
      have hin : k ∈ inner ++ n :: outer := hlist ▸ (hmem k).mpr h.1
      rcases List.mem_append.mp hin with hin | hin
      · exact hin
      · rcases List.mem_cons.mp hin with hin | hin
        · exact absurd hin hk
        · exact absurd (hge k hin) (BitVec.not_le.mpr h.2)
    have hlast : ∀ k ∈ inner, LastPass x.loops k := fun k hk =>
      lastPass_of_one ((hother k (hhere k hk).1 (hhere k hk).2).2 (hlt k hk))
    have hrun := loopRun_back (r := outer) hlast hnot hcount
    rw [← hlist] at hrun
    refine ⟨_, advance_back hb hrun, loopAt_put_same _ _ _, fun k hk => ⟨fun h => ?_, fun h => ?_⟩⟩
    · exact (loopAt_put_ne _ _ hk).trans ((loopAt_endLoops _ _ k).trans (if_pos ((hinner k hk).mpr h)))
    · exact (loopAt_put_ne _ _ hk).trans ((loopAt_endLoops _ _ k).trans (if_neg fun e => h ((hinner k hk).mp e)))

/-! ### Branch words (R129-R131) -/

/-- The note of a transfer in BRREC. -/
theorem aside_brrec (pc : BitVec 14) : Aside fun c => { c with sys := { c.sys with brrec := pc } } :=
  ⟨fun _ _ _ _ => rfl, fun _ => rfl, fun _ => rfl⟩

/-- The context of a `bxfer` at `pc` that is taken, once its link is on its way: the transfer to `t`, at once or after `d` delay words, no earlier
than cycle `hold`. -/
def branchCtx (lim hold : Nat) (pc : BitVec 14) (d : BitVec 2) (t : Word) (x : ApCtx) : ApCtx :=
  let y := { x with hold := hold, via := d == 0 }
  if d = 0 then y.goto lim t else ({ y with br := some ⟨d.toNat, t⟩ } : ApCtx).goto lim (pc.zeroExtend 64 + 1)

theorem branchCtx_popped (lim hold : Nat) (pc : BitVec 14) (d : BitVec 2) (t : Word) (x : ApCtx) :
    branchCtx lim hold pc d t { x with popped := true } = { branchCtx lim hold pc d t x with popped := true } := by
  unfold branchCtx
  split
  · exact goto_popped { x with hold := hold, via := d == 0 } _ _
  · exact goto_popped { x with hold := hold, via := d == 0, br := some ⟨d.toNat, t⟩ } _ _

theorem apTime_setX (s : State) (lat : Nat) (d : BitVec 5) (v : Word) : apTime (setX s lat d v) = apTime s := by
  unfold setX
  split
  · rfl
  · exact apTime_modCtx _ _

theorem apWords_setCtx (c : Core) (x : ApCtx) : (c.setCtx x).apWords = c.apWords := by
  unfold Core.apWords
  rw [inHandler_setCtx]

/-- A `bxfer` as its three parts: the link, the note in BRREC, the transfer. -/
theorem takeBranch_eq (n d : BitVec 2) (l : BitVec 5) (s : State) :
    takeBranch n d l s = ((setX s 1 l (s.cur.ctx.pc.zeroExtend 64 + 1 + d.zeroExtend 64)).modCur
      fun c => { c with sys := { c.sys with brrec := s.cur.ctx.pc } }).modCtx
        (branchCtx s.cur.apWords (apTime s + 3) s.cur.ctx.pc d (br s n)) := by
  have hf := aside_brrec s.cur.ctx.pc
  unfold takeBranch
  dsimp only
  rw [apTime_modCur hf, apTime_setX, cur_modCur, hf.apWords, cur_setX, apWords_setCtx]
  rfl

theorem apBranchWords : Claims.ApBranchWords := by
  intro h n d a l i s
  refine ⟨fun g => writes_result rfl g ?bprep, fun g => writes_result rfl g ?bset, fun g hbr => ?bxfer⟩
  case bprep => rw [immW_apPops, immW_eq, cur_apPops, ctx_popCore]
  case bset => rw [xr_apPops]
  case bxfer =>
    intro pc x y
    have hf := aside_brrec pc
    have hctx : (apPops h s).cur.ctx = { s.cur.ctx with popped := true } := by rw [cur_apPops, ctx_popCore]
    have hwords : (apPops h s).cur.apWords = s.cur.apWords := by
      unfold Core.apWords
      rw [cur_apPops, inHandler_popCore]
    refine wordRuns_jump (x := branchCtx s.cur.apWords (apTime s + 3) pc d (br s n) x) rfl g (t := takeBranch n d l (apPops h s)) ?_ ?_ ?_
    · rw [hctx, hbr]
      rfl
    · rw [takeBranch_eq]
      exact (ofCur_setX _ _ _ _).trans ((ofCur_modCur _ _).trans (ofCur_modCtx _ _))
    · rw [takeBranch_eq, cur_modCtx, cur_modCur, cur_setX, gets_apPops, hctx, hwords, apTime_apPops, br_apPops]
      rw [hf.setCtx, hf.poppedTok, ctx_setCtx, setCtx_setCtx]
      exact congrArg _ (branchCtx_popped _ _ _ _ _ x)

/-! ### Bad targets (R115) -/

theorem goto_inside {x : ApCtx} {lim : Nat} {t : Word} (h : t.toNat < lim) : x.goto lim t = { x with pc := BitVec.ofNat 14 t.toNat, bad := none } :=
  if_pos h

theorem goto_outside {x : ApCtx} {lim : Nat} {t : Word} (h : lim ≤ t.toNat) : x.goto lim t = { x with bad := some t } :=
  if_neg (Nat.not_lt.mpr h)

section
variable {s : State}

/-- The turn of an AP that runs. -/
theorem step_apTurn {t : State} (ha : s.agenda = []) (hp : s.turn.2 = Phase.ap) (hr : apRuns s = true) (ht : apIssue s = .next t) :
    step s = .next (apAfter s t) := by
  unfold step
  rw [ha]
  unfold turnStep
  rw [hp]
  dsimp only
  rw [if_pos hr, ht]
  rfl

theorem apIssue_bad {t : Word} (hm : s.cur.inHandler = false) (hbad : s.cur.main.bad = some t) (hc : s.cur.cycle ≥ s.cur.main.hold) :
    apIssue s = .next (endKernel s s.turn.1 0 (if s.cur.main.ext = [] then t.toNat else s.cur.main.extAt.toNat) 0x20 t) := by
  have htime : apTime s = s.cur.cycle := by simp [apTime, hm]
  unfold apIssue
  dsimp only
  rw [ctx_of_main hm, hbad, htime, hm]
  exact if_neg (by simp; omega)

theorem apIssue_badWord (hm : s.cur.inHandler = false) (hbad : s.cur.main.bad = none) (hvia : s.cur.main.via = true)
    (hw : apFetchWaits s = false) (hb : (Stream.ap, s.cur.main.pc.toNat) ∈ s.cur.imBad) :
    apIssue s = .next (apFault s 0xB5 (some (s.cur.main.pc.zeroExtend 64))) := by
  have himBad : apImBad s.cur = true := by simpa [apImBad, hm] using hb
  unfold apIssue
  dsimp only
  rw [ctx_of_main hm, hbad, hw, himBad, hvia]
  rfl

end

theorem badTargetFaultsAtFetch : Claims.BadTargetFaultsAtFetch := by
  intro x lim t s
  refine ⟨fun h => ?_, fun h => ?_, fun ha hp hr hm hbad _ hc => step_apTurn ha hp hr (apIssue_bad hm hbad hc),
    fun ha hp hr hm hbad hvia hw hb => step_apTurn ha hp hr (apIssue_badWord hm hbad hvia hw hb)⟩
  · rw [goto_inside h]
    exact ⟨rfl, rfl⟩
  · rw [goto_outside h]

/-- Settles O5: the examination takes the loops that end at the word from the larger START down; a branch word is its link, its note and its transfer;
a bad target is found by the fetch. -/
theorem apBranches : Obligations.ApBranches := ⟨pcSequence, apBranchWords, badTargetFaultsAtFetch⟩

end Sys2Proof.Proofs

/-!
SUPPORT and the proof of `ApLoopExtNopWait`: the loop words, `ext`, and a word that waits for an event (05_ap_model.md R116, 02_encoding.md R30-R32,
06_ap_instr.md R132-R134, R154).
-/

namespace Sys2Proof.Proofs

open Sys2Proof.Machine Sys2Proof.Laws

/-! ### The context after the pops -/

theorem ctx_apPops (h : Hdr) (s : State) : (apPops h s).cur.ctx = { s.cur.ctx with popped := true } := by
  rw [cur_apPops, ctx_popCore]

theorem apWords_apPops (h : Hdr) (s : State) : (apPops h s).cur.apWords = s.cur.apWords := by
  unfold Core.apWords
  rw [cur_apPops, inHandler_popCore]

/-! ### A loop that skips its body -/

theorem endsAt_congr {m m' : SMap Loop} {pc k : Nat} (h : loopAt m k = loopAt m' k) : EndsAt m pc k ↔ EndsAt m' pc k := by
  unfold EndsAt
  rw [h]

/-- Context `x` with loop `n` set. -/
def setLoop (n : Nat) (e : Loop) (x : ApCtx) : ApCtx := { x with loops := smSet ⟨0, 0, 0⟩ x.loops n e }

theorem loopAt_set_same (m : SMap Loop) (n : Nat) (e : Loop) : loopAt (smSet ⟨0, 0, 0⟩ m n e) n = e := smGet_set_same _ _ _ _

theorem loopAt_set_ne (m : SMap Loop) {n k : Nat} (e : Loop) (h : k ≠ n) : loopAt (smSet ⟨0, 0, 0⟩ m n e) k = loopAt m k :=
  smGet_set_ne _ _ _ h

section
variable {x : ApCtx} {lim : Nat} {t : Word} {m : SMap Loop}

theorem skipTo_on (hr : loopRun (loopsAt x.loops x.pc.toNat) x.loops = (m, none)) :
    x.skipTo lim t = ({ x with loops := m, via := false } : ApCtx).goto lim t := by
  unfold ApCtx.skipTo
  rw [hr]

theorem skipTo_back {st : BitVec 14} (hr : loopRun (loopsAt x.loops x.pc.toNat) x.loops = (m, some st)) :
    x.skipTo lim t = ({ x with loops := m, via := false } : ApCtx).goto lim (st.zeroExtend 64) := by
  unfold ApCtx.skipTo
  rw [hr]

theorem skipTo_popped (x : ApCtx) (lim : Nat) (t : Word) :
    ({ x with popped := true } : ApCtx).skipTo lim t = { x.skipTo lim t with popped := true } := by
  rcases hr : loopRun (loopsAt x.loops x.pc.toNat) x.loops with ⟨m, _ | st⟩
  · rw [skipTo_on (x := { x with popped := true }) hr, skipTo_on hr]
    exact goto_popped { x with loops := m, via := false } _ _
  · rw [skipTo_back (x := { x with popped := true }) hr, skipTo_back hr]
    exact goto_popped { x with loops := m, via := false } _ _

end

/-- Of all loops only `k` ends here, and it has passes left. -/
theorem loopRun_only {m : SMap Loop} {pc k : Nat} (hk : k < 4) (hstop : (loopAt m k).stop.toNat = pc) (hc : 1 < (loopAt m k).count.toNat)
    (honly : ∀ j < 4, EndsAt m pc j → j = k) :
    loopRun (loopsAt m pc) m = (smPut m k { loopAt m k with count := (loopAt m k).count - 1 }, some (loopAt m k).start) := by
  have hne : (loopAt m k).count ≠ 0 := fun e => by rw [e] at hc; exact absurd hc (by decide)
  obtain ⟨inner, outer, hlist, hnot⟩ := List.eq_append_cons_of_mem ((mem_loopsAt m pc k).mpr ⟨hk, hne, hstop⟩)
  have hnil : inner = [] := List.eq_nil_iff_forall_not_mem.mpr fun j hj => by
    obtain ⟨hj4, hends⟩ := (mem_loopsAt m pc j).mp (hlist ▸ List.mem_append_left _ hj)
    exact hnot (honly j hj4 hends ▸ hj)
  subst hnil
  rw [hlist]
  exact loopRun_back (l := []) (fun j hj => by cases hj) hnot hc

/-! ### `lset` and `lbrk` (R132, R133) -/

/-- The count of a loop is a register of at most 32 bits. -/
theorem setWidth_eq_zero_iff {v : Word} (h : v.toNat ≤ 0xFFFFFFFF) : v.setWidth 32 = 0 ↔ v = 0 := by
  constructor
  · intro e
    have hn := congrArg BitVec.toNat e
    rw [BitVec.toNat_setWidth, Nat.mod_eq_of_lt (by omega)] at hn
    exact BitVec.eq_of_toNat_eq hn
  · rintro rfl
    rfl

section
variable {h : Hdr} {n : BitVec 2} {a : BitVec 5} {i : BitVec 6} {s : State}

/-- The loop that an `lset` sets. -/
def loopOf (s : State) (a : BitVec 5) (i : BitVec 6) : Loop :=
  ⟨(xr s a).setWidth 32, BitVec.ofNat 14 (s.cur.ctx.pc.toNat + 1), BitVec.ofNat 14 (s.cur.ctx.pc.toNat + Claims.immediateBits s i)⟩

section
variable (g : ApGoes h { cls := 0, extOk := true } s) (hbr : s.cur.ctx.br = none) (himm : Claims.immediateBits s i ≠ 0)
  (hcount : (xr s a).toNat ≤ 0xFFFFFFFF) (hstop : s.cur.ctx.pc.toNat + Claims.immediateBits s i ≤ 16383)
  (hnest : nestBad s.cur.ctx.loops n.toNat (s.cur.ctx.pc.toNat + 1) (s.cur.ctx.pc.toNat + Claims.immediateBits s i) = false)
include g hbr himm hcount hstop hnest

/-- A loop with passes to run. -/
theorem wordRuns_lset (ha : xr s a ≠ 0) : WordRuns (.lset h n a i) h { cls := 0, extOk := true } s s.cur
    ((setLoop n.toNat (loopOf s a i) s.cur.ctx).advance s.cur.apWords) := by
  refine wordRuns_modCtx (k := setLoop n.toNat (loopOf s a i)) (exec_of_card rfl g (decide_eq_false himm)) g ?_ rfl
  dsimp only
  rw [ctx_apPops, immU_apPops, xr_apPops, immU_eq]
  dsimp only
  rw [hbr, if_neg (by decide), if_neg (by omega), if_neg (by rw [hnest]; decide), if_neg (by rwa [setWidth_eq_zero_iff hcount])]
  rfl

/-- A loop of no passes. -/
theorem wordRuns_lset_skip (ha : xr s a = 0) : WordRuns (.lset h n a i) h { cls := 0, extOk := true } s s.cur
    ((setLoop n.toNat (loopOf s a i) s.cur.ctx).skipTo s.cur.apWords (w64 (s.cur.ctx.pc.toNat + Claims.immediateBits s i + 1))) := by
  refine wordRuns_jump_modCtx (k := fun x => (setLoop n.toNat (loopOf s a i) x).skipTo s.cur.apWords
    (w64 (s.cur.ctx.pc.toNat + Claims.immediateBits s i + 1))) (exec_of_card rfl g (decide_eq_false himm)) g ?_ ?_
  · dsimp only
    rw [ctx_apPops, immU_apPops, xr_apPops, immU_eq, apWords_apPops]
    dsimp only
    rw [hbr, if_neg (by decide), if_neg (by omega), if_neg (by rw [hnest]; decide), if_pos ((setWidth_eq_zero_iff hcount).mpr ha), modCtx_modCtx]
    rfl
  · exact skipTo_popped (setLoop n.toNat (loopOf s a i) s.cur.ctx) _ _

end

theorem wordRuns_lbrk (g : ApGoes h { cls := 0 } s) (hbr : s.cur.ctx.br = none) : WordRuns (.lbrk h n) h { cls := 0 } s s.cur
    ((setLoop n.toNat { loopAt s.cur.ctx.loops n.toNat with count := if (loopAt s.cur.ctx.loops n.toNat).count = 0 then 0 else 1 }
      s.cur.ctx).advance s.cur.apWords) := by
  refine wordRuns_modCtx (k := fun x => setLoop n.toNat { loopAt x.loops n.toNat with
    count := if (loopAt x.loops n.toNat).count = 0 then 0 else 1 } x) rfl g ?_ rfl
  dsimp only
  rw [ctx_apPops, hbr]
  rfl

end

theorem apLoopWords : Claims.ApLoopWords := by
  intro h n a i s hbr x pc stop with_ set old sp
  refine ⟨fun g himm hcount hstop hnest => ⟨fun ha => wordRuns_lset g hbr himm hcount hstop hnest ha, fun ha hothers => ?skips,
    fun ha k hk hkn hcnt hend hothers => ?outer⟩, fun g => wordRuns_lbrk g hbr⟩
  all_goals
    have hnone : ¬ EndsAt (with_ set).loops pc n.toNat := fun he => by
      have hzero : set.count = 0 := (setWidth_eq_zero_iff hcount).mpr ha
      exact he.1 (by rw [show loopAt (with_ set).loops n.toNat = set from loopAt_set_same _ _ _, hzero])
    have hskip := wordRuns_lset_skip g hbr himm hcount hstop hnest ha
  case skips =>
    have hnil : loopsAt (with_ set).loops (with_ set).pc.toNat = [] := loopsAt_eq_nil fun k hk he => by
      by_cases hkn : k = n.toNat
      · exact hnone (hkn ▸ he)
      · have hends : EndsAt x.loops pc k := (endsAt_congr (loopAt_set_ne _ _ hkn)).mp he
        rcases hothers k hk hkn with hzero | hpc
        · exact hends.1 hzero
        · exact hpc hends.2
    exact (congrArg (WordRuns (.lset h n a i) h sp s s.cur) (skipTo_on (loopRun_nil hnil))).mp hskip
  case outer =>
    have hsame : loopAt (with_ set).loops k = loopAt x.loops k := loopAt_set_ne _ _ hkn
    have honly : ∀ j < 4, EndsAt (with_ set).loops pc j → j = k := fun j hj he => by
      by_contra hjk
      by_cases hjn : j = n.toNat
      · exact hnone (hjn ▸ he)
      · have hends : EndsAt x.loops pc j := (endsAt_congr (loopAt_set_ne _ _ hjn)).mp he
        rcases hothers j hj hjn hjk with hzero | hpc
        · exact hends.1 hzero
        · exact hpc hends.2
    have hrun := loopRun_only (pc := pc) hk (by rw [hsame]; exact hend) (by rw [hsame]; exact hcnt) honly
    rw [hsame] at hrun
    exact (congrArg (WordRuns (.lset h n a i) h sp s s.cur) (skipTo_back (x := with_ set) hrun)).mp hskip

/-! ### `ext` (02_encoding.md R30-R32) -/

theorem apExtWord : Claims.ApExtWord := by
  intro i s hlen hbad hloops
  have hends : ¬ (s.cur.ctx.br.isNone = true ∧ loopsAt s.cur.ctx.loops s.cur.ctx.pc.toNat ≠ []) := by
    rintro ⟨hbr, hne⟩
    refine hne (loopsAt_eq_nil fun k hk he => ?_)
    rcases hloops (Option.isNone_iff_eq_none.mp hbr) k hk with hzero | hpc
    · exact he.1 hzero
    · exact hpc he.2
  show Host.Outcome.next (extWord false i s) = _
  unfold extWord
  dsimp only
  rw [if_neg (by rw [hbad]; simp; omega), if_neg hends]
  rfl

/-! ### `nop` and `wfe` (R134, R154) -/

theorem aside_ev : Aside fun c => { c with ev := false } := ⟨fun _ _ _ _ => rfl, fun _ => rfl, fun _ => rfl⟩

/-- The word that the context was held at goes on. -/
theorem aside_setHeld (p : Option Pend) : Aside fun c => c.setHeld p where
  apart c m sh tok := by
    have hin : ({ c with main := m, shadow := sh, tok := tok } : Core).inHandler = c.inHandler := rfl
    unfold Core.setHeld
    rw [hin]
    split <;> rfl
  hnd c := by unfold Core.setHeld; split <;> rfl
  cycle c := by unfold Core.setHeld; split <;> rfl

theorem Aside.comp {f k : Core → Core} (hf : Aside f) (hk : Aside k) : Aside fun c => k (f c) where
  apart c m sh tok := by rw [hf.apart, hk.apart]
  hnd c := by rw [hk.hnd, hf.hnd]
  cycle c := by rw [hk.cycle, hf.cycle]

/-- A word that is not permitted in the handler runs in the main context. -/
theorem main_of_mainOnly {h : Hdr} {sp : ApSpec} {s : State} (g : ApGoes h sp s) (hsp : sp.mainOnly = true) : s.cur.inHandler = false := by
  cases hin : s.cur.inHandler with
  | false => rfl
  | true =>
    obtain ⟨-, -, -, -, -, -, hmo, -⟩ := g.handler hin
    rw [hsp] at hmo
    cases hmo

theorem held_setCtx (c : Core) (x : ApCtx) : (c.setCtx x).held = c.held := by
  unfold Core.held
  rw [inHandler_setCtx]
  unfold Core.setCtx
  split <;> rfl

theorem held_apPops (h : Hdr) (s : State) : (apPops h s).cur.held = s.cur.held := by
  rw [cur_apPops, popCore_eq, held_setCtx]
  rfl

theorem ev_apPops (h : Hdr) (s : State) : (apPops h s).cur.ev = s.cur.ev := by
  rw [cur_apPops, popCore_eq]
  unfold Core.setCtx
  split <;> rfl

theorem apNopAndWait : Claims.ApNopAndWait := by
  intro h s
  refine ⟨fun g => wordRuns_plain rfl g rfl, fun g hev => ?goesOn, fun g hev => ?waits⟩
  case goesOn =>
    have hmain := main_of_mainOnly g rfl
    have hcore : ({ s.cur with ev := false } : Core).setHeld none = { s.cur with ev := false, pend := none } := by
      have hin : ({ s.cur with ev := false } : Core).inHandler = false := hmain
      unfold Core.setHeld
      rw [hin]
      rfl
    rw [← hcore]
    refine wordRuns_modCur (aside_ev.comp (aside_setHeld none)) rfl g ?_
    rw [ev_apPops, hev, unheld, modCur_modCur]
    rfl
  case waits =>
    refine exec_of_body (r := waitAt .wait (apPops h s)) rfl g ?_ |>.trans ?_
    · rw [ev_apPops, hev]
      rfl
    · unfold waitAt Claims.standing
      rw [held_apPops, apTime_apPops]
      rfl

/-- Settles O6: an `lset` sets its loop and runs or skips its body, by the examination of the loops that end at the word; the others by their effect. -/
theorem apLoopExtNopWait : Obligations.ApLoopExtNopWait := ⟨apLoopWords, apExtWord, apNopAndWait⟩

end Sys2Proof.Proofs

/-!
SUPPORT. The checks of an access and its latency: they look at the cores for their regions alone (04_memory.md R75-R89, 06_ap_instr.md R137,
05_ap_model.md R104).
-/

namespace Sys2Proof.Proofs

open Sys2Proof.Machine Sys2Proof.Laws

/-! ### States that differ in their cores, but not in what regions these belong to -/

/-- `t` differs from `s` in its cores alone, each of which stays in its region and copy. -/
structure CoresApart (s t : State) : Prop where
  rest : { t with cores := s.cores } = s
  rid : ∀ k, (t.core k).rid = (s.core k).rid
  copy : ∀ k, (t.core k).copy = (s.core k).copy

theorem CoresApart.refl (s : State) : CoresApart s s := ⟨rfl, fun _ => rfl, fun _ => rfl⟩

theorem CoresApart.trans {s t u : State} (a : CoresApart s t) (b : CoresApart t u) : CoresApart s u where
  rest := by
    have hrest : { u with cores := s.cores } = { t with cores := s.cores } := congrArg (fun v : State => { v with cores := s.cores }) b.rest
    exact hrest.trans a.rest
  rid k := (b.rid k).trans (a.rid k)
  copy k := (b.copy k).trans (a.copy k)

theorem coresApart_setCore {s : State} {k : Nat} {c : Core} (hrid : c.rid = (s.core k).rid) (hcopy : c.copy = (s.core k).copy) :
    CoresApart s (s.setCore k c) where
  rest := rfl
  rid j := by
    by_cases h : j = k
    · rw [h, core_setCore_same, hrid]
    · rw [core_setCore_ne _ _ h]
  copy j := by
    by_cases h : j = k
    · rw [h, core_setCore_same, hcopy]
    · rw [core_setCore_ne _ _ h]

theorem coresApart_setCur {s : State} {c : Core} (hrid : c.rid = s.cur.rid) (hcopy : c.copy = s.cur.copy) : CoresApart s (s.setCur c) :=
  coresApart_setCore hrid hcopy

theorem rid_setCtx (c : Core) (x : ApCtx) : (c.setCtx x).rid = c.rid := by
  unfold Core.setCtx
  split <;> rfl

theorem copy_setCtx (c : Core) (x : ApCtx) : (c.setCtx x).copy = c.copy := by
  unfold Core.setCtx
  split <;> rfl

theorem coresApart_modCtx (s : State) (f : ApCtx → ApCtx) : CoresApart s (s.modCtx f) :=
  coresApart_setCur (rid_setCtx _ _) (copy_setCtx _ _)

theorem coresApart_apPops (h : Hdr) (s : State) : CoresApart s (apPops h s) := by
  unfold apPops
  split
  · exact .refl s
  · exact (coresApart_setCur (c := takePops s.cur (hdrPops .ap h)) rfl rfl).trans (coresApart_modCtx _ _)

section
variable {s t : State} (h : CoresApart s t)
include h

/-- Such a state, written out. -/
theorem CoresApart.eq : t = { s with cores := t.cores } := (congrArg (fun v : State => { v with cores := t.cores }) h.rest :)

theorem CoresApart.turn : t.turn = s.turn := (congrArg State.turn h.rest :)

theorem CoresApart.region (r : Nat) : t.region? r = s.region? r := by
  rw [h.eq]
  rfl

theorem CoresApart.members (k : Nat) : membersOf t k = membersOf s k := by
  simp only [membersOf, h.region, h.rid, h.copy]

theorem CoresApart.spadOf (k : Nat) (va : Word) : spadOf t k va = spadOf s k va := by
  simp only [Machine.spadOf, spadCore, h.members]

theorem CoresApart.vaCheck (k : Nat) (va : Word) (size sa xa : Nat) : vaCheck t k va size sa xa = vaCheck s k va size sa xa := by
  simp only [Machine.vaCheck, h.spadOf]

theorem CoresApart.partOfCore (k : Nat) : partOfCore t k = partOfCore s k := by
  rw [h.eq]
  rfl

theorem CoresApart.pageCheck (die pn vpg : Nat) (n : Need) : pageCheck t die pn vpg n = pageCheck s die pn vpg n := by
  rw [h.eq]
  rfl

theorem CoresApart.accCheck (k : Nat) (va : Word) (size : Nat) (n : Need) : accCheck t k va size n = accCheck s k va size n := by
  simp only [Machine.accCheck, h.copy, h.partOfCore, h.pageCheck]

theorem CoresApart.memLatency (va : Word) : memLatency t va = memLatency s va := by
  simp only [Machine.memLatency, h.spadOf, h.turn]

end

/-! ### Accesses that pass -/

/-- Pages that are all usable, or not yet walked, end an access neither with a fault nor at stage 2. -/
theorem accFold_passes {va : Nat} {l : List (Nat × PageRes)} (hall : ∀ e ∈ l, e.2 = .miss ∨ ∃ x, e.2 = .ok x) :
    (∃ xl, accFold va l = .ok xl) ∨ ∃ v, accFold va l = .miss v := by
  have hnone (p : Nat × PageRes → Bool) (hmiss : ∀ v, p (v, .miss) = false) (hok : ∀ v x, p (v, .ok x) = false) : l.find? p = none := by
    refine List.find?_eq_none.mpr fun e he => ?_
    obtain ⟨v, r⟩ := e
    rcases hall _ he with hr | ⟨x, hr⟩ <;> simp only at hr <;> subst hr
    · simp [hmiss]
    · simp [hok]
  unfold accFold
  rw [hnone _ (fun _ => rfl) (fun _ _ => rfl)]
  dsimp only
  cases l.find? (fun e => e.2 == .miss) with
  | some e => exact .inr ⟨e.1, rfl⟩
  | none =>
    dsimp only
    rw [hnone _ (fun _ => rfl) (fun _ _ => rfl), hnone _ (fun _ => rfl) (fun _ _ => rfl), hnone _ (fun _ => rfl) (fun _ _ => rfl)]
    exact .inl ⟨_, rfl⟩

theorem xlOutside_eq_none {va : Word} {size : Nat} (hhigh : wbits va 48 12 = 0) (hend : va.toNat + size ≤ 2 ^ 48) :
    xlOutside va size = none := by
  unfold xlOutside xlSize
  rw [if_neg (by omega), if_neg (by omega)]

section
variable {s : State} {va : Word} {size sa xa : Nat} {n : Need} (hp : Claims.AccessPasses s va size sa xa n)
include hp

theorem vaCheck_passes : vaCheck s s.turn.1 va size sa xa = none := by
  unfold vaCheck
  obtain ⟨h15, k, off, hspad, hend, halign⟩ | ⟨h0, hhigh, hend, halign, -⟩ := hp
  · rw [if_neg (by omega), if_pos h15, hspad]
    dsimp only
    rw [spadSize, if_neg (by omega), if_neg (by omega)]
  · rw [if_pos h0, xlOutside_eq_none hhigh hend]
    dsimp only
    rw [if_neg (by omega)]

theorem accCheck_passes : (∃ xl, accCheck s s.turn.1 va size n = .ok xl) ∨ ∃ v, accCheck s s.turn.1 va size n = .miss v := by
  unfold accCheck
  obtain ⟨h15, -⟩ | ⟨h0, -, -, -, hpages⟩ := hp
  · rw [if_pos (by omega)]
    exact .inl ⟨_, rfl⟩
  · rw [if_neg (by omega)]
    refine accFold_passes fun e he => ?_
    obtain ⟨v, hv, rfl⟩ := List.mem_map.mp he
    exact hpages v hv _ rfl

/-- The access of a word whose checks pass goes on. -/
theorem apAccess_passes (h : Hdr) (go : State → Res) : apAccess (apPops h s) va size sa xa n go = go (apPops h s) := by
  have hapart := coresApart_apPops h s
  unfold apAccess
  rw [hapart.turn, hapart.vaCheck, hapart.accCheck, vaCheck_passes hp]
  dsimp only
  rcases accCheck_passes hp with ⟨xl, hr⟩ | ⟨v, hr⟩ <;> rw [hr]

end

/-- The access of a word whose VA fails its checks. -/
theorem apAccess_vaFails (h : Hdr) {s : State} {va f : Word} {size sa xa c : Nat} (n : Need) (go : State → Res)
    (hbad : vaCheck s s.turn.1 va size sa xa = some (c, f)) : apAccess (apPops h s) va size sa xa n go = .trap c (some f) := by
  have hapart := coresApart_apPops h s
  unfold apAccess
  rw [hapart.turn, hapart.vaCheck, hbad]

theorem readLatency_memLatency (s : State) (va : Word) : Claims.ReadLatency s va (memLatency s va) := by
  refine ⟨fun h0 => by rw [memLatency, if_pos h0], fun k off h15 hspad => ?_⟩
  rw [memLatency, if_neg (by omega), hspad]

/-! ### Room in the queues -/

theorem rqCap_popCore (h : Hdr) (c : Core) : rqCap (popCore h c) = rqCap c := by
  rw [rqCap, inHandler_popCore, rqCap]

theorem wqCap_popCore (h : Hdr) (c : Core) : wqCap (popCore h c) = wqCap c := by
  rw [wqCap, inHandler_popCore, wqCap]

theorem not_rqFull (h : Hdr) {s : State} (hroom : Claims.readRoom s) : ¬ rqCap (apPops h s).cur ≤ (apPops h s).cur.ctx.rq.length := by
  rw [ctx_apPops, cur_apPops, rqCap_popCore]
  exact Nat.not_le.mpr hroom

theorem not_wqFull (h : Hdr) {s : State} (hroom : Claims.writeRoom s) : ¬ wqCap (apPops h s).cur ≤ (apPops h s).cur.ctx.wq.length := by
  rw [ctx_apPops, cur_apPops, wqCap_popCore]
  exact Nat.not_le.mpr hroom

end Sys2Proof.Proofs

/-!
SUPPORT and the proof of `ApMemoryWords`: loads and stores enter their queues, and accesses whose VA fails its checks fault at their word
(05_ap_model.md R103, R104, 06_ap_instr.md R135-R137).
-/

namespace Sys2Proof.Proofs

open Sys2Proof.Machine Sys2Proof.Laws

/-! ### Entries of the two queues -/

/-- Context `x` with the read `e` entered. -/
def enterRead (due : Nat) (e : RdE) (x : ApCtx) : ApCtx := { x with rq := x.rq ++ [{ e with from_ := due, bp := x.pending }] }

/-- Context `x` with the write-queue entry `e` entered. -/
def enterWrite (due : Nat) (e : WrE) (x : ApCtx) : ApCtx := { x with wq := x.wq ++ [{ e with from_ := due, bp := x.pending }] }

theorem pushRd_eq (t : State) (e : RdE) : pushRd t e = t.modCtx (enterRead (apTime t + 4) e) := rfl

theorem pushWr_eq (t : State) (e : WrE) : pushWr t e = t.modCtx (enterWrite (apTime t + 4) e) := rfl

section
variable {i : Instr} {h : Hdr} {sp : ApSpec} {s : State} {body : State → Res} {off : State → State} {va : Word}

/-- A word that enters a read. -/
theorem wordRuns_read {kind : RdKind} {dst : Option ApDst} {n : Nat} (hi : exec i s = .next (apWord h sp body s off)) (g : ApGoes h sp s)
    (hb : body (apPops h s) = .done (pushRd (apPops h s)
      { po := (apPops h s).cur.ctx.po, pc := (apPops h s).cur.ctx.unitPc, va := va, kind := kind, dst := dst,
        due := apTime (apPops h s) + memLatency (apPops h s) va, n := n })) :
    ∃ lat, Claims.ReadLatency s va lat ∧ WordRuns i h sp s s.cur ((Claims.withRead s va kind dst lat n).advance s.cur.apWords) := by
  rw [pushRd_eq, ctx_apPops, apTime_apPops, (coresApart_apPops h s).memLatency] at hb
  exact ⟨memLatency s va, readLatency_memLatency s va, wordRuns_modCtx hi g hb rfl⟩

/-- A word that enters an event into the write queue. -/
theorem wordRuns_write {kind : WrKind} {v : Word} (hi : exec i s = .next (apWord h sp body s off)) (g : ApGoes h sp s)
    (hb : body (apPops h s) = .done (pushWr (apPops h s)
      { po := (apPops h s).cur.ctx.po, pc := (apPops h s).cur.ctx.unitPc, va := va, kind := kind, data := v })) :
    WordRuns i h sp s s.cur
      (({ s.cur.ctx with wq := s.cur.ctx.wq ++ [Claims.newWrite s va kind v] } : ApCtx).advance s.cur.apWords) := by
  rw [pushWr_eq, ctx_apPops, apTime_apPops] at hb
  exact wordRuns_modCtx hi g hb rfl

end

theorem effAddr_apPops (h : Hdr) (s : State) (a b : BitVec 5) : effAddr (apPops h s) a b = xr s a + xr s b := by
  rw [effAddr, xr_apPops, xr_apPops]

section
variable {i : Instr} {h : Hdr} {d a b : BitVec 5} {s : State} {size : Nat} {sgn : Bool} (g : ApGoes h { cls := 3, mem := true } s)
include g

/-! ### Loads and stores -/

theorem load_issues (hi : exec i s = .next (apLoad h d a b size sgn s)) (hroom : Claims.readRoom s)
    (hp : Claims.AccessPasses s (xr s a + xr s b) size size size { r := true }) :
    ∃ lat, Claims.ReadLatency s (xr s a + xr s b) lat
      ∧ WordRuns i h { cls := 3, mem := true } s s.cur
          ((Claims.withRead s (xr s a + xr s b) (.ld size sgn) (xDst d) lat 1).advance s.cur.apWords) := by
  refine wordRuns_read hi g ?_
  dsimp only
  rw [effAddr_apPops, if_neg (not_rqFull h hroom), apAccess_passes hp]

theorem store_issues (hi : exec i s = .next (apStore h d a b size s)) (hroom : Claims.writeRoom s)
    (hp : Claims.AccessPasses s (xr s a + xr s b) size size size { w := true }) :
    WordRuns i h { cls := 3, mem := true } s s.cur
      (({ s.cur.ctx with wq := s.cur.ctx.wq ++ [Claims.newWrite s (xr s a + xr s b) (.st size) (xr s d)] } : ApCtx).advance s.cur.apWords) := by
  refine wordRuns_write hi g ?_
  dsimp only
  rw [effAddr_apPops, if_neg (not_wqFull h hroom), apAccess_passes hp, xr_apPops]

/-! ### Accesses that fail -/

variable {c : Nat} {f : Word} (hbad : vaCheck s s.turn.1 (xr s a + xr s b) size size size = some (c, f))
include hbad

theorem load_faults (hi : exec i s = .next (apLoad h d a b size sgn s)) (hroom : Claims.readRoom s) :
    exec i s = .next (apFault (apPops h s) c (some f)) := by
  refine exec_of_body (r := .trap c (some f)) hi g ?_
  dsimp only
  rw [effAddr_apPops, if_neg (not_rqFull h hroom), apAccess_vaFails h _ _ hbad]

theorem store_faults (hi : exec i s = .next (apStore h d a b size s)) (hroom : Claims.writeRoom s) :
    exec i s = .next (apFault (apPops h s) c (some f)) := by
  refine exec_of_body (r := .trap c (some f)) hi g ?_
  dsimp only
  rw [effAddr_apPops, if_neg (not_wqFull h hroom), apAccess_vaFails h _ _ hbad]

end

section
variable {s : State} {k : Nat} {va : Word} {size sa xa : Nat}

/-- A VA of no space. -/
theorem vaCheck_noSpace (h0 : vaSpace va ≠ 0) (h15 : vaSpace va ≠ 15) : vaCheck s k va size sa xa = some (0x21, va) := by
  rw [vaCheck, if_neg h0, if_neg h15]

/-- A scratchpad index that names no scratchpad. -/
theorem vaCheck_noSpad (h15 : vaSpace va = 15) (hspad : spadOf s k va = none) : vaCheck s k va size sa xa = some (0x25, va) := by
  rw [vaCheck, if_neg (by omega), if_pos h15, hspad]

/-- A start outside the translated space. -/
theorem vaCheck_beyond (h0 : vaSpace va = 0) (hhigh : wbits va 48 12 ≠ 0) : vaCheck s k va size sa xa = some (0x21, va) := by
  rw [vaCheck, if_pos h0, xlOutside, if_pos hhigh]

/-- An access that runs past the end of the translated space. -/
theorem vaCheck_past (h0 : vaSpace va = 0) (hhigh : wbits va 48 12 = 0) (hend : 2 ^ 48 < va.toNat + size) :
    vaCheck s k va size sa xa = some (0x21, w64 (2 ^ 48)) := by
  rw [vaCheck, if_pos h0, xlOutside, if_neg (by omega), xlSize, if_pos hend]

theorem vaCheck_misaligned (h0 : vaSpace va = 0) (hhigh : wbits va 48 12 = 0) (hend : va.toNat + size ≤ 2 ^ 48)
    (halign : va.toNat % xa ≠ 0) : vaCheck s k va size sa xa = some (0x23, va) := by
  rw [vaCheck, if_pos h0, xlOutside_eq_none hhigh hend]
  exact if_pos halign

end

theorem apAccessFaults : Claims.ApAccessFaults := by
  intro h d a b s g hrd hwr va faults
  have double {c : Nat} {f : Word} (hbad : vaCheck s s.turn.1 va 8 8 8 = some (c, f)) :
      exec (.ldD h d a b) s = .next (apFault (apPops h s) c (some f)) ∧ exec (.stD h d a b) s = .next (apFault (apPops h s) c (some f)) :=
    ⟨load_faults g hbad rfl hrd, store_faults g hbad rfl hwr⟩
  have half {c : Nat} {f : Word} (hbad : vaCheck s s.turn.1 va 2 2 2 = some (c, f)) :
      exec (.ldH h d a b) s = .next (apFault (apPops h s) c (some f)) ∧ exec (.stH h d a b) s = .next (apFault (apPops h s) c (some f)) :=
    ⟨load_faults g hbad rfl hrd, store_faults g hbad rfl hwr⟩
  exact ⟨fun h0 h15 => double (vaCheck_noSpace h0 h15), fun h0 hhigh => double (vaCheck_beyond h0 hhigh),
    fun h15 hspad => double (vaCheck_noSpad h15 hspad), fun h0 hhigh hend halign => double (vaCheck_misaligned h0 hhigh hend halign),
    fun h0 hhigh hend halign => half (vaCheck_misaligned h0 hhigh hend halign), fun h0 hhigh hend => double (vaCheck_past h0 hhigh hend)⟩

/-- Settles O7: each word by the rule of its kind, a load, a store, or an access whose VA fails its checks. -/
theorem apMemoryWords : Obligations.ApMemoryWords := by
  unfold Obligations.ApMemoryWords
  refine ⟨fun h d a b s g hroom => ?loads, fun h d a b s g hroom => ?stores, apAccessFaults⟩
  case loads =>
    exact ⟨load_issues g rfl hroom, load_issues g rfl hroom, load_issues g rfl hroom, load_issues g rfl hroom, load_issues g rfl hroom,
      load_issues g rfl hroom, load_issues g rfl hroom⟩
  case stores =>
    exact ⟨store_issues g rfl hroom, store_issues g rfl hroom, store_issues g rfl hroom, store_issues g rfl hroom⟩

end Sys2Proof.Proofs

/-!
SUPPORT and the proofs of `ApAtomicsIssue` and `DeterministicAtomics`: atomics and reductions enter their queues, and in deterministic mode the
returning forms trap (06_ap_instr.md R143-R149).
-/

namespace Sys2Proof.Proofs

open Sys2Proof.Machine Sys2Proof.Laws

theorem amoSize_eq (op : AmoOp) : amoSize op = if op = .faddlim then 16 else 8 := by cases op <;> rfl

theorem atomicNeed_eq (op : AmoOp) (ret : Bool) :
    Claims.atomicNeed op ret = { r := true, w := true, atomic := some (hostAmo op ret) } := by
  cases op <;> cases ret <;> rfl

theorem amoTwo_iff (op : AmoOp) : amoTwo op = true ↔ op = .incb ∨ op = .faddlim := by cases op <;> decide

/-- The second destination of an atomic, as the model and as the claim writes it. -/
theorem dst2_eq (op : AmoOp) (ret : Bool) (d : BitVec 5) :
    (if ret && amoTwo op && d != 0 then some (ApDst.x (d.toNat + 1)) else none)
      = if ret ∧ (op = .incb ∨ op = .faddlim) ∧ d ≠ 0 then some (ApDst.x (d.toNat + 1)) else none := by
  simp only [← amoTwo_iff, Bool.and_eq_true, bne_iff_ne, and_assoc]

theorem sys_apPops (h : Hdr) (s : State) : (apPops h s).cur.sys = s.cur.sys := by
  rw [cur_apPops, popCore_eq]
  unfold Core.setCtx
  split <;> rfl

/-- The write-queue entry of an atomic, as the model builds it. -/
def atomicEntry (s : State) (va : Word) (op : AmoOp) (ret : Bool) (d : BitVec 5) (data expect : Word) (due : Nat) : WrE :=
  { po := s.cur.ctx.po, pc := s.cur.ctx.unitPc, va := va, kind := .amo op, data := data, expect := expect,
    dst := if ret then xDst d else none, dst2 := if ret && amoTwo op && d != 0 then some (.x (d.toNat + 1)) else none, due := due, ret := ret }

/-- The read-queue entry of a returning atomic. -/
def atomicRead (s : State) (va : Word) (d : BitVec 5) (due : Nat) : RdE :=
  { po := s.cur.ctx.po, pc := s.cur.ctx.unitPc, va := va, kind := .amo, dst := xDst d, due := due }

section
variable {i : Instr} {h : Hdr} {d a b : BitVec 5} {s : State} {op : AmoOp} {ret : Bool} (g : ApGoes h { cls := 2, mem := true } s)
  (hi : exec i s = .next (apAmo h op ret d a b s)) (hcard : (ret && amoTwo op && d.getLsbD 0) = false)
include g hi hcard

theorem atomic_issues (hroom : Claims.writeRoom s) (hret : ret = true → s.cur.sys.det = false ∧ Claims.readRoom s)
    (hp : Claims.AccessPasses s (xr s a) (if op = .faddlim then 16 else 8) (if op = .faddlim then 16 else 8)
      (if op = .faddlim then 16 else 8) (Claims.atomicNeed op ret)) :
    ∃ lat, Claims.ReadLatency s (xr s a) lat
      ∧ WordRuns i h { cls := 2, mem := true } s s.cur
          ((Claims.withAtomic s (xr s a) op ret d (xr s b) (xr s d) lat).advance s.cur.apWords) := by
  rw [← amoSize_eq, atomicNeed_eq] at hp
  refine ⟨memLatency s (xr s a), readLatency_memLatency s _, ?_⟩
  unfold Claims.withAtomic
  rw [← dst2_eq]
  cases ret with
  | false =>
    refine wordRuns_modCtx (k := enterWrite (apTime s + 4)
        (atomicEntry s (xr s a) op false d (xr s b) (xr s d) (apTime s + memLatency s (xr s a))))
      (exec_of_card hi g hcard) g ?_ rfl
    dsimp only
    rw [xr_apPops, if_neg (by simp), if_neg (by simp), if_neg (not_wqFull h hroom), apAccess_passes hp, if_neg Bool.false_ne_true,
      pushWr_eq, ctx_apPops, apTime_apPops, (coresApart_apPops h s).memLatency, xr_apPops, xr_apPops]
    rfl
  | true =>
    obtain ⟨hdet, hread⟩ := hret rfl
    refine wordRuns_modCtx (k := fun x => enterWrite (apTime s + 4)
        (atomicEntry s (xr s a) op true d (xr s b) (xr s d) (apTime s + memLatency s (xr s a)))
        (enterRead (apTime s + 4) (atomicRead s (xr s a) d (apTime s + memLatency s (xr s a))) x))
      (exec_of_card hi g hcard) g ?_ rfl
    dsimp only
    rw [xr_apPops, if_neg (by rw [sys_apPops, hdet]; decide), if_neg (fun e => not_rqFull h hread e.2), if_neg (not_wqFull h hroom),
      apAccess_passes hp, if_pos rfl, pushWr_eq, pushRd_eq, apTime_modCtx, modCtx_modCtx, ctx_apPops, apTime_apPops,
      (coresApart_apPops h s).memLatency, xr_apPops, xr_apPops]
    rfl

theorem atomic_traps (hret : ret = true) (hdet : s.cur.sys.det = true) : exec i s = .next (apFault (apPops h s) 0xE1 (some (xr s a))) := by
  refine exec_of_body (r := .trap 0xE1 (some (xr s a))) (exec_of_card (sp := { cls := 2, mem := true }) hi g hcard) g ?_
  dsimp only
  rw [xr_apPops, if_pos (by rw [sys_apPops, hret, hdet]; rfl)]

end

/-- A card of a form that is not a pair never forbids its fields. -/
theorem pairCard_of_one {op : AmoOp} (h : amoTwo op = false) (ret : Bool) (d : BitVec 5) : (ret && amoTwo op && d.getLsbD 0) = false := by
  rw [h, Bool.and_false, Bool.false_and]

theorem pairCard_of_even {d : BitVec 5} (h : d.getLsbD 0 = false) (op : AmoOp) (ret : Bool) : (ret && amoTwo op && d.getLsbD 0) = false := by
  rw [h, Bool.and_false]

/-- Settles O9: every form by `atomic_issues`; a returning pair form needs D even. -/
theorem apAtomicsIssue : Obligations.ApAtomicsIssue := by
  unfold Obligations.ApAtomicsIssue
  intro h d a b s sp g hroom va w v
  refine ⟨⟨?_, ?_, ?_, ?_, ?_, ?_, ?_, ?_, ?_, ?_, ?_, ?decpos, fun heven => ⟨?incb, ?faddlim⟩⟩, ?reductions⟩
  case reductions =>
    refine ⟨?_, ?_, ?_, ?_, ?_, ?_, ?_, ?_, ?_, ?_, ?redDecpos, ?_, ?_⟩
    all_goals intro hp hret
    case redDecpos => exact atomic_issues (b := 0) g rfl rfl hroom hret hp
    all_goals exact atomic_issues g rfl rfl hroom hret hp
  all_goals intro hp hret
  case decpos => exact atomic_issues (b := 0) g rfl (pairCard_of_one rfl _ _) hroom hret hp
  case incb | faddlim => exact atomic_issues g rfl (pairCard_of_even heven _ _) hroom hret hp
  all_goals exact atomic_issues g rfl (pairCard_of_one rfl _ _) hroom hret hp

/-- Settles O10: the trap comes before every check of the access; a `red.` form asks for no mode. -/
theorem deterministicAtomics : Obligations.DeterministicAtomics := by
  unfold Obligations.DeterministicAtomics
  intro h d a b s g hdet traps va runs v
  refine ⟨⟨?_, ?_, ?_, ?_, ?_, ?_, ?_, ?_, ?_, ?_, ?_, ?_, fun heven => ⟨?incb, ?faddlim⟩⟩, ?reductions⟩
  case incb | faddlim => exact atomic_traps g rfl (pairCard_of_even heven _ _) rfl hdet
  case reductions =>
    refine ⟨?_, ?_, ?_, ?_, ?_, ?_, ?_, ?_, ?_, ?_, ?redDecpos, ?_, ?_⟩
    all_goals intro hroom hp
    case redDecpos => exact atomic_issues (b := 0) g rfl rfl hroom nofun hp
    all_goals exact atomic_issues g rfl rfl hroom nofun hp
  all_goals exact atomic_traps g rfl (pairCard_of_one rfl _ _) rfl hdet

end Sys2Proof.Proofs

/-!
SUPPORT and the proof of `ApQueueWords`: queue loads and stores, the pop of EQ, markers, discards and fences (05_ap_model.md R106-R113,
06_ap_instr.md R138-R142).
-/

namespace Sys2Proof.Proofs

open Sys2Proof.Machine Sys2Proof.Laws

/-! ### Queue loads and stores -/

/-- Rows that all pass let their `ldq` go on. -/
theorem rowsAccess_passes {s : State} {va : Word} (h : Hdr) (go : State → Res) (n k : Nat)
    (hp : ∀ j < n, Claims.AccessPasses s (va + w64 (384 * (k + j))) 384 384 64 { r := true }) :
    rowsAccess (apPops h s) va k n go = go (apPops h s) := by
  induction n generalizing k with
  | zero => rfl
  | succ n ih =>
    have hapart := coresApart_apPops h s
    have hfirst : Claims.AccessPasses s (va + w64 (384 * k)) 384 384 64 { r := true } := hp 0 (Nat.succ_pos n)
    have hrest : ∀ j < n, Claims.AccessPasses s (va + w64 (384 * (k + 1 + j))) 384 384 64 { r := true } := fun j hj => by
      rw [Nat.add_assoc, Nat.add_comm 1 j]
      exact hp (j + 1) (Nat.succ_lt_succ hj)
    unfold rowsAccess
    rw [hapart.turn, hapart.vaCheck, hapart.accCheck, vaCheck_passes hfirst]
    dsimp only
    rcases accCheck_passes hfirst with ⟨xl, hr⟩ | ⟨v, hr⟩ <;> rw [hr]
    exact ih (k + 1) hrest

theorem queueLoad_popCore (h : Hdr) (c : Core) (lqm zm1 : Bool) : queueLoad (popCore h c) lqm zm1 = queueLoad c lqm zm1 := by
  rw [popCore_eq]
  cases hin : c.inHandler with
  | true =>
    have hshadow : (poppedTok h c c).inHandler = true := hin
    rw [Core.setCtx, hshadow]
    rfl
  | false =>
    have hmain : (poppedTok h c c).inHandler = false := hin
    rw [Core.setCtx, hmain, Core.ctx, hin]
    rfl

theorem apQueueAccesses : Claims.ApQueueAccesses := by
  intro h f a b s sp g va n lqm zm1
  have hcard (hno : ¬ (lqm = true ∧ zm1 = true)) : (lqm && zm1) = false := by
    rw [Bool.eq_false_iff, ne_eq, Bool.and_eq_true]
    exact hno
  refine ⟨fun hn hno => ?none, fun hpos hle hno hroom hp hload => ?rows, fun hn hno => ?many, fun hroom hp => ?stq⟩
  case none =>
    have hzero : (xr s b).toNat = 0 := hn
    refine wordRuns_plain (exec_of_card (sp := sp) rfl g (hcard hno)) g ?_
    dsimp only
    rw [xr_apPops, hzero]
    rfl
  case rows =>
    have hsome : (xr s b).toNat ≠ 0 := Nat.pos_iff_ne_zero.mp hpos
    have hfew : ¬ 64 < (xr s b).toNat := Nat.not_lt.mpr hle
    have hfits : ¬ 64 < queueLoad (apPops h s).cur lqm zm1 + (xr s b).toNat := by
      rw [cur_apPops, queueLoad_popCore]
      exact Nat.not_lt.mpr hload
    refine wordRuns_read (exec_of_card (sp := sp) rfl g (hcard hno)) g ?_
    dsimp only
    rw [xr_apPops, xr_apPops, if_neg hfew, if_neg hsome, rowsAccess_passes h _ _ 0 (fun j hj => by rw [Nat.zero_add]; exact hp j hj),
      if_neg (not_rqFull h hroom), if_neg hfits]
  case many =>
    have hmany : 64 < (xr s b).toNat := hn
    refine exec_of_body (r := .trap 0x02 none) (exec_of_card (sp := sp) rfl g (hcard hno)) g ?_
    dsimp only
    rw [xr_apPops, if_pos hmany]
  case stq =>
    refine wordRuns_write (sp := sp) rfl g ?_
    dsimp only
    rw [effAddr_apPops, if_neg (not_wqFull h hroom), apAccess_passes hp]

/-! ### The pop of EQ -/

/-- A core without the oldest entry of its EQ. -/
def popEq (c : Core) : Core := { c with q := { c.q with eq := c.q.eq.drop 1 } }

theorem aside_popEq : Aside popEq := ⟨fun _ _ _ _ => rfl, fun _ => rfl, fun _ => rfl⟩

theorem eqHead_popCore (h : Hdr) (c : Core) : eqHead (popCore h c) = eqHead c := by
  unfold popCore Core.setCtx
  split
  · rfl
  · split <;> rfl

section
variable {i : Instr} {h : Hdr} {put : Word → State → State} {s : State} (hi : exec i s = .next (apPopq h put s))
  (g : ApGoes h { cls := 3, mainOnly := true } s)
include hi g

/-- An entry is taken, and its value written as one result. -/
theorem wordRuns_popq {w v : Word} {dst : Option ApDst} (hhead : eqHead s.cur = some w) (hof : ∀ t, OfCur t (put w t))
    (hput : ∀ t, (put w t).cur = t.cur.setCtx (t.cur.ctx.gets (apTime t + 2) dst v)) :
    WordRuns i h { cls := 3, mainOnly := true } s (popEq s.cur) ((s.cur.ctx.gets (apTime s + 2) dst v).advance s.cur.apWords) := by
  rw [← aside_popEq.apWords s.cur]
  refine wordRuns_done (t := put w ((apPops h s).modCur popEq)) hi g ?_ ((ofCur_modCur _ _).trans (hof _)) ?_
  · dsimp only
    rw [cur_apPops, eqHead_popCore, hhead]
    rfl
  · rw [hput, gets_modCur aside_popEq]

theorem stall_popq (hhead : eqHead s.cur = none) : exec i s = .next (apStall 6 (apPops h s)) := by
  refine exec_of_body (r := .stall 6 (apPops h s)) hi g ?_
  dsimp only
  rw [cur_apPops, eqHead_popCore, hhead]

end

theorem apPopQueue : Claims.ApPopQueue := by
  intro h d p s sp g
  refine ⟨fun t w rest heq hlt => ?takes, fun hnone => ?stalls⟩
  case takes =>
    have hhead : eqHead s.cur = some w := by
      unfold eqHead
      rw [heq]
      exact if_pos hlt
    have hcore : popEq s.cur = { s.cur with q := { s.cur.q with eq := rest } } := by
      unfold popEq
      rw [heq]
      rfl
    intro c
    have hc : c = popEq s.cur := hcore.symm
    rw [hc]
    exact ⟨wordRuns_popq (put := fun w t => setX t 2 d w) rfl g hhead (fun t => ofCur_setX _ _ _ _) fun t => cur_setX _ _ _ _,
      wordRuns_popq (put := fun w t => setP t 2 p (w.getLsbD 0)) rfl g hhead (fun t => ofCur_setP _ _ _ _) fun t => cur_setP _ _ _ _⟩
  case stalls =>
    have hhead : eqHead s.cur = none := by
      unfold eqHead
      obtain hnil | ⟨t, w, rest, heq, hlate⟩ := hnone
      · rw [hnil]
      · rw [heq]
        exact if_neg (Nat.not_lt.mpr hlate)
    exact ⟨stall_popq rfl g hhead, stall_popq rfl g hhead⟩

/-! ### Markers, discards and fences -/

/-- The markers of a context once one of tag `g` is made: those that neither name the latest of their tag nor hold a read are dropped. -/
def marksWith (g : Nat) (x : ApCtx) : List (Nat × Nat) :=
  (g, x.po) :: x.marks.filter fun m => m.1 != g || x.wq.any fun e => decide (e.po < m.2)

theorem find?_marksWith_ne {g t : Nat} (h : t ≠ g) (x : ApCtx) :
    (marksWith g x).find? (fun e => e.1 == t) = x.marks.find? fun e => e.1 == t := by
  have hkept (e : Nat × Nat) (he : (e.1 == t) = true) : (e.1 != g || x.wq.any fun w => decide (w.po < e.2)) = true := by
    rw [beq_iff_eq] at he
    rw [he, bne_iff_ne.mpr h, Bool.true_or]
  rw [marksWith, List.find?_cons_of_neg (by simpa using Ne.symm h), List.find?_filter]
  congr 1
  funext e
  cases he : e.1 == t with
  | false => exact decide_eq_false fun e => Bool.false_ne_true e.2
  | true => exact decide_eq_true ⟨hkept e he, rfl⟩

theorem apMarkersAndFences : Claims.ApMarkersAndFences := by
  intro h tag k sc s x
  refine ⟨fun g => ⟨⟨marksWith tag.toNat x, ?_, ?_, fun t ht => find?_marksWith_ne ht x, fun e he => ?_⟩,
    fun m hm => ?kills, fun hm => ?nothing⟩, fun g hk hsc => ?fence⟩
  · exact wordRuns_modCtx (k := fun x => { x with marks := marksWith tag.toNat x }) rfl g rfl rfl
  · exact List.find?_cons_of_pos (by simp)
  · obtain rfl | hmem := List.mem_cons.mp he
    · exact .inl rfl
    · exact .inr (List.mem_of_mem_filter hmem)
  case kills =>
    refine writes_result rfl g ?_
    rw [ctx_apPops, hm]
  case nothing =>
    refine wordRuns_plain rfl g ?_
    rw [ctx_apPops, hm]
  case fence =>
    refine wordRuns_modCtx (k := fun x => { x with fences := x.fences ++ [⟨x.po, k.toNat, hdrPushes .ap h⟩] })
      (exec_of_card rfl g ?_) g rfl rfl
    rw [decide_eq_false hk, decide_eq_false (Nat.not_le.mpr hsc)]
    rfl

/-- Settles O8: rows by induction on their number, the pop as a change aside from the contexts, markers by their list. -/
theorem apQueueWords : Obligations.ApQueueWords := ⟨apQueueAccesses, apPopQueue, apMarkersAndFences⟩

end Sys2Proof.Proofs

/-!
SUPPORT and the proof of `ApSystemRegisters`: the fields of the system registers, their reads and writes, and the TLB invalidation
(05_ap_model.md R102, 06_ap_instr.md R152, R153, 04_memory.md R86).
-/

namespace Sys2Proof.Proofs

open Sys2Proof.Machine Sys2Proof.Laws

/-! ### Registers as words -/

/-- The fields of MODE (R102). -/
theorem mode_fields (det raw priv : Bool) :
    let v : Word := w64 ((if det then 1 else 0) + (if raw then 2 else 0) + (if priv then 8 else 0))
    v.getLsbD 0 = det ∧ v.getLsbD 1 = raw ∧ v.getLsbD 2 = false ∧ v.getLsbD 3 = priv ∧ v.toNat < 16 := by
  cases det <;> cases raw <;> cases priv <;> decide

/-- The fields of BRPEND. -/
theorem brpendWord_fields (y : Sys) :
    wbits (brpendWord y) 0 14 = y.bpTarget.toNat ∧ wbits (brpendWord y) 14 2 = 0 ∧ wbits (brpendWord y) 16 1 = (if y.bpV then 1 else 0)
      ∧ wbits (brpendWord y) 17 2 = y.bpLeft.toNat ∧ wbits (brpendWord y) 19 45 = 0 := by
  have htarget := y.bpTarget.isLt
  have hleft := y.bpLeft.isLt
  have hvalid : (if y.bpV then 2 ^ 16 else 0) = 2 ^ 16 * (if y.bpV then 1 else 0) := by split <;> rfl
  have hone : (if y.bpV then 1 else 0) ≤ 1 := by split <;> decide
  simp only [wbits_eq_div_mod, brpendWord, w64, BitVec.toNat_ofNat, hvalid]
  generalize (if y.bpV then 1 else 0) = v at *
  omega

/-- The fields of CORE_ID. -/
theorem coreId_fields (k : Nat) : wbits (coreId k) 0 5 = k % 32 ∧ wbits (coreId k) 5 3 = k / 32 % 8
    ∧ wbits (coreId k) 8 2 = k / 256 % 4 ∧ wbits (coreId k) 10 54 = 0 := by
  simp only [wbits_eq_div_mod, coreId, clusterOf, dieOf, w64, BitVec.toNat_ofNat]
  omega

/-! ### Reads -/

theorem inHandler_apPops (h : Hdr) (s : State) : (apPops h s).cur.inHandler = s.cur.inHandler := by
  rw [cur_apPops, inHandler_popCore]

theorem hsnap_apPops (h : Hdr) (s : State) : (apPops h s).cur.hsnap = s.cur.hsnap := by
  rw [cur_apPops, popCore_eq]
  unfold Core.setCtx
  split <;> rfl

theorem sysValue_apPops (h : Hdr) (s : State) (n : Nat) : sysValue (apPops h s) n = sysValue s n := by
  unfold sysValue
  rw [sys_apPops, hsnap_apPops, (ofCur_apPops h s).clock, (ofCur_apPops h s).turn]

theorem sysValue_snapshot {s : State} {n : Nat} (hn : 0x100 ≤ n) : sysValue s n = smGet 0 s.cur.hsnap n := by
  unfold sysValue
  dsimp only
  split
  case h_13 => exact if_pos hn
  all_goals exact absurd hn (by decide)

section
variable {h : Hdr} {d : BitVec 5} {i : BitVec 11} {s : State} {n : Nat} (hn : Claims.immediateBits s i = n)
include hn

/-- A read of a listed register, where neither the mode, the context nor the debug lock forbids it. -/
theorem sysr_writes (g : ApGoes h { cls := 0, extOk := true } s) (hlisted : sysListed n = true)
    (hdet : (s.cur.sys.det && (n == 0x10 || n == 0x11 || n == 0x101)) = false)
    (hsnap : 0x100 ≤ n → s.cur.inHandler = true ∧ s.cur.sys.feat.getLsbD 0 = true) :
    Writes (.sysr h d i) h { cls := 0, extOk := true } s 2 (xDst d) (sysValue s n) := by
  rw [← immU_eq] at hn
  refine wordRuns_done (t := setX (apPops h s) 2 d (sysValue s n)) (exec_of_card (sp := { cls := 0, extOk := true }) rfl g ?_) g ?_
    (ofCur_setX _ _ _ _) (by rw [cur_setX, gets_apPops])
  · rw [hn, hlisted]
    rfl
  · dsimp only
    rw [immU_apPops, hn, sys_apPops, hdet, inHandler_apPops, sysValue_apPops, if_neg Bool.false_ne_true,
      if_neg (fun e => Bool.false_ne_true (e.2.symm.trans (hsnap e.1).1)), if_neg (fun e => Bool.false_ne_true (e.2.symm.trans (hsnap e.1).2))]

/-! ### Writes -/

theorem sysw_writes (g : ApGoes h { cls := 0, extOk := true } s) (hlisted : sysListed n = true) (hother : n ≠ 0x40)
    (hbad : sysBad n (xr s d) = false) :
    Writes (.sysw h d i) h { cls := 0, extOk := true } s 1 (some (.sys n)) (xr s d) := by
  rw [← immU_eq] at hn
  have hsends : (immU s i == 0x40) = false := by
    rw [hn]
    exact beq_eq_false_iff_ne.mpr hother
  have hcard : (!sysListed (immU s i)) = false := by
    rw [hn, hlisted]
    rfl
  have hi : exec (.sysw h d i) s = .next (apWord h { cls := 0, extOk := true, bad := !sysListed (immU s i), sends := immU s i == 0x40 } _ s) := rfl
  rw [hsends] at hi
  refine writes_result (exec_of_card (sp := { cls := 0, extOk := true }) hi g hcard) g ?_
  dsimp only
  rw [immU_apPops, hn, if_neg hother, xr_apPops, hbad]
  rfl

end

/-- What a register refuses (R86, R102). -/
theorem sysBad_iff (n : Nat) (v : Word) : sysBad n v = true ↔
    (n = 0 ∧ (v.toNat / 4 % 2 = 1 ∨ 16 ≤ v.toNat)) ∨ (n = 5 ∧ (2 ^ 19 ≤ v.toNat ∨ v.toNat / 2 ^ 14 % 4 ≠ 0))
      ∨ (n = 0x20 ∧ v.toNat % 2 = 1 ∧ 2 ≤ v.toNat / 2 % 4) ∨ (n = 0x40 ∧ (2 ≤ v.toNat % 4 ∨ v.toNat / 4 % 2 ^ 14 ≠ 0)) := by
  have hlt := v.isLt
  unfold sysBad
  simp only [wbits_eq_div_mod, Nat.reducePow]
  split
  case h_5 h0 h5 h20 h40 =>
    refine iff_of_false Bool.false_ne_true ?_
    rintro (⟨hn, -⟩ | ⟨hn, -⟩ | ⟨hn, -⟩ | ⟨hn, -⟩)
    exacts [h0 hn, h5 hn, h20 hn, h40 hn]
  all_goals simp only [Bool.or_eq_true, Bool.and_eq_true, bne_iff_ne, beq_iff_eq, decide_eq_true_eq, true_and,
    false_and, or_false, false_or, OfNat.ofNat_ne_zero, OfNat.zero_ne_ofNat, Nat.reduceEqDiff]
  all_goals omega

theorem apSystemRead : Claims.ApSystemRead := by
  intro h d i s g n y r
  have plain {m : Nat} (hn : n = m) (hlisted : sysListed m = true) (hlow : m < 0x100)
      (htime : (y.det && (m == 0x10 || m == 0x11 || m == 0x101)) = false) : r (sysValue s m) :=
    sysr_writes hn g hlisted htime (fun hle => absurd hlow (Nat.not_lt.mpr hle))
  have always {m : Nat} (hn : n = m) (hlisted : sysListed m = true) (hlow : m < 0x100)
      (htime : (m == 0x10 || m == 0x11 || m == 0x101) = false) : r (sysValue s m) :=
    plain hn hlisted hlow (by rw [htime, Bool.and_false])
  refine ⟨fun hn => always hn rfl (by decide) rfl, fun hn => always hn rfl (by decide) rfl, fun hn => always hn rfl (by decide) rfl,
    fun hn => ⟨_, always hn rfl (by decide) rfl, mode_fields y.det y.raw y.priv⟩, fun hn => always hn rfl (by decide) rfl,
    fun hn => ⟨_, always hn rfl (by decide) rfl, brpendWord_fields y⟩, fun hn => always hn rfl (by decide) rfl,
    fun hn => always hn rfl (by decide) rfl, fun hn hdet => plain hn rfl (by decide) (by rw [hdet]; rfl),
    fun hn hdet => ⟨_, plain hn rfl (by decide) (by rw [hdet]; rfl), coreId_fields s.turn.1⟩, fun hn => always hn rfl (by decide) rfl,
    fun hn => always hn rfl (by decide) rfl, fun hlow hhigh hin hfeat hcyc => ?snapshot⟩
  case snapshot =>
    have htime : (y.det && (n == 0x10 || n == 0x11 || n == 0x101)) = false := by
      rw [Bool.eq_false_iff]
      simp only [ne_eq, Bool.and_eq_true, Bool.or_eq_true, beq_iff_eq]
      rintro ⟨hdet, (h10 | h11) | h101⟩
      · omega
      · omega
      · exact hcyc ⟨hdet, h101⟩
    have hlisted : sysListed n = true := by
      unfold sysListed
      rw [decide_eq_true hlow, decide_eq_true hhigh, Bool.and_self, Bool.or_true]
    have hread : r (sysValue s n) := sysr_writes rfl g hlisted htime (fun _ => ⟨hin, hfeat⟩)
    rwa [sysValue_snapshot hlow] at hread

theorem apSystemWrite : Claims.ApSystemWrite := by
  intro h d i s y v g
  refine ⟨fun hmem hbad => ?writes, fun n => sysBad_iff n v, ?mode, rfl, ?brpend, rfl, ?eccinj, fun n hmem => ?kept⟩
  case writes =>
    have hall : ∀ n ∈ [0, 1, 2, 3, 4, 5, 8, 9, 0x10, 0x11, 0x18, 0x20], sysListed n = true ∧ n ≠ 0x40 := by decide
    obtain ⟨hlisted, hother⟩ := hall _ hmem
    exact sysw_writes rfl g hlisted hother hbad
  case mode => rw [sysWrite, wbits_one_beq]
  case brpend => rw [sysWrite, wbits_one_beq, ofNat_wbits]
  case eccinj => rw [sysWrite, wbits_one_beq, ofNat_wbits, ofNat_wbits]
  case kept =>
    simp only [List.mem_cons, List.not_mem_nil, or_false] at hmem
    rcases hmem with rfl | rfl | rfl | rfl | rfl | rfl | rfl <;> rfl

/-! ### The invalidation -/

section
variable {h : Hdr} {d : BitVec 5} {i : BitVec 11} {s : State}
  (g : ApGoes h { cls := 0, extOk := true, sends := true } s) (hn : Claims.immediateBits s i = 0x40)
include g hn

/-- The body of a write of TLBI. -/
theorem exec_tlbi : ∃ body off, exec (.sysw h d i) s = .next (apWord h { cls := 0, extOk := true, sends := true } body s off)
    ∧ body (apPops h s) = heldWord (fun u => if sysBad 0x40 (xr s d) then .trap 0x02 none else holdAt (.tlbi (xr s d)) u)
        (fun _ u => .done u) (apPops h s) := by
  rw [← immU_eq] at hn
  have hsends : (immU s i == 0x40) = true := by
    rw [hn]
    rfl
  have hcard : (!sysListed (immU s i)) = false := by
    rw [hn]
    rfl
  have hi : exec (.sysw h d i) s = .next (apWord h { cls := 0, extOk := true, bad := !sysListed (immU s i), sends := immU s i == 0x40 } _ s) := rfl
  rw [hsends] at hi
  refine ⟨_, _, exec_of_card (sp := { cls := 0, extOk := true, sends := true }) hi g hcard, ?_⟩
  dsimp only
  rw [immU_apPops, hn, if_pos rfl, xr_apPops]

end

theorem apTlbInvalidate : Claims.ApTlbInvalidate := by
  intro h d i s sp g hn
  obtain ⟨body, off, hi, hbody⟩ := exec_tlbi (d := d) g hn
  refine ⟨fun hheld hkind hreserved => ?asks, fun v hanswer => ?answered⟩
  case asks =>
    have hgood : sysBad 0x40 (xr s d) = false := by
      rw [Bool.eq_false_iff, ne_eq, sysBad_iff]
      omega
    refine (exec_of_body (r := holdAt (.tlbi (xr s d)) (apPops h s)) hi g ?_).trans ?_
    · rw [hbody, heldWord, held_apPops, show s.cur.held = none from hheld]
      dsimp only
      rw [hgood]
      rfl
    · rw [holdAt, apTime_apPops]
      rfl
  case answered =>
    obtain ⟨kind, f, hheld⟩ := hanswer
    refine wordRuns_modCur (f := fun c => c.setHeld none) (aside_setHeld none) hi g ?_
    rw [hbody, heldWord, held_apPops, show s.cur.held = _ from hheld]

/-- Settles O19: the read and the write of a register by one rule each; a write of TLBI as a held word. -/
theorem apSystemRegisters : Obligations.ApSystemRegisters := ⟨apSystemRead, apSystemWrite, apTlbInvalidate⟩

end Sys2Proof.Proofs

/-!
SUPPORT and the proof of `ExceptionsTaken`: the entry of the handler, its start, and the return from it (06_ap_instr.md R150, R151, 22_faults.md R354,
R356, R358).
-/

namespace Sys2Proof.Proofs

open Sys2Proof.Machine Sys2Proof.Laws

/-! ### The entry of the handler -/

/-- A core that enters the handler with the event `d`. -/
def entered (c : Core) (d : Deliv) : Core :=
  let cause := if d.cause = 9 then 0 else d.cause.toNat
  { c with
    sys := ({ c.sys with epc := d.epc, cause := d.cause, faddr := d.faddr } : Sys).pend d.bp
    hnd := some d
    hsnap := if d.cmd.isSome then snapshot { c with hnd := some d } cause 3 0 else snapshot { c with hnd := some d } cause 0 d.epc.toNat }

theorem enterHandler_eq (s : State) (k : Nat) (d : Deliv) : deliver.enterHandler s k d = s.setCore k (entered (s.core k) d) := rfl

section
variable (y : Sys) (bp : Option Br)

theorem pend_valid : (y.pend bp).bpV = bp.isSome := by cases bp <;> rfl
theorem pend_epc : (y.pend bp).epc = y.epc := by cases bp <;> rfl
theorem pend_cause : (y.pend bp).cause = y.cause := by cases bp <;> rfl
theorem pend_faddr : (y.pend bp).faddr = y.faddr := by cases bp <;> rfl
theorem pend_oum : (y.pend bp).oum = y.oum := by cases bp <;> rfl
theorem pend_ccm : (y.pend bp).ccm = y.ccm := by cases bp <;> rfl
theorem pend_raw : (y.pend bp).raw = y.raw := by cases bp <;> rfl
theorem pend_det : (y.pend bp).det = y.det := by cases bp <;> rfl

theorem pend_branch {bp : Option Br} {b : Br} (h : bp = some b) :
    (y.pend bp).bpTarget = b.target.setWidth 14 ∧ (y.pend bp).bpLeft = BitVec.ofNat 2 b.left := by
  subst h
  exact ⟨rfl, rfl⟩

end

/-- The event of a `trap` at the word that the main context stands at. -/
def trapEvent (s : State) (f : Word) : Deliv :=
  { epc := s.cur.main.unitPc, cause := 9, faddr := f, cmd := none, apPo := none, bp := s.cur.main.pending, start := s.clock + 8, running := false }

/-- A `trap` outside the handler, where no delivery is in progress. -/
theorem apFault_trap {s : State} {f : Word} (hin : s.cur.inHandler = false) (hidle : s.cur.hnd = none) (hqueue : s.cur.hndQ = [])
    (hhas : hasHandler s s.turn.1 = true) :
    apFault s 9 (some f) = s.setCur (entered { s.cur with main := { s.cur.main with stall := 0 } } (trapEvent s f)) := by
  have hcur : (apStall 0 s).cur = { s.cur with main := { s.cur.main with stall := 0 } } := by
    rw [apStall, cur_modCtx, Core.setCtx, Core.ctx, hin]
    rfl
  have hin' : (apStall 0 s).cur.inHandler = false := by
    rw [hcur]
    exact hin
  have hnone : ((apStall 0 s).cur.hnd.isSome || !(apStall 0 s).cur.hndQ.isEmpty) = false := by
    rw [hcur]
    dsimp only
    rw [hidle, hqueue]
    rfl
  unfold apFault faddrOf
  dsimp only
  rw [hin', if_neg Bool.false_ne_true, if_pos ⟨rfl, hhas⟩]
  unfold deliver
  refine (if_neg (fun e => Bool.false_ne_true (hnone.symm.trans e))).trans ?_
  rw [enterHandler_eq, show (apStall 0 s).core (apStall 0 s).turn.1 = (apStall 0 s).cur from rfl, hcur]
  exact setCur_setCur s _ _

/-- The main context runs: the core with the pops of its word taken. -/
theorem cur_apPops_main (h : Hdr) {s : State} (hin : s.cur.inHandler = false) :
    (apPops h s).cur = { poppedTok h s.cur s.cur with main := { s.cur.main with popped := true } } := by
  have hin' : (poppedTok h s.cur s.cur).inHandler = false := hin
  rw [cur_apPops, popCore_eq, Core.setCtx, hin', Core.ctx, hin]
  rfl

theorem trapDelivered : Claims.TrapDelivered := by
  intro h i s g hin hidle hqueue hhas m epc
  have hcur := cur_apPops_main h hin
  have hof := ofCur_apPops h s
  have hhas' : hasHandler (apPops h s) (apPops h s).turn.1 = true := by
    have hpart : hasHandler (apPops h s) (apPops h s).turn.1 = hasHandler s s.turn.1 := by
      unfold hasHandler
      rw [(coresApart_apPops h s).partOfCore, hof.turn, (coresApart_apPops h s).eq]
      rfl
    rw [hpart]
    exact bne_iff_ne.mpr hhas
  have hnext : exec (.trap h i) s = .next (apFault (apPops h s) 9 (some (w64 (immU s i)))) := by
    refine exec_of_body (r := .trap 9 (some (w64 (immU s i)))) rfl g ?_
    rw [inHandler_apPops, hin, immU_apPops]
    rfl
  rw [apFault_trap (by rw [inHandler_apPops, hin]) (by rw [hcur]; exact hidle) (by rw [hcur]; exact hqueue) hhas', hof, trapEvent, hof.clock, hcur,
    immU_eq] at hnext
  refine ⟨_, hnext, onlyCur_setCur _ _, ?_⟩
  rw [cur_setCur]
  refine ⟨rfl, pend_epc _ _, pend_cause _ _, pend_faddr _ _, ?_, fun b hb => ?_, pend_oum _ _, pend_ccm _ _, pend_raw _ _, pend_det _ _, rfl, rfl, rfl,
    rfl⟩
  · exact (pend_valid _ _).trans Option.isSome_map
  · exact pend_branch _ (congrArg (Option.map fun b : Br => { b with left := b.left + m.ext.length }) hb)

/-! ### The next event, and the start of the handler -/

theorem nextEventDelivered : Claims.NextEventDelivered := by
  intro s k d rest hq m epc bp
  refine ⟨fun hbusy => ?busy, fun hidle => ?idle⟩
  case busy =>
    show execHandlerDelivery k s = _
    unfold execHandlerDelivery
    dsimp only
    rw [hq]
    dsimp only
    rw [if_pos (Option.isSome_iff_ne_none.mpr hbusy)]
  case idle =>
    have hevent : (if d.cmd.isSome then { d with epc := m.unitPc, bp := m.pending } else d) = { d with epc := epc, bp := bp } := by
      show _ = ({ d with epc := if d.cmd.isSome then m.unitPc else d.epc, bp := if d.cmd.isSome then m.pending else d.bp } : Deliv)
      split <;> rfl
    have hnext : exec (.handlerDelivery k) s
        = .next (s.setCore k (entered { s.core k with hndQ := rest } { d with epc := epc, bp := bp, start := s.clock + 8 })) := by
      show execHandlerDelivery k s = _
      unfold execHandlerDelivery
      dsimp only
      rw [hq]
      dsimp only
      rw [hidle, if_neg (by decide), hevent, enterHandler_eq, setCore_setCore, core_setCore_same]
    refine ⟨_, hnext, onlyCore_setCore _ _ _, ?_⟩
    rw [core_setCore_same]
    exact ⟨rfl, rfl, pend_epc _ _, pend_cause _ _, pend_faddr _ _, pend_valid _ _, fun b hb => pend_branch _ hb, rfl, rfl, rfl⟩

theorem handlerStarts : Claims.HandlerStarts := by
  intro s k d hd hrun
  have hexec : exec (.handlerStart k) s = execHandlerStart k s := rfl
  unfold execHandlerStart at hexec
  dsimp only at hexec
  rw [hd] at hexec
  dsimp only at hexec
  rw [hrun, Bool.false_or] at hexec
  refine ⟨fun hearly => ?_, fun hlate => ?_⟩
  · rw [hexec, if_pos (decide_eq_true hearly)]
  · rw [if_neg (by simpa using hlate)] at hexec
    refine ⟨_, hexec, onlyCore_setCore _ _ _, ?_⟩
    rw [core_setCore_same]
    exact ⟨rfl, rfl, rfl, rfl, rfl, rfl, rfl⟩

/-! ### The return -/

section
variable {x : ApCtx} {y : Sys}

theorem returnPc_plain (h : y.bpV = false) : (returnPc x y).pc = y.epc ∧ (returnPc x y).br = none := by
  unfold returnPc
  rw [h]
  exact ⟨rfl, rfl⟩

theorem returnPc_transfers (h : y.bpV = true) (hl : y.bpLeft = 0) :
    (returnPc x y).pc = y.bpTarget ∧ (returnPc x y).br = none ∧ (returnPc x y).via = true := by
  unfold returnPc
  rw [h, hl]
  exact ⟨rfl, rfl, rfl⟩

theorem returnPc_delays (h : y.bpV = true) (hl : y.bpLeft ≠ 0) :
    (returnPc x y).pc = y.epc ∧ (returnPc x y).br = some ⟨y.bpLeft.toNat, y.bpTarget.zeroExtend 64⟩ := by
  unfold returnPc
  dsimp only
  rw [if_pos h, if_neg hl]
  exact ⟨rfl, rfl⟩

/-- The return moves the pc, and leaves registers, loops, results on their way and memory events. -/
theorem returnPc_keeps (x : ApCtx) (y : Sys) : (returnPc x y).x = x.x ∧ (returnPc x y).p = x.p ∧ (returnPc x y).b = x.b
    ∧ (returnPc x y).loops = x.loops ∧ (returnPc x y).fly = x.fly ∧ (returnPc x y).rq = x.rq ∧ (returnPc x y).wq = x.wq := by
  unfold returnPc
  dsimp only
  split
  · split <;> exact ⟨rfl, rfl, rfl, rfl, rfl, rfl, rfl⟩
  · exact ⟨rfl, rfl, rfl, rfl, rfl, rfl, rfl⟩

end

/-- The main context as it resumes after the event `d`. -/
def mainAfter (c : Core) (d : Deliv) : ApCtx := if d.apPo.isSome then c.main else returnPc c.main c.sys

theorem mainAfter_moved {c : Core} {d : Deliv} (h : d.apPo = none) : mainAfter c d = returnPc c.main c.sys := by
  rw [mainAfter, h]
  rfl

theorem mainAfter_keeps (c : Core) (d : Deliv) : (mainAfter c d).x = c.main.x ∧ (mainAfter c d).p = c.main.p ∧ (mainAfter c d).b = c.main.b
    ∧ (mainAfter c d).loops = c.main.loops ∧ (mainAfter c d).fly = c.main.fly ∧ (mainAfter c d).rq = c.main.rq
    ∧ (mainAfter c d).wq = c.main.wq := by
  unfold mainAfter
  split
  · exact ⟨rfl, rfl, rfl, rfl, rfl, rfl, rfl⟩
  · exact returnPc_keeps _ _

/-- The commands of a core once the one that the event `d` is of may walk again. -/
def cmdsAfter (c : Core) (d : Deliv) : List Cmd :=
  match d.cmd with
  | some q => c.cmds.map fun m => if m.seq = q then { m with walk := false } else m
  | none => c.cmds

theorem cmdsAfter_eq (c : Core) (d : Deliv) :
    cmdsAfter c d = c.cmds.map fun m => if d.cmd = some m.seq then { m with walk := false } else m := by
  unfold cmdsAfter
  split
  · next q hq =>
    rw [hq]
    simp only [Option.some.injEq, eq_comm]
  · next hq =>
    rw [hq]
    simp

/-- A core that leaves the handler's event `d` at clock cycle `t`, but for its freeze. -/
def resumed (c : Core) (d : Deliv) (t : Nat) : Core :=
  { c with
    main := mainAfter c d, pend := if d.apPo.isSome || sameWord c.main c.sys then c.pend else none, cmds := cmdsAfter c d, hnd := none
    since := t + 1, sys := { c.sys with bpV := false }, shadow := { c.shadow with br := none, bad := none, ext := [], extBad := false } }

theorem resumeMain_eq {s : State} {k : Nat} {d : Deliv} (hd : (s.core k).hnd = some d) :
    ∃ f, resumeMain s k = s.setCore k { resumed (s.core k) d s.clock with freeze := f } := by
  have hthaw (c : Core) (t : Nat) : ∃ f, c.thaw t = { c with freeze := f } := by
    unfold Core.thaw
    split
    · exact ⟨_, rfl⟩
    · exact ⟨c.freeze, rfl⟩
  obtain ⟨f, hf⟩ := hthaw (resumed (s.core k) d s.clock) (s.clock + 1)
  refine ⟨f, ?_⟩
  rw [← hf]
  unfold resumeMain
  dsimp only
  rw [hd]
  rfl

/-- The shadow context runs: the core with the last word of the handler done. -/
theorem cur_handlerDone {h : Hdr} {s : State} (hin : s.cur.inHandler = true) :
    ∃ x, (handlerDone (apPops h s)).cur = { poppedTok h s.cur s.cur with shadow := x } := by
  have hin' : (poppedTok h s.cur s.cur).inHandler = true := hin
  rw [handlerDone, cur_modCtx, cur_apPops, popCore_eq, setCtx_setCtx, Core.setCtx, hin']
  exact ⟨_, rfl⟩

theorem exec_eret {h : Hdr} {s : State} (g : ApGoes h { cls := 0 } s) (hin : s.cur.inHandler = true) (hbr : s.cur.shadow.br = none)
    (hrq : s.cur.shadow.rq = []) (hwq : s.cur.shadow.wq = []) :
    exec (.eret h) s = .next (resumeMain (handlerDone (apPops h s)) (apPops h s).turn.1) := by
  have hctx : s.cur.ctx = s.cur.shadow := by
    rw [Core.ctx, hin]
    rfl
  refine exec_of_body (r := .leave _) rfl g ?_
  dsimp only
  rw [ctx_apPops, inHandler_apPops, hctx, hin, eventsLeft]
  dsimp only
  rw [hbr, hrq, hwq]
  rfl

theorem exceptionReturn : Claims.ExceptionReturn := by
  intro h s d g hin hd hbr hrq hwq y
  obtain ⟨x, hcur⟩ := cur_handlerDone (h := h) hin
  have hof : OfCur s (handlerDone (apPops h s)) := (ofCur_apPops h s).trans (ofCur_modCtx _ _)
  have hturn : (apPops h s).turn = (handlerDone (apPops h s)).turn := rfl
  have hnext := exec_eret g hin hbr hrq hwq
  obtain ⟨f, hf⟩ := resumeMain_eq (s := handlerDone (apPops h s)) (k := (apPops h s).turn.1) (d := d)
    (by show (handlerDone (apPops h s)).cur.hnd = _; rw [hcur]; exact hd)
  have hset (c : Core) : (handlerDone (apPops h s)).setCore (apPops h s).turn.1 c = s.setCur c := hof c
  rw [hf, hset, show (handlerDone (apPops h s)).core (apPops h s).turn.1 = (handlerDone (apPops h s)).cur from rfl, hcur] at hnext
  refine ⟨_, hnext, onlyCur_setCur _ _, ?_⟩
  rw [cur_setCur]
  obtain ⟨hx, hp, hb, hloops, hfly, hreads, hwrites⟩ := mainAfter_keeps s.cur d
  refine ⟨rfl, rfl, fun hap => ?walked, fun hap hv => ?plain, fun hap hv hl => ?transfers, fun hap hv hl => ?delays, fun hap hne => ?released,
    hx, hp, hb, hloops, hfly, hreads, hwrites, cmdsAfter_eq s.cur d⟩
  case walked => exact if_pos (Option.isSome_iff_ne_none.mpr hap)
  case plain => exact (mainAfter_moved hap ▸ returnPc_plain hv : (mainAfter s.cur d).pc = _ ∧ (mainAfter s.cur d).br = _)
  case transfers =>
    exact (mainAfter_moved hap ▸ returnPc_transfers hv hl :
      (mainAfter s.cur d).pc = _ ∧ (mainAfter s.cur d).br = _ ∧ (mainAfter s.cur d).via = _)
  case delays => exact (mainAfter_moved hap ▸ returnPc_delays hv hl : (mainAfter s.cur d).pc = _ ∧ (mainAfter s.cur d).br = _)
  case released =>
    have hother : (d.apPo.isSome || sameWord s.cur.main y) = false := by
      rw [hap, sameWord, beq_eq_false_iff_ne.mpr hne]
      rfl
    exact if_neg (fun e => Bool.false_ne_true (hother.symm.trans e))

/-- Settles O20: the entry of the handler as one change of a core, and the return by its three cases. -/
theorem exceptionsTaken : Obligations.ExceptionsTaken := ⟨trapDelivered, handlerStarts, nextEventDelivered, exceptionReturn⟩

end Sys2Proof.Proofs

/-!
SUPPORT. Where the bytes of an access lie, and what writing them leaves (03_numbers.md R71, 04_memory.md R75-R85, 05_ap_model.md R110).
-/

namespace Sys2Proof.Proofs

open Sys2Proof.Machine Sys2Proof.Laws

/-! ### What a change of cores alone leaves of an access -/

theorem gpaNat_cores (s : State) (m : SMap Core) (p : Part) (mod n : Nat) (gpa : Nat) :
    gpaNat { s with cores := m } p mod gpa n = gpaNat s p mod gpa n := by
  induction n generalizing gpa with
  | zero => rfl
  | succ n ih => rw [gpaNat, gpaNat, ih]; rfl

theorem walkFrom_cores (s : State) (m : SMap Core) (pn : Nat) (p : Part) (mod va lvl tab : Nat) :
    walkFrom { s with cores := m } pn p mod va lvl tab = walkFrom s pn p mod va lvl tab := by
  induction lvl generalizing tab with
  | zero => rfl
  | succ l ih => simp only [walkFrom, gpaNat_cores, ih]

theorem walk_cores (s : State) (m : SMap Core) (pn mod va : Nat) : walk { s with cores := m } pn mod va = walk s pn mod va := by
  unfold walk
  dsimp only
  rw [walkFrom_cores]
  rfl

section
variable {s t : State} (h : CoresApart s t)
include h

theorem CoresApart.memByte (a : Nat) : memByte t a = memByte s a := by
  rw [h.eq]
  rfl

theorem CoresApart.memRead (a g : Nat) : memRead t a g = memRead s a g := by
  rw [h.eq]
  rfl

theorem CoresApart.poison : t.poison = s.poison := by
  rw [h.eq]

theorem CoresApart.byteLoc (k : Nat) (xl : List Xl) (va : Word) : byteLoc t k xl va = byteLoc s k xl va := by
  simp only [Machine.byteLoc, h.spadOf]

theorem CoresApart.ownSpad (k : Nat) (va : Word) : ownSpad t k va = ownSpad s k va := by
  simp only [Machine.ownSpad, h.spadOf]

theorem CoresApart.vaByte (k : Nat) (xl : List Xl) (va : Word) : vaByte t k xl va = vaByte s k xl va := by
  simp only [Machine.vaByte, h.byteLoc, h.memByte, h.memRead, copyOf, copyRead, h.copy, h.rid, h.region]

theorem CoresApart.vaBytes (k : Nat) (xl : List Xl) (va : Word) (n : Nat) : vaBytes t k xl va n = vaBytes s k xl va n := by
  simp only [Machine.vaBytes, h.vaByte]

theorem CoresApart.vaPoison (k : Nat) (xl : List Xl) (va : Word) (n : Nat) : vaPoison t k xl va n = vaPoison s k xl va n := by
  simp only [Machine.vaPoison, h.byteLoc, h.poison]

theorem CoresApart.unitOf (k : Nat) (va : Word) : unitOf t k va = unitOf s k va := by
  have htlb (die pn a : Nat) : tlbFind t die pn a = tlbFind s die pn a := by
    rw [h.eq]
    rfl
  have hwalk (pn mod a : Nat) : walk t pn mod a = walk s pn mod a := by
    rw [h.eq, walk_cores]
  have hleaf (mod : Nat) (e : TlbE) (v : Nat) (n : Need) : leafCheck t mod e v n = leafCheck s mod e v n := by
    rw [h.eq]
    rfl
  simp only [Machine.unitOf, h.spadOf, h.partOfCore, htlb, hwalk, hleaf]

theorem CoresApart.injHits {k : Nat} (hsys : (t.core k).sys = (s.core k).sys) (xl : List Xl) (va : Word) (n : Nat) :
    injHits t k xl va n = injHits s k xl va n := by
  simp only [Machine.injHits, hsys, h.unitOf, h.byteLoc]

theorem CoresApart.cleanRead {k : Nat} (hsys : (t.core k).sys = (s.core k).sys) {xl : List Xl} {va : Word} {n : Nat}
    (hc : Claims.cleanRead s k xl va n) : Claims.cleanRead t k xl va n :=
  ⟨(h.injHits hsys xl va n).trans hc.1, (h.vaPoison k xl va n).trans hc.2⟩

end

/-! ### The bytes of an aligned access -/

/-- `n` bytes from a multiple of `n`, a power of two up to 16, never leave their block of 16. -/
theorem aligned_block {va n i : Nat} (hn : n ∈ [1, 2, 4, 8, 16]) (halign : va % n = 0) (hi : i < n) : va % 16 + i < 16 := by
  simp only [List.mem_cons, List.not_mem_nil, or_false] at hn
  rcases hn with rfl | rfl | rfl | rfl | rfl <;> omega

section
variable {va : Word} {i : Nat} (h : va.toNat % 16 + i < 16)
include h

theorem toNat_add_block : (va + w64 i).toNat = va.toNat + i := by
  have hlt := va.isLt
  rw [w64, BitVec.toNat_add, BitVec.toNat_ofNat]
  omega

theorem spadOf_block (s : State) (k : Nat) : spadOf s k (va + w64 i) = (spadOf s k va).map fun p => (p.1, p.2 + i) := by
  have hspace : wbits (va + w64 i) 26 34 = wbits va 26 34 := by
    rw [wbits_eq_div_mod, wbits_eq_div_mod, toNat_add_block h]
    omega
  have hindex : wbits (va + w64 i) 21 5 = wbits va 21 5 := by
    rw [wbits_eq_div_mod, wbits_eq_div_mod, toNat_add_block h]
    omega
  have hoff : wbits (va + w64 i) 0 21 = wbits va 0 21 + i := by
    rw [wbits_eq_div_mod, wbits_eq_div_mod, toNat_add_block h]
    omega
  unfold spadOf
  rw [hspace, hindex, hoff]
  split
  · rfl
  · cases spadCore s k (wbits va 21 5) <;> rfl

/-- The bytes of a block follow each other in memory. -/
theorem byteLoc_block (s : State) (k : Nat) (xl : List Xl) :
    byteLoc s k xl (va + w64 i) = (byteLoc s k xl va).map fun p => (p.1 + i, p.2) := by
  have hspace : vaSpace (va + w64 i) = vaSpace va := by
    rw [vaSpace, vaSpace, wbits_eq_div_mod, wbits_eq_div_mod, toNat_add_block h]
    omega
  have hpage : (va + w64 i).toNat / 65536 = va.toNat / 65536 := by
    rw [toNat_add_block h]
    omega
  have hin : (va + w64 i).toNat % 65536 = va.toNat % 65536 + i := by
    rw [toNat_add_block h]
    omega
  unfold byteLoc
  rw [hspace, hpage, hin, spadOf_block h]
  split
  · cases spadOf s k va with
    | none => rfl
    | some p =>
      simp only [Option.map_some, spadKey]
      rw [Nat.add_assoc]
  · cases xl.find? (fun x => x.vpg == va.toNat / 65536) with
    | none => rfl
    | some x =>
      simp only [Option.map_some]
      rw [Nat.add_assoc]

end

/-- No two bytes of an aligned access lie at one address. -/
theorem byteLoc_block_inj {s : State} {k : Nat} {xl : List Xl} {va : Word} {n i j a g g' : Nat} (hn : n ∈ [1, 2, 4, 8, 16])
    (halign : va.toNat % n = 0) (hi : i < n) (hj : j < n) (hli : byteLoc s k xl (va + w64 i) = some (a, g))
    (hlj : byteLoc s k xl (va + w64 j) = some (a, g')) : i = j := by
  rw [byteLoc_block (aligned_block hn halign hi)] at hli
  rw [byteLoc_block (aligned_block hn halign hj)] at hlj
  cases hb : byteLoc s k xl va with
  | none =>
    rw [hb] at hli
    cases hli
  | some p =>
    rw [hb, Option.map_some, Option.some.injEq, Prod.mk.injEq] at hli hlj
    omega

/-- The bytes of an aligned write. -/
theorem wrote_block {k : Nat} {xl : List Xl} {va : Word} {bs : List Byte} {s t : State} (h : Wrote k xl va bs s t) {n i a g : Nat} {b : Byte}
    (hn : n ∈ [1, 2, 4, 8, 16]) (halign : va.toNat % n = 0) (hlen : bs.length ≤ n) (hb : bs[i]? = some b)
    (hl : byteLoc s k xl (va + w64 i) = some (a, g)) : memByte t a = b := by
  obtain ⟨hi, -⟩ := List.getElem?_eq_some_iff.mp hb
  refine h.bytes i b hb a g hl fun j hij hj g' hlj => ?_
  exact absurd (byteLoc_block_inj hn halign (Nat.lt_of_lt_of_le hi hlen) (Nat.lt_of_lt_of_le hj hlen) hl hlj) (Nat.ne_of_lt hij)

/-! ### Swizzle tags -/

/-- A write of tag 0 leaves a tag of 0. -/
theorem tagAt_setTag_zero {s : State} {a : Nat} (b : Nat) (h : tagAt s a = 0) : tagAt (setTag s b 0) a = 0 := by
  unfold setTag
  split
  · dsimp only
    unfold tagAt at *
    split
    · next hs =>
      rw [if_pos hs] at h
      by_cases hc : a / 2 ^ 21 = b / 2 ^ 21
      · rw [hc, core_setCore_same]
        dsimp only
        by_cases hr : a % 2 ^ 21 / 384 = b % 2 ^ 21 / 384
        · rw [hr]
          exact smGet_set_same _ _ _ _
        · rw [← hc]
          exact (smGet_set_ne _ _ _ hr).trans h
      · rw [core_setCore_ne _ _ hc]
        exact h
    · rfl
  · exact h

section
variable {s : State} {k : Nat} {xl : List Xl}

theorem tagAt_vaWrite_zero {va : Word} {b : Byte} {a : Nat} (hc : (s.core k).copy = none) (h : tagAt s a = 0) :
    tagAt (vaWrite s k xl 0 va b) a = 0 := by
  cases hl : byteLoc s k xl va with
  | none => rwa [vaWrite_nowhere hl]
  | some p =>
    unfold vaWrite
    simp only [hl]
    split
    · exact tagAt_setTag_zero _ h
    · simp only [hc]
      exact h

theorem tagAt_vaWrite_named {va : Word} {b : Byte} {a g : Nat} (hl : byteLoc s k xl va = some (a, g)) (hs : isSpadKey a = true) :
    tagAt (vaWrite s k xl 0 va b) a = 0 := by
  unfold vaWrite
  simp only [hl]
  rw [if_pos hs]
  exact tagAt_setTag _ _ _ hs

theorem tagAt_vaStore_zero (bs : List Byte) {s : State} {va : Word} {a : Nat} (hc : (s.core k).copy = none) (h : tagAt s a = 0) :
    tagAt (vaStore s k xl va bs) a = 0 := by
  induction bs generalizing s va with
  | nil => exact h
  | cons b bs ih => exact ih ((memOnly_vaWrite 0 va b hc).copy k ▸ hc) (tagAt_vaWrite_zero hc h)

/-- The rows that a write names take tag 0. -/
theorem tagAt_vaStore_named (bs : List Byte) {s : State} {va : Word} {i a g : Nat} (hc : (s.core k).copy = none) (hi : i < bs.length)
    (hl : byteLoc s k xl (va + w64 i) = some (a, g)) (hs : isSpadKey a = true) : tagAt (vaStore s k xl va bs) a = 0 := by
  induction bs generalizing s va i with
  | nil => exact absurd hi (Nat.not_lt_zero i)
  | cons b bs ih =>
    have hm := memOnly_vaWrite (xl := xl) 0 va b hc
    have hc' : ((vaWrite s k xl 0 va b).core k).copy = none := (hm.copy k).trans hc
    cases i with
    | zero =>
      rw [show va + w64 0 = va by simp [w64]] at hl
      exact tagAt_vaStore_zero bs hc' (tagAt_vaWrite_named hl hs)
    | succ i =>
      refine ih hc' (i := i) (Nat.lt_of_succ_lt_succ hi) ?_
      rw [hm.byteLoc, w64_succ]
      exact hl

end

/-! ### Cores that differ in their tags alone -/

section
variable {s t u : State} {k : Nat}

theorem tagsAside_refl (s : State) (k : Nat) : tagsAside s s k := rfl

theorem tagsAside_of_eq (h : t.core k = s.core k) : tagsAside t s k := by
  unfold tagsAside
  rw [h]

theorem tagsAside_trans (a : tagsAside t s k) (b : tagsAside u t k) : tagsAside u s k := by
  unfold tagsAside at *
  rw [← a, ← b]

/-- Such a core, written out. -/
theorem tagsAside_eq (h : tagsAside t s k) : t.core k = { s.core k with swz := (t.core k).swz } := by
  rw [← h]

theorem tagsAside_setTag (s : State) (a : Nat) (tag : BitVec 4) (j : Nat) : tagsAside (setTag s a tag) s j := (memOnly_setTag s a tag).cores j

end

end Sys2Proof.Proofs

/-!
SUPPORT. One event of a read or write queue is performed: the steps of the load and of the write-queue events, the order of the queues, and the
loads, stores and rows of SQ themselves (04_memory.md R91, R93, 05_ap_model.md R106, R112, 06_ap_instr.md R135, R136, R139).
-/

namespace Sys2Proof.Proofs

open Sys2Proof.Machine Sys2Proof.Laws

/-! ### The context that a memory step serves -/

section
variable (c : Core) (sh : Bool) (x : ApCtx)

/-- Replacing a context leaves the rest of the core. -/
theorem setCtxOf_apart : ∃ m y, c.setCtxOf sh x = { c with main := m, shadow := y } := by
  cases sh
  · exact ⟨x, c.shadow, rfl⟩
  · exact ⟨c.main, x, rfl⟩

theorem freeze_setCtxOf : (c.setCtxOf sh x).freeze = c.freeze := by
  cases sh <;> rfl

theorem ctxOf_not_setCtxOf : (c.setCtxOf sh x).ctxOf (!sh) = c.ctxOf (!sh) := by
  cases sh <;> rfl

/-- Core `c` without the head of a write queue. -/
def dropped : Core := c.setCtxOf sh { c.ctxOf sh with wq := (c.ctxOf sh).wq.drop 1 }

theorem dropped_apart : ∃ m y, dropped c sh = { c with main := m, shadow := y } := setCtxOf_apart _ _ _

theorem ctxOf_dropped : (dropped c sh).ctxOf sh = { c.ctxOf sh with wq := (c.ctxOf sh).wq.drop 1 } := ctxOf_setCtxOf _ _ _

theorem ctxOf_not_dropped : (dropped c sh).ctxOf (!sh) = c.ctxOf (!sh) := ctxOf_not_setCtxOf _ _ _

end

theorem dropWr_eq (s : State) (k : Nat) (sh : Bool) : dropWr s k sh = s.setCore k (dropped (s.core k) sh) := rfl

/-- The head of a list, and what follows it. -/
theorem eq_cons_of_head? {α : Type} {l : List α} {e : α} (h : l.head? = some e) : ∃ rest, l = e :: rest := by
  cases l with
  | nil => cases h
  | cons f rest => exact ⟨rest, by rw [Option.some.inj h]⟩

/-! ### The head of a write queue -/

/-- What performing the write-queue event `e` does, by its kind, with the translations of its access. -/
def performWr (s : State) (k : Nat) (sh : Bool) (e : WrE) (xl : List Xl) : State :=
  match e.kind with
  | .st n => dropWr (vaStore s k xl e.va (leBytes n e.data.toNat)) k sh
  | .stq =>
    match (if (s.core k).frozen then none else sqHead (s.core k)) with
    | none => s
    | some row =>
      let u := dropWr (vaStore s k xl e.va (rowBytes row)) k sh
      u.setCore k { u.core k with q := { (u.core k).q with sq := (u.core k).q.sq.drop 1 } }
  | .amo op => performAmo (dropWr s k sh) k sh e op xl
  | .rsv => performRsv (dropWr s k sh) k sh e xl
  | .rels => performRels (dropWr s k sh) k sh e xl
  | .test => performTest (dropWr s k sh) k sh e xl

/-- A store is ready once every earlier read has been performed. -/
theorem wrReady_store {x : ApCtx} {e : WrE} (hret : e.ret = false) (h : ∀ r ∈ x.rq, e.po < r.po) : wrReady x e = true := by
  unfold wrReady
  rw [hret]
  simpa using h

/-- A returning access is ready once its own read is the oldest. -/
theorem wrReady_returning {x : ApCtx} {e : WrE} (hret : e.ret = true)
    (h : ∃ r rest, x.rq = r :: rest ∧ r.po = e.po ∧ ∀ q ∈ rest, e.po < q.po) : wrReady x e = true := by
  obtain ⟨r, rest, hrq, hpo, hrest⟩ := h
  unfold wrReady
  rw [hret, hrq]
  simp only [List.all_cons, hpo, decide_true, Bool.or_true, Bool.true_and, beq_self_eq_true, Bool.not_true,
    Bool.and_true, List.all_eq_true, Bool.or_eq_true, decide_eq_true_eq]
  exact fun q hq => .inl (hrest q hq)

section
variable {s : State} {k : Nat} {e : WrE} {xl : List Xl} {sh : Bool}

theorem writeNext_eq (hrun : (s.core k).run = .running) (hhead : ((s.core k).ctxOf sh).wq.head? = some e)
    (hfrom : e.from_ ≤ Claims.timeOf s k sh) (hready : wrReady ((s.core k).ctxOf sh) e = true) (hcheck : wrCheck s k e = .ok xl) :
    writeNext s k sh = performWr s k sh e xl := by
  obtain ⟨rest, hwq⟩ := eq_cons_of_head? hhead
  have hgo : (!(s.core k).alive || decide (ctxTime s k sh < e.from_) || !wrReady ((s.core k).ctxOf sh) e) = false := by
    have hnot : ¬ ctxTime s k sh < e.from_ := Nat.not_lt.mpr hfrom
    simp [Core.alive, hrun, hnot, hready]
  unfold writeNext performWr
  dsimp only
  rw [hwq]
  dsimp only
  rw [hgo, if_neg Bool.false_ne_true]
  generalize wrCheck s k e = checked at hcheck
  subst hcheck
  cases e.kind <;> rfl

end

/-- The step that performs the event at the head of a write queue. -/
theorem exec_writePerformed {s t : State} {k : Nat} {e : WrE} {xl : List Xl} {sh : Bool}
    (hsh : ((s.core k).inHandler && !(s.core k).shadow.wq.isEmpty) = sh) (hrun : (s.core k).run = .running)
    (hhead : ((s.core k).ctxOf sh).wq.head? = some e) (hfrom : e.from_ ≤ Claims.timeOf s k sh)
    (hready : wrReady ((s.core k).ctxOf sh) e = true) (hcheck : wrCheck s k e = .ok xl) (hperform : performWr s k sh e xl = t)
    (hlate : (t.core k).freeze.late = none) : exec (.writePerformed k) s = .next t := by
  show Host.Outcome.next (lateEnds (writeNext s k ((s.core k).inHandler && !(s.core k).shadow.wq.isEmpty)) k) = _
  rw [hsh, writeNext_eq hrun hhead hfrom hready hcheck, hperform, lateEnds_of_not_late hlate]

/-! ### Stores -/

section
variable {s u : State} {k : Nat} {sh : Bool} (h : tagsAside u s k)
include h

/-- The core once bytes are written and the entry dropped. -/
theorem core_dropWr : (dropWr u k sh).core k = { dropped (s.core k) sh with swz := (u.core k).swz } := by
  rw [dropWr_eq, core_setCore_same, tagsAside_eq h]
  cases sh <;> rfl

theorem late_dropWr (hlate : (s.core k).freeze.late = none) : ((dropWr u k sh).core k).freeze.late = none := by
  obtain ⟨m, y, hd⟩ := dropped_apart (s.core k) sh
  rw [core_dropWr h, hd]
  exact hlate

end

theorem tagAt_setCore {s : State} {k : Nat} {c : Core} (h : c.swz = (s.core k).swz) (a : Nat) : tagAt (s.setCore k c) a = tagAt s a := by
  have hswz (j : Nat) : ((s.setCore k c).core j).swz = (s.core j).swz := by
    by_cases hj : j = k
    · rw [hj, core_setCore_same, h]
    · rw [core_setCore_ne _ _ hj]
  unfold tagAt
  rw [hswz]

theorem tagAt_dropWr (s : State) (k : Nat) (sh : Bool) (a : Nat) : tagAt (dropWr s k sh) a = tagAt s a := by
  refine tagAt_setCore ?_ a
  cases sh <;> rfl

theorem storePerformed : Claims.StorePerformed := by
  intro s k n e xl hrun hcopy c sh x hhead hfrom hlate hkind hn hret halign hready hcheck
  have hw : Wrote k xl e.va (leBytes n e.data.toNat) s (vaStore s k xl e.va (leBytes n e.data.toNat)) := wrote_vaStore k xl _ e.va hcopy
  have hperform : performWr s k sh e xl = dropWr (vaStore s k xl e.va (leBytes n e.data.toNat)) k sh := by
    rw [performWr, hkind]
  have hcore := core_dropWr (sh := sh) (hw.cores k)
  obtain ⟨m, y, hd⟩ := dropped_apart (s.core k) sh
  have hblock : n ∈ [1, 2, 4, 8, 16] := by
    simp only [List.mem_cons, List.not_mem_nil, or_false] at hn ⊢
    omega
  have hpos : 0 < n := by
    simp only [List.mem_cons, List.not_mem_nil, or_false] at hn
    omega
  have hnext := exec_writePerformed rfl hrun hhead hfrom (wrReady_store hret hready) (by rw [wrCheck, hkind]; exact hcheck) hperform
    (late_dropWr (hw.cores k) hlate)
  refine ⟨_, hnext, fun i hi a g hl => ?bytes, fun a ha => ?apart, ?ctx, ?other, ?sys, ?q, ?cmds, fun j hj => ?cores, fun a g hl hs => ?tag⟩
  case bytes =>
    exact (memByte_setCore _ _ _ _).trans
      (wrote_block hw hblock halign (Nat.le_of_eq (length_leBytes _ _)) (getElem?_leBytes _ hi) hl)
  case apart =>
    refine (memByte_setCore _ _ _ _).trans (hw.apart a ?_)
    rwa [length_leBytes]
  case ctx =>
    rw [hcore]
    exact ctxOf_dropped (s.core k) sh
  case other =>
    rw [hcore]
    exact ctxOf_not_dropped (s.core k) sh
  case sys => rw [hcore, hd]
  case q => rw [hcore, hd]
  case cmds => rw [hcore, hd]
  case cores => exact tagsAside_trans (hw.cores j) (tagsAside_of_eq (core_setCore_ne _ _ hj))
  case tag =>
    rw [tagAt_dropWr]
    exact tagAt_vaStore_named _ hcopy (by rw [length_leBytes]; exact hpos) (by rwa [show e.va + w64 0 = e.va by simp [w64]]) hs

/-! ### Rows of SQ -/

/-- Core `c` without the oldest row of its SQ. -/
def sqPopped (c : Core) : Core := { c with q := { c.q with sq := c.q.sq.drop 1 } }

/-- State `u`, in which the bytes of a row are written, without the entry of its store and without the row. -/
def rowTaken (u : State) (k : Nat) (sh : Bool) : State := (dropWr u k sh).setCore k (sqPopped ((dropWr u k sh).core k))

section
variable {s : State} {k : Nat} {sh : Bool} {e : WrE} {xl : List Xl} (hkind : e.kind = .stq) (hfroz : (s.core k).frozen = false)
include hkind hfroz

/-- A store of a row for which SQ has none yet. -/
theorem performWr_stq_none (h : sqHead (s.core k) = none) : performWr s k sh e xl = s := by
  rw [performWr, hkind]
  dsimp only
  rw [hfroz, if_neg Bool.false_ne_true, h]

theorem performWr_stq {row : Row} (h : sqHead (s.core k) = some row) :
    performWr s k sh e xl = rowTaken (vaStore s k xl e.va (rowBytes row)) k sh := by
  rw [performWr, hkind]
  dsimp only
  rw [hfroz, if_neg Bool.false_ne_true, h]
  rfl

end

theorem sqHead_of_old {c : Core} {t : Nat} {row : Row} {rest : List (Nat × Row)} (hsq : c.q.sq = (t, row) :: rest) (hold : t < c.cycle) :
    sqHead c = some row := by
  unfold sqHead
  rw [hsq]
  exact if_pos hold

theorem sqHead_of_new {c : Core} (h : ∀ p ∈ c.q.sq.head?, c.cycle ≤ p.1) : sqHead c = none := by
  unfold sqHead
  split
  · next t r l hl => exact if_neg (Nat.not_lt.mpr (h (t, r) (by rw [hl]; rfl)))
  · rfl

theorem memByte_rowTaken (u : State) (k : Nat) (sh : Bool) (a : Nat) : memByte (rowTaken u k sh) a = memByte u a := rfl

theorem tagAt_rowTaken (u : State) (k : Nat) (sh : Bool) (a : Nat) : tagAt (rowTaken u k sh) a = tagAt u a := by
  unfold rowTaken
  rw [tagAt_setCore, tagAt_dropWr]
  rfl

theorem core_rowTaken {s u : State} {k : Nat} {sh : Bool} (h : tagsAside u s k) :
    (rowTaken u k sh).core k = sqPopped { dropped (s.core k) sh with swz := (u.core k).swz } := by
  rw [rowTaken, core_setCore_same, core_dropWr h]

theorem rowStored : Claims.RowStored := by
  intro s k e xl hrun hcopy hfroz c sh x hhead hfrom hlate hkind hret hready hcheck
  have hok : wrCheck s k e = .ok xl := by
    rw [wrCheck, hkind]
    exact hcheck
  have hexec {t : State} (hperform : performWr s k sh e xl = t) (ht : (t.core k).freeze.late = none) : exec (.writePerformed k) s = .next t :=
    exec_writePerformed rfl hrun hhead hfrom (wrReady_store hret hready) hok hperform ht
  refine ⟨fun hnone => hexec (performWr_stq_none hkind hfroz (sqHead_of_new hnone)) hlate, fun t0 row rest hsq hold => ?stored⟩
  case stored =>
    have hw : Wrote k xl e.va (rowBytes row) s (vaStore s k xl e.va (rowBytes row)) := wrote_vaStore k xl _ e.va hcopy
    have hlen : (rowBytes row).length = 384 := length_leBytes _ _
    have hcore := core_rowTaken (sh := sh) (hw.cores k)
    obtain ⟨m, y, hd⟩ := dropped_apart (s.core k) sh
    refine ⟨_, hexec (performWr_stq hkind hfroz (sqHead_of_old hsq hold)) ?late, fun i hi a g hl hlast => ?bytes, fun a ha => ?apart, ?ctx, ?q, ?sys,
      fun i hi a g hl hs => ?tag⟩
    case late =>
      rw [hcore, hd]
      exact hlate
    case bytes =>
      rw [memByte_rowTaken]
      exact hw.bytes i _ (getElem?_leBytes _ hi) a g hl (by rwa [hlen])
    case apart =>
      rw [memByte_rowTaken]
      exact hw.apart a (by rwa [hlen])
    case ctx =>
      rw [hcore]
      exact ctxOf_dropped (s.core k) sh
    case q =>
      have hrest : c.q.sq.drop 1 = rest := by
        rw [hsq]
        rfl
      rw [hcore, hd, ← hrest]
      rfl
    case sys =>
      rw [hcore, hd]
      rfl
    case tag =>
      rw [tagAt_rowTaken]
      exact tagAt_vaStore_named _ hcopy (by rw [hlen]; exact hi) hl hs

/-! ### Loads -/

/-- The reply of the load `e` with the value `v`. -/
def loadReply (s : State) (k : Nat) (e : RdE) (v : Word) : ApFly :=
  { due := e.due, po := e.po, dst := e.dst.getD (.x 0), val := v, mem := true, arrived := ownSpad s k e.va, va := e.va, rd := some e.kind }

/-- Context `x` once its oldest read is on its way with the reply `f`. -/
def readSent (x : ApCtx) (f : ApFly) : ApCtx := { x with rq := x.rq.drop 1, fly := x.fly ++ [f] }

theorem performLd_clean {s : State} {k : Nat} {sh : Bool} {e : RdE} {n : Nat} {sgn : Bool} {xl : List Xl} (h : Claims.cleanRead s k xl e.va n) :
    performLd s k sh e n sgn xl .clean = s.setCore k ((s.core k).setCtxOf sh
      (readSent ((s.core k).ctxOf sh) (loadReply s k e (loadValue n sgn (leNat (vaBytes s k xl e.va n)))))) := by
  unfold performLd
  rw [readEcc_clean h]
  rfl

theorem loadValue_eq {n : Nat} (hn : n ≤ 8) (sgn : Bool) (v : Nat) :
    loadValue n sgn v = if sgn then (BitVec.ofNat (8 * n) v).signExtend 64 else BitVec.ofNat 64 v := by
  unfold loadValue
  rw [sextN_eq, w64, BitVec.setWidth_ofNat_of_le (by omega)]

theorem readNext_ld {s : State} {k n : Nat} {sh sgn : Bool} {e : RdE} {xl : List Xl} (hrun : (s.core k).run = .running)
    (hhead : ((s.core k).ctxOf sh).rq.head? = some e) (hfrom : e.from_ ≤ Claims.timeOf s k sh) (hkind : e.kind = .ld n sgn)
    (hmark : markHolds ((s.core k).ctxOf sh) e.po = false) (hcheck : accCheck s k e.va n { r := true } = .ok xl) (ecc : Ecc) :
    readNext s k sh ecc = performLd s k sh e n sgn xl ecc := by
  obtain ⟨rest, hrq⟩ := eq_cons_of_head? hhead
  have hgo : (!(s.core k).alive || decide (ctxTime s k sh < e.from_) || markHolds ((s.core k).ctxOf sh) e.po) = false := by
    have hnot : ¬ ctxTime s k sh < e.from_ := Nat.not_lt.mpr hfrom
    simp [Core.alive, hrun, hnot, hmark]
  have hok : rdCheck s k e = .ok xl := by
    rw [rdCheck, hkind]
    exact hcheck
  unfold readNext
  dsimp only
  rw [hrq]
  dsimp only
  rw [hgo, hok, if_neg Bool.false_ne_true]
  dsimp only
  rw [hkind]

theorem loadPerformed : Claims.LoadPerformed := by
  intro s k n sgn e xl hrun c sh x hhead hfrom hlate hkind hpos hle hmarks hcheck hclean bits v
  have hnext : exec (.readPerformed k .clean) s = .next (lateEnds (performLd s k sh e n sgn xl .clean) k) := by
    show Host.Outcome.next (lateEnds (readNext s k sh .clean) k) = _
    rw [readNext_ld hrun hhead hfrom hkind (markHolds_eq_false hmarks) hcheck]
  rw [performLd_clean hclean, loadValue_eq hle] at hnext
  refine ⟨_, hnext.trans (congrArg _ (lateEnds_of_not_late ?_)), onlyCore_setCore _ _ _, core_setCore_same _ _ _⟩
  rw [core_setCore_same, freeze_setCtxOf]
  exact hlate

/-! ### The order of the queues -/

theorem writeNext_waits {s : State} {k : Nat} {sh : Bool} {e : WrE} (hhead : ((s.core k).ctxOf sh).wq.head? = some e)
    (hready : wrReady ((s.core k).ctxOf sh) e = false) : writeNext s k sh = s := by
  obtain ⟨rest, hwq⟩ := eq_cons_of_head? hhead
  unfold writeNext
  dsimp only
  rw [hwq]
  dsimp only
  rw [hready, if_pos (by simp)]

theorem readNext_waits {s : State} {k : Nat} {sh : Bool} {e : RdE} {ecc : Ecc} (hhead : ((s.core k).ctxOf sh).rq.head? = some e)
    (hmark : markHolds ((s.core k).ctxOf sh) e.po = true) : readNext s k sh ecc = s := by
  obtain ⟨rest, hrq⟩ := eq_cons_of_head? hhead
  unfold readNext
  dsimp only
  rw [hrq]
  dsimp only
  rw [hmark, if_pos (by simp)]

theorem accessOrder : Claims.AccessOrder := by
  intro s k hrun hlate c
  refine ⟨fun e r hhead hr hpo => ?write, fun e m w ecc hhead hm hw hbefore hafter => ?read⟩
  case write =>
    have hready : wrReady (c.ctxOf (c.inHandler && !c.shadow.wq.isEmpty)) e = false := by
      have hr' : (decide (e.po < r.po) || (e.ret && decide (r.po = e.po))) = false := by
        rw [decide_eq_false (by omega), decide_eq_false (by omega), Bool.and_false, Bool.or_false]
      unfold wrReady
      rw [List.all_eq_false.mpr ⟨r, hr, by rw [hr']; exact Bool.false_ne_true⟩, Bool.false_and]
    show Host.Outcome.next (lateEnds (writeNext s k (c.inHandler && !c.shadow.wq.isEmpty)) k) = _
    rw [writeNext_waits hhead hready, lateEnds_of_not_late hlate]
  case read =>
    have hmark : markHolds (c.ctxOf (c.inHandler && !c.shadow.rq.isEmpty)) e.po = true := by
      unfold markHolds
      refine List.any_eq_true.mpr ⟨m, hm, ?_⟩
      rw [decide_eq_true hafter, Bool.true_and]
      exact List.any_eq_true.mpr ⟨w, hw, decide_eq_true hbefore⟩
    show Host.Outcome.next (lateEnds (readNext s k (c.inHandler && !c.shadow.rq.isEmpty) ecc) k) = _
    rw [readNext_waits hhead hmark, lateEnds_of_not_late hlate]

end Sys2Proof.Proofs

/-!
SUPPORT and the proof of `ApAccessesPerformed`: atomics and the words of Weir cells are performed (06_ap_instr.md R144-R148, 18_weir.md R291,
R304-R306).
-/

namespace Sys2Proof.Proofs

open Sys2Proof.Machine Sys2Proof.Laws

/-! ### The state without the head of a write queue -/

section
variable (s : State) (k : Nat) (sh : Bool)

theorem coresApart_dropWr : CoresApart s (dropWr s k sh) := by
  rw [dropWr_eq]
  cases sh <;> exact coresApart_setCore rfl rfl

theorem core_dropWr_self : (dropWr s k sh).core k = dropped (s.core k) sh := core_setCore_same _ _ _

theorem sys_dropWr : ((dropWr s k sh).core k).sys = (s.core k).sys := by
  rw [core_dropWr_self]
  cases sh <;> rfl

end

/-! ### A word is written where an operation writes one -/

/-- State `s` with the word `new` at `va`, where there is one. -/
def wordPut (s : State) (k : Nat) (xl : List Xl) (va : Word) : Option Word → State
  | some m => vaStore s k xl va (leBytes 8 m.toNat)
  | none => s

section
variable {s : State} {k : Nat} {xl : List Xl} {va : Word} (hcopy : (s.core k).copy = none)
include hcopy

theorem memOnly_wordPut (new : Option Word) : MemOnly s (wordPut s k xl va new) := by
  cases new with
  | none => exact .refl s
  | some m =>
    have hw : Wrote k xl va (leBytes 8 m.toNat) s (vaStore s k xl va (leBytes 8 m.toNat)) := wrote_vaStore k xl _ va hcopy
    exact ⟨hw.cores, hw.rest⟩

theorem memByte_wordPut {m : Word} {n i a g : Nat} (hn : n = 8 ∨ n = 16) (halign : va.toNat % n = 0) (hi : i < 8)
    (hl : byteLoc s k xl (va + w64 i) = some (a, g)) : memByte (wordPut s k xl va (some m)) a = BitVec.ofNat 8 (m.toNat / 256 ^ i) := by
  have hblock : n ∈ [1, 2, 4, 8, 16] := by
    rcases hn with rfl | rfl <;> decide
  have hlen : (leBytes 8 m.toNat).length ≤ n := by
    rw [length_leBytes]
    omega
  exact wrote_block (wrote_vaStore k xl _ va hcopy) hblock halign hlen (getElem?_leBytes _ hi) hl

theorem memByte_wordPut_apart {new : Option Word} {a : Nat} (h : new = none ∨ ¬ namesByte s k xl va 8 a) :
    memByte (wordPut s k xl va new) a = memByte s a := by
  cases new with
  | none => rfl
  | some m =>
    have hnot : ¬ namesByte s k xl va 8 a := h.resolve_left (Option.some_ne_none m)
    exact (wrote_vaStore k xl _ va hcopy).apart a (by rwa [length_leBytes])

end

/-! ### The port of a scratchpad is touched -/

theorem coresApart_setTag (s : State) (a : Nat) (tag : BitVec 4) : CoresApart s (setTag s a tag) := by
  unfold setTag
  split
  · exact coresApart_setCore rfl rfl
  · exact .refl s

theorem touchSpad_keeps (s : State) (k : Nat) (xl : List Xl) (va : Word) :
    CoresApart s (touchSpad s k xl va) ∧ tagsAside (touchSpad s k xl va) s k := by
  unfold touchSpad
  split
  · next a g hl =>
    split
    · have htag := coresApart_setTag s a 0
      split
      · exact ⟨htag, tagsAside_setTag s a 0 k⟩
      · next hne =>
        exact ⟨htag.trans (coresApart_setCore rfl rfl),
          tagsAside_trans (tagsAside_setTag s a 0 k) (tagsAside_of_eq (core_setCore_ne _ _ (Ne.symm hne)))⟩
    · exact ⟨.refl s, tagsAside_refl s k⟩
  · exact ⟨.refl s, tagsAside_refl s k⟩

/-- State `s` with the entry dropped, and the word `new` written at the port, where there is one. -/
def wordDoneAt (s : State) (k : Nat) (sh : Bool) (xl : List Xl) (va : Word) (new : Option Word) : State :=
  touchSpad (wordPut (dropWr s k sh) k xl va new) k xl va

section
variable {s : State} {k : Nat} {sh : Bool} {xl : List Xl} {va : Word} (hcopy : (s.core k).copy = none) {new : Option Word}
include hcopy

theorem copy_dropWr : ((dropWr s k sh).core k).copy = none := ((coresApart_dropWr s k sh).copy k).trans hcopy

theorem core_wordDoneAt : ∃ w, (wordDoneAt s k sh xl va new).core k = { dropped (s.core k) sh with swz := w } := by
  have hput := (memOnly_wordPut (xl := xl) (va := va) (copy_dropWr (sh := sh) hcopy) new).cores k
  have haside := tagsAside_eq (tagsAside_trans hput (touchSpad_keeps (wordPut (dropWr s k sh) k xl va new) k xl va).2)
  rw [core_dropWr_self] at haside
  exact ⟨_, haside⟩

theorem ownSpad_wordDoneAt : ownSpad (wordDoneAt s k sh xl va new) k va = ownSpad s k va := by
  have hput := memOnly_wordPut (xl := xl) (va := va) (copy_dropWr (sh := sh) hcopy) new
  have hmembers : ownSpad (wordPut (dropWr s k sh) k xl va new) k va = ownSpad (dropWr s k sh) k va := by
    simp only [ownSpad, spadOf, spadCore, hput.members]
  exact ((touchSpad_keeps _ k xl va).1.ownSpad k va).trans (hmembers.trans ((coresApart_dropWr s k sh).ownSpad k va))

theorem memByte_wordDoneAt {m : Word} {n i a g : Nat} (hn : n = 8 ∨ n = 16) (halign : va.toNat % n = 0) (hi : i < 8)
    (hl : byteLoc s k xl (va + w64 i) = some (a, g)) :
    memByte (wordDoneAt s k sh xl va (some m)) a = BitVec.ofNat 8 (m.toNat / 256 ^ i) := by
  refine ((touchSpad_keeps _ k xl va).1.memByte a).trans (memByte_wordPut (copy_dropWr hcopy) hn halign hi (g := g) ?_)
  rw [(coresApart_dropWr s k sh).byteLoc]
  exact hl

theorem memByte_wordDoneAt_apart {a : Nat} (h : new = none ∨ ¬ namesByte s k xl va 8 a) :
    memByte (wordDoneAt s k sh xl va new) a = memByte s a := by
  have hapart := coresApart_dropWr s k sh
  have hnames : new = none ∨ ¬ namesByte (dropWr s k sh) k xl va 8 a := by
    refine h.imp_right fun hn => ?_
    rintro ⟨i, hi, g, hl⟩
    exact hn ⟨i, hi, g, by rwa [hapart.byteLoc] at hl⟩
  exact ((touchSpad_keeps _ k xl va).1.memByte a).trans ((memByte_wordPut_apart (copy_dropWr hcopy) hnames).trans (hapart.memByte a))

end

/-! ### Atomics -/

theorem le_iff_slt_or_eq {a b : Word} : a.toInt ≤ b.toInt ↔ a.slt b = true ∨ a = b := by
  rw [BitVec.slt_iff_toInt_lt, ← BitVec.toInt_inj]
  omega

theorem le_iff_ult_or_eq {a b : Word} : a.toNat ≤ b.toNat ↔ a.ult b = true ∨ a = b := by
  rw [BitVec.ult_iff_lt, BitVec.lt_def, ← BitVec.toNat_inj]
  omega

/-- What an atomic writes, as the model computes it; only `faddlim` reads the limit. -/
theorem amoNew_eq (op : AmoOp) (old v expect lim : Word) :
    amoNew op old v expect (if op = .faddlim then lim else 0) = Claims.atomicWrites op old v expect lim := by
  cases op with
  | min =>
    refine congrArg some ?_
    by_cases heq : old = v
    · subst heq
      simp [minS]
    · simp only [minS, le_iff_slt_or_eq, heq, or_false]
  | max =>
    refine congrArg some ?_
    by_cases heq : old = v
    · subst heq
      simp [maxS]
    · simp only [maxS, le_iff_slt_or_eq, heq, or_false]
  | minu =>
    refine congrArg some ?_
    by_cases heq : old = v
    · subst heq
      simp [minU]
    · simp only [minU, le_iff_ult_or_eq, heq, or_false]
  | maxu =>
    refine congrArg some ?_
    by_cases heq : old = v
    · subst heq
      simp [maxU]
    · simp only [maxU, le_iff_ult_or_eq, heq, or_false]
  | decpos =>
    by_cases hzero : old = 0
    · subst hzero
      rfl
    · have hpos : 0 < old := by bv_omega
      exact (if_neg hzero).trans (if_pos hpos).symm
  | add | and | or | xor | swap | cas | incwrap | incb | faddlim => rfl

section
variable {s : State} {k : Nat} {sh : Bool} {e : WrE} {op : AmoOp} {xl : List Xl}

/-- An atomic that meets no error. -/
theorem performAmo_clean (hclean : Claims.cleanRead s k xl e.va (amoSize op)) :
    performAmo (dropWr s k sh) k sh e op xl =
      let old := w64 (leNat (vaBytes s k xl e.va 8))
      let new := Claims.atomicWrites op old e.data e.expect (w64 (leNat (vaBytes s k xl (e.va + 8) 8)))
      if e.ret then returnValue (wordDoneAt s k sh xl e.va new) k sh e old new.isSome else wordDoneAt s k sh xl e.va new := by
  have hapart := coresApart_dropWr s k sh
  unfold performAmo
  rw [readEcc_clean (hapart.cleanRead (sys_dropWr s k sh) hclean)]
  dsimp only
  rw [if_neg (by decide), if_neg (by decide), vaNat, vaNat, hapart.vaBytes, hapart.vaBytes, amoNew_eq]
  cases Claims.atomicWrites op (w64 (leNat (vaBytes s k xl e.va 8))) e.data e.expect (w64 (leNat (vaBytes s k xl (e.va + 8) 8))) <;> rfl

end

/-- The reply of the returning access `e` with the value `v`. -/
def wrReply (s : State) (k : Nat) (e : WrE) (d : ApDst) (v : Word) (rd : Option RdKind) : ApFly :=
  { due := e.due, po := e.po, dst := d, val := v, mem := true, arrived := ownSpad s k e.va, va := e.va, rd := rd }

/-- The reply of its success bit, where it has one. -/
def okReply (s : State) (k : Nat) (e : WrE) (ok : Bool) : List ApFly :=
  match e.dst2 with
  | some d => [wrReply s k e d (if ok then 1 else 0) none]
  | none => []

/-- Context `x` once the replies of `e` are on their way. -/
def valueSent (s : State) (k : Nat) (e : WrE) (v : Word) (ok : Bool) (x : ApCtx) : ApCtx :=
  { x with
    rq := x.rq.drop 1
    fly := x.fly ++ [wrReply s k e (e.dst.getD (.x 0)) v (some (if e.kind = .test then .test else .amo))] ++ okReply s k e ok }

theorem returnValue_eq (s : State) (k : Nat) (sh : Bool) (e : WrE) (v : Word) (ok : Bool) :
    returnValue s k sh e v ok = s.setCore k ((s.core k).setCtxOf sh (valueSent s k e v ok ((s.core k).ctxOf sh))) := rfl

theorem valueSent_congr {s t : State} {k : Nat} {e : WrE} (h : ownSpad t k e.va = ownSpad s k e.va) (v : Word) (ok : Bool) (x : ApCtx) :
    valueSent t k e v ok x = valueSent s k e v ok x := by
  unfold valueSent okReply wrReply
  rw [h]

theorem atomicPerformed : Claims.AtomicPerformed := by
  intro s k op e xl hrun hcopy c sh x n old new reply hhead hfrom hlate hkind halign hplain hreturns hcheck hclean
  have hsize : amoSize op = n := amoSize_eq op
  have hblock : n = 8 ∨ n = 16 := by
    rw [← hsize]
    cases op <;> decide
  have hok : wrCheck s k e = .ok xl := by
    rw [wrCheck, hkind]
    dsimp only
    rw [hsize, ← atomicNeed_eq]
    exact hcheck
  have hready : wrReady x e = true := by
    cases hret : e.ret with
    | false => exact wrReady_store hret (hplain hret)
    | true => exact wrReady_returning hret (hreturns hret)
  have hperform : performWr s k sh e xl
      = if e.ret then returnValue (wordDoneAt s k sh xl e.va new) k sh e old new.isSome else wordDoneAt s k sh xl e.va new := by
    rw [performWr, hkind]
    exact performAmo_clean (by rw [hsize]; exact hclean)
  obtain ⟨w, hcore⟩ := core_wordDoneAt (sh := sh) (xl := xl) (va := e.va) hcopy (new := new)
  obtain ⟨m, y, hd⟩ := dropped_apart (s.core k) sh
  have hctx : ((wordDoneAt s k sh xl e.va new).core k).ctxOf sh = { x with wq := x.wq.drop 1 } := by
    rw [hcore]
    exact ctxOf_dropped (s.core k) sh
  have hdone : ((wordDoneAt s k sh xl e.va new).core k).freeze.late = none := by
    rw [hcore, hd]
    exact hlate
  have hbytes (m : Word) (hm : new = some m) (i : Nat) (hi : i < 8) (a g : Nat) (hl : byteLoc s k xl (e.va + w64 i) = some (a, g)) :
      memByte (wordDoneAt s k sh xl e.va new) a = BitVec.ofNat 8 (m.toNat / 256 ^ i) := by
    rw [hm]
    exact memByte_wordDoneAt hcopy hblock halign hi hl
  have hapart (a : Nat) (ha : new = none ∨ ¬ namesByte s k xl e.va 8 a) : memByte (wordDoneAt s k sh xl e.va new) a = memByte s a :=
    memByte_wordDoneAt_apart hcopy ha
  cases hret : e.ret with
  | false =>
    rw [hret, if_neg Bool.false_ne_true] at hperform
    exact ⟨_, exec_writePerformed rfl hrun hhead hfrom hready hok hperform hdone, hbytes, hapart, fun _ => hctx, nofun⟩
  | true =>
    rw [hret, if_pos rfl, returnValue_eq] at hperform
    refine ⟨_, exec_writePerformed rfl hrun hhead hfrom hready hok hperform ?late, hbytes, hapart, nofun, fun _ => ?ctx⟩
    case late =>
      rw [core_setCore_same, freeze_setCtxOf]
      exact hdone
    case ctx =>
      rw [core_setCore_same, ctxOf_setCtxOf, hctx, valueSent_congr (ownSpad_wordDoneAt hcopy), valueSent, hkind]
      cases hdst : e.dst2 <;> rw [okReply, hdst] <;> rfl

/-! ### Cells of the Weir -/

theorem cellEmpty_eq : cellEmpty = 0xFFFFFFFFFFFFFFFF := by decide

/-- A cell of another loop. -/
theorem cellAlien_iff (old tag : Word) :
    cellAlien old tag = true ↔ old ≠ 0xFFFFFFFFFFFFFFFF ∧ old.toNat / 2 ^ 48 ≠ tag.toNat / 2 ^ 48 := by
  have hold := old.isLt
  have htag := tag.isLt
  rw [cellAlien, cellEmpty_eq, Bool.and_eq_true, bne_iff_ne, bne_iff_ne, wbits_eq_div_mod, wbits_eq_div_mod,
    Nat.mod_eq_of_lt (by omega), Nat.mod_eq_of_lt (by omega)]

theorem latchAlias_keeps (s : State) (k : Nat) (va : Word) : CoresApart s (latchAlias s k va)
    ∧ (latchAlias s k va).core k = { s.core k with wl := { (s.core k).wl with walias := some ((s.core k).wl.walias.getD va) } } := by
  unfold latchAlias
  dsimp only
  split
  · next hsome =>
    obtain ⟨w, hw⟩ := Option.isSome_iff_exists.mp hsome
    refine ⟨.refl s, ?_⟩
    rw [hw, Option.getD_some, ← hw]
  · next hnone =>
    refine ⟨coresApart_setCore rfl rfl, ?_⟩
    rw [core_setCore_same, Option.not_isSome_iff_eq_none.mp hnone]
    rfl

/-- State `t` comes from `s` by the word of a cell that writes `new`, where there is one, and leaves `walias` latched. -/
structure CellLeft (s : State) (k : Nat) (sh : Bool) (xl : List Xl) (va : Word) (new walias : Option Word) (t : State) : Prop where
  ctx : (t.core k).ctxOf sh = { (s.core k).ctxOf sh with wq := ((s.core k).ctxOf sh).wq.drop 1 }
  bytes : ∀ v, new = some v → ∀ i < 8, ∀ a g, byteLoc s k xl (va + w64 i) = some (a, g) → memByte t a = BitVec.ofNat 8 (v.toNat / 256 ^ i)
  apart : ∀ a, (new = none ∨ ¬ namesByte s k xl va 8 a) → memByte t a = memByte s a
  wl : (t.core k).wl = { (s.core k).wl with walias := walias }
  sys : (t.core k).sys = (s.core k).sys
  q : (t.core k).q = (s.core k).q
  freeze : (t.core k).freeze = (s.core k).freeze

section
variable (s : State) (k : Nat) (sh : Bool) (xl : List Xl) (va : Word)

theorem cellLeft_idle : CellLeft s k sh xl va none (s.core k).wl.walias (dropWr s k sh) := by
  obtain ⟨m, y, hd⟩ := dropped_apart (s.core k) sh
  have hcore : (dropWr s k sh).core k = { s.core k with main := m, shadow := y } := (core_dropWr_self s k sh).trans hd
  refine ⟨?_, nofun, fun a _ => (coresApart_dropWr s k sh).memByte a, ?_, ?_, ?_, ?_⟩
  · rw [core_dropWr_self]
    exact ctxOf_dropped (s.core k) sh
  all_goals rw [hcore]

theorem cellLeft_alias :
    CellLeft s k sh xl va none (some ((s.core k).wl.walias.getD va)) (latchAlias (dropWr s k sh) k va) := by
  obtain ⟨hapart, hcore⟩ := latchAlias_keeps (dropWr s k sh) k va
  have hidle := cellLeft_idle s k sh xl va
  refine ⟨?_, nofun, fun a ha => (hapart.memByte a).trans (hidle.apart a ha), ?_, ?_, ?_, ?_⟩ <;> rw [hcore]
  · exact hidle.ctx
  · rw [hidle.wl]
  · exact hidle.sys
  · exact hidle.q
  · exact hidle.freeze

theorem cellLeft_written (hcopy : (s.core k).copy = none) (halign : va.toNat % 8 = 0) (v : Word) :
    CellLeft s k sh xl va (some v) (s.core k).wl.walias (wordDoneAt s k sh xl va (some v)) := by
  obtain ⟨w, hw⟩ := core_wordDoneAt (sh := sh) (xl := xl) (va := va) hcopy (new := some v)
  obtain ⟨m, y, hd⟩ := dropped_apart (s.core k) sh
  refine ⟨?_, fun v' hv i hi a g hl => ?_, fun a ha => memByte_wordDoneAt_apart hcopy ha, ?_, ?_, ?_, ?_⟩
  · rw [hw]
    exact ctxOf_dropped (s.core k) sh
  · rw [← Option.some.inj hv]
    exact memByte_wordDoneAt hcopy (.inl rfl) halign hi hl
  all_goals rw [hw, hd]

end

section
variable {s : State} {k : Nat} {sh : Bool} {e : WrE} {xl : List Xl} {old : Word}
  (hclean : vaPoison s k xl e.va 8 = false) (hold : w64 (leNat (vaBytes s k xl e.va 8)) = old)
include hclean hold

/-- A cell word reads its cell. -/
theorem readCell_clean (go : Word → State) : readCell (dropWr s k sh) k sh e xl go = go old := by
  have hapart := coresApart_dropWr s k sh
  rw [readCell, hapart.vaPoison, hclean, if_neg Bool.false_ne_true, vaNat, hapart.vaBytes, hold]

theorem performWr_rsv (hkind : e.kind = .rsv) : performWr s k sh e xl =
    if cellAlien old e.data then latchAlias (dropWr s k sh) k e.va
    else if e.data.toNat < old.toNat then wordDoneAt s k sh xl e.va (some e.data) else dropWr s k sh := by
  rw [performWr, hkind]
  exact readCell_clean hclean hold _

theorem performWr_rels (hkind : e.kind = .rels) : performWr s k sh e xl =
    if old = e.data then wordDoneAt s k sh xl e.va (some cellEmpty)
    else if cellAlien old e.data then latchAlias (dropWr s k sh) k e.va else dropWr s k sh := by
  rw [performWr, hkind]
  exact readCell_clean hclean hold _

theorem performWr_test (hkind : e.kind = .test) : performWr s k sh e xl =
    if cellAlien old e.data then accessFault (dropWr s k sh) k false (e.at_ sh) 0x80 e.va
    else returnValue (dropWr s k sh) k sh e (if old = e.data then 1 else 0) true := by
  rw [performWr, hkind]
  exact readCell_clean hclean hold _

end

/-! ### A kernel that an access ends -/

theorem core_keepStats (s : State) (k j : Nat) : (keepStats s k).core j = s.core j := by
  unfold keepStats
  dsimp only
  split
  · rfl
  · split <;> rfl

theorem freeze_closeMember (s : State) (k : Nat) : ((closeMember s k).core k).freeze = {} := by
  unfold closeMember
  dsimp only
  rw [core_keepStats]
  split
  · show ((State.setCore s k _).core k).freeze = _
    rw [core_setCore_same]
  · rw [core_setCore_same]

theorem core_failRegion (s : State) (r : Nat) (e : RegionEnd) (j : Nat) : (failRegion s r e).core j = s.core j := by
  unfold failRegion
  split
  · rfl
  · split <;> rfl

/-- A core whose kernel an access has ended is not frozen. -/
theorem freeze_accessFault (s : State) (k : Nat) (w : At) (cause : Nat) (va : Word) : ((accessFault s k false w cause va).core k).freeze = {} := by
  have hend (strm addr : Nat) (bp : Option Br) : ((endKernelAt s k strm addr cause va bp).core k).freeze = {} := by
    unfold endKernelAt
    dsimp only
    rw [core_failRegion, stopMember, core_setCore_same]
    exact freeze_closeMember _ _
  unfold accessFault
  split
  · exact hend _ _ _
  · exact hend _ _ _

theorem cellPerformed : Claims.CellPerformed := by
  intro s k e xl hrun hcopy c sh x tag old empty alien hhead hfrom hlate halign hcheck hclean left done first
  have hok (hkind : e.kind = .rsv ∨ e.kind = .rels ∨ e.kind = .test) : wrCheck s k e = .ok xl := by
    rw [wrCheck]
    rcases hkind with h | h | h <;> rw [h] <;> exact hcheck
  have halien (h : alien) : cellAlien old e.data = true := (cellAlien_iff old e.data).mpr h
  have hknown (h : ¬ alien) : ¬ cellAlien old e.data = true := fun hc => h ((cellAlien_iff old e.data).mp hc)
  have hdone {t : State} {new walias : Option Word} (hret : e.ret = false) (hready : ∀ r ∈ x.rq, e.po < r.po)
      (hkind : e.kind = .rsv ∨ e.kind = .rels ∨ e.kind = .test) (hperform : performWr s k sh e xl = t)
      (hleft : CellLeft s k sh xl e.va new walias t) : done new walias :=
    ⟨t, exec_writePerformed rfl hrun hhead hfrom (wrReady_store hret hready) (hok hkind) hperform (by rw [hleft.freeze]; exact hlate), hleft.ctx,
      hleft.bytes, hleft.apart, hleft.wl, hleft.sys, hleft.q⟩
  refine ⟨fun hret hready hkind => ?reserve, fun hret hready hkind => ?release, fun hret hready hkind => ?test⟩
  case reserve =>
    have hperform := performWr_rsv (sh := sh) (old := old) hclean rfl hkind
    refine ⟨fun ha => ?_, fun hn hlt => ?_, fun hn hge => ?_⟩
    · exact hdone hret hready (.inl hkind) (hperform.trans (if_pos (halien ha))) (cellLeft_alias s k sh xl e.va)
    · exact hdone hret hready (.inl hkind) (hperform.trans ((if_neg (hknown hn)).trans (if_pos hlt)))
        (cellLeft_written s k sh xl e.va hcopy halign e.data)
    · exact hdone hret hready (.inl hkind) (hperform.trans ((if_neg (hknown hn)).trans (if_neg hge))) (cellLeft_idle s k sh xl e.va)
  case release =>
    have hperform := performWr_rels (sh := sh) (old := old) hclean rfl hkind
    refine ⟨fun heq => ?_, fun hne ha => ?_, fun hne hn => ?_⟩
    · exact hdone hret hready (.inr (.inl hkind)) (hperform.trans (if_pos heq)) (cellLeft_written s k sh xl e.va hcopy halign empty)
    · exact hdone hret hready (.inr (.inl hkind)) (hperform.trans ((if_neg hne).trans (if_pos (halien ha)))) (cellLeft_alias s k sh xl e.va)
    · exact hdone hret hready (.inr (.inl hkind)) (hperform.trans ((if_neg hne).trans (if_neg (hknown hn)))) (cellLeft_idle s k sh xl e.va)
  case test =>
    have hperform := performWr_test (sh := sh) (old := old) hclean rfl hkind
    have hexec {t : State} (h : performWr s k sh e xl = t) (ht : (t.core k).freeze.late = none) : exec (.writePerformed k) s = .next t :=
      exec_writePerformed rfl hrun hhead hfrom (wrReady_returning hret hready) (hok (.inr (.inr hkind))) h ht
    refine ⟨fun hn hdst => ?known, fun ha => ?alien⟩
    case known =>
      have hown : ownSpad (dropWr s k sh) k e.va = ownSpad s k e.va := (coresApart_dropWr s k sh).ownSpad k e.va
      have hvalue : performWr s k sh e xl = s.setCore k (c.setCtxOf sh (valueSent s k e (if old = e.data then 1 else 0) true left)) := by
        rw [hperform, if_neg (hknown hn), returnValue_eq, core_dropWr_self, valueSent_congr hown, ctxOf_dropped, dropWr_eq, setCore_setCore,
          dropped, setCtxOf_setCtxOf]
      have hleft : valueSent s k e (if old = e.data then 1 else 0) true left = { left with
          rq := x.rq.drop 1
          fly := x.fly ++ [wrReply s k e (e.dst.getD (.x 0)) (if old = e.data then 1 else 0) (some .test)] } := by
        rw [valueSent, okReply, hdst, hkind]
        dsimp only
        rw [List.append_nil]
        rfl
      rw [hleft] at hvalue
      refine ⟨_, hexec hvalue ?_, fun a => rfl, onlyCore_setCore _ _ _, core_setCore_same _ _ _⟩
      rw [core_setCore_same, freeze_setCtxOf]
      exact hlate
    case alien =>
      refine hexec (hperform.trans (if_pos (halien ha))) ?_
      rw [freeze_accessFault]

/-- Settles O11: each event by the step that performs it, with what it reads and writes. -/
theorem apAccessesPerformed : Obligations.ApAccessesPerformed :=
  ⟨loadPerformed, storePerformed, rowStored, atomicPerformed, cellPerformed, accessOrder⟩

end Sys2Proof.Proofs

/-!
SUPPORT for the statements about vector results: the chunks that make rows and masks, what a masked write leaves in each lane and half-lane
(07_vxe_model.md R157, R161), and words written by halves (08_vxe_instr.md R201).
-/

namespace Sys2Proof.Proofs

open Sys2Proof.Machine Sys2Proof.Laws

/-! ### Chunks of a row or mask -/

theorem extractLsb'_chunks (w : Nat) (g : Nat → Nat) {n i : Nat} (h : i < n) :
    (BitVec.ofNat (w * n) (chunks w g n)).extractLsb' (w * i) w = BitVec.ofNat w (g i) := by
  apply BitVec.eq_of_toNat_eq
  rw [BitVec.extractLsb'_toNat, BitVec.toNat_ofNat, BitVec.toNat_ofNat, Nat.mod_eq_of_lt (chunks_lt w g n)]
  exact nbits_chunks w g h

theorem rowHalf_rowOfHalves (f : Nat → BitVec 16) {j : Nat} (h : j < 192) : rowHalf (rowOfHalves f) j = f j :=
  (extractLsb'_chunks 16 (fun i => (f i).toNat) h).trans (by simp)

theorem rowLane_rowOfLanes (f : Nat → Lane) {i : Nat} (h : i < 96) : rowLane (rowOfLanes f) i = f i :=
  (extractLsb'_chunks 32 (fun i => (f i).toNat) h).trans (by simp)

theorem rowHalf_rowMerge (old new : Row) (m : BitVec 192) {j : Nat} (h : j < 192) :
    rowHalf (rowMerge old new m) j = if m.getLsbD j then rowHalf new j else rowHalf old j :=
  rowHalf_rowOfHalves _ h

/-- Bit b of chunk i. -/
theorem getLsbD_chunks (w : Nat) (g : Nat → Nat) {n i b : Nat} (h : i < n) (hb : b < w) :
    (BitVec.ofNat (w * n) (chunks w g n)).getLsbD (w * i + b) = (g i).testBit b := by
  have hchunk := congrArg (fun v => BitVec.getLsbD v b) (extractLsb'_chunks w g h)
  simpa only [BitVec.getLsbD_extractLsb', BitVec.getLsbD_ofNat (n := w), decide_eq_true hb, Bool.true_and] using hchunk

theorem getLsbD_halfMask (m : BitVec 96) {j : Nat} (h : j < 192) : (halfMask m).getLsbD j = m.getLsbD (j / 2) := by
  have hchunk := getLsbD_chunks 2 (fun i => if m.getLsbD i then 3 else 0) (show j / 2 < 96 by omega) (Nat.mod_lt j (by decide))
  rw [Nat.div_add_mod] at hchunk
  rw [halfMask, hchunk]
  rcases Nat.mod_two_eq_zero_or_one j with h2 | h2 <;> cases m.getLsbD (j / 2) <;> rw [h2] <;> rfl

theorem getLsbD_halfMaskOf (f : Nat → Bool) {j : Nat} (h : j < 192) : (halfMaskOf f).getLsbD j = f j := by
  have hchunk := getLsbD_chunks 1 (fun j => if f j then 1 else 0) h Nat.one_pos
  rw [Nat.add_zero, Nat.one_mul j] at hchunk
  refine hchunk.trans ?_
  cases f j <;> rfl

theorem getLsbD_maskMerge (old new m : BitVec 96) (i : Nat) :
    (maskMerge old new m).getLsbD i = if m.getLsbD i then new.getLsbD i else old.getLsbD i := by
  by_cases hi : i < 96
  · cases hm : m.getLsbD i <;> simp [maskMerge, BitVec.getLsbD_and, BitVec.getLsbD_or, hm, hi, - BitVec.getLsbD_eq_getElem]
  · simp [maskMerge, BitVec.getLsbD_of_ge _ i (Nat.le_of_not_lt hi)]

theorem rowHalf_rowMerge_halfMask (old new : Row) (m : BitVec 96) {j : Nat} (h : j < 192) :
    rowHalf (rowMerge old new (halfMask m)) j = if m.getLsbD (j / 2) then rowHalf new j else rowHalf old j := by
  rw [rowHalf_rowMerge _ _ _ h, getLsbD_halfMask m h]

theorem rowLane_eq_halves (r : Row) (i : Nat) : rowLane r i = rowHalf r (2 * i + 1) ++ rowHalf r (2 * i) := by
  have hjoin := BitVec.extractLsb'_append_extractLsb'_eq_extractLsb' (x := r) (start₁ := 32 * i) (len₁ := 16) (start₂ := 32 * i + 16)
    (len₂ := 16) rfl
  rw [rowLane, rowHalf, rowHalf, ← hjoin]
  congr 2 <;> omega

/-- Lane i is written whole where a mask holds both its half-lanes, and kept where it holds neither. -/
theorem rowLane_rowMerge (old new : Row) {m : BitVec 192} {b : Bool} {i : Nat} (h : i < 96) (hlow : m.getLsbD (2 * i) = b)
    (hhigh : m.getLsbD (2 * i + 1) = b) : rowLane (rowMerge old new m) i = if b then rowLane new i else rowLane old i := by
  rw [rowLane_eq_halves, rowHalf_rowMerge _ _ _ (by omega), rowHalf_rowMerge _ _ _ (by omega), hlow, hhigh, rowLane_eq_halves new,
    rowLane_eq_halves old]
  cases b <;> rfl

theorem smGet_filter {α : Type} (p : Nat → Bool) (d : α) (m : SMap α) (k : Nat) :
    smGet d (m.filter fun e => p e.1) k = if p k then smGet d m k else d := by
  induction m with
  | nil => simp [smGet]
  | cons e m ih =>
    rw [List.filter_cons]
    by_cases hk : e.1 = k
    · subst hk
      cases hp : p e.1 <;> simp_all [smGet]
    · cases hp : p e.1 <;> simp [smGet, hk, ih]

/-! ### The halves of VSEED -/

theorem word_eq_halves (x : Word) : x = x.extractLsb' 32 32 ++ x.setWidth 32 := by
  rw [BitVec.setWidth_eq_extractLsb' (by decide)]
  exact (BitVec.extractLsb'_append_extractLsb' (w := 32) (len := 32)).symm

theorem low_replaced (x : Word) (v : BitVec 32) : (x &&& 0xFFFFFFFF00000000) ||| v.zeroExtend 64 = x.extractLsb' 32 32 ++ v := by
  have hmask : (0xFFFFFFFF00000000 : Word) = BitVec.allOnes 32 ++ 0#32 := rfl
  have hlow : v.zeroExtend 64 = 0#32 ++ v := BitVec.setWidth_eq_append (by decide)
  conv_lhs => rw [word_eq_halves x, hmask, hlow, BitVec.and_append, BitVec.or_append]
  rw [BitVec.and_allOnes, BitVec.or_zero, BitVec.and_zero, BitVec.zero_or]

theorem high_replaced (x : Word) (v : BitVec 32) :
    (x &&& (0xFFFFFFFF : Word)) ||| (v.zeroExtend 64 <<< 32) = v ++ x.setWidth 32 := by
  have hmask : (0xFFFFFFFF : Word) = 0#32 ++ BitVec.allOnes 32 := rfl
  have hhigh : v.zeroExtend 64 <<< 32 = v ++ 0#32 := by
    apply BitVec.eq_of_toNat_eq
    rw [BitVec.toNat_shiftLeft, BitVec.toNat_append]
    have hv := v.isLt
    simp only [BitVec.toNat_setWidth, BitVec.toNat_ofNat, Nat.shiftLeft_eq, Nat.zero_mod, Nat.or_zero]
    omega
  conv_lhs => rw [word_eq_halves x, hmask, hhigh, BitVec.and_append, BitVec.or_append]
  rw [BitVec.and_allOnes, BitVec.or_zero, BitVec.and_zero, BitVec.zero_or]

end Sys2Proof.Proofs

/-!
SUPPORT for `VxResults`: what each destination of a result changes, and the step that lands results (07_vxe_model.md R165).
-/

namespace Sys2Proof.Proofs

open Sys2Proof.Machine Sys2Proof.Laws

/-! ### The destinations of a result -/

section
variable (now order : Nat) (c : Core)

theorem fly_cfgWrite (x : Vx) (r : Nat) (v : Word) : (landDst.cfgWrite x r v).fly = x.fly := by
  unfold landDst.cfgWrite
  split <;> rfl

theorem phys_cfgWrite (x : Vx) (r : Nat) (v : Word) : (landDst.cfgWrite x r v).phys = x.phys := by
  unfold landDst.cfgWrite
  split <;> rfl

theorem vseed_cfgWrite_low (x : Vx) (v : Word) : (landDst.cfgWrite x 6 v).vseed = x.vseed.extractLsb' 32 32 ++ v.setWidth 32 :=
  low_replaced _ _

theorem vseed_cfgWrite_high (x : Vx) (v : Word) : (landDst.cfgWrite x 7 v).vseed = v.setWidth 32 ++ x.vseed.setWidth 32 :=
  high_replaced _ _

/-- What no destination writes. -/
structure SameFlight (c c' : Core) : Prop where
  fly : c'.vx.fly = c.vx.fly
  stats : c'.stats = c.stats
  pushReq : c'.pushReq = c.pushReq

/-- What no destination but a vector register writes. -/
structure SameRegs (c c' : Core) : Prop where
  flight : SameFlight c c'
  phys : c'.vx.phys = c.vx.phys

/-- The register file and the marks of its registers change. This and the other `reads_` lemmas are about any new value, so that the
kernel never compares the rows that a landing computes with those of the core. -/
theorem reads_setPhys (phys : SMap Row) (poisoned : List Nat) (badLanes : SMap (BitVec 96)) (checks : List Check) :
    let y : Core := { c with vx := { c.vx with phys := phys, poisoned := poisoned, badLanes := badLanes, checks := checks } }
    SameFlight c y ∧ y.vx.phys = phys ∧ y.vx.tiles = c.vx.tiles ∧ y.vx.q = c.vx.q ∧ y.vx.p = c.vx.p ∧ y.q = c.q
      ∧ y.vx.vseed = c.vx.vseed ∧ y.cmds = c.cmds :=
  ⟨⟨rfl, rfl, rfl⟩, rfl, rfl, rfl, rfl, rfl, rfl, rfl⟩

theorem landDst_v (phys : Nat) (val : Row) (m : BitVec 192) :
    let y := landDst now order c (.v phys val m)
    SameFlight c y ∧ y.vx.phys = smSet 0 c.vx.phys phys (rowMerge (smGet 0 c.vx.phys phys) val m) ∧ y.vx.tiles = c.vx.tiles
      ∧ y.vx.q = c.vx.q ∧ y.vx.p = c.vx.p ∧ y.q = c.q ∧ y.vx.vseed = c.vx.vseed ∧ y.cmds = c.cmds :=
  reads_setPhys c _ _ _ _

theorem reads_setMasks (q : SMap (BitVec 96)) :
    let y : Core := { c with vx := { c.vx with q := q } }
    SameRegs c y ∧ y.vx.p = c.vx.p ∧ y.vx.q = q :=
  ⟨⟨⟨rfl, rfl, rfl⟩, rfl⟩, rfl, rfl⟩

theorem landDst_q_zero (val m : BitVec 96) : landDst now order c (.q 0 val m) = c := rfl

theorem landDst_q {n : Nat} (hn : n ≠ 0) (val m : BitVec 96) :
    let y := landDst now order c (.q n val m)
    SameRegs c y ∧ y.vx.p = c.vx.p ∧ y.vx.q = smSet 0 c.vx.q n (maskMerge (smGet 0 c.vx.q n) val m) := by
  have hland : landDst now order c (.q n val m) = _ := if_neg hn
  rw [hland]
  exact reads_setMasks c _

theorem landDst_p_zero (val : Bool) : landDst now order c (.p 0 val) = c := rfl

theorem landDst_p {n : Nat} (hn : n ≠ 0) (val : Bool) :
    let y := landDst now order c (.p n val)
    SameRegs c y ∧ y.vx.q = c.vx.q ∧ y.vx.p = smSet false c.vx.p n val := by
  have hland : landDst now order c (.p n val) = _ := if_neg hn
  rw [hland]
  exact ⟨⟨⟨rfl, rfl, rfl⟩, rfl⟩, rfl, rfl⟩

theorem landDst_vb (n : Nat) (val : Word) :
    let y := landDst now order c (.vb n val)
    SameRegs c y ∧ y.vx.vb = smSet 0 c.vx.vb n val := ⟨⟨⟨rfl, rfl, rfl⟩, rfl⟩, rfl⟩

theorem reads_setTiles (tiles : SMap Row) (poisoned : List Nat) :
    let y : Core := { c with vx := { c.vx with tiles := tiles, poisoned := poisoned } }
    SameRegs c y ∧ y.vx.tiles = tiles :=
  ⟨⟨⟨rfl, rfl, rfl⟩, rfl⟩, rfl⟩

theorem landDst_tile (t r : Nat) (val : Row) (m : BitVec 96) :
    let y := landDst now order c (.tile t r val m)
    SameRegs c y ∧ y.vx.tiles = smSet 0 c.vx.tiles (96 * t + r) (tileMerge (smGet 0 c.vx.tiles (96 * t + r)) val m) :=
  reads_setTiles c _ _

theorem landDst_tclr (t : Nat) :
    let y := landDst now order c (.tclr t)
    SameRegs c y ∧ y.vx.tiles = c.vx.tiles.filter fun e => e.1 / 96 != t :=
  reads_setTiles c _ _

theorem landDst_cfg (r : Nat) (v : Word) :
    let y := landDst now order c (.cfg r v)
    SameRegs c y ∧ y.vx = landDst.cfgWrite c.vx r v :=
  ⟨⟨⟨fly_cfgWrite c.vx r v, rfl, rfl⟩, phys_cfgWrite c.vx r v⟩, rfl⟩

theorem reads_setCounts (vrc : Row) :
    let y : Core := { c with vx := { c.vx with vrc := vrc } }
    SameRegs c y ∧ y.vx.vrc = vrc :=
  ⟨⟨⟨rfl, rfl, rfl⟩, rfl⟩, rfl⟩

theorem landDst_vrcAdd (m : BitVec 96) :
    let y := landDst now order c (.vrcAdd m)
    SameRegs c y ∧ y.vx.vrc = rowOfLanes fun i => if m.getLsbD i then rowLane c.vx.vrc i + 1 else rowLane c.vx.vrc i :=
  reads_setCounts c _

theorem landDst_vrcSet (val : Row) (m : BitVec 96) :
    let y := landDst now order c (.vrcSet val m)
    SameRegs c y ∧ y.vx.vrc = rowMerge c.vx.vrc val (halfMask m) :=
  reads_setCounts c _

theorem sameFlight_landDst (d : VxDst) : SameFlight c (landDst now order c d) := by
  cases d with
  | v phys val m => exact (landDst_v now order c phys val m).left
  | q n val m =>
    rcases eq_or_ne n 0 with rfl | hn
    · exact ⟨rfl, rfl, rfl⟩
    · exact (landDst_q now order c hn val m).left.flight
  | p n val =>
    rcases eq_or_ne n 0 with rfl | hn
    · exact ⟨rfl, rfl, rfl⟩
    · exact (landDst_p now order c hn val).left.flight
  | tile t r val m => exact (landDst_tile now order c t r val m).left.flight
  | cfg r v => exact (landDst_cfg now order c r v).left.flight
  | vrcAdd m => exact (landDst_vrcAdd now order c m).left.flight
  | vrcSet val m => exact (landDst_vrcSet now order c val m).left.flight
  | _ => exact ⟨rfl, rfl, rfl⟩

end

/-! ### A result lands -/

section
variable {s : State} {k : Nat} {c : Core} {f : VxFly}

theorem exec_vxResultLanding (hrun : (s.core k).run = .running) (hfroz : (s.core k).frozen = false) :
    exec (.vxResultLanding k) s = .next (s.setCore k (vxLand (s.core k))) := by
  show Host.Outcome.next _ = _
  rw [alive_of_running hrun, hfroz]
  rfl

/-- The core whose VXE has nothing in flight. -/
def grounded (c : Core) : Core := { c with vx := { c.vx with fly := [] } }

/-- Core `y` is `c` with the events and pushes of the result `f`. -/
def Counted (c : Core) (f : VxFly) (y : Core) : Prop :=
  y = { c with stats := c.stats.add f.tid f.cnt
               pushReq := c.pushReq ++ (f.pushes.filter fun e => e.2 != 0).map fun e => (Stream.vx, e.1, e.2) }

theorem Counted.reads {y : Core} (h : Counted c f y) : y.vx = c.vx ∧ y.q = c.q ∧ y.ev = c.ev ∧ y.stats = c.stats.add f.tid f.cnt
    ∧ y.pushReq = c.pushReq ++ (f.pushes.filter fun e => e.2 != 0).map fun e => (Stream.vx, e.1, e.2) := by
  rw [Counted] at h
  subst h
  exact ⟨rfl, rfl, rfl, rfl, rfl⟩

theorem Counted.rest {y : Core} (h : Counted c f y) : y = { c with stats := y.stats, pushReq := y.pushReq } := by
  rw [Counted] at h
  subst h
  rfl

theorem vxLand_single {d : VxDst} (hfly : c.vx.fly = [f]) (hdst : f.dsts = [d]) (hdue : f.due ≤ c.cycle) :
    Counted (landDst c.cycle f.order (grounded c) d) f (vxLand c) := by
  simp [Counted, vxLand, landFly, grounded, hfly, hdst, hdue, askPushes, countOn]

end

theorem vxResultsLand : Claims.VxResultsLand := by
  intro s k f d hrun hfroz hfly hdst hdue
  refine ⟨_, exec_vxResultLanding hrun hfroz, onlyCore_setCore _ _ _, ?_⟩
  rw [core_setCore_same]
  have hland := vxLand_single hfly hdst hdue
  generalize s.core k = c at hland
  generalize vxLand c = y at hland
  obtain ⟨hvx, hq, hev, hstats, hpush⟩ := hland.reads
  obtain ⟨hgone, hsame, hsamePush⟩ := sameFlight_landDst c.cycle f.order (grounded c) d
  refine ⟨(congrArg Vx.fly hvx).trans hgone, by rw [hstats, hsame]; rfl, by rw [hpush, hsamePush]; rfl, ?_⟩
  cases d with
  | v p val m =>
    obtain ⟨-, hphys, htiles, hmasks, hpreds, hqueues, -⟩ := landDst_v c.cycle f.order (grounded c) p val m
    rw [← hvx] at hphys htiles hmasks hpreds
    refine ⟨fun j hj => ?_, fun q hq => ?_, htiles, hmasks, hpreds, hq.trans hqueues⟩
    · rw [hphys, smGet_set_same]
      exact rowHalf_rowMerge _ _ _ hj
    · rw [hphys]
      exact smGet_set_ne _ _ _ hq
  | q n val m =>
    rcases eq_or_ne n 0 with rfl | hn
    · rw [landDst_q_zero] at hvx
      exact ⟨fun p => by rw [hvx]; rfl, by rw [hvx]; rfl, fun h => absurd rfl h, fun _ => by rw [hvx]; rfl⟩
    · obtain ⟨⟨-, hphys⟩, hpreds, hmasks⟩ := landDst_q c.cycle f.order (grounded c) hn val m
      rw [← hvx] at hphys hpreds hmasks
      refine ⟨fun p => by rw [hphys]; rfl, hpreds, fun _ => ⟨fun i _ => ?_, fun j hj => ?_⟩, fun h => absurd h hn⟩
      · rw [hmasks, smGet_set_same]
        exact getLsbD_maskMerge _ _ _ _
      · rw [hmasks]
        exact smGet_set_ne _ _ _ hj
  | p n val =>
    rcases eq_or_ne n 0 with rfl | hn
    · rw [landDst_p_zero] at hvx
      exact ⟨fun p => by rw [hvx]; rfl, by rw [hvx]; rfl, fun h => absurd rfl h, fun _ => by rw [hvx]; rfl⟩
    · obtain ⟨⟨-, hphys⟩, hmasks, hpreds⟩ := landDst_p c.cycle f.order (grounded c) hn val
      rw [← hvx] at hphys hpreds hmasks
      refine ⟨fun p => by rw [hphys]; rfl, hmasks, fun _ => ?_, fun h => absurd h hn⟩
      rw [hpreds]
      exact ⟨smGet_set_same _ _ _ _, fun j hj => smGet_set_ne _ _ _ hj⟩
  | vb n val =>
    obtain ⟨⟨-, hphys⟩, hvb⟩ := landDst_vb c.cycle f.order (grounded c) n val
    rw [← hvx] at hphys hvb
    refine ⟨fun p => by rw [hphys]; rfl, ?_⟩
    rw [hvb]
    exact ⟨smGet_set_same _ _ _ _, fun j hj => smGet_set_ne _ _ _ hj⟩
  | tile t r val m =>
    obtain ⟨⟨-, hphys⟩, htiles⟩ := landDst_tile c.cycle f.order (grounded c) t r val m
    rw [← hvx] at hphys htiles
    refine ⟨fun p => by rw [hphys]; rfl, fun j hj => ?_, fun j hj => ?_⟩
    · rw [htiles, smGet_set_same]
      exact rowHalf_rowMerge_halfMask _ _ _ hj
    · rw [htiles]
      exact smGet_set_ne _ _ _ hj
  | tclr t =>
    obtain ⟨⟨-, hphys⟩, htiles⟩ := landDst_tclr c.cycle f.order (grounded c) t
    rw [← hvx] at hphys htiles
    refine ⟨fun p => by rw [hphys]; rfl, fun j => ?_⟩
    rw [htiles, smGet_filter (fun n => n / 96 != t)]
    by_cases hj : j / 96 = t <;> simp [hj, grounded]
  | cfg n v =>
    obtain ⟨⟨-, hphys⟩, hcfg⟩ := landDst_cfg c.cycle f.order (grounded c) n v
    rw [← hvx] at hphys hcfg
    refine ⟨fun p => by rw [hphys]; rfl, ?_, ?_, ?_, ?_, ?_, ?_, ?_, fun hn => ?low, fun hn => ?high⟩
    case low =>
      rw [hcfg, hn, vseed_cfgWrite_low]
      exact ⟨BitVec.setWidth_append_eq_right, BitVec.extractLsb'_append_eq_left⟩
    case high =>
      rw [hcfg, hn, vseed_cfgWrite_high]
      exact ⟨BitVec.extractLsb'_append_eq_left, BitVec.setWidth_append_eq_right⟩
    all_goals exact fun hn => by rw [hcfg, hn]; rfl
  | vrcAdd m =>
    obtain ⟨⟨-, hphys⟩, hvrc⟩ := landDst_vrcAdd c.cycle f.order (grounded c) m
    rw [← hvx] at hphys hvrc
    refine ⟨fun p => by rw [hphys]; rfl, fun i hi => ?_⟩
    rw [hvrc]
    exact rowLane_rowOfLanes _ hi
  | vrcSet val m =>
    obtain ⟨⟨-, hphys⟩, hvrc⟩ := landDst_vrcSet c.cycle f.order (grounded c) val m
    rw [← hvx] at hphys hvrc
    refine ⟨fun p => by rw [hphys]; rfl, fun j hj => ?_⟩
    rw [hvrc]
    exact rowHalf_rowMerge_halfMask _ _ _ hj
  | sq v => exact ⟨fun p => by rw [hvx]; rfl, hq⟩
  | aq v => exact ⟨fun p => by rw [hvx]; rfl, hq⟩
  | eq v => exact ⟨fun p => by rw [hvx]; rfl, hq, hev⟩
  | nothing => exact hland.rest

end Sys2Proof.Proofs

/-!
SUPPORT for `VxResults`: the call that a `vret` retires, and the one that it takes (08_vxe_instr.md R199).
-/

namespace Sys2Proof.Proofs

open Sys2Proof.Machine Sys2Proof.Laws

/-! ### The argument of a call -/

theorem rowLane_setWidth (v : Word) {i : Nat} (h : i < 96) : rowLane (v.setWidth 3072) i = v.extractLsb' (32 * i) 32 :=
  BitVec.extractLsb'_setWidth_of_le (by omega)

theorem getLsbD_lanePair (i : Nat) {j : Nat} (h : j < 192) : (lanePair i).getLsbD j = (j / 2 == i) := getLsbD_halfMaskOf _ h

/-- The half-lanes of lanes 0 and 1. -/
theorem getLsbD_firstLanes {i j : Nat} (h : j < 192) (hj : j / 2 = i) : (lanePair 0 ||| lanePair 1).getLsbD j = decide (i < 2) := by
  rw [BitVec.getLsbD_or, getLsbD_lanePair 0 h, getLsbD_lanePair 1 h, hj]
  rcases i with _ | _ | i <;> simp

theorem rowLane_argument (old : Row) (v : Word) {i : Nat} (h : i < 96) :
    rowLane (rowMerge old (v.setWidth 3072) (lanePair 0 ||| lanePair 1)) i
      = if i = 0 then v.setWidth 32 else if i = 1 then v.extractLsb' 32 32 else rowLane old i := by
  have hlow := getLsbD_firstLanes (i := i) (show 2 * i < 192 by omega) (by omega)
  have hhigh := getLsbD_firstLanes (i := i) (show 2 * i + 1 < 192 by omega) (by omega)
  rw [rowLane_rowMerge _ _ h hlow hhigh, rowLane_setWidth v h]
  rcases i with _ | _ | i
  · exact (BitVec.setWidth_eq_extractLsb' (by decide)).symm
  · rfl
  · rfl

section
variable {c : Core} {call : Call}

theorem deliverArg_seed (h : call.seed = true) : deliverArg c call = { c with vx := { c.vx with vseed := call.arg } } := if_pos h

theorem deliverArg_lanes (h : call.seed = false) :
    let y := deliverArg c call
    y.vx.phys = smSet 0 c.vx.phys (vphys c 0) (rowMerge (smGet 0 c.vx.phys (vphys c 0)) (call.arg.setWidth 3072) (lanePair 0 ||| lanePair 1))
      ∧ y.vx.vseed = c.vx.vseed ∧ y.cmds = c.cmds := by
  have hlanes : deliverArg c call = landDst c.cycle c.vc.order c (.v (vphys c 0) (call.arg.setWidth 3072) (lanePair 0 ||| lanePair 1)) :=
    if_neg (by rw [h]; decide)
  obtain ⟨-, hphys, -, -, -, -, hvseed, hcmds⟩ := landDst_v c.cycle c.vc.order c (vphys c 0) (call.arg.setWidth 3072) (lanePair 0 ||| lanePair 1)
  rw [hlanes]
  exact ⟨hphys, hvseed, hcmds⟩

/-- The core that takes `call`, with its argument delivered, and leaves `rest` queued. -/
def callTaken (c : Core) (call : Call) (rest : List Call) : Core :=
  { c with
    vx := { c.vx with calls := rest, active := some call.seq, vpc := BitVec.ofNat 12 call.target, stall := 0, brFrom := none, bad := none }
    vc := { c.vc with atRet := false } }

theorem cmds_deliverArg : (deliverArg c call).cmds = c.cmds := by
  cases h : call.seed
  · exact (deliverArg_lanes h).right.right
  · rw [deliverArg_seed h]

end

/-! ### A call is taken, and retires -/

theorem pushHeld_eq_false {c : Core} {st : Stream} (h : ∀ e ∈ c.pushWait, e.1 ≠ st) : pushHeld c st = false := by
  rw [pushHeld, List.any_eq_false]
  exact fun e he => by simpa using h e he

theorem inactive_eq {c : Core} (h : c.vx.active = none) : ({ c with vx := { c.vx with active := none } } : Core) = c := by
  rw [← h]

theorem freeSeq_eq (s : State) (k seq : Nat) :
    freeSeq s k seq = s.setCore k { s.core k with cmds := (s.core k).cmds.filter fun e => e.seq != seq, ev := true } := by
  rw [freeSeq, setEv, core_setCore_same, setCore_setCore]

/-- The state once the active call of core `k`, if there is one, has retired. -/
def activeRetired (s : State) (k : Nat) : State :=
  let t := s.setCore k { s.core k with vx := { (s.core k).vx with active := none } }
  match (s.core k).vx.active.bind (s.core k).cmd? with
  | some m => retireCmd t k m 1 0 0
  | none => t

/-- A queued call may be taken: its command, where it is unretired, has been accepted. -/
def callReady (c : Core) (call : Call) : Bool :=
  match c.cmd? call.seq with
  | some m => decide (m.at_ ≤ c.cycle)
  | none => true

/-- Core `c` whose VXE waits for a call. -/
def awaitsCall (c : Core) : Core := { c with vx := { c.vx with stall := 3 } }

/-- The state once the first of the queued calls of core `k` is taken, if it may be. -/
def nextTaken (s : State) (k : Nat) : State :=
  match (s.core k).vx.calls with
  | [] => s.setCore k (awaitsCall (s.core k))
  | call :: rest =>
    if !callReady (s.core k) call then s.setCore k (awaitsCall (s.core k))
    else s.setCore k (callTaken (deliverArg (s.core k) call) call rest)

theorem callReady_eq_true {c : Core} {call : Call} (h : ∀ m, c.cmd? call.seq = some m → m.at_ ≤ c.cycle) : callReady c call = true := by
  unfold callReady
  split
  · next m hm => exact decide_eq_true (h m hm)
  · rfl

theorem nextTaken_nil {s : State} {k : Nat} (h : (s.core k).vx.calls = []) : nextTaken s k = s.setCore k (awaitsCall (s.core k)) := by
  rw [nextTaken, h]

theorem nextTaken_cons {s : State} {k : Nat} {call : Call} {rest : List Call} (h : (s.core k).vx.calls = call :: rest)
    (hready : callReady (s.core k) call = true) : nextTaken s k = s.setCore k (callTaken (deliverArg (s.core k) call) call rest) := by
  rw [nextTaken, h]
  exact if_neg (by rw [hready]; decide)

theorem activeRetired_none {s : State} {k : Nat} (h : (s.core k).vx.active = none) : activeRetired s k = s.setCore k (s.core k) := by
  rw [activeRetired, inactive_eq h, h]
  rfl

/-- A call's command has no record (13_bte.md R247). -/
theorem activeRetired_some {s : State} {k : Nat} {m : Cmd} (hactive : (s.core k).vx.active = some m.seq)
    (hcmd : (s.core k).cmd? m.seq = some m) (heng : m.eng = .vx) (hrel : wbits m.ccw 13 1 = 0) :
    activeRetired s k = s.setCore k { s.core k with
      vx := { (s.core k).vx with active := none }
      cmds := (s.core k).cmds.filter fun e => e.seq != m.seq
      ev := true } := by
  have hring (t : State) : cmdRing t k m = none := by rw [cmdRing, heng]
  rw [activeRetired, hactive, Option.bind_some, hcmd]
  dsimp only
  rw [retireCmd_eq 0 0 (.inr (.inl hrel)), recordOf_none 0 0 (.inr (hring _)), freeSeq_eq, core_setCore_same, setCore_setCore]

section
variable {s : State} {k : Nat} (hrun : (s.core k).run = .running) (hfroz : (s.core k).frozen = false)
  (hret : (s.core k).vc.atRet = true) (hfly : ∀ f ∈ (s.core k).vx.fly, (s.core k).vc.order ≤ f.order)
  (hheld : ∀ e ∈ (s.core k).pushWait, e.1 ≠ Stream.vx) (hfit : landedFit (s.core k) = true)
  (hbusy : (s.core k).vx.busy ≤ (s.core k).cycle)
include hrun hfroz hret hfly hheld hfit hbusy

/-- At a `vret` with earlier results landed and no push held, the active call retires and the next one is taken. -/
theorem exec_vxeCallTake : exec (.vxeCallTake k) s = .next (nextTaken (activeRetired s k) k) := by
  have hstands : (!(s.core k).alive || (s.core k).frozen || !(s.core k).vc.atRet || decide ((s.core k).cycle < (s.core k).vx.busy)) = false := by
    simp [alive_of_running hrun, hfroz, hret, hbusy]
  have hlanded : (((s.core k).vx.fly.any fun f => decide (f.order < (s.core k).vc.order)) || pushHeld (s.core k) .vx
      || !landedFit (s.core k)) = false := by
    simpa [pushHeld_eq_false hheld, hfit] using hfly
  have hexec : exec (.vxeCallTake k) s = .next (
      if !(s.core k).alive || (s.core k).frozen || !(s.core k).vc.atRet || decide ((s.core k).cycle < (s.core k).vx.busy) then s
      else if ((s.core k).vx.fly.any fun f => decide (f.order < (s.core k).vc.order)) || pushHeld (s.core k) .vx || !landedFit (s.core k) then
        s.setCore k { s.core k with vx := { (s.core k).vx with stall := 4 } }
      else nextTaken (activeRetired s k) k) := rfl
  rw [hexec, hstands, hlanded]
  rfl

end

theorem reads_callTaken (c : Core) (call : Call) (rest : List Call) :
    let y := callTaken c call rest
    y.vc.atRet = false ∧ y.vx.calls = rest ∧ y.vx.active = some call.seq ∧ y.vx.vpc = BitVec.ofNat 12 call.target ∧ y.cmds = c.cmds
      ∧ y.vx.vseed = c.vx.vseed ∧ y.vx.phys = c.vx.phys := ⟨rfl, rfl, rfl, rfl, rfl, rfl, rfl⟩

theorem vxCallTaken : Claims.VxCallTaken := by
  intro s k hrun hfroz hret c x hfly hheld hfit hbusy
  have hexec := exec_vxeCallTake hrun hfroz hret hfly hheld hfit hbusy
  refine ⟨fun call rest hcalls hactive hready => ?next, fun m hcalls hactive hcmd heng hrel => ?last⟩
  case next =>
    have hcalls' : ((s.setCore k c).core k).vx.calls = call :: rest := by rw [core_setCore_same]; exact hcalls
    have hready' : callReady ((s.setCore k c).core k) call = true := by rw [core_setCore_same]; exact callReady_eq_true hready
    rw [activeRetired_none hactive, nextTaken_cons hcalls' hready', core_setCore_same, setCore_setCore] at hexec
    refine ⟨_, hexec, onlyCore_setCore _ _ _, ?_⟩
    rw [core_setCore_same]
    obtain ⟨hleft, hqueued, htaken, hvpc, hcmds, hvseed, hphys⟩ := reads_callTaken (deliverArg c call) call rest
    refine ⟨hleft, hqueued, htaken, hvpc, hcmds.trans cmds_deliverArg, fun hs => ?seed, fun hs => ?lanes⟩
    case seed =>
      rw [hvseed, hphys, deliverArg_seed hs]
      exact ⟨rfl, rfl⟩
    case lanes =>
      obtain ⟨hdphys, hdvseed, -⟩ := deliverArg_lanes (c := c) hs
      rw [hvseed, hphys, hdphys]
      refine ⟨hdvseed, fun p hp => smGet_set_ne _ _ _ hp, fun i hi => ?_⟩
      rw [smGet_set_same]
      exact rowLane_argument _ _ hi
  case last =>
    have hidle := activeRetired_some hactive hcmd heng hrel
    rw [hidle, nextTaken_nil (by rw [core_setCore_same]; exact hcalls), core_setCore_same, setCore_setCore] at hexec
    refine ⟨_, hexec, onlyCore_setCore _ _ _, ?_⟩
    rw [core_setCore_same]
    exact ⟨hret, rfl, fun e => by simp [awaitsCall, c], rfl⟩

end Sys2Proof.Proofs

/-!
SUPPORT and the proof of `VxResults`: shadow checks (07_vxe_model.md R174), and the decoder of stored blocks (R166-R171).
-/

namespace Sys2Proof.Proofs

open Sys2Proof.Machine Sys2Proof.Laws

/-! ### A shadow check is made -/

theorem firstLane_eq {m : BitVec 96} {l : Nat} (hl : l < 96) (hset : m.getLsbD l = true) (hlow : ∀ j < l, m.getLsbD j = false) :
    firstLane m = l := by
  have hfind : (List.range 96).find? (fun i => m.getLsbD i) = some l := by
    rw [List.find?_range_eq_some]
    exact ⟨hset, List.mem_range.mpr hl, fun j hj => by rw [hlow j hj]; rfl⟩
  rw [firstLane, hfind, Option.getD_some]

/-- Core `c` once the check `e` is made; the lanes `bad` of its register have wrong check bits then, and no other lane that it checked. -/
def checkMade (c : Core) (e : Check) (bad : BitVec 96) : Core :=
  { c with vx := { c.vx with
    checks := c.vx.checks.erase e
    badLanes := smSet 0 c.vx.badLanes e.prod.phys ((smGet 0 c.vx.badLanes e.prod.phys &&& ~~~(lanesOf e.prod.mask)) ||| bad) } }

theorem reads_checkMade (c : Core) (e : Check) (bad : BitVec 96) :
    (checkMade c e bad).vx.checks = c.vx.checks.erase e ∧ (checkMade c e bad).vx.phys = c.vx.phys ∧ (checkMade c e bad).run = c.run :=
  ⟨rfl, rfl, rfl⟩

theorem exec_shadowCheck {s : State} {k : Nat} {e : Check} {rest : List Check} (lanes : BitVec 96) (hrun : (s.core k).run = .running)
    (hfroz : (s.core k).frozen = false) (hchecks : (s.core k).vx.checks = e :: rest) (hdue : e.prod.due + 1 ≤ (s.core k).cycle) :
    exec (.shadowCheck k lanes) s = .next (
      let bad := lanes &&& lanesOf e.prod.mask
      let u := s.setCore k (checkMade (s.core k) e bad)
      if bad = 0 then u else suspect (endKernel u k 2 e.vpc.toNat 0xB3 (w64 (firstLane bad))) k [e.prod.cls]) := by
  have hfirst : (s.core k).vx.checks.find? (fun k' => decide (k'.prod.due + 1 ≤ (s.core k).cycle)) = some e := by
    rw [hchecks, List.find?_cons_of_pos (by simpa using hdue)]
  show execShadowCheck k lanes s = _
  unfold execShadowCheck
  dsimp only
  rw [hfirst]
  dsimp only
  rw [if_neg (by simp [alive_of_running hrun, hfroz])]
  rfl

theorem shadowCheckMade (s : State) (k : Nat) (hrun : (s.core k).run = .running) (hfroz : (s.core k).frozen = false)
    (e : Check) (rest : List Check) (lanes : BitVec 96) (hchecks : (s.core k).vx.checks = e :: rest) (hdue : e.prod.due + 1 ≤ (s.core k).cycle) :
    (lanes &&& lanesOf e.prod.mask = 0 → ∃ t, exec (.shadowCheck k lanes) s = .next t ∧ OnlyCore k s t ∧ (t.core k).vx.checks = rest
      ∧ (t.core k).vx.phys = (s.core k).vx.phys ∧ (t.core k).run = .running)
    ∧ ∀ l < 96, (lanes &&& lanesOf e.prod.mask).getLsbD l = true → (∀ j < l, (lanes &&& lanesOf e.prod.mask).getLsbD j = false) →
      ∃ u, exec (.shadowCheck k lanes) s = .next (suspect (endKernel u k 2 e.vpc.toNat 0xB3 (w64 l)) k [e.prod.cls]) ∧ OnlyCore k s u := by
  have hexec := exec_shadowCheck lanes hrun hfroz hchecks hdue
  generalize lanes &&& lanesOf e.prod.mask = bad at hexec ⊢
  refine ⟨fun hbad => ?right, fun l hl hset hlow => ?wrong⟩
  case right =>
    obtain ⟨hleft, hphys, hrun'⟩ := reads_checkMade (s.core k) e bad
    refine ⟨_, hexec.trans (congrArg _ (if_pos hbad)), onlyCore_setCore _ _ _, ?_⟩
    rw [core_setCore_same]
    exact ⟨by rw [hleft, hchecks, List.erase_cons_head], hphys, hrun'.trans hrun⟩
  case wrong =>
    have hbad : ¬ bad = 0 := fun h => by simp [h] at hset
    refine ⟨_, ?_, onlyCore_setCore s k (checkMade (s.core k) e bad)⟩
    rw [hexec, ← firstLane_eq hl hset hlow]
    exact congrArg _ (if_neg hbad)

/-! ### Bytes of a stream -/

theorem leNat_append (a b : List Byte) : leNat (a ++ b) = leNat a + 256 ^ a.length * leNat b := by
  induction a with
  | nil => simp [leNat]
  | cons x a ih =>
    rw [List.cons_append, leNat, leNat, ih, List.length_cons, Nat.pow_succ']
    ring

/-- The bytes of the rows of a stream that have arrived. -/
def streamBytes (z : ZStream) : List Byte := z.rows.flatMap fun r => rowBytes r.data

theorem length_rowBytes (r : Row) : (rowBytes r).length = 384 := length_leBytes 384 r.toNat

theorem getElem?_flatMap_rowBytes (l : List QRow) (i : Nat) :
    (l.flatMap fun r => rowBytes r.data)[i]? = l[i / 384]?.map fun r => rowByte r.data (i % 384) := by
  induction l generalizing i with
  | nil => rfl
  | cons r l ih =>
    rw [List.flatMap_cons]
    by_cases hi : i < 384
    · rw [List.getElem?_append_left (by rwa [length_rowBytes]), getElem?_rowBytes _ hi, Nat.div_eq_of_lt hi, Nat.mod_eq_of_lt hi]
      rfl
    · obtain ⟨n, rfl⟩ : ∃ n, i = n + 384 := ⟨i - 384, by omega⟩
      rw [List.getElem?_append_right (by rw [length_rowBytes]; omega), length_rowBytes, Nat.add_sub_cancel, ih,
        Nat.add_div_right n (by decide), Nat.add_mod_right]
      rfl

section
variable {z : ZStream}

theorem getElem?_streamBytes {i : Nat} (h : i < 384 * z.rows.length) : (streamBytes z)[i]? = some (BitVec.ofNat 8 (zmByte z i)) := by
  have hrow : i / 384 < z.rows.length := by omega
  rw [streamBytes, getElem?_flatMap_rowBytes, zmByte, List.getElem?_eq_getElem hrow]
  simp

theorem map_zmByte {i n : Nat} (h : i + n ≤ 384 * z.rows.length) :
    (List.range n).map (fun j => BitVec.ofNat 8 (zmByte z (i + j))) = ((streamBytes z).drop i).take n := by
  induction n with
  | zero => rfl
  | succ n ih =>
    rw [List.range_succ, List.map_append, ih (by omega), List.take_add_one, List.getElem?_drop, getElem?_streamBytes (by omega)]
    rfl

theorem zmNat_eq {i n : Nat} (h : i + n ≤ 384 * z.rows.length) : zmNat z i n = leNat (((streamBytes z).drop i).take n) := by
  rw [zmNat, map_zmByte h]

end

/-! ### Items of a stream -/

section
variable {z : ZStream} {bound : Nat}

theorem zmNext_finished (h : 384 * z.total ≤ z.pos) : zmNext z bound = .finished := if_pos h

/-- The header of a stream's next block, as a number. -/
def zmHeader (z : ZStream) : Nat := leNat (((streamBytes z).drop z.pos).take 8)

/-- No row that an access reads is poisoned, where none of the stream is. -/
theorem not_poisoned (hclean : ∀ r ∈ z.rows, r.poison = false) (l : List Nat) (row : Nat → Nat) :
    ¬ (l.any fun i => match z.rows[row i]? with
      | some r => r.poison
      | none => false) = true := by
  rw [List.any_eq_true]
  rintro ⟨i, -, hi⟩
  split at hi
  · next r hr => exact absurd hi (by rw [hclean r (List.mem_of_getElem? hr)]; decide)
  · exact absurd hi (by decide)

theorem zmNext_pad (hclean : ∀ r ∈ z.rows, r.poison = false) (hsize : z.pos + 8 ≤ 384 * z.total) (hin : z.pos + 8 ≤ 384 * z.rows.length)
    (hhead : zmHeader z = 0xFF0000) : zmNext z bound = .pad (384 * ((z.pos + 7) / 384 + 1)) := by
  unfold zmNext
  dsimp only
  rw [if_neg (by omega), if_neg (by omega), if_neg (by omega), zmNat_eq hin, ← zmHeader, hhead, if_neg, if_pos (by decide)]
  exact not_poisoned hclean _ _

/-- The row of a stored block of a stream. -/
def storedRow (po : Nat) (payload : List Byte) (tag : BitVec 4) : QRow :=
  { data := rowOfList payload, tag := tag, decoded := true, po := some po }

/-- The fields of the header of a stored block. -/
theorem storedHeader_fields {h c : Nat} (hh : h = 384 + 2 ^ 32 * c) (hc : c < 2 ^ 32) :
    nbits h 0 16 = 384 ∧ nbits h 16 8 = 0 ∧ nbits h 24 8 = 0 ∧ nbits h 32 32 = c := by
  simp only [nbits_eq_div_mod]
  omega

/-- A stored block that has arrived, and whose checksum is right, is found with its row, and takes 13 cycles. -/
theorem zmNext_stored {payload : List Byte} {row : QRow} (hclean : ∀ r ∈ z.rows, r.poison = false) (hsize : z.pos + 392 ≤ 384 * z.total)
    (hin : z.pos + 392 ≤ 384 * z.rows.length) (hrow : z.rows[z.pos / 384]? = some row)
    (hhead : zmHeader z = 384 + 2 ^ 32 * (crc32c payload).toNat) (hbody : ((streamBytes z).drop (z.pos + 8)).take 384 = payload)
    (hbound : 1 ≤ bound) :
    zmNext z bound = .block (z.pos + 392) 13 (storedRow z.po payload row.tag) false := by
  obtain ⟨hln, hkind, hres, hcrc⟩ := storedHeader_fields hhead (crc32c payload).isLt
  have hn : min (8 + 384) (384 * z.total - z.pos) = 392 := by omega
  have hbytes := map_zmByte (z := z) (i := z.pos + 8) (n := 384) (by omega)
  rw [hbody] at hbytes
  unfold zmNext
  dsimp only
  rw [if_neg (by omega), if_neg (by omega), if_neg (by omega), zmNat_eq (show z.pos + 8 ≤ _ by omega), ← zmHeader, hln, hkind, hres, hcrc,
    hn, hrow, if_neg, if_neg (by omega), if_neg (by omega), if_neg, if_neg (by omega), if_pos rfl, Option.getD_some, List.map_map,
    Function.comp_def, hbytes, if_neg]
  · rfl
  · rw [bne_self_eq_false, Bool.or_false, Option.isNone_some, Bool.or_false]
    exact not_poisoned hclean _ _
  · rintro (h | h | h | h)
    · exact h rfl
    · exact absurd h (by decide)
    · exact absurd h (by decide)
    · omega
  · exact not_poisoned hclean _ _

end

/-! ### The decoder's cycle -/

section
variable {now bound fuel : Nat} {z : ZStream} {lanes : SMap Nat}

theorem zmTake_finished (h : zmNext z bound = .finished) : zmTake now bound (fuel + 1) z none lanes = (z, lanes) := by
  rw [zmTake, h]
  rfl

theorem zmTake_pad {p : Nat} (h : zmNext z bound = .pad p) :
    zmTake now bound (fuel + 1) z none lanes = zmTake now bound fuel { z with pos := p } none lanes := by
  rw [zmTake, h]

/-- A block that no lane holds yet, and whose lane is free, is taken. -/
theorem zmTake_block {p cycles : Nat} {row : QRow} (h : zmNext z bound = .block p cycles row false) (hout : z.out = [])
    (hlane : smGet 0 lanes (z.k % 4) ≤ now) :
    zmTake now bound (fuel + 1) z none lanes
      = zmTake now bound fuel { z with pos := p, k := z.k + 1, out := [{ k := z.k, ready := now + cycles, row := row }] } none
          (smPut lanes (z.k % 4) (now + cycles)) := by
  rw [zmTake, h]
  dsimp only
  rw [hout, if_neg Bool.false_ne_true, if_neg (Nat.not_lt.mpr hlane)]
  rfl

end

/-- The ratio bound in force (R167). -/
def ratioBound (c : Core) : Nat := if wbits c.vx.zcfg 0 6 = 0 then 64 else wbits c.vx.zcfg 0 6

theorem one_le_ratioBound (c : Core) : 1 ≤ ratioBound c := by
  unfold ratioBound
  split <;> omega

/-- The rows that LQV may hold for the decoder. -/
def lqvRoom (c : Core) : Nat := 64 - reserved c false false

/-- Core `c` after a cycle of its decoder that leaves these streams, busy lanes and rows of LQV. -/
def decoderLeaves (c : Core) (out : List ZStream × List QRow) (lanes : SMap Nat) : Core :=
  { c with q := { c.q with zm := out.1, lanes := lanes, lqv := out.2 } }

/-- The decoder takes what it can of stream `z`, after the streams and the busy lanes `a`. -/
def streamTaken (c : Core) (a : List ZStream × SMap Nat) (z : ZStream) : List ZStream × SMap Nat :=
  let r := zmTake c.cycle (ratioBound c) (z.total * 48 + 1) z none a.2
  (a.1 ++ [r.1], r.2)

theorem zmCycle_eq (c : Core) :
    zmCycle c = decoderLeaves c (zmDeliver (lqvRoom c) c.cycle (c.q.zm.foldl (streamTaken c) ([], c.q.lanes)).1 c.q.lqv)
      (c.q.zm.foldl (streamTaken c) ([], c.q.lanes)).2 := rfl

theorem zmCycle_single {c : Core} {z z' : ZStream} {lanes : SMap Nat} (hz : c.q.zm = [z])
    (htake : zmTake c.cycle (ratioBound c) (z.total * 48 + 1) z none c.q.lanes = (z', lanes)) :
    zmCycle c = decoderLeaves c (zmDeliver (lqvRoom c) c.cycle [z'] c.q.lqv) lanes := by
  have htaken : streamTaken c ([], c.q.lanes) z = ([z'], lanes) := by
    rw [streamTaken, htake]
    rfl
  rw [zmCycle_eq, hz, List.foldl_cons, List.foldl_nil, htaken]

theorem exec_zm1BlockDecode {s : State} {k : Nat} (hrun : (s.core k).run = .running) (hfroz : (s.core k).frozen = false) :
    exec (.zm1BlockDecode k) s = .next (s.setCore k (zmCycle (s.core k))) := by
  show Host.Outcome.next _ = _
  rw [alive_of_running hrun, hfroz]
  rfl

/-- The first block of a stream stays while its row is not ready. -/
theorem zmDeliver_early {room now : Nat} {z : ZStream} {b : ZBlock} (q : List QRow) (hout : z.out = [b]) (h : now < b.ready) :
    zmDeliver room now [z] q = ([z], q) := by
  have hz : ({ z with out := [b] } : ZStream) = z := by rw [← hout]
  rw [zmDeliver, hout, zmOut, if_neg (show ¬ (b.k < z.k ∧ b.ready ≤ now ∧ q.length < room) by omega)]
  dsimp only
  rw [hz, zmOver, hout]
  rfl

/-- The last block of a stream that has been read leaves with its row. -/
theorem zmDeliver_last {room now : Nat} {z : ZStream} {b : ZBlock} {q : List QRow} (hout : z.out = [b]) (hk : b.k < z.k) (h : b.ready ≤ now)
    (hroom : q.length < room) (hrows : z.rows.length = z.total) (hpos : 384 * z.total ≤ z.pos) :
    zmDeliver room now [z] q = ([], q ++ [b.row]) := by
  have hover : zmOver { z with out := [] } = true := by simp [zmOver, hrows, hpos]
  rw [zmDeliver, hout, zmOut, if_pos (show b.k < z.k ∧ b.ready ≤ now ∧ q.length < room from ⟨hk, h, hroom⟩), zmOut]
  dsimp only
  rw [if_pos hover, zmDeliver]

theorem blockLeaves (s : State) (k : Nat) (hrun : (s.core k).run = .running) (hfroz : (s.core k).frozen = false) (z : ZStream) (b : ZBlock)
    (hz : (s.core k).q.zm = [z]) (hout : z.out = [b]) (hk : b.k < z.k) (hrows : z.rows.length = z.total) (hpos : 384 * z.total ≤ z.pos)
    (hready : b.ready ≤ (s.core k).cycle) (hroom : (s.core k).q.lqv.length + reserved (s.core k) false false < 64) :
    ∃ t, exec (.zm1BlockDecode k) s = .next t ∧ OnlyCore k s t ∧ (t.core k).q.zm = [] ∧ (t.core k).q.lqv = (s.core k).q.lqv ++ [b.row] := by
  refine ⟨_, exec_zm1BlockDecode hrun hfroz, onlyCore_setCore _ _ _, ?_⟩
  have htake := zmTake_finished (now := (s.core k).cycle) (fuel := z.total * 48) (lanes := (s.core k).q.lanes)
    (zmNext_finished (bound := ratioBound (s.core k)) hpos)
  rw [core_setCore_same, zmCycle_single hz htake, zmDeliver_last hout hk hready (by unfold lqvRoom; omega) hrows hpos]
  exact ⟨rfl, rfl⟩

/-! ### A stored block (07_vxe_model.md R167, R168) -/

section
variable {bytes payload rest : List Byte} {crc : Nat}
  (hbytes : bytes = leBytes 4 384 ++ leBytes 4 crc ++ payload ++ leBytes 8 0xFF0000 ++ rest) (hlen : payload.length = 384)
include hbytes

theorem storedBlock_header : bytes.take 8 = leBytes 4 384 ++ leBytes 4 crc := by
  rw [hbytes, List.append_assoc, List.append_assoc]
  exact List.take_left' (by rw [List.length_append, length_leBytes, length_leBytes])

include hlen

theorem storedBlock_payload : (bytes.drop 8).take 384 = payload := by
  rw [hbytes, List.append_assoc, List.append_assoc, List.drop_left' (by rw [List.length_append, length_leBytes, length_leBytes])]
  exact List.take_left' hlen

theorem storedBlock_pad : (bytes.drop 392).take 8 = leBytes 8 0xFF0000 := by
  rw [hbytes, List.append_assoc, List.drop_left' (by rw [List.length_append, List.length_append, length_leBytes, length_leBytes, hlen])]
  exact List.take_left' (length_leBytes 8 _)

end

/-- The first block of a stream, a stored one, as the decoder has taken it in cycle `now`. -/
def storedBlock (now po : Nat) (payload : List Byte) (tag : BitVec 4) : ZBlock :=
  { k := 0, ready := now + 13, row := storedRow po payload tag }

/-- The blocks of a stream of one stored block and a pad, as the decoder takes them. -/
theorem zmTake_stored {now bound po : Nat} {payload rest : List Byte} {b0 b1 : QRow} (hclean0 : b0.poison = false) (hclean1 : b1.poison = false)
    (hlen : payload.length = 384) (hbound : 1 ≤ bound) (hbytes : rowBytes b0.data ++ rowBytes b1.data
      = leBytes 4 384 ++ leBytes 4 (crc32c payload).toNat ++ payload ++ leBytes 8 0xFF0000 ++ rest) :
    zmTake now bound (2 * 48 + 1) ⟨po, 2, [b0, b1], 0, 0, []⟩ none []
      = (⟨po, 2, [b0, b1], 768, 1, [storedBlock now po payload b0.tag]⟩, [(0, now + 13)]) := by
  have hstream (pos k : Nat) (out : List ZBlock) : streamBytes ⟨po, 2, [b0, b1], pos, k, out⟩ = rowBytes b0.data ++ rowBytes b1.data := by
    simp [streamBytes]
  have hclean : ∀ r ∈ [b0, b1], r.poison = false := by simp [hclean0, hclean1]
  have hcrc : (crc32c payload).toNat < 2 ^ 32 := (crc32c payload).isLt
  have hblock : zmNext ⟨po, 2, [b0, b1], 0, 0, []⟩ bound
      = .block 392 13 (storedRow po payload b0.tag) false := by
    refine zmNext_stored (z := ⟨po, 2, [b0, b1], 0, 0, []⟩) hclean (show 0 + 392 ≤ 768 by decide) (show 0 + 392 ≤ 768 by decide)
      (show [b0, b1][0 / 384]? = some b0 from rfl) ?_ ?_ hbound
    · rw [zmHeader, hstream, List.drop_zero, storedBlock_header hbytes, leNat_append, leNat_leBytes, leNat_leBytes, length_leBytes]
      omega
    · rw [hstream]
      exact storedBlock_payload hbytes hlen
  have hpad (out : List ZBlock) : zmNext ⟨po, 2, [b0, b1], 392, 1, out⟩ bound = .pad 768 := by
    refine (zmNext_pad hclean (show 392 + 8 ≤ 768 by decide) (show 392 + 8 ≤ 768 by decide) ?_).trans
      (congrArg ZFind.pad (show 384 * ((392 + 7) / 384 + 1) = 768 from rfl))
    rw [zmHeader, hstream, storedBlock_pad hbytes hlen, leNat_leBytes]
    exact Nat.mod_eq_of_lt (by decide)
  rw [zmTake_block hblock rfl (Nat.zero_le _), zmTake_pad (hpad _), zmTake_finished (zmNext_finished (Nat.le_refl _))]
  rfl

theorem blockTaken (s : State) (k : Nat) (hrun : (s.core k).run = .running) (hfroz : (s.core k).frozen = false) (po : Nat)
    (payload : List Byte) (b0 b1 : QRow) (hz : (s.core k).q.zm = [⟨po, 2, [b0, b1], 0, 0, []⟩]) (hlanes : (s.core k).q.lanes = [])
    (hclean0 : b0.poison = false) (hclean1 : b1.poison = false) (hlen : payload.length = 384)
    (hbytes : rowBytes b0.data ++ rowBytes b1.data = leBytes 4 384 ++ leBytes 4 (crc32c payload).toNat ++ payload ++ leBytes 8 0xFF0000
      ++ (rowBytes b1.data).drop 16) :
    ∃ t, exec (.zm1BlockDecode k) s = .next t ∧ OnlyCore k s t
      ∧ (t.core k).q.zm = [⟨po, 2, [b0, b1], 768, 1, [storedBlock (s.core k).cycle po payload b0.tag]⟩]
      ∧ (t.core k).q.lqv = (s.core k).q.lqv := by
  have htake := zmTake_stored (now := (s.core k).cycle) (po := po) hclean0 hclean1 hlen (one_le_ratioBound (s.core k)) hbytes
  refine ⟨_, exec_zm1BlockDecode hrun hfroz, onlyCore_setCore _ _ _, ?_⟩
  rw [← hlanes] at htake
  have hearly : (s.core k).cycle < (storedBlock (s.core k).cycle po payload b0.tag).ready := Nat.lt_add_of_pos_right (by decide)
  rw [core_setCore_same, zmCycle_single hz htake, zmDeliver_early _ rfl hearly]
  exact ⟨rfl, rfl⟩

theorem vxCheckAndDecode : Claims.VxCheckAndDecode := by
  intro s k hrun hfroz c
  refine ⟨shadowCheckMade s k hrun hfroz, ?_, blockLeaves s k hrun hfroz⟩
  rintro po _ payload b0 b1 hz hlanes hclean0 hclean1 rfl hlen hbytes
  exact blockTaken s k hrun hfroz po payload b0 b1 hz hlanes hclean0 hclean1 hlen hbytes

/-- Settles O28: the one result in flight is written by its destination's own rule; the other claims follow the branches of the events. -/
theorem vxResults : Obligations.VxResults := ⟨vxResultsLand, vxCallTaken, vxCheckAndDecode⟩

end Sys2Proof.Proofs
